-- ==== Sys2Proof/Word.lean ====
section
/-! DEFINITION. The word types of the LQ40 model and their plainest arithmetic. -/

namespace Sys2Proof

/-- One byte of memory. -/
abbrev Byte := BitVec 8
/-- A lane value, a lane mask, an instruction word (R233, R240). -/
abbrev W32 := BitVec 32
/-- A scalar register, an address in a register (R240). -/
abbrev W64 := BitVec 64
/-- A 16-byte access unit (R129). -/
abbrev W128 := BitVec 128

/-- The bits `hi:lo` of a natural number, both ends included (R5, R9). -/
def bits (x hi lo : Nat) : Nat := x / 2 ^ lo % 2 ^ (hi + 1 - lo)

/-- Bit `k` of a natural number. -/
def bit (x k : Nat) : Bool := x / 2 ^ k % 2 == 1

/-- A truth value as one bit. -/
def ofBool (b : Bool) : Nat := if b then 1 else 0

/-- The low `n` bits of `x` read as two's complement. -/
def signed (n x : Nat) : Int :=
  if 2 * (x % 2 ^ n) < 2 ^ n then (x % 2 ^ n : Nat) else ((x % 2 ^ n : Nat) : Int) - (2 ^ n : Nat)

/-- An integer reduced modulo `2^n` (R9). -/
def wrap (n : Nat) (z : Int) : Nat := (z % ((2 ^ n : Nat) : Int)).toNat

end Sys2Proof
end

