-- ==== Sys2Proof/Config.lean ====
section
/-! DEFINITION. What the manual leaves open (R8): the free values of the model. Each is an opaque constant: no proof
can see what it is. The log entries named beside them say which outcome each stands for. -/

namespace Sys2Proof.Config

/-- How many core cycles the n-th step of the machine takes (log entry 3: timing is free). -/
opaque stepCycles : Nat → Nat
/-- By how much device time advances in the n-th step, in units of 2^-16 ns (log entry 3, R417). -/
opaque stepTime : Nat → Nat
/-- The n-th free choice among a set of outcomes the manual names and does not order: the TLB entry replaced (R35) or
used (R39), the L1 line replaced (R64), the slate replaced (R69), the count evicted (R40) (log entry 4). -/
opaque choice : Nat → Nat
/-- The set, of the 512 of its slice, in which a slate stands, from its number and its peer (R69, log entry 58). -/
opaque slateSet : Nat → Nat
/-- The rank of lane `l` in the n-th unspecified order of the lanes of one instruction (R86, R311, log entry 5). -/
opaque laneRank : Nat → Nat → Nat
/-- The byte that the pool aperture reads at a place whose layout the manual does not give: an unused granule (R16,
log entry 6). -/
opaque poolByte : Nat → Byte
/-- By how many 16-byte units the register granules of a workgroup are turned against the order of its courses' registers (R16, R20,
log entry 6). -/
opaque poolPlace : Nat → Nat
/-- The count of corrected errors of a die beyond which each is reported (R94, log entry 51). -/
opaque correctedLimit : Nat
/-- The array code in the event of an array for which R91 gives none, by its place in R89's table (R94, log
entry 77). -/
opaque arrayCode : Nat → Nat
/-- The code of a kind of unit in a self-test record, by its place in the table of R410 (R413, log entry 40). -/
opaque unitCode : Nat → Nat
/-- The records of the n-th fatal-error dump, of which R411 gives the frame only: type and content of each (log entry 41). -/
opaque dumpRecords : Nat → List (BitVec 32 × List Byte)
/-- A field of an error event for which an event has no value that the manual names: array code 0, unit 1, address 2, in the n-th step
(R413, log entry 32). -/
opaque eventField : Nat → Nat → Nat
/-- A field of a sequencer's fault for which the fault gives no value: FADDR 0, FKIND 1, FLEVEL 2, in the n-th step (R358, R378, log
entry 21). -/
opaque faultField : Nat → Nat → Nat
/-- By how much an event counter grows in a step for a source whose events this model does not see one by one: stalls, bank
conflicts, busy cycles, hits (R409, log entry 43): step and source. -/
opaque openCount : Nat → Nat → Nat
/-- The frame to which firmware migrates a page of a stack unit that is retired, in the n-th step, from the page's (R410 leaves the
choice to firmware; log entry 40). -/
opaque spareFrame : Nat → Nat → Nat
/-- The link, among those that are set in a route entry, that a reply or a summary takes (R100, log entry 4). -/
opaque replyLink : Nat → Nat
/-- The page-table root that the I/O die walks for an address space of no live job (R412 names an ASN only; log entry 27). -/
opaque asnRoot : Nat → Nat
/-- A time stamp whose moment the manual does not name: the completion of an aborted grid or collective, the launch of a
grid that aborts before its first issue (R187, R212, log entry 29). -/
opaque openStamp : Nat → Nat
/-- The payload of a packet's first flit, of which the manual gives no layout (R422), from what that flit names, and its field of
valid bytes (log entry 78). -/
opaque packetHead : List Nat → Nat × Nat
/-- The signature over an attestation report (R419, log entry 7): identity key, nonce, peer number, images, rollback counter,
retirements. -/
opaque attestSignature : Nat → BitVec 256 → Nat → List (BitVec 256) → Nat → List (Nat × Nat × Nat) → Nat
/-- Where the nonce stands in a message to firmware that asks for a report, of which R419 gives no layout: its first byte (log entry 7). -/
opaque noncePlace : Nat
/-- The fused public key under which boot images are verified (R418). -/
opaque fusedKey : BitVec 256
/-- SLH-DSA-SHA2-128s, the verification of FIPS 205, which R418 names and does not restate: key, message, signature (log entry 7). -/
opaque verifies : BitVec 256 → List Byte → Nat → Bool
/-- SHA-256, which R418 and R419 name and do not restate (log entry 7). -/
opaque sha256 : List Byte → BitVec 256
/-- Where the images that boot leave a hart: the bytes of its private SRAM, and its first instruction; none where they leave it
without firmware (R387, R418, log entry 42). -/
opaque firmware : List (List Byte) → Nat → Option (Nat × List (Nat × Byte))
/-- The status of the response to a virtual access that failed at another module, for which R412's table has none but POISON (log entry
38). -/
opaque remoteStatus : Nat → Nat
/-- The result of a correctly rounded operation that the interval evaluation of Machine/Transc.lean leaves undecided at
its last precision (log entry 8). -/
opaque undecided : Nat → Nat → Nat

/-- What the CSRs that name a hart and its maker read as, by hart and CSR (R387, log entry 35). -/
opaque hartName : Nat → Nat → Nat

end Sys2Proof.Config
end

