-- ==== Sys2Proof/Syntax.lean ====
section
/-! DEFINITION. The operations of the LQ40: the instructions of the cores (Jimir, R258), the instructions of the link
sequencers (R360), and the indivisible steps of the other agents (spec/opcode_table.json), one constructor a row. -/

namespace Sys2Proof

/-- What an operand field names (R240): a vector register, a scalar register, or `v[xn]`. -/
inductive Opnd where
  | v (n : Nat)
  | s (n : Nat)
  | x (n : Nat)
deriving DecidableEq, Repr

/-- Order qualifier of an access prefix (R304). -/
inductive Order where
  | none | acq | rel | ar
deriving DecidableEq, Repr

/-- Scope of an access or a fence (R130). -/
inductive Scope where
  | co | wg | cl | dev | sys
deriving DecidableEq, Repr

/-- Kind of a FENCE (R138). -/
inductive FenceKind where
  | acq | rel | ar | sc
deriving DecidableEq, Repr

/-- An access prefix (R304): order, scope and operation code. -/
structure Acc where
  order : Order
  scope : Scope
  op    : Nat
deriving DecidableEq, Repr

/-- Full/empty qualifier of a local load (R55). -/
inductive LdQual where
  | any | full | take
deriving DecidableEq, Repr

/-- Full/empty qualifier of a local store (R56). -/
inductive StQual where
  | any | fill | put | empty
deriving DecidableEq, Repr

/-- The count of a REP: an immediate, or a scalar register under REGCNT (R254). -/
inductive RepCount where
  | imm (n : Nat)
  | reg (s : Nat)
deriving DecidableEq, Repr

/-- The B operand of MMA: a slot run or a generator (R242). -/
inductive BSrc where
  | slot (t : Nat)
  | gen (g : Nat)
deriving DecidableEq, Repr

/-- The kinds of remote request (R107): a read, a write, an atomic and a reduction store with their operation code. -/
inductive ReqKind where
  | read
  | write
  | rmw (op : Nat)
  | red (op : Nat)
deriving DecidableEq, Repr

/-- A remote request as it reaches a module (R107). `key` names the issuing course at the issuer, `tag` the request. -/
structure RemoteReq where
  issuer : Nat
  dest   : Nat
  pa     : Nat
  kind   : ReqKind
  width  : Nat
  data   : Nat
  cmp    : Nat
  rm     : Nat
  ftz    : Bool
  key    : Nat
  batch  : Nat
  seqno  : Nat
  tag    : Nat
  relayed : Bool
deriving DecidableEq, Repr

/-- A flit on a link, header fields of R121 and the 64 payload bytes as one number. -/
structure Flit where
  seqno   : Nat
  cls     : Nat
  valid   : Nat
  code    : Nat
  src     : Nat
  dst     : Nat
  ack     : Nat
  credits : Nat
  crc     : Nat
  payload : Nat
deriving DecidableEq, Repr

/-- A chunk on a sequencer channel (R372): source peer, source link, size code, bytes. -/
structure Chunk where
  peer  : Nat
  link  : Nat
  size  : Nat
  bytes : List Byte
deriving DecidableEq, Repr

/-- A boot image (R418): its bytes, its version and its signature of 7,856 bytes. -/
structure Image where
  bytes     : List Byte
  version   : Nat
  signature : Nat
deriving DecidableEq, Repr

/-- A unit that an error event or a self-test names (R89, R410). -/
inductive UnitKind where
  | poolRow | lane | operandUnit | slateWay | stackUnit | wavelength
deriving DecidableEq, Repr

/-- What a patrol read meets (R93): no error, a corrected one, an uncorrectable one. -/
inductive Ecc where
  | clean | corrected | uncorrectable
deriving DecidableEq, Repr

/-- The access kinds of a hart (R165, R387, R389): LR, SC and AMO are those of its A extension, an AMO with its funct5 code. -/
inductive EpiKind where
  | load | store | fetch
  | lr | sc
  | amo (op : Nat)
deriving DecidableEq, Repr

/-- What a hart does with its access: the register that it loads, how it extends what it loads, whether that is a register of floating
point, its ordering bits (R165), and the length of the instruction that makes it, 0 where none does. -/
structure HartMove where
  rd     : Nat
  sext   : Bool
  fp     : Bool
  aq     : Bool
  rl     : Bool
  len    : Nat
deriving DecidableEq, Repr

/-- One access of a hart: its kind, address, size and value, and what the hart does with it. -/
structure HartAcc extends HartMove where
  kind   : EpiKind
  addr   : Nat
  size   : Nat
  value  : Nat
deriving DecidableEq, Repr

/-- What a reply brings back: a number of bytes, and the number that they are. -/
structure ReplyData where
  size   : Nat
  bytes  : Nat
deriving DecidableEq, Repr

/-- What an instruction does to a CSR (R388): it writes its operand, sets its bits or clears them. -/
inductive CsrOp where
  | put | set | clear
deriving DecidableEq, Repr

/-- One access of a hart to a CSR: the operation and its operand, whether it writes, the register that takes the old value, and the
length of the instruction that makes it, 0 where none does. -/
structure CsrAcc where
  op     : CsrOp
  value  : W64
  writes : Bool
  rd     : Nat
  len    : Nat
deriving DecidableEq, Repr

/-- One constructor per row of spec/opcode_table.json, the events grouped by agent. -/
inductive Instr where
  -- control, MODE and prefix groups (0x00 to 0x0F)
  | nop
  | br (off : Int)
  | brd (p : Nat) (off : Int)
  | brany (p : Nat) (off : Int)
  | join
  | call (l : Nat) (off : Int)
  | callr (d a : Opnd)
  | ret (a : Opnd)
  | jmpr (a b : Opnd)
  | exit
  | trap (code : Nat)
  | brk (tag : Nat)
  | modew (a : Opnd)
  | modef (sel val : Nat)
  | moder (d : Opnd)
  | rep (n : RepCount) (sd sa sb : Int)
  -- integer (0x10 to 0x27)
  | iadd (d a b : Opnd) (hold : Bool)
  | isub (d a b : Opnd) (hold : Bool)
  | imul (d a b : Opnd) (hold : Bool)
  | imulh (d a b : Opnd) (hold : Bool)
  | imad (d a b : Opnd) (hold : Bool)
  | idiv (d a b : Opnd) (hold : Bool)
  | irem (d a b : Opnd) (hold : Bool)
  | imin (d a b : Opnd) (hold : Bool)
  | imax (d a b : Opnd) (hold : Bool)
  | iabs (d a : Opnd) (hold : Bool)
  | and (d a b : Opnd) (hold : Bool)
  | or (d a b : Opnd) (hold : Bool)
  | xor (d a b : Opnd) (hold : Bool)
  | shl (d a b : Opnd) (hold : Bool)
  | shr (d a b : Opnd) (hold : Bool)
  | sar (d a b : Opnd) (hold : Bool)
  | popc (d a : Opnd) (hold : Bool)
  | clz (d a : Opnd) (hold : Bool)
  | bfx (d a b : Opnd) (hold : Bool)
  | bfi (d a b : Opnd) (hold : Bool)
  | iaddi (d a : Opnd) (imm : Int)
  | shli (d a : Opnd) (imm : Nat)
  | mov (d a : Opnd) (hold : Bool)
  | lit (d : Opnd) (hi : Bool) (w : W32)
  -- floating point (0x28 to 0x3B)
  | fadd (d a b : Opnd) (hold : Bool)
  | fsub (d a b : Opnd) (hold : Bool)
  | fmul (d a b : Opnd) (hold : Bool)
  | fma (d a b : Opnd) (hold : Bool)
  | fnma (d a b : Opnd) (hold : Bool)
  | fdiv (d a b : Opnd) (hold : Bool)
  | fsqrt (d a : Opnd) (hold : Bool)
  | frsq (d a : Opnd) (hold : Bool)
  | frcp (d a : Opnd) (hold : Bool)
  | fmin (d a b : Opnd) (hold : Bool)
  | fmax (d a b : Opnd) (hold : Bool)
  | fabs (d a : Opnd) (hold : Bool)
  | fneg (d a : Opnd) (hold : Bool)
  | fexp2 (d a : Opnd) (hold : Bool)
  | flog2 (d a : Opnd) (hold : Bool)
  | fsin (d a : Opnd) (hold : Bool)
  | fcos (d a : Opnd) (hold : Bool)
  | frint (d a : Opnd) (hold : Bool)
  | fsgn (d a b : Opnd) (hold : Bool)
  | fscale (d a b : Opnd) (hold : Bool)
  -- compare and predicate (0x3C to 0x43)
  | icmp (pd cond : Nat) (a b : Opnd) (hold : Bool)
  | fcmp (pd cond : Nat) (a b : Opnd) (hold : Bool)
  | plog (pd op pa pb : Nat)
  | prd (d : Opnd) (p : Nat)
  | pwr (p : Nat) (a : Opnd) (hold : Bool)
  | sel (d a b : Opnd) (hold : Bool)
  | icmpi (pd cond : Nat) (a : Opnd) (imm : Int)
  | fclass (d a : Opnd) (hold : Bool)
  -- conversion (0x44 to 0x47)
  | cvt (d a : Opnd) (ty : Nat) (hold : Bool)
  | cvts (d a : Opnd) (enc : Bool) (fslot : Nat) (hold : Bool)
  | cpack (d a : Opnd) (fslot : Nat)
  | cunpk (d a : Opnd) (fslot : Nat)
  -- lane operations (0x48 to 0x4F)
  | shfl (d a b : Opnd) (hold : Bool)
  | shflx (d a b : Opnd) (hold : Bool)
  | bcast (d : Opnd) (a : Nat) (b : Opnd)
  | ballot (d : Opnd) (a : Nat)
  | vred (d : Opnd) (a op : Nat)
  | vscan (d a : Opnd) (op : Nat) (ex hold : Bool)
  | lfirst (d : Opnd) (p : Nat)
  | rnd (d a b : Opnd)
  -- index and special registers (0x50 to 0x57)
  | xset (x : Nat) (a : Opnd) (hold : Bool)
  | xoff (x : Nat) (a : Opnd) (hold : Bool)
  | xrd (d : Opnd) (x : Nat)
  | xrdo (d : Opnd) (x : Nat)
  | xadd (x : Nat) (a : Opnd) (hold : Bool)
  | xclr (x : Nat)
  | srd (d : Opnd) (n : Nat)
  | swr (n : Nat) (a : Opnd) (hold : Bool)
  -- memory, synchronisation and mailbox (0x58 to 0x6B)
  | ld (pfx : Option Acc) (data voff : Opnd) (sb : Nat) (lit : Option W32)
  | st (pfx : Option Acc) (data voff : Opnd) (sb : Nat) (lit : Option W32) (batch : Nat)
  | ldl (pfx : Option Acc) (data voff : Opnd) (sb : Nat) (lit : Option W32) (q : LdQual)
  | stl (pfx : Option Acc) (data voff : Opnd) (sb : Nat) (lit : Option W32) (q : StQual)
  | ldcol (data voff : Opnd) (sb : Nat) (lit : Option W32)
  | stcol (data voff : Opnd) (sb : Nat) (lit : Option W32)
  | atomr (pfx : Acc) (data voff : Opnd) (sb : Nat) (lit : Option W32)
  | atoml (pfx : Acc) (data voff : Opnd) (sb : Nat) (lit : Option W32) (full : Bool)
  | red (pfx : Acc) (data voff : Opnd) (sb : Nat) (lit : Option W32) (batch : Nat)
  | atomd (data voff : Opnd) (sb : Nat) (lit : Option W32)
  | closeb (d : Opnd) (b : Nat)
  | fence (kind : FenceKind) (scope : Scope)
  | fenceWb (a : Opnd)
  | barArrive (d : Opnd) (bar : Nat)
  | barWait (bar : Nat) (b : Opnd)
  | barSync (d : Opnd) (bar : Nat)
  | barExpect (bar : Nat) (b : Opnd)
  | monitor (data voff : Opnd) (sb : Nat) (lit : Option W32)
  | mwait (a : Opnd)
  | sigq (a : Opnd) (code : Nat) (host : Bool)
  | spill (first last : Opnd) (sb : Nat) (lit : Option W32)
  | fill (first last : Opnd) (sb : Nat) (lit : Option W32)
  | tend (data voff : Opnd) (sb : Nat) (lit : Option W32)
  | mbsend (d a : Opnd)
  | mbrecv (d a : Opnd)
  -- matrix, generator and copy (0x6C to 0x7B)
  | mma (xd xa : Nat) (xb : BSrc) (fa fb ns : Nat) (za : Bool)
  | mmas (xd xa : Nat) (xb : BSrc) (fa fb ns : Nat) (za sp : Bool) (ms : Nat)
  | oclm (t cnt : Nat)
  | orls (t cnt : Nat)
  | ost (t : Nat) (a : Opnd) (chunk : Nat)
  | ofnc (t mask : Nat)
  | gset (g : Nat) (a b : Opnd) (func : Nat) (tr : Bool) (param : Nat)
  | gseed (g : Nat) (a b : Opnd)
  | cpy (a : Opnd) (barn : Nat) (ben srcl : Bool)
  | cpyi (a : Opnd) (barn : Nat) (ben : Bool)
  | cpyo (a : Opnd) (barn : Nat) (ben : Bool) (bt : Nat) (idx : Bool)
  | waitc (t mask : Nat) (anyBit : Bool)
  | waitm (pend : Nat)
  | aclr (a cnt : Nat)
  | ald (d : Opnd) (a h0 nreg : Nat)
  | awb (d : Opnd) (a : Nat) (b : Opnd) (fs acnt pitch mg : Nat) (me neg : Bool) (barn : Nat) (ben : Bool)
  -- link sequencers (R360)
  | seqNop
  | halt
  | yield
  | seqFence
  | evt (a code : Nat)
  | seqBr (cond a b : Nat) (off : Int)
  | loop (a : Nat) (off : Int)
  | seqAdd (d a b : Nat)
  | seqSub (d a b : Nat)
  | seqAnd (d a b : Nat)
  | seqOr (d a b : Nat)
  | seqXor (d a b : Nat)
  | seqShl (d a b : Nat)
  | seqShr (d a b : Nat)
  | seqMul (d a b : Nat)
  | addi (d a : Nat) (imm : Int)
  | li (d : Nat) (imm : Int)
  | lih (d imm : Nat)
  | ldc (d a : Nat) (imm : Int)
  | stc (a b : Nat) (imm : Int)
  | cst (d sel : Nat)
  | waitf (a b cond : Nat)
  | sigf (a b : Nat)
  | sigfAdd (a b : Nat)
  | slot (d b : Nat)
  | send (ch sz a b : Nat)
  | recv (ch sz a : Nat)
  | rcomb (ch sz a op rm : Nat)
  | rcfwd (ch sz a b op rm : Nat) (w : Bool)
  | rfwd (ch sz a b : Nat) (w : Bool)
  -- translation and the control region
  | walk (die : Nat)
  | walkRestart (die : Nat)
  | walkHeldTimeout (die : Nat)
  | invalidate (die : Nat) (word : W64)
  | invalidationComplete (die : Nat)
  | mqtailWrite (die value : Nat)
  | migrationRecordAppend (die : Nat)
  | registerWrite (pa size value : Nat)
  -- the Umhal port
  | physicalRead (pa size : Nat)
  | physicalWrite (pa size value : Nat)
  | virtualRead (asn va size : Nat)
  | virtualWrite (asn va size value : Nat)
  | managementMailbox (toFirmware : Bool) (msg : Nat) (attest : Bool)
  | hostCreditReturn (n : Nat)
  -- links and remote memory
  | linkTrain (l mode : Nat)
  | linkUp (l groups : Nat)
  | linkOff (l : Nat)
  | drain (l : Nat) (on : Bool)
  | linkDrained (l : Nat)
  | readmit (l : Nat)
  | routeEntryWrite (peer value : Nat)
  | rotationSlotStart (l : Nat)
  | flitSend (l : Nat)
  | flitReceive (l : Nat) (f : Flit)
  | replayTimeout (l : Nat)
  | lossOfLight (l light : Nat)
  | restripe (l : Nat)
  | linkDown (l : Nat)
  | remoteRequest (l : Nat) (r : RemoteReq)
  | remoteReply (issuer tag status : Nat) (data : ReplyData)
  | requestTimeout (tag : Nat)
  | closeMarker (l issuer dest key batch links : Nat)
  | summarySend (issuer key batch : Nat)
  | summaryReply (issuer key batch peer errors : Nat)
  | closebTimeout (key batch : Nat)
  | reductionApply
  -- errors
  | patrolRead (pa : Nat) (e : Ecc)
  | targetedSelfTest (k : UnitKind) (die unit : Nat)
  | fatalError (cause die : Nat)
  -- launch queues
  | writePointerRead (q : Nat)
  | launchPacket (q : Nat)
  | launchHoldEnd (q : Nat)
  | waitPacket (q : Nat)
  | waitWordRead (q : Nat)
  | waittime (q : Nat)
  | collectivePacket (q : Nat)
  | collectiveStart (q : Nat)
  | queueEnable (q : Nat)
  | queueDisable (q : Nat)
  | resume (q : Nat)
  | skip (q : Nat)
  -- placement and pre-emption
  | placement (gid : Nat) (cores : List Nat)
  | preemption (uid : Nat)
  | save (uid : Nat)
  | flushAndRestart (uid : Nat)
  | workgroupDrain (uid : Nat)
  | drainTimeout (uid : Nat)
  | restore (uid : Nat) (cores : List Nat)
  | migration (uid : Nat) (cores : List Nat)
  | workgroupEnd (uid : Nat)
  | quantumSwap (uid crs : Nat)
  | timer (uid crs : Nat)
  | waitTimeout (uid crs : Nat)
  | registerLand (uid crs id : Nat)
  -- what the agents of the module do of their own accord
  | seqWatchdog (l k : Nat)
  | contextTurn (l : Nat)
  | quiet (core : Nat)
  | writePerformed (id : Nat)
  | take (core m rd : Nat)
  | post (core m : Nat)
  | episodeWindowAccess (core : Nat) (kind : EpiKind) (addr size value : Nat) (move : HartMove)
  | episodeCsrWrite (core csr : Nat) (a : CsrAcc)
  | managementCoreAccess (kind : EpiKind) (pa size value : Nat) (move : HartMove)
  -- tasks and grids
  | commit (gid : Nat)
  | unbufferedCommit (gid : Nat)
  | gridAbort (gid cause : Nat)
  | completionWrite (gid : Nat)
  -- engines
  | copyPiece (uid cmd : Nat)
  | matrixOperationComplete (uid cmd : Nat)
  | writeBackBlock (uid cmd : Nat)
  -- network
  | egressTransmit (e : Nat)
  -- the eave cluster
  | eend (core : Nat)
  | scrubComplete (core : Nat)
  | episodeWatchdog (core : Nat)
  | mailboxBind (m value : Nat)
  -- sequencer control
  | go (l k : Nat)
  | seqStep (l k : Nat)
  | stop (l k : Nat)
  | abort (l k : Nat)
  | chunkArrival (l ch : Nat) (c : Chunk)
  -- debug commands
  | haltCourse (die : Nat)
  | resumeCourse (die : Nat)
  | debugStep (die : Nat)
  | freezeCore (die : Nat)
  | thawCore (die : Nat)
  | debugRead (die : Nat)
  | debugWrite (die : Nat) (force : Bool)
  | writeFullEmpty (die : Nat)
  | armBreakpoint (die : Nat)
  | disarmBreakpoint (die : Nat)
  -- latency class, network, power and boot
  | reservationValid (i : Nat)
  | reservationRelease (i : Nat)
  | frameReceive (port : Nat) (frame : List Byte) (fcsOk : Bool)
  | ingressRuleWrite (i : Nat) (word : W64)
  | boot (images : List Image) (key : Nat)
  | lightReturn (l w : Nat)
  | thermalHold (die : Nat)
  | thermalResume (die : Nat)
  | selfTestVerdict (k : UnitKind) (die unit : Nat) (pass : Bool)
  | managementEventDelivery (n : Nat)
deriving DecidableEq, Repr

end Sys2Proof
end

