-- ==== Sys2Proof/WellFormed.lean ====
section
/-! DEFINITION. Which terms are instructions: the field ranges and the checks that an encoding alone decides (R236,
R240 to R242, R254, and each instruction's own entry). A check that needs the course's state stands in its meaning. -/

namespace Sys2Proof

/-- The operand names a register of its class (R240). -/
def Opnd.ok : Opnd → Bool
  | .v n => n < 192
  | .s n => n < 48
  | .x n => n < 16

/-- A scalar register. -/
def Opnd.isS : Opnd → Bool
  | .s n => n < 48
  | _ => false

/-- A vector register named directly. -/
def Opnd.isV : Opnd → Bool
  | .v n => n < 192
  | _ => false

/-- A vector or an indirect operand. -/
def Opnd.isVec : Opnd → Bool
  | .v n => n < 192
  | .x n => n < 16
  | .s _ => false

/-- A scalar destination takes scalar sources only (R241). -/
def dstOk (d : Opnd) (srcs : List Opnd) : Bool :=
  d.ok && srcs.all Opnd.ok && (!d.isS || srcs.all Opnd.isS)

/-- A format V3 operation with one or two sources. -/
def v3Ok (d a b : Opnd) : Bool := dstOk d [a, b]

/-- A signed immediate of `n` bits. -/
def immOk (n : Nat) (z : Int) : Bool := decide (-(2 ^ (n - 1) : Int) ≤ z) && decide (z < (2 ^ (n - 1) : Int))

/-- The predicate, compare condition and sources of a compare (R285). -/
def cmpOk (pd cond top : Nat) (srcs : List Opnd) : Bool :=
  decide (pd < 8) && decide (cond ≤ top) && srcs.all Opnd.ok

/-- The fields common to format M. -/
def memOk (data voff : Opnd) (sb : Nat) : Bool := data.ok && voff.ok && decide (sb < 48)

/-- The prefix of a load or store names the one order it accepts, and no operation (R305). -/
def pfxOk (want : Order) : Option Acc → Bool
  | none => true
  | some p => decide (p.order = want) && decide (p.op = 0)

/-- The range of MODEF's immediate by selector (R276). -/
def modefTop : Nat → Nat
  | 0 => 31 | 1 => 31 | 2 => 7 | _ => 1

/-- A destination type code of CVT (R290). -/
def cvtTyOk (t : Nat) : Bool := decide (t ≤ 5) || (decide (8 ≤ t) && decide (t ≤ 10))

/-- Operand combinations of PLOG (R286). -/
def plogOk (op pa pb : Nat) : Bool :=
  decide (op ≤ 7) && decide (pa < 8) && decide (pb < 8) && (decide (op < 5) || decide (pb = 0))
    && (decide (op < 6) || decide (pa = 0))

/-- The parameter of a generator function (R344, R345). -/
def paramOk (func p : Nat) : Bool :=
  if func = 5 then decide (p < 64) else if func = 6 then decide (1 ≤ p) && decide (p ≤ 32) else decide (p = 0)

/-- OP and RM of a combining chunk instruction (R366). -/
def combOk (op rm : Nat) : Bool := decide (op ≤ 8) && (if op ≤ 1 then decide (rm ≤ 4) else decide (rm = 0))

/-- Register numbers of a sequencer instruction (R359). -/
def cOk (rs : List Nat) : Bool := rs.all fun r => decide (r < 16)

/-- Channel and size code of a chunk instruction (R366). -/
def chunkOk (ch sz : Nat) : Bool := decide (ch < 4) && decide (sz ≤ 8)

/-- The B operand and its format slot (R336). -/
def bsrcOk (xb : BSrc) (fb : Nat) : Bool :=
  match xb with
  | .slot t => decide (t < 32) && decide (fb < 8)
  | .gen g => decide (g < 8) && decide (fb = 0)

/-- A compute die's number (R1, R44). -/
def dieOk (d : Nat) : Bool := decide (d < 4)

/-- A link number (R95). -/
def linkOk (l : Nat) : Bool := decide (l < 16)

/-- A link and a context number (R356). -/
def ctxOk (l k : Nat) : Bool := decide (l < 16) && decide (k < 4)

/-- An access of a hart: its address, its register and the length of its instruction (R387). -/
def hartAccOk (a : HartAcc) : Bool := decide (a.addr < 2 ^ 64) && decide (a.rd < 32) && [0, 2, 4].contains a.len

/-- A launch queue number (R192). -/
def queueOk (q : Nat) : Bool := decide (q < 64)

/-- The well-formed terms. -/
def Instr.wf : Instr → Bool
  | .nop => true
  | .br off => immOk 22 off
  | .brd p off => decide (p < 8) && immOk 22 off
  | .brany p off => decide (p < 8) && immOk 22 off
  | .join => true
  | .call l off => decide (l < 8) && immOk 22 off
  | .callr d a => d.isS && a.isS
  | .ret a => a.isS
  | .jmpr a b => a.isS && b.isS
  | .exit => true
  | .trap code => decide (code < 256)
  | .brk tag => decide (tag < 256)
  | .modew a => a.isS
  | .modef k n => decide (k ≤ 6) && decide (n ≤ modefTop k)
  | .moder d => d.isS
  | .rep n sd sa sb =>
    (match n with | .imm k => decide (k < 256) | .reg r => decide (r < 48)) && immOk 4 sd && immOk 4 sa && immOk 4 sb
  | .iadd d a b _ => v3Ok d a b
  | .isub d a b _ => v3Ok d a b
  | .imul d a b _ => v3Ok d a b
  | .imulh d a b _ => v3Ok d a b
  | .imad d a b _ => v3Ok d a b
  | .idiv d a b _ => v3Ok d a b
  | .irem d a b _ => v3Ok d a b
  | .imin d a b _ => v3Ok d a b
  | .imax d a b _ => v3Ok d a b
  | .iabs d a _ => dstOk d [a]
  | .and d a b _ => v3Ok d a b
  | .or d a b _ => v3Ok d a b
  | .xor d a b _ => v3Ok d a b
  | .shl d a b _ => v3Ok d a b
  | .shr d a b _ => v3Ok d a b
  | .sar d a b _ => v3Ok d a b
  | .popc d a _ => dstOk d [a]
  | .clz d a _ => dstOk d [a]
  | .bfx d a b _ => v3Ok d a b
  | .bfi d a b _ => v3Ok d a b
  | .iaddi d a imm => dstOk d [a] && immOk 9 imm
  | .shli d a imm => dstOk d [a] && decide (imm < 64)
  | .mov d a _ => dstOk d [a]
  | .lit d hi _ => d.ok && (!hi || d.isS)
  | .fadd d a b _ => v3Ok d a b
  | .fsub d a b _ => v3Ok d a b
  | .fmul d a b _ => v3Ok d a b
  | .fma d a b _ => v3Ok d a b
  | .fnma d a b _ => v3Ok d a b
  | .fdiv d a b _ => v3Ok d a b
  | .fsqrt d a _ => dstOk d [a]
  | .frsq d a _ => dstOk d [a]
  | .frcp d a _ => dstOk d [a]
  | .fmin d a b _ => v3Ok d a b
  | .fmax d a b _ => v3Ok d a b
  | .fabs d a _ => dstOk d [a]
  | .fneg d a _ => dstOk d [a]
  | .fexp2 d a _ => dstOk d [a]
  | .flog2 d a _ => dstOk d [a]
  | .fsin d a _ => dstOk d [a]
  | .fcos d a _ => dstOk d [a]
  | .frint d a _ => dstOk d [a]
  | .fsgn d a b _ => v3Ok d a b
  | .fscale d a b _ => v3Ok d a b
  | .icmp pd cond a b _ => cmpOk pd cond 5 [a, b]
  | .fcmp pd cond a b _ => cmpOk pd cond 7 [a, b]
  | .plog pd op pa pb => decide (pd < 8) && plogOk op pa pb
  | .prd d p => d.ok && decide (p < 8)
  | .pwr p a _ => decide (p < 8) && a.ok
  | .sel d a b _ => v3Ok d a b
  | .icmpi pd cond a imm => cmpOk pd cond 5 [a] && immOk 9 imm
  | .fclass d a _ => dstOk d [a]
  | .cvt d a ty _ => dstOk d [a] && cvtTyOk ty
  | .cvts d a _ fs _ => dstOk d [a] && decide (fs < 8)
  | .cpack d a fs => d.isV && a.isV && decide (fs < 8) && (match d with | .v n => decide (n % 4 = 0) | _ => false)
  | .cunpk d a fs => d.isV && a.isV && decide (fs < 8) && (match a with | .v n => decide (n % 4 = 0) | _ => false)
  | .shfl d a b _ => d.isVec && a.isVec && b.ok
  | .shflx d a b _ => d.isVec && a.isVec && b.ok
  | .bcast d a b => d.ok && decide (a < 192) && b.isS
  | .ballot d a => d.ok && decide (a < 192)
  | .vred d a op => d.ok && decide (a < 192) && decide (op ≤ 5)
  | .vscan d a op _ _ => d.isVec && a.isVec && decide (op ≤ 5)
  | .lfirst d p => d.ok && decide (p < 8)
  | .rnd d a b => dstOk d [a, b] && a.isS
  | .xset x a _ => decide (x < 16) && a.isS
  | .xoff x a _ => decide (x < 16) && a.ok
  | .xrd d x => d.ok && decide (x < 16)
  | .xrdo d x => d.isVec && decide (x < 16)
  | .xadd x a _ => decide (x < 16) && a.ok
  | .xclr x => decide (x < 16)
  | .srd d n => d.ok && decide (n < 0x18) && (decide (n ≠ 0x13) || d.isVec)
  | .swr n a _ => (decide (n = 3) || decide (n = 4) || decide (n = 5) || decide (n = 7)) && a.isS
  | .ld p data voff sb _ => memOk data voff sb && (!data.isS || voff.isS) && pfxOk .acq p
  | .st p data voff sb _ b => memOk data voff sb && decide (b < 4) && pfxOk .rel p
  | .ldl p data voff sb _ _ => memOk data voff sb && (!data.isS || voff.isS) && pfxOk .acq p
  | .stl p data voff sb _ _ => memOk data voff sb && pfxOk .rel p
  | .ldcol data voff sb _ => memOk data voff sb && data.isVec && voff.isS
  | .stcol data voff sb _ => memOk data voff sb && data.isVec && voff.isS
  | .atomr p data voff sb _ =>
    memOk data voff sb && (!data.isS || voff.isS) && decide (p.op ≤ 13)
      && (decide (p.op ≠ 10) || (match data with | .x _ => false | _ => true))
  | .atoml p data voff sb _ _ =>
    memOk data voff sb && (!data.isS || voff.isS) && decide (p.op ≤ 13)
      && (decide (p.op ≠ 10) || (match data with | .x _ => false | _ => true))
  | .red p data voff sb _ b =>
    memOk data voff sb && decide (p.op ≤ 8) && decide (b < 4) && (decide (p.order = .none) || decide (p.order = .rel))
  | .atomd data voff sb _ => memOk data voff sb && data.isVec && voff.isS
  | .closeb d b => d.isS && decide (b < 4)
  | .fence _ _ => true
  | .fenceWb a => a.isS
  | .barArrive d bar => d.isS && decide (bar < 64)
  | .barWait bar b => decide (bar < 64) && b.isS
  | .barSync d bar => d.isS && decide (bar < 64)
  | .barExpect bar b => decide (bar < 64) && b.isS
  | .monitor data voff sb _ => data.isS && voff.isS && decide (sb < 48)
  | .mwait a => a.isS
  | .sigq a code _ => a.isS && decide (code < 128)
  | .spill f l sb _ =>
    decide (sb < 48) && (match f, l with
      | .v m, .v n => decide (m ≤ n) && decide (n < 192) | .s m, .s n => decide (m ≤ n) && decide (n < 48) | _, _ => false)
  | .fill f l sb _ =>
    decide (sb < 48) && (match f, l with
      | .v m, .v n => decide (m ≤ n) && decide (n < 192) | .s m, .s n => decide (m ≤ n) && decide (n < 48) | _, _ => false)
  | .tend data voff sb _ => data.isS && voff.isS && decide (sb < 48)
  | .mbsend d a => d.isS && a.isV
  | .mbrecv d a => d.isV && a.isS
  | .mma xd xa xb fa fb ns _ =>
    decide (xd < 128) && decide (xa < 32) && bsrcOk xb fb && decide (fa < 8) && decide (ns < 48)
  | .mmas xd xa xb fa fb ns _ _ ms =>
    decide (xd < 128) && decide (xa < 32) && bsrcOk xb fb && decide (fa < 8) && decide (ns < 48) && decide (ms < 32)
  | .oclm t cnt => decide (t < 32) && decide (1 ≤ cnt) && decide (cnt ≤ 32)
  | .orls t cnt => decide (t < 32) && decide (1 ≤ cnt) && decide (cnt ≤ 32)
  | .ost t a c => decide (t < 32) && decide (c < 16) && (match a with | .v n => decide (n < 192) && decide (n % 4 = 0) | _ => false)
  | .ofnc t mask => decide (t < 32) && decide (mask < 2 ^ 16)
  | .gset g a b func _ p => decide (g < 8) && a.isS && b.isS && decide (func ≤ 6) && paramOk func p
  | .gseed g a b => decide (g < 8) && a.isS && b.isS
  | .cpy a barn _ _ => (match a with | .s n => decide (1 ≤ n) && decide (n + 7 < 48) | _ => false) && decide (barn < 64)
  | .cpyi a barn _ => (match a with | .s n => decide (1 ≤ n) && decide (n + 7 < 48) | _ => false) && decide (barn < 64)
  | .cpyo a barn _ bt _ =>
    (match a with | .s n => decide (1 ≤ n) && decide (n + 7 < 48) | _ => false) && decide (barn < 64) && decide (bt < 4)
  | .waitc t mask _ => decide (t < 32) && decide (mask < 2 ^ 16)
  | .waitm pend => decide (pend < 64)
  | .aclr a cnt => decide (a < 128) && decide (1 ≤ cnt) && decide (cnt ≤ 128)
  | .ald d a h0 nreg => d.isV && decide (a < 128) && decide (1 ≤ nreg) && decide (h0 < 32) && decide (h0 + nreg ≤ 32)
  | .awb d a b fs acnt pitch mg _ _ barn _ =>
    d.isS && decide (a < 128) && b.isS && decide (fs < 8) && decide (1 ≤ acnt) && decide (acnt ≤ 32)
      && decide (1 ≤ pitch) && decide (pitch < 4096) && decide (mg < 8) && decide (barn < 64)
  | .seqNop => true
  | .halt => true
  | .yield => true
  | .seqFence => true
  | .evt a code => cOk [a] && decide (code < 256)
  | .seqBr cond a b off => decide (cond ≤ 6) && cOk [a, b] && immOk 14 off && (decide (cond ≠ 0) || (decide (a = 0) && decide (b = 0)))
  | .loop a off => cOk [a] && decide (a ≠ 0) && immOk 14 off
  | .seqAdd d a b => cOk [d, a, b]
  | .seqSub d a b => cOk [d, a, b]
  | .seqAnd d a b => cOk [d, a, b]
  | .seqOr d a b => cOk [d, a, b]
  | .seqXor d a b => cOk [d, a, b]
  | .seqShl d a b => cOk [d, a, b]
  | .seqShr d a b => cOk [d, a, b]
  | .seqMul d a b => cOk [d, a, b]
  | .addi d a imm => cOk [d, a] && immOk 14 imm
  | .li d imm => cOk [d] && immOk 22 imm
  | .lih d imm => cOk [d] && decide (imm < 2 ^ 22)
  | .ldc d a imm => cOk [d, a] && immOk 14 imm
  | .stc a b imm => cOk [a, b] && immOk 14 imm
  | .cst d k => cOk [d] && decide (k ≤ 4)
  | .waitf a b cond => cOk [a, b] && decide (cond ≤ 3)
  | .sigf a b => cOk [a, b]
  | .sigfAdd a b => cOk [a, b]
  | .slot d b => cOk [d, b]
  | .send ch sz a b => chunkOk ch sz && cOk [a, b]
  | .recv ch sz a => chunkOk ch sz && cOk [a]
  | .rcomb ch sz a op rm => chunkOk ch sz && cOk [a] && combOk op rm
  | .rcfwd ch sz a b op rm _ => chunkOk ch sz && cOk [a, b] && combOk op rm
  | .rfwd ch sz a b w => chunkOk ch sz && cOk [a, b] && (w || decide (a = 0))
  | .walk d => dieOk d
  | .walkRestart d => dieOk d
  | .walkHeldTimeout d => dieOk d
  | .invalidate d _ => dieOk d
  | .invalidationComplete d => dieOk d
  | .mqtailWrite d v => dieOk d && decide (v < 2 ^ 16)
  | .migrationRecordAppend d => dieOk d
  | .registerWrite pa _ _ => decide (pa < 2 ^ 48)
  | .physicalRead pa _ => decide (pa < 2 ^ 48)
  | .physicalWrite pa _ _ => decide (pa < 2 ^ 48)
  | .virtualRead asn va _ => decide (asn < 256) && decide (va < 2 ^ 64)
  | .virtualWrite asn va _ _ => decide (asn < 256) && decide (va < 2 ^ 64)
  | .managementMailbox toFirmware msg attest => decide (msg < 2 ^ 512) && (toFirmware || !attest)
  | .hostCreditReturn _ => true
  | .linkTrain l mode => linkOk l && (decide (mode = 1) || decide (mode = 2))
  | .linkUp l groups => linkOk l && decide (groups < 16)
  | .linkOff l => linkOk l
  | .drain l _ => linkOk l
  | .linkDrained l => linkOk l
  | .readmit l => linkOk l
  | .routeEntryWrite peer v => decide (peer < 4096) && decide (v < 2 ^ 32)
  | .rotationSlotStart l => linkOk l
  | .flitSend l => linkOk l
  | .flitReceive l _ => linkOk l
  | .replayTimeout l => linkOk l
  | .lossOfLight l light => linkOk l && decide (light < 2 ^ 32)
  | .restripe l => linkOk l
  | .linkDown l => linkOk l
  | .remoteRequest l _ => linkOk l
  | .remoteReply _ _ status d => decide (status ≤ 7) && decide (d.size ≤ 1024)
  | .requestTimeout _ => true
  | .closeMarker l _ _ _ _ _ => linkOk l
  | .summarySend _ _ _ => true
  | .summaryReply _ _ _ _ e => decide (e < 2 ^ 32)
  | .closebTimeout _ _ => true
  | .reductionApply => true
  | .patrolRead pa _ => decide (pa < 2 ^ 48)
  | .targetedSelfTest _ d _ => dieOk d
  | .fatalError cause d => decide (1 ≤ cause) && decide (cause ≤ 5) && decide (d ≤ 4)
  | .writePointerRead q => queueOk q
  | .launchPacket q => queueOk q
  | .launchHoldEnd q => queueOk q
  | .waitPacket q => queueOk q
  | .waitWordRead q => queueOk q
  | .waittime q => queueOk q
  | .collectivePacket q => queueOk q
  | .collectiveStart q => queueOk q
  | .queueEnable q => queueOk q
  | .queueDisable q => queueOk q
  | .resume q => queueOk q
  | .skip q => queueOk q
  | .placement _ cores => cores.all fun k => decide (k < 576)
  | .preemption _ => true
  | .save _ => true
  | .flushAndRestart _ => true
  | .workgroupDrain _ => true
  | .drainTimeout _ => true
  | .restore _ cores => cores.all fun k => decide (k < 576)
  | .migration _ cores => cores.all fun k => decide (k < 576)
  | .workgroupEnd _ => true
  | .quantumSwap _ crs => decide (crs < 32)
  | .timer _ crs => decide (crs < 32)
  | .waitTimeout _ crs => decide (crs < 32)
  | .registerLand _ crs _ => decide (crs < 32)
  | .commit _ => true
  | .unbufferedCommit _ => true
  | .gridAbort _ cause => decide (1 ≤ cause) && decide (cause ≤ 5)
  | .completionWrite _ => true
  | .copyPiece _ _ => true
  | .matrixOperationComplete _ _ => true
  | .writeBackBlock _ _ => true
  | .reservationValid i => decide (i < 16)
  | .reservationRelease i => decide (i < 16)
  | .frameReceive port frame _ => decide (port < 2) && decide (frame.length ≤ 9216)
  | .ingressRuleWrite i _ => decide (i < 64)
  | .egressTransmit e => decide (e < 8)
  | .thermalHold d => dieOk d
  | .boot _ _ => true
  | .eend c => decide (c < 16)
  | .scrubComplete c => decide (c < 16)
  | .episodeWatchdog c => decide (c < 16)
  | .take c m rd => decide (c < 16) && decide (m < 256) && decide (rd < 32)
  | .post c m => decide (c < 16) && decide (m < 256)
  | .mailboxBind m v => decide (m < 256) && decide (v < 2 ^ 64)
  | .go l k => ctxOk l k
  | .seqStep l k => ctxOk l k
  | .stop l k => ctxOk l k
  | .abort l k => ctxOk l k
  | .seqWatchdog l k => ctxOk l k
  | .contextTurn l => linkOk l
  | .chunkArrival l ch c => linkOk l && decide (ch < 4) && decide (c.size ≤ 8)
  | .haltCourse d => dieOk d
  | .resumeCourse d => dieOk d
  | .debugStep d => dieOk d
  | .freezeCore d => dieOk d
  | .quiet c => decide (c < 576)
  | .thawCore d => dieOk d
  | .debugRead d => dieOk d
  | .debugWrite d _ => dieOk d
  | .writeFullEmpty d => dieOk d
  | .armBreakpoint d => dieOk d
  | .disarmBreakpoint d => dieOk d
  | .episodeWindowAccess c k addr n v m => decide (c < 16) && hartAccOk ⟨m, k, addr, n, v⟩
  | .episodeCsrWrite c csr a => decide (c < 17) && decide (csr < 4096) && decide (a.rd < 32) && [0, 2, 4].contains a.len
  | .managementCoreAccess k pa n v m => hartAccOk ⟨m, k, pa, n, v⟩
  | .lightReturn l w => linkOk l && decide (w < 32)
  | .thermalResume d => dieOk d
  | .selfTestVerdict _ d _ _ => dieOk d
  | .managementEventDelivery _ => true
  | .writePerformed _ => true

end Sys2Proof
end

