-- ==== Sys2Proof/Decode.lean ====
section
/-! DEFINITION. The decoders and encoders: words of a core (R235, R258), words of a link sequencer (R359, R360). A word
is the instruction that its fields name exactly when it is that instruction's encoding, so that a set reserved bit, a
nonzero unused field or a field value outside its class is refused (R236, R259, R360). -/

namespace Sys2Proof

/-- Why words are no instruction. -/
inductive Reject where
  /-- There is no word to read. -/
  | noWord
  /-- A primary opcode that R258 or R360 does not assign. -/
  | reservedOpcode
  /-- A literal, control or access word is missing. -/
  | missingWord
  /-- A prefix before a word it may not prefix, or an atomic without its prefix (R305). -/
  | badPrefix
  /-- A reserved sub-function. -/
  | badFunction
  /-- A reserved bit, a nonzero unused field, or a register field beyond its class (R236). -/
  | badField
deriving DecidableEq, Repr

-- ## Operand fields

/-- The 8-bit field of an operand (R240). -/
def Opnd.field : Opnd → Nat
  | .v n => n
  | .s n => 0xC0 + n
  | .x n => 0xF0 + n

/-- The operand of an 8-bit field (R240). -/
def Opnd.ofField (f : Nat) : Opnd := if f < 0xC0 then .v f else if f < 0xF0 then .s (f - 0xC0) else .x (f - 0xF0)

/-- Order codes (R304). -/
def Order.code : Order → Nat
  | .none => 0 | .acq => 1 | .rel => 2 | .ar => 3

/-- The order of a code. -/
def Order.ofCode : Nat → Order
  | 0 => .none | 1 => .acq | 2 => .rel | _ => .ar

/-- Scope codes (R304). -/
def Scope.code : Scope → Nat
  | .co => 0 | .wg => 1 | .cl => 2 | .dev => 3 | .sys => 4

/-- The scope of a code; 5 to 7 read as .sys, and re-encoding refuses them. -/
def Scope.ofCode : Nat → Scope
  | 0 => .co | 1 => .wg | 2 => .cl | 3 => .dev | _ => .sys

/-- Fence kind codes (R315). -/
def FenceKind.code : FenceKind → Nat
  | .acq => 0 | .rel => 1 | .ar => 2 | .sc => 3

/-- The fence kind of a code. -/
def FenceKind.ofCode : Nat → FenceKind
  | 0 => .acq | 1 => .rel | 2 => .ar | _ => .sc

/-- Qualifier codes of local loads (R55). -/
def LdQual.code : LdQual → Nat
  | .any => 0 | .full => 1 | .take => 2

/-- The load qualifier of a code; 3 reads as .take, and re-encoding refuses it. -/
def LdQual.ofCode : Nat → LdQual
  | 0 => .any | 1 => .full | _ => .take

/-- Qualifier codes of local stores (R56). -/
def StQual.code : StQual → Nat
  | .any => 0 | .fill => 1 | .put => 2 | .empty => 3

/-- The store qualifier of a code. -/
def StQual.ofCode : Nat → StQual
  | 0 => .any | 1 => .fill | 2 => .put | _ => .empty

/-- The slot-or-generator class field (R242). -/
def BSrc.field : BSrc → Nat
  | .slot t => t
  | .gen g => 0x20 + g

/-- The operand of a slot-or-generator field. -/
def BSrc.ofField (f : Nat) : BSrc := if f < 0x20 then .slot f else .gen (f - 0x20)

-- ## Packing

/-- A format V3 word (R235). -/
def v3w (op d a b h : Nat) : W32 := BitVec.ofNat 32 (op * 2 ^ 25 + d * 2 ^ 17 + a * 2 ^ 9 + b * 2 + h)
/-- A format VI word (R235). -/
def viw (op d a imm : Nat) : W32 := BitVec.ofNat 32 (op * 2 ^ 25 + d * 2 ^ 17 + a * 2 ^ 9 + imm)
/-- A format M word (R235, R301). -/
def mw (op data voff sb lit qual : Nat) : W32 :=
  BitVec.ofNat 32 (op * 2 ^ 25 + data * 2 ^ 17 + voff * 2 ^ 9 + sb * 2 ^ 3 + lit * 4 + qual)
/-- A format C word (R235). -/
def cw (op ctl off : Nat) : W32 := BitVec.ofNat 32 (op * 2 ^ 25 + ctl * 2 ^ 22 + off)
/-- A format P word (R235). -/
def pw (cnt sd sa sb flags : Nat) : W32 :=
  BitVec.ofNat 32 (0x0F * 2 ^ 25 + cnt * 2 ^ 17 + sd * 2 ^ 13 + sa * 2 ^ 9 + sb * 2 ^ 5 + flags)
/-- A control or literal word. -/
def cword (n : Nat) : W32 := BitVec.ofNat 32 n

/-- A format M instruction with its literal word, if it has one (R234). -/
def mWords (op : Nat) (data voff : Opnd) (sb : Nat) (lit : Option W32) (qual : Nat) : List W32 :=
  match lit with
  | none => [mw op data.field voff.field sb 0 qual]
  | some w => [mw op data.field voff.field sb 1 qual, w]

/-- An access prefix word (R304). -/
def pfxWord (p : Acc) : W32 := v3w 0x63 (32 + p.order.code * 8 + p.scope.code) p.op 0 0

/-- The prefix word of an access, if it has one. -/
def pfxWords : Option Acc → List W32
  | none => []
  | some p => [pfxWord p]

/-- The V3 word of an operation with two sources. -/
def bin (op : Nat) (d a b : Opnd) (h : Bool) : List W32 := [v3w op d.field a.field b.field (ofBool h)]
/-- The V3 word of an operation with one source. -/
def una (op : Nat) (d a : Opnd) (h : Bool) : List W32 := [v3w op d.field a.field 0 (ofBool h)]

/-- The words of a core's instruction (R258 and each instruction's entry); no other step has words. -/
def encodeCore : Instr → List W32
  | .nop => [0]
  | .br off => [cw 0x01 0 (wrap 22 off)]
  | .brd p off => [cw 0x02 p (wrap 22 off)]
  | .brany p off => [cw 0x03 p (wrap 22 off)]
  | .join => [v3w 0x04 0 0 0 0]
  | .call l off => [cw 0x05 l (wrap 22 off)]
  | .callr d a => [v3w 0x06 d.field a.field 0 0]
  | .ret a => [v3w 0x07 0 a.field 0 0]
  | .jmpr a b => [v3w 0x08 0 a.field b.field 0]
  | .exit => [v3w 0x09 0 0 0 0]
  | .trap code => [viw 0x0A 0 0 code]
  | .brk tag => [viw 0x0B 0 0 tag]
  | .modew a => [v3w 0x0C 0 a.field 0 0]
  | .modef sel val => [viw 0x0D sel 0 val]
  | .moder d => [v3w 0x0E d.field 0 0 0]
  | .rep (.imm k) sd sa sb => [pw k (wrap 4 sd) (wrap 4 sa) (wrap 4 sb) 0]
  | .rep (.reg r) sd sa sb => [pw (0xC0 + r) (wrap 4 sd) (wrap 4 sa) (wrap 4 sb) 1]
  | .iadd d a b h => bin 0x10 d a b h
  | .isub d a b h => bin 0x11 d a b h
  | .imul d a b h => bin 0x12 d a b h
  | .imulh d a b h => bin 0x13 d a b h
  | .imad d a b h => bin 0x14 d a b h
  | .idiv d a b h => bin 0x15 d a b h
  | .irem d a b h => bin 0x16 d a b h
  | .imin d a b h => bin 0x17 d a b h
  | .imax d a b h => bin 0x18 d a b h
  | .iabs d a h => una 0x19 d a h
  | .and d a b h => bin 0x1A d a b h
  | .or d a b h => bin 0x1B d a b h
  | .xor d a b h => bin 0x1C d a b h
  | .shl d a b h => bin 0x1D d a b h
  | .shr d a b h => bin 0x1E d a b h
  | .sar d a b h => bin 0x1F d a b h
  | .popc d a h => una 0x20 d a h
  | .clz d a h => una 0x21 d a h
  | .bfx d a b h => bin 0x22 d a b h
  | .bfi d a b h => bin 0x23 d a b h
  | .iaddi d a imm => [viw 0x24 d.field a.field (wrap 9 imm)]
  | .shli d a imm => [viw 0x25 d.field a.field imm]
  | .mov d a h => una 0x26 d a h
  | .lit d hi w => [v3w 0x27 d.field 0 (ofBool hi) 0, w]
  | .fadd d a b h => bin 0x28 d a b h
  | .fsub d a b h => bin 0x29 d a b h
  | .fmul d a b h => bin 0x2A d a b h
  | .fma d a b h => bin 0x2B d a b h
  | .fnma d a b h => bin 0x2C d a b h
  | .fdiv d a b h => bin 0x2D d a b h
  | .fsqrt d a h => una 0x2E d a h
  | .frsq d a h => una 0x2F d a h
  | .frcp d a h => una 0x30 d a h
  | .fmin d a b h => bin 0x31 d a b h
  | .fmax d a b h => bin 0x32 d a b h
  | .fabs d a h => una 0x33 d a h
  | .fneg d a h => una 0x34 d a h
  | .fexp2 d a h => una 0x35 d a h
  | .flog2 d a h => una 0x36 d a h
  | .fsin d a h => una 0x37 d a h
  | .fcos d a h => una 0x38 d a h
  | .frint d a h => una 0x39 d a h
  | .fsgn d a b h => bin 0x3A d a b h
  | .fscale d a b h => bin 0x3B d a b h
  | .icmp pd c a b h => [v3w 0x3C (pd + c * 8) a.field b.field (ofBool h)]
  | .fcmp pd c a b h => [v3w 0x3D (pd + c * 8) a.field b.field (ofBool h)]
  | .plog pd op pa pb => [v3w 0x3E (pd + op * 8) pa pb 0]
  | .prd d p => [v3w 0x3F d.field p 0 0]
  | .pwr p a h => [v3w 0x40 p a.field 0 (ofBool h)]
  | .sel d a b h => bin 0x41 d a b h
  | .icmpi pd c a imm => [viw 0x42 (pd + c * 8) a.field (wrap 9 imm)]
  | .fclass d a h => una 0x43 d a h
  | .cvt d a ty h => [v3w 0x44 d.field a.field ty (ofBool h)]
  | .cvts d a enc fs h => [v3w 0x45 d.field a.field (fs + ofBool enc * 8) (ofBool h)]
  | .cpack d a fs => [v3w 0x46 d.field a.field fs 0]
  | .cunpk d a fs => [v3w 0x47 d.field a.field fs 0]
  | .shfl d a b h => bin 0x48 d a b h
  | .shflx d a b h => bin 0x49 d a b h
  | .bcast d a b => [v3w 0x4A d.field a b.field 0]
  | .ballot d a => [v3w 0x4B d.field a 0 0]
  | .vred d a op => [v3w 0x4C d.field a op 0]
  | .vscan d a op ex h => [v3w 0x4D d.field a.field (op + ofBool ex * 8) (ofBool h)]
  | .lfirst d p => [v3w 0x4E d.field p 0 0]
  | .rnd d a b => [v3w 0x4F d.field a.field b.field 0]
  | .xset x a h => [v3w 0x50 x a.field 0 (ofBool h)]
  | .xoff x a h => [v3w 0x51 x a.field 0 (ofBool h)]
  | .xrd d x => [v3w 0x52 d.field x 0 0]
  | .xrdo d x => [v3w 0x53 d.field x 0 0]
  | .xadd x a h => [v3w 0x54 x a.field 0 (ofBool h)]
  | .xclr x => [v3w 0x55 x 0 0 0]
  | .srd d n => [v3w 0x56 d.field n 0 0]
  | .swr n a h => [v3w 0x57 n a.field 0 (ofBool h)]
  | .ld p data voff sb lit => pfxWords p ++ mWords 0x58 data voff sb lit 0
  | .st p data voff sb lit b => pfxWords p ++ mWords 0x59 data voff sb lit b
  | .ldl p data voff sb lit q => pfxWords p ++ mWords 0x5A data voff sb lit q.code
  | .stl p data voff sb lit q => pfxWords p ++ mWords 0x5B data voff sb lit q.code
  | .ldcol data voff sb lit => mWords 0x5C data voff sb lit 0
  | .stcol data voff sb lit => mWords 0x5D data voff sb lit 0
  | .atomr p data voff sb lit => pfxWord p :: mWords 0x5E data voff sb lit 0
  | .atoml p data voff sb lit full => pfxWord p :: mWords 0x5F data voff sb lit (ofBool full)
  | .red p data voff sb lit b => pfxWord p :: mWords 0x60 data voff sb lit b
  | .atomd data voff sb lit => mWords 0x61 data voff sb lit 0
  | .closeb d b => [v3w 0x62 d.field 0 b 0]
  | .fence k sc => [v3w 0x63 (k.code * 8 + sc.code) 0 0 0]
  | .fenceWb a => [v3w 0x63 64 a.field 0 0]
  | .barArrive d bar => [v3w 0x64 d.field bar 0 0]
  | .barWait bar b => [v3w 0x64 0 (64 + bar) b.field 0]
  | .barSync d bar => [v3w 0x64 d.field (128 + bar) 0 0]
  | .barExpect bar b => [v3w 0x64 0 (192 + bar) b.field 0]
  | .monitor data voff sb lit => mWords 0x65 data voff sb lit 0
  | .mwait a => [v3w 0x66 0 a.field 0 0]
  | .sigq a code host => [v3w 0x67 0 a.field (code + ofBool host * 128) 0]
  | .spill f l sb lit => mWords 0x68 f l sb lit 0
  | .fill f l sb lit => mWords 0x69 f l sb lit 0
  | .tend data voff sb lit => mWords 0x6A data voff sb lit 0
  | .mbsend d a => [v3w 0x6B d.field a.field 0 0]
  | .mbrecv d a => [v3w 0x6B d.field a.field 1 0]
  | .mma xd xa xb fa fb ns za =>
    [v3w 0x6C xd xa xb.field 0, cword (fa + fb * 2 ^ 3 + ns * 2 ^ 6 + ofBool za * 2 ^ 12)]
  | .mmas xd xa xb fa fb ns za sp ms =>
    [v3w 0x6D xd xa xb.field 0, cword (fa + fb * 2 ^ 3 + ns * 2 ^ 6 + ofBool za * 2 ^ 12 + ofBool sp * 2 ^ 13 + ms * 2 ^ 14)]
  | .oclm t cnt => [v3w 0x6E t 0 0 0, cword (cnt - 1)]
  | .orls t cnt => [v3w 0x6F t 0 0 0, cword (cnt - 1)]
  | .ost t a c => [v3w 0x70 t a.field 0 0, cword c]
  | .ofnc t mask => [v3w 0x71 t 0 0 0, cword mask]
  | .gset g a b func tr p => [v3w 0x72 g a.field b.field 0, cword (func + ofBool tr * 8 + p * 16)]
  | .gseed g a b => [v3w 0x73 g a.field b.field 0, 0]
  | .cpy a barn ben srcl => [v3w 0x74 0 a.field 0 0, cword (barn + ofBool ben * 2 ^ 6 + ofBool srcl * 2 ^ 7)]
  | .cpyi a barn ben => [v3w 0x75 0 a.field 0 0, cword (barn + ofBool ben * 2 ^ 6)]
  | .cpyo a barn ben bt idx =>
    [v3w 0x76 0 a.field 0 0, cword (barn + ofBool ben * 2 ^ 6 + bt * 2 ^ 7 + ofBool idx * 2 ^ 9)]
  | .waitc t mask anyBit => [v3w 0x77 t 0 0 0, cword (mask + ofBool anyBit * 2 ^ 16)]
  | .waitm pend => [v3w 0x78 0 0 0 0, cword pend]
  | .aclr a cnt => [v3w 0x79 a 0 0 0, cword (cnt - 1)]
  | .ald d a h0 nreg => [v3w 0x7A d.field a 0 0, cword (h0 + (nreg - 1) * 2 ^ 5)]
  | .awb d a b fs acnt pitch mg me neg barn ben =>
    [v3w 0x7B d.field a b.field 0,
     cword (fs + (acnt - 1) * 2 ^ 3 + pitch * 2 ^ 8 + mg * 2 ^ 20 + ofBool me * 2 ^ 23 + ofBool neg * 2 ^ 24 + barn * 2 ^ 25
       + ofBool ben * 2 ^ 31)]
  | _ => []

/-- A format G word of a sequencer (R359). -/
def gw (op d a b imm : Nat) : W32 := BitVec.ofNat 32 (op * 2 ^ 26 + d * 2 ^ 22 + a * 2 ^ 18 + b * 2 ^ 14 + imm)
/-- A format I word of a sequencer. -/
def iw (op d imm : Nat) : W32 := BitVec.ofNat 32 (op * 2 ^ 26 + d * 2 ^ 22 + imm)
/-- A format B word of a sequencer. -/
def bw (op cond a b off : Nat) : W32 := BitVec.ofNat 32 (op * 2 ^ 26 + cond * 2 ^ 23 + a * 2 ^ 18 + b * 2 ^ 14 + off)
/-- A format K word of a sequencer. -/
def kw (op ch sz a b o rm w : Nat) : W32 :=
  BitVec.ofNat 32 (op * 2 ^ 26 + ch * 2 ^ 24 + sz * 2 ^ 20 + a * 2 ^ 16 + b * 2 ^ 12 + o * 2 ^ 8 + rm * 2 ^ 5 + w * 2 ^ 4)

/-- The word of a sequencer's instruction (R360 to R371); no other step has one. -/
def encodeSeq : Instr → List W32
  | .seqNop => [gw 0x00 0 0 0 0]
  | .halt => [gw 0x01 0 0 0 0]
  | .yield => [gw 0x02 0 0 0 0]
  | .seqFence => [gw 0x03 0 0 0 0]
  | .evt a code => [gw 0x04 0 a 0 code]
  | .seqBr cond a b off => [bw 0x05 cond a b (wrap 14 off)]
  | .loop a off => [bw 0x06 0 a 0 (wrap 14 off)]
  | .seqAdd d a b => [gw 0x08 d a b 0]
  | .seqSub d a b => [gw 0x08 d a b 1]
  | .seqAnd d a b => [gw 0x08 d a b 2]
  | .seqOr d a b => [gw 0x08 d a b 3]
  | .seqXor d a b => [gw 0x08 d a b 4]
  | .seqShl d a b => [gw 0x08 d a b 5]
  | .seqShr d a b => [gw 0x08 d a b 6]
  | .seqMul d a b => [gw 0x08 d a b 7]
  | .addi d a imm => [gw 0x09 d a 0 (wrap 14 imm)]
  | .li d imm => [iw 0x0A d (wrap 22 imm)]
  | .lih d imm => [iw 0x0B d imm]
  | .ldc d a imm => [gw 0x0C d a 0 (wrap 14 imm)]
  | .stc a b imm => [gw 0x0D 0 a b (wrap 14 imm)]
  | .cst d sel => [gw 0x0E d 0 0 sel]
  | .waitf a b cond => [gw 0x10 0 a b cond]
  | .sigf a b => [gw 0x11 0 a b 0]
  | .sigfAdd a b => [gw 0x11 0 a b 1]
  | .slot d b => [gw 0x12 d 0 b 0]
  | .send ch sz a b => [kw 0x18 ch sz a b 0 0 0]
  | .recv ch sz a => [kw 0x19 ch sz a 0 0 0 0]
  | .rcomb ch sz a op rm => [kw 0x1A ch sz a 0 op rm 0]
  | .rcfwd ch sz a b op rm w => [kw 0x1B ch sz a b op rm (ofBool w)]
  | .rfwd ch sz a b w => [kw 0x1C ch sz a b 0 0 (ofBool w)]
  | _ => []

/-- The words of an instruction: a core's or a sequencer's. -/
def encode (i : Instr) : List W32 := if encodeCore i = [] then encodeSeq i else encodeCore i

/-- The instruction belongs to the cores. -/
def Instr.isCore (i : Instr) : Bool := encodeCore i ≠ []
/-- The instruction belongs to the link sequencers. -/
def Instr.isSeq (i : Instr) : Bool := encodeSeq i ≠ []

-- ## Reading the fields

/-- Primary opcode of a core's word (R235). -/
def fOp (w : W32) : Nat := w.toNat / 2 ^ 25
/-- Bits 24:17. -/
def fD (w : W32) : Nat := w.toNat / 2 ^ 17 % 256
/-- Bits 16:9. -/
def fA (w : W32) : Nat := w.toNat / 2 ^ 9 % 256
/-- Bits 8:1. -/
def fB (w : W32) : Nat := w.toNat / 2 % 256
/-- Bit 0. -/
def fH (w : W32) : Bool := w.toNat % 2 == 1
/-- Bits 8:0, unsigned. -/
def fI (w : W32) : Nat := w.toNat % 512
/-- Bits 8:3, the scalar base of format M. -/
def fS (w : W32) : Nat := w.toNat / 8 % 64
/-- Bit 2, the literal flag of format M. -/
def fL (w : W32) : Bool := w.toNat / 4 % 2 == 1
/-- Bits 1:0, the qualifier of format M. -/
def fQ (w : W32) : Nat := w.toNat % 4
/-- Bits 24:22 of format C. -/
def fC (w : W32) : Nat := w.toNat / 2 ^ 22 % 8
/-- Bits 21:0 of format C, signed. -/
def fO (w : W32) : Int := signed 22 w.toNat

/-- Operand d. -/
def oD (w : W32) : Opnd := .ofField (fD w)
/-- Operand a. -/
def oA (w : W32) : Opnd := .ofField (fA w)
/-- Operand b. -/
def oB (w : W32) : Opnd := .ofField (fB w)

/-- An operation with two sources, its fields read. -/
def getBin (k : Opnd → Opnd → Opnd → Bool → Instr) (w : W32) : Except Reject Instr := .ok (k (oD w) (oA w) (oB w) (fH w))
/-- An operation with one source, its fields read. -/
def getUna (k : Opnd → Opnd → Bool → Instr) (w : W32) : Except Reject Instr := .ok (k (oD w) (oA w) (fH w))

/-- A format M word with its literal. -/
def getM (w : W32) (rest : List W32) (k : Opnd → Opnd → Nat → Option W32 → Nat → Instr) : Except Reject Instr :=
  if fL w then
    match rest with
    | l :: _ => .ok (k (oD w) (oA w) (fS w) (some l) (fQ w))
    | [] => .error .missingWord
  else .ok (k (oD w) (oA w) (fS w) none (fQ w))

/-- A format X word with its control word, the latter as a number. -/
def getX (rest : List W32) (k : Nat → Instr) : Except Reject Instr :=
  match rest with
  | c :: _ => .ok (k c.toNat)
  | [] => .error .missingWord

/-- The access word behind a prefix (R305). -/
def parsePrefixed (p : Acc) (w : W32) (rest : List W32) : Except Reject Instr :=
  match fOp w with
  | 0x58 => getM w rest fun d v s l _ => .ld (some p) d v s l
  | 0x59 => getM w rest fun d v s l q => .st (some p) d v s l q
  | 0x5A => getM w rest fun d v s l q => .ldl (some p) d v s l (.ofCode q)
  | 0x5B => getM w rest fun d v s l q => .stl (some p) d v s l (.ofCode q)
  | 0x5E => getM w rest fun d v s l _ => .atomr p d v s l
  | 0x5F => getM w rest fun d v s l q => .atoml p d v s l (q == 1)
  | 0x60 => getM w rest fun d v s l q => .red p d v s l q
  | _ => .error .badPrefix

/-- Opcode 0x63: fence, access prefix or slate write-back by bits 7:5 of field d (R304, R315, R316). -/
def parseFence (w : W32) (rest : List W32) : Except Reject Instr :=
  match fD w / 32 with
  | 0 => .ok (.fence (.ofCode (fD w / 8 % 4)) (.ofCode (fD w % 8)))
  | 1 =>
    match rest with
    | a :: r =>
      if fD w % 8 ≤ 4 then parsePrefixed ⟨.ofCode (fD w / 8 % 4), .ofCode (fD w % 8), fA w⟩ a r else .error .badField
    | [] => .error .missingWord
  | 2 => .ok (.fenceWb (oA w))
  | _ => .error .badFunction

/-- Opcode 0x64: the barrier functions by bits 7:6 of field a (R317). -/
def parseBar (w : W32) : Except Reject Instr :=
  match fA w / 64 with
  | 0 => .ok (.barArrive (oD w) (fA w % 64))
  | 1 => .ok (.barWait (fA w % 64) (oB w))
  | 2 => .ok (.barSync (oD w) (fA w % 64))
  | _ => .ok (.barExpect (fA w % 64) (oB w))

/-- The control, integer, float, compare and conversion opcodes 0x00 to 0x47 (R258). -/
def parseLow (w : W32) (rest : List W32) : Except Reject Instr :=
  match fOp w with
  | 0x00 => .ok .nop
  | 0x01 => .ok (.br (fO w))
  | 0x02 => .ok (.brd (fC w) (fO w))
  | 0x03 => .ok (.brany (fC w) (fO w))
  | 0x04 => .ok .join
  | 0x05 => .ok (.call (fC w) (fO w))
  | 0x06 => .ok (.callr (oD w) (oA w))
  | 0x07 => .ok (.ret (oA w))
  | 0x08 => .ok (.jmpr (oA w) (oB w))
  | 0x09 => .ok .exit
  | 0x0A => .ok (.trap (fI w))
  | 0x0B => .ok (.brk (fI w))
  | 0x0C => .ok (.modew (oA w))
  | 0x0D => .ok (.modef (fD w) (fI w))
  | 0x0E => .ok (.moder (oD w))
  | 0x0F =>
    .ok (.rep (if fH w then .reg (fD w - 0xC0) else .imm (fD w)) (signed 4 (w.toNat / 2 ^ 13)) (signed 4 (w.toNat / 2 ^ 9))
      (signed 4 (w.toNat / 2 ^ 5)))
  | 0x10 => getBin .iadd w
  | 0x11 => getBin .isub w
  | 0x12 => getBin .imul w
  | 0x13 => getBin .imulh w
  | 0x14 => getBin .imad w
  | 0x15 => getBin .idiv w
  | 0x16 => getBin .irem w
  | 0x17 => getBin .imin w
  | 0x18 => getBin .imax w
  | 0x19 => getUna .iabs w
  | 0x1A => getBin .and w
  | 0x1B => getBin .or w
  | 0x1C => getBin .xor w
  | 0x1D => getBin .shl w
  | 0x1E => getBin .shr w
  | 0x1F => getBin .sar w
  | 0x20 => getUna .popc w
  | 0x21 => getUna .clz w
  | 0x22 => getBin .bfx w
  | 0x23 => getBin .bfi w
  | 0x24 => .ok (.iaddi (oD w) (oA w) (signed 9 w.toNat))
  | 0x25 => .ok (.shli (oD w) (oA w) (fI w))
  | 0x26 => getUna .mov w
  | 0x27 => match rest with | l :: _ => .ok (.lit (oD w) (fB w == 1) l) | [] => .error .missingWord
  | 0x28 => getBin .fadd w
  | 0x29 => getBin .fsub w
  | 0x2A => getBin .fmul w
  | 0x2B => getBin .fma w
  | 0x2C => getBin .fnma w
  | 0x2D => getBin .fdiv w
  | 0x2E => getUna .fsqrt w
  | 0x2F => getUna .frsq w
  | 0x30 => getUna .frcp w
  | 0x31 => getBin .fmin w
  | 0x32 => getBin .fmax w
  | 0x33 => getUna .fabs w
  | 0x34 => getUna .fneg w
  | 0x35 => getUna .fexp2 w
  | 0x36 => getUna .flog2 w
  | 0x37 => getUna .fsin w
  | 0x38 => getUna .fcos w
  | 0x39 => getUna .frint w
  | 0x3A => getBin .fsgn w
  | 0x3B => getBin .fscale w
  | 0x3C => .ok (.icmp (fD w % 8) (fD w / 8) (oA w) (oB w) (fH w))
  | 0x3D => .ok (.fcmp (fD w % 8) (fD w / 8) (oA w) (oB w) (fH w))
  | 0x3E => .ok (.plog (fD w % 8) (fD w / 8) (fA w) (fB w))
  | 0x3F => .ok (.prd (oD w) (fA w))
  | 0x40 => .ok (.pwr (fD w) (oA w) (fH w))
  | 0x41 => getBin .sel w
  | 0x42 => .ok (.icmpi (fD w % 8) (fD w / 8) (oA w) (signed 9 w.toNat))
  | 0x43 => getUna .fclass w
  | 0x44 => .ok (.cvt (oD w) (oA w) (fB w) (fH w))
  | 0x45 => .ok (.cvts (oD w) (oA w) (fB w / 8 % 2 == 1) (fB w % 8) (fH w))
  | 0x46 => .ok (.cpack (oD w) (oA w) (fB w))
  | 0x47 => .ok (.cunpk (oD w) (oA w) (fB w))
  | _ => .error .reservedOpcode

/-- The lane, index, special-register, memory, matrix and copy opcodes 0x48 to 0x7B (R258). -/
def parseHigh (w : W32) (rest : List W32) : Except Reject Instr :=
  match fOp w with
  | 0x48 => getBin .shfl w
  | 0x49 => getBin .shflx w
  | 0x4A => .ok (.bcast (oD w) (fA w) (oB w))
  | 0x4B => .ok (.ballot (oD w) (fA w))
  | 0x4C => .ok (.vred (oD w) (fA w) (fB w))
  | 0x4D => .ok (.vscan (oD w) (oA w) (fB w % 8) (fB w / 8 % 2 == 1) (fH w))
  | 0x4E => .ok (.lfirst (oD w) (fA w))
  | 0x4F => .ok (.rnd (oD w) (oA w) (oB w))
  | 0x50 => .ok (.xset (fD w) (oA w) (fH w))
  | 0x51 => .ok (.xoff (fD w) (oA w) (fH w))
  | 0x52 => .ok (.xrd (oD w) (fA w))
  | 0x53 => .ok (.xrdo (oD w) (fA w))
  | 0x54 => .ok (.xadd (fD w) (oA w) (fH w))
  | 0x55 => .ok (.xclr (fD w))
  | 0x56 => .ok (.srd (oD w) (fA w))
  | 0x57 => .ok (.swr (fD w) (oA w) (fH w))
  | 0x58 => getM w rest fun d v s l _ => .ld none d v s l
  | 0x59 => getM w rest fun d v s l q => .st none d v s l q
  | 0x5A => getM w rest fun d v s l q => .ldl none d v s l (.ofCode q)
  | 0x5B => getM w rest fun d v s l q => .stl none d v s l (.ofCode q)
  | 0x5C => getM w rest fun d v s l _ => .ldcol d v s l
  | 0x5D => getM w rest fun d v s l _ => .stcol d v s l
  | 0x5E => .error .badPrefix
  | 0x5F => .error .badPrefix
  | 0x60 => .error .badPrefix
  | 0x61 => getM w rest fun d v s l _ => .atomd d v s l
  | 0x62 => .ok (.closeb (oD w) (fB w))
  | 0x63 => parseFence w rest
  | 0x64 => parseBar w
  | 0x65 => getM w rest fun d v s l _ => .monitor d v s l
  | 0x66 => .ok (.mwait (oA w))
  | 0x67 => .ok (.sigq (oA w) (fB w % 128) (fB w / 128 == 1))
  | 0x68 => getM w rest fun d v s l _ => .spill d v s l
  | 0x69 => getM w rest fun d v s l _ => .fill d v s l
  | 0x6A => getM w rest fun d v s l _ => .tend d v s l
  | 0x6B => .ok (if fB w = 0 then .mbsend (oD w) (oA w) else .mbrecv (oD w) (oA w))
  | 0x6C => getX rest fun c => .mma (fD w) (fA w) (.ofField (fB w)) (c % 8) (c / 8 % 8) (c / 64 % 64) (bit c 12)
  | 0x6D =>
    getX rest fun c =>
      .mmas (fD w) (fA w) (.ofField (fB w)) (c % 8) (c / 8 % 8) (c / 64 % 64) (bit c 12) (bit c 13) (c / 2 ^ 14 % 32)
  | 0x6E => getX rest fun c => .oclm (fD w) (c % 32 + 1)
  | 0x6F => getX rest fun c => .orls (fD w) (c % 32 + 1)
  | 0x70 => getX rest fun c => .ost (fD w) (oA w) (c % 16)
  | 0x71 => getX rest fun c => .ofnc (fD w) (c % 2 ^ 16)
  | 0x72 => getX rest fun c => .gset (fD w) (oA w) (oB w) (c % 8) (bit c 3) (c / 16 % 64)
  | 0x73 => getX rest fun _ => .gseed (fD w) (oA w) (oB w)
  | 0x74 => getX rest fun c => .cpy (oA w) (c % 64) (bit c 6) (bit c 7)
  | 0x75 => getX rest fun c => .cpyi (oA w) (c % 64) (bit c 6)
  | 0x76 => getX rest fun c => .cpyo (oA w) (c % 64) (bit c 6) (c / 2 ^ 7 % 4) (bit c 9)
  | 0x77 => getX rest fun c => .waitc (fD w) (c % 2 ^ 16) (bit c 16)
  | 0x78 => getX rest fun c => .waitm (c % 64)
  | 0x79 => getX rest fun c => .aclr (fD w) (c % 128 + 1)
  | 0x7A => getX rest fun c => .ald (oD w) (fA w) (c % 32) (c / 32 % 32 + 1)
  | 0x7B =>
    getX rest fun c =>
      .awb (oD w) (fA w) (oB w) (c % 8) (c / 8 % 32 + 1) (c / 2 ^ 8 % 4096) (c / 2 ^ 20 % 8) (bit c 23) (bit c 24)
        (c / 2 ^ 25 % 64) (bit c 31)
  | _ => .error .reservedOpcode

/-- The instruction whose fields the words hold, before the check that they are its encoding. -/
def parseCore (ws : List W32) : Except Reject Instr :=
  match ws with
  | [] => .error .noWord
  | w :: rest => if fOp w < 0x48 then parseLow w rest else parseHigh w rest

/-- The core's decoder: the instruction at the head of the words (R233, R259). -/
def decodeCore (ws : List W32) : Except Reject Instr :=
  match parseCore ws with
  | .error r => .error r
  | .ok i => if i.wf && decide (encodeCore i = ws.take (encodeCore i).length) then .ok i else .error .badField

/-- The length in bytes of an instruction of a core, its literal, control and prefix words included (R233, R305). -/
def Instr.size (i : Instr) : Nat := 4 * (encodeCore i).length

/-- Field of a sequencer word at bit `lo`, four bits wide. -/
def nib (w : W32) (lo : Nat) : Nat := w.toNat / 2 ^ lo % 16
/-- The signed 14-bit immediate or offset of a sequencer word. -/
def imm14 (w : W32) : Int := signed 14 w.toNat

/-- The sequencer instruction whose fields the word holds (R359, R360). -/
def parseSeq (w : W32) : Except Reject Instr :=
  let d := nib w 22
  let a := nib w 18
  let b := nib w 14
  match w.toNat / 2 ^ 26 with
  | 0x00 => .ok .seqNop
  | 0x01 => .ok .halt
  | 0x02 => .ok .yield
  | 0x03 => .ok .seqFence
  | 0x04 => .ok (.evt a (w.toNat % 256))
  | 0x05 => .ok (.seqBr (w.toNat / 2 ^ 23 % 8) a b (imm14 w))
  | 0x06 => .ok (.loop a (imm14 w))
  | 0x08 =>
    match w.toNat % 2 ^ 14 with
    | 0 => .ok (.seqAdd d a b)
    | 1 => .ok (.seqSub d a b)
    | 2 => .ok (.seqAnd d a b)
    | 3 => .ok (.seqOr d a b)
    | 4 => .ok (.seqXor d a b)
    | 5 => .ok (.seqShl d a b)
    | 6 => .ok (.seqShr d a b)
    | 7 => .ok (.seqMul d a b)
    | _ => .error .badFunction
  | 0x09 => .ok (.addi d a (imm14 w))
  | 0x0A => .ok (.li d (signed 22 w.toNat))
  | 0x0B => .ok (.lih d (w.toNat % 2 ^ 22))
  | 0x0C => .ok (.ldc d a (imm14 w))
  | 0x0D => .ok (.stc a b (imm14 w))
  | 0x0E => .ok (.cst d (w.toNat % 2 ^ 14))
  | 0x10 => .ok (.waitf a b (w.toNat % 2 ^ 14))
  | 0x11 => if w.toNat % 2 ^ 14 = 0 then .ok (.sigf a b) else .ok (.sigfAdd a b)
  | 0x12 => .ok (.slot d b)
  | 0x18 => .ok (.send (w.toNat / 2 ^ 24 % 4) (nib w 20) (nib w 16) (nib w 12))
  | 0x19 => .ok (.recv (w.toNat / 2 ^ 24 % 4) (nib w 20) (nib w 16))
  | 0x1A => .ok (.rcomb (w.toNat / 2 ^ 24 % 4) (nib w 20) (nib w 16) (nib w 8) (w.toNat / 2 ^ 5 % 8))
  | 0x1B =>
    .ok (.rcfwd (w.toNat / 2 ^ 24 % 4) (nib w 20) (nib w 16) (nib w 12) (nib w 8) (w.toNat / 2 ^ 5 % 8) (bit w.toNat 4))
  | 0x1C => .ok (.rfwd (w.toNat / 2 ^ 24 % 4) (nib w 20) (nib w 16) (nib w 12) (bit w.toNat 4))
  | _ => .error .reservedOpcode

/-- The sequencer's decoder (R360). -/
def decodeSeq (w : W32) : Except Reject Instr :=
  match parseSeq w with
  | .error r => .error r
  | .ok i => if i.wf && decide (encodeSeq i = [w]) then .ok i else .error .badField

/-- The little-endian word of four bytes (R5, R233). -/
def wordOfBytes (b0 b1 b2 b3 : Byte) : W32 :=
  BitVec.ofNat 32 (b0.toNat + b1.toNat * 2 ^ 8 + b2.toNat * 2 ^ 16 + b3.toNat * 2 ^ 24)

/-- The words of a run of bytes; a last part of fewer than four bytes is no word. -/
def wordsOfBytes : List Byte → List W32
  | b0 :: b1 :: b2 :: b3 :: r => wordOfBytes b0 b1 b2 b3 :: wordsOfBytes r
  | _ => []

/-- The core's decoder on bytes. -/
def decodeBytes (bs : List Byte) : Except Reject Instr := decodeCore (wordsOfBytes bs)

/-- The words of an instruction whose bits are numbered from the first word's bit 0, zeros above them. -/
def tableWords (w : Nat) : List W32 :=
  [BitVec.ofNat 32 w, BitVec.ofNat 32 (w / 2 ^ 32), BitVec.ofNat 32 (w / 2 ^ 64)]

/-- The instruction of a word of the opcode table. The cores and the sequencers are two processors whose words overlap:
the core's reading is taken where there is one, the sequencer's otherwise (log entry 12). -/
def decodeTableWord (_nbits w : Nat) : Option Instr :=
  match decodeCore (tableWords w) with
  | .ok i => some i
  | .error _ =>
    match decodeSeq (BitVec.ofNat 32 w) with
    | .ok i => some i
    | .error _ => none

end Sys2Proof
end

