-- ==== Sys2Proof/Machine/Tab.lean ====
section
/-! DEFINITION. Finite tables: lists of (key, value) pairs, keys rising. A table is how the state holds every indexed
collection (register files, memories, queues by number). An unlisted key reads as the table's default. -/

namespace Sys2Proof.Machine

/-- A table from numbers to values. -/
abbrev Tab (α : Type) := List (Nat × α)

/-- The value listed for key `k`. -/
def Tab.find {α : Type} (t : Tab α) (k : Nat) : Option α :=
  match t with
  | [] => none
  | (j, v) :: r => if j = k then some v else Tab.find r k

/-- The value at key `k`, `d` where none is listed. -/
def Tab.get {α : Type} (d : α) (t : Tab α) (k : Nat) : α := (Tab.find t k).getD d

/-- The table without key `k`. -/
def Tab.del {α : Type} (t : Tab α) (k : Nat) : Tab α :=
  match t with
  | [] => []
  | (j, v) :: r => if j = k then Tab.del r k else (j, v) :: Tab.del r k

/-- Insertion of a key that is not listed, before the first greater key. -/
def Tab.ins {α : Type} (t : Tab α) (k : Nat) (v : α) : Tab α :=
  match t with
  | [] => [(k, v)]
  | (j, u) :: r => if k < j then (k, v) :: (j, u) :: r else (j, u) :: Tab.ins r k v

/-- The table with `v` listed at key `k`. -/
def Tab.set {α : Type} (t : Tab α) (k : Nat) (v : α) : Tab α := Tab.ins (Tab.del t k) k v

/-- The table with value `v` at key `k`, where a value equal to the default is not listed. -/
def Tab.put {α : Type} [DecidableEq α] (d : α) (t : Tab α) (k : Nat) (v : α) : Tab α :=
  if v = d then Tab.del t k else Tab.set t k v

/-- The keys rise strictly. -/
def Tab.sorted {α : Type} (t : Tab α) : Bool :=
  match t with
  | [] => true
  | (j, _) :: r => (r.all fun e => decide (j < e.1)) && Tab.sorted r

/-- Canonical form: keys strictly rising, no entry equal to the default. -/
def Tab.canon {α : Type} [DecidableEq α] (d : α) (t : Tab α) : Bool :=
  Tab.sorted t && t.all fun e => decide (e.2 ≠ d)

/-- Every value changed by `f`. -/
def Tab.mapVal {α β : Type} (f : Nat → α → β) (t : Tab α) : Tab β := t.map fun e => (e.1, f e.1 e.2)

/-- A member of a list by a free number: the only one where there is one. -/
def pickFrom {α : Type} (l : List α) (n : Nat) : Option α :=
  match l with
  | [] => none
  | [a] => some a
  | _ => l[n % l.length]?

end Sys2Proof.Machine
end

