-- ==== Sys2Proof/Machine/State.lean ====
section
/-! DEFINITION. The state of one LQ40 module as plain data, its stops, and the state after reset. Indexed collections
are tables (lists of key and value, Machine/Tab.lean); an unlisted key reads as the default named at its accessor. -/

namespace Sys2Proof.Machine

/-- Why the machine stops. -/
inductive Fault where
  /-- Raised by `step` once a fatal error has been taken and nothing but a module reset is left to happen: the module
  waits for reset (R411). Safe: the manual gives no further effect. -/
  | awaitingReset
  /-- Raised by `step` after a boot image has failed: the boot has stopped (R418). Safe. -/
  | bootStopped
deriving DecidableEq, Repr

/-- Why the model gives no meaning. -/
inductive Refusal where
  /-- Raised by `exec` for an instruction that has no meaning yet. Safe. -/
  | notModelled (mnemonic : String)
deriving DecidableEq, Repr

/-- A vector register: 32 lanes of 32 bits (R240). -/
abbrev VReg := Vector W32 32

/-- An index register (R243): control bits 31:0 and the 32 offsets. -/
structure XReg where
  ctl : W32
  off : Vector (BitVec 6) 32
deriving DecidableEq, Repr

/-- A generator register (R344). -/
structure Gen where
  gs    : W64
  tid   : W32
  gscl  : W32
  row0  : W32
  col0  : W32
  func  : Nat
  tr    : Bool
  param : Nat
deriving DecidableEq, Repr

/-- KIND of a reconvergence stack entry (R175). -/
inductive EntryKind where
  | diverge | trap
deriving DecidableEq, Repr

/-- A reconvergence stack entry (R175). -/
structure StackEntry where
  kind  : EntryKind
  pc    : W64
  phase : Bool
  mask  : W32
  pend  : W32
deriving DecidableEq, Repr

/-- A batch state (R115): counter and peer set; `gen` counts the closings of the batch, so that what one of them has left on the
way never counts for a later one (R118, log entry 82); `sent` lists the (peer, link) pairs that carried its stores and `down`
the peers for which the issuer's link layer answers (R126); `errs` marks the numbers of stores that failed before any link took
them (R99, log entry 17). -/
structure Batch where
  gen   : Nat
  count : W32
  peers : List Nat
  sent  : List (Nat × Nat)
  down  : List Nat
  errs  : W32
deriving DecidableEq, Repr

/-- Where an access is performed (R129). -/
inductive Target where
  | stack (pa : Nat)
  | scratch (uid addr : Nat)
  | remote (peer pa : Nat)
  | cached (peer pa : Nat)
deriving DecidableEq, Repr

/-- One lane's access of an instruction in flight: target, address as formed, width, first destination register, the
operand and the compare value of an atomic. -/
structure LaneAcc where
  lane  : Nat
  tgt   : Target
  va    : Nat
  width : Nat
  reg   : Nat
  v     : Nat
  c     : Nat
deriving DecidableEq, Repr

/-- What a long-latency producer (R303) still has to do when it lands. -/
inductive FlightKind where
  /-- Reads of the lanes (LD, LDL, LDCOL, MONITOR); `ty` is the MODE.T code that extends them. -/
  | load (ty : Nat)
  /-- Atomics of the lanes (R310). -/
  | rmw (op rm : Nat) (ftz : Bool)
  /-- The one fetch-and-add of ATOMD with the lanes' increments in `v` (R313). -/
  | reserve
  /-- Values already taken at the arbiter (R308) or by FILL. -/
  | taken (ty : Nat)
  /-- The summaries of a closed batch (R117): peers asked, links that carried its stores, error words received, the
  numbers of stores that failed here, and when the last marker left. -/
  | closeb (batch : Nat) (peers : List Nat) (sent : List (Nat × Nat)) (got : List (Nat × Nat)) (errs : W32)
      (markers : Option Nat)
  /-- The read of MONITOR, which arms the monitor as it is performed (R319). -/
  | watch
  /-- An observation of a mailbox (R324). -/
  | message (m : Nat)
deriving DecidableEq, Repr

/-- A long-latency producer in flight: its place in program order, the registers it holds empty, its lanes, what has come
back so far (values and failing statuses by lane), the stamp of the last release fence before it (R138), and REPST as it issued, 0
outside a REP (R257, R325). -/
structure Flight where
  id    : Nat
  kind  : FlightKind
  acq   : Bool
  rel   : Bool
  scope : Scope
  marks : List Nat
  scal  : Bool
  lanes : List LaneAcc
  got   : Tab Nat
  fails : Tab Nat
  pc    : W64
  bar   : Nat
  rep   : W32
deriving DecidableEq, Repr

/-- What a qualified local instruction does in its scratchpads (R55 to R57). -/
inductive LocalOp where
  | read | write
  | rmw (op rm : Nat) (ftz : Bool)
deriving DecidableEq, Repr

/-- A qualified local instruction at the arbiters of its scratchpads (R58, R61): the order in which it came, the state its
granules need and the one they take, its lanes, those performed with what they read, the registers it holds empty (R308),
and the lane that met poison (R91). -/
structure Arb where
  age   : Nat
  need  : Option Bool
  after : Option Bool
  op    : LocalOp
  lanes : List LaneAcc
  done  : Tab Nat
  marks : List Nat
  scal  : Bool
  bad   : Option (Nat × Nat)
deriving DecidableEq, Repr

/-- A failed remote access (R113), or poison that an access met after its instruction had issued; `arr` is the array code of
poison (R91). -/
structure Failure where
  status : Nat
  arr    : Nat
  lane   : Nat
  va     : Nat
  peer   : Nat
  pc     : W64
  marks  : List Nat
  scal   : Bool
deriving DecidableEq, Repr

/-- What a course that has left the active set waits for (R206), or the structural cause that holds it (R205); `unbound` that it is to
take the mailbox trap at its MBSEND (R391). -/
inductive Wait where
  | regs (v s : List Nat)
  | granule (gs : List (Nat × Nat)) (full : Bool)
  | barrier (b : Nat) (ph : W32)
  | arrival (b : Nat)
  | mwait
  | mailbox (m : Nat)
  | unbound
  | slotBits (t mask : Nat) (anyBit : Bool)
  | accs (pend : Nat)
  | performed
  | version
  | structural
deriving DecidableEq, Repr

/-- The three states of a resident course (R205). -/
inductive Sched where
  | active | ready | waiting
deriving DecidableEq, Repr

/-- A course: its architectural registers (R260) and what the core holds for it. `stack` is the on-chip part of the
reconvergence stack, top first; `depth` counts all entries (R178). `vpoison` names the poisoned 16-byte units 8n + u of
the vector registers, `spoison` those of the scalar registers and `rpoison` those of the reserved strip (R20, R89). `arb` is the qualified local instruction that waits at
its scratchpads (R58, R60), `issued` and `tried` the steps of its last issue and of the last look at it (R205). -/
structure Course where
  pc      : W64
  v       : Tab VReg
  vfull   : Tab Bool
  vpoison : Tab Bool
  s       : Tab W64
  sfull   : Tab Bool
  spoison : Tab Bool
  rpoison : Tab Bool
  p       : Tab W32
  x       : Tab XReg
  g       : Tab Gen
  mode    : W32
  exec    : W32
  fstat   : W32
  repst   : W32
  ctimer  : W64
  ctlim   : W64
  dtfrac  : BitVec 16
  stack   : List StackEntry
  depth   : Nat
  tlev    : Nat
  batches : Tab Batch
  flights : List Flight
  failed  : List Failure
  relBar  : Nat
  wait    : Option Wait
  sched   : Sched
  entered : Nat
  since   : Nat
  issued  : Nat
  tried   : Nat
  sync    : Option (Nat × W32)
  limit   : Option W64
  arb     : Option Arb
  detUsed : Nat
  exited  : Bool
  halted  : Bool
  stepping : Bool
  armed   : Bool
deriving DecidableEq, Repr

/-- The tensor layout record (R348). -/
structure CopyRec where
  gbase  : Nat
  gw     : Nat
  gh     : Nat
  gpitch : Nat
  x0     : Int
  y0     : Int
  bw     : Nat
  bh     : Nat
  esz    : Nat
  slt    : Bool
  col    : Bool
  lsl    : Bool
  lbase  : Nat
  lpitch : Nat
  xaddr  : Nat
deriving DecidableEq, Repr

/-- What an engine command does (R326), with its operands captured at issue. -/
inductive CmdOp where
  | oclm (t cnt : Nat)
  | orls (t cnt : Nat)
  | ost (t chunk : Nat) (data : List Byte)
  | ofnc (t mask : Nat)
  | mma (xd xa : Nat) (xb : BSrc) (gen : Gen) (fa fb n : Nat) (za : Bool) (sparse : Option (Nat × Nat))
  | aclr (a cnt : Nat)
  | awb (dst a fs acnt pitch : Nat) (sigma clip : W32) (mask : Option Gen) (neg : Bool) (bar : Option Nat)
  | copyIn (r : CopyRec) (srcl indexed : Bool) (bar : Option Nat)
  | copyOut (r : CopyRec) (indexed : Bool) (bar : Option Nat) (batch : Nat) (seq0 : W32)
deriving DecidableEq, Repr

/-- Why a copy has stopped (R354, R352, R355): the trap code, TFS or remote status, address and peer. -/
structure CopyFail where
  code   : Nat
  info   : Nat
  status : Nat
  addr   : Nat
  peer   : Nat
deriving DecidableEq, Repr

/-- An engine command that has issued and is not yet observed complete. `next` is the place of the next piece or block
(row × 2^16 + element), and places below `high` have reported to a barrier (R353). `index` is the index list once read
(R351), a poisoned entry none. `asked` names the 16-byte units of the present piece that were asked of another module,
`got` and `fails` what came back. `again` is the TLEV of the handler whose return runs the copy again, `rerun` that it
runs again (R354). `poison` is an array code and an address (R91, R355). -/
structure Cmd where
  id      : Nat
  crs     : Nat
  op      : CmdOp
  pc      : W64
  rm      : Nat
  ftz     : Bool
  next    : Nat
  high    : Nat
  index   : Option (List (Option Nat))
  asked   : List Nat
  got     : Tab Nat
  fails   : Tab Nat
  again   : Option Nat
  rerun   : Bool
  done    : Bool
  flags   : Nat
  fail    : Option CopyFail
  poison  : Option (Nat × Nat)
deriving DecidableEq, Repr

/-- An operand slot (R329, R330). -/
structure Slot where
  claimed : Bool
  bitmap  : BitVec 16
  latest  : Tab Nat
  data    : Tab Byte
  poison  : Tab Bool
deriving DecidableEq, Repr

/-- A hardware barrier (R317). -/
structure Bar where
  ph  : W32
  arr : W32
  exp : Nat
  rcv : Nat
deriving DecidableEq, Repr

/-- A version slate (R79): the target's peer (none at this module), its slate number, the bytes written, and its poisoned
32-byte row lines (R89, R90). -/
structure VSlate where
  peer  : Option Nat
  slate : Nat
  bytes : Tab Byte
  batch : Nat
  bad   : Tab Bool
deriving DecidableEq, Repr

/-- A record of the reduction log (R80): the course that issued it, and whether its 32 bytes, a row line of the log's version
slate, are poisoned (R89). -/
structure RedRec where
  crs   : Nat
  bad   : Bool
  peer  : Option Nat
  pa    : Nat
  op    : Nat
  rm    : Nat
  ftz   : Bool
  width : Nat
  v     : Nat
  batch : Nat
deriving DecidableEq, Repr

/-- How a workgroup is made to leave its core (R203, R204): not at all, by running to its end since a moment, or, where that can
become no save, without a limit, by a save that waits until it is quiet, or by flush-and-restart. -/
inductive Leave where
  | stay
  | drain (since : Nat)
  | runOn
  | save
  | flush
deriving DecidableEq, Repr

/-- Where a workgroup is. -/
inductive WgStatus where
  | resident | saved | ended
deriving DecidableEq, Repr

/-- A workgroup that has been placed (R172): its courses, local memories, barriers, engine commands and, in a versioned
grid, its task (R180). `asn` is the address space of its grid and `omem` the places of its slots in its core's operand memory
(R329). `holder` is the course whose fault holds the task's ticket and the TLEV of that trap (R183). `placed` is the device time of its placement, restore or save, `goal` the cores that a migration
names, `feDef` the state of every granule whose bit is not listed (R22), `redo` that a saved task begins afresh when it comes
back (R92). -/
structure Workgroup where
  gid      : Nat
  w        : Nat
  asn      : Nat
  core     : Nat
  status   : WgStatus
  courses  : Tab Course
  scratch  : Tab Byte
  fe       : Tab Bool
  spoison  : Tab Bool
  accs     : Tab (Tab W32)
  apoison  : Tab Bool
  slots    : Tab Slot
  bars     : Tab Bar
  cmds     : List Cmd
  guards   : List (Nat × Nat)
  tries    : Nat
  version  : List VSlate
  redlog   : List RedRec
  detadd   : List (Option Nat × Nat × Nat)
  unbuf    : Bool
  fullV    : Bool
  holder   : Option (Nat × Nat)
  taskEnd  : Bool
  retired  : Nat
  granules : List Nat
  omem     : List Nat
  redo     : Bool
  placed   : Nat
  leave    : Leave
  goal     : List Nat
  feDef    : Bool
deriving DecidableEq, Repr

/-- The fields of a launch packet (R195). -/
structure Launch where
  ver    : Bool
  det    : Bool
  idem   : Bool
  tsr    : Bool
  lc     : Bool
  spe    : Bool
  prod   : Nat
  gx     : Nat
  gy     : Nat
  gz     : Nat
  ncrs   : Nat
  nbar   : Nat
  nos    : Nat
  nacc   : Nat
  nv     : Nat
  ns     : Nat
  entry  : W64
  rcbp   : Nat
  partw  : W64
  argp   : W64
  seed   : W64
  cpla   : Nat
  cplv   : W64
  handler : W64
  expi   : Nat
  k      : Nat
  fslots : List W32
  notBefore : Nat
  cmask  : Nat
deriving DecidableEq, Repr

/-- The budgets of one member of an RCB chain, effective values (R168, R170). -/
structure Budget where
  rcb   : Nat
  cores : Nat
  gran  : Nat
  bars  : Nat
  slots : Nat
deriving DecidableEq, Repr

/-- What the front end holds of a grid's RCB chain for the grid's life (R169, R171). -/
structure Chain where
  prio   : Nat
  lat    : Bool
  fdom   : Nat
  vcap   : Nat
  fshare : Nat
  stk    : Nat
  savea  : Nat
  root   : Nat
  asn    : Nat
  depth  : Nat
  job    : Nat
  budgets : List Budget
deriving DecidableEq, Repr

/-- A live grid. `dropped` says that it has been aborted and what it had under way has been dropped (R186). `nextW` is the next workgroup never placed; `again` lists those that wait to start afresh (R204), with
their TRY and since when they wait. `seen` lists the cores on which a workgroup of it has been placed or restored (R68).
`accepted` is the device time of acceptance. -/
structure Grid where
  launch  : Launch
  chain   : Chain
  total   : Nat
  nextW   : Nat
  again   : List (Nat × Nat × Nat)
  seen    : List Nat
  endedN  : Nat
  commits : Nat
  abort   : Option (Nat × Nat)
  dropped : Bool
  first   : Option Nat
  last    : Nat
  accepted : Nat
deriving DecidableEq, Repr

/-- A live collective (R385). `aborted` says that ABORT has ended it and its completion record is still to be written (R380). -/
structure Coll where
  ctx    : Nat
  lmask  : Nat
  halted : Nat
  cpla   : Nat
  cplv   : W64
  tsr    : Bool
  asn    : Nat
  root   : Nat
  start  : Nat
  last   : Nat
  rcb    : Nat
  aborted : Bool
deriving DecidableEq, Repr

/-- A TLB entry (R35): ASN, first address of the page, its size, and the leaf entry. -/
structure TlbE where
  asn  : Nat
  page : Nat
  big  : Bool
  leaf : W64
deriving DecidableEq, Repr

/-- An L1 line (R64): its line number PA / 128, its bytes and when it was filled. -/
structure L1Line where
  line : Nat
  data : List Byte
  time : Nat
deriving DecidableEq, Repr

/-- An event counter (R408): bits 7:0 of its first register, and COUNT. -/
structure Counter where
  src   : BitVec 6
  en    : Bool
  ovf   : Bool
  count : W64
deriving DecidableEq, Repr

/-- A core (R2, R35, R64, R68): caches, rotary table, counters, freeze and retirement. `pool` holds the bytes of granules that
no workgroup holds, and those of register granules that are no register's, `poolBad` their poisoned 16-byte units, and `used`
the granules that some workgroup has held, of which an unlisted byte is zero (R16, R22). -/
structure Core where
  tlb     : List TlbE
  l1      : List L1Line
  icache  : Tab W32
  rotary  : Tab W32
  pool    : Tab Byte
  poolBad : Tab Bool
  used    : List Nat
  ctrs    : Tab Counter
  frozen  : Bool
  quiet   : Bool
  retired : Bool
  spares  : Nat
  testing : Bool
deriving DecidableEq, Repr

/-- A queued TLB miss (R37, R38): the translation cache that missed (a core's by its number, 576 + L for the sequencer of
link L, 592 for the I/O die's), the page, the access kind. `who` names the accesses that wait for it: (workgroup, 2c) for the
instructions of course c, (workgroup, 2c + 128) for the accesses that the device makes for it, (workgroup, 2k + 1) for engine
command k, (0, context) for a sequencer's. `since` is the time of first parking and
`level` the level of the held leaf. -/
structure Miss where
  core  : Nat
  asn   : Nat
  root  : Nat
  va    : Nat
  kind  : Nat
  since : Nat
  level : Nat
  who   : List (Nat × Nat)
deriving DecidableEq, Repr

/-- A fault that a queued walk found, held for the accesses that missed (R34, R50, R51). -/
structure WalkFault where
  unit  : Nat
  asn   : Nat
  va    : Nat
  kind  : Nat
  cause : Nat
  level : Nat
  big   : Bool
  who   : List (Nat × Nat)
deriving DecidableEq, Repr

/-- A walk-cache entry (R38): the table that a prefix of the address leads to at a level. -/
structure WalkE where
  asn    : Nat
  level  : Nat
  idx    : Nat
  table  : Nat
deriving DecidableEq, Repr

/-- A migration counter (R40, R41). `queued` holds until the management core consumes the record. -/
structure MigE where
  asn    : Nat
  page   : Nat
  big    : Bool
  count  : Nat
  tix    : Nat
  peer   : Nat
  queued : Bool
  index  : Nat
deriving DecidableEq, Repr

/-- The scope of an invalidation (R44). -/
structure InvScope where
  scope : Nat
  asn   : Nat
  page  : Nat
  count : Nat
deriving DecidableEq, Repr

/-- The debug registers of a die (R404). -/
structure Dbg where
  sel    : W64
  unit   : W64
  addr   : W64
  data   : W128
  res    : Nat
  done   : Bool
  fe     : Bool
deriving DecidableEq, Repr

/-- A compute die: translation registers (R44), walkers (R38), migration counters (R40), counters and debug. Number 4 holds
the I/O die's walkers. -/
structure Die where
  iva      : W64
  iscope   : W64
  running  : Option InvScope
  queued   : List InvScope
  bad      : Bool
  invDone  : W32
  thresh   : Tab W32
  mqbase   : W64
  mqsize   : BitVec 16
  mqhead   : BitVec 16
  mqtail   : BitVec 16
  walks    : List Miss
  parked   : List Miss
  wcache   : List WalkE
  mig      : List MigE
  ctrs     : Tab Counter
  dbg      : Dbg
  clockHeld : Bool
  corrected : Nat
deriving DecidableEq, Repr

/-- What a flit of the transmit queues carries. -/
inductive Carry where
  | request (tag : Nat)
  | relay (r : RemoteReq)
  | reply (issuer tag status data : Nat)
  | relayMarker (issuer key batch links : Nat)
  | summary (issuer key batch peer errors : Nat)
  | chunk (ctx : Nat) (c : Chunk)
  | control (code n : Nat)
deriving DecidableEq, Repr

/-- A flit waiting to be sent, or held for replay (R121, R123): when it was last sent, 0 where it is to be sent again.
`peer` is the module at the far end, `dest` the destination, which differs where a relay stands between (R100). `first` and
`fin` mark the first and the last flit of what it carries, `valid` and `load` are its field of valid bytes and its payload. -/
structure TxFlit where
  seqno : Nat
  cls   : Nat
  peer  : Nat
  dest  : Nat
  sent  : Nat
  first : Bool
  fin   : Bool
  carry : Carry
  valid : Nat
  load  : Nat
deriving DecidableEq, Repr

/-- The link layer toward one peer (R123, R124): next number to send, next expected, credits, replays without progress, and
whether a gap has been answered with a NAK since the last accepted flit. -/
structure Space where
  next    : Nat
  expect  : Nat
  credits : Nat
  replays : Nat
  naked   : Bool
deriving DecidableEq, Repr

/-- A rotation slot (R97). -/
structure RotSlot where
  speer : Nat
  sv    : Bool
  slen  : Nat
deriving DecidableEq, Repr

/-- A link: its registers (R97), transmit queues, replay buffer, and the sequencer channels' receive buffers. `lossLight` is
LIGHT at the last loss of light (R127), with `far` above it, `far` the light of the transmit direction, as the far end tells it (R125), `curSlot` and `curPeriod` the slot whose guard has ended, `room` the room that the
receiving link of a sequence space has announced, 4 × space + channel (R372), `served` the flits that regions have been served
while requests wait (R171), `beat` the beats sent (R122). -/
structure Link where
  lmode   : Nat
  drain   : Bool
  state   : Nat
  groups  : Nat
  light   : Nat
  far     : Nat
  bad     : Bool
  miswire : Bool
  lpeer   : Nat
  nslot   : Nat
  t0      : Nat
  crcth   : Nat
  crcs    : Nat
  slots   : Tab RotSlot
  joining : Nat
  restriping : Option (Nat × Nat)
  lossLight : Nat
  curSlot : Option Nat
  curPeriod : Int
  served  : Tab Nat
  beat    : Nat
  tx      : List TxFlit
  replay  : List TxFlit
  spaces  : Tab Space
  room    : Tab Nat
  rx      : Tab (List Chunk)
  heldCh  : Tab Nat
  excluded : Nat
  ctrs    : Tab Counter
deriving DecidableEq, Repr

/-- State of a sequencer context (R357). -/
inductive CtxState where
  | idle | running | waiting | faulted | stopped
deriving DecidableEq, Repr

/-- What a waiting context waits for (R376): the walk of a page, the head of a channel, room for its chunk on a link (under a key of
its table of rooms), an event path, a flag word, a slot of a link toward a peer. -/
inductive CtxWait where
  | page
  | head (ch : Nat)
  | room (link key size : Nat)
  | event
  | flag
  | slot (link peer : Nat)
deriving DecidableEq, Repr

/-- A sequencer context (R356, R358). `why` is what it waits for, as it last began to wait. `sending` is the link whose queue still holds flits of its last transmission
(R367), `lastCh` the channel it last used (R380), `kept` the room that is kept for the chunk of the instruction at hand: link,
key in the link's table of rooms, bytes (R367). `watch` is the word that a waiting WAITF reads again after each write, with
its condition and operand, and `met` that one of these reads satisfied it (R369), or that the slot of a waiting SLOT came (R371). -/
structure Ctx where
  st     : CtxState
  cpc    : Nat
  c      : Tab W64
  cause  : Nat
  faddr  : W64
  fkind  : Nat
  flevel : Nat
  hch    : Nat
  held   : Bool
  hsz    : Nat
  hpeer  : Nat
  hlink  : Nat
  casn   : Nat
  root   : Nat
  coll   : Nat
  last   : W64
  stopReq : Bool
  step1  : Bool
  since  : Option Nat
  why    : Option CtxWait
  barked : Bool
  lastCh : Option Nat
  sending : Option Nat
  kept   : Option (Nat × Nat × Nat)
  watch  : Option (Nat × Nat × W32)
  met    : Bool
deriving DecidableEq, Repr

/-- A link sequencer (R356). `atHead` lists the contexts that wait at the head of a channel, with it, in the order in which
they reached it (R373). -/
structure Seqr where
  imem   : Tab W32
  broken : Tab Bool
  iecc   : Bool
  bad    : Bool
  wdog   : W32
  ctxs   : Tab Ctx
  tlb    : List TlbE
  turn   : Nat
  run    : Nat
  atHead : List (Nat × Nat)
deriving DecidableEq, Repr

/-- A launch queue (R192). `wrote` lists the values written to the write-pointer word with their writers, a peer or 4,096 for
this module and the host (R200). `got` holds the granules of the packet at RP that have been read, each once (R193), `pkt` and
`chain` a packet that waits or is held, and the RCB chain read with it (R169); `met` says that a write to the word of a wait
packet has satisfied it (R198). -/
structure Queue where
  qbase  : W64
  qlog   : Nat
  qen    : Bool
  qlc    : Bool
  wpa    : W64
  swa    : W64
  rp     : W64
  qstate : Nat
  qerr   : Nat
  wpseen : W64
  wrote  : List (W64 × Nat)
  seen   : Bool
  holding : Bool
  began  : Nat
  got    : List Byte
  pkt    : List Byte
  chain  : Chain
  met    : Bool
deriving DecidableEq, Repr

/-- A reservation entry (R208): its words, the cores that it holds, in the order of their numbers (R415), and, of those under test or
retired that still have a workgroup, the core held to replace them (R410). -/
structure Resv where
  w0    : W64
  w1    : W64
  w2    : W64
  cores : List Nat
  standIn : List (Nat × Nat)
deriving DecidableEq, Repr

/-- A step mailbox (R391, R392, R393). -/
structure Mbox where
  binding : W64
  actions : List (BitVec 512)
  obs     : List (BitVec 512)
  action  : BitVec 512
  compose : BitVec 512
  open1   : Bool
deriving DecidableEq, Repr

/-- An eave core or the management core (R387, R388): the monitor's CSRs, the registers of a RISC-V hart, its standard
machine-level CSRs by number, and its private SRAM. `count` is the watchdog's count, in units of 2^-15 eave cycles. `awake` says that
firmware has been loaded, so that the hart runs (R387, R418). -/
structure Eave where
  vbase   : Tab W64
  wctl    : Tab W64
  epi     : W64
  ewdog   : W64
  killed  : Bool
  scrub   : Bool
  count   : Nat
  umode   : Bool
  awake   : Bool

  pc      : W64
  x       : Tab W64
  f       : Tab W64
  csr     : Tab W64
  sram    : Tab Byte
deriving DecidableEq, Repr

/-- An ingress rule (R414): its seven words, and the ring index, SEQ and DROPS. -/
structure Rule where
  words : Tab W64
  ringK : Nat
  seqn  : W32
  drops : W32
  holder : Option Nat
deriving DecidableEq, Repr

/-- An egress entry (R416): its two words, the ring index, the workgroup whose ring it is, and the slots whose granule 0
has been empty since that workgroup holds it. -/
structure Egress where
  ctl  : W64
  ring : W64
  ringK : Nat
  holder : Option Nat
  primed : List Nat
deriving DecidableEq, Repr

/-- An event record with its class (R413). -/
structure Event where
  cls   : Nat
  bytes : List Byte
deriving DecidableEq, Repr

/-- An event destination (R413): undelivered records, oldest first, records dropped since the last class 7, and the
records last delivered. -/
structure EvDest where
  queue : List Event
  lost  : Nat
  out   : List Event
deriving DecidableEq, Repr

/-- The tag of a held slate (R75, R87): orientation, dirty mask, reductions pending. -/
structure Tag where
  o    : Bool
  d    : W32
  pend : Nat
deriving DecidableEq, Repr

/-- A copy of a remote cached slate (R110). -/
structure RCopy where
  peer  : Nat
  slate : Nat
  data  : List Byte
deriving DecidableEq, Repr

/-- A write that has issued and is not yet performed (R146): its course, place in program order, target, and the stamp
before which every access of the course must be performed first (R135). `red` makes it a reduction store. -/
structure PWrite where
  id     : Nat
  uid    : Nat
  crs    : Nat
  tgt    : Target
  width  : Nat
  data   : Nat
  column : Bool
  relBar : Nat
  red    : Option (Nat × Nat × Bool)
deriving DecidableEq, Repr

/-- A reduction at a logic die (R86, R87). -/
structure PRed where
  pa    : Nat
  op    : Nat
  rm    : Nat
  ftz   : Bool
  v     : Nat
  from1 : Option (Nat × Nat × Nat × Nat)
deriving DecidableEq, Repr

/-- A remote request formed here and not answered (R107, R112): `chosen` is the link it took from
the route entry, `link` that link once the request is in its queue, `sent` that its flits are with the link layer. `keep` says
that a fetched slate may be held when it comes (R110, R158). `ord` is the place in program order of the instruction or engine command. -/
structure Req where
  tag    : Nat
  ord    : Nat
  uid    : Nat
  crs    : Nat
  flight : Nat
  lane   : Nat
  req    : RemoteReq
  formed : Nat
  link   : Option Nat
  sent   : Bool
  chosen : Option Nat
  keep   : Bool
deriving DecidableEq, Repr

/-- The target's record of an issuer's batch (R118). -/
structure InBatch where
  issuer  : Nat
  key     : Nat
  batch   : Nat
  errors  : Nat
  expects : Nat
  marked  : Nat
  pendRed : Nat
deriving DecidableEq, Repr

/-- A reply, a summary or a forwarded packet that waits for its route (R100): its class, next peer, payload and content. -/
structure Back where
  cls   : Nat
  peer  : Nat
  bytes : Nat
  carry : Carry
deriving DecidableEq, Repr

/-- A response on the Umhal port (R412): status, data, TFS. -/
structure Response where
  status : Nat
  data   : Nat
  tfs    : Nat
deriving DecidableEq, Repr

/-- A signed attestation report (R419). -/
structure Report where
  nonce    : BitVec 256
  peer     : Nat
  images   : List (BitVec 256)
  rollback : Nat
  retired  : List (UnitKind × Nat × Nat)
  sig      : Nat
deriving DecidableEq, Repr

/-- A unit under test or watched after a test (R410): when its error came, whether the test is under way, and whether the error was its
second within 24 hours. -/
structure TestUnit where
  kind : UnitKind
  die  : Nat
  unit : Nat
  time : Nat
  busy : Bool
  again : Bool
deriving DecidableEq, Repr

/-- A place of a protected array (R89): a 16-byte unit of a core's unused granules, of a workgroup's scratchpad or of an accumulator, of a vector register
(8n + u), a pair of scalar registers or a unit of the reserved strip, an 8-byte unit of an operand slot, a line of an L1 or a word of an instruction cache, an
entry of a TLB, a walk cache or a migration counter cache by its place, a row line of a held slate, of a copy of another
module's, of a version slate or of a version slate of the reduction log, a slate's tag in one or both copies, the tag of a version
slate or of one of the log, a unit of the stack, a word of a
sequencer's instruction memory. -/
inductive ArrayUnit where
  | pool (core unit : Nat)
  | scratch (uid unit : Nat)
  | acc (uid a unit : Nat)
  | vreg (uid crs unit : Nat)
  | sreg (uid crs unit : Nat)
  | strip (uid crs unit : Nat)
  | slot (uid t unit : Nat)
  | l1 (core line : Nat)
  | icache (core word : Nat)
  | tlb (unit i : Nat)
  | walkCache (die i : Nat)
  | migCache (die i : Nat)
  | slate (pa : Nat)
  | copy (peer pa : Nat)
  | version (uid i row : Nat)
  | log (uid i row : Nat)
  | tag (sl : Nat) (both : Bool)
  | versionTag (uid i : Nat)
  | logTag (uid i : Nat)
  | stack (pa : Nat)
  | imem (l word : Nat)
deriving DecidableEq, Repr

/-- An error as the read that meets it is performed: corrected, or `lost` beyond correction (R89). -/
structure Upset where
  part : ArrayUnit
  lost : Bool
deriving DecidableEq, Repr

/-- One LQ40 module. `upsets` are the errors that the arrays will meet, in order, an input of the model; `suspects` the units
that the management core is to test (R410); `turnQ` and `turnL` the queues served last in the two classes (R194). `under` is the poison of the stack units whose slates are held, `poison` that of the bytes as an access
finds them (R90). `txFrame` is
the Ethernet frame sent last with its FCS, `held` the operations of the Umhal port and of the harts that wait, in the order in
which they came (R166, R389, R393), `retry` that one of them is tried again, `idKey` the identity key pair (R418), `txFlit` the flit sent last: its link, and the wavelength and the bytes of each of its beats (R121, R122). `frames`
are received frames that wait for a frozen core, with their port and time (R406). -/
structure State where
  mem      : List Host.Cell
  poison   : Tab Bool
  under    : Tab Bool
  tags     : Tab Tag
  copies   : List RCopy
  pend     : List PWrite
  reds     : List PRed
  wgs      : Tab Workgroup
  grids    : Tab Grid
  colls    : Tab Coll
  cores    : Tab Core
  dies     : Tab Die
  links    : Tab Link
  seqs     : Tab Seqr
  queues   : Tab Queue
  acl      : Tab (W64 × W64)
  resv     : Tab Resv
  mboxes   : Tab Mbox
  eaves    : Tab Eave
  mgmt     : Eave
  rules    : Tab Rule
  egress   : Tab Egress
  ownPeer  : BitVec 12
  routes   : Tab W32
  windows  : Tab (W64 × W64 × W64)
  tsrc     : BitVec 2
  ioTlb    : List TlbE
  wfaults  : List WalkFault
  reqs     : List Req
  backlog  : List Back
  inb      : List InBatch
  monitors : List (Nat × Nat × Nat × Nat × Bool)
  lrs      : Tab (Nat × Nat)
  evMgmt   : EvDest
  evHost   : EvDest
  umhal    : Response
  fwInbox  : List Nat
  report   : Option Report
  txFrame  : Option (Nat × List Byte)
  txFlit   : Option (Nat × List (Nat × List Byte))
  frames   : List (Nat × List Byte × Nat)
  images   : List (BitVec 256)
  idKey    : Option Nat
  held     : List Instr
  retry    : Bool
  rollback : Nat
  retired  : List (UnitKind × Nat × Nat)
  watched  : List TestUnit
  bootStop : Bool
  fatal    : Bool
  cycle    : W64
  dtime    : Nat
  steps    : Nat
  stamp    : Nat
  nextUid  : Nat
  nextGid  : Nat
  turnQ    : Nat
  turnL    : Nat
  curWg    : Nat
  curCrs   : Nat
  curLink  : Nat
  curCtx   : Nat
  seqTurn  : Bool
  inRep    : Bool
  agenda   : List Instr
  upsets   : List Upset
  suspects : List (UnitKind × Nat × Nat)
deriving DecidableEq, Repr

/-- A core after reset: empty caches, rotary table zero (R347), 8 spare rows (R410). -/
def Core.reset : Core :=
  { tlb := [], l1 := [], icache := [], rotary := [], pool := [], poolBad := [], used := [], ctrs := [], frozen := false, quiet := false,
    retired := false, spares := 8, testing := false }

/-- An eave core after reset (R388): every CSR zero; it starts in M mode. -/
def Eave.reset : Eave :=
  { vbase := [], wctl := [], epi := 0, ewdog := 0, killed := false, scrub := false, count := 0, umode := false, awake := false, pc := 0,
    x := [], f := [], csr := [], sram := [] }

/-- The module right after reset: every register of the control region zero (R44, R96, R97, R192, R404), every context
idle (R357), no grid, no workgroup, nothing listed in memory. -/
def State.reset : State :=
  { mem := [], poison := [], under := [], tags := [], copies := [], pend := [], reds := [], wgs := [], grids := [], colls := [],
    cores := [], dies := [], links := [], seqs := [], queues := [], acl := [], resv := [], mboxes := [], eaves := [],
    mgmt := Eave.reset, rules := [], egress := [], ownPeer := 0, routes := [], windows := [], tsrc := 0, ioTlb := [], wfaults := [],
    reqs := [], backlog := [], inb := [], monitors := [], lrs := [], evMgmt := ⟨[], 0, []⟩, evHost := ⟨[], 0, []⟩,
    umhal := { status := 0, data := 0, tfs := 0 }, fwInbox := [], report := none, txFrame := none, txFlit := none, frames := [], images := [], idKey := none, held := [], retry := false,
    rollback := 0, retired := [], watched := [], bootStop := false, fatal := false, cycle := 0, dtime := 0, steps := 0,
    stamp := 0, nextUid := 0, nextGid := 1, turnQ := 0, turnL := 0, curWg := 0, curCrs := 0, curLink := 0, curCtx := 0,
    seqTurn := false, inRep := false, agenda := [], upsets := [], suspects := [] }

end Sys2Proof.Machine
end

