-- ==== Sys2Proof/Machine/Access.lean ====
section
/-! DEFINITION. The named accessors of the state: the values that unlisted entries of its tables read as, and the fields
of the registers that the manual numbers. -/

namespace Sys2Proof.Machine

-- ## What unlisted entries read as

/-- A vector register of zeros (R174). -/
def VReg.zero : VReg := Vector.replicate 32 0
/-- An index register of zeros (R243). -/
def XReg.zero : XReg := ⟨0, Vector.replicate 32 0⟩
/-- A generator after placement (R174). -/
def Gen.zero : Gen := ⟨0, 0, 0, 0, 0, 0, false, 0⟩
/-- A batch at placement (R115). -/
def Batch.zero : Batch := ⟨0, 0, [], [], [], 0⟩

/-- A course as R174 begins it, but for the program counter and s1. -/
def Course.fresh : Course :=
  { pc := 0, v := [], vfull := [], vpoison := [], s := [], sfull := [], spoison := [], rpoison := [], p := [], x := [], g := [], mode := 0,
    exec := 0xFFFFFFFF, fstat := 0, repst := 0, ctimer := 0, ctlim := 0, dtfrac := 0, stack := [], depth := 0, tlev := 0,
    batches := [], flights := [], failed := [], relBar := 0, wait := none, sched := .ready, entered := 0, since := 0,
    issued := 0, tried := 0, sync := none, limit := none, arb := none, detUsed := 0, exited := false, halted := false,
    stepping := false, armed := false }

/-- The workgroup that an unlisted number reads as: ended, with nothing in it. -/
def Workgroup.empty : Workgroup :=
  { gid := 0, w := 0, asn := 0, core := 0, status := .ended, courses := [], scratch := [], fe := [], spoison := [], accs := [],
    apoison := [], slots := [], bars := [], cmds := [], guards := [], tries := 0, version := [], redlog := [], detadd := [],
    unbuf := false, fullV := false, holder := none, taskEnd := false, retired := 0, granules := [], omem := [], redo := false, placed := 0,
    leave := .stay, goal := [], feDef := true }

/-- A launch packet of zeros. -/
def Launch.empty : Launch :=
  { ver := false, det := false, idem := false, tsr := false, lc := false, spe := false, prod := 0, gx := 0, gy := 0, gz := 0,
    ncrs := 0, nbar := 0, nos := 0, nacc := 0, nv := 0, ns := 0, entry := 0, rcbp := 0, partw := 0, argp := 0, seed := 0,
    cpla := 0, cplv := 0, handler := 0, expi := 0, k := 0, fslots := [], notBefore := 0, cmask := 0 }

/-- An RCB chain of zeros. -/
def Chain.empty : Chain :=
  { prio := 0, lat := false, fdom := 0, vcap := 0, fshare := 0, stk := 0, savea := 0, root := 0, asn := 0, depth := 0,
    job := 0, budgets := [] }

/-- The grid that an unlisted number reads as. -/
def Grid.empty : Grid :=
  { launch := .empty, chain := .empty, total := 0, nextW := 0, again := [], seen := [], endedN := 0, commits := 0, abort := none, dropped := false,
    first := none, last := 0, accepted := 0 }

/-- An operand slot at placement: unclaimed, no chunk (R174, R329). -/
def Slot.fresh : Slot := ⟨false, 0, [], [], []⟩
/-- A barrier at placement (R317); its expected count is set by placement. -/
def Bar.fresh : Bar := ⟨0, 0, 0, 0⟩
/-- A counter at reset (R408). -/
def Counter.reset : Counter := ⟨0, false, false, 0⟩
/-- The debug registers at reset (R404). -/
def Dbg.reset : Dbg := ⟨0, 0, 0, 0, 0, false, false⟩

/-- A compute die at reset (R44, R404, R408). -/
def Die.reset : Die :=
  { iva := 0, iscope := 0, running := none, queued := [], bad := false, invDone := 0, thresh := [], mqbase := 0, mqsize := 0,
    mqhead := 0, mqtail := 0, walks := [], parked := [], wcache := [], mig := [], ctrs := [], dbg := .reset,
    clockHeld := false, corrected := 0 }

/-- A link-layer space at training: number 0 next and expected, credits granted in full (R121, R123, R124). -/
def Space.fresh : Space := ⟨0, 0, 4096, 0, false⟩
/-- A rotation slot at reset (R97). -/
def RotSlot.reset : RotSlot := ⟨0, false, 0⟩

/-- A link at reset (R97, R98): off. -/
def Link.reset : Link :=
  { lmode := 0, drain := false, state := 0, groups := 0, light := 0, far := 0, bad := false, miswire := false, lpeer := 0, nslot := 0,
    t0 := 0, crcth := 0, crcs := 0, slots := [], joining := 0, restriping := none, lossLight := 0, curSlot := none, curPeriod := 0, served := [], beat := 0, tx := [], replay := [],
    spaces := [], room := [], rx := [], heldCh := [], excluded := 0, ctrs := [] }

/-- A sequencer context at reset: idle, registers zero (R357, R358). -/
def Ctx.reset : Ctx :=
  { st := .idle, cpc := 0, c := [], cause := 0, faddr := 0, fkind := 0, flevel := 0, hch := 0, held := false, hsz := 0,
    hpeer := 0, hlink := 0, casn := 0, root := 0, coll := 0, last := 0xFFFFFFFFFFFFFFFF, stopReq := false, step1 := false, since := none, why := none,
    barked := false, lastCh := none, sending := none, kept := none, watch := none, met := false }

/-- A link sequencer at reset (R357, R358). -/
def Seqr.reset : Seqr :=
  { imem := [], broken := [], iecc := false, bad := false, wdog := 0, ctxs := [], tlb := [], turn := 0, run := 0, atHead := [] }

/-- A launch queue at reset (R192). -/
def Queue.reset : Queue :=
  { qbase := 0, qlog := 0, qen := false, qlc := false, wpa := 0, swa := 0, rp := 0, qstate := 0, qerr := 0, wpseen := 0,
    wrote := [], seen := false, holding := false, began := 0, got := [], pkt := [], chain := .empty, met := false }

/-- A reservation entry at reset (R208). -/
def Resv.reset : Resv := ⟨0, 0, 0, [], []⟩
/-- The cores that an entry holds, those that are to replace others included. -/
def Resv.held (e : Resv) : List Nat := e.cores ++ e.standIn.map Prod.snd
/-- A mailbox at reset: unbound, empty (R391). -/
def Mbox.reset : Mbox := ⟨0, [], [], 0, 0, false⟩
/-- An ingress rule at reset (R414). -/
def Rule.reset : Rule := ⟨[], 0, 0, 0, none⟩
/-- An egress entry at reset (R416). -/
def Egress.reset : Egress := ⟨0, 0, 0, none, []⟩
/-- A queue's access record at reset (R200). -/
def Acl.reset : W64 × W64 := (0, 0)

-- ## Table entries of the state

/-- The workgroup of a number. -/
def State.wg (s : State) (u : Nat) : Workgroup := Tab.get .empty s.wgs u
/-- Replaces a workgroup. -/
def State.setWg (s : State) (u : Nat) (w : Workgroup) : State := { s with wgs := Tab.set s.wgs u w }
/-- A course of a workgroup. -/
def Workgroup.crs (w : Workgroup) (c : Nat) : Course := Tab.get .fresh w.courses c
/-- Replaces a course of a workgroup. -/
def Workgroup.setCrs (w : Workgroup) (c : Nat) (k : Course) : Workgroup := { w with courses := Tab.set w.courses c k }
/-- The course of a workgroup and number. -/
def State.crs (s : State) (u c : Nat) : Course := (s.wg u).crs c
/-- Replaces a course. -/
def State.setCrs (s : State) (u c : Nat) (k : Course) : State := s.setWg u ((s.wg u).setCrs c k)
/-- The course that issues. -/
def State.cur (s : State) : Course := s.crs s.curWg s.curCrs
/-- Replaces the course that issues. -/
def State.setCur (s : State) (k : Course) : State := s.setCrs s.curWg s.curCrs k
/-- The workgroup of the course that issues. -/
def State.curW (s : State) : Workgroup := s.wg s.curWg
/-- Replaces that workgroup. -/
def State.setCurW (s : State) (w : Workgroup) : State := s.setWg s.curWg w
/-- A grid. -/
def State.grid (s : State) (g : Nat) : Grid := Tab.get .empty s.grids g
/-- Replaces a grid. -/
def State.setGrid (s : State) (g : Nat) (x : Grid) : State := { s with grids := Tab.set s.grids g x }
/-- The grid of the course that issues. -/
def State.curG (s : State) : Grid := s.grid s.curW.gid
/-- The launch packet of the course that issues. -/
def State.curL (s : State) : Launch := s.curG.launch
/-- A core. -/
def State.core (s : State) (k : Nat) : Core := Tab.get .reset s.cores k
/-- Replaces a core. -/
def State.setCore (s : State) (k : Nat) (c : Core) : State := { s with cores := Tab.set s.cores k c }
/-- A compute die. -/
def State.die (s : State) (d : Nat) : Die := Tab.get .reset s.dies d
/-- Replaces a die. -/
def State.setDie (s : State) (d : Nat) (x : Die) : State := { s with dies := Tab.set s.dies d x }
/-- A link. -/
def State.link (s : State) (l : Nat) : Link := Tab.get .reset s.links l
/-- Replaces a link. -/
def State.setLink (s : State) (l : Nat) (x : Link) : State := { s with links := Tab.set s.links l x }
/-- A link sequencer. -/
def State.seqr (s : State) (l : Nat) : Seqr := Tab.get .reset s.seqs l
/-- Replaces a link sequencer. -/
def State.setSeqr (s : State) (l : Nat) (x : Seqr) : State := { s with seqs := Tab.set s.seqs l x }
/-- A context of a sequencer. -/
def Seqr.ctx (q : Seqr) (k : Nat) : Ctx := Tab.get .reset q.ctxs k
/-- Replaces a context. -/
def Seqr.setCtx (q : Seqr) (k : Nat) (x : Ctx) : Seqr := { q with ctxs := Tab.set q.ctxs k x }
/-- The context that issues. -/
def State.ctx (s : State) : Ctx := (s.seqr s.curLink).ctx s.curCtx
/-- Replaces the context that issues. -/
def State.setCtx (s : State) (x : Ctx) : State := s.setSeqr s.curLink ((s.seqr s.curLink).setCtx s.curCtx x)
/-- A launch queue. -/
def State.queue (s : State) (q : Nat) : Queue := Tab.get .reset s.queues q
/-- Replaces a launch queue. -/
def State.setQueue (s : State) (q : Nat) (x : Queue) : State := { s with queues := Tab.set s.queues q x }
/-- A mailbox. -/
def State.mbox (s : State) (m : Nat) : Mbox := Tab.get .reset s.mboxes m
/-- Replaces a mailbox. -/
def State.setMbox (s : State) (m : Nat) (x : Mbox) : State := { s with mboxes := Tab.set s.mboxes m x }
/-- An eave core. -/
def State.eave (s : State) (k : Nat) : Eave := Tab.get .reset s.eaves k
/-- Replaces an eave core. -/
def State.setEave (s : State) (k : Nat) (x : Eave) : State := { s with eaves := Tab.set s.eaves k x }
/-- The die of a core (R16). -/
def dieOf (core : Nat) : Nat := core / 144
/-- A fresh stamp for an access or a command: the next place in the order of issue. -/
def State.fresh (s : State) : State := { s with stamp := s.stamp + 1 }

-- ## The MODE register (R249)

/-- MODE.T. -/
def Course.ty (c : Course) : Nat := bits c.mode.toNat 9 5
/-- MODE.RM. -/
def Course.rm (c : Course) : Nat := bits c.mode.toNat 12 10
/-- MODE.FEA: an empty source a traps. -/
def Course.fea (c : Course) : Bool := bit c.mode.toNat 13
/-- MODE.FEB: an empty other source traps. -/
def Course.feb (c : Course) : Bool := bit c.mode.toNat 14
/-- MODE.SAT. -/
def Course.sat (c : Course) : Bool := bit c.mode.toNat 15
/-- MODE.FTZ. -/
def Course.ftz (c : Course) : Bool := bit c.mode.toNat 16

-- ## Course registers

/-- Predicate n. -/
def Course.pred (c : Course) (n : Nat) : W32 := Tab.get 0 c.p n
/-- Writes a predicate. -/
def Course.setPred (c : Course) (n : Nat) (m : W32) : Course := { c with p := Tab.put 0 c.p n m }
/-- Vector register n (R240). -/
def Course.vreg (c : Course) (n : Nat) : VReg := Tab.get .zero c.v n
/-- Scalar register n; s0 reads as zero (R240). -/
def Course.sreg (c : Course) (n : Nat) : W64 := if n = 0 then 0 else Tab.get 0 c.s n
/-- The full bit of vector register n; registers start full (R174). -/
def Course.vIsFull (c : Course) (n : Nat) : Bool := Tab.get true c.vfull n
/-- The full bit of scalar register n; s0 is always full (R240). -/
def Course.sIsFull (c : Course) (n : Nat) : Bool := n = 0 || Tab.get true c.sfull n
/-- Writes a scalar register; a write to s0 is discarded (R240). The 16-byte unit that holds it loses its poison only
when it is wholly written, so a poisoned pair stays poisoned (R90). -/
def Course.setS (c : Course) (n : Nat) (v : W64) : Course := if n = 0 then c else { c with s := Tab.put 0 c.s n v }
/-- Index register n. -/
def Course.xreg (c : Course) (n : Nat) : XReg := Tab.get .zero c.x n
/-- Writes an index register. -/
def Course.setX (c : Course) (n : Nat) (x : XReg) : Course := { c with x := Tab.put .zero c.x n x }
/-- Generator n. -/
def Course.gen (c : Course) (n : Nat) : Gen := Tab.get .zero c.g n
/-- Batch b, of the four that the low bits of a batch's number name (R114). -/
def Course.batch (c : Course) (b : Nat) : Batch := Tab.get .zero c.batches (b % 4)
/-- Writes a batch. -/
def Course.setBatch (c : Course) (b : Nat) (x : Batch) : Course := { c with batches := Tab.put .zero c.batches (b % 4) x }
/-- The number of batch b as its packets bear it: its tag in the low bits, above it how often it has been closed (log entry 82). -/
def Course.batchNo (c : Course) (b : Nat) : Nat := b % 4 + 4 * (c.batch b).gen
/-- The batch of a number changed, unless it has been closed since. -/
def Course.mapBatch (c : Course) (no : Nat) (f : Batch → Batch) : Course :=
  if c.batchNo no = no then c.setBatch no (f (c.batch no)) else c

/-- The lanes of a mask that are set, ascending. -/
def lanesOf (m : W32) : List Nat := (List.range 32).filter fun l => m.getLsbD l

/-- The mask of the lanes at which `f` holds. -/
def maskOf (f : Nat → Bool) : W32 :=
  BitVec.ofNat 32 ((List.range 32).foldl (fun acc l => if f l then acc + 2 ^ l else acc) 0)

/-- The 16-byte units (four lanes each) of a vector register that a write of the lanes `m` covers whole (R89, R90). -/
def coveredUnits (m : W32) : List Nat :=
  (List.range 8).filter fun u => [0, 1, 2, 3].all fun j => m.getLsbD (4 * u + j)

/-- Writes the lanes of vector register n that `m` names; a unit written whole loses its poison (R90). -/
def Course.setV (c : Course) (n : Nat) (m : W32) (f : Nat → W32) : Course :=
  { c with
    v := Tab.put .zero c.v n (Vector.ofFn fun l : Fin 32 => if m.getLsbD l.val then f l.val else (c.vreg n)[l.val])
    vpoison := (coveredUnits m).foldl (fun t u => Tab.del t (8 * n + u)) c.vpoison }

/-- Marks a vector register full or empty. -/
def Course.markV (c : Course) (n : Nat) (full : Bool) : Course := { c with vfull := Tab.put true c.vfull n full }
/-- Marks a scalar register full or empty; s0 stays full. -/
def Course.markS (c : Course) (n : Nat) (full : Bool) : Course :=
  if n = 0 then c else { c with sfull := Tab.put true c.sfull n full }

/-- Adds flags to FSTAT (R220). -/
def Course.flag (c : Course) (f : Nat) : Course := { c with fstat := c.fstat ||| BitVec.ofNat 32 f }

-- ## Index-register fields (R243)

/-- BASE. -/
def XReg.base (x : XReg) : Nat := bits x.ctl.toNat 7 0
/-- BND + 1, the number of registers of the window. -/
def XReg.bound (x : XReg) : Nat := bits x.ctl.toNat 13 8 + 1
/-- STEP, signed. -/
def XReg.step (x : XReg) : Int := signed 4 (x.ctl.toNat / 2 ^ 14)
/-- POST. -/
def XReg.post (x : XReg) : Bool := bit x.ctl.toNat 18
/-- WRAP. -/
def XReg.wrapped (x : XReg) : Bool := bit x.ctl.toNat 19

-- ## Partition word (R19)

/-- SPG: scratchpad granules. -/
def Launch.spg (l : Launch) : Nat := bits l.partw.toNat 15 8
/-- RFG: register-file granules. -/
def Launch.rfg (l : Launch) : Nat := bits l.partw.toNat 7 0
/-- ACG: accumulator-store granules. -/
def Launch.acg (l : Launch) : Nat := bits l.partw.toNat 23 16
/-- COH: the cohort size. -/
def Launch.coh (l : Launch) : Nat := bits l.partw.toNat 28 24
/-- A format slot's descriptor (R226). -/
def Launch.fslot (l : Launch) (n : Nat) : W32 := l.fslots.getD n 0

end Sys2Proof.Machine
end

