-- ==== Sys2Proof/Machine/Mem.lean ====
section
/-! DEFINITION. The bytes of stack memory (R14, R70), poison (R90), slate tags (R75, R76), and the scratchpads with their
full/empty bits (R53). -/

namespace Sys2Proof.Machine

-- ## The physical map (R14, R15, R69)

/-- The address lies in stack memory. -/
def inStack (pa : Nat) : Bool := pa < 0x006000000000
/-- Home slice H of a stack address (R69). -/
def homeSlice (pa : Nat) : Nat := bits pa 15 10 ^^^ bits pa 21 16 ^^^ bits pa 27 22 ^^^ bits pa 33 28
/-- The stack that holds a stack address (R15). -/
def stackOf (pa : Nat) : Nat := bits pa 14 12 ^^^ bits pa 22 20 ^^^ bits pa 30 28

-- ## Bytes of stack memory

/-- The canonical form of the memory list: addresses strictly rising, no entry equal to what an unlisted address reads
as, which is 0 (log entry 2). -/
def Memory.wf (m : List Host.Cell) : Bool := Tab.canon (0 : Byte) m

/-- One byte of stack memory, with the value of its latest write at the home slice (R76). -/
def State.byteAt (s : State) (pa : Nat) : Byte := Tab.get (0 : Byte) s.mem pa

/-- `n` bytes of a list as a little-endian number (R5). -/
def leBytes (bs : List Byte) : Nat := bs.foldr (fun b acc => b.toNat + 256 * acc) 0
/-- The `n` little-endian bytes of a number. -/
def bytesOf (n v : Nat) : List Byte := (List.range n).map fun k => BitVec.ofNat 8 (v / 2 ^ (8 * k))

/-- `n` bytes at an address. -/
def State.bytesAt (s : State) (pa n : Nat) : List Byte := (List.range n).map fun k => s.byteAt (pa + k)
/-- The little-endian value of `n` bytes. -/
def State.read (s : State) (pa n : Nat) : Nat := leBytes (s.bytesAt pa n)

/-- The memory list with bytes placed at rising addresses. -/
def putBytes (m : List Host.Cell) (pa : Nat) (bs : List Byte) : List Host.Cell :=
  match bs with
  | [] => m
  | b :: r => putBytes (Tab.put (0 : Byte) m pa b) (pa + 1) r

-- ## Poison of stack memory: units of 32 bytes (R89, R90)

/-- The 32-byte unit that holds an address is poisoned. -/
def State.poisoned (s : State) (pa : Nat) : Bool := Tab.get false s.poison (pa / 32)
/-- Some byte of the range stands in a poisoned unit. -/
def State.rangePoisoned (s : State) (pa n : Nat) : Bool := (List.range n).any fun k => s.poisoned (pa + k)

/-- The numbers of the aligned units of size `u` that touch the range. -/
def unitsOf (u pa n : Nat) : List Nat := if n = 0 then [] else (List.range ((pa + n - 1) / u - pa / u + 1)).map (pa / u + ·)

/-- The units of size `u` that the range covers whole. -/
def wholeUnits (u pa n : Nat) : List Nat := (unitsOf u pa n).filter fun k => decide (pa ≤ k * u) && decide (k * u + u ≤ pa + n)

/-- Poison after a write of the range: whole units are clean (R90). -/
def clearPoison (t : Tab Bool) (u pa n : Nat) : Tab Bool := (wholeUnits u pa n).foldl (fun t k => Tab.del t k) t

-- ## Slate tags (R75 to R78, R87)

/-- The tag of a slate filled clean (R75). -/
def Tag.clean : Tag := ⟨false, 0, 0⟩
/-- The slate of an address. -/
def slateOf (pa : Nat) : Nat := pa / 1024

/-- The tag after a row write of the range (R76). -/
def Tag.rowWrite (t : Tag) (pa n : Nat) : Tag :=
  let d : W32 := if t.d ≠ 0 ∧ t.o then 0xFFFFFFFF else t.d
  { t with o := false, d := (unitsOf 32 (pa % 1024) n).foldl (fun d q => d ||| BitVec.ofNat 32 (2 ^ q)) d }

/-- The tag after a column write of width w at a line's element address (R76). -/
def Tag.colWrite (t : Tag) (pa w : Nat) : Tag :=
  let d : W32 := if t.d ≠ 0 ∧ !t.o then 0xFFFFFFFF else t.d
  { t with o := true, d := (List.range w).foldl (fun d j => d ||| BitVec.ofNat 32 (2 ^ ((pa + j) % 32))) d }

-- ## Scratchpads (R53)

/-- One byte of a scratchpad. -/
def Workgroup.byte (w : Workgroup) (a : Nat) : Byte := Tab.get 0 w.scratch a
/-- The full bit of granule g; granules start full, or empty under SPE (R22). -/
def Workgroup.full (w : Workgroup) (g : Nat) : Bool := Tab.get w.feDef w.fe g
/-- The value of `n` bytes. -/
def Workgroup.read (w : Workgroup) (a n : Nat) : Nat := leBytes ((List.range n).map fun k => w.byte (a + k))
/-- Writes bytes of a scratchpad; granules written whole lose their poison (R90). -/
def Workgroup.write (w : Workgroup) (a : Nat) (bs : List Byte) : Workgroup :=
  { w with scratch := putBytes w.scratch a bs, spoison := clearPoison w.spoison 16 a bs.length }
/-- Sets the full bits of granules. -/
def Workgroup.mark (w : Workgroup) (gs : List Nat) (b : Bool) : Workgroup :=
  { w with fe := gs.foldl (fun t g => Tab.put w.feDef t g b) w.fe }
/-- A granule of the range is poisoned. -/
def Workgroup.rangePoisoned (w : Workgroup) (a n : Nat) : Bool := (unitsOf 16 a n).any fun g => Tab.get false w.spoison g

end Sys2Proof.Machine
end

