-- ==== Sys2Proof/Machine/Number.lean ====
section
/-! DEFINITION. Number formats and arithmetic: exact values, rounding, integers, tapered formats, containers, format
slots, the dot-product rule, write-back and the reed hash (R213 to R232). -/

namespace Sys2Proof.Machine

-- ## Flags of FSTAT (R220)

/-- NX. -/
def fNX : Nat := 1
/-- UF. -/
def fUF : Nat := 2
/-- OF. -/
def fOF : Nat := 4
/-- DZ. -/
def fDZ : Nat := 8
/-- NV. -/
def fNV : Nat := 16
/-- IS. -/
def fIS : Nat := 32

/-- A value with the flags that it raised. -/
abbrev Flagged := Nat × Nat

-- ## Formats (R213, R215)

/-- An IEEE format: exponent and fraction widths. -/
structure Fmt where
  eb : Nat
  fb : Nat
deriving DecidableEq, Repr

/-- binary32. -/
def f32 : Fmt := ⟨8, 23⟩
/-- binary16. -/
def f16 : Fmt := ⟨5, 10⟩
/-- The upper 16 bits of binary32. -/
def bf16 : Fmt := ⟨8, 7⟩

/-- Exponent bias. -/
def Fmt.bias (f : Fmt) : Nat := 2 ^ (f.eb - 1) - 1
/-- The exponent of the smallest normal. -/
def Fmt.emin (f : Fmt) : Int := 1 - f.bias
/-- The exponent field of infinities and NaNs. -/
def Fmt.emax (f : Fmt) : Nat := 2 ^ f.eb - 1
/-- The sign bit's weight. -/
def Fmt.signBit (f : Fmt) : Nat := 2 ^ (f.eb + f.fb)
/-- The canonical NaN. -/
def Fmt.nan (f : Fmt) : Nat := f.emax * 2 ^ f.fb + 2 ^ (f.fb - 1)
/-- Infinity of a sign. -/
def Fmt.infinity (f : Fmt) (neg : Bool) : Nat := ofBool neg * f.signBit + f.emax * 2 ^ f.fb
/-- The largest finite value of a sign. -/
def Fmt.largest (f : Fmt) (neg : Bool) : Nat := ofBool neg * f.signBit + f.emax * 2 ^ f.fb - 1
/-- Zero of a sign. -/
def Fmt.zero (f : Fmt) (neg : Bool) : Nat := ofBool neg * f.signBit

/-- An exact operand: a NaN (signalling or quiet), an infinity, or (-1)^neg × m × 2^e. -/
inductive FV where
  | nan (sig : Bool)
  | inf (neg : Bool)
  | fin (neg : Bool) (m : Nat) (e : Int)
deriving DecidableEq, Repr

/-- A NaN. -/
def FV.isNan : FV → Bool
  | .nan _ => true
  | _ => false
/-- A signalling NaN. -/
def FV.isSig : FV → Bool
  | .nan s => s
  | _ => false
/-- An infinity. -/
def FV.isInf : FV → Bool
  | .inf _ => true
  | _ => false
/-- An exact zero. -/
def FV.isZero : FV → Bool
  | .fin _ m _ => decide (m = 0)
  | _ => false
/-- The sign. -/
def FV.neg : FV → Bool
  | .nan _ => false
  | .inf n => n
  | .fin n _ _ => n
/-- The value with its sign replaced. -/
def FV.withSign (n : Bool) : FV → FV
  | .nan s => .nan s
  | .inf _ => .inf n
  | .fin _ m e => .fin n m e
/-- The value negated. -/
def FV.negated (x : FV) : FV := x.withSign (!x.neg)
/-- The value times 2^k. -/
def FV.scaled (k : Int) : FV → FV
  | .fin n m e => .fin n m (e + k)
  | x => x

/-- The exact value of an encoding; subnormals read as zero under FTZ (R215, R218). -/
def decodeF (f : Fmt) (ftz : Bool) (b : Nat) : FV :=
  let neg := bit b (f.eb + f.fb)
  let ex := bits b (f.eb + f.fb - 1) f.fb
  let fr := b % 2 ^ f.fb
  if ex = f.emax then (if fr = 0 then .inf neg else .nan (decide (fr < 2 ^ (f.fb - 1))))
  else if ex = 0 then .fin neg (if ftz then 0 else fr) (f.emin - f.fb)
  else .fin neg (2 ^ f.fb + fr) ((ex : Int) - f.bias - f.fb)

-- ## Rounding (R216, R217, R218)

/-- The magnitude m × 2^e as a multiple of 2^q, rounded: the multiple and whether it is inexact. Mode: 0 to nearest
even, 1 toward zero, 2 toward −∞, 3 toward +∞, 4 to nearest with ties away. -/
def quantize (rm : Nat) (neg : Bool) (m : Nat) (e q : Int) : Nat × Bool :=
  if q ≤ e then (m * 2 ^ (e - q).toNat, false)
  else
    let d := 2 ^ (q - e).toNat
    let n := m / d
    let r := m % d
    let up :=
      match rm with
      | 0 => decide (d < 2 * r) || (decide (2 * r = d) && decide (n % 2 = 1))
      | 1 => false
      | 2 => neg && decide (r ≠ 0)
      | 3 => !neg && decide (r ≠ 0)
      | _ => decide (d ≤ 2 * r)
    (n + ofBool up, decide (r ≠ 0))

/-- The overflow result of a rounding mode (R217). -/
def overflowTo (f : Fmt) (rm : Nat) (neg : Bool) : Nat :=
  match rm with
  | 1 => f.largest neg
  | 2 => if neg then f.infinity true else f.largest false
  | 3 => if neg then f.largest true else f.infinity false
  | _ => f.infinity neg

/-- RoundTo for a finite exact value (R217, R218): encoding and flags. A zero keeps its sign. -/
def roundFin (f : Fmt) (rm : Nat) (ftz neg : Bool) (m : Nat) (e : Int) : Flagged :=
  if m = 0 then (f.zero neg, 0)
  else
    let top : Int := Nat.log2 m + e
    if ftz ∧ top < f.emin then (f.zero neg, fUF + fNX)
    else
      let qU := top - f.fb
      let nU := (quantize rm neg m e qU).1
      let tiny := decide (top < f.emin) && !(decide (top + 1 = f.emin) && decide (nU = 2 ^ (f.fb + 1)))
      let q := max qU (f.emin - f.fb)
      let (n0, inexact) := quantize rm neg m e q
      let (n, qn) := if n0 = 2 ^ (f.fb + 1) then (2 ^ f.fb, q + 1) else (n0, q)
      let ex := qn + f.fb + f.bias
      if f.emax ≤ ex then (overflowTo f rm neg, fOF + fNX)
      else
        let body := if n < 2 ^ f.fb then n else ex.toNat * 2 ^ f.fb + (n - 2 ^ f.fb)
        (ofBool neg * f.signBit + body, if inexact then (if tiny then fUF + fNX else fNX) else 0)

/-- RoundTo(fmt, x, rm): the encoding with its flags; a NaN gives the canonical NaN (R217, R219). -/
def roundTo (f : Fmt) (rm : Nat) (ftz : Bool) : FV → Flagged
  | .nan _ => (f.nan, 0)
  | .inf n => (f.infinity n, 0)
  | .fin n m e => roundFin f rm ftz n m e

/-- A real known to lie strictly between m × 2^e and (m + 1) × 2^e is rounded as (2m + 1) × 2^(e - 1), which every
rounding onto a coarser grid treats alike. -/
def between (neg : Bool) (m : Nat) (e : Int) : FV := .fin neg (2 * m + 1) (e - 1)

-- ## Exact arithmetic

/-- A dyadic number as an integer multiple of 2^q, for q at or below its exponent. -/
def FV.asInt (q : Int) : FV → Int
  | .fin n m e => (if n then -1 else 1) * (m * 2 ^ (e - q).toNat : Nat)
  | _ => 0

/-- A signed multiple of 2^q. -/
def ofInt (z q : Int) : FV := .fin (decide (z < 0)) z.natAbs q

/-- The sign of an exact zero sum (IEEE 754-2019, under the rounding mode). -/
def zeroSign (rm : Nat) (a b : Bool) : Bool := if a = b then a else decide (rm = 2)

/-- The exact sum and the flags of the operation (R219). -/
def addFV (rm : Nat) (x y : FV) : FV × Nat :=
  let nv := if x.isSig || y.isSig then fNV else 0
  match x, y with
  | .nan _, _ => (.nan false, nv)
  | _, .nan _ => (.nan false, nv)
  | .inf a, .inf b => if a = b then (.inf a, 0) else (.nan false, fNV)
  | .inf a, _ => (.inf a, 0)
  | _, .inf b => (.inf b, 0)
  | .fin a m e, .fin b n f =>
    let q := min e f
    let z := (FV.fin a m e).asInt q + (FV.fin b n f).asInt q
    if z = 0 then (.fin (zeroSign rm a b) 0 q, 0) else (ofInt z q, 0)

/-- The exact product and the flags of the operation (R219). -/
def mulFV (x y : FV) : FV × Nat :=
  let nv := if x.isSig || y.isSig then fNV else 0
  match x, y with
  | .nan _, _ => (.nan false, nv)
  | _, .nan _ => (.nan false, nv)
  | .inf a, .inf b => (.inf (a != b), 0)
  | .inf a, .fin b n _ => if n = 0 then (.nan false, fNV) else (.inf (a != b), 0)
  | .fin a m _, .inf b => if m = 0 then (.nan false, fNV) else (.inf (a != b), 0)
  | .fin a m e, .fin b n f => (.fin (a != b) (m * n) (e + f), 0)

/-- x × y + z, exact: the product of 0 and ∞ is invalid whatever z is. -/
def fmaFV (rm : Nat) (x y z : FV) : FV × Nat :=
  let p := mulFV x y
  let r := addFV rm p.1 z
  (r.1, p.2 ||| r.2)

/-- A quotient as an exact value where it ends, else as a value between two neighbours of 80 bits and more. -/
def divFin (neg : Bool) (m : Nat) (e : Int) (n : Nat) (f : Int) : FV :=
  let sh := 80 + Nat.log2 n
  let q := m * 2 ^ sh / n
  if m * 2 ^ sh % n = 0 then .fin neg q (e - f - sh) else between neg q (e - f - sh)

/-- The exact quotient and flags (R219). -/
def divFV (x y : FV) : FV × Nat :=
  let nv := if x.isSig || y.isSig then fNV else 0
  match x, y with
  | .nan _, _ => (.nan false, nv)
  | _, .nan _ => (.nan false, nv)
  | .inf _, .inf _ => (.nan false, fNV)
  | .inf a, .fin b _ _ => (.inf (a != b), 0)
  | .fin a _ _, .inf b => (.fin (a != b) 0 0, 0)
  | .fin a m e, .fin b n f =>
    if n = 0 then (if m = 0 then (.nan false, fNV) else (.inf (a != b), fDZ))
    else if m = 0 then (.fin (a != b) 0 0, 0)
    else (divFin (a != b) m e n f, 0)

/-- Integer square root by bits: `k` is the number of result bits still to try. -/
def isqrtGo (n k r : Nat) : Nat :=
  match k with
  | 0 => r
  | j + 1 => if (r + 2 ^ j) * (r + 2 ^ j) ≤ n then isqrtGo n j (r + 2 ^ j) else isqrtGo n j r

/-- The integer square root. -/
def isqrt (n : Nat) : Nat := isqrtGo n (Nat.log2 n / 2 + 1) 0

/-- The square root of a nonzero magnitude. -/
def sqrtFin (m : Nat) (e : Int) : FV :=
  let sh : Nat := 160 + (if (e % 2 = 0) then 0 else 1)
  let r := isqrt (m * 2 ^ sh)
  if r * r = m * 2 ^ sh then .fin false r ((e - sh) / 2) else between false r ((e - sh) / 2)

/-- The exact square root and flags. -/
def sqrtFV : FV → FV × Nat
  | .nan s => (.nan false, if s then fNV else 0)
  | .inf n => if n then (.nan false, fNV) else (.inf false, 0)
  | .fin n m e => if m = 0 then (.fin n 0 0, 0) else if n then (.nan false, fNV) else (sqrtFin m e, 0)

/-- Order of two values that are not NaN; −0 and +0 are equal. -/
def cmpFV (x y : FV) : Ordering :=
  match x, y with
  | .inf a, .inf b => if a = b then .eq else if a then .lt else .gt
  | .inf a, _ => if a then .lt else .gt
  | _, .inf b => if b then .gt else .lt
  | .fin a m e, .fin b n f =>
    let q := min e f
    compare ((FV.fin a m e).asInt q) ((FV.fin b n f).asInt q)
  | _, _ => .eq

/-- minimumNumber or maximumNumber (R219): `mx` selects the maximum; −0 is below +0. -/
def minMaxFV (mx : Bool) (x y : FV) : FV × Nat :=
  let nv := if x.isSig || y.isSig then fNV else 0
  if x.isNan then (if y.isNan then .nan false else y, nv)
  else if y.isNan then (x, nv)
  else
    let xLess := match cmpFV x y with
      | .lt => true
      | .gt => false
      | .eq => x.neg && !y.neg
    ((if xLess = mx then y else x), nv)

-- ## Integers (R221, R222)

/-- An integer type: width and signedness. -/
structure ITy where
  w : Nat
  sg : Bool
deriving DecidableEq, Repr

/-- The least value of a type. -/
def ITy.lo (t : ITy) : Int := if t.sg then -(2 ^ (t.w - 1) : Nat) else 0
/-- The greatest value of a type. -/
def ITy.hi (t : ITy) : Int := if t.sg then (2 ^ (t.w - 1) : Nat) - 1 else (2 ^ t.w : Nat) - 1
/-- The value of a type's bits. -/
def ITy.val (t : ITy) (b : Nat) : Int := if t.sg then signed t.w b else (b % 2 ^ t.w : Nat)

/-- The exact result brought into the type: wrapped, or saturated with IS (R221). -/
def intResult (t : ITy) (sat : Bool) (z : Int) : Flagged :=
  if sat then
    if z < t.lo then (wrap t.w t.lo, fIS) else if t.hi < z then (wrap t.w t.hi, fIS) else (wrap t.w z, 0)
  else (wrap t.w z, 0)

/-- The integer that rounding a finite value gives, and whether a fraction was discarded. -/
def roundInt (rm : Nat) (neg : Bool) (m : Nat) (e : Int) : Int × Bool :=
  let (n, inexact) := quantize rm neg m e 0
  ((if neg then -1 else 1) * (n : Int), inexact)

/-- Conversion of a floating-point value to an integer type (R222). -/
def toInt (t : ITy) (rm : Nat) (sat : Bool) : FV → Flagged
  | .nan _ => (0, if sat then fNV + fIS else fNV)
  | .inf n => if sat then (wrap t.w (if n then t.lo else t.hi), fNV + fIS) else (0, fNV)
  | .fin n m e =>
    let (z, inexact) := roundInt rm n m e
    if z < t.lo ∨ t.hi < z then
      if sat then (wrap t.w (if z < t.lo then t.lo else t.hi), fNV + fIS) else (wrap t.w z, fNV)
    else (wrap t.w z, if inexact then fNX else 0)

-- ## Tapered formats (R223, R224)

/-- The length of the run of bits equal to `r` from bit `i - 1` downward. -/
def runLen (p : Nat) (r : Bool) (i : Nat) : Nat :=
  match i with
  | 0 => 0
  | j + 1 => if bit p j = r then runLen p r j + 1 else 0

/-- DecodeT: `none` is NaR. -/
def decodeT (n es p : Nat) : Option FV :=
  if p = 0 then some (.fin false 0 0)
  else if p = 2 ^ (n - 1) then none
  else
    let s := bit p (n - 1)
    let q := if s then 2 ^ n - p else p
    let r := bit q (n - 2)
    let m := runLen q r (n - 1)
    let k : Int := if r then (m : Int) - 1 else -(m : Int)
    let len := n - 2 - m
    let b := q % 2 ^ len
    let eLen := min es len
    let e := b / 2 ^ (len - eLen) * 2 ^ (es - eLen)
    let fLen := len - eLen
    let f := b % 2 ^ fLen
    some (.fin s (2 ^ fLen + f) ((2 ^ es : Nat) * k + e - fLen))

/-- EncodeT of an exact value (R224). -/
def encodeT (n es : Nat) : FV → Nat
  | .nan _ => 2 ^ (n - 1)
  | .inf neg => if neg then 2 ^ n - (2 ^ (n - 1) - 1) else 2 ^ (n - 1) - 1
  | .fin neg m e =>
    if m = 0 then 0
    else
      let lg := Nat.log2 m
      let top : Int := lg + e
      let span : Int := ((n - 2) * 2 ^ es : Nat)
      let q :=
        if span ≤ top then 2 ^ (n - 1) - 1
        else if top < -span ∨ (top = -span ∧ m = 2 ^ lg) then 1
        else
          let k := top / ((2 ^ es : Nat) : Int)
          let ex := (top % ((2 ^ es : Nat) : Int)).toNat
          let g : Nat := if 0 ≤ k then (2 ^ (k.toNat + 1) - 1) * 2 else 1
          let gl : Nat := if 0 ≤ k then k.toNat + 2 else (-k).toNat + 1
          let w := (g * 2 ^ es + ex) * 2 ^ lg + (m - 2 ^ lg)
          let len := gl + es + lg
          if len ≤ n - 1 then w * 2 ^ (n - 1 - len)
          else
            let d := 2 ^ (len - (n - 1))
            let h := w / d
            let t := w % d
            if d < 2 * t ∨ (2 * t = d ∧ h % 2 = 1) then h + 1 else h
      if neg then 2 ^ n - q else q

-- ## Format slots (R226, R227)

/-- FCODE. -/
def slotCode (d : W32) : Nat := bits d.toNat 3 0
/-- SCALE. -/
def slotScale (d : W32) : Int := signed 7 (d.toNat / 16)
/-- FSAT. -/
def slotSat (d : W32) : Bool := bit d.toNat 11
/-- NARP. -/
def slotNarp (d : W32) : Bool := bit d.toNat 12

/-- A slot's descriptor is malformed (R226). -/
def slotMalformed (d : W32) : Bool :=
  decide (8 ≤ slotCode d) || bits d.toNat 31 13 ≠ 0 || (decide (slotCode d = 0) && d ≠ 0)
    || ((decide (slotCode d = 1) || decide (slotCode d = 2)) && !slotSat d)
    || (slotCode d ≠ 1 && slotCode d ≠ 2 && slotNarp d)

/-- The width in bits of an element of a slot's format. -/
def slotWidth (d : W32) : Nat :=
  match slotCode d with
  | 1 => 8 | 2 => 6 | 3 => 8 | 4 => 8 | 5 => 16 | 6 => 16 | 7 => 32 | _ => 0

/-- NaR under a slot's policy (R226, R227). -/
def narValue (d : W32) : FV × Nat := if slotNarp d then (.fin false 0 0, fNV) else (.nan false, 0)

/-- Decode(slot, bits): exact value and flags. -/
def decodeSlot (d : W32) (ftz : Bool) (b : Nat) : FV × Nat :=
  let r : FV × Nat :=
    match slotCode d with
    | 1 => match decodeT 8 1 (b % 256) with | some v => (v, 0) | none => narValue d
    | 2 => match decodeT 6 0 (b % 64) with | some v => (v, 0) | none => narValue d
    | 3 => (ofInt (signed 8 b) 0, 0)
    | 4 => (ofInt (b % 256 : Nat) 0, 0)
    | 5 => (decodeF f16 ftz (b % 65536), 0)
    | 6 => (decodeF bf16 ftz (b % 65536), 0)
    | _ => (decodeF f32 ftz (b % 2 ^ 32), 0)
  (r.1.scaled (slotScale d), r.2)

/-- An IEEE encoding under FSAT: results beyond the largest finite value, ±∞ included, become it (R227). -/
def roundSat (f : Fmt) (rm : Nat) (ftz sat : Bool) (x : FV) : Flagged :=
  let r := roundTo f rm ftz x
  if sat && decide (r.1 = f.infinity x.neg) then (f.largest x.neg, r.2) else r

/-- The encoding of x under a slot (R227). -/
def encodeSlot (d : W32) (rm : Nat) (ftz : Bool) (x : FV) : Flagged :=
  let y := x.scaled (-slotScale d)
  match slotCode d with
  | 1 => (encodeT 8 1 y, 0)
  | 2 => (encodeT 6 0 y, 0)
  | 3 => toInt ⟨8, true⟩ rm (slotSat d) y
  | 4 => toInt ⟨8, false⟩ rm (slotSat d) y
  | 5 => roundSat f16 rm ftz (slotSat d) y
  | 6 => roundSat bf16 rm ftz (slotSat d) y
  | _ => roundSat f32 rm ftz (slotSat d) y

-- ## The T6 container (R225)

/-- Parity of the 30 bits of a quarter. -/
def parity30 (q : Nat) : Nat := ((List.range 30).map fun i => ofBool (bit q i)).foldl (· + ·) 0 % 2

/-- The container of 20 T6 elements, with tag and parity. -/
def t6Pack (es : List Nat) : Nat :=
  let body := (List.range 20).foldl (fun acc i => acc + (es.getD i 0 % 64) * 2 ^ (6 * i)) 0
  let par := (List.range 4).foldl (fun acc j => acc + parity30 (bits body (30 * j + 29) (30 * j)) * 2 ^ (124 + j)) 0
  body + 0b0110 * 2 ^ 120 + par

/-- The elements of a T6 container; `none` where the tag or the quarter's parity makes them NaR. -/
def t6Elem (c i : Nat) : Option Nat :=
  let j := i / 5
  if bits c 123 120 = 0b0110 ∧ parity30 (bits c (30 * j + 29) (30 * j)) = bits c (124 + j) (124 + j)
  then some (bits c (6 * i + 5) (6 * i)) else none

/-- The tag is right and every quarter's parity holds. -/
def t6Good (c : Nat) : Bool := [0, 5, 10, 15].all fun i => (t6Elem c i).isSome

-- ## The dot-product rule (R228)

/-- A term's product before summing: the exact product and its flags. -/
def term (x y : FV) : FV × Nat := mulFV x y

/-- The aligned sum of R228 over finite values: the sum, the exponent of its unit, and NX where a term was truncated. -/
def dotFinite (l : List FV) : Int × Int × Nat :=
  let nz := l.filter fun v => !v.isZero
  let tops : List Int := nz.map fun v => match v with | .fin _ m e => (Nat.log2 m : Int) + e | _ => 0
  match tops with
  | [] => (0, 0, 0)
  | t0 :: _ =>
    let q := tops.foldl max t0 - 50
    let parts := nz.map fun v => match v with
      | .fin n m e =>
        let k : Nat × Bool :=
          if q ≤ e then (m * 2 ^ (e - q).toNat, false) else (m / 2 ^ (q - e).toNat, decide (m % 2 ^ (q - e).toNat ≠ 0))
        ((if n then -(k.1 : Int) else (k.1 : Int)), k.2)
      | _ => (0, false)
    (parts.foldl (fun (acc : Int) p => acc + p.1) 0, q, if parts.any (fun p => p.2) then fNX else 0)

/-- ZeroSign of R228: −0 when every member is −0, and under RM 2 when any member is −0 or nonzero. -/
def dotZero (rm : Nat) (l : List FV) : Bool :=
  !l.isEmpty && (l.all (fun v => v.isZero && v.neg)
    || (decide (rm = 2) && l.any fun v => (v.isZero && v.neg) || !v.isZero))

/-- ExactDot over the terms (products formed, with their flags in `nv`) and the accumulator among them (R228). -/
def exactDot (rm : Nat) (ftz : Bool) (l : List FV) (nv : Nat) : Flagged :=
  let hasNan := l.any FV.isNan
  let pos := l.any fun v => v.isInf && !v.neg
  let ng := l.any fun v => v.isInf && v.neg
  if hasNan || (pos && ng) then
    (f32.nan, nv ||| (if (pos && ng) || l.any FV.isSig then fNV else 0))
  else if pos || ng then (f32.infinity ng, nv)
  else
    let r := dotFinite l
    if r.1 = 0 then (f32.zero (dotZero rm l), r.2.2 ||| nv)
    else
      let q := roundFin f32 rm ftz (decide (r.1 < 0)) r.1.natAbs r.2.1
      (q.1, q.2 ||| r.2.2 ||| nv)

-- ## Accumulator write-back (R229)

/-- The scaled and clipped value of one element, with the flags of the product. The manual does not say whether a signalling NaN as
the clip bound is an invalid operand, where it says that a NaN bound clips nothing: it raises nothing here (log entry 89). -/
def writeBackCore (ftz : Bool) (v sg c : Nat) : FV × Nat :=
  let y := mulFV (decodeF f32 ftz v) (decodeF f32 ftz sg)
  let clip := decodeF f32 ftz c
  (if y.1.isNan || clip.isNan then y.1
    else if cmpFV y.1 (clip.withSign false) = .gt then clip.withSign false
    else if cmpFV y.1 (clip.withSign true) = .lt then clip.withSign true
    else y.1, y.2)

/-- WriteBack of one element. -/
def writeBackElem (rm : Nat) (ftz : Bool) (v sg c : Nat) (slot : W32) : Flagged :=
  let y := writeBackCore ftz v sg c
  let r := encodeSlot slot rm ftz y.1
  (r.1, r.2 ||| y.2)

-- ## The reed hash (R230)

/-- Reed(key, row, col). -/
def reed (key : W64) (row col : W32) : W32 :=
  let x0 := key ^^^ BitVec.ofNat 64 (row.toNat * 2 ^ 32 + col.toNat)
  let x1 := (x0 ^^^ (x0 >>> 31)) * 0x9A3F5C21D4E78B6D
  let x2 := (x1 ^^^ (x1 >>> 29)) * 0xC4E31B57A96D0F35
  BitVec.ofNat 32 (x2 ^^^ (x2 >>> 32)).toNat

end Sys2Proof.Machine
end

