-- ==== Sys2Proof/Machine/Home.lean ====
section
/-! DEFINITION. Stack memory at its home slices (R69 to R78, R84 to R91): events, the places of a slice, reductions at the
logic dies, and the reads and writes that every agent's accesses go through. -/

namespace Sys2Proof.Machine

-- ## Events (R413)

/-- A record posted to one destination: dropped and counted when it holds 1,024. -/
def EvDest.post (d : EvDest) (e : Event) : EvDest :=
  if 1024 ≤ d.queue.length then { d with lost := d.lost + 1 } else { d with queue := d.queue ++ [e] }

/-- Up to `n` records are delivered, oldest first, behind a class 7 record where records were lost. -/
def EvDest.deliver (d : EvDest) (n : Nat) : EvDest :=
  let now := d.queue.take n
  if now = [] then { d with out := [] }
  else
    { queue := d.queue.drop n, lost := 0
      out := (if d.lost = 0 then [] else [⟨7, bytesOf 8 d.lost ++ bytesOf 24 0⟩]) ++ now }

/-- The destination's event path is full. -/
def EvDest.full (d : EvDest) : Bool := decide (1024 ≤ d.queue.length)

/-- A record of classes 1, 2, 4, 5 and 6 goes to the management core and to the host. -/
def State.postEvent (s : State) (cls : Nat) (rec : List Byte) : State :=
  { s with evMgmt := s.evMgmt.post ⟨cls, rec⟩, evHost := s.evHost.post ⟨cls, rec⟩ }

/-- An error event (R94): array code, die, unit, address. -/
def State.errorEvent (s : State) (arr die unit addr : Nat) : State :=
  s.postEvent 5 (bytesOf 1 arr ++ bytesOf 1 die ++ bytesOf 6 0 ++ bytesOf 8 unit ++ bytesOf 8 addr ++ bytesOf 8 0)

/-- The event of an uncorrectable error of a 32-byte unit (R91, R94): its array, 3 for a line of a held slate and 4 for the
stack; the die of its home slice (R69); its number. -/
def State.unitEvent (s : State) (arr pa : Nat) : State := s.errorEvent arr (homeSlice pa / 16) (pa / 32) pa

/-- A unit that the management core is to test (R410). -/
def State.suspect (s : State) (k : UnitKind) (die unit : Nat) : State :=
  if s.suspects.contains (k, die, unit) then s else { s with suspects := s.suspects ++ [(k, die, unit)] }

-- ## The places of a slice (R2, R69, R75 to R79, R110, R410)

/-- The row line q of the slate differs from its stack: with O = 1 a write-back writes the whole slate (R78). -/
def Tag.dirtyRow (t : Tag) (q : Nat) : Bool := if t.o then decide (t.d ≠ 0) else t.d.getLsbD q

/-- The slate leaves its slice (R78): dirty rows are written back with their poison (R90); what stands in memory of a clean
row is what the stack holds, poison included. -/
def State.dropSlate (s : State) (sl : Nat) : State :=
  match Tab.find s.tags sl with
  | none => s
  | some t =>
    { s with
      tags := Tab.del s.tags sl
      poison := (List.range 32).foldl (fun p q =>
        if t.dirtyRow q then p else Tab.put false p (32 * sl + q) (Tab.get false s.under (32 * sl + q))) s.poison
      under := s.under.filter fun e => e.1 / 32 ≠ sl }

/-- The slate is written back to its stack: no row is dirty afterwards, and the stack has the poison of what was (R78, R90). -/
def State.writeBack (s : State) (sl : Nat) : State :=
  match Tab.find s.tags sl with
  | some t =>
    { s with
      tags := Tab.set s.tags sl { t with d := 0 }
      under := (List.range 32).foldl (fun p q =>
        if t.dirtyRow q then Tab.put false p (32 * sl + q) (Tab.get false s.poison (32 * sl + q)) else p) s.under }
  | none => s

/-- What stands in a place of a slice: a slate of this module, a copy of another's (R110), or a version slate or part of a
reduction log (R79, R80), whose set is that of the slate `slate` after it. `free` says that a fill may replace it (R69). -/
structure Tenant where
  peer  : Option Nat
  slate : Nat
  free  : Bool
deriving DecidableEq, Repr

/-- Version slates that a reduction log fills (R80). -/
def logSlates (n : Nat) : Nat := (n + 31) / 32

/-- The slice in which slate i of a task's reduction log stands, from the log's first target (R80). -/
def logSlice (pa i : Nat) : Nat := (homeSlice pa + i) % 64

/-- What stands in a slice. -/
def State.placesIn (s : State) (h : Nat) : List Tenant :=
  let here := fun (sl : Nat) => decide (homeSlice (sl * 1024) = h)
  ((s.tags.filter fun e => here e.1).map fun e => ⟨none, e.1, decide (e.2.pend = 0)⟩)
    ++ ((s.copies.filter fun c => here c.slate).map fun c => ⟨some c.peer, c.slate, true⟩)
    ++ s.wgs.flatMap fun e =>
      ((e.2.version.filter fun v => here v.slate).map fun v => ⟨v.peer, v.slate, false⟩)
        ++ (match e.2.redlog with
          | [] => []
          | r :: _ => ((List.range (logSlates e.2.redlog.length)).filter fun i => decide (logSlice r.pa i = h)).map
              fun i => ⟨r.peer, slateOf r.pa + i, false⟩)

/-- The ways of a slice that are neither disabled nor under test (R69, R410). -/
def State.sliceWays (s : State) (h : Nat) : Nat :=
  16 - ((s.retired ++ (s.watched.filter fun x => x.busy).map fun x => (x.kind, x.die, x.unit)).eraseDups.filter fun x =>
    decide (x.1 = .slateWay) && decide (x.2.1 = h / 16) && decide (x.2.2 / 16 = h % 16)).length

/-- The set of a slate among the 512 of its slice, which the manual does not give (log entry 58). -/
def setOf (peer : Option Nat) (sl : Nat) : Nat := Config.slateSet (sl + 2 ^ 50 * (match peer with | none => 0 | some p => p + 1)) % 512

/-- What stands in a set of a slice; none is looked for while the whole slice holds less than one set does. -/
def State.inSet (s : State) (h set : Nat) : List Tenant :=
  let here := s.placesIn h
  if here.length < s.sliceWays h then [] else here.filter fun p => decide (setOf p.peer p.slate = set)

/-- A slice holds the data of a slate of this module: not where its tag only counts reductions on their way (R87). -/
def State.holds (s : State) (sl : Nat) : Bool := (Tab.find s.tags sl).any fun t => decide (t.pend = 0)

/-- A place in a set of a slice: one that is unused, or one taken from a slate or copy that may be replaced (R69); none
where versions and pending reductions fill the set. -/
def State.roomAt (s : State) (h set : Nat) : Option State :=
  if (s.inSet h set).length < s.sliceWays h then some s
  else (pickFrom ((s.inSet h set).filter fun p => p.free) (Config.choice s.steps)).map fun v =>
    match v.peer with
    | none => s.dropSlate v.slate
    | some q => { s with copies := s.copies.filter fun c => !(decide (c.peer = q) && decide (c.slate = v.slate)) }

/-- A place for a slate at its home slice. -/
def State.makeRoom (s : State) (peer : Option Nat) (sl : Nat) : Option State := s.roomAt (homeSlice (sl * 1024)) (setOf peer sl)

/-- The slate is held: a miss of any kind fills it from its stack, poison included (R71, R90), where its set has a place
(R69); where it has none, the access is served and fills nothing. -/
def State.holdSlate (s : State) (sl : Nat) : State :=
  match Tab.find s.tags sl with
  | some _ => s
  | none =>
    match s.makeRoom none sl with
    | none => s
    | some t =>
      { t with
        tags := Tab.set t.tags sl .clean
        under := (List.range 32).foldl (fun p q => Tab.put false p (32 * sl + q) (Tab.get false t.poison (32 * sl + q))) t.under }

/-- Changes the tag of a slate, which the access has filled. -/
def State.touchTag (s : State) (sl : Nat) (f : Tag → Tag) : State :=
  match Tab.find (s.holdSlate sl).tags sl with
  | some t => { (s.holdSlate sl) with tags := Tab.set (s.holdSlate sl).tags sl (f t) }
  | none => s.holdSlate sl

/-- The armed monitors whose 128-byte block a write of the range touches are set off (R320). -/
def fireMonitors (ms : List (Nat × Nat × Nat × Nat × Bool)) (pa n : Nat) : List (Nat × Nat × Nat × Nat × Bool) :=
  ms.map fun (u, c, va, blk, f) => (u, c, va, blk, f || (unitsOf 128 pa n).contains blk)

/-- A write of a range breaks the reservations of the harts' LR that it touches (R165, R387); a reservation is the address and the size
of the LR, by hart. -/
def breakPairs (t : Tab (Nat × Nat)) (pa n : Nat) : Tab (Nat × Nat) :=
  t.filter fun e => !(decide (e.2.1 < pa + n) && decide (pa < e.2.1 + e.2.2))

-- ## Words that the front end waits on (R193, R198, R200)

/-- A packet or an RCB as it was read, as one number. -/
abbrev Block := Nat

/-- The 8-byte word of a block at an offset. -/
def w8 (b : Block) (off : Nat) : Nat := b / 2 ^ (8 * off) % 2 ^ 64
/-- The 4-byte word of a block at an offset. -/
def w4 (b : Block) (off : Nat) : Nat := b / 2 ^ (8 * off) % 2 ^ 32

/-- COND of a wait packet between the word and WVAL (R198). -/
def waitCond (b : Block) (v : Nat) : Bool :=
  let wide := bit (w4 b 0x18) 2
  let w := if wide then w8 b 0x10 else w4 b 0x10
  let n := if wide then 64 else 32
  match bits (w4 b 0x18) 1 0 with
  | 0 => decide (v = w)
  | 1 => decide (v ≠ w)
  | 2 => decide (w ≤ v)
  | _ => decide (signed n w ≤ signed n v)

/-- Bytes of the word of a wait packet. -/
def waitWidth (b : Block) : Nat := if bit (w4 b 0x18) 2 then 8 else 4

/-- A waiting queue reads its word again after a write to it (R198); `v` reads a number of bytes at an address. -/
def Queue.look (q : Queue) (v : Nat → Nat → Nat) (pa n : Nat) : Queue :=
  let b := leBytes q.pkt
  if q.qstate = 2 ∧ w8 b 8 < pa + n ∧ pa < w8 b 8 + waitWidth b ∧ waitCond b (v (w8 b 8) (waitWidth b)) then { q with met := true }
  else q

/-- What the queues have noted at their write-pointer words since a state was a peer's writing (R200, log entry 79). -/
def State.attribute1 (s old : State) (peer : Nat) : State :=
  { s with queues := Tab.mapVal (fun k (q : Queue) =>
      let n := (old.queue k).wrote.length
      { q with wrote := q.wrote.take n ++ (q.wrote.drop n).map fun e => (e.1, peer) }) s.queues }

/-- A queue notes a write to its write-pointer word (R193, R200): the value that stands there now, by a writer of this
module until the write proves a peer's. A queue that is not enabled notes it too, since a later packet may be covered by it. -/
def Queue.note (q : Queue) (mem : List Host.Cell) (pa n : Nat) : Queue :=
  let wp := q.wpa.toNat
  if decide (pa < wp + 8) && decide (wp < pa + n) then
    { q with
      wrote := q.wrote ++ [(BitVec.ofNat 64 (leBytes ((List.range 8).map fun k => Tab.get (0 : Byte) mem (wp + k))), 4096)]
      seen := false }
  else q

/-- WAITF's condition (R369). -/
def flagCond (cond : Nat) (v w : W32) : Bool :=
  match cond with
  | 0 => v == w
  | 1 => v != w
  | 2 => decide (w.toNat ≤ v.toNat)
  | _ => decide (w.toInt ≤ v.toInt)

/-- A waiting WAITF reads its word again after a write to it (R369); `v` reads a word. -/
def Ctx.look (x : Ctx) (v : Nat → W32) (pa n : Nat) : Ctx :=
  match x.watch with
  | some (at1, cond, w) =>
    if at1 < pa + n ∧ pa < at1 + 4 ∧ flagCond cond (v at1) w then { x with met := true } else x
  | none => x

/-- What follows a change of memory at its home: monitors are set off (R320), reservations of the harts broken, the queues note it, and
the WAITFs that wait for the word read it again. -/
def State.noteWrite (s : State) (pa n : Nat) : State :=
  { s with
    monitors := fireMonitors s.monitors pa n
    lrs := breakPairs s.lrs pa n
    queues := Tab.mapVal (fun _ q => (q.note s.mem pa n).look s.read pa n) s.queues
    seqs := Tab.mapVal (fun _ (q : Seqr) =>
      { q with ctxs := Tab.mapVal (fun _ (x : Ctx) => x.look (fun a => BitVec.ofNat 32 (s.read a 4)) pa n) q.ctxs }) s.seqs }

-- ## Reductions and atomics (R84, R310)

/-- Element width of an operation code. -/
def rmwWidth (op : Nat) : Nat := if op = 1 then 2 else 4

/-- A code that rounds, and so refuses the reserved rounding modes (R310). -/
def rmwRounds (op : Nat) : Bool := decide (op ≤ 1)

/-- The new value of an element; `c` is the compare value of .cas. Floating-point results raise no flag (R85). -/
def rmwNew (op rm : Nat) (ftz : Bool) (old v c : Nat) : Nat :=
  let o : BitVec 32 := BitVec.ofNat 32 old
  let x : BitVec 32 := BitVec.ofNat 32 v
  let fl := fun (b : Nat) => decodeF f32 ftz b
  match op with
  | 0 => (roundTo f32 rm ftz (addFV rm (fl old) (fl v)).1).1
  | 1 => (roundTo bf16 rm ftz (addFV rm (decodeF bf16 ftz (old % 65536)) (decodeF bf16 ftz (v % 65536))).1).1
  | 2 => (o + x).toNat
  | 3 => if o.toInt < x.toInt then x.toNat else o.toNat
  | 4 => max o.toNat x.toNat
  | 5 => if x.toInt < o.toInt then x.toNat else o.toNat
  | 6 => min o.toNat x.toNat
  | 7 => (roundTo f32 rm ftz (minMaxFV true (fl old) (fl v)).1).1
  | 8 => (roundTo f32 rm ftz (minMaxFV false (fl old) (fl v)).1).1
  | 9 => x.toNat
  | 10 => if o = BitVec.ofNat 32 c then x.toNat else o.toNat
  | 11 => (o &&& x).toNat
  | 12 => (o ||| x).toNat
  | _ => (o ^^^ x).toNat

/-- One reduction applied at its logic die (R86, R90, R91): a poisoned element stays as it is, an event names it, and a
peer's reduction has failed (R118); that event, of class 5, is the only record posted, no link event 0x07 beside it (R127, log
entry 83). The reduction is then acknowledged: its slate has one fewer pending, and is no longer held (R87). -/
def State.applyRed (s : State) (r : PRed) : State :=
  let w := rmwWidth r.op
  let t :=
    if s.rangePoisoned r.pa w then s.unitEvent 4 r.pa
    else { s with mem := putBytes s.mem r.pa (bytesOf w (rmwNew r.op r.rm r.ftz (s.read r.pa w) r.v 0)) }.noteWrite r.pa w
  let g := Tab.get .clean t.tags (slateOf r.pa)
  let u := { t with
    tags := if g.pend ≤ 1 then Tab.del t.tags (slateOf r.pa) else Tab.set t.tags (slateOf r.pa) { g with pend := g.pend - 1 } }
  match r.from1 with
  | none => u
  | some (issuer, key, batch, seqno) =>
    { u.attribute1 s issuer with inb := u.inb.map fun b =>
        if b.issuer = issuer ∧ b.key = key ∧ b.batch = batch then
          { b with pendRed := b.pendRed - 1
                   errors := if s.rangePoisoned r.pa w then b.errors ||| 2 ^ (seqno % 32) else b.errors }
        else b }

/-- Every reduction pending against a slate is applied before an access that reaches the slice (R87). -/
def State.settle (s : State) (sl : Nat) : State :=
  (s.reds.filter fun r => decide (slateOf r.pa = sl)).foldl State.applyRed
    { s with reds := s.reds.filter fun r => !decide (slateOf r.pa = sl) }

/-- The slates of a range are settled. -/
def State.settleRange (s : State) (pa n : Nat) : State := (unitsOf 1024 pa n).foldl State.settle s

-- ## Reads and writes at home (R70, R71, R76, R87, R90)

/-- A row write of bytes within one slate, performed at its home slice (R70, R76, R90). -/
def State.write (s : State) (pa : Nat) (bs : List Byte) : State :=
  let t := s.touchTag (slateOf pa) fun g => g.rowWrite pa bs.length
  { t with
    mem := putBytes t.mem pa bs
    poison := clearPoison t.poison 32 pa bs.length }.noteWrite pa bs.length

/-- One element of a column write performed at its home slice. -/
def State.writeCol (s : State) (pa : Nat) (bs : List Byte) : State :=
  let t := s.touchTag (slateOf pa) fun g => g.colWrite pa bs.length
  { t with
    mem := putBytes t.mem pa bs
    poison := clearPoison t.poison 32 pa bs.length }.noteWrite pa bs.length

/-- A row write of any length: one write for each slate it touches. -/
def State.writeLong (s : State) (pa : Nat) (bs : List Byte) : State :=
  (unitsOf 1024 pa bs.length).foldl (fun t sl =>
    let lo := max pa (sl * 1024)
    let hi := min (pa + bs.length) (sl * 1024 + 1024)
    t.write lo ((bs.drop (lo - pa)).take (hi - lo))) s

/-- Poison carried by data: each unit that a flagged byte fills becomes poisoned (R90). -/
def State.poisonRange (s : State) (pa n : Nat) : State :=
  { s with poison := (unitsOf 32 pa n).foldl (fun t k => Tab.set t k true) s.poison }

/-- A slate with no reduction pending is written back and removed, and takes a place of its set for its count (R87). -/
def State.redRoom (s : State) (sl : Nat) : Option State :=
  if (Tab.get .clean s.tags sl).pend = 0 then (s.dropSlate sl).makeRoom none sl else some s

/-- A reduction reaches its home slice: the slate is written back and removed, and counts one more pending (R87). Where versions
and pending reductions fill the set, it is applied at once, before anything else reaches the slice. -/
def State.sendRed (s : State) (r : PRed) : State :=
  let sl := slateOf r.pa
  match s.redRoom sl with
  | some t => { t with reds := t.reds ++ [r],
                       tags := Tab.set t.tags sl { Tag.clean with pend := (Tab.get .clean s.tags sl).pend + 1 } }
  | none => (s.dropSlate sl).applyRed r

/-- A row write that reaches the slice of its address: after the reductions pending there (R87), bytes of any length. -/
def State.homeWrite (s : State) (pa : Nat) (bs : List Byte) : State := (s.settleRange pa bs.length).writeLong pa bs

/-- A read of stack memory served at home: after the reductions pending there; the slate is filled (R71). -/
def State.homeRead (s : State) (pa n : Nat) : State × Nat :=
  let t := (unitsOf 1024 pa n).foldl State.holdSlate (s.settleRange pa n)
  (t, t.read pa n)

/-- A read-modify-write performed at home: the state after it and the old value (R144). -/
def State.homeRmw (s : State) (pa op rm : Nat) (ftz : Bool) (v c : Nat) : State × Nat :=
  let w := rmwWidth op
  let r := s.homeRead pa w
  (r.1.write pa (bytesOf w (rmwNew op rm ftz r.2 v c)), r.2)

-- ## The core's L1 (R64 to R67)

/-- Removes the L1 lines of a core at which `f` holds. -/
def State.dropL1 (s : State) (k : Nat) (f : Nat → Bool) : State :=
  s.setCore k { s.core k with l1 := (s.core k).l1.filter fun e => !f e.line }
/-- Removes every line of a core's L1 (R67). -/
def State.emptyL1 (s : State) (k : Nat) : State := s.setCore k { s.core k with l1 := [] }

/-- A list of bytes with others placed at an offset; what lies outside the list is dropped. -/
def overlay (d : List Byte) (off : Int) (bs : List Byte) : List Byte :=
  (List.range d.length).map fun (i : Nat) =>
    if off ≤ (i : Int) ∧ (i : Int) < off + bs.length then bs.getD ((i : Int) - off).toNat 0 else d.getD i 0

/-- A store that has been performed updates the lines of the core's L1 that it hits (R66): each aligned 16 bytes that it
touches as they stand at home, so that no load takes bytes of one such unit from writes of different ages (R143, log entry 59).
A line that would hold poison is removed. -/
def State.updateL1 (s : State) (k pa n : Nat) : State :=
  let lo := pa / 16 * 16
  let bs := s.bytesAt lo ((pa + n - 1) / 16 * 16 + 16 - lo)
  s.setCore k { s.core k with
    l1 := ((s.core k).l1.map fun e => { e with data := overlay e.data ((lo : Int) - (e.line * 128 : Nat)) bs }).filter fun e =>
      !(s.rangePoisoned pa n && decide (pa / 128 ≤ e.line) && decide (e.line ≤ (pa + n - 1) / 128)) }

/-- The line that a load hits: present, and not older than 64 µs, 80,000 cycles (R146). -/
def State.l1Hit (s : State) (k pa : Nat) : Option L1Line :=
  (s.core k).l1.find? fun e => decide (e.line = pa / 128) && decide (s.cycle.toNat - e.time ≤ 80000)

/-- A line with its set's replaced way removed and the new line added (R64: 8 ways of 128 sets). -/
def fillLine (lines : List L1Line) (e : L1Line) (pick : Nat) : List L1Line :=
  let others := lines.filter fun x => x.line ≠ e.line
  let set := others.filter fun x => x.line % 128 = e.line % 128
  if set.length < 8 then e :: others
  else match set[pick % set.length]? with
    | some v => e :: others.filter fun x => x.line ≠ v.line
    | none => e :: others

/-- A miss fills the line from its home (R64, R65); a line that holds poison is not kept. -/
def State.fillL1 (s : State) (k pa : Nat) : State :=
  if s.rangePoisoned (pa / 128 * 128) 128 then s
  else
    let t := s.holdSlate (slateOf pa)
    t.setCore k { t.core k with
      l1 := fillLine (t.core k).l1 ⟨pa / 128, s.bytesAt (pa / 128 * 128) 128, s.cycle.toNat⟩ (Config.choice s.steps) }

end Sys2Proof.Machine
end

