-- ==== Sys2Proof/Machine/Walk.lean ====
section
/-! DEFINITION. Translation: page-table entries and the walk (R27 to R34), the TLB (R35, R39), the counting of
migrate-on-count pages (R40, R41), and translations that use no TLB. -/

namespace Sys2Proof.Machine

/-- Fault causes (R50). -/
def causeNoncanon : Nat := 1
/-- WALKECC. -/
def causeWalkEcc : Nat := 2
/-- INVALID. -/
def causeInvalid : Nat := 3
/-- MALFORMED. -/
def causeMalformed : Nat := 4
/-- OUTSIDE. -/
def causeOutside : Nat := 5
/-- HELD. -/
def causeHeld : Nat := 6
/-- MODE. -/
def causeMode : Nat := 11

/-- How a page resolves (R32). -/
inductive Resolve where
  | here | direct | cached
deriving DecidableEq, Repr

/-- A translated address (R34). -/
structure Xlat where
  pa   : Nat
  peer : Nat
  res  : Resolve
  big  : Bool
deriving DecidableEq, Repr

/-- A translation fault (R34, R50). -/
structure XFault where
  cause : Nat
  level : Nat
  big   : Bool
deriving DecidableEq, Repr

/-- AM of a leaf (R30). -/
def leafAM (e : Nat) : Nat := bits e 3 2
/-- PEER of a leaf. -/
def leafPeer (e : Nat) : Nat := bits e 59 48
/-- TIX of a leaf. -/
def leafTix (e : Nat) : Nat := bits e 11 8

/-- A leaf is malformed at a level of a module (R31). -/
def leafMalformed (own e level : Nat) : Bool :=
  bits e 15 13 ≠ 0 || bits e 63 60 ≠ 0 || decide (2 ≤ level)
    || (decide (level = 1) && bits e 25 16 ≠ 0)
    || (decide (leafAM e = 0) && leafPeer e ≠ 0)
    || ((decide (leafAM e = 1) || decide (leafAM e = 2)) && decide (leafPeer e = own))
    || (decide (leafAM e = 2) && (bit e 5 || bit e 7))
    || (leafAM e ≠ 3 && leafTix e ≠ 0)

/-- How a leaf's page resolves (R32). -/
def leafResolve (own e : Nat) : Resolve :=
  if leafAM e = 0 then .here else if leafAM e = 1 then .direct else if leafAM e = 2 then .cached
  else if leafPeer e = own then .here else .direct

/-- The first permission that an access kind lacks, then its resolution (R33): kinds as TFS.KIND codes them (R49). -/
def permFault (own e kind : Nat) : Option Nat :=
  let rd := bit e 4
  let wr := bit e 5
  let far := decide (leafResolve own e ≠ .here)
  match kind with
  | 0 => if rd then none else some 7
  | 1 => if wr then none else some 8
  | 2 => if rd && wr && bit e 7 then none else some 9
  | 3 => if !bit e 6 then some 10 else if far then some causeMode else none
  | 4 => if !rd then some 7 else if far then some causeMode else none
  | _ => if !wr then some 8 else if far then some causeMode else none

/-- Index of a level in a virtual address (R28). -/
def vaIndex (va level : Nat) : Nat :=
  match level with
  | 3 => bits va 53 46
  | 2 => bits va 45 36
  | 1 => bits va 35 26
  | _ => bits va 25 16

/-- Size of the page that a leaf at a level maps. -/
def pageSize (level : Nat) : Nat := if level = 1 then 2 ^ 26 else 2 ^ 16

/-- What a walk finds: a leaf that passed R34's checks at its level with the tables it read, a held leaf, or a fault. -/
inductive WalkRes where
  | leaf (e level : Nat) (tables : List (Nat × Nat))
  | held (level : Nat)
  | fault (f : XFault)
deriving DecidableEq, Repr

/-- A table entry of a level leads to a table; otherwise what R34 answers of it. -/
def nextTable (e level : Nat) : Except XFault Nat :=
  if level = 0 ∨ bits e 12 2 ≠ 0 ∨ bits e 63 48 ≠ 0 then .error ⟨causeMalformed, level, false⟩
  else if !inStack (bits e 47 13 * 2 ^ 13) then .error ⟨causeOutside, level, false⟩
  else .ok (bits e 47 13 * 2 ^ 13)

/-- What R34 answers of a leaf entry. -/
def leafRes (own va kind e level : Nat) (tables : List (Nat × Nat)) : WalkRes :=
  let big := decide (level = 1)
  if leafMalformed own e level then .fault ⟨causeMalformed, level, big⟩
  else if bit e 12 then .held level
  else if !inStack (bits e 47 16 * 2 ^ 16 + va % pageSize level) then .fault ⟨causeOutside, level, big⟩
  else match permFault own e kind with
    | some c => .fault ⟨c, level, big⟩
    | none => .leaf e level tables

/-- The loop of R34 from a level down: each entry is read coherently at its home (R34, R70); `tables` collects (level, next
table) as read. The state is that after the reads. -/
def walkFrom (s : State) (va kind table level : Nat) (tables : List (Nat × Nat)) : State × WalkRes :=
  let at1 := table + vaIndex va level * 8
  let r := s.homeRead at1 8
  if r.1.poisoned at1 then (r.1, .fault ⟨causeWalkEcc, level, false⟩)
  else if !bit r.2 0 then (r.1, .fault ⟨causeInvalid, level, false⟩)
  else if bit r.2 1 then (r.1, leafRes s.ownPeer.toNat va kind r.2 level tables)
  else match nextTable r.2 level with
    | .error f => (r.1, .fault f)
    | .ok next => match level with
      | 0 => (r.1, .fault ⟨causeMalformed, 0, false⟩)
      | n + 1 => walkFrom r.1 va kind next n ((n + 1, next) :: tables)

/-- The walk of R34. -/
def walkVA (s : State) (root va kind : Nat) : State × WalkRes :=
  if va / 2 ^ 54 ≠ 0 then (s, .fault ⟨causeNoncanon, 3, false⟩)
  else if !inStack root then (s, .fault ⟨causeOutside, 3, false⟩)
  else walkFrom s va kind root 3 []

/-- First address of the page that holds an address as the page tables stand: of 64 MiB where a leaf of level 1 maps it
(R29), of 64 KiB otherwise. Misses to one page merge by it (R37). -/
def State.pageAt (s : State) (root va : Nat) : Nat :=
  let z := match (walkVA s root va 0).2 with
    | .leaf _ l _ => pageSize l
    | .held l => pageSize l
    | .fault f => if f.big then 2 ^ 26 else 2 ^ 16
  va / z * z

/-- The address a leaf gives (R34). -/
def leafXlat (own e level va : Nat) : Xlat :=
  ⟨bits e 47 16 * 2 ^ 16 + va % pageSize level, leafPeer e, leafResolve own e, decide (level = 1)⟩

-- ## The TLB (R35, R39)

/-- The entry covers the address for the ASN. -/
def TlbE.covers (e : TlbE) (asn va : Nat) : Bool :=
  decide (e.asn = asn) && decide (e.page ≤ va) && decide (va < e.page + (if e.big then 2 ^ 26 else 2 ^ 16))

/-- The level of an entry's leaf. -/
def TlbE.level (e : TlbE) : Nat := if e.big then 1 else 0

/-- The entry that a lookup uses: of two that cover the address, either one (R39). -/
def tlbFind (tlb : List TlbE) (asn va pick : Nat) : Option TlbE :=
  pickFrom (tlb.filter fun e => e.covers asn va) pick

/-- The entry of a finished walk. -/
def tlbEntry (asn va e level : Nat) : TlbE :=
  ⟨asn, va / pageSize level * pageSize level, decide (level = 1), BitVec.ofNat 64 e⟩

/-- A TLB of `cap` entries with an entry added; a full one replaces an entry that is not in use (R35). -/
def tlbFill (tlb : List TlbE) (cap pick : Nat) (inUse : TlbE → Bool) (e : TlbE) : List TlbE :=
  let t := tlb.filter fun x => !(decide (x.asn = e.asn) && decide (x.page = e.page) && decide (x.big = e.big))
  if t.length < cap then e :: t
  else
    let free := t.filter fun x => !inUse x
    match pickFrom free pick with
    | some v => e :: t.filter fun x => x ≠ v
    | none => t

-- ## Migrate-on-count (R40, R41)

/-- The ring of migration records has room (R44). -/
def Die.mqRoom (d : Die) : Bool :=
  d.mqsize ≠ 0 && decide ((d.mqhead.toNat + d.mqsize.toNat - d.mqtail.toNat) % d.mqsize.toNat + 1 < d.mqsize.toNat)

/-- A migration record (R42). -/
def migRecord (m : MigE) (thresh : Nat) : List Byte :=
  bytesOf 8 m.page ++ bytesOf 1 m.asn ++ bytesOf 2 m.peer ++ bytesOf 1 (ofBool m.big) ++ bytesOf 4 thresh

/-- Appends the record of a page that has reached its threshold, where the ring has room (R41). -/
def State.migQueue (s : State) (d : Nat) (m : MigE) : State :=
  let x := s.die d
  let th := (Tab.get 0 x.thresh m.tix).toNat
  if x.mqRoom && !m.queued && decide (th ≠ 0) && decide (th ≤ m.count) then
    let t := s.homeWrite (bits x.mqbase.toNat 47 12 * 4096 + 16 * x.mqhead.toNat) (migRecord m th)
    t.setDie d { x with
      mqhead := BitVec.ofNat 16 ((x.mqhead.toNat + 1) % x.mqsize.toNat)
      mig := x.mig.map fun e =>
        if e.asn = m.asn ∧ e.page = m.page ∧ e.big = m.big then { e with count := 0, queued := true, index := x.mqhead.toNat }
        else e }
  else s

/-- One lookup of a page counts, when its leaf is migrate-on-count (R40): 1,024 entries. Any count may be evicted for a new
page, but not the mark of a page whose record is not consumed (R41); where every entry has that mark, nothing is counted. -/
def State.migCount (s : State) (d asn va leaf : Nat) (big : Bool) : State :=
  if leafAM leaf ≠ 3 then s
  else
    let x := s.die d
    let page := va / (if big then 2 ^ 26 else 2 ^ 16) * (if big then 2 ^ 26 else 2 ^ 16)
    let same := fun (e : MigE) => decide (e.asn = asn) && decide (e.page = page) && decide (e.big = big)
    let old : MigE := (x.mig.find? same).getD ⟨asn, page, big, 0, leafTix leaf, leafPeer leaf, false, 0⟩
    let th := (Tab.get 0 x.thresh (leafTix leaf)).toNat
    let held := decide (th ≠ 0) && decide (th ≤ old.count)
    let new := { old with
      count := if old.queued || held then old.count else (old.count + 1) % 2 ^ 32
      tix := leafTix leaf, peer := leafPeer leaf }
    let others := x.mig.filter fun e => !same e
    if others.length < 1024 then (s.setDie d { x with mig := new :: others }).migQueue d new
    else match pickFrom (others.filter fun e => !e.queued) (Config.choice s.steps) with
      | some v => (s.setDie d { x with mig := new :: others.filter fun e => e ≠ v }).migQueue d new
      | none => s

-- ## Invalidation scopes (R45)

/-- A page is in the scope of an invalidation (R45). -/
def InvScope.covers (v : InvScope) (asn page : Nat) (big : Bool) : Bool :=
  match v.scope with
  | 0 => true
  | 1 => decide (asn = v.asn)
  | _ => decide (asn = v.asn) && decide (page < (v.page + v.count) * 2 ^ 16)
      && decide (v.page * 2 ^ 16 < page + (if big then 2 ^ 26 else 2 ^ 16))

/-- The scope touches an address space. -/
def InvScope.touches (v : InvScope) (asn : Nat) : Bool := decide (v.scope = 0) || decide (v.asn = asn)

/-- The invalidations that run or wait at a die. -/
def Die.pending (d : Die) : List InvScope := d.running.toList ++ d.queued

-- ## The translation caches (R35, R38, R356)

/-- The I/O die's translation cache among those of `Miss.core`. -/
def ioUnit : Nat := 592

/-- The die whose walkers serve a translation cache (R38, R356): 4 is the I/O die. -/
def walkDie (unit : Nat) : Nat := if unit < 576 then unit / 144 else if unit < ioUnit then (unit - 576) / 4 else 4

/-- Its walkers. -/
def walkers (die : Nat) : Nat := if die = 4 then 8 else 32

/-- The entries of a translation cache. -/
def State.tlbOf (s : State) (unit : Nat) : List TlbE :=
  if unit < 576 then (s.core unit).tlb else if unit < ioUnit then (s.seqr (unit - 576)).tlb else s.ioTlb

/-- How many it holds. -/
def tlbSize (unit : Nat) : Nat := if unit < 576 then 256 else if unit < ioUnit then 32 else 128

/-- Replaces them. -/
def State.setTlb (s : State) (unit : Nat) (t : List TlbE) : State :=
  if unit < 576 then s.setCore unit { s.core unit with tlb := t }
  else if unit < ioUnit then s.setSeqr (unit - 576) { s.seqr (unit - 576) with tlb := t }
  else { s with ioTlb := t }

/-- An outstanding access to a target may have used the entry's translation. -/
def TlbE.frameHas (own : Nat) (e : TlbE) (t : Target) : Bool :=
  let x := leafXlat own e.leaf.toNat e.level e.page
  let inside := fun (pa : Nat) => decide (x.pa ≤ pa) && decide (pa < x.pa + pageSize e.level)
  match t with
  | .stack pa => decide (x.res = .here) && inside pa
  | .remote p pa => decide (x.peer = p) && inside pa
  | .cached p pa => decide (x.peer = p) && inside pa
  | .scratch _ _ => false

/-- The target of a physical address of a peer, or of this module. -/
def farTarget (peer : Option Nat) (pa : Nat) : Target := match peer with | none => .stack pa | some p => .remote p pa

/-- Where the writes that a task's version holds are still to be performed (R79, R80). -/
def Workgroup.buffered (w : Workgroup) : List Target :=
  (w.version.map fun v => farTarget v.peer (v.slate * 1024)) ++ (w.redlog.map fun r => farTarget r.peer r.pa)
    ++ w.detadd.map fun d => farTarget d.1 d.2.1

/-- The entry holds a translation in use by an outstanding access of its core, one that a task's version holds included, or is
locked by a pending invalidation: a fill may not replace it (R35). -/
def State.entryInUse (s : State) (unit : Nat) (e : TlbE) : Bool :=
  let own := s.ownPeer.toNat
  (s.dies.any fun d => d.2.pending.any fun v => v.covers e.asn e.page e.big)
    || s.wgs.any fun w => decide (w.2.core = unit) && decide (w.2.asn = e.asn)
      && ((w.2.courses.any fun c => c.2.flights.any fun f => f.lanes.any fun a => e.frameHas own a.tgt)
        || w.2.buffered.any (e.frameHas own)
        || (s.pend.any fun p => decide (p.uid = w.1) && e.frameHas own p.tgt)
        || s.reqs.any fun r => decide (r.uid = w.1) && e.frameHas own (.remote r.req.dest r.req.pa))

/-- A walk's leaf enters the translation cache that missed. -/
def State.fillTlb (s : State) (m : Miss) (e level : Nat) : State :=
  s.setTlb m.core (tlbFill (s.tlbOf m.core) (tlbSize m.core) (Config.choice s.steps) (s.entryInUse m.core) (tlbEntry m.asn m.va e level))

-- ## Lookups

/-- What a lookup answers: a translation, a fault, or that the page must be walked first. -/
inductive Look where
  | ok (x : Xlat) (leaf : Nat)
  | fault (f : XFault)
  | miss
deriving DecidableEq, Repr

/-- A lookup in a translation cache (R33, R35, R48). -/
def lookup (s : State) (k asn va kind : Nat) : Look :=
  if va / 2 ^ 54 ≠ 0 then .fault ⟨causeNoncanon, 3, false⟩
  else
    match tlbFind (s.tlbOf k) asn va (Config.choice s.steps) with
    | some e =>
      match permFault s.ownPeer.toNat e.leaf.toNat kind with
      | some c => .fault ⟨c, e.level, e.big⟩
      | none => .ok (leafXlat s.ownPeer.toNat e.leaf.toNat e.level va) e.leaf.toNat
    | none => .miss

/-- A queued walk's fault is that of an access to its page by one of those it is held for. -/
def WalkFault.isFor (w : WalkFault) (k asn va kind : Nat) (who : Nat × Nat) : Bool :=
  let z := if w.big then 2 ^ 26 else 2 ^ 16
  decide (w.unit = k) && decide (w.asn = asn) && decide (w.va / z = va / z) && decide (w.kind = kind) && w.who.contains who

/-- The fault that a queued walk found for an access. -/
def State.faultFor (s : State) (k asn va kind : Nat) (who : Nat × Nat) : Option XFault :=
  (s.wfaults.find? fun w => w.isFor k asn va kind who).map fun w => ⟨w.cause, w.level, w.big⟩

/-- A lookup by an access: one whose walk has faulted answers with the fault. -/
def lookupFor (s : State) (k asn va kind : Nat) (who : Nat × Nat) : Look :=
  match lookup s k asn va kind with
  | .miss => match s.faultFor k asn va kind who with
    | some f => .fault f
    | none => .miss
  | l => l

/-- The walks' faults at which `f` holds are no longer held for `who`. -/
def State.dropFaultsIf (s : State) (who : Nat × Nat) (f : WalkFault → Bool) : State :=
  { s with
    wfaults := (s.wfaults.map fun w => if f w then { w with who := w.who.filter fun x => x ≠ who } else w).filter fun w => w.who ≠ [] }

/-- An instruction or a piece that has been performed, or has faulted, leaves no walk's fault behind: issued again it looks
its pages up again (R51). -/
def State.dropFaults (s : State) (who : Nat × Nat) : State := s.dropFaultsIf who fun _ => true

/-- The leaf that maps an address and its level as the page tables stand, whatever it permits: the loop of R34 without the checks
of a leaf. -/
def State.leafAt (s : State) (va table level : Nat) : Option (Nat × Nat) :=
  let r := s.homeRead (table + vaIndex va level * 8) 8
  if r.1.poisoned (table + vaIndex va level * 8) || !bit r.2 0 then none
  else if bit r.2 1 then (if level ≤ 1 then some (r.2, level) else none)
  else match nextTable r.2 level, level with
    | .ok next, n + 1 => r.1.leafAt va next n
    | _, _ => none

/-- The leaf under which a lookup of a page counts (R40): that of the entry found, else as the page tables stand, held, outside
stack memory or lacking the permission as it may be. -/
def State.leafFor (s : State) (k asn root va : Nat) : Option TlbE :=
  (tlbFind (s.tlbOf k) asn va (Config.choice s.steps)).or
    (if va / 2 ^ 54 ≠ 0 || !inStack root then none
     else (s.leafAt va root 3).map fun e => tlbEntry asn va e.1 e.2)

/-- The distinct pages that some addresses touch, each one lookup, are counted (R36, R40); the I/O die counts none. -/
def State.countPages (s : State) (k asn root : Nat) (vas : List Nat) : State :=
  if walkDie k = 4 then s else
  ((vas.filterMap (s.leafFor k asn root)).eraseDups).foldl
    (fun t e => t.migCount (walkDie k) asn e.page e.leaf.toNat e.big) s

-- ## Misses and walks (R37, R38, R43)

/-- The same page, of the same translation cache. -/
def State.samePage (s : State) (m n : Miss) : Bool :=
  decide (m.core = n.core) && decide (m.asn = n.asn) && decide (s.pageAt m.root m.va = s.pageAt n.root n.va)

/-- A miss joined to those of its page. -/
def Miss.join (m : Miss) (who : List (Nat × Nat)) : Miss := { m with who := (m.who ++ who).eraseDups }

/-- Queues a miss, merging it with one of the same ASN and page; a core holds at most 64 (R37). -/
def State.queueMiss (s : State) (m : Miss) : State :=
  let d := walkDie m.core
  let x := s.die d
  let all := x.walks ++ x.parked
  if all.any (s.samePage m) then
    let f := fun (n : Miss) => if s.samePage m n then n.join m.who else n
    s.setDie d { x with walks := x.walks.map f, parked := x.parked.map f }
  else if 64 ≤ (all.filter fun n => decide (n.core = m.core)).length then s
  else s.setDie d { x with walks := x.walks ++ [m] }

/-- The part of an address that names the table walked at a level. -/
def tablePrefix (va level : Nat) : Nat :=
  match level with
  | 2 => bits va 53 46
  | 1 => bits va 53 36
  | _ => bits va 53 26

/-- The places where a walk may begin: the root, or a table that the walk cache holds for the address (R38). -/
def walkStarts (d : Die) (m : Miss) : List (Nat × Nat) :=
  (m.root, 3) :: d.wcache.filterMap fun e =>
    if e.asn = m.asn ∧ e.idx = tablePrefix m.va e.level then some (e.table, e.level) else none

/-- A die's walk of a miss (R34), from one of those places, freely chosen. -/
def dieWalk (s : State) (d : Die) (m : Miss) : State × WalkRes :=
  if m.va / 2 ^ 54 ≠ 0 then (s, .fault ⟨causeNoncanon, 3, false⟩)
  else if !inStack m.root then (s, .fault ⟨causeOutside, 3, false⟩)
  else
    let p := (pickFrom (walkStarts d m) (Config.choice s.steps)).getD (m.root, 3)
    walkFrom s m.va m.kind p.1 p.2 []

/-- The tables that a walk has read, kept in the walk cache: 64 entries, any of which may go (R38). The I/O die's walkers
keep none. -/
def cacheTables (die : Nat) (c : List WalkE) (m : Miss) (pick : Nat) (tables : List (Nat × Nat)) : List WalkE :=
  if die = 4 then [] else
  tables.foldl (fun c t =>
    let e : WalkE := ⟨m.asn, t.1 - 1, tablePrefix m.va (t.1 - 1), t.2⟩
    let others := c.filter fun x => !(decide (x.asn = e.asn) && decide (x.level = e.level) && decide (x.idx = e.idx))
    e :: (if others.length < 64 then others else others.eraseIdx (pick % 64))) c

/-- A walk's fault, kept for the accesses that missed. -/
def State.recordFault (s : State) (m : Miss) (f : XFault) : State :=
  { s with wfaults := s.wfaults ++ [⟨m.core, m.asn, m.va, m.kind, f.cause, f.level, f.big, m.who⟩] }

/-- A finished walk fills the walk cache and the translation cache. -/
def State.walked (s : State) (m : Miss) (e level : Nat) (tables : List (Nat × Nat)) : State :=
  let d := walkDie m.core
  (s.setDie d { s.die d with wcache := cacheTables d (s.die d).wcache m (Config.choice s.steps) tables }).fillTlb m e level

/-- A walk that meets a held leaf keeps its walker (R43). -/
def State.parkWalk (s : State) (m : Miss) (level : Nat) : State :=
  let d := walkDie m.core
  s.setDie d { s.die d with
    parked := (s.die d).parked ++ [{ m with since := if m.since = 0 then s.dtime else m.since, level := level }] }

/-- What a translation answers: an address, a fault, or that it waits; the state holds what the lookup and the walk did. -/
inductive Trans where
  | ok (t : State) (x : Xlat)
  | fault (t : State) (f : XFault)
  | wait (t : State)
deriving DecidableEq, Repr

/-- An answered access: its lookup counts (R40), and nothing of its walk stays. -/
def State.answered (s : State) (m : Miss) : State :=
  let who := m.who.headD (0, 0)
  (s.countPages m.core m.asn m.root [m.va]).dropFaultsIf who fun w => w.isFor m.core m.asn m.va m.kind who

/-- The walk of a miss that has a walker. -/
def State.walkOne (s : State) (m : Miss) : Trans :=
  match dieWalk s (s.die (walkDie m.core)) m with
  | (t, .leaf e level tables) => .ok ((t.walked m e level tables).answered m) (leafXlat s.ownPeer.toNat e level m.va)
  | (t, .held level) => .wait (t.parkWalk m level)
  | (t, .fault f) => .fault (t.answered m) f

/-- A miss must wait: a walk of its page is under way, or no walker is free (R37, R38). -/
def State.mustQueue (s : State) (m : Miss) : Bool :=
  let d := s.die (walkDie m.core)
  (d.walks ++ d.parked).any (s.samePage m) || decide (walkers (walkDie m.core) ≤ d.walks.length + d.parked.length)

/-- A translation by an agent whose access waits for it in one place: the I/O die, a link sequencer, and the accesses that a
core makes of itself (trap records, the spill region, the save area). A hit answers; so does a fault that the agent's own
queued walk has found; a miss joins the walk of its page, or queues behind those that wait for a walker, or is walked at
once (R38, log entry 15). -/
def State.xlat (s : State) (m : Miss) : Trans :=
  match lookupFor s m.core m.asn m.va m.kind (m.who.headD (0, 0)) with
  | .ok x _ => .ok (s.answered m) x
  | .fault f => .fault (s.answered m) f
  | .miss => if s.mustQueue m then .wait (s.queueMiss m) else s.walkOne m

/-- A translation by the I/O die, through its cache of 128 entries and its 8 walkers (R38). -/
def State.ioXlat (s : State) (asn root va kind : Nat) : Trans := s.xlat ⟨ioUnit, asn, root, va, kind, 0, 0, [(0, 0)]⟩

/-- The TFS word (R49). -/
def tfsWord (f : XFault) (kind lane : Nat) (eng : Bool) : Nat :=
  f.cause + kind * 2 ^ 5 + f.level * 2 ^ 8 + lane * 2 ^ 10 + ofBool eng * 2 ^ 16 + ofBool f.big * 2 ^ 17

end Sys2Proof.Machine
end

