-- ==== Sys2Proof/Machine/Ops.lean ====
section
/-! DEFINITION. The operations that the meanings share: pending writes (R133 to R146),
the program counter and REP's progress (R233, R256), waits (R205, R206), grid abort (R186), the reconvergence stack
(R175 to R179), taking a trap (R397, R399) and returning from one (R398). -/

namespace Sys2Proof.Machine

-- ## Pending writes of the courses (R133, R135, R141, R146)

/-- The bytes two ranges share. -/
def overlaps (a n b m : Nat) : Bool := decide (a < b + m) && decide (b < a + n)

/-- Two targets share a byte. -/
def Target.meets (x : Target) (n : Nat) (y : Target) (m : Nat) : Bool :=
  match x, y with
  | .stack a, .stack b => overlaps a n b m
  | .scratch u a, .scratch v b => decide (u = v) && overlaps a n b m
  | .remote p a, .remote q b => decide (p = q) && overlaps a n b m
  | .remote p a, .cached q b => decide (p = q) && overlaps a n b m
  | .cached p a, .remote q b => decide (p = q) && overlaps a n b m
  | .cached p a, .cached q b => decide (p = q) && overlaps a n b m
  | _, _ => false

/-- The target is at another module. -/
def Target.far : Target → Bool
  | .remote _ _ => true
  | .cached _ _ => true
  | _ => false

/-- A flight of the course reads or writes a byte of the target. -/
def Flight.touches (f : Flight) (t : Target) (n : Nat) : Bool := f.lanes.any fun a => a.tgt.meets a.width t n

/-- The stamp before which every access of its course is performed before the flight: its own for a release, that of
the last release fence before it for an atomic, which writes (R135, R138). -/
def Flight.orderedFrom (f : Flight) : Nat :=
  if f.rel then f.id
  else match f.kind with
    | .rmw _ _ _ => f.bar
    | .reserve => f.bar
    | _ => 0

/-- A window access to the scratchpad of another member whose core is frozen waits (R406). -/
def State.shut (s : State) (u : Nat) : Target → Bool
  | .scratch v _ => decide (v ≠ u) && (s.core (s.wg v).core).frozen
  | _ => false

/-- An access of a course, issued with stamp `id`, may be performed: no frozen core is in the way, no earlier access to its bytes is left (R135), no
earlier acquire is in flight, and a release before it waits for everything before it (R141). -/
def State.mayPerform (s : State) (u c id relBar : Nat) (ts : List (Target × Nat)) : Bool :=
  let k := s.crs u c
  let mine := s.pend.filter fun w => decide (w.uid = u) && decide (w.crs = c) && decide (w.id < id)
  (ts.all fun t => !s.shut u t.1)
    && (mine.all fun w => !(ts.any fun t => t.1.meets t.2 w.tgt w.width))
    && (k.flights.all fun f => !decide (f.id < id) || !(f.acq || ts.any fun t => f.touches t.1 t.2))
    && (mine.all fun w => !decide (w.id < relBar))
    && (k.flights.all fun f => !decide (f.id < min id relBar) || (match f.kind with | .closeb _ _ _ _ _ _ => true | _ => false))

/-- What a write does to its core's L1 when it is performed (R66, R77): a store updates a line it hits, a reduction store
removes it, a column write removes all eight lines of the slate. -/
def State.writeThrough (s : State) (w : PWrite) (pa : Nat) : State :=
  match Tab.find s.wgs w.uid with
  | none => s
  | some g =>
    if w.red.isSome then s.dropL1 g.core fun l => decide (l = pa / 128)
    else if w.column then s.dropL1 g.core fun l => decide (l / 8 = slateOf pa)
    else s.updateL1 g.core pa w.width

/-- One pending write takes effect at its home. -/
def State.performWrite (s : State) (w : PWrite) : State :=
  match w.red, w.tgt with
  | some (op, rm, ftz), .stack pa => (s.writeThrough w pa).sendRed ⟨pa, op, rm, ftz, w.data, none⟩
  | none, .stack pa =>
    if w.column then (((s.settle (slateOf pa)).writeCol pa (bytesOf w.width w.data))).writeThrough w pa
    else ((s.settle (slateOf pa)).write pa (bytesOf w.width w.data)).writeThrough w pa
  | _, .scratch u a => s.setWg u ((s.wg u).write a (bytesOf w.width w.data))
  | _, _ => s

/-- The pending write of a number takes effect and is no longer pending. -/
def State.retireWrite (s : State) (id : Nat) : State :=
  match s.pend.find? fun w => decide (w.id = id) with
  | some w => { s with pend := s.pend.filter fun x => x.id ≠ id }.performWrite w
  | none => s

/-- A course's pending writes that no earlier access holds back take effect, oldest first (R135, R138, R141). -/
def State.flushCrs (s : State) (u c : Nat) : State :=
  (s.pend.filter fun w => decide (w.uid = u) && decide (w.crs = c)).foldl
    (fun t w => if t.mayPerform u c w.id w.relBar [(w.tgt, w.width)] then t.retireWrite w.id else t) s

/-- An access of the course's own to a range of stack memory may be performed now: the state in which its earlier accesses to
those bytes are, or none while one of them is left (R135). -/
def State.flushOver (s : State) (u c pa n : Nat) : Option State :=
  if (s.flushCrs u c).mayPerform u c s.stamp 0 [(.stack pa, n)] then some (s.flushCrs u c) else none

/-- A workgroup's writes can take effect and its loads be given up with no access between them that another agent could miss: no
atomic of it is on its way at this module, and no frozen core is in the way of its writes (R136, R406). -/
def State.calm (s : State) (u : Nat) : Bool :=
  ((s.wg u).courses.all fun c => c.2.flights.all fun f => match f.kind with
    | .rmw _ _ _ => f.lanes.all fun a => a.tgt.far
    | .reserve => f.lanes.all fun a => a.tgt.far
    | _ => true)
    && s.pend.all fun w => decide (w.uid ≠ u) || !s.shut u w.tgt

/-- An MBRECV that has taken no message. -/
def Flight.unfed (f : Flight) : Bool := match f.kind with | .message _ => decide (f.got = []) | _ => false

/-- What a course has issued under a number is an MBRECV that has taken no message, or stands behind one: it has not been performed,
since that is an acquire, and a course that leaves its core issues it again (R325). -/
def State.unfed (s : State) (u c id : Nat) : Bool := (s.crs u c).flights.any fun f => f.unfed && decide (f.id ≤ id)

/-- All pending writes of a workgroup take effect, oldest first, but for those that it issues again. -/
def State.flushWg (s : State) (u : Nat) : State :=
  let mine := s.pend.filter fun w => decide (w.uid = u)
  let t := (mine.filter fun w => !s.unfed u w.crs w.id).foldl (fun t w => t.retireWrite w.id) s
  { t with pend := t.pend.filter fun w => decide (w.uid ≠ u) }

-- ## The units of the reserved strip (R20, R89, log entry 86)

/-- The 16-byte unit of the strip that holds a predicate: four of them each. -/
def predUnit (p : Nat) : Nat := p / 4
/-- The units of an index register: its control bits and the offsets of lanes 0 to 15, then those of the other lanes. -/
def indexUnits (x : Nat) (m : W32) : List Nat := (2 + 2 * x) :: (if m.toNat < 2 ^ 16 then [] else [3 + 2 * x])
/-- The units of a generator. -/
def genUnits (g : Nat) : List Nat := [34 + 2 * g, 35 + 2 * g]
/-- The unit of MODE, EXEC and the program counter. -/
def controlUnit : Nat := 50
/-- The unit of a stack entry, of the 32 that stand on chip. -/
def entryUnit (i : Nat) : Nat := 51 + i % 32
/-- The unit of FSTAT, REPST and CTIMER. -/
def statusUnit : Nat := 83

/-- The unit of the strip that holds a predicate, an index register, a generator, a special register or a stack entry, as R404
numbers their classes, at an offset; none for what is not kept there. -/
def stripUnit (cls num off : Nat) : Option Nat :=
  match cls with
  | 2 => some (predUnit num)
  | 3 => some (2 + 2 * num + off / 16)
  | 4 => some (34 + 2 * num + off / 16)
  | 7 => if num = 0x07 ∨ num = 0x18 then some controlUnit else if num = 0x03 ∨ num = 0x05 ∨ num = 0x06 then some statusUnit else none
  | 8 => some (entryUnit num)
  | _ => none

/-- A unit of the strip is poisoned. -/
def Course.stripBad (c : Course) (u : Nat) : Bool := Tab.get false c.rpoison u
/-- A unit of the strip with its poison set or, once it has been written whole, cleared (R90). -/
def Course.putStrip (c : Course) (u : Nat) (bad : Bool) : Course := { c with rpoison := Tab.put false c.rpoison u bad }

-- ## The program counter and REP (R233, R256)

/-- REPST.DONE. -/
def Course.repDone (c : Course) : Nat := bits c.repst.toNat 7 0
/-- REPST.COUNT. -/
def Course.repCount (c : Course) : Nat := bits c.repst.toNat 15 8
/-- REPST.ACT. -/
def Course.repAct (c : Course) : Bool := bit c.repst.toNat 16
/-- A REPST value. -/
def repWord (act : Bool) (count done : Nat) : W32 := BitVec.ofNat 32 (done + count * 2 ^ 8 + ofBool act * 2 ^ 16)

/-- The course waits for nothing any more. -/
def Course.awake (c : Course) : Course := { c with wait := none }

/-- The course's registers after an instruction of `n` bytes: the program counter moves past it; within a REP the
repetition counts instead, and after the last one the program counter moves past the REP word too (R255). -/
def Course.advance (c : Course) (inRep : Bool) (n : Nat) : Course :=
  if inRep then
    if c.repDone + 1 = c.repCount then { c.awake with repst := 0, pc := c.pc + BitVec.ofNat 64 (4 + n) }
    else { c.awake with repst := repWord true c.repCount (c.repDone + 1) }
  else { c.awake with pc := c.pc + BitVec.ofNat 64 n }

/-- The instruction of `n` bytes is done. -/
def State.retire (s : State) (n : Nat) : State := s.setCur (s.cur.advance s.inRep n)

/-- Control passes to an address. -/
def State.jump (s : State) (pc : W64) : State := s.setCur { s.cur.awake with pc := pc }

-- ## Why an instruction does not complete

/-- What a trap reports (R399): `resume` is none where the trapping instruction resumes; `at` is the instruction it names
where that is not the one at the program counter. -/
structure TrapInfo where
  code : Nat
  lane : Nat := 63
  arr  : Nat := 0
  info : Nat := 0
  fva  : Nat := 0
  peer : Nat := 0
  resume : Option W64 := none
  at1  : Option W64 := none
deriving DecidableEq, Repr

/-- Why an instruction does not complete now: a trap, the trap of a failed remote access (R113), a wait, pages to walk,
nothing yet (it is tried again), or an abort of its grid. A copy's fault is raised at a report point (R354). `after` is a
stop that leaves a state behind. -/
inductive Stop where
  | after (t : State) (e : Stop)
  | trap (t : TrapInfo)
  | failure (f : Failure)
  | copyFault (cmd : Nat) (t : TrapInfo)
  | wait (w : Wait)
  | miss (pages : List (Nat × Nat))
  | again
  | abort (cause : Nat)
deriving DecidableEq, Repr

/-- A result, or why there is none. -/
abbrev R (α : Type) := Except Stop α

/-- A trap without any operand (R396). -/
def trapCode (code : Nat) : Stop := .trap { code := code }
/-- The illegal trap. -/
def illegal : Stop := trapCode 0x01
/-- Passes, or stops. -/
def need (b : Bool) (e : Stop) : R Unit := if b then .ok () else .error e

/-- Class of a trap code: 0 E, 1 F, 2 V (R396). -/
def trapClass (code : Nat) : Nat := if 0x09 ≤ code ∧ code ≤ 0x0B then 1 else if 0x0E ≤ code then 2 else 0

-- ## Engine commands seen from the courses (R354, R355)

/-- An engine command changed, by its number, in a workgroup. -/
def Workgroup.mapCmd (w : Workgroup) (id : Nat) (f : Cmd → Cmd) : Workgroup :=
  { w with cmds := w.cmds.map fun m => if m.id = id then f m else m }

/-- The command is a copy. -/
def Cmd.isCopy (m : Cmd) : Bool :=
  match m.op with
  | .copyIn _ _ _ _ => true
  | .copyOut _ _ _ _ _ => true
  | _ => false

/-- What a copy still has to report: a fault not yet raised, or poison met by one that has completed. -/
def Cmd.report (m : Cmd) : Option TrapInfo :=
  if !m.isCopy || m.again.isSome then none
  else match m.fail with
    | some f => some { code := f.code, arr := f.status, info := f.info, fva := f.addr, peer := f.peer, at1 := some m.pc }
    | none =>
      match m.poison with
      | some (k, a) => if m.done then some { code := 0x0A, arr := k, fva := a, at1 := some m.pc } else none
      | none => none

/-- A report point of the course that issues (R354): the oldest failed copy of the course is reported first; a copy that
runs again does so before the report point issues. -/
def State.reportPoint (s : State) : R Unit :=
  let mine := s.curW.cmds.filter fun m => decide (m.crs = s.curCrs)
  match mine.findSome? fun m => m.report.map fun t => (m.id, t) with
  | some (id, t) => .error (.copyFault id t)
  | none => need (!mine.any fun m => m.rerun && !m.done) .again

-- ## Grid abort (R186)

/-- A grid aborts, once: its courses stop issuing, its own number and those of its fault domain get a cause (R186).
The workgroup named is the faulting one; causes 3 and 5 name none. -/
def State.abortGrid (s : State) (g cause w : Nat) : State :=
  let x := s.grid g
  if x.abort.isSome then s
  else
    let fd := x.chain.fdom
    { s with grids := Tab.mapVal (fun n (y : Grid) =>
        if n = g then { y with abort := some (cause, if cause = 3 ∨ cause = 5 then 2 ^ 64 - 1 else w) }
        else if fd ≠ 0 ∧ y.chain.fdom = fd ∧ y.chain.job = x.chain.job ∧ y.abort = none then
          { y with abort := some (3, 2 ^ 64 - 1) }
        else y) s.grids }

/-- The grid of a workgroup aborts, naming that workgroup. -/
def State.abortOf (s : State) (u cause : Nat) : State := s.abortGrid (s.wg u).gid cause (s.wg u).w

-- ## Accesses of the trap and stack machinery

/-- The miss of an access of a course's own (R37): `Miss.who` names the course. -/
def State.ownMiss (s : State) (u c va kind : Nat) : Miss :=
  let h := (s.grid (s.wg u).gid).chain
  ⟨(s.wg u).core, h.asn, h.root, va, kind, 0, 0, [(u, 2 * c)]⟩

/-- The miss of an access that the device makes for a course. -/
def State.selfMiss (s : State) (u c va kind : Nat) : Miss := { s.ownMiss u c va kind with who := [(u, 2 * c + 128)] }

/-- What such an access answers; while its page is walked or held, the state in which it waits. -/
inductive Did (α : Type) where
  | ok (x : α)
  | held (t : State)
  | bad
deriving DecidableEq, Repr

/-- A write to the workgroup's space by the device itself: translated with kind write; it must resolve local and meet no
poison; the course's own stores to those bytes go first (R178, R397). Bytes that come from poison carry it along (R90). -/
def State.selfWrite (s : State) (u c va : Nat) (bs : List Byte) (bad : Bool := false) : Did State :=
  match s.xlat (s.selfMiss u c va 1) with
  | .wait t => .held t
  | .fault _ _ => .bad
  | .ok s1 x =>
    if x.res ≠ .here then .bad
    else match s1.flushOver u c x.pa bs.length with
      | none => .held (s1.flushCrs u c)
      | some t =>
        if t.rangePoisoned x.pa bs.length then .bad
        else
          let v := (t.homeWrite x.pa bs).dropL1 (t.wg u).core fun l =>
            decide (x.pa / 128 ≤ l) && decide (l ≤ (x.pa + bs.length - 1) / 128)
          .ok (if bad then v.poisonRange x.pa bs.length else v)

/-- A read of the same kind. -/
def State.selfRead (s : State) (u c va n : Nat) : Did (State × Nat) :=
  match s.xlat (s.selfMiss u c va 0) with
  | .wait t => .held t
  | .fault _ _ => .bad
  | .ok s1 x =>
    if x.res ≠ .here then .bad
    else match s1.flushOver u c x.pa n with
      | none => .held (s1.flushCrs u c)
      | some t => if t.rangePoisoned x.pa n then .bad else .ok (t.homeRead x.pa n)

/-- Address of a course's spill region (R178). -/
def State.spillBase (s : State) (u c : Nat) : Nat :=
  let g := s.grid (s.wg u).gid
  g.chain.stk + ((s.wg u).w * g.launch.ncrs + c) * 4096

/-- Address of a workgroup's save area (R400). -/
def State.saveBase (s : State) (u : Nat) : Nat := (s.grid (s.wg u).gid).chain.savea + (s.wg u).w * 2 ^ 22

/-- Address of a course block (R400). -/
def State.courseBlock (s : State) (u c : Nat) : Nat := s.saveBase u + 0x10000 + c * 0x8000

-- ## The reconvergence stack (R175 to R178)

/-- An entry as its 16 bytes (R175). -/
def entryNat (e : StackEntry) : Nat :=
  (match e.kind with | .diverge => 1 | .trap => 2) + bits e.pc.toNat 53 2 * 4 + ofBool e.phase * 2 ^ 54
    + e.mask.toNat * 2 ^ 64 + e.pend.toNat * 2 ^ 96

/-- The entry of 16 bytes. -/
def entryOf (n : Nat) : StackEntry :=
  { kind := if bits n 1 0 = 2 then .trap else .diverge, pc := BitVec.ofNat 64 (bits n 53 2 * 4), phase := bit n 54,
    mask := BitVec.ofNat 32 (bits n 95 64), pend := BitVec.ofNat 32 (bits n 127 96) }

/-- The path mask (R176). -/
def Course.pathMask (c : Course) : W32 :=
  match c.stack with
  | [] => 0xFFFFFFFF
  | e :: _ => match e.kind with
    | .trap => e.mask
    | .diverge => if e.phase then e.pend else e.mask &&& ~~~e.pend

/-- What an entry's PC field holds of an address: bits 53:2 (R175). -/
def entryPc (pc : W64) : W64 := BitVec.ofNat 64 (bits pc.toNat 53 2 * 4)

/-- Pushes an entry; with 32 on chip, the lowest goes to the spill region first (R178). It takes that one's place in the strip, and
the poison of EXEC, from which its masks come (R90). -/
def State.push (s : State) (u c : Nat) (e0 : StackEntry) : Did State :=
  let k := s.crs u c
  let e := { e0 with pc := entryPc e0.pc }
  let put := k.putStrip (entryUnit k.depth) (k.stripBad controlUnit)
  if k.stack.length < 32 then .ok (s.setCrs u c { put with stack := e :: k.stack, depth := k.depth + 1 })
  else
    match s.selfWrite u c (s.spillBase u c + (k.depth - k.stack.length) * 16)
        (bytesOf 16 (entryNat (k.stack.getLast?.getD e))) (k.stripBad (entryUnit k.depth)) with
    | .ok t => .ok (t.setCrs u c { put with stack := e :: k.stack.dropLast, depth := k.depth + 1 })
    | .held t => .held t
    | .bad => .bad

/-- Pops the top entry; one that stands in the spill region comes back on chip (R178). -/
def State.pop (s : State) (u c : Nat) : Did State :=
  let k := s.crs u c
  let put := k.putStrip (entryUnit (k.depth - 1)) false
  if k.depth ≤ k.stack.length then .ok (s.setCrs u c { put with stack := k.stack.tail, depth := k.depth - 1 })
  else
    match s.selfRead u c (s.spillBase u c + (k.depth - k.stack.length - 1) * 16) 16 with
    | .ok (t, n) => .ok (t.setCrs u c { put with stack := k.stack.tail ++ [entryOf n], depth := k.depth - 1 })
    | .held t => .held t
    | .bad => .bad

-- ## Taking a trap (R177, R179, R183, R397, R399)

/-- Device time as nanoseconds and fraction, ten bytes (R399, R417). -/
def State.timeBytes (s : State) : List Byte := bytesOf 8 (s.dtime / 2 ^ 16) ++ bytesOf 2 (s.dtime % 2 ^ 16)

/-- The trap record's 128 bytes (R399). -/
def State.trapRecord (s : State) (k : Course) (t : TrapInfo) : List Byte :=
  bytesOf 1 t.code ++ bytesOf 1 (trapClass t.code) ++ bytesOf 1 t.lane ++ bytesOf 1 t.arr ++ bytesOf 4 t.info
    ++ bytesOf 8 (t.at1.getD k.pc).toNat ++ bytesOf 8 (t.resume.getD k.pc).toNat ++ bytesOf 8 t.fva ++ bytesOf 2 t.peer
    ++ bytesOf 2 0 ++ bytesOf 4 k.mode.toNat ++ bytesOf 4 k.repst.toNat ++ bytesOf 4 k.exec.toNat ++ s.timeBytes
    ++ bytesOf 70 0

/-- The granules that a lane's local access touches, as (workgroup, granule). -/
def LaneAcc.granule (a : LaneAcc) : Nat × Nat :=
  match a.tgt with | .scratch u x => (u, x / 16) | _ => (0, 0)

/-- The granules of some lanes. -/
def granulesOf (ls : List LaneAcc) : List (Nat × Nat) := (ls.map LaneAcc.granule).eraseDups

/-- The full bits of granules after an access. -/
def State.markGranules (s : State) (gs : List (Nat × Nat)) (full : Bool) : State :=
  gs.foldl (fun t g => t.setWg g.1 ((t.wg g.1).mark [g.2] full)) s

/-- The granules that the performed parts of a qualified local instruction have changed are again in the state that it needed. -/
def State.unperform (s : State) (a : Arb) : State :=
  match a.need with
  | none => s
  | some full => s.markGranules (granulesOf (a.lanes.filter fun x => (Tab.find a.done x.lane).isSome)) full

/-- A qualified local instruction that waits is given up: what it emptied is full again, as it was (R60). A part that has been
performed in one scratchpad already is given up with it, its granules again as it found them, and performed again when the
instruction is (log entry 85). -/
def State.unarb (s : State) (u c : Nat) : State :=
  match (s.crs u c).arb with
  | none => s
  | some a =>
    let t := s.unperform a
    t.setCrs u c { a.marks.foldl (fun k n => if a.scal then k.markS n true else k.markV n true) (t.crs u c) with arb := none }

/-- The course takes a trap: the record is written to slot TLEV and TLEV counts one more, both at home and before the
handler's first fetch; a trap entry holds the resume address and EXEC; MODE and
REPST are zero; the program counter is the handler's. A fifth trap, no handler, or a record that cannot be written
aborts the grid with cause 1; after the record, a stack of 256 entries, or a spill that fails, with cause 4 (R179). A fault in a
versioned task holds the task's ticket until the join that pops its entry, and one in an unbuffered task aborts the grid (R183); a
fault taken inside the handler of an earlier one leaves the ticket with the earlier, so that only its join restarts the task (log
entry 84). While a page of the record or of the spill region is walked or held, or an access to its bytes is still to be
performed, the course does not go on, and takes the trap when it issues again. An active course stays active (R206). -/
def takeTrap (s : State) (u c : Nat) (t : TrapInfo) : State :=
  let k := s.crs u c
  let g := s.grid (s.wg u).gid
  if g.launch.handler = 0 ∨ 4 ≤ k.tlev then s.abortOf u 1
  else if g.launch.ver ∧ trapClass t.code = 1 ∧ (s.wg u).unbuf then s.abortOf u 1
  else
    let slot := s.courseBlock u c + 0x100 + 128 * k.tlev
    match s.selfWrite u c slot (s.trapRecord k t) (k.stripBad controlUnit || k.stripBad statusUnit) with
    | .held w => w
    | .bad => s.abortOf u 1
    | .ok s1 =>
      match s1.selfWrite u c (s.courseBlock u c) (bytesOf 8 (k.tlev + 1)) with
      | .held w => w
      | .bad => s1.abortOf u 1
      | .ok s2 =>
        let s2 := s2.setCrs u c { s2.crs u c with tlev := k.tlev + 1, mode := 0, repst := 0 }
        if 256 ≤ k.depth then s2.abortOf u 4
        else match s2.push u c { kind := .trap, pc := t.resume.getD k.pc, phase := false, mask := k.exec, pend := 0 } with
        | .held w => w.setCrs u c { w.crs u c with tlev := k.tlev, mode := k.mode, repst := k.repst }
        | .bad => s2.abortOf u 4
        | .ok s3 =>
          let s4 := ((s3.unarb u c).dropFaults (u, 2 * c)).setCrs u c
            { (s3.unarb u c).crs u c with
              pc := g.launch.handler, wait := none
              sched := if k.sched = .waiting then .ready else k.sched
              entered := if k.sched = .waiting then s.cycle.toNat else k.entered }
          if g.launch.ver ∧ trapClass t.code = 1 then
            s4.setWg u { s4.wg u with
              holder := some ((s4.wg u).holder.getD (c, k.tlev + 1)), guards := [], version := [], redlog := [], detadd := []
              fullV := false }
          else s4

/-- A course as R174 begins it. -/
def Course.start (l : Launch) : Course := { Course.fresh with pc := l.entry, s := Tab.put 0 [] 1 l.argp }

/-- The course begins afresh: of what it was, only the numbers of its batches go on, so that packets of the old ones are told from
those of the new (log entry 82). -/
def Course.again (k : Course) (l : Launch) : Course :=
  { Course.start l with batches := Tab.mapVal (fun _ (b : Batch) => { Batch.zero with gen := b.gen + 1 }) k.batches }

/-- The restart of a task (R174, R181, R183): `tries` is TRY of the new attempt. The courses are ready from now on, and how
long since each has issued stays (R205, R206). The manual lists neither the hardware barriers nor an armed monitor: the barriers
begin afresh, and a monitor of the old attempt stays armed (log entry 60). -/
def State.restartTask (s0 : State) (u tries : Nat) : State :=
  let s := s0.flushWg u
  let w := s.wg u
  let l := (s.grid w.gid).launch
  s.setWg u
    { w with
      courses := Tab.mapVal (fun _ (k : Course) =>
        { k.again l with entered := s.cycle.toNat, issued := k.issued, halted := k.halted }) w.courses
      accs := [], apoison := [], slots := [], bars := [], cmds := [], guards := [], tries := tries, version := [],
      redlog := [], detadd := [], fullV := false, holder := none, taskEnd := false, redo := false }

/-- The return from a trap, the trap entry `e` on top of the stack (R271, R398): MODE and REPST come back from slot
TLEV − 1 at home, TLEV counts one fewer, EXEC and the program counter come from the entry, which is popped. A reserved
MODE bit, a DONE beyond COUNT, or an access that fails aborts the grid with cause 1. Where the entry is
that of the fault that holds a versioned task's ticket, the whole task restarts (R183), once no atomic of it is left on its way. The
copies that this handler's trap reported run again (R354). -/
def returnFromTrap (s : State) (u c : Nat) (e : StackEntry) : State :=
  let k := s.crs u c
  if (s.wg u).holder = some (c, k.tlev) ∧ !s.calm u then s
  else match s.selfRead u c (s.courseBlock u c + 0x100 + 128 * (k.tlev - 1) + 36) 8 with
  | .held w => w
  | .bad => s.abortOf u 1
  | .ok (s1, v) =>
    let mode := v % 2 ^ 32
    let repst := v / 2 ^ 32
    if 2 ^ 17 ≤ mode ∨ bits repst 15 8 < bits repst 7 0 then s1.abortOf u 1
    else
      match s1.selfWrite u c (s.courseBlock u c) (bytesOf 8 (k.tlev - 1)) with
      | .held w => w
      | .bad => s1.abortOf u 1
      | .ok s2 =>
        match s2.pop u c with
        | .held w => w
        | .bad => s2.abortOf u 4
        | .ok s3 =>
          let s4 := s3.setCrs u c
            { s3.crs u c with
              tlev := k.tlev - 1, mode := BitVec.ofNat 32 mode, repst := BitVec.ofNat 32 (repst % 2 ^ 17), exec := e.mask, pc := e.pc }
          let s5 := s4.setWg u { s4.wg u with
            cmds := (s4.wg u).cmds.map fun m =>
              if m.crs = c ∧ m.again = some k.tlev then
                { m with again := none, fail := none, next := 0, asked := [], got := [], fails := [], rerun := true }
              else m }
          if (s5.wg u).holder = some (c, k.tlev) then s5.restartTask u ((s5.wg u).tries + 1) else s5

-- ## Waiting (R205, R206)

/-- The course leaves the active set, or is held for a structural cause; the instruction is tried again. -/
def State.park (s : State) (w : Wait) : State :=
  s.setCur { s.cur with
    wait := some w
    sched := match w with
      | .structural => s.cur.sched
      | .performed => s.cur.sched
      | .version => s.cur.sched
      | _ => .waiting
    since := if s.cur.wait.isSome then s.cur.since else s.cycle.toNat }

/-- The trap of a failed access (R91, R113): poison is a memory error with its array code, and the record names the peer. -/
def failureTrap (f : Failure) : TrapInfo :=
  if f.status = 4 then { code := 0x0A, lane := f.lane, arr := f.arr, fva := f.va, peer := f.peer, at1 := some f.pc }
  else { code := 0x0B, lane := f.lane, arr := f.status, fva := f.va, peer := f.peer, at1 := some f.pc }

/-- What becomes of the state when an instruction does not complete. -/
def stopped (s : State) : Stop → State
  | .after t e => stopped t e
  | .trap t => takeTrap s s.curWg s.curCrs t
  | .failure f =>
    let t := takeTrap s s.curWg s.curCrs (failureTrap f)
    if t.cur.tlev = s.cur.tlev then t else t.setCur { t.cur with failed := t.cur.failed.filter fun x => x ≠ f }
  | .copyFault id t =>
    let s1 := takeTrap s s.curWg s.curCrs t
    if s1.cur.tlev = s.cur.tlev then s1
    else s1.setCurW (s1.curW.mapCmd id fun m =>
      if m.fail.isSome then { m with again := some s1.cur.tlev } else { m with poison := none })
  | .wait w => s.park w
  | .miss ps => ps.foldl (fun t p => t.queueMiss (s.ownMiss s.curWg s.curCrs p.1 p.2)) s
  | .again => s
  | .abort cause => s.abortOf s.curWg cause

/-- A trap after lookups that count: the state that counts them stays behind (R40). -/
def keeping (s : State) (r : R α) : R α :=
  match r with
  | .error (.trap t) => .error (.after s (.trap t))
  | x => x

/-- The outcome of a meaning: the state it computes, or what its stop makes of the state. -/
def finish (s : State) (r : R State) : Host.Outcome State Fault Refusal :=
  match r with
  | .ok t => .next t
  | .error e => .next (stopped s e)

end Sys2Proof.Machine
end

