-- ==== Sys2Proof/Machine/Operands.lean ====
section
/-! DEFINITION. Operands: allotments (R240, R242), the active lanes (R250), full and empty registers (R251, R252), poison
(R91), index resolution (R244, R245), and the reading and writing of registers on the vector and scalar paths (R241). -/

namespace Sys2Proof

/-- An indirect operand. -/
def Opnd.isX : Opnd → Bool
  | .x _ => true
  | _ => false

/-- The register `j` above the operand, for a block of registers. -/
def Opnd.plus (o : Opnd) (j : Nat) : Opnd :=
  match o with
  | .v n => .v (n + j)
  | .s n => .s (n + j)
  | .x k => .x k

end Sys2Proof

namespace Sys2Proof.Machine

-- ## Active lanes (R250)

/-- The guard: all lanes where GE = 0, else p[GP] or its complement. -/
def Course.guard (c : Course) : W32 :=
  let m := c.mode.toNat
  if bit m 4 then (if bit m 3 then ~~~(c.pred (bits m 2 0)) else c.pred (bits m 2 0)) else 0xFFFFFFFF

/-- The active lanes: EXEC and the guard. -/
def Course.active (c : Course) : W32 := c.exec &&& c.guard

/-- The lanes an instruction that needs every lane finds active; otherwise illegal-convergence (R250). -/
def Course.allActive (c : Course) : R Unit := need (decide (c.active = 0xFFFFFFFF)) (trapCode 0x02)

-- ## Register-field checks (R240, R242)

/-- The operand's register lies within the allotment. -/
def allotted (l : Launch) : Opnd → Bool
  | .v n => decide (n < l.nv)
  | .s n => decide (n < l.ns)
  | .x _ => true

-- ## Full and empty (R245, R251, R252)

/-- The registers of an index register's window that exist (R245). -/
def Course.window (c : Course) (l : Launch) (x : Nat) : List Nat :=
  ((List.range (c.xreg x).bound).map ((c.xreg x).base + ·)).filter fun r => decide (r < l.nv)

/-- STEP applied to an offset (R244). -/
def XReg.next (x : XReg) (o : Nat) : Nat :=
  ((o : Int) + x.step).emod (if x.wrapped then x.bound else 64) |>.toNat

/-- The offset that lane `l` uses (R244). -/
def XReg.use (x : XReg) (l : Nat) : Nat :=
  let o := (x.off.toArray.getD l 0).toNat
  let o1 := if x.post then o else x.next o
  if x.wrapped then o1 % x.bound else o1

/-- The offset lane `l` keeps once the instruction completes. -/
def XReg.after (x : XReg) (l : Nat) : Nat := if x.post then x.next (x.off.toArray.getD l 0).toNat else x.use l

/-- Lane `l` fails the bound or leaves the allotment (R244). -/
def XReg.fails (x : XReg) (nv l : Nat) : Bool := decide (x.bound ≤ x.use l) || decide (nv ≤ x.base + x.use l)

/-- The register that lane `l` of v[xn] names. -/
def XReg.reg (x : XReg) (l : Nat) : Nat := x.base + x.use l

/-- The vector and scalar registers that reading an operand reads: the lanes' registers of an indirect field. -/
def Course.readRegs (c : Course) (l : Launch) (o : Opnd) : List Nat × List Nat :=
  match o with
  | .v n => ([n], [])
  | .s n => ([], [n])
  | .x x => (((lanesOf c.active).map (c.xreg x).reg).filter fun r => decide (r < l.nv), [])

/-- The registers that writing an operand writes: the whole window of an indirect field (R245). -/
def Course.writeRegs (c : Course) (l : Launch) (o : Opnd) : List Nat × List Nat :=
  match o with
  | .v n => ([n], [])
  | .s n => ([], [n])
  | .x x => (c.window l x, [])

/-- Some register of the lists is empty. -/
def Course.anyEmpty (c : Course) (r : List Nat × List Nat) : Bool :=
  r.1.any (fun n => !c.vIsFull n) || r.2.any (fun n => !c.sIsFull n)

/-- The empty registers of the lists. -/
def Course.empties (c : Course) (r : List Nat × List Nat) : List Nat × List Nat :=
  (r.1.filter fun n => !c.vIsFull n, r.2.filter fun n => !c.sIsFull n)

/-- A register of the lists is the destination of a failed remote access: the trap of that access is raised (R113). -/
def Course.noFailure (c : Course) (r : List Nat × List Nat) : R Unit :=
  match c.failed.find? fun f => f.marks.any fun n => (if f.scal then r.2 else r.1).contains n with
  | some f => .error (.failure f)
  | none => .ok ()

/-- A poisoned unit among the active lanes' bytes of a register (R89, R91): 16 bytes are four lanes, or two scalars. -/
def Course.poisonedLane (c : Course) (o : Opnd) (l : Nat) : Bool :=
  match o with
  | .v n => Tab.get false c.vpoison (8 * n + l / 4)
  | .s n => n ≠ 0 && Tab.get false c.spoison (n / 2)
  | .x x => Tab.get false c.vpoison (8 * (c.xreg x).reg l + l / 4)

/-- The first of some lanes at which a property holds. -/
def firstLane (lanes : List Nat) (f : Nat → Bool) : Option Nat := lanes.find? f

/-- What an instruction names: sources under FEA, the other sources, and destinations. `lanes` are the lanes it works
on, lane 0 alone on the scalar path. -/
structure Uses where
  srcA : List Opnd := []
  srcO : List Opnd := []
  dst  : List Opnd := []

/-- Concatenates register lists. -/
def joinRegs (l : List (List Nat × List Nat)) : List Nat × List Nat := (l.flatMap Prod.fst, l.flatMap Prod.snd)

/-- The index registers among operands. -/
def indexRegs (os : List Opnd) : List Nat :=
  (os.filterMap fun o => match o with | .x n => some n | _ => none).eraseDups

/-- The checks of R253 in their order, and the poison of the registers read (R91): allotments; the MODE checks `mode`;
empty registers, which trap under FEA or FEB, the lane registers of an indirect field under FEB (R251), or make the course
wait; index resolution; poison. -/
def Course.check (c : Course) (l : Launch) (u : Uses) (lanes : List Nat) (mode : R Unit) : R Unit := do
  need ((u.srcA ++ u.srcO ++ u.dst).all (allotted l)) illegal
  mode
  let ra := joinRegs ((u.srcA.filter fun x => !x.isX).map (c.readRegs l))
  let ro := joinRegs ((u.srcA.filter Opnd.isX ++ u.srcO).map (c.readRegs l))
  let rw := joinRegs (u.dst.map (c.writeRegs l))
  c.noFailure (joinRegs [ra, ro, rw])
  need (!(c.fea && c.anyEmpty ra)) (trapCode 0x06)
  need (!(c.feb && c.anyEmpty ro)) (trapCode 0x06)
  let all := joinRegs [ra, ro, rw]
  need (!c.anyEmpty all) (.wait (.regs (c.empties all).1 (c.empties all).2))
  match (indexRegs (u.srcA ++ u.srcO ++ u.dst)).filterMap (fun x => firstLane (lanesOf c.active) ((c.xreg x).fails l.nv)) with
  | [] => .ok ()
  | f :: r => .error (.trap { code := 0x05, lane := r.foldl min f })
  match firstLane lanes fun k => (u.srcA ++ u.srcO).any fun o => c.poisonedLane o k with
  | none => .ok ()
  | some k => .error (.trap { code := 0x0A, lane := k, arr := 1 })

/-- The index registers that the fields name, stepped in the lanes of a mask: done once when the instruction completes (R244). -/
def Course.stepIn (c : Course) (mask : W32) (os : List Opnd) : Course :=
  (indexRegs os).foldl (fun k x =>
    let r := k.xreg x
    k.setX x { r with off := Vector.ofFn fun (l : Fin 32) =>
      (if mask.getLsbD l.val then BitVec.ofNat 6 (r.after l.val) else r.off[l.val]) }) c

/-- They are stepped in the active lanes. -/
def Course.stepIndexes (c : Course) (os : List Opnd) : Course := c.stepIn c.active os

-- ## Reading (R240, R241)

/-- A scalar operand's 64 bits; other classes read 0. -/
def Course.src64 (c : Course) : Opnd → W64
  | .s n => c.sreg n
  | _ => 0

/-- A lane's 32 bits of an operand; a scalar is broadcast by its bits 31:0. -/
def Course.src (c : Course) (o : Opnd) (l : Nat) : W32 :=
  match o with
  | .v n => (c.vreg n).toArray.getD l 0
  | .s n => (c.sreg n).setWidth 32
  | .x x => (c.vreg ((c.xreg x).reg l)).toArray.getD l 0

-- ## Writing

/-- Writes the lanes of `m` of a vector or indirect destination from `f`; lanes not named keep their values. The lanes'
registers of an indirect field are those of the state before the instruction (R244). -/
def Course.writeLanes (c : Course) (d : Opnd) (m : W32) (f : Nat → W32) : Course :=
  match d with
  | .v n => c.setV n m f
  | .s _ => c
  | .x x =>
    let r := c.xreg x
    (((lanesOf m).map r.reg).eraseDups).foldl
      (fun k n => k.setV n (maskOf fun l => m.getLsbD l && decide (r.reg l = n)) f) c

/-- Writes a scalar destination. -/
def Course.writeScalar (c : Course) (d : Opnd) (v : W64) : Course :=
  match d with
  | .s n => c.setS n v
  | _ => c

/-- Marks the registers that writing an operand writes. -/
def Course.markDst (c : Course) (l : Launch) (d : Opnd) (full : Bool) : Course :=
  let r := c.writeRegs l d
  let k := r.1.foldl (fun k n => k.markV n full) c
  r.2.foldl (fun k n => k.markS n full) k

/-- The fields are all scalar: the instruction runs once, on the scalar path (R241). -/
def allScalar (os : List Opnd) : Bool := os.all Opnd.isS

/-- The lanes that the checks look at: lane 0 on the scalar path, the active lanes on the vector path. -/
def Course.pathLanes (c : Course) (os : List Opnd) : List Nat := if allScalar os then [0] else lanesOf c.active

/-- An ALU instruction: its checks done, it computes `f64` on 64-bit operands on the scalar path, or `f32` in every
active lane on the vector path; the flags are ORed into FSTAT (R220); the index registers step; the program counter
advances by `n` bytes. `f` gets the operands in the order of `srcs`. -/
def State.alu (s : State) (n : Nat) (d : Opnd) (srcs : List Opnd)
    (fs : List W64 → W64 × Nat) (fv : List W32 → W32 × Nat) : State :=
  let c := s.cur
  let k :=
    if allScalar (d :: srcs) then
      let r := fs (srcs.map c.src64)
      (c.writeScalar d r.1).flag r.2
    else
      let at1 := fun l => fv (srcs.map fun o => c.src o l)
      ((c.writeLanes d c.active fun l => (at1 l).1).flag ((lanesOf c.active).foldl (fun a l => a ||| (at1 l).2) 0)).stepIndexes
        (d :: srcs)
  (s.setCur k).retire n

end Sys2Proof.Machine
end

