-- ==== Sys2Proof/Machine/Flags.lean ====
section
/-! DEFINITION. The MODE checks of instructions, the width and type rules of integer and floating-point instructions, and
what they do to FSTAT (R216, R220, R221, R253, R277, R283). -/

namespace Sys2Proof.Machine

/-- MODE.T holds one of the codes. -/
def Course.needTy (c : Course) (ts : List Nat) : R Unit := need (ts.contains c.ty) illegal
/-- MODE.RM holds a rounding mode: asked of instructions that round (R216). -/
def Course.needRm (c : Course) : R Unit := need (decide (c.rm ≤ 4)) illegal

/-- The integer type of a MODE.T code at a path: s32 and n32 are 64 bits wide on the scalar path (R277). -/
def intTy (t : Nat) (scalar : Bool) : ITy :=
  ⟨if t < 2 then 8 else if t < 4 then 16 else if scalar then 64 else 32, t % 2 = 0⟩

/-- Fit (R277): the exact result at the type's width, then extended to the path's width `pw`; with its flags. -/
def fit (t : ITy) (pw : Nat) (sat : Bool) (z : Int) : Flagged :=
  let r := intResult t sat z
  (wrap pw (t.val r.1), r.2)

/-- The IEEE format of a MODE.T code (R213). -/
def fmtOf (t : Nat) : Fmt := if t = 8 ∨ t = 12 then f16 else if t = 9 ∨ t = 13 then bf16 else f32
/-- The code is one of a packed pair. -/
def packedTy (t : Nat) : Bool := decide (t = 12) || decide (t = 13)

/-- A floating-point result placed in 32 bits: one element in the low bits, or two packed ones (R214, R283). -/
def placeF (t : Nat) (at1 : Nat → Flagged) : Flagged :=
  if packedTy t then
    let lo := at1 0
    let hi := at1 1
    (lo.1 + hi.1 * 65536, lo.2 ||| hi.2)
  else at1 0

/-- The bits of element `k` of a source (R283). -/
def elemOf (t k x : Nat) : Nat :=
  if packedTy t then bits x (16 * k + 15) (16 * k) else if t = 10 then x % 2 ^ 32 else x % 65536

/-- An integer instruction over raw operands: `f` maps the type and the operands' bits to an exact result and flags. -/
def intMeaning (d : Opnd) (srcA srcO : List Opnd) (sat : Bool) (f : ITy → List Nat → Int × Nat) (s : State) :
    Host.Outcome State Fault Refusal :=
  finish s (do
    let c := s.cur
    let all := srcA ++ srcO
    c.check s.curL ⟨srcA, srcO, [d]⟩ (c.pathLanes (d :: all)) (c.needTy [0, 1, 2, 3, 4, 5])
    let one := fun (scalar : Bool) (xs : List Nat) =>
      let t := intTy c.ty scalar
      let z := f t xs
      let r := fit t (if scalar then 64 else 32) (sat && c.sat) z.1
      (r.1, r.2 ||| z.2)
    .ok (s.alu 4 d all
      (fun xs => let r := one true (xs.map BitVec.toNat); (BitVec.ofNat 64 r.1, r.2))
      (fun xs => let r := one false (xs.map BitVec.toNat); (BitVec.ofNat 32 r.1, r.2))))

/-- A floating-point instruction: `f` computes one element from the elements of the sources; `raw` holds the operands'
whole bits. `rounds`: the instruction rounds under MODE.RM. -/
def fpMeaning (d : Opnd) (srcA srcO : List Opnd) (rounds : Bool)
    (f : Fmt → Nat → Bool → List Nat → List Nat → Flagged) (s : State) : Host.Outcome State Fault Refusal :=
  finish s (do
    let c := s.cur
    let all := srcA ++ srcO
    c.check s.curL ⟨srcA, srcO, [d]⟩ (c.pathLanes (d :: all)) (do
      c.needTy [8, 9, 10, 12, 13]
      if rounds then c.needRm else .ok ())
    let one := fun (xs : List Nat) =>
      placeF c.ty fun k => f (fmtOf c.ty) c.rm c.ftz (xs.map (elemOf c.ty k)) xs
    .ok (s.alu 4 d all
      (fun xs => let r := one (xs.map BitVec.toNat); (BitVec.ofNat 64 r.1, r.2))
      (fun xs => let r := one (xs.map BitVec.toNat); (BitVec.ofNat 32 r.1, r.2))))

end Sys2Proof.Machine
end

