-- ==== Sys2Proof/Machine/Transc.lean ====
section
/-! DEFINITION. Correctly rounded transcendental results (R231, R284): fixed-point evaluation with P fraction bits and a
bound of 2^24 units of the last place on its error, rounded when both ends of the enclosure round alike. Exact results
are treated apart, so a higher precision always decides; past the last precision the value is Config.undecided
(log entry 8). -/

namespace Sys2Proof.Machine

/-- The bound on the error of every evaluation below, in units of 2^-P. -/
def slack : Nat := 2 ^ 24

/-- atan or atanh of 1/k at P fraction bits by its series; `sg` alternates the signs. -/
def invSeries (sg : Bool) (k : Nat) (n : Nat) (pw : Nat) (i : Nat) (acc : Int) : Int :=
  match n with
  | 0 => acc
  | j + 1 =>
    let t : Int := (pw / (2 * i + 1) : Nat)
    invSeries sg k j (pw / (k * k)) (i + 1) (if sg && decide (i % 2 = 1) then acc - t else acc + t)

/-- π at P fraction bits (Machin). -/
def piFix (P : Nat) : Int :=
  16 * invSeries true 5 P (2 ^ P / 5) 0 0 - 4 * invSeries true 239 P (2 ^ P / 239) 0 0

/-- ln 2 at P fraction bits: 2 atanh(1/3). -/
def ln2Fix (P : Nat) : Int := 2 * invSeries false 3 P (2 ^ P / 3) 0 0

/-- Product of fixed-point numbers. -/
def mulFix (P : Nat) (a b : Int) : Int := a * b / ((2 ^ P : Nat) : Int)

/-- The terms t, t·x/i, t·x²/(i(i+1)), … summed. -/
def expSum (P : Nat) (x : Int) (n : Nat) (i : Nat) (t acc : Int) : Int :=
  match n with
  | 0 => acc
  | j + 1 => expSum P x j (i + 1) (mulFix P t x / (i : Int)) (acc + t)

/-- Alternating series of sine (from i = 1) or cosine (from i = 0): t_{i+2} = −t_i x² / ((i+1)(i+2)). -/
def trigSum (P : Nat) (x2 : Int) (n : Nat) (i : Nat) (t acc : Int) : Int :=
  match n with
  | 0 => acc
  | j + 1 => trigSum P x2 j (i + 2) (-(mulFix P t x2 / (((i + 1) * (i + 2) : Nat) : Int))) (acc + t)

/-- 2 atanh(z) = ln((1+z)/(1−z)) by its series. -/
def atanhSum (P : Nat) (z2 : Int) (n : Nat) (i : Nat) (t acc : Int) : Int :=
  match n with
  | 0 => acc
  | j + 1 => atanhSum P z2 j (i + 1) (mulFix P t z2) (acc + 2 * t / ((2 * i + 1 : Nat) : Int))

/-- An evaluation in P fraction bits: the scaled value, and the exponent that it is scaled by. -/
abbrev Eval := Nat → Int × Int

/-- A positive real strictly between n and n + 1 units, signed. -/
def openUnit (n : Int) (e : Int) : FV := if 0 ≤ n then between false n.toNat e else between true (-n - 1).toNat e

/-- Rounds at rising precisions until the enclosure decides. -/
def decideRound (rnd : FV → Flagged) (ev : Eval) (key : Nat) (ps : List Nat) : Flagged :=
  match ps with
  | [] => (Config.undecided key 0, fNX)
  | P :: r =>
    let v := ev P
    let lo := rnd (openUnit (v.1 - slack) (v.2 - P))
    let hi := rnd (openUnit (v.1 + slack) (v.2 - P))
    if lo = hi then lo else decideRound rnd ev key r

/-- The precisions tried. -/
def precisions : List Nat := [256, 512, 1024, 2048]

/-- A dyadic value's fraction of P bits, rounded down, and whether it is exact. -/
def fixOf (P : Nat) (m : Nat) (e : Int) : Nat := if 0 ≤ (e + P) then m * 2 ^ (e + P).toNat else m / 2 ^ (-(e + P)).toNat

/-- 2^x for x = ±m·2^e, not an integer: integer part n as exponent, fraction by the exponential series. -/
def exp2Eval (neg : Bool) (m : Nat) (e : Int) : Eval := fun P =>
  let x : Int := (if neg then -1 else 1) * (fixOf P m e : Int)
  let n := x / ((2 ^ P : Nat) : Int)
  let f := x % ((2 ^ P : Nat) : Int)
  (expSum P (mulFix P f (ln2Fix P)) (P / 2 + 8) 1 ((2 ^ P : Nat) : Int) 0, n)

/-- log2 of m·2^e: exponent plus ln(m′)/ln 2 for m′ in [1, 2). -/
def log2Eval (m : Nat) (e : Int) : Eval := fun P =>
  let lg := Nat.log2 m
  let m1 := fixOf P m (-(lg : Int))
  let one := 2 ^ P
  let z : Int := (((m1 : Int) - one) * one) / ((m1 : Int) + one)
  let ln := atanhSum P (mulFix P z z) (P / 3 + 8) 0 z 0
  (((lg : Int) + e) * one + ln * one / ln2Fix P, 0)

/-- sin of f/2^(P+3)·2π turns within the first eighth, or cos. -/
def eighth (P : Nat) (cosine : Bool) (f : Int) : Int :=
  let th := mulFix P (2 * f) (piFix P)
  let x2 := mulFix P th th
  if cosine then trigSum P x2 (P / 4 + 8) 0 ((2 ^ P : Nat) : Int) 0 else trigSum P x2 (P / 4 + 8) 1 th 0

/-- sin(2π·t) for a fraction t of P bits in [0, 1), by octants. -/
def sinTurns (P : Nat) (t : Nat) : Int :=
  let one : Nat := 2 ^ P
  let h := t % (one / 2)
  let g := if one / 4 < h then one / 2 - h else h
  let v := if g ≤ one / 8 then eighth P false g else eighth P true ((one / 4 : Nat) - (g : Int))
  if one / 2 ≤ t then -v else v

/-- sin(2πx), or cos(2πx) as a sine a quarter turn on, of ±m·2^e, scaled. -/
def turnEval (quarter neg : Bool) (m : Nat) (e : Int) : Eval := fun P =>
  let one := 2 ^ P
  let t := fixOf P m e % one
  let t1 := if neg then (one - t) % one else t
  (sinTurns P (if quarter then (t1 + one / 4) % one else t1), 0)

/-- FEXP2 of a value (R284), rounded by `rnd`. -/
def exp2V (rnd : FV → Flagged) (key : Nat) : FV → Flagged
  | .nan s => let r := rnd (.nan false); (r.1, r.2 ||| (if s then fNV else 0))
  | .inf n => if n then rnd (.fin false 0 0) else rnd (.inf false)
  | .fin n m e =>
    if m = 0 then rnd (.fin false 1 0)
    else if 12 < (Nat.log2 m : Int) + e then (if n then rnd (between false 1 (-5000)) else rnd (.fin false 1 5000))
    else if 0 ≤ e ∨ m % 2 ^ (-e).toNat = 0 then
      let k : Int := fixOf 0 m e
      rnd (.fin false 1 (if n then -k else k))
    else decideRound rnd (exp2Eval n m e) key precisions

/-- FLOG2 of a value (R284). -/
def log2V (rnd : FV → Flagged) (key : Nat) : FV → Flagged
  | .nan s => let r := rnd (.nan false); (r.1, r.2 ||| (if s then fNV else 0))
  | .inf n => if n then let r := rnd (.nan false); (r.1, fNV) else rnd (.inf false)
  | .fin n m e =>
    if m = 0 then ((rnd (.inf true)).1, fDZ)
    else if n then ((rnd (.nan false)).1, fNV)
    else if m = 2 ^ Nat.log2 m then rnd (ofInt ((Nat.log2 m : Int) + e) 0)
    else decideRound rnd (log2Eval m e) key precisions

/-- FSIN or FCOS of a value in turns (R284): quarter turns are exact. -/
def turnV (cosine : Bool) (rnd : FV → Flagged) (key : Nat) : FV → Flagged
  | .nan s => let r := rnd (.nan false); (r.1, r.2 ||| (if s then fNV else 0))
  | .inf _ => ((rnd (.nan false)).1, fNV)
  | .fin n m e =>
    if -2 ≤ e ∨ m % 2 ^ (-2 - e).toNat = 0 then
      let q := fixOf 2 m e % 4
      if cosine then
        match q with
        | 0 => rnd (.fin false 1 0)
        | 2 => rnd (.fin true 1 0)
        | _ => rnd (.fin false 0 0)
      else
        match q with
        | 1 => rnd (.fin n 1 0)
        | 3 => rnd (.fin (!n) 1 0)
        | _ => rnd (.fin n 0 0)
    else decideRound rnd (turnEval cosine n m e) key precisions

/-- σ · cos θ or σ · sin θ for θ a fraction of 2^32 of a turn (R231), one rounding of the product. -/
def rotaryV (sine : Bool) (sg : FV) (t : Nat) : Nat :=
  let rnd := fun x => roundTo f32 0 false x
  match sg with
  | .nan _ => f32.nan
  | .inf n =>
    match turnV (!sine) (fun x => (if x.isZero then 0 else if x.neg then 2 else 1, 0)) 0 (.fin false t (-32)) with
    | (0, _) => f32.nan
    | (k, _) => f32.infinity (n != decide (k = 2))
  | .fin n m e =>
    if m = 0 then
      let k := turnV (!sine) (fun x => (if x.neg then 1 else 0, 0)) 0 (.fin false t (-32))
      f32.zero (n != decide (k.1 = 1))
    else if t % 2 ^ 30 = 0 then (turnV (!sine) (fun x => rnd (mulFV x (.fin n m e)).1) 0 (.fin false t (-32))).1
    else
      (decideRound rnd (fun P =>
        let v := (turnEval (!sine) false t (-32) P).1
        -- the product of an enclosure and an exact factor: scaled so that the slack still covers it
        ((if n then -1 else 1) * v * (m : Int) / ((2 ^ Nat.log2 m : Nat) : Int), e + Nat.log2 m)) (t + 2 ^ 32 * m) precisions).1

-- ## The Gaussian table (R231)

/-- The terms x^(2k+1)/(1·3·5···(2k+1)) summed: Φ(x) − 1/2 = φ(x) · sum. -/
def phiSum (P : Nat) (x2 : Int) (n : Nat) (i : Nat) (t acc : Int) : Int :=
  match n with
  | 0 => acc
  | j + 1 => phiSum P x2 j (i + 2) (mulFix P t x2 / ((i + 2 : Nat) : Int)) (acc + t)

/-- Φ(x) − 1/2 for x = m·2^e at P bits, 0 ≤ x < 8. -/
def phiHalf (P : Nat) (m : Nat) (e : Int) : Int :=
  let one : Int := ((2 ^ P : Nat) : Int)
  let x : Int := fixOf P m e
  let x2 := mulFix P x x
  let sum := phiSum P x2 (P / 2 + 64) 1 x 0
  -- e^(−x²/2) as 1 / e^(x²/2)
  let ex := expSum P (x2 / 2) (P / 2 + 64) 1 one 0
  let root : Int := isqrt ((2 * piFix P).toNat * 2 ^ P)
  sum * one / ex * one / root

/-- Whether Φ(m·2^e) − 1/2 lies above q/2^13, at rising precision. -/
def phiAbove (m : Nat) (e : Int) (q : Nat) (ps : List Nat) : Bool :=
  match ps with
  | [] => decide (Config.undecided m q = 0)
  | P :: r =>
    let v := phiHalf P m e
    let t : Int := ((q * 2 ^ (P - 13) : Nat) : Int)
    if t + slack < v then true else if v + slack < t then false else phiAbove m e q r

/-- Bits of the largest positive FP32 value whose Φ − 1/2 is below q/2^13, found bit by bit. -/
def gaussBits (q : Nat) (k acc : Nat) : Nat :=
  match k with
  | 0 => acc
  | j + 1 =>
    match decodeF f32 false (acc + 2 ^ j) with
    | .fin _ m e => if decide (8 ≤ (Nat.log2 m : Int) + e) || phiAbove m e q [128, 256, 512] then gaussBits q j acc else gaussBits q j (acc + 2 ^ j)
    | _ => gaussBits q j acc

/-- The positive table value for Φ − 1/2 = q/2^13: the neighbour on the right side of the midpoint. -/
def gaussPos (q : Nat) : Nat :=
  let a := gaussBits q 31 0
  match decodeF f32 false a with
  | .fin _ m e => if phiAbove (2 * m + 1) (e - 1) q [128, 256, 512] then a else a + 1
  | _ => a

/-- G[n] (R231): Φ⁻¹((n + 0.5)/4096), odd about the middle. -/
def gauss (n : Nat) : Nat := if 2048 ≤ n then gaussPos (2 * n + 1 - 4096) else gaussPos (4095 - 2 * n) + 2 ^ 31

end Sys2Proof.Machine
end

