-- ==== Sys2Proof/Machine/Floating.lean ====
section
/-! DEFINITION. The floating-point instructions, opcodes 0x28 to 0x3B (R283, R284). -/

namespace Sys2Proof.Machine

/-- Rounds an exact result and joins its flags. -/
def rounded (f : Fmt) (rm : Nat) (ftz : Bool) (x : FV × Nat) : Flagged :=
  let r := roundTo f rm ftz x.1
  (r.1, r.2 ||| x.2)

/-- Operand `i` decoded under the format. -/
def opF (f : Fmt) (ftz : Bool) (xs : List Nat) (i : Nat) : FV := decodeF f ftz (xs.getD i 0)

/-- 1 / √x for a positive magnitude. -/
def rsqrtFin (m : Nat) (e : Int) : FV :=
  let m1 := if e % 2 = 0 then m else 2 * m
  let e1 := if e % 2 = 0 then e else e - 1
  let k := 100 + Nat.log2 m1
  let r := isqrt (2 ^ (2 * k) / m1)
  if r * r * m1 = 2 ^ (2 * k) then .fin false r (-(k : Int) - e1 / 2) else between false r (-(k : Int) - e1 / 2)

/-- FRSQ (R284). -/
def rsqrtFV : FV → FV × Nat
  | .nan s => (.nan false, if s then fNV else 0)
  | .inf n => if n then (.nan false, fNV) else (.fin false 0 0, 0)
  | .fin n m e => if m = 0 then (.inf n, fDZ) else if n then (.nan false, fNV) else (rsqrtFin m e, 0)

/-- A NaN result with NV for a signalling operand; other values as they are (R284, the exact operations). -/
def exactOp (x : FV) (y : FV) : FV × Nat := (if x.isNan then .nan false else y, if x.isSig then fNV else 0)

/-- FRINT (R284): an integral value of the sign of x, NX when it changes. -/
def rintFV (rm : Nat) (x : FV) : FV × Nat :=
  match x with
  | .nan s => (.nan false, if s then fNV else 0)
  | .inf n => (.inf n, 0)
  | .fin n m e => if 0 ≤ e then (x, 0) else
    let r := quantize rm n m e 0
    (.fin n r.1 0, if r.2 then fNX else 0)

/-- FSGN (R284): |x| with the sign bit of y. -/
def sgnFV (x y : FV) (ySign : Bool) : FV × Nat :=
  (if x.isNan then .nan false else x.withSign ySign, if x.isSig || y.isSig then fNV else 0)

/-- FSCALE's exponent, brought to a range beyond which nothing of the result changes. -/
def scaleBy (y : Nat) : Int := max (-2000) (min 2000 (signed 32 y))

/-- FADD (R284). -/
def execFadd (d a b : Opnd) (_hold : Bool) (s : State) : Host.Outcome State Fault Refusal :=
  fpMeaning d [a] [b] true (fun f rm z xs _ => rounded f rm z (addFV rm (opF f z xs 0) (opF f z xs 1))) s

/-- FSUB (R284). -/
def execFsub (d a b : Opnd) (_hold : Bool) (s : State) : Host.Outcome State Fault Refusal :=
  fpMeaning d [a] [b] true (fun f rm z xs _ => rounded f rm z (addFV rm (opF f z xs 0) (opF f z xs 1).negated)) s

/-- FMUL (R284). -/
def execFmul (d a b : Opnd) (_hold : Bool) (s : State) : Host.Outcome State Fault Refusal :=
  fpMeaning d [a] [b] true (fun f rm z xs _ => rounded f rm z (mulFV (opF f z xs 0) (opF f z xs 1))) s

/-- FDIV (R284). -/
def execFdiv (d a b : Opnd) (_hold : Bool) (s : State) : Host.Outcome State Fault Refusal :=
  fpMeaning d [a] [b] true (fun f rm z xs _ => rounded f rm z (divFV (opF f z xs 0) (opF f z xs 1))) s

/-- FMA (R284), d being the third source. -/
def execFma (d a b : Opnd) (_hold : Bool) (s : State) : Host.Outcome State Fault Refusal :=
  fpMeaning d [a] [b, d] true (fun f rm z xs _ => rounded f rm z (fmaFV rm (opF f z xs 0) (opF f z xs 1) (opF f z xs 2))) s

/-- FNMA (R284), d being the third source. -/
def execFnma (d a b : Opnd) (_hold : Bool) (s : State) : Host.Outcome State Fault Refusal :=
  fpMeaning d [a] [b, d] true (fun f rm z xs _ => rounded f rm z (fmaFV rm (opF f z xs 0).negated (opF f z xs 1) (opF f z xs 2))) s

/-- FSQRT (R284). -/
def execFsqrt (d a : Opnd) (_hold : Bool) (s : State) : Host.Outcome State Fault Refusal :=
  fpMeaning d [a] [] true (fun f rm z xs _ => rounded f rm z (sqrtFV (opF f z xs 0))) s

/-- FRSQ (R284). -/
def execFrsq (d a : Opnd) (_hold : Bool) (s : State) : Host.Outcome State Fault Refusal :=
  fpMeaning d [a] [] true (fun f rm z xs _ => rounded f rm z (rsqrtFV (opF f z xs 0))) s

/-- FRCP (R284). -/
def execFrcp (d a : Opnd) (_hold : Bool) (s : State) : Host.Outcome State Fault Refusal :=
  fpMeaning d [a] [] true (fun f rm z xs _ => rounded f rm z (divFV (.fin false 1 0) (opF f z xs 0))) s

/-- FRINT (R284). -/
def execFrint (d a : Opnd) (_hold : Bool) (s : State) : Host.Outcome State Fault Refusal :=
  fpMeaning d [a] [] true (fun f rm z xs _ => rounded f rm z (rintFV rm (opF f z xs 0))) s

/-- FMIN (R219, R284). -/
def execFmin (d a b : Opnd) (_hold : Bool) (s : State) : Host.Outcome State Fault Refusal :=
  fpMeaning d [a] [b] false (fun f _ z xs _ => rounded f 0 z (minMaxFV false (opF f z xs 0) (opF f z xs 1))) s

/-- FMAX (R219, R284). -/
def execFmax (d a b : Opnd) (_hold : Bool) (s : State) : Host.Outcome State Fault Refusal :=
  fpMeaning d [a] [b] false (fun f _ z xs _ => rounded f 0 z (minMaxFV true (opF f z xs 0) (opF f z xs 1))) s

/-- FABS (R284). -/
def execFabs (d a : Opnd) (_hold : Bool) (s : State) : Host.Outcome State Fault Refusal :=
  fpMeaning d [a] [] false (fun f _ z xs _ => rounded f 0 z (exactOp (opF f z xs 0) ((opF f z xs 0).withSign false))) s

/-- FNEG (R284). -/
def execFneg (d a : Opnd) (_hold : Bool) (s : State) : Host.Outcome State Fault Refusal :=
  fpMeaning d [a] [] false (fun f _ z xs _ => rounded f 0 z (exactOp (opF f z xs 0) (opF f z xs 0).negated)) s

/-- FEXP2 (R284), rounded to nearest. -/
def execFexp2 (d a : Opnd) (_hold : Bool) (s : State) : Host.Outcome State Fault Refusal :=
  fpMeaning d [a] [] false (fun f _ z xs _ => exp2V (fun x => roundTo f 0 z x) (xs.getD 0 0) (opF f z xs 0)) s

/-- FLOG2 (R284), rounded to nearest. -/
def execFlog2 (d a : Opnd) (_hold : Bool) (s : State) : Host.Outcome State Fault Refusal :=
  fpMeaning d [a] [] false (fun f _ z xs _ => log2V (fun x => roundTo f 0 z x) (xs.getD 0 0) (opF f z xs 0)) s

/-- FSIN (R284), rounded to nearest. -/
def execFsin (d a : Opnd) (_hold : Bool) (s : State) : Host.Outcome State Fault Refusal :=
  fpMeaning d [a] [] false (fun f _ z xs _ => turnV false (fun x => roundTo f 0 z x) (xs.getD 0 0) (opF f z xs 0)) s

/-- FCOS (R284), rounded to nearest. -/
def execFcos (d a : Opnd) (_hold : Bool) (s : State) : Host.Outcome State Fault Refusal :=
  fpMeaning d [a] [] false (fun f _ z xs _ => turnV true (fun x => roundTo f 0 z x) (xs.getD 0 0) (opF f z xs 0)) s

/-- FSGN (R284). -/
def execFsgn (d a b : Opnd) (_hold : Bool) (s : State) : Host.Outcome State Fault Refusal :=
  fpMeaning d [a] [b] false (fun f _ z xs _ =>
    rounded f 0 z (sgnFV (opF f z xs 0) (opF f z xs 1) (bit (xs.getD 1 0) (f.eb + f.fb)))) s

/-- FSCALE (R284): y is a 32-bit integer, not an element. -/
def execFscale (d a b : Opnd) (_hold : Bool) (s : State) : Host.Outcome State Fault Refusal :=
  fpMeaning d [a] [b] true (fun f rm z xs raw =>
    let x := opF f z xs 0
    rounded f rm z (if x.isNan then .nan false else x.scaled (scaleBy (raw.getD 1 0)), if x.isSig then fNV else 0)) s

end Sys2Proof.Machine
end

