-- ==== Sys2Proof/Machine/Convert.lean ====
section
/-! DEFINITION. Compare, predicate and conversion instructions, opcodes 0x3C to 0x47 (R285 to R292). -/

namespace Sys2Proof.Machine

/-- Writes the active lanes' bits of a predicate; on the scalar path all 32 bits are written with one result. -/
def Course.writePred (c : Course) (p : Nat) (m : W32) (f : Nat → Bool) : Course :=
  c.setPred p ((c.pred p &&& ~~~m) ||| (maskOf f &&& m))

/-- A compare over `srcs` (R285): `f` maps the operands' bits to the truth of the condition and the flags. -/
def cmpMeaning (pd : Nat) (srcA srcO : List Opnd) (tys : List Nat) (f : Bool → Course → List Nat → Bool × Nat) (s : State) :
    Host.Outcome State Fault Refusal :=
  finish s (do
    let c := s.cur
    let all := srcA ++ srcO
    c.check s.curL ⟨srcA, srcO, []⟩ (c.pathLanes all) (c.needTy tys)
    let k :=
      if allScalar all then
        let r := f true c (all.map fun o => (c.src64 o).toNat)
        (c.writePred pd 0xFFFFFFFF fun _ => r.1).flag r.2
      else
        let at1 := fun l => f false c (all.map fun o => (c.src o l).toNat)
        ((c.writePred pd c.active fun l => (at1 l).1).flag
          ((lanesOf c.active).foldl (fun a l => a ||| (at1 l).2) 0)).stepIn c.active all
    .ok ((s.setCur k).retire 4))

/-- The integer conditions (R285). -/
def condInt (cond : Nat) (x y : Int) : Bool :=
  match cond with
  | 0 => decide (x = y) | 1 => decide (x ≠ y) | 2 => decide (x < y) | 3 => decide (x ≤ y)
  | 4 => decide (y < x) | _ => decide (y ≤ x)

/-- The floating-point conditions with NV (R285). -/
def condFP (cond : Nat) (x y : FV) : Bool × Nat :=
  let nan := x.isNan || y.isNan
  let sig := x.isSig || y.isSig
  let o := cmpFV x y
  let r :=
    match cond with
    | 0 => !nan && decide (o = .eq)
    | 1 => nan || decide (o ≠ .eq)
    | 2 => !nan && decide (o = .lt)
    | 3 => !nan && decide (o ≠ .gt)
    | 4 => !nan && decide (o = .gt)
    | 5 => !nan && decide (o ≠ .lt)
    | 6 => !nan
    | _ => nan
  (r, if sig || (nan && decide (2 ≤ cond) && decide (cond ≤ 5)) then fNV else 0)

/-- ICMP (R285). -/
def execIcmp (pd cond : Nat) (a b : Opnd) (_hold : Bool) (s : State) : Host.Outcome State Fault Refusal :=
  cmpMeaning pd [a] [b] [0, 1, 2, 3, 4, 5] (fun sc c xs =>
    let t := intTy c.ty sc
    (condInt cond (t.val (xs.getD 0 0)) (t.val (xs.getD 1 0)), 0)) s

/-- FCMP (R285). -/
def execFcmp (pd cond : Nat) (a b : Opnd) (_hold : Bool) (s : State) : Host.Outcome State Fault Refusal :=
  cmpMeaning pd [a] [b] [8, 9, 10] (fun _ c xs =>
    let f := fmtOf c.ty
    condFP cond (decodeF f c.ftz (elemOf c.ty 0 (xs.getD 0 0))) (decodeF f c.ftz (elemOf c.ty 0 (xs.getD 1 0)))) s

/-- ICMPI (R285): under a signed type the immediate keeps its value, −256 to +255; under an unsigned one a negative immediate
is read as 2^W + imm9. -/
def execIcmpi (pd cond : Nat) (a : Opnd) (imm : Int) (s : State) : Host.Outcome State Fault Refusal :=
  cmpMeaning pd [a] [] [0, 1, 2, 3, 4, 5] (fun sc c xs =>
    let t := intTy c.ty sc
    (condInt cond (t.val (xs.getD 0 0)) (if t.sg then imm else t.val (wrap t.w imm)), 0)) s

/-- PLOG's operation (R286). -/
def plogBit (op : Nat) (a b : Bool) : Bool :=
  match op with
  | 0 => a && b | 1 => a || b | 2 => a != b | 3 => a && !b | 4 => a || !b | 5 => !a | 6 => true | _ => false

/-- PLOG (R286): class fields alone, so it runs on the vector path over the active lanes. -/
def execPlog (pd op pa pb : Nat) (s : State) : Host.Outcome State Fault Refusal :=
  let c := s.cur
  .next ((s.setCur (c.writePred pd c.active fun l => plogBit op ((c.pred pa).getLsbD l) ((c.pred pb).getLsbD l))).retire 4)

/-- PRD (R287). -/
def execPrd (d : Opnd) (p : Nat) (s : State) : Host.Outcome State Fault Refusal :=
  finish s (do
    let c := s.cur
    c.check s.curL ⟨[], [], [d]⟩ (c.pathLanes [d]) (.ok ())
    let k :=
      if d.isS then c.writeScalar d ((c.pred p).setWidth 64)
      else (c.writeLanes d c.active fun l => BitVec.ofNat 32 (ofBool ((c.pred p).getLsbD l))).stepIndexes [d]
    .ok ((s.setCur k).retire 4))

/-- PWR (R287). -/
def execPwr (p : Nat) (a : Opnd) (_hold : Bool) (s : State) : Host.Outcome State Fault Refusal :=
  finish s (do
    let c := s.cur
    c.check s.curL ⟨[a], [], []⟩ (c.pathLanes [a]) (.ok ())
    let k :=
      if a.isS then c.setPred p ((c.src64 a).setWidth 32)
      else (c.writePred p c.active fun l => decide (c.src a l ≠ 0)).stepIn c.active [a]
    .ok ((s.setCur k).retire 4))

/-- SEL's selector in a lane: p[GP], complemented when GN = 1 (R288). -/
def Course.selector (c : Course) (l : Nat) : Bool := (c.pred (bits c.mode.toNat 2 0)).getLsbD l != bit c.mode.toNat 3

/-- The course with its guard disabled, as SEL sees it: its active lanes are those of EXEC (R288). -/
def Course.unguarded (c : Course) : Course := { c with mode := c.mode &&& 0xFFFFFFEF }

/-- SEL (R288): active lanes are those of EXEC; on the scalar path the lowest lane of EXEC selects. -/
def execSel (d a b : Opnd) (_hold : Bool) (s : State) : Host.Outcome State Fault Refusal :=
  finish s (do
    let c := s.cur.unguarded
    c.check s.curL ⟨[a], [b], [d]⟩ (c.pathLanes [d, a, b]) (.ok ())
    let k :=
      if allScalar [d, a, b] then
        let pick := match lanesOf c.exec with | [] => false | l :: _ => c.selector l
        c.writeScalar d (if pick then c.src64 a else c.src64 b)
      else (c.writeLanes d c.exec fun l => if c.selector l then c.src a l else c.src b l).stepIndexes [d, a, b]
    .ok ((s.setCur { k with mode := s.cur.mode }).retire 4))

/-- The class bit of a value read without FTZ (R289). -/
def classBit (f : Fmt) (x : FV) : Nat :=
  match x with
  | .inf n => if n then 0 else 7
  | .nan sg => if sg then 8 else 9
  | .fin n m _ =>
    if m = 0 then (if n then 3 else 4) else if m < 2 ^ f.fb then (if n then 2 else 5) else (if n then 1 else 6)

/-- FCLASS (R289). -/
def execFclass (d a : Opnd) (_hold : Bool) (s : State) : Host.Outcome State Fault Refusal :=
  finish s (do
    let c := s.cur
    c.check s.curL ⟨[a], [], [d]⟩ (c.pathLanes [d, a]) (c.needTy [8, 9, 10])
    let one := fun (x : Nat) => 2 ^ classBit (fmtOf c.ty) (decodeF (fmtOf c.ty) false (elemOf c.ty 0 x))
    .ok (s.alu 4 d [a] (fun xs => (BitVec.ofNat 64 (one (xs.getD 0 0).toNat), 0))
      (fun xs => (BitVec.ofNat 32 (one (xs.getD 0 0).toNat), 0))))

/-- CVT of one value (R290): source and destination type codes, at a path. -/
def cvtOne (sc : Bool) (rm : Nat) (ftz sat : Bool) (from1 tgt : Nat) (x : Nat) : Flagged :=
  let pw := if sc then 64 else 32
  if from1 ≤ 5 then
    let z := (intTy from1 sc).val x
    if tgt ≤ 5 then fit (intTy tgt sc) pw sat z else rounded (fmtOf tgt) rm ftz (ofInt z 0, 0)
  else
    let v := decodeF (fmtOf from1) ftz (elemOf from1 0 x)
    if tgt ≤ 5 then
      let t := intTy tgt sc
      let r := toInt t rm sat v
      (wrap pw (t.val r.1), r.2)
    else rounded (fmtOf tgt) rm ftz (v, if v.isSig then fNV else 0)

/-- The conversion rounds under MODE.RM: every one but integer to integer (R290, R216). A widening one is written with RoundTo too,
though it is exact, and so takes the reserved codes as one that rounds (log entry 88). -/
def cvtRounds (from1 tgt : Nat) : Bool := !(decide (from1 ≤ 5) && decide (tgt ≤ 5))

/-- CVT (R290). -/
def execCvt (d a : Opnd) (ty : Nat) (_hold : Bool) (s : State) : Host.Outcome State Fault Refusal :=
  finish s (do
    let c := s.cur
    c.check s.curL ⟨[a], [], [d]⟩ (c.pathLanes [d, a]) (do
      c.needTy [0, 1, 2, 3, 4, 5, 8, 9, 10]
      if cvtRounds c.ty ty then c.needRm else .ok ())
    .ok (s.alu 4 d [a]
      (fun xs => let r := cvtOne true c.rm c.ftz c.sat c.ty ty (xs.getD 0 0).toNat; (BitVec.ofNat 64 r.1, r.2))
      (fun xs => let r := cvtOne false c.rm c.ftz c.sat c.ty ty (xs.getD 0 0).toNat; (BitVec.ofNat 32 r.1, r.2))))

/-- CVTS of one value (R291). A tapered encoding raises no flag, a signalling NaN's included (R224). -/
def cvtsOne (enc : Bool) (slot : W32) (rm : Nat) (ftz : Bool) (x : Nat) : Flagged :=
  if enc then
    let v := decodeF f32 ftz (x % 2 ^ 32)
    let r := encodeSlot slot rm ftz v
    (r.1, r.2 ||| (if v.isSig && decide (3 ≤ slotCode slot) then fNV else 0))
  else
    let v := decodeSlot slot ftz (x % 2 ^ slotWidth slot)
    let r := rounded f32 rm ftz v
    (r.1, r.2 ||| (if v.1.isSig then fNV else 0))

/-- CVTS (R291). -/
def execCvts (d a : Opnd) (enc : Bool) (fslot : Nat) (_hold : Bool) (s : State) : Host.Outcome State Fault Refusal :=
  finish s (do
    let c := s.cur
    let slot := s.curL.fslot fslot
    c.check s.curL ⟨[a], [], [d]⟩ (c.pathLanes [d, a]) c.needRm
    need (decide (slotCode slot ≠ 0)) illegal
    .ok (s.alu 4 d [a]
      (fun xs => let r := cvtsOne enc slot c.rm c.ftz (xs.getD 0 0).toNat; (BitVec.ofNat 64 r.1, r.2))
      (fun xs => let r := cvtsOne enc slot c.rm c.ftz (xs.getD 0 0).toNat; (BitVec.ofNat 32 r.1, r.2))))

/-- The registers n to n + k − 1. -/
def block (o : Opnd) (k : Nat) : List Opnd := (List.range k).map o.plus

/-- Elements of a container (R292); of a slot of another format, which is refused, the one register that the field names (log entry
87). -/
def slotElems (slot : W32) : Nat := if slotCode slot = 1 then 16 else if slotCode slot = 2 then 20 else 1

/-- The slot is of a format that has containers (R292). -/
def isContainer (slot : W32) : Bool := decide (slotCode slot = 1) || decide (slotCode slot = 2)

/-- The 16 bytes of a lane's container in registers n to n + 3 (R238). -/
def Course.quad (c : Course) (o : Opnd) (l : Nat) : Nat :=
  ((List.range 4).map fun j => (c.src (o.plus j) l).toNat * 2 ^ (32 * j)).foldl (· + ·) 0

/-- The 32-bit part `j` of a 16-byte value. -/
def part32 (v j : Nat) : W32 := BitVec.ofNat 32 (v / 2 ^ (32 * j))

/-- CPACK (R292): element i of a lane's container encodes register a + i. -/
def execCpack (d a : Opnd) (fslot : Nat) (s : State) : Host.Outcome State Fault Refusal :=
  finish s (do
    let c := s.cur
    let slot := s.curL.fslot fslot
    let n := slotElems slot
    c.check s.curL ⟨block a n, [], block d 4⟩ (lanesOf c.active) c.needRm
    need (isContainer slot) illegal
    let enc := fun l => (List.range n).map fun j => encodeSlot slot 0 c.ftz (decodeF f32 c.ftz (c.src (a.plus j) l).toNat)
    let cont := fun l =>
      if slotCode slot = 1 then leBytes ((enc l).map fun e => BitVec.ofNat 8 e.1) else t6Pack ((enc l).map Prod.fst)
    let k := (List.range 4).foldl (fun k j => k.writeLanes (d.plus j) c.active fun l => part32 (cont l) j) c
    .ok ((s.setCur k).retire 4))

/-- Element i of a container under a slot (R225, R226): value and flags; a bad tag or parity gives NaR and NV. -/
def contElem (slot : W32) (v i : Nat) : FV × Nat :=
  if slotCode slot = 1 then decodeSlot slot false (v / 2 ^ (8 * i) % 256)
  else match t6Elem v i with
    | some e => decodeSlot slot false e
    | none => let r := narValue slot; (r.1, r.2 ||| fNV)

/-- CUNPK (R292): every source is read before any register is written. -/
def execCunpk (d a : Opnd) (fslot : Nat) (s : State) : Host.Outcome State Fault Refusal :=
  finish s (do
    let c := s.cur
    let slot := s.curL.fslot fslot
    let n := slotElems slot
    c.check s.curL ⟨block a 4, [], block d n⟩ (lanesOf c.active) c.needRm
    need (isContainer slot) illegal
    let at1 := fun l i => rounded f32 c.rm c.ftz (contElem slot (c.quad a l) i)
    let k := (List.range n).foldl (fun k i => k.writeLanes (d.plus i) c.active fun l => BitVec.ofNat 32 (at1 l i).1) c
    let fl := (lanesOf c.active).foldl (fun f l => (List.range n).foldl (fun g i => g ||| (at1 l i).2) f) 0
    .ok ((s.setCur (k.flag fl)).retire 4))

end Sys2Proof.Machine
end

