-- ==== Sys2Proof/Machine/Integer.lean ====
section
/-! DEFINITION. The integer instructions, opcodes 0x10 to 0x27 (R277 to R282). -/

namespace Sys2Proof.Machine

/-- Operand `i` read under the type. -/
def opI (t : ITy) (xs : List Nat) (i : Nat) : Int := t.val (xs.getD i 0)
/-- The W-bit pattern of operand `i`. -/
def opU (t : ITy) (xs : List Nat) (i : Nat) : Nat := xs.getD i 0 % 2 ^ t.w
/-- The shift count: bits 7:0 of y (R278). -/
def shiftCount (xs : List Nat) : Nat := xs.getD 1 0 % 256

/-- IDIV (R278): truncated quotient; by zero, -1 or 2^W - 1 with DZ. -/
def divInt (t : ITy) (x y : Int) : Int × Nat :=
  if y = 0 then (if t.sg then -1 else (2 ^ t.w : Nat) - 1, fDZ) else (x.tdiv y, 0)
/-- IREM (R278): remainder with the sign of x; by zero, x with DZ. -/
def remInt (x y : Int) : Int × Nat := if y = 0 then (x, fDZ) else (x.tmod y, 0)
/-- SAR (R278): the pattern shifted right with bit W-1 entering. -/
def sarInt (t : ITy) (x c : Nat) : Int := signed t.w x / ((2 ^ min c t.w : Nat) : Int)
/-- The number of ones among the W low bits. -/
def popcount (w x : Nat) : Nat := (List.range w).foldl (fun n k => n + ofBool (bit x k)) 0
/-- The number of zeros above the highest one among the W low bits. -/
def leadingZeros (w x : Nat) : Nat := if x % 2 ^ w = 0 then w else w - 1 - Nat.log2 (x % 2 ^ w)
/-- BFX (R280). -/
def bfxInt (t : ITy) (x pos len : Nat) : Int :=
  if len = 0 ∨ t.w ≤ pos then 0
  else
    let z := x % 2 ^ t.w / 2 ^ pos % 2 ^ len
    if t.sg ∧ len < t.w then signed len z else z
/-- BFI (R280): bits of x into o at pos; bits past W are dropped. -/
def bfiNat (w o x pos len : Nat) : Nat :=
  (List.range w).foldl (fun acc k =>
    acc + ofBool (if pos ≤ k ∧ k < pos + len then bit x (k - pos) else bit o k) * 2 ^ k) 0

/-- IADD (R278). -/
def execIadd (d a b : Opnd) (_hold : Bool) (s : State) : Host.Outcome State Fault Refusal :=
  intMeaning d [a] [b] true (fun t xs => (opI t xs 0 + opI t xs 1, 0)) s

/-- ISUB (R278). -/
def execIsub (d a b : Opnd) (_hold : Bool) (s : State) : Host.Outcome State Fault Refusal :=
  intMeaning d [a] [b] true (fun t xs => (opI t xs 0 - opI t xs 1, 0)) s

/-- IMUL (R278). -/
def execImul (d a b : Opnd) (_hold : Bool) (s : State) : Host.Outcome State Fault Refusal :=
  intMeaning d [a] [b] true (fun t xs => (opI t xs 0 * opI t xs 1, 0)) s

/-- IMULH (R278). -/
def execImulh (d a b : Opnd) (_hold : Bool) (s : State) : Host.Outcome State Fault Refusal :=
  intMeaning d [a] [b] false (fun t xs => (opI t xs 0 * opI t xs 1 / ((2 ^ t.w : Nat) : Int), 0)) s

/-- IMAD (R278). -/
def execImad (d a b : Opnd) (_hold : Bool) (s : State) : Host.Outcome State Fault Refusal :=
  intMeaning d [a] [b, d] true (fun t xs => (opI t xs 0 * opI t xs 1 + opI t xs 2, 0)) s

/-- IDIV (R278). -/
def execIdiv (d a b : Opnd) (_hold : Bool) (s : State) : Host.Outcome State Fault Refusal :=
  intMeaning d [a] [b] true (fun t xs => divInt t (opI t xs 0) (opI t xs 1)) s

/-- IREM (R278). -/
def execIrem (d a b : Opnd) (_hold : Bool) (s : State) : Host.Outcome State Fault Refusal :=
  intMeaning d [a] [b] false (fun t xs => remInt (opI t xs 0) (opI t xs 1)) s

/-- IMIN (R278). -/
def execImin (d a b : Opnd) (_hold : Bool) (s : State) : Host.Outcome State Fault Refusal :=
  intMeaning d [a] [b] false (fun t xs => (min (opI t xs 0) (opI t xs 1), 0)) s

/-- IMAX (R278). -/
def execImax (d a b : Opnd) (_hold : Bool) (s : State) : Host.Outcome State Fault Refusal :=
  intMeaning d [a] [b] false (fun t xs => (max (opI t xs 0) (opI t xs 1), 0)) s

/-- AND (R278). -/
def execAnd (d a b : Opnd) (_hold : Bool) (s : State) : Host.Outcome State Fault Refusal :=
  intMeaning d [a] [b] false (fun t xs => ((opU t xs 0 &&& opU t xs 1 : Nat), 0)) s

/-- OR (R278). -/
def execOr (d a b : Opnd) (_hold : Bool) (s : State) : Host.Outcome State Fault Refusal :=
  intMeaning d [a] [b] false (fun t xs => ((opU t xs 0 ||| opU t xs 1 : Nat), 0)) s

/-- XOR (R278). -/
def execXor (d a b : Opnd) (_hold : Bool) (s : State) : Host.Outcome State Fault Refusal :=
  intMeaning d [a] [b] false (fun t xs => ((opU t xs 0 ^^^ opU t xs 1 : Nat), 0)) s

/-- SHL (R278). -/
def execShl (d a b : Opnd) (_hold : Bool) (s : State) : Host.Outcome State Fault Refusal :=
  intMeaning d [a] [b] false (fun t xs => (if t.w ≤ shiftCount xs then 0 else opI t xs 0 * (2 ^ shiftCount xs : Nat), 0)) s

/-- SHR (R278). -/
def execShr (d a b : Opnd) (_hold : Bool) (s : State) : Host.Outcome State Fault Refusal :=
  intMeaning d [a] [b] false (fun t xs => (if t.w ≤ shiftCount xs then 0 else (opU t xs 0 / 2 ^ shiftCount xs : Nat), 0)) s

/-- SAR (R278). -/
def execSar (d a b : Opnd) (_hold : Bool) (s : State) : Host.Outcome State Fault Refusal :=
  intMeaning d [a] [b] false (fun t xs => (sarInt t (xs.getD 0 0) (shiftCount xs), 0)) s

/-- BFX (R280). -/
def execBfx (d a b : Opnd) (_hold : Bool) (s : State) : Host.Outcome State Fault Refusal :=
  intMeaning d [a] [b] false (fun t xs => (bfxInt t (xs.getD 0 0) (xs.getD 1 0 % 256) (bits (xs.getD 1 0) 15 8), 0)) s

/-- BFI (R280). -/
def execBfi (d a b : Opnd) (_hold : Bool) (s : State) : Host.Outcome State Fault Refusal :=
  intMeaning d [a] [b, d] false (fun t xs => (bfiNat t.w (xs.getD 2 0) (xs.getD 0 0) (xs.getD 1 0 % 256) (bits (xs.getD 1 0) 15 8), 0)) s

/-- IABS (R279). -/
def execIabs (d a : Opnd) (_hold : Bool) (s : State) : Host.Outcome State Fault Refusal :=
  intMeaning d [a] [] true (fun t xs => (if t.sg then ((opI t xs 0).natAbs : Int) else opI t xs 0, 0)) s

/-- POPC (R279). -/
def execPopc (d a : Opnd) (_hold : Bool) (s : State) : Host.Outcome State Fault Refusal :=
  intMeaning d [a] [] false (fun t xs => (popcount t.w (xs.getD 0 0), 0)) s

/-- CLZ (R279). -/
def execClz (d a : Opnd) (_hold : Bool) (s : State) : Host.Outcome State Fault Refusal :=
  intMeaning d [a] [] false (fun t xs => (leadingZeros t.w (xs.getD 0 0), 0)) s

/-- IADDI (R281): the immediate keeps its sign whatever the type. -/
def execIaddi (d a : Opnd) (imm : Int) (s : State) : Host.Outcome State Fault Refusal :=
  intMeaning d [a] [] true (fun t xs => (opI t xs 0 + imm, 0)) s

/-- SHLI (R281). -/
def execShli (d a : Opnd) (imm : Nat) (s : State) : Host.Outcome State Fault Refusal :=
  intMeaning d [a] [] false (fun t xs => (if t.w ≤ imm then 0 else opI t xs 0 * (2 ^ imm : Nat), 0)) s

/-- MOV (R282): raw bits; MODE.T is ignored. -/
def execMov (d a : Opnd) (_hold : Bool) (s : State) : Host.Outcome State Fault Refusal :=
  finish s (do
    let c := s.cur
    c.check s.curL ⟨[a], [], [d]⟩ (c.pathLanes [d, a]) (.ok ())
    .ok (s.alu 4 d [a] (fun xs => (xs.getD 0 0, 0)) (fun xs => (xs.getD 0 0, 0))))

/-- LIT (R282): the literal into the active lanes, sign-extended into a scalar, or into bits 63:32 of a scalar, whose low
half is then read too. It names one operand field: a scalar destination runs on the scalar path. -/
def execLit (d : Opnd) (hi : Bool) (w : W32) (s : State) : Host.Outcome State Fault Refusal :=
  finish s (do
    let c := s.cur
    c.check s.curL ⟨[], if hi then [d] else [], [d]⟩ (c.pathLanes [d]) (.ok ())
    .ok (s.alu 8 d []
      (fun _ => (if hi then w ++ (c.src64 d).setWidth 32 else w.signExtend 64, 0)) (fun _ => (w, 0))))

end Sys2Proof.Machine
end

