-- ==== Sys2Proof/Machine/Lane.lean ====
section
/-! DEFINITION. Lane operations, index registers and special registers, opcodes 0x48 to 0x57 (R293 to R300). -/

namespace Sys2Proof.Machine

-- ## Lane operations

/-- A lane's value of the register that lane `l` names, read in lane `k` (R293). -/
def Course.srcIn (c : Course) (o : Opnd) (l k : Nat) : W32 :=
  match o with
  | .x x => (c.vreg ((c.xreg x).reg l)).toArray.getD k 0
  | _ => c.src o k

/-- A shuffle: `pick` maps a lane and the low five bits of b to the source lane. -/
def shuffle (d a b : Opnd) (pick : Nat → Nat → Nat) (s : State) : Host.Outcome State Fault Refusal :=
  finish s (do
    let c := s.cur
    c.check s.curL ⟨[a], [b], [d]⟩ (lanesOf c.active) (.ok ())
    let k := c.writeLanes d c.active fun l => c.srcIn a l (pick l ((c.src b l).toNat % 32))
    .ok ((s.setCur (k.stepIndexes [d, a, b])).retire 4))

/-- SHFL (R293). -/
def execShfl (d a b : Opnd) (_hold : Bool) (s : State) : Host.Outcome State Fault Refusal := shuffle d a b (fun _ k => k) s
/-- SHFLX (R293). -/
def execShflx (d a b : Opnd) (_hold : Bool) (s : State) : Host.Outcome State Fault Refusal := shuffle d a b (fun l k => l ^^^ k) s

/-- One value formed from the lanes, into a scalar, or into each active lane of a vector (R294). -/
def oneValue (d : Opnd) (srcA srcO : List Opnd) (lanes : Course → List Nat) (mode : Course → R Unit)
    (f : Course → W64 × Nat) (s : State) : Host.Outcome State Fault Refusal :=
  finish s (do
    let c := s.cur
    c.check s.curL ⟨srcA, srcO, [d]⟩ (lanes c) (mode c)
    let r := f c
    let k := if d.isS then c.writeScalar d r.1 else (c.writeLanes d c.active fun _ => r.1.setWidth 32).stepIndexes [d]
    .ok ((s.setCur (k.flag r.2)).retire 4))

/-- BCAST (R294): lane b[4:0] of a, active or not. -/
def execBcast (d : Opnd) (a : Nat) (b : Opnd) (s : State) : Host.Outcome State Fault Refusal :=
  oneValue d [.v a] [b] (fun c => [(c.src b 0).toNat % 32]) (fun _ => .ok ())
    (fun c => ((c.src (.v a) ((c.src b 0).toNat % 32)).setWidth 64, 0)) s

/-- BALLOT (R294). -/
def execBallot (d : Opnd) (a : Nat) (s : State) : Host.Outcome State Fault Refusal :=
  oneValue d [.v a] [] (fun c => lanesOf c.active) (fun _ => .ok ())
    (fun c => ((maskOf fun l => c.active.getLsbD l && decide (c.src (.v a) l ≠ 0)).setWidth 64, 0)) s

/-- LFIRST (R294). -/
def execLfirst (d : Opnd) (p : Nat) (s : State) : Host.Outcome State Fault Refusal :=
  oneValue d [] [] (fun _ => []) (fun _ => .ok ())
    (fun c => (BitVec.ofNat 64 ((firstLane (lanesOf c.active) fun l => (c.pred p).getLsbD l).getD 32), 0)) s

/-- The exact sum of R228 over lane values, rounded once into a format (R295). -/
def sumFP (f : Fmt) (rm : Nat) (ftz : Bool) (l : List FV) : Flagged :=
  let pos := l.any fun v => v.isInf && !v.neg
  let ng := l.any fun v => v.isInf && v.neg
  if l.any FV.isNan || (pos && ng) then (f.nan, if (pos && ng) || l.any FV.isSig then fNV else 0)
  else if pos || ng then (f.infinity ng, 0)
  else
    let r := dotFinite l
    if r.1 = 0 then (f.zero (dotZero rm l), r.2.2)
    else
      let q := roundFin f rm ftz (decide (r.1 < 0)) r.1.natAbs r.2.1
      (q.1, q.2 ||| r.2.2)

/-- Red(L) of R295 over the lanes' raw values under MODE.T, at the vector path's width. -/
def redValue (c : Course) (op : Nat) (xs : List Nat) : Flagged :=
  if c.ty ≤ 5 then
    let t := intTy c.ty false
    let vs := xs.map t.val
    let all1 := 2 ^ t.w - 1
    match op with
    | 0 => fit t 32 c.sat (vs.foldl (· + ·) 0)
    | 1 => (wrap 32 (vs.foldl min t.hi), 0)
    | 2 => (wrap 32 (vs.foldl max t.lo), 0)
    | 3 => fit t 32 false ((xs.map (· % 2 ^ t.w)).foldl (· &&& ·) all1 : Nat)
    | 4 => fit t 32 false ((xs.map (· % 2 ^ t.w)).foldl (· ||| ·) 0 : Nat)
    | _ => fit t 32 false ((xs.map (· % 2 ^ t.w)).foldl (· ^^^ ·) 0 : Nat)
  else
    let f := fmtOf c.ty
    let vs := xs.map fun x => decodeF f c.ftz (elemOf c.ty 0 x)
    match op with
    | 0 => sumFP f c.rm c.ftz vs
    | _ =>
      let mx := decide (op = 2)
      match vs with
      | [] => (f.infinity mx, 0)
      | v :: r =>
        let m := r.foldl (fun (acc : FV × Nat) x => let y := minMaxFV mx acc.1 x; (y.1, acc.2 ||| y.2))
          (v, if v.isSig then fNV else 0)
        rounded f 0 c.ftz m

/-- The MODE checks of VRED and VSCAN (R295): a float sum rounds under MODE.RM. -/
def redMode (op : Nat) (c : Course) : R Unit := do
  c.needTy (if 3 ≤ op then [0, 1, 2, 3, 4, 5] else [0, 1, 2, 3, 4, 5, 8, 9, 10])
  if decide (op = 0) && decide (8 ≤ c.ty) then c.needRm else .ok ()

/-- VRED (R295): a scalar destination gets an integer extended to 64 bits under its type's sign. -/
def execVred (d : Opnd) (a op : Nat) (s : State) : Host.Outcome State Fault Refusal :=
  oneValue d [.v a] [] (fun c => lanesOf c.active) (redMode op)
    (fun c =>
      let r := redValue c op ((lanesOf c.active).map fun l => (c.src (.v a) l).toNat)
      (if decide (c.ty ≤ 5) && decide (c.ty % 2 = 0) then (BitVec.ofNat 32 r.1).signExtend 64 else BitVec.ofNat 64 r.1, r.2)) s

/-- VSCAN (R295). -/
def execVscan (d a : Opnd) (op : Nat) (ex _hold : Bool) (s : State) : Host.Outcome State Fault Refusal :=
  finish s (do
    let c := s.cur
    c.check s.curL ⟨[a], [], [d]⟩ (lanesOf c.active) (redMode op c)
    let at1 := fun l => redValue c op
      (((lanesOf c.active).filter fun k => if ex then decide (k < l) else decide (k ≤ l)).map fun k => (c.src a k).toNat)
    let k := c.writeLanes d c.active fun l => BitVec.ofNat 32 (at1 l).1
    .ok ((s.setCur ((k.flag ((lanesOf c.active).foldl (fun f l => f ||| (at1 l).2) 0)).stepIndexes [d, a])).retire 4))

/-- RND's column in a lane (R296). -/
def State.rndColumn (s : State) (l : Nat) : W32 :=
  BitVec.ofNat 32 ((s.curW.w * s.curL.ncrs + s.curCrs) * 32 + l)

/-- RND (R296). -/
def execRnd (d a b : Opnd) (s : State) : Host.Outcome State Fault Refusal :=
  finish s (do
    let c := s.cur
    c.check s.curL ⟨[a], [b], [d]⟩ (c.pathLanes [d, a, b]) (.ok ())
    let key := s.curL.seed ^^^ c.src64 a
    let k :=
      if allScalar [d, a, b] then c.writeScalar d ((reed key (c.src b 0) (s.rndColumn 0)).setWidth 64)
      else (c.writeLanes d c.active fun l => reed key (c.src b l) (s.rndColumn l)).stepIndexes [d, a, b]
    .ok ((s.setCur k).retire 4))

-- ## Index registers (R297)

/-- XSET. -/
def execXset (x : Nat) (a : Opnd) (_hold : Bool) (s : State) : Host.Outcome State Fault Refusal :=
  finish s (do
    let c := s.cur
    c.check s.curL ⟨[a], [], []⟩ [0] (.ok ())
    need (decide ((c.src64 a).toNat < 2 ^ 20)) illegal
    .ok ((s.setCur (c.setX x { c.xreg x with ctl := (c.src64 a).setWidth 32 })).retire 4))

/-- The offsets of the active lanes replaced. -/
def XReg.setOffs (r : XReg) (m : W32) (f : Nat → Nat) : XReg :=
  { r with off := Vector.ofFn fun l : Fin 32 => if m.getLsbD l.val then BitVec.ofNat 6 (f l.val) else r.off[l.val] }

/-- XOFF: on the vector path whatever its source; an offset above 63 traps for its lowest lane. The upper 16 lanes' offsets are a unit
of their own (R90). -/
def execXoff (x : Nat) (a : Opnd) (_hold : Bool) (s : State) : Host.Outcome State Fault Refusal :=
  finish s (do
    let c := s.cur
    c.check s.curL ⟨[a], [], []⟩ (lanesOf c.active) (.ok ())
    match firstLane (lanesOf c.active) fun l => decide (63 < (c.src a l).toNat) with
    | some l => .error (.trap { code := 0x05, lane := l })
    | none =>
      let k := c.stepIndexes [a]
      let k := k.setX x ((k.xreg x).setOffs c.active fun l => (c.src a l).toNat)
      .ok ((s.setCur (if c.active.toNat / 2 ^ 16 = 0xFFFF then k.putStrip (3 + 2 * x) false else k)).retire 4))

/-- XADD: adds to the offsets, stepped first where the source resolves through the same register. -/
def execXadd (x : Nat) (a : Opnd) (_hold : Bool) (s : State) : Host.Outcome State Fault Refusal :=
  finish s (do
    let c := s.cur
    c.check s.curL ⟨[a], [], []⟩ (lanesOf c.active) (.ok ())
    let k := c.stepIndexes [a]
    let r := k.xreg x
    let m : Nat := if r.wrapped then r.bound else 64
    .ok ((s.setCur (k.setX x (r.setOffs c.active fun l =>
      (((r.off.toArray.getD l 0).toNat + (c.src a l).toInt) % (m : Int)).toNat))).retire 4))

/-- XRD. -/
def execXrd (d : Opnd) (x : Nat) (s : State) : Host.Outcome State Fault Refusal :=
  oneValue d [] [] (fun _ => []) (fun _ => .ok ()) (fun c => ((c.xreg x).ctl.setWidth 64, 0)) s

/-- XRDO. -/
def execXrdo (d : Opnd) (x : Nat) (s : State) : Host.Outcome State Fault Refusal :=
  finish s (do
    let c := s.cur
    c.check s.curL ⟨[], [], [d]⟩ (lanesOf c.active) (.ok ())
    let k := c.writeLanes d c.active fun l => ((c.xreg x).off.toArray.getD l 0).setWidth 32
    .ok ((s.setCur (k.stepIndexes [d])).retire 4))

/-- XCLR: both units of the register are written whole (R90). -/
def execXclr (x : Nat) (s : State) : Host.Outcome State Fault Refusal :=
  .next ((s.setCur (((s.cur.setX x .zero).putStrip (2 + 2 * x) false).putStrip (3 + 2 * x) false)).retire 4)

-- ## Special registers (R298 to R300)

/-- The workgroup's cohort number and rank (R172, R173). -/
def State.cohort (s : State) : Nat × Nat :=
  if s.curL.coh ≤ 1 then (0, 0) else (s.curW.w / s.curL.coh, s.curW.w % s.curL.coh)

/-- The value of a special register; LANE is read per lane (R298). -/
def State.special (s : State) (n : Nat) : W64 :=
  let c := s.cur
  let l := s.curL
  let w := s.curW.w
  let nat := fun (v : Nat) => BitVec.ofNat 64 v
  match n with
  | 0x00 => s.cycle
  | 0x01 => nat (s.dtime / 2 ^ 16)
  | 0x02 => c.dtfrac.setWidth 64
  | 0x03 => c.ctimer
  | 0x04 => c.ctlim
  | 0x05 => c.fstat.setWidth 64
  | 0x06 => c.repst.setWidth 64
  | 0x07 => c.exec.setWidth 64
  | 0x08 => l.partw
  | 0x09 => l.seed
  | 0x0A => nat l.gx
  | 0x0B => nat l.gy
  | 0x0C => nat l.gz
  | 0x0D => nat (w % l.gx)
  | 0x0E => nat (w / l.gx % l.gy)
  | 0x0F => nat (w / l.gx / l.gy)
  | 0x10 => nat w
  | 0x11 => nat l.ncrs
  | 0x12 => nat s.curCrs
  | 0x14 => nat s.cohort.1
  | 0x15 => nat s.cohort.2
  | 0x16 => nat s.curW.tries
  | 0x17 => s.ownPeer.setWidth 64
  | _ => 0

/-- SRD (R299): a read of DTIME latches DTFRAC (R298). REPST reads as it stands, within a repetition with DONE
counting the repetitions complete (R255). -/
def execSrd (d : Opnd) (n : Nat) (s : State) : Host.Outcome State Fault Refusal :=
  finish s (do
    let c := s.cur
    c.check s.curL ⟨[], [], [d]⟩ (c.pathLanes [d]) (.ok ())
    let v := s.special n
    let k0 := if n = 0x01 then { c with dtfrac := BitVec.ofNat 16 (s.dtime % 2 ^ 16) } else c
    let k :=
      if d.isS then k0.writeScalar d v
      else (k0.writeLanes d c.active fun l => if n = 0x13 then BitVec.ofNat 32 l else v.setWidth 32).stepIndexes [d]
    .ok ((s.setCur k).retire 4))

/-- Writes a special register that is RW (R298, R299). -/
def Course.setSpecial (c : Course) (n : Nat) (v : W64) : Course :=
  match n with
  | 0x03 => { c with ctimer := v }
  | 0x04 => { c with ctlim := v }
  | 0x05 => { c with fstat := v.setWidth 32 }
  | _ => { c with exec := v.setWidth 32 &&& c.pathMask }

/-- SWR (R299): EXEC is written under the path mask (R176). -/
def execSwr (n : Nat) (a : Opnd) (_hold : Bool) (s : State) : Host.Outcome State Fault Refusal :=
  finish s (do
    let c := s.cur
    c.check s.curL ⟨[a], [], []⟩ [0] (.ok ())
    need (n ≠ 0x05 || decide ((c.src64 a).toNat < 64)) illegal
    .ok ((s.setCur (c.setSpecial n (c.src64 a))).retire 4))

end Sys2Proof.Machine
end

