-- ==== Sys2Proof/Machine/Arbiter.lean ====
section
/-! DEFINITION. The arbiters of the scratchpads: qualified local accesses and local atomics (R55 to R61). -/

namespace Sys2Proof.Machine

-- ## Lanes

/-- A lane's bytes in its scratchpad. -/
def State.readLocal (s : State) (a : LaneAcc) : Nat :=
  match a.tgt with | .scratch u x => (s.wg u).read x a.width | _ => 0

/-- A lane's bytes written to its scratchpad. -/
def State.writeLocal (s : State) (a : LaneAcc) : State :=
  match a.tgt with | .scratch u x => s.setWg u ((s.wg u).write x (bytesOf a.width a.v)) | _ => s

/-- A lane's bytes in its scratchpad are poisoned. -/
def State.localPoison (s : State) (a : LaneAcc) : Bool :=
  match a.tgt with | .scratch u x => (s.wg u).rangePoisoned x a.width | _ => false


/-- The lanes of an atomic in the order that is drawn for it (R86, R311, log entry 5). -/
def rmwOrder (n : Nat) (ls : List LaneAcc) : List LaneAcc :=
  ls.foldl (fun out a =>
    (out.filter fun x => decide (Config.laneRank n x.lane ≤ Config.laneRank n a.lane)) ++ [a]
      ++ (out.filter fun x => !decide (Config.laneRank n x.lane ≤ Config.laneRank n a.lane))) []

/-- A local lane's atomic performed at its home, the L1 line removed (R66). -/
def rmwLane (s : State) (u : Nat) (op rm : Nat) (ftz : Bool) (a : LaneAcc) : State × Nat :=
  match a.tgt with
  | .stack pa =>
    let r := s.homeRmw pa op rm ftz a.v a.c
    (r.1.dropL1 (s.wg u).core fun l => decide (l = pa / 128), r.2)
  | .scratch v x =>
    let old := (s.wg v).read x a.width
    (s.setWg v ((s.wg v).write x (bytesOf a.width (rmwNew op rm ftz old a.v a.c))), old)
  | _ => (s, 0)

-- ## The arbiters' steps (R58, R61)

/-- The lanes not yet performed. -/
def Arb.left (a : Arb) : List LaneAcc := a.lanes.filter fun x => (Tab.find a.done x.lane).isNone

/-- Nothing of the instruction is left to perform. -/
def Arb.over (a : Arb) : Bool := a.bad.isSome || a.left.isEmpty

/-- The lanes left in one scratchpad. -/
def Arb.part (a : Arb) (pad : Nat) : List LaneAcc := a.left.filter fun x => decide (x.granule.1 = pad)

/-- The scratchpads whose part is left, in the order of the lanes (log entry 62). -/
def Arb.pads (a : Arb) : List Nat := (a.left.map fun x => x.granule.1).eraseDups

/-- A granule is in the state that a qualified access needs. -/
def State.granuleIs (s : State) (full : Bool) (g : Nat × Nat) : Bool := (s.wg g.1).full g.2 == full

/-- The part of an instruction in a scratchpad can be performed: every granule that it touches there is in the needed state, and
the scratchpad's core is not frozen (R406). -/
def State.partReady (s : State) (a : Arb) (pad : Nat) : Bool :=
  !(s.core (s.wg pad).core).frozen
    && (match a.need with
      | none => true
      | some full => (granulesOf (a.part pad)).all (s.granuleIs full))

/-- The lowest lane that a read or an atomic finds poisoned among the parts that can be performed (R91). -/
def State.arbPoison (s : State) (a : Arb) : Option LaneAcc :=
  if a.op = .write then none else a.left.find? fun x => s.partReady a x.granule.1 && s.localPoison x

/-- One arbitration step: every lane of the part performs its access, then its granules take their new state (R58, R59).
Poison that a read or an atomic meets ends the instruction: no lane of what can be performed has an effect, and granules that
parts performed before have changed are again as they were (R91, log entry 62). -/
def State.servePart (s : State) (u c pad : Nat) : State :=
  match (s.crs u c).arb with
  | none => s
  | some a =>
    let mine := a.part pad
    match s.arbPoison a with
    | some l => (s.unperform a).setCrs u c { (s.unperform a).crs u c with arb := some { a with done := [], bad := some (l.lane, l.va) } }
    | none =>
      let r : State × Tab Nat :=
        match a.op with
        | .read => (s, mine.map fun x => (x.lane, s.readLocal x))
        | .write => (mine.foldl State.writeLocal s, mine.map fun x => (x.lane, 0))
        | .rmw op rm ftz => (rmwOrder s.steps mine).foldl (fun (t : State × Tab Nat) x =>
            let y := rmwLane t.1 u op rm ftz x
            (y.1, t.2 ++ [(x.lane, y.2)])) (s, [])
      let t := match a.after with
        | none => r.1
        | some full => r.1.markGranules (granulesOf mine) full
      t.setCrs u c { t.crs u c with arb := some { a with done := r.2.foldl (fun q e => Tab.set q e.1 e.2) a.done } }

/-- The qualified local instructions that wait: workgroup, course, and what waits. Those of a frozen core or an aborted grid do
nothing; a halted course's is performed all the same (R60). -/
def State.waiting (s : State) : List (Nat × Nat × Arb) :=
  s.wgs.flatMap fun w =>
    if w.2.status ≠ .resident ∨ (s.core w.2.core).frozen ∨ (s.grid w.2.gid).abort.isSome then []
    else w.2.courses.filterMap fun k => match k.2.arb with
      | some a => if a.over then none else some (w.1, k.1, a)
      | none => none

/-- The oldest of the waiting instructions with a part that can be performed, and that part's scratchpad (R61). -/
def State.nextServed (s : State) : Option (Nat × Nat × Nat) :=
  let ready := s.waiting.filterMap fun x => (x.2.2.pads.find? (s.partReady x.2.2)).map fun p => (x.2.2.age, x.1, x.2.1, p)
  (ready.find? fun x => ready.all fun y => decide (x.1 ≤ y.1)).map Prod.snd

/-- The arbiters' steps, one after the other, as long as one can be taken; at most `n`. -/
def State.serveUpTo (s : State) (n : Nat) : State :=
  match n with
  | 0 => s
  | m + 1 => match s.nextServed with
    | some (u, c, p) => (s.servePart u c p).serveUpTo m
    | none => s

/-- Every part that can be performed is performed; each step takes one of the parts that are left. -/
def State.serve (s : State) : State := s.serveUpTo ((s.waiting.map fun x => x.2.2.pads.length).foldl (· + ·) 0)

-- ## The instruction's side (R60, R308)

/-- A course's qualified local instruction reaches the arbiters, younger than every one that waits there; its destination turns
empty (R308), and whatever can be performed is. -/
def State.present (s : State) (need after : Option Bool) (op : LocalOp) (dst : List Opnd) (ls : List LaneAcc) : State :=
  let c := s.cur
  let r := joinRegs (dst.map (c.writeRegs s.curL))
  let m := if r.2.isEmpty then (r.1, false) else (r.2.filter (· ≠ 0), true)
  let k := dst.foldl (fun k d => k.markDst s.curL d false) c
  (s.setCur { k with arb := some ⟨s.stamp, need, after, op, ls, [], m.1, m.2, none⟩ }).fresh.serve

/-- A producer that has come from the arbiters gives nothing to the registers that a debugger has forced full meanwhile (R407). -/
def Course.spare (c : Course) (id : Nat) (a : Arb) : Course :=
  match c.flights.find? fun f => decide (f.id = id) with
  | none => c
  | some f =>
    let gone := f.marks.filter fun n => !a.marks.contains n
    let k := gone.foldl (fun (k : Course) n => if f.scal then k.markS n true else k.markV n true) c
    { k with flights := k.flights.map fun x => if x.id = id then { x with marks := x.marks.filter a.marks.contains } else x }

/-- What comes of an instruction at the arbiters: it completes by `done` with the lanes' values once every part is performed, takes
the memory-error trap of a lane that met poison (R91), or waits for the granules left (R60). -/
def State.arbitrated (s : State) (done : State → Tab Nat → State) : R State :=
  match s.cur.arb with
  | none => .error .again
  | some a =>
    match a.bad with
    | some (l, va) => .error (.after (s.unarb s.curWg s.curCrs) (.trap { code := 0x0A, lane := l, arr := 1, fva := va }))
    | none =>
      if a.left.isEmpty then
        let t := done (s.setCur { s.cur with arb := none }) a.done
        .ok (t.setCur (t.cur.spare s.stamp a))
      else .error (.after s (.wait (.granule (granulesOf a.left) (a.need == some true))))

end Sys2Proof.Machine
end

