-- ==== Sys2Proof/Machine/Remote.lean ====
section
/-! DEFINITION. The records of the links (R127) and the issuer's side of remote memory: requests, routes and their
failures (R99, R107 to R113), batches and close markers (R115 to R119, R126). -/

namespace Sys2Proof

/-- A value-returning request: its reply lands in a flight. -/
def ReqKind.returns : ReqKind → Bool
  | .read => true
  | .rmw _ => true
  | _ => false

/-- The 16-byte units that a store request carries (R422): one, but for a copy's, of up to 16. -/
def RemoteReq.units (r : RemoteReq) : Nat := if r.kind = .write ∧ r.width ≤ 256 then max 1 (r.width / 16) else 1

/-- The bits of an error word for the numbers of a request's units (R107, R118). -/
def RemoteReq.errorBits (r : RemoteReq) : Nat := (List.range r.units).foldl (fun e k => e ||| 2 ^ ((r.seqno + k) % 32)) 0

end Sys2Proof

namespace Sys2Proof.Machine

-- ## Rotation slots (R104, R106)

/-- Length of slot `i` in ns. -/
def Link.slotLen (l : Link) (i : Nat) : Nat := (Tab.get .reset l.slots i).slen
/-- The rotation period. -/
def Link.period (l : Link) : Nat := ((List.range l.nslot).map l.slotLen).foldl (· + ·) 0
/-- The slot that contains an offset of the period, and the time since it began. -/
def slotGo (l : Link) (off : Nat) (is : List Nat) : Option (Nat × Nat) :=
  match is with
  | [] => none
  | i :: r => if off < l.slotLen i then some (i, off) else slotGo l (off - l.slotLen i) r
/-- The slot at a device time in ns, and the time since it began. -/
def Link.slotAt (l : Link) (ns : Nat) : Option (Nat × Nat) :=
  if l.period = 0 then none
  else slotGo l (((ns : Int) - l.t0) % (l.period : Int)).toNat (List.range l.nslot)

/-- The number of the period under way (R104). -/
def Link.periodAt (l : Link) (ns : Nat) : Int := ((ns : Int) - l.t0) / (l.period : Int)

/-- The peer of the first slot with SV = 1 from the one under way on. -/
def Link.nextHop (l : Link) (ns : Nat) : Option Nat :=
  match l.slotAt ns with
  | some (i, _) =>
    ((List.range l.nslot).map fun k => Tab.get RotSlot.reset l.slots ((i + k) % l.nslot)).findSome? fun r =>
      if r.sv then some r.speer else none
  | none => none

/-- The peer that a link can send to at a device time: LPEER in phase mode; in rotation mode the peer of the slot that is
under way, whose guard has ended, when it carries traffic. -/
def Link.sendsTo (l : Link) (ns : Nat) : Option Nat :=
  if l.lmode = 2 then
    match l.slotAt ns with
    | some (i, off) =>
      let r := Tab.get .reset l.slots i
      if l.curSlot = some i ∧ l.curPeriod = l.periodAt ns ∧ 400 ≤ off ∧ r.sv then some r.speer else none
    | none => none
  else some l.lpeer

-- ## Link events (R127)

/-- The peer that a link faces at a device time in ns: LPEER, or the SPEER of the slot under way. -/
def Link.faces (l : Link) (ns : Nat) : Nat :=
  if l.lmode = 2 then (match l.slotAt ns with | some (k, _) => (Tab.get .reset l.slots k).speer | none => 0) else l.lpeer

/-- A link event (R127), detected at a device time, with LIGHT as it was then. -/
def State.linkEventAt (s : State) (time light l type before after first count extra : Nat) : State :=
  let x := s.link l
  s.postEvent 1 (bytesOf 1 type ++ bytesOf 1 l ++ bytesOf 8 (time / 2 ^ 16) ++ bytesOf 2 (time % 2 ^ 16)
    ++ bytesOf 2 (x.faces (time / 2 ^ 16)) ++ bytesOf 1 (before + after * 16)
    ++ bytesOf 1 0 ++ bytesOf 2 light ++ bytesOf 2 first ++ bytesOf 2 (min count 0xFFFF) ++ bytesOf 2 0 ++ bytesOf 8 extra)

/-- A link event detected now. -/
def State.linkEvent (s : State) (l type before after first count extra : Nat) : State :=
  s.linkEventAt s.dtime (s.link l).light l type before after first count extra

/-- Device time as the moment of a sending, which is never 0. -/
def State.moment (s : State) : Nat := max 1 s.dtime

-- ## Requests

/-- The name of a course on the fabric. -/
def courseKey (u c : Nat) : Nat := u * 32 + c


/-- The number under which the accesses of the Umhal port to other modules are kept (R412): that of no workgroup, with one course, whose
flight waits for what comes back (log entry 38). -/
def hostUid : Nat := 2 ^ 60

/-- A flight changed, by its number, in a course. -/
def Course.mapFlight (k : Course) (id : Nat) (f : Flight → Flight) : Course :=
  { k with flights := k.flights.map fun x => if x.id = id then f x else x }

/-- The CLOSEB flights of a batch that count a store of stamp `tag`, changed by `g`. -/
def Course.mapClose (k : Course) (batch tag : Nat) (g : FlightKind → FlightKind) : Course :=
  { k with flights := k.flights.map fun (f : Flight) =>
      match f.kind with
      | .closeb bt _ _ _ _ _ => if bt = batch ∧ tag < f.id then { f with kind := g f.kind } else f
      | _ => f }

/-- The flight is a CLOSEB of a batch. -/
def Flight.closes (f : Flight) (batch : Nat) : Bool :=
  match f.kind with
  | .closeb bt _ _ _ _ _ => decide (bt = batch)
  | _ => false

/-- A CLOSEB flight of the batch counts a store of stamp `tag`. -/
def Course.closing (k : Course) (batch tag : Nat) : Bool :=
  k.flights.any fun f => match f.kind with
    | .closeb bt _ _ _ _ _ => decide (bt = batch) && decide (tag < f.id)
    | _ => false

/-- The issuer's link layer answers for a peer with all ones, once (R126). -/
def FlightKind.answer (peer : Nat) : FlightKind → FlightKind
  | .closeb bt ps sn got er mt =>
    if ps.contains peer && !(got.any fun (g : Nat × Nat) => decide (g.1 = peer)) then
      .closeb bt ps sn (got ++ [(peer, 0xFFFFFFFF)]) er mt
    else .closeb bt ps sn got er mt
  | k => k

/-- A store that failed before any link took it sets its bit (log entry 17). -/
def FlightKind.mark (e : W32) : FlightKind → FlightKind
  | .closeb bt ps sn got er mt => .closeb bt ps sn got (er ||| e) mt
  | k => k

/-- A link has carried a store of the batch to a peer. -/
def FlightKind.carried (p : Nat × Nat) : FlightKind → FlightKind
  | .closeb bt ps sn got er none => .closeb bt ps (if sn.contains p then sn else sn ++ [p]) got er none
  | k => k

/-- What comes back for an engine command of a workgroup. -/
def State.answerCmd (s : State) (u id : Nat) (f : Cmd → Cmd) : State :=
  if (s.wg u).cmds.any fun m => decide (m.id = id) then s.setWg u ((s.wg u).mapCmd id f) else s

/-- A request ends here with a failing status (R99, R112, R113, R126): a load or atomic marks its lane failed; a store
or reduction store leaves its number in the batch's error bits, or under LINKDOWN the peer to the link layer's own
answer. -/
def State.failReq (s : State) (tag status : Nat) : State :=
  match s.reqs.find? fun r => decide (r.tag = tag) with
  | none => s
  | some r =>
    let t := { s with reqs := s.reqs.filter fun x => x.tag ≠ tag }
    let k := t.crs r.uid r.crs
    if r.req.kind.returns then
      (t.setCrs r.uid r.crs (k.mapFlight r.flight fun f => { f with fails := Tab.set f.fails r.lane status })).answerCmd r.uid
        r.flight fun m => { m with fails := Tab.set m.fails r.lane status }
    else if status = 5 then
      if k.closing r.req.batch r.ord then t.setCrs r.uid r.crs (k.mapClose r.req.batch r.ord (FlightKind.answer r.req.dest))
      else t.setCrs r.uid r.crs (k.mapBatch r.req.batch fun b => { b with down := r.req.dest :: b.down })
    else
      let e : W32 := BitVec.ofNat 32 r.req.errorBits
      if k.closing r.req.batch r.ord then t.setCrs r.uid r.crs (k.mapClose r.req.batch r.ord (FlightKind.mark e))
      else t.setCrs r.uid r.crs (k.mapBatch r.req.batch fun b => { b with errs := b.errs ||| e })

/-- The set bits of LINKS, ascending. -/
def linkBits (e : Nat) : List Nat := (List.range 16).filter fun j => bit e j

/-- A route entry's RELAY. -/
def routeRelay (e : Nat) : Bool := bit e 16
/-- A route entry's HOLD; an entry with a reserved bit set counts as LINKS = 0 and HOLD = 0 (R96). -/
def routeHold (e : Nat) : Bool := bit e 17 && decide (e < 2 ^ 18)
/-- A route entry's links. -/
def routeLinks (e : Nat) : List Nat := if e < 2 ^ 18 then linkBits e else []

/-- The slots of a rotating link that carry traffic to a peer. -/
def Link.slotsFor (l : Link) (peer : Nat) : List Nat :=
  (List.range l.nslot).filter fun i =>
    let r := Tab.get .reset l.slots i
    r.sv && decide (r.speer = peer)

/-- Where an access goes now (R99, R105): it waits, fails with a status, or takes a link. -/
inductive Route where
  | wait
  | fail (status : Nat)
  | go (link : Nat)
deriving DecidableEq, Repr

/-- The entry for a peer relays (R100). -/
def State.relays (s : State) (peer : Nat) : Bool := routeRelay (Tab.get 0 s.routes peer).toNat

/-- What a chosen link says to an access toward a peer (R99, R105). In rotation mode a slot must name the peer; with RELAY = 1
the module at the far end of any slot that carries traffic is the relay (log entry 61). -/
def State.linkAnswer (s : State) (j peer : Nat) : Route :=
  let l := s.link j
  let slots := if s.relays peer then (List.range l.nslot).filter fun i => (Tab.get RotSlot.reset l.slots i).sv else l.slotsFor peer
  if l.state = 1 ∨ l.state = 3 then .wait
  else if l.state ≠ 2 then .fail 5
  else if l.lmode = 2 ∧ slots.isEmpty then .fail 1
  else .go j

/-- The link of a request by its peer and address (R99): link h mod m of the set bits, h being PA[17:12]. -/
def State.routePick (s : State) (peer pa : Nat) : Route :=
  let e := (Tab.get 0 s.routes peer).toNat
  let ls := routeLinks e
  if routeHold e then .wait
  else match ls[bits pa 17 12 % max 1 ls.length]? with
    | none => .fail 1
    | some j => .go j

/-- The route of a request (R99). -/
def State.routeOf (s : State) (peer pa : Nat) : Route :=
  match s.routePick peer pa with
  | .go j => s.linkAnswer j peer
  | r => r

/-- The route of a reply or a summary: any link set for the peer, freely chosen (R100). -/
def State.routeBack (s : State) (peer : Nat) : Route :=
  let e := (Tab.get 0 s.routes peer).toNat
  let ls := routeLinks e
  if routeHold e then .wait
  else match pickFrom ls (Config.replyLink s.steps) with
    | none => .fail 1
    | some j => s.linkAnswer j peer

/-- The flit class of a request, and of a reply (R121). -/
def clsRequest : Nat := 4
/-- Class 5. -/
def clsReply : Nat := 5
/-- Class 6. -/
def clsControl : Nat := 6

/-- The module at the far end that a packet toward a peer is queued for: in rotation mode the next slot's peer where the
entry relays (R100, R105). -/
def State.hopOf (s : State) (j cls peer : Nat) : Nat :=
  if (s.link j).lmode = 2 ∧ (cls = clsRequest ∨ cls = clsReply) ∧ s.relays peer then
    ((s.link j).nextHop (s.dtime / 2 ^ 16)).getD peer
  else peer

/-- What the first flit of a request names (R107, R422): of a store its address, batch, first sequence number and width, which is
16 bytes for each unit. -/
def reqWords (r : RemoteReq) : List Nat :=
  let k := match r.kind with | .read => [0, 0] | .write => [1, 0] | .rmw op => [2, op] | .red op => [3, op]
  k ++ [r.issuer, r.dest, r.pa, r.width, r.cmp, r.rm, ofBool r.ftz, r.key, r.batch, r.seqno, r.tag, ofBool r.relayed]

/-- The data of a request: what it stores, or an atomic's operand. -/
def reqData (r : RemoteReq) : List Byte := if r.kind = .read then [] else bytesOf r.width r.data

/-- What the first flit of a packet names, and the bytes that follow it in 64-byte flits (R121, R372, R422). -/
def State.packet (s : State) : Carry → List Nat × List Byte
  | .request tag => match s.reqs.find? fun r => decide (r.tag = tag) with
    | some r => (reqWords r.req, reqData r.req)
    | none => ([], [])
  | .relay r => (reqWords r, reqData r)
  | .reply issuer tag status data => ([4, issuer, tag, status, data / 2 ^ 8192], bytesOf 1024 data)
  | .relayMarker issuer key batch links => ([5, issuer, key, batch, links], [])
  | .summary issuer key batch peer errors => ([6, issuer, key, batch, peer], bytesOf 4 errors)
  | .chunk _ c => ([c.peer, c.link, c.size], c.bytes)
  | .control _ n => ([n], [])

/-- The field of valid bytes and the payload of flit `i` of a packet whose payload is of `n` bytes; a link-control flit carries its
number (log entry 23). -/
def State.flitLoad (s : State) (c : Carry) (n i : Nat) : Nat × Nat :=
  let p := s.packet c
  match c with
  | .control _ k => (31, k)
  | _ =>
    if i = 0 then ((Config.packetHead p.1).1 % 32, (Config.packetHead p.1).2 % 2 ^ 512)
    else
      let here := min 64 (n - 64 * (i - 1))
      ((here + 1) / 2 - 1, leBytes ((p.2.drop (64 * (i - 1))).take here))

/-- A flit queued on a link: it gets its number when it is sent. -/
def State.enqueueTo (s : State) (l cls hop dest : Nat) (first fin : Bool) (c : Carry) (load : Nat × Nat) : State :=
  s.setLink l { s.link l with tx := (s.link l).tx ++ [⟨0, cls, hop, dest, 0, first, fin, c, load.1, load.2⟩] }

/-- A packet of one flit queued on a link toward a peer. -/
def State.enqueue (s : State) (l cls peer : Nat) (c : Carry) : State :=
  s.enqueueTo l cls (s.hopOf l cls peer) peer true true c (s.flitLoad c 0 0)

/-- Flits of a packet of `n` payload bytes: one that names it, and one for each 64 bytes or part of them (R422). -/
def flitsFor (n : Nat) : Nat := 1 + (n + 63) / 64

/-- A packet's flits queued on a link: all but the last are unfinished (R105, R121). -/
def State.enqueueMany (s : State) (l cls peer n : Nat) (c : Carry) : State :=
  (List.range (flitsFor n)).foldl
    (fun t i => t.enqueueTo l cls (s.hopOf l cls peer) peer (decide (i = 0)) (decide (i + 1 = flitsFor n)) c (s.flitLoad c n i)) s

/-- A reply, a summary or a marker takes its route, waits for it, or is lost where there is none (R100). -/
def State.sendPlain (s : State) (cls peer n : Nat) (c : Carry) : State :=
  match s.routeBack peer with
  | .wait => { s with backlog := s.backlog ++ [⟨cls, peer, n, c⟩] }
  | .fail _ => s
  | .go j => s.enqueueMany j cls peer n c

/-- A reply to a request goes back to its issuer. -/
def State.replyTo (s : State) (r : RemoteReq) (status n data : Nat) : State :=
  s.sendPlain clsReply r.issuer n (.reply r.issuer r.tag status data)

/-- A forwarded store of a course's batch that is still on its way through this module on another link than `j`. -/
def State.relayedAhead (s : State) (issuer key batch j : Nat) : Bool :=
  let mine := fun (c : Carry) => match c with
    | .relay r => decide (r.issuer = issuer) && decide (r.key = key) && decide (r.batch = batch) && !r.kind.returns
    | _ => false
  (s.backlog.any fun b => mine b.carry)
    || (List.range 16).any fun i => decide (i ≠ j) && (((s.link i).tx ++ (s.link i).replay).any fun f => mine f.carry)

/-- What this module sends back or forwards: a forwarded request takes the link of its address, and its issuer is told
where it cannot go on (R100). A forwarded marker follows the batch's stores that this module has forwarded, those on other
links once they are acknowledged (R118). -/
def State.sendBack (s : State) (cls peer n : Nat) (c : Carry) : State :=
  match c with
  | .relay r =>
    match s.routeOf r.dest r.pa with
    | .wait => { s with backlog := s.backlog ++ [⟨cls, peer, n, c⟩] }
    | .fail st => s.replyTo r st 0 0
    | .go j => s.enqueueMany j cls peer n c
  | .relayMarker issuer key batch _ =>
    match s.routeOf peer 0 with
    | .wait => { s with backlog := s.backlog ++ [⟨cls, peer, n, c⟩] }
    | .fail _ => s
    | .go j =>
      if s.relayedAhead issuer key batch j then { s with backlog := s.backlog ++ [⟨cls, peer, n, c⟩] }
      else s.enqueueMany j cls peer n c
  | _ => s.sendPlain cls peer n c

/-- A flit that carries the request of a number. -/
def TxFlit.carries (f : TxFlit) (tag : Nat) : Bool := match f.carry with | .request n => decide (n = tag) | _ => false

/-- A request is not yet certain to reach its target before one that takes link `j`: it has no link, or is on another link
and unanswered, unsent or unacknowledged (R155). -/
def State.unsettled (s : State) (x : Req) (j : Nat) : Bool :=
  match x.link with
  | none => true
  | some i => decide (i ≠ j) && (x.req.kind.returns || !x.sent || (s.link i).replay.any fun f => f.carries x.tag)

/-- The request reads a remote cached page: a whole slate, or the bytes of an acquire (R110, R157). -/
def State.readsCopy (s : State) (r : Req) : Bool :=
  decide (r.req.kind = .read) && (decide (r.req.width = 1024) ||
    (s.crs r.uid r.crs).flights.any fun f => decide (f.id = r.flight) && f.lanes.any fun a =>
      decide (a.lane = r.lane) && (match a.tgt with | .cached _ _ => true | _ => false))

/-- A course's request waits for its earlier acquires (R157), and for its earlier requests to the same bytes of its target
(R155); an atomic for what the release fences before it order (R138). What an engine asks for, whose place in order is not its
tag, is in no order with them (R153). A read of a remote cached slate waits for every earlier one of this module, so that no
course takes a newer value than the copy has that a later read of it finds (R158, log entry 94). -/
def State.behind (s : State) (r : Req) (j : Nat) : Bool :=
  let fl := (s.crs r.uid r.crs).flights
  let writes := match r.req.kind with | .rmw _ => true | _ => false
  decide (r.ord = r.tag)
    && ((fl.any fun f => f.acq && decide (f.id < r.flight || r.flight = 0 && f.id < r.ord))
      || (writes && fl.any fun f => decide (f.id = r.flight) && !s.mayPerform r.uid r.crs f.id f.orderedFrom [])
      || s.reqs.any fun x => decide (x.ord = x.tag) && decide (x.tag < r.tag) && decide (x.uid = r.uid) && decide (x.crs = r.crs)
        && decide (x.req.dest = r.req.dest) && overlaps x.req.pa x.req.width r.req.pa r.req.width && s.unsettled x j)
    || (s.readsCopy r && s.reqs.any fun x => decide (x.tag < r.tag) && decide (x.req.dest = r.req.dest)
        && decide (slateOf x.req.pa = slateOf r.req.pa) && s.readsCopy x)

/-- The link that a request has chosen: it keeps the one it first took from the route entry (R99). -/
def State.routeFor (s : State) (r : Req) : Route :=
  match r.chosen with
  | some j => .go j
  | none => s.routePick r.req.dest r.req.pa

/-- What a request changes in its own record. -/
def State.mapReq (s : State) (tag : Nat) (f : Req → Req) : State :=
  { s with reqs := s.reqs.map fun x => if x.tag = tag then f x else x }

/-- The answer of a request for a flight or an engine command, with what a copy of a slate gives for the bytes that each reads
(R110): a lane of the flight, or unit `lane` of the command's piece. -/
def State.answerReq (s : State) (r : Req) (v : Nat) : State :=
  let k := s.crs r.uid r.crs
  (s.setCrs r.uid r.crs (k.mapFlight r.flight fun f => { f with got := Tab.set f.got r.lane v })).answerCmd r.uid r.flight
    fun m => { m with got := Tab.set m.got r.lane v }

/-- The bytes of a fetched slate that the lane of a request reads, from the first one on: all of it where no lane asks. -/
def State.laneSpan (s : State) (r : Req) : Nat × Nat :=
  match (s.crs r.uid r.crs).flights.findSome? fun f => if f.id = r.flight then f.lanes.find? fun a => decide (a.lane = r.lane) else none with
  | some a => (match a.tgt with | .cached _ pa => (pa % 1024, a.width) | _ => (0, r.req.width))
  | none => (0, r.req.width)

/-- What the lane of a request takes of a slate. -/
def State.laneValue (s : State) (r : Req) (data : Nat) : Nat :=
  data / 2 ^ (8 * (s.laneSpan r).1) % 2 ^ (8 * (s.laneSpan r).2)

/-- The copy of a remote slate that a request's bytes lie in. -/
def State.copyOf (s : State) (r : Req) : Option RCopy :=
  s.copies.find? fun c => decide (c.peer = r.req.dest) && decide (c.slate = slateOf r.req.pa)

/-- One waiting request is routed: it keeps waiting, is answered by a copy that has come meanwhile (R110), fails, or joins a
link's queue with the batch noting the link. -/
def State.routeReq (s : State) (r : Req) : State :=
  if r.link.isSome then s
  else match (if r.req.kind = .read ∧ r.req.width = 1024 then s.copyOf r else none) with
  | some c => { s with reqs := s.reqs.filter fun x => x.tag ≠ r.tag }.answerReq r (s.laneValue r (leBytes c.data))
  | none =>
  match s.routeFor r with
    | .wait => s
    | .fail st => s.failReq r.tag st
    | .go j =>
      if s.behind r j then s
      else match s.linkAnswer j r.req.dest with
    | .wait => s.mapReq r.tag fun x => { x with chosen := some j }
    | .fail st => s.failReq r.tag st
    | .go _ =>
      let t := s.mapReq r.tag fun x => { x with link := some j }
      let t1 := t.enqueueMany j clsRequest r.req.dest (if r.req.kind = .read then 0 else r.req.width) (.request r.tag)
      if r.req.kind.returns then t1
      else
        let k := t1.crs r.uid r.crs
        let p := (r.req.dest, j)
        if k.closing r.req.batch r.ord then t1.setCrs r.uid r.crs (k.mapClose r.req.batch r.ord (FlightKind.carried p))
        else t1.setCrs r.uid r.crs (k.mapBatch r.req.batch fun b =>
          { b with sent := if b.sent.contains p then b.sent else b.sent ++ [p] })

/-- Every waiting request looks at its route. -/
def State.routeWaiting (s : State) : State :=
  if s.reqs.all fun r => r.link.isSome then s
  else s.reqs.foldl (fun t r => match t.reqs.find? (fun x => decide (x.tag = r.tag)) with
    | some x => t.routeReq x
    | none => t) s

/-- Every waiting request, and everything of the backlog, looks at its route again: asked after each change of a route
entry or a link's state, and after each step. -/
def State.routeAll (s : State) : State :=
  let t := s.routeWaiting
  t.backlog.foldl (fun u b => u.sendBack b.cls b.peer b.bytes b.carry) { t with backlog := [] }

/-- A request is formed (R107) and routed; it takes the next stamp as its tag; `ord` is its place in program order. -/
def State.formReqAt (s : State) (ord u c flight lane peer pa width data cmp : Nat) (kind : ReqKind)
    (batch seqno rm : Nat) (ftz : Bool) : State :=
  let tag := s.stamp
  let req : RemoteReq :=
    { issuer := s.ownPeer.toNat, dest := peer, pa := pa, kind := kind, width := width, data := data, cmp := cmp, rm := rm,
      ftz := ftz, key := courseKey u c, batch := batch, seqno := seqno, tag := tag, relayed := false }
  let r : Req := { tag := tag, ord := ord, uid := u, crs := c, flight := flight, lane := lane, req := req, formed := s.dtime, link := none,
                   sent := false, chosen := none, keep := true }
  { s.fresh with reqs := s.reqs ++ [r] }.routeReq r

/-- A request of an instruction, whose place in program order is its tag. -/
def State.formReq (s : State) (u c flight lane peer pa width data cmp : Nat) (kind : ReqKind) (batch seqno rm : Nat)
    (ftz : Bool) : State := s.formReqAt s.stamp u c flight lane peer pa width data cmp kind batch seqno rm ftz

/-- Takes a sequence number of a batch toward a peer, which joins its set (R115). -/
def Course.takeSeq (k : Course) (b peer : Nat) : Course × Nat :=
  let x := k.batch b
  (k.setBatch b { x with count := x.count + 1, peers := if x.peers.contains peer then x.peers else x.peers ++ [peer] },
    x.count.toNat)

/-- A remote store or reduction store of a course (R107, R115). -/
def State.remoteStore (s : State) (u c b lane peer pa width data : Nat) (kind : ReqKind) (rm : Nat) (ftz : Bool) : State :=
  let t := (s.crs u c).takeSeq b peer
  (s.setCrs u c t.1).formReq u c 0 lane peer pa width data 0 kind (t.1.batchNo b) t.2 rm ftz

-- ## Closing a batch (R117)

/-- A store of the batch, numbered before `id`, that the link layer has not been handed, or an engine command of it that
still has pieces to hand over, one that has faulted and is to run again included (R352, R354, R423). -/
def State.batchOpen (s : State) (u c b id : Nat) : Bool :=
  (s.reqs.any fun r => decide (r.uid = u) && decide (r.crs = c) && decide (r.req.batch = b) && !r.req.kind.returns
      && !r.sent && decide (r.ord < id))
    || (s.wg u).cmds.any fun m => decide (m.crs = c) && decide (m.id < id) && !m.done
        && (match m.op with | .copyOut _ _ _ bt _ => decide (bt = b) | _ => false)

/-- A close marker of the course's batch waits in a transmit queue. -/
def State.markerQueued (s : State) (u c b : Nat) : Bool :=
  s.links.any fun l => l.2.tx.any fun f => match f.carry with
    | .relayMarker issuer key batch _ => decide (issuer = s.ownPeer.toNat) && decide (key = courseKey u c) && decide (batch = b)
    | _ => false

/-- A CLOSEB's last marker has left at a moment. -/
def FlightKind.left (moment : Nat) : FlightKind → FlightKind
  | .closeb bt ps sn got er _ => .closeb bt ps sn got er (some moment)
  | k => k

/-- Sends the close markers of a batch that has nothing left to hand over: one on every link that carried a store to
each peer (R117), or none to a peer that the link layer answers for (R126). They wait while one of those links takes no
flits, and for an earlier CLOSEB of the batch. Once queued their moment is 0; that of the last one's sending follows (R423). -/
def State.sendMarkers (s : State) (u c : Nat) (f : Flight) : State :=
  match f.kind with
  | .closeb b ps sn got _ none =>
    if s.batchOpen u c b f.id || (s.crs u c).flights.any (fun g => g.closes b && decide (g.id < f.id)) then s
    else
      let asked := sn.filter fun p => ps.contains p.1 && !(got.any fun g => decide (g.1 = p.1))
      if asked.any fun p => (s.link p.2).state ≠ 2 then s
      else
      let t := asked.foldl (fun t p => t.enqueue p.2 clsRequest p.1
        (.relayMarker s.ownPeer.toNat (courseKey u c) b (asked.filter fun q => decide (q.1 = p.1)).length)) s
      t.setCrs u c ((t.crs u c).mapFlight f.id fun x => { x with kind := x.kind.left (if asked.isEmpty then s.moment else 0) })
  | .closeb b _ _ _ _ (some 0) =>
    if s.markerQueued u c b then s
    else s.setCrs u c ((s.crs u c).mapFlight f.id fun x => { x with kind := x.kind.left s.moment })
  | _ => s

/-- Every course's batches whose markers can go now. -/
def State.closeMarkers (s : State) : State :=
  s.wgs.foldl (fun t w => w.2.courses.foldl (fun t k => k.2.flights.foldl (fun t f => t.sendMarkers w.1 k.1 f) t) t) s

/-- 4 ms of device time, in units of 2^-16 ns (R112). -/
def requestTime : Nat := 4000000 * 2 ^ 16

/-- 4 ms have passed since the last marker of a CLOSEB left (R117). -/
def State.closeLate (s : State) (t : Nat) : Bool := decide (t ≠ 0) && decide (t + requestTime ≤ s.dtime)

/-- CLOSEB's result (R117): the OR of the error words, all ones for a peer without a reply, and the replies counted. -/
def closeResult (ps : List Nat) (got : List (Nat × Nat)) (er : W32) : Nat :=
  let here := ps.filter fun p => got.any fun g => decide (g.1 = p)
  let bits := got.foldl (fun a g => a ||| g.2) er.toNat
  (here.length * 2 ^ 32) + (if here.length = ps.length then bits % 2 ^ 32 else 2 ^ 32 - 1)

end Sys2Proof.Machine
end

