-- ==== Sys2Proof/Machine/Control.lean ====
section
/-! DEFINITION. Control flow, MODE and REP, opcodes 0x00 to 0x0F (R254 to R257, R269 to R276). -/

namespace Sys2Proof.Machine

/-- NOP (R275). -/
def execNop (s : State) : Host.Outcome State Fault Refusal := .next (s.retire 4)

/-- The target of a format C branch (R237). -/
def branchTarget (pc : W64) (off : Int) : W64 := pc + BitVec.ofInt 64 (4 * off)

/-- BR (R269). -/
def execBr (off : Int) (s : State) : Host.Outcome State Fault Refusal := .next (s.jump (branchTarget s.cur.pc off))

/-- BRANY (R269): any lane of EXEC with the predicate set; the guard plays no part. -/
def execBrany (p : Nat) (off : Int) (s : State) : Host.Outcome State Fault Refusal :=
  .next (if s.cur.exec &&& s.cur.pred p ≠ 0 then s.jump (branchTarget s.cur.pc off) else s.retire 4)

/-- BRD (R177, R270): one entry is pushed; the taken path runs first. -/
def execBrd (p : Nat) (off : Int) (s : State) : Host.Outcome State Fault Refusal :=
  let c := s.cur
  let t := c.exec &&& c.pred p
  let n := c.exec &&& ~~~t
  let target := branchTarget c.pc off
  let fall := c.pc + 4
  finish s (do
    need (decide (c.depth < 255)) (trapCode 0x03)
    if t = 0 ∨ n = 0 then
      match s.push s.curWg s.curCrs { kind := .diverge, pc := 0, phase := false, mask := c.exec, pend := 0 } with
      | .ok u => .ok (u.jump (if t = 0 then fall else target))
      | .held w => .error (.after w .again)
      | .bad => .error (.abort 4)
    else
      match s.push s.curWg s.curCrs { kind := .diverge, pc := fall, phase := false, mask := c.exec, pend := n } with
      | .ok u => .ok ((u.setCur { u.cur with exec := t }).jump target)
      | .held w => .error (.after w .again)
      | .bad => .error (.abort 4))

/-- JOIN (R177, R271): the deferred path, the end of a divergence, or the return from a trap. -/
def execJoin (s : State) : Host.Outcome State Fault Refusal :=
  let c := s.cur
  finish s (do
    match c.stack with
    | [] => .error (trapCode 0x02)
    | e :: r =>
      match e.kind with
      | .trap => .ok (returnFromTrap s s.curWg s.curCrs e)
      | .diverge =>
        if !e.phase && e.pend ≠ 0 then
          .ok ((s.setCur { c with stack := { e with phase := true } :: r, exec := e.pend }).jump e.pc)
        else
          match s.pop s.curWg s.curCrs with
          | .ok u => .ok ((u.setCur { u.cur with exec := e.mask }).retire 4)
          | .held w => .error (.after w .again)
          | .bad => .error (.abort 4))

/-- The checks of a register jump: its scalars readable, its target aligned (R272). -/
def jumpChecks (s : State) (srcA srcO dst : List Opnd) (target : W64) : R Unit := do
  s.cur.check s.curL ⟨srcA, srcO, dst⟩ [0] (.ok ())
  need (decide (target.toNat % 4 = 0)) (trapCode 0x07)

/-- CALL (R272): the link goes to s[ctl]. -/
def execCall (l : Nat) (off : Int) (s : State) : Host.Outcome State Fault Refusal :=
  let c := s.cur
  finish s (do
    c.check s.curL ⟨[], [], [.s l]⟩ [0] (.ok ())
    .ok ((s.setCur (c.setS l (c.pc + 4))).jump (branchTarget c.pc off)))

/-- CALLR (R272): the target is read before the link is written. -/
def execCallr (d a : Opnd) (s : State) : Host.Outcome State Fault Refusal :=
  let c := s.cur
  finish s (do
    jumpChecks s [a] [] [d] (c.src64 a)
    .ok ((s.setCur (c.writeScalar d (c.pc + 4))).jump (c.src64 a)))

/-- RET (R272). -/
def execRet (a : Opnd) (s : State) : Host.Outcome State Fault Refusal :=
  finish s (do
    jumpChecks s [a] [] [] (s.cur.src64 a)
    .ok (s.jump (s.cur.src64 a)))

/-- JMPR (R272): base plus four times the index, modulo 2^64. -/
def execJmpr (a b : Opnd) (s : State) : Host.Outcome State Fault Refusal :=
  finish s (do
    jumpChecks s [a] [b] [] (s.cur.src64 a + 4 * s.cur.src64 b)
    .ok (s.jump (s.cur.src64 a + 4 * s.cur.src64 b)))

/-- The course ends: it issues nothing further, and its stack, index registers and MODE are gone (R273). -/
def Course.ended (c : Course) : Course :=
  { c.awake with exited := true, stack := [], depth := 0, x := [], mode := 0, sched := .ready }

/-- Whether course c of n has arrived or exited, for every c: the courses' half of a phase (R317). -/
def allArrived (w : Workgroup) (b : Bar) (n : Nat) : Bool :=
  (List.range n).all fun c => b.arr.getLsbD c || (w.crs c).exited

/-- A barrier whose phase is complete begins the next one (R317). -/
def Workgroup.settleBar (w : Workgroup) (n k : Nat) : Workgroup :=
  let b := Tab.get Bar.fresh w.bars k
  if allArrived w b n && decide (b.rcv = b.exp) then
    { w with bars := Tab.put Bar.fresh w.bars k ⟨b.ph + 1, 0, 0, 0⟩ }
  else w

/-- Every barrier of a workgroup looked at again, after an EXIT (R317). -/
def Workgroup.settleBars (w : Workgroup) (l : Launch) : Workgroup :=
  (List.range l.nbar).foldl (fun w k => w.settleBar l.ncrs k) w

/-- The registers of a course that are empty and whose producer has not failed (R273). -/
def Course.unlanded (c : Course) (l : Launch) : List Nat × List Nat :=
  let failed := fun (scal : Bool) (n : Nat) => c.failed.any fun f => decide (f.scal = scal) && f.marks.contains n
  ((List.range l.nv).filter fun n => !c.vIsFull n && !failed false n, (List.range l.ns).filter fun n => !c.sIsFull n && !failed true n)

/-- A CLOSEB into s0, of a batch or of any, awaits its summaries: no register shows it (R314). -/
def Course.closesOut (c : Course) (batch : Option Nat) : Bool :=
  c.flights.any fun f => f.marks.isEmpty && (match f.kind with
    | .closeb bt _ _ _ _ _ => decide (batch.getD bt % 4 = bt % 4)
    | _ => false)

/-- What EXIT and TEND do before the course ends (R273, R323): a copy's fault is reported (R354), every register is full or its
producer has failed, a CLOSEB into s0 has its summaries (R314), and a marked failure is raised. -/
def State.mayEnd (s : State) : R Unit := do
  let c := s.cur
  s.reportPoint
  let e := c.unlanded s.curL
  need (e.1.isEmpty && e.2.isEmpty) (.wait (.regs e.1 e.2))
  need (!c.closesOut none) (.wait .performed)
  match c.failed with
  | f :: _ => .error (.failure f)
  | [] => .ok ()

/-- The course that issues ends (R273): its barriers count it as arrived (R317), and the grid's last EXIT is now (R212). -/
def State.endCourse (s : State) : State :=
  let t := s.setCur s.cur.ended
  (t.setCurW (t.curW.settleBars s.curL)).setGrid s.curW.gid { s.curG with last := s.dtime }

/-- EXIT (R273): waits for the course's producers, raises a pending failure, and ends the course. -/
def execExit (s : State) : Host.Outcome State Fault Refusal :=
  finish s (do
    s.mayEnd
    .ok s.endCourse)

/-- TRAP (R274): the software trap, resumed after it. Code 255 within a handler aborts the grid (R398). -/
def execTrap (code : Nat) (s : State) : Host.Outcome State Fault Refusal :=
  if code = 255 ∧ s.cur.tlev ≠ 0 then .next (s.abortOf s.curWg 1)
  else .next (takeTrap s s.curWg s.curCrs { code := 0x0E, info := code, resume := some (s.cur.pc + 4) })

/-- BRK (R274): halts at the next instruction where breakpoint halts are armed, else the breakpoint trap. -/
def execBrk (tag : Nat) (s : State) : Host.Outcome State Fault Refusal :=
  if s.cur.armed then .next ((s.setCur { s.cur with halted := true }).retire 4)
  else .next (takeTrap s s.curWg s.curCrs { code := 0x0F, info := tag, resume := some (s.cur.pc + 4) })

/-- MODEW (R276): a source with any of bits 63:17 set raises the illegal trap. -/
def execModew (a : Opnd) (s : State) : Host.Outcome State Fault Refusal :=
  finish s (do
    let c := s.cur
    c.check s.curL ⟨[a], [], []⟩ [0] (.ok ())
    need (decide ((c.src64 a).toNat < 2 ^ 17)) illegal
    .ok ((s.setCur { c with mode := (c.src64 a).setWidth 32 }).retire 4))

/-- The low bit and width of MODEF's field (R276). -/
def modeField (sel : Nat) : Nat × Nat :=
  match sel with
  | 0 => (0, 5) | 1 => (5, 5) | 2 => (10, 3) | 3 => (13, 1) | 4 => (14, 1) | 5 => (15, 1) | _ => (16, 1)

/-- MODE with one field replaced. -/
def setModeField (m : W32) (sel val : Nat) : W32 :=
  let f := modeField sel
  BitVec.ofNat 32 (m.toNat - bits m.toNat (f.1 + f.2 - 1) f.1 * 2 ^ f.1 + val % 2 ^ f.2 * 2 ^ f.1)

/-- MODEF (R276). -/
def execModef (sel val : Nat) (s : State) : Host.Outcome State Fault Refusal :=
  .next ((s.setCur { s.cur with mode := setModeField s.cur.mode sel val }).retire 4)

/-- MODER (R276). -/
def execModer (d : Opnd) (s : State) : Host.Outcome State Fault Refusal :=
  finish s (do
    let c := s.cur
    c.check s.curL ⟨[], [], [d]⟩ [0] (.ok ())
    .ok ((s.setCur (c.writeScalar d (c.mode.setWidth 64))).retire 4))

end Sys2Proof.Machine
end

