-- ==== Sys2Proof/Machine/Rep.lean ====
section
/-! DEFINITION. Instruction fetch (R33, R48, R68, R234) and the instruction that the course issues next, REP's strided
repetitions included (R254, R255). -/

namespace Sys2Proof.Machine

-- ## Fetch

/-- One instruction word of the course that issues: translated with kind execute, read through the core's instruction
cache. Faults name the instruction at the program counter, whichever of its words they met (R48, R234), which for the words that
a REP prefixes is the REP's own (log entry 92). Each lookup counts (R40); poison that a fetch meets fills the slate like any
miss (R71). -/
def fetchWord (s : State) (va : Nat) : R (State × W32) :=
  let k := s.curW.core
  let g := s.curG.chain
  match lookupFor s k g.asn va 3 (s.curWg, 2 * s.curCrs) with
  | .miss => .error (.miss [(va, 3)])
  | .fault f =>
    .error (.after (s.countPages k g.asn g.root [va])
      (.trap { code := 0x09, info := tfsWord f 3 63 false, fva := s.cur.pc.toNat }))
  | .ok x _ =>
    let t := s.countPages k g.asn g.root [va]
    match Tab.find (t.core k).icache (x.pa / 4) with
    | some w => .ok (t, w)
    | none =>
      if t.poisoned x.pa then
        .error (.after ((t.settle (slateOf x.pa)).holdSlate (slateOf x.pa)) (.trap { code := 0x0A, arr := 4, fva := s.cur.pc.toNat }))
      else
        let r := t.homeRead x.pa 4
        let w : W32 := BitVec.ofNat 32 r.2
        .ok (r.1.setCore k { r.1.core k with icache := Tab.set (r.1.core k).icache (x.pa / 4) w }, w)

/-- The instruction at an address, with every word that it needs (R233, R234, R305). Words that are no instruction
raise the illegal trap (R236, R259). -/
def fetchInstr (s : State) (va : Nat) : R (State × Instr) := do
  let r0 ← fetchWord s va
  match decodeCore [r0.2] with
  | .ok i => .ok (r0.1, i)
  | .error .missingWord =>
    let r1 ← fetchWord r0.1 (va + 4)
    match decodeCore [r0.2, r1.2] with
    | .ok i => .ok (r1.1, i)
    | .error .missingWord =>
      let r2 ← fetchWord r1.1 (va + 8)
      match decodeCore [r0.2, r1.2, r2.2] with
      | .ok i => .ok (r2.1, i)
      | .error _ => .error (.after r2.1 illegal)
    | .error _ => .error (.after r1.1 illegal)
  | .error _ => .error (.after r0.1 illegal)

-- ## REP

/-- A strided field of an instruction (R254): unused, a number of a class of R242, or an operand field. -/
inductive Field where
  | no | num
  | op (o : Opnd)
deriving DecidableEq, Repr

/-- The three strided fields of an instruction; none where REP may not prefix it (R254, R305, R322). -/
def strideFields : Instr → Option (Field × Field × Field)
  | .iadd d a b _ => some (.op d, .op a, .op b)
  | .isub d a b _ => some (.op d, .op a, .op b)
  | .imul d a b _ => some (.op d, .op a, .op b)
  | .imulh d a b _ => some (.op d, .op a, .op b)
  | .imad d a b _ => some (.op d, .op a, .op b)
  | .idiv d a b _ => some (.op d, .op a, .op b)
  | .irem d a b _ => some (.op d, .op a, .op b)
  | .imin d a b _ => some (.op d, .op a, .op b)
  | .imax d a b _ => some (.op d, .op a, .op b)
  | .and d a b _ => some (.op d, .op a, .op b)
  | .or d a b _ => some (.op d, .op a, .op b)
  | .xor d a b _ => some (.op d, .op a, .op b)
  | .shl d a b _ => some (.op d, .op a, .op b)
  | .shr d a b _ => some (.op d, .op a, .op b)
  | .sar d a b _ => some (.op d, .op a, .op b)
  | .bfx d a b _ => some (.op d, .op a, .op b)
  | .bfi d a b _ => some (.op d, .op a, .op b)
  | .fadd d a b _ => some (.op d, .op a, .op b)
  | .fsub d a b _ => some (.op d, .op a, .op b)
  | .fmul d a b _ => some (.op d, .op a, .op b)
  | .fma d a b _ => some (.op d, .op a, .op b)
  | .fnma d a b _ => some (.op d, .op a, .op b)
  | .fdiv d a b _ => some (.op d, .op a, .op b)
  | .fmin d a b _ => some (.op d, .op a, .op b)
  | .fmax d a b _ => some (.op d, .op a, .op b)
  | .fsgn d a b _ => some (.op d, .op a, .op b)
  | .fscale d a b _ => some (.op d, .op a, .op b)
  | .sel d a b _ => some (.op d, .op a, .op b)
  | .shfl d a b _ => some (.op d, .op a, .op b)
  | .shflx d a b _ => some (.op d, .op a, .op b)
  | .iabs d a _ => some (.op d, .op a, .no)
  | .popc d a _ => some (.op d, .op a, .no)
  | .clz d a _ => some (.op d, .op a, .no)
  | .mov d a _ => some (.op d, .op a, .no)
  | .fsqrt d a _ => some (.op d, .op a, .no)
  | .frsq d a _ => some (.op d, .op a, .no)
  | .frcp d a _ => some (.op d, .op a, .no)
  | .fabs d a _ => some (.op d, .op a, .no)
  | .fneg d a _ => some (.op d, .op a, .no)
  | .fexp2 d a _ => some (.op d, .op a, .no)
  | .flog2 d a _ => some (.op d, .op a, .no)
  | .fsin d a _ => some (.op d, .op a, .no)
  | .fcos d a _ => some (.op d, .op a, .no)
  | .frint d a _ => some (.op d, .op a, .no)
  | .fclass d a _ => some (.op d, .op a, .no)
  | .iaddi d a _ => some (.op d, .op a, .no)
  | .shli d a _ => some (.op d, .op a, .no)
  | .lit d _ _ => some (.op d, .no, .no)
  | .icmp _ _ a b _ => some (.num, .op a, .op b)
  | .fcmp _ _ a b _ => some (.num, .op a, .op b)
  | .icmpi _ _ a _ => some (.num, .op a, .no)
  | .plog _ op _ _ => some (.num, if op < 6 then .num else .no, if op < 5 then .num else .no)
  | .prd d _ => some (.op d, .num, .no)
  | .pwr _ a _ => some (.num, .op a, .no)
  | .cvt d a _ _ => some (.op d, .op a, .no)
  | .cvts d a _ _ _ => some (.op d, .op a, .no)
  | .cpack d a _ => some (.op d, .op a, .no)
  | .cunpk d a _ => some (.op d, .op a, .no)
  | .bcast d _ b => some (.op d, .num, .op b)
  | .ballot d _ => some (.op d, .num, .no)
  | .vred d _ _ => some (.op d, .num, .no)
  | .vscan d a _ _ _ => some (.op d, .op a, .no)
  | .lfirst d _ => some (.op d, .num, .no)
  | .rnd d a b => some (.op d, .op a, .op b)
  | .xset _ a _ => some (.num, .op a, .no)
  | .xoff _ a _ => some (.num, .op a, .no)
  | .xrd d _ => some (.op d, .num, .no)
  | .xrdo d _ => some (.op d, .num, .no)
  | .xadd _ a _ => some (.num, .op a, .no)
  | .xclr _ => some (.num, .no, .no)
  | .srd d _ => some (.op d, .no, .no)
  | .swr _ a _ => some (.no, .op a, .no)
  | .ld none data voff sb _ => some (.op data, .op voff, .op (.s sb))
  | .st none data voff sb _ _ => some (.op data, .op voff, .op (.s sb))
  | .ldl none data voff sb _ _ => some (.op data, .op voff, .op (.s sb))
  | .stl none data voff sb _ _ => some (.op data, .op voff, .op (.s sb))
  | .ldcol data voff sb _ => some (.op data, .op voff, .op (.s sb))
  | .stcol data voff sb _ => some (.op data, .op voff, .op (.s sb))
  | .atomd data voff sb _ => some (.op data, .op voff, .op (.s sb))
  | .monitor data voff sb _ => some (.op data, .op voff, .op (.s sb))
  | .tend data voff sb _ => some (.op data, .op voff, .op (.s sb))
  | .closeb d _ => some (.op d, .no, .no)
  | .fence _ _ => some (.no, .no, .no)
  | .fenceWb a => some (.no, .op a, .no)
  | .barArrive d _ => some (.op d, .no, .no)
  | .barWait _ b => some (.no, .no, .op b)
  | .barSync d _ => some (.op d, .no, .no)
  | .barExpect _ b => some (.no, .no, .op b)
  | .mwait a => some (.no, .op a, .no)
  | .sigq a _ _ => some (.no, .op a, .no)
  | .mbsend d a => some (.op d, .op a, .no)
  | .mbrecv d a => some (.op d, .op a, .no)
  | .mma _ _ _ _ _ _ _ => some (.num, .num, .num)
  | .mmas _ _ _ _ _ _ _ _ _ => some (.num, .num, .num)
  | .oclm _ _ => some (.num, .no, .no)
  | .orls _ _ => some (.num, .no, .no)
  | .ost _ a _ => some (.num, .op a, .no)
  | .ofnc _ _ => some (.num, .no, .no)
  | .gset _ a b _ _ _ => some (.num, .op a, .op b)
  | .gseed _ a b => some (.num, .op a, .op b)
  | .cpy a _ _ _ => some (.no, .op a, .no)
  | .cpyi a _ _ => some (.no, .op a, .no)
  | .cpyo a _ _ _ _ => some (.no, .op a, .no)
  | .waitc _ _ _ => some (.num, .no, .no)
  | .waitm _ => some (.no, .no, .no)
  | .aclr _ _ => some (.num, .no, .no)
  | .ald d _ _ _ => some (.op d, .num, .no)
  | .awb d _ b _ _ _ _ _ _ _ _ => some (.op d, .num, .op b)
  | _ => none

/-- A class number moved by a stride; beyond its limit the register-range trap (R255). -/
def moveN (n : Nat) (k : Int) (lim : Nat) : R Nat :=
  if 0 ≤ (n : Int) + k ∧ (n : Int) + k < lim then .ok ((n : Int) + k).toNat else .error (trapCode 0x04)

/-- An operand moved by its register number within its class. -/
def moveO (l : Launch) (o : Opnd) (k : Int) : R Opnd :=
  match o with
  | .v n => do let m ← moveN n k l.nv; .ok (.v m)
  | .s n => do let m ← moveN n k l.ns; .ok (.s m)
  | .x n => .ok (.x n)

/-- A slot or generator moved within its class. -/
def moveB (l : Launch) (o : BSrc) (k : Int) : R BSrc :=
  match o with
  | .slot n => do let m ← moveN n k l.nos; .ok (.slot m)
  | .gen n => do let m ← moveN n k 8; .ok (.gen m)

/-- The instruction with its strided fields moved (R254, R255). -/
def restride (l : Launch) (kd ka kb : Int) : Instr → R Instr
  | .iadd d a b h => do let d' ← moveO l d kd; let a' ← moveO l a ka; let b' ← moveO l b kb; .ok (.iadd d' a' b' h)
  | .isub d a b h => do let d' ← moveO l d kd; let a' ← moveO l a ka; let b' ← moveO l b kb; .ok (.isub d' a' b' h)
  | .imul d a b h => do let d' ← moveO l d kd; let a' ← moveO l a ka; let b' ← moveO l b kb; .ok (.imul d' a' b' h)
  | .imulh d a b h => do let d' ← moveO l d kd; let a' ← moveO l a ka; let b' ← moveO l b kb; .ok (.imulh d' a' b' h)
  | .imad d a b h => do let d' ← moveO l d kd; let a' ← moveO l a ka; let b' ← moveO l b kb; .ok (.imad d' a' b' h)
  | .idiv d a b h => do let d' ← moveO l d kd; let a' ← moveO l a ka; let b' ← moveO l b kb; .ok (.idiv d' a' b' h)
  | .irem d a b h => do let d' ← moveO l d kd; let a' ← moveO l a ka; let b' ← moveO l b kb; .ok (.irem d' a' b' h)
  | .imin d a b h => do let d' ← moveO l d kd; let a' ← moveO l a ka; let b' ← moveO l b kb; .ok (.imin d' a' b' h)
  | .imax d a b h => do let d' ← moveO l d kd; let a' ← moveO l a ka; let b' ← moveO l b kb; .ok (.imax d' a' b' h)
  | .and d a b h => do let d' ← moveO l d kd; let a' ← moveO l a ka; let b' ← moveO l b kb; .ok (.and d' a' b' h)
  | .or d a b h => do let d' ← moveO l d kd; let a' ← moveO l a ka; let b' ← moveO l b kb; .ok (.or d' a' b' h)
  | .xor d a b h => do let d' ← moveO l d kd; let a' ← moveO l a ka; let b' ← moveO l b kb; .ok (.xor d' a' b' h)
  | .shl d a b h => do let d' ← moveO l d kd; let a' ← moveO l a ka; let b' ← moveO l b kb; .ok (.shl d' a' b' h)
  | .shr d a b h => do let d' ← moveO l d kd; let a' ← moveO l a ka; let b' ← moveO l b kb; .ok (.shr d' a' b' h)
  | .sar d a b h => do let d' ← moveO l d kd; let a' ← moveO l a ka; let b' ← moveO l b kb; .ok (.sar d' a' b' h)
  | .bfx d a b h => do let d' ← moveO l d kd; let a' ← moveO l a ka; let b' ← moveO l b kb; .ok (.bfx d' a' b' h)
  | .bfi d a b h => do let d' ← moveO l d kd; let a' ← moveO l a ka; let b' ← moveO l b kb; .ok (.bfi d' a' b' h)
  | .fadd d a b h => do let d' ← moveO l d kd; let a' ← moveO l a ka; let b' ← moveO l b kb; .ok (.fadd d' a' b' h)
  | .fsub d a b h => do let d' ← moveO l d kd; let a' ← moveO l a ka; let b' ← moveO l b kb; .ok (.fsub d' a' b' h)
  | .fmul d a b h => do let d' ← moveO l d kd; let a' ← moveO l a ka; let b' ← moveO l b kb; .ok (.fmul d' a' b' h)
  | .fma d a b h => do let d' ← moveO l d kd; let a' ← moveO l a ka; let b' ← moveO l b kb; .ok (.fma d' a' b' h)
  | .fnma d a b h => do let d' ← moveO l d kd; let a' ← moveO l a ka; let b' ← moveO l b kb; .ok (.fnma d' a' b' h)
  | .fdiv d a b h => do let d' ← moveO l d kd; let a' ← moveO l a ka; let b' ← moveO l b kb; .ok (.fdiv d' a' b' h)
  | .fmin d a b h => do let d' ← moveO l d kd; let a' ← moveO l a ka; let b' ← moveO l b kb; .ok (.fmin d' a' b' h)
  | .fmax d a b h => do let d' ← moveO l d kd; let a' ← moveO l a ka; let b' ← moveO l b kb; .ok (.fmax d' a' b' h)
  | .fsgn d a b h => do let d' ← moveO l d kd; let a' ← moveO l a ka; let b' ← moveO l b kb; .ok (.fsgn d' a' b' h)
  | .fscale d a b h => do let d' ← moveO l d kd; let a' ← moveO l a ka; let b' ← moveO l b kb; .ok (.fscale d' a' b' h)
  | .sel d a b h => do let d' ← moveO l d kd; let a' ← moveO l a ka; let b' ← moveO l b kb; .ok (.sel d' a' b' h)
  | .shfl d a b h => do let d' ← moveO l d kd; let a' ← moveO l a ka; let b' ← moveO l b kb; .ok (.shfl d' a' b' h)
  | .shflx d a b h => do let d' ← moveO l d kd; let a' ← moveO l a ka; let b' ← moveO l b kb; .ok (.shflx d' a' b' h)
  | .iabs d a h => do let d' ← moveO l d kd; let a' ← moveO l a ka; .ok (.iabs d' a' h)
  | .popc d a h => do let d' ← moveO l d kd; let a' ← moveO l a ka; .ok (.popc d' a' h)
  | .clz d a h => do let d' ← moveO l d kd; let a' ← moveO l a ka; .ok (.clz d' a' h)
  | .mov d a h => do let d' ← moveO l d kd; let a' ← moveO l a ka; .ok (.mov d' a' h)
  | .fsqrt d a h => do let d' ← moveO l d kd; let a' ← moveO l a ka; .ok (.fsqrt d' a' h)
  | .frsq d a h => do let d' ← moveO l d kd; let a' ← moveO l a ka; .ok (.frsq d' a' h)
  | .frcp d a h => do let d' ← moveO l d kd; let a' ← moveO l a ka; .ok (.frcp d' a' h)
  | .fabs d a h => do let d' ← moveO l d kd; let a' ← moveO l a ka; .ok (.fabs d' a' h)
  | .fneg d a h => do let d' ← moveO l d kd; let a' ← moveO l a ka; .ok (.fneg d' a' h)
  | .fexp2 d a h => do let d' ← moveO l d kd; let a' ← moveO l a ka; .ok (.fexp2 d' a' h)
  | .flog2 d a h => do let d' ← moveO l d kd; let a' ← moveO l a ka; .ok (.flog2 d' a' h)
  | .fsin d a h => do let d' ← moveO l d kd; let a' ← moveO l a ka; .ok (.fsin d' a' h)
  | .fcos d a h => do let d' ← moveO l d kd; let a' ← moveO l a ka; .ok (.fcos d' a' h)
  | .frint d a h => do let d' ← moveO l d kd; let a' ← moveO l a ka; .ok (.frint d' a' h)
  | .fclass d a h => do let d' ← moveO l d kd; let a' ← moveO l a ka; .ok (.fclass d' a' h)
  | .iaddi d a imm => do let d' ← moveO l d kd; let a' ← moveO l a ka; .ok (.iaddi d' a' imm)
  | .shli d a imm => do let d' ← moveO l d kd; let a' ← moveO l a ka; .ok (.shli d' a' imm)
  | .lit d hi w => do let d' ← moveO l d kd; .ok (.lit d' hi w)
  | .icmp p k a b h => do let p' ← moveN p kd 8; let a' ← moveO l a ka; let b' ← moveO l b kb; .ok (.icmp p' k a' b' h)
  | .fcmp p k a b h => do let p' ← moveN p kd 8; let a' ← moveO l a ka; let b' ← moveO l b kb; .ok (.fcmp p' k a' b' h)
  | .icmpi p k a imm => do let p' ← moveN p kd 8; let a' ← moveO l a ka; .ok (.icmpi p' k a' imm)
  | .plog p op a b => do let p' ← moveN p kd 8; let a' ← moveN a ka 8; let b' ← moveN b kb 8; .ok (.plog p' op a' b')
  | .prd d p => do let d' ← moveO l d kd; let p' ← moveN p ka 8; .ok (.prd d' p')
  | .pwr p a h => do let p' ← moveN p kd 8; let a' ← moveO l a ka; .ok (.pwr p' a' h)
  | .cvt d a t h => do let d' ← moveO l d kd; let a' ← moveO l a ka; .ok (.cvt d' a' t h)
  | .cvts d a e f h => do let d' ← moveO l d kd; let a' ← moveO l a ka; .ok (.cvts d' a' e f h)
  | .cpack d a f => do let d' ← moveO l d kd; let a' ← moveO l a ka; .ok (.cpack d' a' f)
  | .cunpk d a f => do let d' ← moveO l d kd; let a' ← moveO l a ka; .ok (.cunpk d' a' f)
  | .bcast d a b => do let d' ← moveO l d kd; let a' ← moveN a ka l.nv; let b' ← moveO l b kb; .ok (.bcast d' a' b')
  | .ballot d a => do let d' ← moveO l d kd; let a' ← moveN a ka l.nv; .ok (.ballot d' a')
  | .vred d a op => do let d' ← moveO l d kd; let a' ← moveN a ka l.nv; .ok (.vred d' a' op)
  | .vscan d a op e h => do let d' ← moveO l d kd; let a' ← moveO l a ka; .ok (.vscan d' a' op e h)
  | .lfirst d p => do let d' ← moveO l d kd; let p' ← moveN p ka 8; .ok (.lfirst d' p')
  | .rnd d a b => do let d' ← moveO l d kd; let a' ← moveO l a ka; let b' ← moveO l b kb; .ok (.rnd d' a' b')
  | .xset x a h => do let x' ← moveN x kd 16; let a' ← moveO l a ka; .ok (.xset x' a' h)
  | .xoff x a h => do let x' ← moveN x kd 16; let a' ← moveO l a ka; .ok (.xoff x' a' h)
  | .xrd d x => do let d' ← moveO l d kd; let x' ← moveN x ka 16; .ok (.xrd d' x')
  | .xrdo d x => do let d' ← moveO l d kd; let x' ← moveN x ka 16; .ok (.xrdo d' x')
  | .xadd x a h => do let x' ← moveN x kd 16; let a' ← moveO l a ka; .ok (.xadd x' a' h)
  | .xclr x => do let x' ← moveN x kd 16; .ok (.xclr x')
  | .srd d n => do let d' ← moveO l d kd; .ok (.srd d' n)
  | .swr n a h => do let a' ← moveO l a ka; .ok (.swr n a' h)
  | .ld none data voff sb lit => do let data' ← moveO l data kd; let voff' ← moveO l voff ka; let sb' ← moveN sb kb l.ns; .ok (.ld none data' voff' sb' lit)
  | .st none data voff sb lit q => do let data' ← moveO l data kd; let voff' ← moveO l voff ka; let sb' ← moveN sb kb l.ns; .ok (.st none data' voff' sb' lit q)
  | .ldl none data voff sb lit q => do let data' ← moveO l data kd; let voff' ← moveO l voff ka; let sb' ← moveN sb kb l.ns; .ok (.ldl none data' voff' sb' lit q)
  | .stl none data voff sb lit q => do let data' ← moveO l data kd; let voff' ← moveO l voff ka; let sb' ← moveN sb kb l.ns; .ok (.stl none data' voff' sb' lit q)
  | .ldcol data voff sb lit => do let data' ← moveO l data kd; let voff' ← moveO l voff ka; let sb' ← moveN sb kb l.ns; .ok (.ldcol data' voff' sb' lit)
  | .stcol data voff sb lit => do let data' ← moveO l data kd; let voff' ← moveO l voff ka; let sb' ← moveN sb kb l.ns; .ok (.stcol data' voff' sb' lit)
  | .atomd data voff sb lit => do let data' ← moveO l data kd; let voff' ← moveO l voff ka; let sb' ← moveN sb kb l.ns; .ok (.atomd data' voff' sb' lit)
  | .monitor data voff sb lit => do let data' ← moveO l data kd; let voff' ← moveO l voff ka; let sb' ← moveN sb kb l.ns; .ok (.monitor data' voff' sb' lit)
  | .tend data voff sb lit => do let data' ← moveO l data kd; let voff' ← moveO l voff ka; let sb' ← moveN sb kb l.ns; .ok (.tend data' voff' sb' lit)
  | .closeb d k => do let d' ← moveO l d kd; .ok (.closeb d' k)
  | .fence k sc => .ok (.fence k sc)
  | .fenceWb a => do let a' ← moveO l a ka; .ok (.fenceWb a')
  | .barArrive d k => do let d' ← moveO l d kd; .ok (.barArrive d' k)
  | .barWait k b => do let b' ← moveO l b kb; .ok (.barWait k b')
  | .barSync d k => do let d' ← moveO l d kd; .ok (.barSync d' k)
  | .barExpect k b => do let b' ← moveO l b kb; .ok (.barExpect k b')
  | .mwait a => do let a' ← moveO l a ka; .ok (.mwait a')
  | .sigq a k h => do let a' ← moveO l a ka; .ok (.sigq a' k h)
  | .mbsend d a => do let d' ← moveO l d kd; let a' ← moveO l a ka; .ok (.mbsend d' a')
  | .mbrecv d a => do let d' ← moveO l d kd; let a' ← moveO l a ka; .ok (.mbrecv d' a')
  | .mma x a b fa fb n z => do let x' ← moveN x kd l.nacc; let a' ← moveN a ka l.nos; let b' ← moveB l b kb; .ok (.mma x' a' b' fa fb n z)
  | .mmas x a b fa fb n z sp ms => do let x' ← moveN x kd l.nacc; let a' ← moveN a ka l.nos; let b' ← moveB l b kb; .ok (.mmas x' a' b' fa fb n z sp ms)
  | .oclm t k => do let t' ← moveN t kd l.nos; .ok (.oclm t' k)
  | .orls t k => do let t' ← moveN t kd l.nos; .ok (.orls t' k)
  | .ost t a k => do let t' ← moveN t kd l.nos; let a' ← moveO l a ka; .ok (.ost t' a' k)
  | .ofnc t k => do let t' ← moveN t kd l.nos; .ok (.ofnc t' k)
  | .gset g a b f tr p => do let g' ← moveN g kd 8; let a' ← moveO l a ka; let b' ← moveO l b kb; .ok (.gset g' a' b' f tr p)
  | .gseed g a b => do let g' ← moveN g kd 8; let a' ← moveO l a ka; let b' ← moveO l b kb; .ok (.gseed g' a' b')
  | .cpy a n e sl => do let a' ← moveO l a ka; .ok (.cpy a' n e sl)
  | .cpyi a n e => do let a' ← moveO l a ka; .ok (.cpyi a' n e)
  | .cpyo a n e bt ix => do let a' ← moveO l a ka; .ok (.cpyo a' n e bt ix)
  | .waitc t m k => do let t' ← moveN t kd l.nos; .ok (.waitc t' m k)
  | .waitm k => .ok (.waitm k)
  | .aclr a k => do let a' ← moveN a kd l.nacc; .ok (.aclr a' k)
  | .ald d a h n => do let d' ← moveO l d kd; let a' ← moveN a ka l.nacc; .ok (.ald d' a' h n)
  | .awb d a b fs n pt mg me ng br be => do let d' ← moveO l d kd; let a' ← moveN a ka l.nacc; let b' ← moveO l b kb; .ok (.awb d' a' b' fs n pt mg me ng br be)
  | i => .ok i

/-- A field may be strided: it is used, is not indirect, and is not the register that holds the count (R254). -/
def Field.strides (n : RepCount) : Field → Bool
  | .no => false
  | .num => true
  | .op o => !o.isX && (match n, o with | .reg r, .s k => decide (r ≠ k) | _, _ => true)

/-- The checks of R254 on the instruction after a REP. -/
def repAllows (i : Instr) (n : RepCount) (sd sa sb : Int) : Bool :=
  match strideFields i with
  | none => false
  | some (d, a, b) => (d.strides n || decide (sd = 0)) && (a.strides n || decide (sa = 0)) && (b.strides n || decide (sb = 0))

/-- The instruction that a REP prefixes as its word alone gives it: which instruction it is, its strided fields and its
length, whatever its literal holds and whether or not it would trap. -/
def repNext (s : State) : R (State × Instr) := do
  let r ← fetchWord s (s.cur.pc.toNat + 4)
  match parseCore [r.2, 0, 0] with
  | .ok i => .ok (r.1, i)
  | .error _ => .error (.after r.1 illegal)

/-- The count of a REP: at most 255, or the illegal trap at the REP. -/
def repCountOf (s : State) (n : RepCount) : R Nat :=
  match n with
  | .imm k => .ok k
  | .reg r => do
    s.cur.check s.curL ⟨[], [.s r], []⟩ [0] (.ok ())
    need (decide ((s.cur.sreg r).toNat ≤ 255)) illegal
    .ok (s.cur.sreg r).toNat

/-- REP (R254 to R256) as it issues: with no REP in progress it checks the next instruction and its count and starts;
a count of zero passes both. In progress with nothing left to do, it passes both; otherwise its next repetition is the
instruction that the course issues (nextInstr), and a trap of the prefixed instruction is that of a repetition. -/
def execRep (n : RepCount) (sd sa sb : Int) (s : State) : Host.Outcome State Fault Refusal :=
  let c := s.cur
  finish s (do
    let r ← repNext s
    let past := (r.1.setCur { c with repst := 0 }).retire (4 + r.2.size)
    keeping r.1 (do
      need (repAllows r.2 n sd sa sb) illegal
      if c.repAct then
        .ok (if c.repCount ≤ c.repDone then past else r.1)
      else
        let k ← repCountOf s n
        .ok (if k = 0 then past else r.1.setCur { c with repst := repWord true k 0 })))

-- ## Poison of the reserved strip (R20, R89, R91)

/-- The units that an instruction on the vector path reads: of the guard's predicate, and of the index registers that its fields
name. -/
def Course.laneUnits (c : Course) (os : List Opnd) : List Nat :=
  (if bit c.mode.toNat 4 then [predUnit (bits c.mode.toNat 2 0)] else []) ++ (indexRegs os).flatMap fun x => indexUnits x c.active

/-- The operand fields of an instruction. -/
def instrFields : Instr → List Opnd
  | .ld _ data voff sb _ => [data, voff, .s sb]
  | .st _ data voff sb _ _ => [data, voff, .s sb]
  | .ldl _ data voff sb _ _ => [data, voff, .s sb]
  | .stl _ data voff sb _ _ => [data, voff, .s sb]
  | .atomr _ data voff sb _ => [data, voff, .s sb]
  | .atoml _ data voff sb _ _ => [data, voff, .s sb]
  | .red _ data voff sb _ _ => [data, voff, .s sb]
  | .bcast d a _ => if d.isS then [d] else [d, .v a]
  | .ballot d a => [d, .v a]
  | .vred d a _ => [d, .v a]
  | i => match strideFields i with
    | some (d, a, b) => [d, a, b].filterMap fun f => match f with | .op o => some o | _ => none
    | none => []

/-- The units of the strip that an instruction reads beside the control unit. -/
def Course.stripReads (c : Course) (i : Instr) : List Nat :=
  (if allScalar (instrFields i) then [] else c.laneUnits (instrFields i)) ++
    match i with
    | .brd p _ => [predUnit p]
    | .brany p _ => [predUnit p]
    | .join => if c.depth = 0 then [] else [entryUnit (c.depth - 1)]
    | .plog _ _ pa pb => c.laneUnits [] ++ [predUnit pa, predUnit pb]
    | .prd _ p => [predUnit p]
    | .lfirst _ p => c.laneUnits [] ++ [predUnit p]
    | .sel _ _ _ _ => [predUnit (bits c.mode.toNat 2 0)]
    | .xoff _ _ _ => c.laneUnits []
    | .xadd x _ _ => c.laneUnits [.x x]
    | .xrd _ x => indexUnits x 0
    | .xrdo _ x => c.laneUnits [.x x]
    | .srd _ n => if n = 0x03 ∨ n = 0x05 ∨ n = 0x06 then [statusUnit] else []
    | .swr n _ _ => if n = 0x07 ∧ c.depth ≠ 0 then [entryUnit (c.depth - 1)] else []
    | .rep _ _ _ _ => [statusUnit]
    | .mma _ _ (.gen g) _ _ _ _ => genUnits g
    | .mmas _ _ (.gen g) _ _ _ _ _ _ => genUnits g
    | .awb _ _ _ _ _ _ mg true _ _ _ => genUnits mg
    | _ => []

/-- The memory-error trap of an instruction that reads a poisoned unit of the strip (R91): of the lowest lane of EXEC. -/
def Course.stripCheck (c : Course) (us : List Nat) : R Unit :=
  need (!us.any c.stripBad) (.trap { code := 0x0A, lane := (lanesOf c.exec).headD 63, arr := 1 })

/-- The instruction that the course issues: the one at its program counter, or the next repetition of the REP in
progress there; the truth value says that it is a repetition. -/
def nextInstr (s : State) : R (State × Instr × Bool) := do
  let r ← fetchInstr s s.cur.pc.toNat
  match r.2 with
  | .rep n sd sa sb =>
    if s.cur.repAct && decide (s.cur.repDone < s.cur.repCount) then
      let t ← fetchInstr r.1 (s.cur.pc.toNat + 4)
      let k : Int := s.cur.repDone
      keeping t.1 (do
        need (repAllows t.2 n sd sa sb) illegal
        let i ← restride s.curL (k * sd) (k * sa) (k * sb) t.2
        need i.wf illegal
        .ok (t.1, i, true))
    else .ok (r.1, r.2, false)
  | i => .ok (r.1, i, false)

end Sys2Proof.Machine
end

