-- ==== Sys2Proof/Machine/Memory.lean ====
section
/-! DEFINITION. Loads, stores, column accesses, register blocks and the landing of producers, opcodes 0x58 to 0x5D, 0x68,
0x69 (R301 to R309, R322), with versions (R79 to R82). -/

namespace Sys2Proof.Machine

-- ## Widths and extension (R238)

/-- The codes of R213, all of which a load or store accepts. -/
def memTypes : List Nat := [0, 1, 2, 3, 4, 5, 8, 9, 10, 12, 13, 16, 17]

/-- Access width of a MODE.T code. -/
def widthOf (t : Nat) : Nat := if t < 2 ∨ t = 16 then 1 else if t < 4 ∨ t = 8 ∨ t = 9 then 2 else if t = 17 then 16 else 4

/-- The type's loads are sign-extended. -/
def signedTy (t : Nat) : Bool := decide (t = 0) || decide (t = 2) || decide (t = 4)

/-- A loaded value in a lane. -/
def extend32 (t v : Nat) : W32 :=
  if signedTy t then BitVec.ofInt 32 (signed (8 * widthOf t) v) else BitVec.ofNat 32 v

/-- A loaded value in a scalar register (R301). -/
def extend64 (t v : Nat) : W64 :=
  if signedTy t then BitVec.ofInt 64 (signed (8 * widthOf t) v) else BitVec.ofNat 64 v

-- ## Addresses

/-- The address of a lane's access (R238). -/
def Course.addr (c : Course) (voff : Opnd) (sb : Nat) (lit : Option W32) (w l : Nat) : Nat :=
  wrap 64 ((c.sreg sb).toNat + (c.src voff l).toInt * w + (match lit with | some i => i.toInt | none => 0))

/-- The data registers of an access of width w. -/
def dataRegs (data : Opnd) (w : Nat) : List Opnd := if w = 16 then block data 4 else [data]

/-- A 16-byte access needs a vector register that is a multiple of 4 (R238). -/
def quadOk (data : Opnd) (w : Nat) : Bool :=
  w ≠ 16 || (match data with | .v n => decide (n % 4 = 0) | _ => false)

/-- The first lane whose address fails the alignment `ok` takes the alignment trap (R302). -/
def aligned (addrs : List (Nat × Nat)) (ok : Nat → Bool) : R Unit :=
  match addrs.find? fun a => !ok a.2 with
  | some a => .error (.trap { code := 0x07, lane := a.1 })
  | none => .ok ()

/-- Every distinct page of the lanes is translated and checked (R36, R48): missing pages are walked first; the lowest
lane that faults decides; each distinct page counts as one lookup, a faulting instruction's too (R40). -/
def translate (s : State) (kind : Nat) (addrs : List (Nat × Nat)) : R (State × List (Nat × Xlat)) :=
  let k := s.curW.core
  let g := s.curG.chain
  let looks := addrs.map fun a => (a.1, a.2, lookupFor s k g.asn a.2 kind (s.curWg, 2 * s.curCrs))
  match looks.filterMap fun x => match x.2.2 with | .miss => some (x.2.1, kind) | _ => none with
  | m :: r => .error (.miss (m :: r))
  | [] =>
    let t := s.countPages k g.asn g.root (addrs.map Prod.snd)
    match looks.findSome? fun x => match x.2.2 with | .fault f => some (x.1, x.2.1, f) | _ => none with
    | some (l, va, f) => keeping t (.error (.trap { code := 0x09, lane := l, info := tfsWord f kind l false, fva := va }))
    | none => .ok (t, looks.filterMap fun x => match x.2.2 with | .ok y _ => some (x.1, y) | _ => none)

/-- The home of a translated access. -/
def Xlat.target (x : Xlat) : Target :=
  match x.res with
  | .here => .stack x.pa
  | .direct => .remote x.peer x.pa
  | .cached => .cached x.peer x.pa

/-- The workgroup that holds a cohort rank of the current workgroup's cohort (R25). -/
def State.member (s : State) (q : Nat) : Option Nat :=
  (s.wgs.find? fun e => decide (e.2.gid = s.curW.gid) && decide (e.2.status = .resident)
    && decide (e.2.w = s.curW.w / s.curL.coh * s.curL.coh + q)).map Prod.fst

/-- The scratchpad and byte that a local address names (R23), or none where R24 traps. -/
def localTarget (s : State) (a : Nat) : Option (Nat × Nat) :=
  let size := s.curL.spg * 0x4000
  if a < size then some (s.curWg, a)
  else if 0x01000000 ≤ a ∧ a < 0x04000000 ∧ 2 ≤ s.curL.coh ∧ (a - 0x01000000) / 0x200000 < s.curL.coh
      ∧ (a - 0x01000000) % 0x200000 < size then
    let q := (a - 0x01000000) / 0x200000
    if q = s.curW.w % s.curL.coh then some (s.curWg, (a - 0x01000000) % 0x200000)
    else (s.member q).map fun u => (u, (a - 0x01000000) % 0x200000)
  else none

/-- The local accesses of the lanes, or the local-address trap of the lowest that fails (R24). -/
def locate (s : State) (addrs : List (Nat × Nat)) : R (List (Nat × Nat × Nat)) :=
  match addrs.find? fun a => (localTarget s a.2).isNone with
  | some a => .error (.trap { code := 0x08, lane := a.1, fva := a.2 })
  | none => .ok (addrs.filterMap fun a => (localTarget s a.2).map fun t => (a.1, t.1, t.2))

-- ## Versions (R79 to R82)

/-- The course's task buffers its writes. -/
def State.buffers (s : State) (u : Nat) : Bool := (s.grid (s.wg u).gid).launch.ver && !(s.wg u).unbuf


/-- Version slates at a home slice, of every task (R79, R81). -/
def State.slatesAt (s : State) (h : Nat) : Nat :=
  (s.wgs.map fun e =>
    (e.2.version.filter fun v => decide (homeSlice (v.slate * 1024) = h)).length
      + (match e.2.redlog with
        | [] => 0
        | r :: _ => ((List.range (logSlates e.2.redlog.length)).filter fun i => decide (logSlice r.pa i = h)).length)).foldl
    (· + ·) 0

/-- The version has a slate for a target. -/
def Workgroup.hasSlate (w : Workgroup) (peer : Option Nat) (sl : Nat) : Bool :=
  w.version.any fun v => decide (v.peer = peer) && decide (v.slate = sl)

/-- A new version slate fits (R81). -/
def State.slateFits (s : State) (u h : Nat) : Bool :=
  let w := s.wg u
  decide (w.version.length + logSlates w.redlog.length < (s.grid w.gid).chain.vcap) && decide (s.slatesAt h < 2048)

/-- A new version slate takes a place of a set of a slice (R69, R79), or none where the version is full; a set that versions and
pending reductions fill counts as that (log entry 58). -/
def State.slatePlace (s : State) (u h set : Nat) : Option State := if s.slateFits u h then s.roomAt h set else none

/-- Bytes written into a version slate; a unit written whole is clean (R90). -/
def VSlate.put (x : VSlate) (batch off : Nat) (bs : List Byte) : VSlate :=
  { x with
    batch := batch
    bytes := (List.range bs.length).foldl (fun t i => Tab.set t (off + i) (bs.getD i 0)) x.bytes
    bad := clearPoison x.bad 32 off bs.length }

/-- Units of a version slate that receive poison (R90). -/
def VSlate.spoil (x : VSlate) (off n : Nat) : VSlate :=
  { x with bad := (unitsOf 32 off n).foldl (fun t k => Tab.set t k true) x.bad }

/-- The version slate of a target changed. -/
def mapVersion (v : List VSlate) (peer : Option Nat) (sl : Nat) (f : VSlate → VSlate) : List VSlate :=
  v.map fun x => if x.peer = peer ∧ x.slate = sl then f x else x

/-- The version with bytes of a target slate written. -/
def putVersion (v : List VSlate) (peer : Option Nat) (sl batch : Nat) (off : Nat) (bs : List Byte) : List VSlate :=
  if v.any fun x => decide (x.peer = peer) && decide (x.slate = sl) then mapVersion v peer sl fun x => x.put batch off bs
  else v ++ [(⟨peer, sl, [], batch, []⟩ : VSlate).put batch off bs]

/-- The core's lines of a local range leave its L1, when a versioned task writes it (R66). -/
def State.dropLine (s : State) (u : Nat) (peer : Option Nat) (pa n : Nat) : State :=
  match peer with
  | none => s.dropL1 (s.wg u).core fun l => decide (pa / 128 ≤ l) && decide (l ≤ (pa + n - 1) / 128)
  | some _ => s

/-- The task waits for a version that is full, or, where a fault holds its ticket, goes on without what does not fit: its version is
discarded at the join in any case (R183, log entry 95). -/
def State.overflowed (s : State) (u : Nat) : Option State := if (s.wg u).holder.isSome then some s else none

/-- A write held in the task's version, or none where the version is full (R79, R81). -/
def State.versionWrite (s : State) (u batch : Nat) (peer : Option Nat) (pa : Nat) (bs : List Byte) : Option State :=
  let sl := slateOf pa
  match (if (s.wg u).hasSlate peer sl then some s else s.slatePlace u (homeSlice pa) (setOf peer sl)) with
  | some t =>
    some ((t.setWg u { t.wg u with version := putVersion (t.wg u).version peer sl batch (pa % 1024) bs }).dropLine u peer pa bs.length)
  | none => s.overflowed u

/-- A reduction held in the task's log, or none where the version is full (R80, R81). -/
def State.versionRed (s : State) (u : Nat) (r : RedRec) : Option State :=
  let n := (s.wg u).redlog.length
  let q := (s.wg u).redlog.headD r
  match (if n % 32 ≠ 0 then some s else s.slatePlace u (logSlice q.pa (n / 32)) (setOf q.peer (slateOf q.pa + n / 32))) with
  | some t => some ((t.setWg u { t.wg u with redlog := (t.wg u).redlog ++ [r] }).dropLine u r.peer r.pa r.width)
  | none => s.overflowed u

/-- A byte as the task sees it: its own latest write, else the committed value (R82). -/
def State.taskByte (s : State) (u : Nat) (peer : Option Nat) (pa : Nat) (committed : Byte) : Byte :=
  match (s.wg u).version.find? fun v => decide (v.peer = peer) && decide (v.slate = slateOf pa) with
  | some v => Tab.get committed v.bytes (pa % 1024)
  | none => committed

/-- A value as the task sees it. -/
def State.taskValue (s : State) (u : Nat) (peer : Option Nat) (pa n v : Nat) : Nat :=
  if s.buffers u then
    leBytes ((List.range n).map fun k => s.taskByte u peer (pa + k) (BitVec.ofNat 8 (v / 2 ^ (8 * k))))
  else v

/-- The first write to a full version makes the task wait (R182). -/
def fullVersion : Stop := .wait .version

-- ## Poison at the access (R91)

/-- The array code under which a target's bytes are poisoned: 3 for a held slate, 4 for the stack, 1 for a pool. -/
def State.poisonAt (s : State) (t : Target) (n : Nat) : Option Nat :=
  match t with
  | .stack pa => if s.rangePoisoned pa n then some (if (Tab.find s.tags (slateOf pa)).isSome then 3 else 4) else none
  | .scratch u a => if (s.wg u).rangePoisoned a n then some 1 else none
  | _ => none

/-- The poison that a course of a workgroup meets: a task that buffers its writes sees its own version's units where it has
written (R82, R90). -/
def State.meetsPoison (s : State) (u : Nat) (t : Target) (n : Nat) : Option Nat :=
  let own := fun (peer : Option Nat) (pa : Nat) =>
    (s.wg u).version.find? fun v => s.buffers u && decide (v.peer = peer) && decide (v.slate = slateOf pa)
  let bad := fun (v : VSlate) (pa : Nat) => (unitsOf 32 (pa % 1024) n).any fun k => Tab.get false v.bad k
  let whole := fun (v : VSlate) (pa : Nat) => (List.range n).all fun k => (Tab.find v.bytes (pa % 1024 + k)).isSome
  match t with
  | .stack pa => match own none pa with
    | some v => if bad v pa then some 3 else if whole v pa then none else s.poisonAt t n
    | none => s.poisonAt t n
  | .remote p pa => match own (some p) pa with
    | some v => if bad v pa then some 3 else none
    | none => none
  | .cached p pa => match own (some p) pa with
    | some v => if bad v pa then some 3 else none
    | none => none
  | .scratch _ _ => s.poisonAt t n

/-- The whole poison units that an access touches: 32 bytes of stack memory, 16 of a pool (R89). -/
def Target.units (t : Target) (n : Nat) : Target × Nat :=
  match t with
  | .stack pa => (.stack (pa / 32 * 32), (pa + n + 31) / 32 * 32 - pa / 32 * 32)
  | .scratch u a => (.scratch u (a / 16 * 16), (a + n + 15) / 16 * 16 - a / 16 * 16)
  | t => (t, n)

/-- An access of a workgroup is served from its core's L1: a plain load of an unversioned grid that hits a line (R65, R67). -/
def State.inL1 (s : State) (u : Nat) (plain : Bool) (t : Target) : Bool :=
  match t with
  | .stack pa => plain && !(s.grid (s.wg u).gid).launch.ver && (s.l1Hit (s.wg u).core pa).isSome
  | _ => false

/-- The poison that an access meets where it is served (R91): in the L1 none stands (R89). -/
def State.servedPoison (s : State) (u : Nat) (plain : Bool) (t : Target) (n : Nat) : Option Nat :=
  if s.inL1 u plain t then none else s.meetsPoison u t n

/-- The lanes that miss fill their slates (R71), the reductions pending there first (R87). -/
def State.missAll (s : State) (ls : List LaneAcc) : State :=
  ls.foldl (fun t a => match a.tgt with
    | .stack pa => (t.settle (slateOf pa)).holdSlate (slateOf pa)
    | _ => t) s

/-- The memory-error trap of the lowest lane whose bytes are poisoned (R91), its misses having filled their slates (R71); a store
of the course that has not been performed and may clear that poison comes first (R135). -/
def unpoisoned (s : State) (plain : Bool) (ls : List LaneAcc) : R Unit :=
  match ls.find? fun a => (s.servedPoison s.curWg plain a.tgt a.width).isSome with
  | none => .ok ()
  | some a =>
    let x := a.tgt.units a.width
    if s.pend.any fun w => decide (w.uid = s.curWg) && decide (w.crs = s.curCrs) && x.1.meets x.2 w.tgt w.width then .error .again
    else .error (.after (s.missAll (ls.filter fun a => !s.inL1 s.curWg plain a.tgt))
      (.trap { code := 0x0A, lane := a.lane, arr := (s.meetsPoison s.curWg a.tgt a.width).getD 0, fva := a.va }))

-- ## Producers (R303)

/-- The registers that producers mark, by class. -/
def marksOf (c : Course) (l : Launch) (os : List Opnd) : List Nat × Bool :=
  let r := joinRegs (os.map (c.writeRegs l))
  if r.2.isEmpty then (r.1, false) else (r.2.filter (· ≠ 0), true)

/-- A producer issues: its destinations turn empty, its index registers step, and it is in flight (R303). -/
def State.launchFlight (s : State) (dst idx : List Opnd) (kind : FlightKind) (acq rel : Bool) (scope : Scope)
    (lanes : List LaneAcc) (got : Tab Nat) : State :=
  let c := s.cur
  let m := marksOf c s.curL dst
  let k := dst.foldl (fun k d => k.markDst s.curL d false) c
  let f : Flight := { id := s.stamp, kind := kind, acq := acq, rel := rel, scope := scope, marks := m.1, scal := m.2,
                      lanes := lanes, got := got, fails := [], pc := c.pc, bar := c.relBar,
                      rep := if s.inRep then c.repst else 0 }
  (s.setCur ({ k with flights := k.flights ++ [f] }.stepIndexes idx)).fresh

/-- The register that lane `l` of a data field names, for a block's first. -/
def Course.laneReg (c : Course) (data : Opnd) (l : Nat) : Nat :=
  match data with
  | .v n => n
  | .s n => n
  | .x x => (c.xreg x).reg l

/-- Requests for the lanes of a flight that are at other modules, formed once the flight is in the course (R107, R110). A
remote cached page is read by whole slates, unless the read is an acquire (R157). -/
def State.askRemote (s : State) (flight : Nat) (acq : Bool) (kind : LaneAcc → ReqKind) (rm : Nat) (ftz : Bool)
    (ls : List LaneAcc) : State :=
  ls.foldl (fun t a => match a.tgt with
    | .remote p pa => t.formReq t.curWg t.curCrs flight a.lane p pa a.width a.v a.c (kind a) 0 0 rm ftz
    | .cached p pa =>
      match t.copies.find? fun x => decide (x.peer = p) && decide (x.slate = slateOf pa) with
      | some x =>
        if acq then t.formReq t.curWg t.curCrs flight a.lane p pa a.width 0 0 .read 0 0 rm ftz
        else t.setCur (t.cur.mapFlight flight fun f =>
          { f with got := Tab.set f.got a.lane (leBytes ((x.data.drop (pa % 1024)).take a.width)) })
      | none =>
        if acq then t.formReq t.curWg t.curCrs flight a.lane p pa a.width 0 0 .read 0 0 rm ftz
        else t.formReq t.curWg t.curCrs flight a.lane p (slateOf pa * 1024) 1024 0 0 .read 0 0 rm ftz
    | _ => t) s

/-- An access to a remote cached page, whose copy answers at once, waits until the course's earlier acquires and its
earlier requests to the same bytes are over (R155, R157), and a remote release until every earlier access but remote stores
is done (R157). Other remote requests wait on their way (State.behind). -/
def remoteReady (s : State) (rel : Bool) (ls : List LaneAcc) : R Unit := do
  let mine := s.reqs.filter fun r => decide (r.uid = s.curWg) && decide (r.crs = s.curCrs)
    && (r.req.kind.returns || !r.sent)
  let clash := ls.any fun a => match a.tgt with
    | .cached p pa => (mine.any fun r => decide (r.req.dest = p) && overlaps r.req.pa r.req.width pa a.width)
        || s.cur.flights.any Flight.acq
    | _ => false
  need (!clash) .again
  need (!(rel && ls.any (fun a => a.tgt.far)) || s.mayPerform s.curWg s.curCrs s.stamp s.stamp []) .again

-- ## LD and LDL

/-- The lanes, the address of each, and what MODE.T and the registers must satisfy, for a load or store (R301, R302). -/
def accessAddrs (c : Course) (ops : List Opnd) (voff : Opnd) (sb : Nat) (lit : Option W32) (w : Nat) : List (Nat × Nat) :=
  (c.pathLanes ops).map fun l => (l, c.addr voff sb lit w l)

/-- The effective scope of an access: a qualified remote access acts at .sys (R305). -/
def effScope (p : Option Acc) (ls : List LaneAcc) : Scope :=
  if ls.any (fun a => a.tgt.far) then .sys else match p with | some q => q.scope | none => .co

/-- The prefix makes the access an acquire. -/
def isAcq : Option Acc → Bool
  | some p => decide (p.order = .acq) || decide (p.order = .ar)
  | none => false

/-- The prefix makes the access a release. -/
def isRel : Option Acc → Bool
  | some p => decide (p.order = .rel) || decide (p.order = .ar)
  | none => false

/-- LD (R306, R307). -/
def execLd (p : Option Acc) (data voff : Opnd) (sb : Nat) (lit : Option W32) (s : State) :
    Host.Outcome State Fault Refusal :=
  finish s (do
    let c := s.cur
    let w := widthOf c.ty
    let dst := dataRegs data w
    c.check s.curL ⟨[voff], [.s sb], dst⟩ (c.pathLanes [data, voff]) (do
      c.needTy memTypes
      need (quadOk data w) illegal)
    let addrs := accessAddrs c [data, voff] voff sb lit w
    aligned addrs fun a => decide (a % w = 0)
    let r ← translate s 0 addrs
    let ls : List LaneAcc := r.2.map fun x =>
      ⟨x.1, x.2.target, c.addr voff sb lit w x.1, w, c.laneReg data x.1, 0, 0⟩
    keeping r.1 (unpoisoned r.1 (!isAcq p) ls)
    remoteReady r.1 false ls
    let n := (Instr.ld p data voff sb lit).size
    if ls.isEmpty then .ok ((r.1.setCur (c.stepIndexes [data, voff])).retire n)
    else
      let t := r.1.launchFlight dst [data, voff] (.load c.ty) (isAcq p) false (effScope p ls) ls []
      .ok ((t.askRemote r.1.stamp (isAcq p) (fun _ => .read) 0 false ls).retire n))

/-- An acquire at .cl, .dev or .sys removes every line of the core's L1 (R67). -/
def State.acquire (s : State) (core : Nat) (sc : Scope) : State :=
  match sc with
  | .co => s
  | .wg => s
  | _ => s.emptyL1 core

/-- The checks of a local access up to its lanes (R302, R24). -/
def localLanes (s : State) (srcO dst : List Opnd) (data voff : Opnd) (sb : Nat) (lit : Option W32) (w : Nat)
    (mode : R Unit) : R (List LaneAcc) := do
  let c := s.cur
  c.check s.curL ⟨[voff], .s sb :: srcO, dst⟩ (c.pathLanes [data, voff]) mode
  let addrs := accessAddrs c [data, voff] voff sb lit w
  aligned addrs fun a => decide (a % w = 0)
  let t ← locate s addrs
  .ok (t.map fun x => ⟨x.1, .scratch x.2.1 x.2.2, c.addr voff sb lit w x.1, w, c.laneReg data x.1, 0, 0⟩)

/-- The course's earlier accesses to the bytes of a local access, and for a release all of them, are performed (R135, R141). -/
def localReady (s : State) (rel : Bool) (ls : List LaneAcc) : R Unit :=
  need (s.mayPerform s.curWg s.curCrs s.stamp (if rel then s.stamp else s.cur.relBar) (ls.map fun a => (a.tgt, a.width))) .again

/-- A qualified load or an atomic that the arbiters have performed: its acquire, and its values on their way to its registers. -/
def State.takeValues (t : State) (p : Option Acc) (dst idx : List Opnd) (ty n : Nat) (ls : List LaneAcc) (got : Tab Nat) : State :=
  let sc := match p with | some x => x.scope | none => .co
  let u := if isAcq p then t.acquire t.curW.core sc else t
  (u.launchFlight dst idx (.taken ty) (isAcq p) false sc ls got).retire n

/-- LDL (R55, R306, R308): .any reads when it lands; .full and .take read in the arbiter's step. -/
def execLdl (p : Option Acc) (data voff : Opnd) (sb : Nat) (lit : Option W32) (q : LdQual) (s : State) :
    Host.Outcome State Fault Refusal :=
  let c := s.cur
  let w := widthOf c.ty
  let dst := dataRegs data w
  let n := (Instr.ldl p data voff sb lit q).size
  let after := fun (t : State) (ls : List LaneAcc) =>
    t.arbitrated fun t got => t.takeValues p dst [data, voff] c.ty n ls got
  finish s (match c.arb with
  | some a => after s a.lanes
  | none => do
    let ls ← localLanes s [] dst data voff sb lit w (do
      c.needTy memTypes
      need (quadOk data w) illegal)
    if ls.isEmpty then .ok ((s.setCur (c.stepIndexes [data, voff])).retire n)
    else if q = .any then
      unpoisoned s false ls
      .ok ((s.launchFlight dst [data, voff] (.load c.ty) (isAcq p) false
        (match p with | some x => x.scope | none => .co) ls []).retire n)
    else
      localReady s false ls
      after (s.present (some true) (if q = .take then some false else none) .read dst ls) ls)

-- ## ST and STL

/-- The value a lane stores: the low w bytes of its register, or the 16 bytes of four. -/
def Course.storeValue (c : Course) (data : Opnd) (w l : Nat) : Nat :=
  if w = 16 then c.quad data l
  else match data with
    | .s n => (c.sreg n).toNat % 2 ^ (8 * w)
    | _ => (c.src data l).toNat % 2 ^ (8 * w)

/-- The first lane whose peer the set of a batch has no place for: a set holds at most 64 (R116). The manual does not say which
lane BATCHFULL names where several bring new peers (log entry 63). -/
def overflows (peers : List Nat) (ls : List LaneAcc) : Option LaneAcc :=
  match ls with
  | [] => none
  | a :: r => match a.tgt with
    | .remote p _ =>
      if peers.contains p then overflows peers r
      else if 64 ≤ peers.length then some a
      else overflows (peers ++ [p]) r
    | _ => overflows peers r

/-- The peers that the remote lanes would add to the batch stay within 64 (R116). -/
def batchFits (c : Course) (b : Nat) (ls : List LaneAcc) : Bool := (overflows (c.batch b).peers ls).isNone

/-- The BATCHFULL trap of the lane that does not fit, with its address and peer. -/
def batchFull (c : Course) (b : Nat) (ls : List LaneAcc) : R Unit :=
  match overflows (c.batch b).peers ls with
  | none => .ok ()
  | some a => .error (.trap { code := 0x0B, arr := 7, lane := a.lane, fva := a.va,
                              peer := match a.tgt with | .remote p _ => p | _ => 0 })

/-- A pending write of a lane. The lanes of one store are unordered, but for bytes that several of them write, where the highest
one's value remains (R133); the model stamps them in ascending order, and a release store's lanes are then performed in that
order, each being its own barrier: a choice of the model (log entry 64). -/
def State.pendWrite (s : State) (a : LaneAcc) (column : Bool) (rel : Bool) (red : Option (Nat × Nat × Bool)) : State :=
  let w : PWrite := { id := s.stamp, uid := s.curWg, crs := s.curCrs, tgt := a.tgt, width := a.width, data := a.v,
                      column := column, relBar := if rel then s.stamp else s.cur.relBar, red := red }
  { s.fresh with pend := s.pend ++ [w] }

/-- A flight of the course that has not landed reads one of the bytes: a buffered write waits for it (R135). -/
def flightClear (c : Course) (ls : List LaneAcc) : Bool :=
  c.flights.all fun f => ls.all fun a => !f.touches a.tgt a.width

/-- The lanes' stores take their ways: into the version, to the fabric, or to their homes. -/
def storeLanes (s : State) (b : Nat) (rel : Bool) (ls : List LaneAcc) : R State :=
  ls.foldlM (fun t a =>
    match a.tgt with
    | .remote p pa =>
      if t.buffers t.curWg then
        match t.versionWrite t.curWg b (some p) pa (bytesOf a.width a.v) with
        | some u => .ok u
        | none => .error fullVersion
      else .ok (t.remoteStore t.curWg t.curCrs b a.lane p pa a.width a.v .write 0 false)
    | .stack pa =>
      if t.buffers t.curWg then
        match t.versionWrite t.curWg b none pa (bytesOf a.width a.v) with
        | some u => .ok u
        | none => .error fullVersion
      else .ok (t.pendWrite a false rel none)
    | _ => .ok (t.pendWrite a false rel none)) s

/-- ST (R306, R307). -/
def execSt (p : Option Acc) (data voff : Opnd) (sb : Nat) (lit : Option W32) (batch : Nat) (s : State) :
    Host.Outcome State Fault Refusal :=
  finish s (do
    let c := s.cur
    let w := widthOf c.ty
    c.check s.curL ⟨[voff], .s sb :: dataRegs data w, []⟩ (c.pathLanes [data, voff]) (do
      c.needTy memTypes
      need (quadOk data w) illegal)
    let addrs := accessAddrs c [data, voff] voff sb lit w
    aligned addrs fun a => decide (a % w = 0)
    let r ← translate s 1 addrs
    let ls : List LaneAcc := r.2.map fun x =>
      ⟨x.1, x.2.target, c.addr voff sb lit w x.1, w, 0, c.storeValue data w x.1, 0⟩
    keeping r.1 (batchFull c batch ls)
    remoteReady r.1 (isRel p) ls
    need (!s.buffers s.curWg || flightClear c ls) .again
    let t ← storeLanes r.1 batch (isRel p) ls
    .ok ((t.setCur (t.cur.stepIndexes [data, voff])).retire (Instr.st p data voff sb lit batch).size))

/-- STL (R56, R306, R308). -/
def execStl (p : Option Acc) (data voff : Opnd) (sb : Nat) (lit : Option W32) (q : StQual) (s : State) :
    Host.Outcome State Fault Refusal :=
  let c := s.cur
  let w := widthOf c.ty
  let n := (Instr.stl p data voff sb lit q).size
  let after := fun (t : State) =>
    t.arbitrated fun t _ => (t.fresh.setCur (t.cur.stepIndexes [data, voff])).retire n
  finish s (match c.arb with
  | some _ => after s
  | none => do
    let ls0 ← localLanes s (dataRegs data w) [] data voff sb lit w (do
      c.needTy memTypes
      need (quadOk data w) illegal)
    let ls := ls0.map fun a => { a with v := c.storeValue data w a.lane }
    if ls.isEmpty then .ok ((s.setCur (c.stepIndexes [data, voff])).retire n)
    else if q = .any then
      let t := ls.foldl (fun t a => t.pendWrite a false (isRel p) none) s
      .ok ((t.setCur (t.cur.stepIndexes [data, voff])).retire n)
    else
      localReady s (isRel p) ls
      after (s.present (if q = .put then some false else none) (some (decide (q ≠ .empty))) .write [] ls))

-- ## LDCOL and STCOL (R309)

/-- The types a column access takes: those of widths 1, 2 and 4 that are not packed. -/
def colTypes : List Nat := [0, 1, 2, 3, 4, 5, 8, 9, 10, 16]

/-- The checks of a column access, its page translated with kind `kind`; the lanes are the active ones. -/
def columnLanes (s : State) (kind : Nat) (srcO dst : List Opnd) (data voff : Opnd) (sb : Nat) (lit : Option W32) :
    R (State × List LaneAcc) := do
  let c := s.cur
  let w := widthOf c.ty
  c.check s.curL ⟨[voff], .s sb :: srcO, dst⟩ (lanesOf c.active) (c.needTy colTypes)
  let a := c.addr voff sb lit w 0
  let first := (lanesOf c.active).headD 0
  aligned [(first, a)] fun x => decide (x % w = 0) && decide (x % 1024 < 32)
  let r ← translate s kind [(first, a)]
  match r.2 with
  | [] => .ok (r.1, [])
  | x :: _ => .ok (r.1, (lanesOf c.active).map fun q =>
      ⟨q, .stack (x.2.pa + 32 * q), a + 32 * q, w, c.laneReg data q, c.storeValue data w q, 0⟩)

/-- LDCOL: served at home under R74 and R76, never from the L1. -/
def execLdcol (data voff : Opnd) (sb : Nat) (lit : Option W32) (s : State) : Host.Outcome State Fault Refusal :=
  finish s (do
    let c := s.cur
    let r ← columnLanes s 4 [] [data] data voff sb lit
    keeping r.1 (unpoisoned r.1 false r.2)
    let n := (Instr.ldcol data voff sb lit).size
    if r.2.isEmpty then .ok ((r.1.setCur (c.stepIndexes [data])).retire n)
    else .ok ((r.1.launchFlight [data] [data] (.load (c.ty + 32)) false false .co r.2 []).retire n))

/-- Every line of the slate of a column write leaves the core's L1 (R66, R77). -/
def State.dropSlateLines (s : State) (core : Nat) (a : LaneAcc) : State :=
  match a.tgt with
  | .stack pa => s.dropL1 core fun l => decide (l / 8 = slateOf pa)
  | _ => s

/-- STCOL: a column write performed at the slice, which takes the slate's lines from the core's L1 (R76, R77). -/
def execStcol (data voff : Opnd) (sb : Nat) (lit : Option W32) (s : State) : Host.Outcome State Fault Refusal :=
  finish s (do
    let c := s.cur
    let r ← columnLanes s 5 [data] [] data voff sb lit
    need (!s.buffers s.curWg || flightClear c r.2) .again
    let t ← (if s.buffers s.curWg then storeLanes r.1 0 false r.2
      else .ok (r.2.foldl (fun t a => t.pendWrite a true false none) r.1))
    let t := if s.buffers s.curWg then r.2.foldl (fun t a => t.dropSlateLines s.curW.core a) t else t
    .ok ((t.setCur (t.cur.stepIndexes [data])).retire (Instr.stcol data voff sb lit).size))

-- ## SPILL and FILL (R322)

/-- The number and class of a block register. -/
def blockNo : Opnd → Nat
  | .v n => n
  | .s n => n
  | .x n => n

/-- Block size: 128 bytes for a vector register, 8 for a scalar one. -/
def blockSize (o : Opnd) : Nat := match o with | .v _ => 128 | _ => 8

/-- A register as the bytes of its block. -/
def Course.blockBytes (c : Course) (o : Opnd) : List Byte :=
  match o with
  | .v n => (c.vreg n).toList.flatMap fun x => bytesOf 4 x.toNat
  | .s n => bytesOf 8 (c.sreg n).toNat
  | .x _ => []

/-- A register filled from its block. -/
def Course.fillBlock (c : Course) (o : Opnd) (bs : List Byte) : Course :=
  match o with
  | .v n => c.setV n 0xFFFFFFFF fun l => BitVec.ofNat 32 (leBytes ((bs.drop (4 * l)).take 4))
  | .s n => c.setS n (BitVec.ofNat 64 (leBytes bs))
  | .x _ => c

/-- The common part of SPILL and FILL: the range's registers, REPST's place k, the checks that come before the blocks, and the
address of block k. -/
def blockStart (s : State) (first last : Opnd) (sb : Nat) (lit : Option W32) (isFill : Bool) : R (Nat × Nat × Nat) := do
  let c := s.cur
  let n := blockNo last + 1 - blockNo first
  let k := if c.repAct then c.repDone else 0
  let rest := (List.range (n - k)).map fun j => first.plus (k + j)
  c.check s.curL ⟨[], [.s sb], if isFill then rest else []⟩ [0] (do
    need (allotted s.curL last && allotted s.curL first) illegal)
  let b := wrap 64 ((c.sreg sb).toNat + (match lit with | some i => i.toInt | none => 0))
  need (decide (b % blockSize first = 0)) (trapCode 0x07)
  .ok (n, k, wrap 64 (b + k * blockSize first))

/-- After block k of n: the next block, or past the instruction with REPST zero. -/
def State.afterBlock (s : State) (n k size : Nat) : State :=
  if k + 1 < n then s.setCur { s.cur with repst := repWord true n (k + 1) }
  else (s.setCur { s.cur with repst := 0 }).retire size

/-- A stop of block k records COUNT n and DONE k, so that a trap record holds them (R322). -/
def blockStop (s : State) (n k : Nat) (r : R State) : R State :=
  match r with
  | .ok t => .ok t
  | .error (.trap t) => .error (.after (s.setCur { s.cur with repst := repWord true n k }) (.trap t))
  | .error (.failure f) => .error (.after (s.setCur { s.cur with repst := repWord true n k }) (.failure f))
  | .error (.after u (.trap t)) => .error (.after (u.setCur { u.cur with repst := repWord true n k }) (.trap t))
  | .error e => .error e

/-- The 16-byte units of a block are separate plain accesses (R129); a scalar's block is one of 8 bytes. -/
def blockUnits (t : Target → Nat → LaneAcc) (x : Xlat) (size : Nat) : List LaneAcc :=
  if size = 8 then [t x.target 0]
  else (List.range 8).map fun j => t (match x.target with
    | .stack pa => .stack (pa + 16 * j) | .remote p pa => .remote p (pa + 16 * j) | .cached p pa => .cached p (pa + 16 * j)
    | y => y) j

/-- SPILL: one block a step, all or nothing; each block is a place where the course can stop. -/
def execSpill (first last : Opnd) (sb : Nat) (lit : Option W32) (s : State) : Host.Outcome State Fault Refusal :=
  finish s (do
    let (n, k, a) ← blockStart s first last sb lit false
    let c := s.cur
    blockStop s n k (do
      c.check s.curL ⟨[], [first.plus k], []⟩ (List.range 32) (.ok ())
      let r ← translate s 1 [(0, a)]
      match r.2 with
      | [] => .error .again
      | x :: _ =>
        let bs := c.blockBytes (first.plus k)
        let unit := min 16 (blockSize first)
        let ls := blockUnits (fun tg j => ⟨0, tg, a + unit * j, unit, 0, leBytes ((bs.drop (unit * j)).take unit), 0⟩) x.2
          (blockSize first)
        keeping r.1 (batchFull c 0 ls)
        remoteReady r.1 false ls
        need (!s.buffers s.curWg || flightClear c ls) .again
        let t ← storeLanes r.1 0 false ls
        .ok (t.afterBlock n k (Instr.spill first last sb lit).size)))

/-- A 16-byte unit of a block under the lowest of its lanes, as a trap names it. -/
def fillLane (a : LaneAcc) : LaneAcc := { a with lane := 4 * a.lane }

/-- FILL: one block a step, read at its home once the course's earlier accesses to it are performed. A remote block
comes back through a flight, and the block's register turns full when it lands. -/
def execFill (first last : Opnd) (sb : Nat) (lit : Option W32) (s : State) : Host.Outcome State Fault Refusal :=
  finish s (do
    let (n, k, a) ← blockStart s first last sb lit true
    let c := s.cur
    blockStop s n k (do
      let r ← translate s 0 [(0, a)]
      match r.2 with
      | [] => .error .again
      | x :: _ =>
        let unit := min 16 (blockSize first)
        let ls := blockUnits (fun tg j => ⟨j, tg, a + unit * j, unit, blockNo first + k, 0, 0⟩) x.2 (blockSize first)
        match x.2.target with
        | .stack pa =>
          need (s.mayPerform s.curWg s.curCrs s.stamp 0 [(.stack pa, blockSize first)]) .again
          keeping r.1 (unpoisoned r.1 false (ls.map fillLane))
          let m := r.1.homeRead pa (blockSize first)
          let t := m.1.dropL1 s.curW.core fun l => decide (l = pa / 128)
          let bs := bytesOf (blockSize first) (t.taskValue s.curWg none pa (blockSize first) m.2)
          .ok ((t.setCur (c.fillBlock (first.plus k) bs)).fresh.afterBlock n k (Instr.fill first last sb lit).size)
        | _ =>
          keeping r.1 (unpoisoned r.1 false (ls.map fillLane))
          remoteReady r.1 false ls
          let t := r.1.launchFlight [first.plus k] [] (.load 64) false false .co ls []
          .ok ((t.askRemote r.1.stamp false (fun _ => .read) 0 false ls).afterBlock n k (Instr.fill first last sb lit).size)))

-- ## REGISTER_LAND (R303, R307)

/-- A read of one lane as it is performed: an L1 hit, or at home with the line filled, for a plain load of an
unversioned task (R65, R67); at home otherwise, after which the core keeps no older copy of the line (R142); from its
scratchpad. -/
def readLane (s : State) (u : Nat) (plain : Bool) (a : LaneAcc) : State × Nat :=
  match a.tgt with
  | .stack pa =>
    let core := (s.wg u).core
    let cache := plain && !(s.grid (s.wg u).gid).launch.ver
    match (if cache then s.l1Hit core pa else none) with
    | some e => (s, leBytes ((e.data.drop (pa % 128)).take a.width))
    | none =>
      let r := s.homeRead pa a.width
      let t := if cache then r.1.fillL1 core pa else r.1.dropL1 core fun l => decide (l = pa / 128)
      (t, t.taskValue u none pa a.width r.2)
  | .scratch v x => (s, (s.wg v).read x a.width)
  | _ => (s, 0)

/-- A value that came from another module as the task sees it (R82). -/
def State.taskFar (s : State) (u : Nat) (a : LaneAcc) (v : Nat) : Nat :=
  match a.tgt with
  | .remote p pa => s.taskValue u (some p) pa a.width v
  | .cached p pa => s.taskValue u (some p) pa a.width v
  | _ => v


/-- Every remote lane of the flight has its answer. -/
def Flight.answered (f : Flight) : Bool :=
  let done := fun (a : LaneAcc) => !a.tgt.far || (Tab.find f.got a.lane).isSome || (Tab.find f.fails a.lane).isSome
  match f.kind with
  | .reserve => (f.lanes.take 1).all done
  | _ => f.lanes.all done

/-- A flight's values are written to its registers, which turn full; lanes of a 16-byte access and register blocks fill
several. A destination that a debugger forced meanwhile keeps its value (R407). -/
def Course.land (c : Course) (f : Flight) (ty : Nat) : Course :=
  let val := fun (a : LaneAcc) => Tab.get 0 f.got a.lane
  let k :=
    if f.scal then
      match f.lanes with
      | a :: _ => if f.marks.contains a.reg then
          c.setS a.reg (if ty = 64 then BitVec.ofNat 64 (val a) else extend64 (ty % 32) (val a))
        else c
      | [] => c
    else if ty = 64 then
      let at1 := fun (l : Nat) => f.lanes.find? fun a => decide (a.lane = l / 4)
      f.marks.foldl (fun k n => k.setV n (maskOf fun l => (at1 l).isSome) fun l =>
        part32 (match at1 l with | some a => val a | none => 0) (l % 4)) c
    else
      let regs := (f.lanes.map fun a => a.reg).eraseDups
      regs.foldl (fun k r =>
        let mine := f.lanes.filter fun a => decide (a.reg = r)
        let m := maskOf fun l => mine.any fun a => decide (a.lane = l)
        let of := fun l => match mine.find? fun a => decide (a.lane = l) with | some a => val a | none => 0
        if (mine.headD ⟨0, .stack 0, 0, 0, 0, 0, 0⟩).width = 16 then
          (List.range 4).foldl (fun k j =>
            if f.marks.contains (r + j) then k.setV (r + j) m fun l => part32 (of l) j else k) k
        else if !f.marks.contains r then k
        else k.setV r m fun l => extend32 (ty % 32) (of l)) c
  let full := f.marks.foldl (fun k n => if f.scal then k.markS n true else k.markV n true) k
  { full with flights := full.flights.filter (fun x => x.id ≠ f.id) }

/-- The flight reads as a plain load does, through the L1. -/
def Flight.plain (f : Flight) : Bool := match f.kind with | .load ty => !f.acq && decide (ty < 32) | _ => false

/-- The lanes of a flight performed where they are local, ascending or in the drawn order of an atomic. The manual lets the lanes of
one load see a mix of older and newer values of other agents' writes (R143); the model performs all that are local in one step,
a choice of the model (log entry 65). -/
def performLanes (s : State) (u c : Nat) (f : Flight) : State × Tab Nat :=
  match f.kind with
  | .rmw op rm ftz =>
    (rmwOrder s.steps (f.lanes.filter fun a => !a.tgt.far)).foldl (fun (t : State × Tab Nat) a =>
      let r := rmwLane t.1 u op rm ftz a
      (r.1, Tab.set t.2 a.lane r.2)) (s, f.got)
  | .reserve =>
    let total := (f.lanes.foldl (fun n a => n + a.v) 0) % 2 ^ 32
    match f.lanes with
    | [] => (s, [])
    | a0 :: _ =>
      let r := match a0.tgt with
        | .stack _ => rmwLane s u 2 0 false { a0 with v := total }
        | _ => (s, Tab.get 0 f.got a0.lane)
      (r.1, (f.lanes.foldl (fun (acc : Nat × Tab Nat) a => ((acc.1 + a.v) % 2 ^ 32, Tab.set acc.2 a.lane acc.1)) (r.2, [])).2)
  | .load _ =>
    let far := (f.lanes.filter fun a => a.tgt.far).foldl (fun g a => Tab.set g a.lane (s.taskFar u a (Tab.get 0 f.got a.lane))) f.got
    (f.lanes.filter fun a => !a.tgt.far).foldl (fun (t : State × Tab Nat) a =>
      let r := readLane t.1 u f.plain a
      (r.1, Tab.set t.2 a.lane r.2)) (s, far)
  | .watch =>
    match f.lanes with
    | a :: _ =>
      let r := readLane s u false a
      let blk := match a.tgt with | .stack pa => pa / 128 | _ => 0
      ({ r.1 with monitors := (r.1.monitors.filter fun m => !(decide (m.1 = u) && decide (m.2.1 = c)))
          ++ [(u, c, a.va / 128, blk, false)] }, Tab.set f.got a.lane r.2)
    | [] => (s, f.got)
  | _ => (s, f.got)

/-- The MODE.T code under which a flight's values are extended; loads of fixed width are unsigned words. -/
def Flight.landTy (f : Flight) : Nat :=
  match f.kind with
  | .load ty => ty
  | .taken ty => ty
  | _ => 5

/-- Poison that a lane meets as it is performed, found after the instruction issued (log entry 18). -/
def Flight.poisonLane (s : State) (u : Nat) (f : Flight) : Option (LaneAcc × Nat) :=
  match f.kind with
  | .taken _ => none
  | _ => f.lanes.findSome? fun a => (s.servedPoison u f.plain a.tgt a.width).map fun k => (a, k)

/-- The first lane that failed: its status, address and peer. -/
def Flight.failure (f : Flight) : Option Failure :=
  match f.lanes.findSome? fun a => (Tab.find f.fails a.lane).map fun st => (a, st) with
  | some (a, st) => some { status := st, arr := 5, lane := if f.kind = .load 64 then (fillLane a).lane else a.lane, va := a.va,
                           peer := match a.tgt with | .remote p _ => p | .cached p _ => p | _ => 0,
                           pc := f.pc, marks := f.marks, scal := f.scal }
  | none => none

/-- The flight may land: its requests are answered, its summaries are in or late, and the order of the course's
accesses lets its lanes be performed (R135, R141, R117). -/
def State.canLand (s : State) (u c : Nat) (f : Flight) : Bool :=
  match f.kind with
  | .closeb _ ps _ got _ mt =>
    match mt with
    | some t => ps.all (fun p => got.any fun g => decide (g.1 = p)) || s.closeLate t
    | none => false
  | .message _ => (Tab.find f.got 0).isSome
  | .taken _ => true
  | _ => f.answered && (f.lanes.all (fun a => a.tgt.far)
      || s.mayPerform u c f.id f.orderedFrom (f.lanes.map fun a => (a.tgt, a.width)))

/-- A producer lands: its accesses are performed, its registers written and full. A failed remote lane leaves them empty and
marks the access failed (R113), the other lanes being performed on their own (R107); so does poison that a lane meets now, where
no lane has an effect (R91, log entry 18). -/
def landFlight (s : State) (u c : Nat) (f : Flight) : State :=
  let k := s.crs u c
  match f.kind with
  | .closeb b ps _ got er _ =>
    let v := closeResult ps got er
    let t := { s with reqs := s.reqs.filter fun r =>
      !(decide (r.uid = u) && decide (r.crs = c) && decide (r.req.batch = b) && !r.req.kind.returns && decide (r.ord < f.id)) }
    t.setCrs u c (k.land { f with lanes := [⟨0, .stack 0, 0, 8, f.marks.headD 0, 0, 0⟩], got := [(0, v)] } 1)
  | .message _ =>
    (s.acquire (s.wg u).core .sys).setCrs u c (k.land
      { f with lanes := (List.range 32).map fun l => ⟨l, .stack 0, 0, 4, f.marks.headD 0, 0, 0⟩ } 5)
  | _ =>
    let mark := fun (t : State) (e : Failure) =>
      let k := t.crs u c
      t.setCrs u c { k with flights := k.flights.filter (fun x => x.id ≠ f.id), failed := k.failed ++ [e] }
    match f.poisonLane s u with
    | some (a, arr) =>
      mark (s.missAll (f.lanes.filter fun a => !s.inL1 u f.plain a.tgt))
        { status := 4, arr := arr, lane := a.lane, va := a.va, peer := 0, pc := f.pc, marks := f.marks, scal := f.scal }
    | none =>
      let r := performLanes s u c f
      match f.failure with
      | some e => mark r.1 e
      | none =>
        let t := if f.acq then r.1.acquire (s.wg u).core f.scope else r.1
        t.setCrs u c ((t.crs u c).land { f with got := r.2 } f.landTy)

/-- REGISTER_LAND (R303): the producer of a number lands, where it may. -/
def execRegisterLand (u c id : Nat) (s : State) : Host.Outcome State Fault Refusal :=
  match (if u = hostUid then none else (s.crs u c).flights.find? fun f => decide (f.id = id)) with
  | some f => .next (if s.canLand u c f then landFlight s u c f else s)
  | none => .next s

/-- WRITE_PERFORMED (R146): a pending write takes effect at its home, where the order of its course's accesses lets it. -/
def execWritePerformed (id : Nat) (s : State) : Host.Outcome State Fault Refusal :=
  match s.pend.find? fun w => decide (w.id = id) with
  | some w => .next (if s.mayPerform w.uid w.crs w.id w.relBar [(w.tgt, w.width)] then s.retireWrite id else s)
  | none => .next s

end Sys2Proof.Machine
end

