-- ==== Sys2Proof/Machine/Atomic.lean ====
section
/-! DEFINITION. Atomics, reduction stores, reserving fetch-and-add and the closing of a batch, opcodes 0x5E to 0x62
(R310 to R314), with the deterministic form of ATOMD (R189). -/

namespace Sys2Proof.Machine

/-- The data registers that an atomic or a reduction store reads: data, and data + 1 for .cas (R311). -/
def atomSources (op : Nat) (data : Opnd) : List Opnd := if op = 10 then [data, data.plus 1] else [data]

/-- What an operation code asks of MODE and of the data field (R310, R311). -/
def atomMode (c : Course) (op : Nat) (data : Opnd) : R Unit := do
  if rmwRounds op then c.needRm else .ok ()
  need (!(op = 10 && data.isX)) illegal

/-- A lane with the values that it brings to its atomic. -/
def Course.bring (c : Course) (op : Nat) (data : Opnd) (a : LaneAcc) : LaneAcc :=
  { a with v := c.storeValue data (rmwWidth op) a.lane, c := if op = 10 then c.storeValue (data.plus 1) 4 a.lane else 0 }

/-- The lanes of a global atomic, checked and translated with kind atomic, then what the instruction's description asks besides,
`extra` (R302). -/
def atomLanes (s : State) (op : Nat) (dst : List Opnd) (data voff : Opnd) (sb : Nat) (lit : Option W32) (extra : R Unit) :
    R (State × List LaneAcc) := do
  let c := s.cur
  let w := rmwWidth op
  c.check s.curL ⟨[voff], .s sb :: atomSources op data, dst⟩ (c.pathLanes [data, voff]) (atomMode c op data)
  let addrs := accessAddrs c [data, voff] voff sb lit w
  aligned addrs fun a => decide (a % w = 0)
  let r ← translate s 2 addrs
  keeping r.1 extra
  .ok (r.1, r.2.map fun x =>
    c.bring op data ⟨x.1, x.2.target, c.addr voff sb lit w x.1, w, c.laneReg data x.1, 0, 0⟩)

/-- ATOMR (R311): illegal in a versioned task (R184). -/
def execAtomr (p : Acc) (data voff : Opnd) (sb : Nat) (lit : Option W32) (s : State) :
    Host.Outcome State Fault Refusal :=
  finish s (do
    let c := s.cur
    let (t, ls) ← atomLanes s p.op [data] data voff sb lit (need (!s.curL.ver) illegal)
    keeping t (unpoisoned t false ls)
    remoteReady t (isRel (some p)) ls
    let n := (Instr.atomr p data voff sb lit).size
    if ls.isEmpty then .ok ((t.setCur (c.stepIndexes [data, voff])).retire n)
    else
      let u := t.launchFlight [data] [data, voff] (.rmw p.op c.rm c.ftz) (isAcq (some p)) (isRel (some p))
        (effScope (some p) ls) ls []
      .ok ((u.askRemote t.stamp false (fun _ => .rmw p.op) c.rm c.ftz ls).retire n))

/-- ATOML (R57, R311): each scratchpad's lanes apply in turn in one step of its arbiter, in an order that is drawn. -/
def execAtoml (p : Acc) (data voff : Opnd) (sb : Nat) (lit : Option W32) (full : Bool) (s : State) :
    Host.Outcome State Fault Refusal :=
  let c := s.cur
  let n := (Instr.atoml p data voff sb lit full).size
  let after := fun (t : State) (ls : List LaneAcc) =>
    t.arbitrated fun t got => t.takeValues (some p) [data] [data, voff] 5 n ls got
  finish s (match c.arb with
  | some a => after s a.lanes
  | none => do
    let ls0 ← localLanes s (atomSources p.op data) [data] data voff sb lit (rmwWidth p.op) (atomMode c p.op data)
    let ls := ls0.map (c.bring p.op data)
    if ls.isEmpty then .ok ((s.setCur (c.stepIndexes [data, voff])).retire n)
    else
      localReady s (isRel (some p)) ls
      after (s.present (if full then some true else none) none (.rmw p.op c.rm c.ftz) [data] ls) ls)

/-- The lanes' reduction stores take their ways: into the log, to the fabric, or to their homes. In deterministic mode an
unbuffered task's go into its log too, from which alone they are applied (R190, log entry 66). -/
def redLanes (s : State) (p : Acc) (batch : Nat) (ls : List LaneAcc) : R State :=
  let c := s.cur
  ls.foldlM (fun t a =>
    let go := fun (peer : Option Nat) (pa : Nat) (else1 : State) =>
      if t.buffers t.curWg || t.curL.det then
        match t.versionRed t.curWg ⟨t.curCrs, false, peer, pa, p.op, c.rm, c.ftz, a.width, a.v, batch⟩ with
        | some u => (.ok u : R State)
        | none => .error fullVersion
      else .ok else1
    match a.tgt with
    | .stack pa => go none pa (t.pendWrite a false (isRel (some p)) (some (p.op, c.rm, c.ftz)))
    | .remote q pa =>
      go (some q) pa (t.remoteStore t.curWg t.curCrs batch a.lane q pa a.width a.v (.red p.op) c.rm c.ftz)
    | _ => .ok t) s

/-- The order in which the lanes of a reduction store go: ascending into a task's log (R80, R190) and to other modules, whose
numbers ascend (R115); an order that is drawn at this module's logic dies otherwise (R86). -/
def redOrder (s : State) (ls : List LaneAcc) : List LaneAcc :=
  if s.buffers s.curWg || s.curL.det then ls else (ls.filter fun a => a.tgt.far) ++ rmwOrder s.steps (ls.filter fun a => !a.tgt.far)

/-- RED (R312): one reduction store for each active lane; a versioned task's go to its log (R80, R184). -/
def execRed (p : Acc) (data voff : Opnd) (sb : Nat) (lit : Option W32) (batch : Nat) (s : State) :
    Host.Outcome State Fault Refusal :=
  finish s (do
    let (t, ls) ← atomLanes s p.op [] data voff sb lit (.ok ())
    keeping t (batchFull s.cur batch ls)
    remoteReady t (isRel (some p)) ls
    let u ← redLanes t p batch (redOrder s ls)
    .ok ((u.setCur (u.cur.stepIndexes [data, voff])).retire (Instr.red p data voff sb lit batch).size))

-- ## ATOMD (R313, R189)

/-- Adds a task's increments for an address to those it holds, in the order of first use. -/
def addDet (ds : List (Option Nat × Nat × Nat)) (peer : Option Nat) (pa n : Nat) : List (Option Nat × Nat × Nat) :=
  if ds.any fun d => decide (d.1 = peer) && decide (d.2.1 = pa) then
    ds.map fun d => if d.1 = peer ∧ d.2.1 = pa then (d.1, d.2.1, d.2.2 + n) else d
  else ds ++ [(peer, pa, n)]

/-- The offsets of the active lanes from a first value, ascending (R189, R313). -/
def offsets (first : Nat) (ls : List LaneAcc) : Tab Nat :=
  (ls.foldl (fun (acc : Nat × Tab Nat) a => ((acc.1 + a.v) % 2 ^ 32, Tab.set acc.2 a.lane acc.1)) (first % 2 ^ 32, [])).2

/-- ATOMD: one fetch-and-add for all lanes; in deterministic mode no access, but offsets from the course's own range,
and the reservation trap when they would pass its end. -/
def execAtomd (data voff : Opnd) (sb : Nat) (lit : Option W32) (s : State) : Host.Outcome State Fault Refusal :=
  finish s (do
    let c := s.cur
    let lanes := lanesOf c.active
    c.check s.curL ⟨[voff], [.s sb, data], [data]⟩ lanes (.ok ())
    let a := c.addr voff sb lit 4 0
    let addrs := (lanes.take 1).map fun l => (l, a)
    aligned addrs fun x => decide (x % 4 = 0)
    let r ← translate s 2 addrs
    let n := (Instr.atomd data voff sb lit).size
    match r.2 with
    | [] => .ok ((r.1.setCur (c.stepIndexes [data])).retire n)
    | x :: _ =>
      let ls : List LaneAcc := lanes.map fun l => ⟨l, x.2.target, a, 4, c.laneReg data l, (c.src data l).toNat, 0⟩
      let total := ls.foldl (fun n a => n + a.v) 0
      if s.curL.det then
        let share := s.curL.k / s.curL.ncrs
        keeping r.1 (need (decide (c.detUsed + total ≤ share)) (trapCode 0x0C))
        let base := s.curW.w * s.curL.k + s.curCrs * share + c.detUsed
        let (peer, pa) := match x.2.target with | .stack pa => (none, pa) | .remote q pa => (some q, pa) | _ => (none, 0)
        let t := r.1.setCur { c with detUsed := c.detUsed + total }
        let u := t.setCurW { t.curW with detadd := addDet t.curW.detadd peer pa total }
        .ok ((u.launchFlight [data] [data] (.taken 5) false false .co ls (offsets base ls)).retire n)
      else
        keeping r.1 (unpoisoned r.1 false (ls.take 1))
        remoteReady r.1 false (ls.take 1)
        let u := r.1.launchFlight [data] [data] .reserve false false .co ls []
        .ok ((u.askRemote r.1.stamp false (fun _ => .rmw 2) 0 false
          ((ls.take 1).map fun a => { a with v := total % 2 ^ 32 })).retire n))

-- ## CLOSEB (R117, R314)

/-- A pending failure is raised before the instruction acts (R113). -/
def Course.raisePending (c : Course) : R Unit :=
  match c.failed with
  | f :: _ => .error (.failure f)
  | [] => .ok ()

/-- CLOSEB: the batch is closed and zero again; its summaries come back into d. Illegal in a versioned task (R120). -/
def execCloseb (d : Opnd) (b : Nat) (s : State) : Host.Outcome State Fault Refusal :=
  finish s (do
    let c := s.cur
    c.check s.curL ⟨[], [], [d]⟩ [0] (.ok ())
    need (!s.curL.ver) illegal
    c.raisePending
    need (!c.closesOut (some b)) (.wait .performed)
    let x := c.batch b
    let got := (x.peers.filter x.down.contains).map fun p => (p, 2 ^ 32 - 1)
    let t := (s.setCur (c.setBatch b { Batch.zero with gen := x.gen + 1 })).launchFlight [d] []
      (.closeb (c.batchNo b) x.peers x.sent got x.errs none) false false .sys [] []
    .ok (t.closeMarkers.retire 4))

end Sys2Proof.Machine
end

