-- ==== Sys2Proof/Machine/Sync.lean ====
section
/-! DEFINITION. Fences, hardware barriers, monitors, the soft interrupt, the end of a versioned task's course, and step
mailboxes, opcodes 0x63 to 0x67, 0x6A, 0x6B (R315 to R321, R323 to R325, R391, R392). -/

namespace Sys2Proof.Machine

-- ## FENCE (R138, R315, R316)

/-- The flight is the summary of a closed batch; FENCE waits for one only when its summary is discarded (R314). -/
def Flight.isClose (f : Flight) : Bool :=
  match f.kind with
  | .closeb _ _ _ _ _ _ => true
  | _ => false

/-- Every read and atomic of the course has landed. -/
def Course.readsDone (c : Course) : Bool := c.flights.all fun f => f.isClose
/-- No remote load or atomic is outstanding, and no discarded summary. -/
def Course.repliesDone (c : Course) : Bool :=
  c.flights.all fun f => if f.isClose then !f.marks.isEmpty else !(f.lanes.any fun a => a.tgt.far)
/-- No write of a course waits to be performed. -/
def State.writesDone (s : State) (u c : Nat) : Bool := s.pend.all fun w => !(decide (w.uid = u) && decide (w.crs = c))

/-- Everything before in program order has been performed, remote stores excepted (R135, R156). -/
def State.allDone (s : State) : Bool := s.cur.readsDone && s.writesDone s.curWg s.curCrs

/-- The kind orders the reads before it. -/
def fenceAcq : FenceKind → Bool
  | .rel => false
  | _ => true
/-- The kind orders the writes after it. -/
def fenceRel : FenceKind → Bool
  | .acq => false
  | _ => true

/-- FENCE: it waits for the replies of remote loads and atomics; an acquire also for every read before it, and it
empties the L1 at .cl and wider; after a release, writes are performed behind everything before it; .sc waits for
everything before it, so that the fences stand in the order in which they complete. -/
def execFence (kind : FenceKind) (sc : Scope) (s : State) : Host.Outcome State Fault Refusal :=
  finish s (do
    let c := s.cur
    s.reportPoint
    c.raisePending
    need c.repliesDone (.wait .performed)
    need (!fenceAcq kind || c.readsDone) (.wait .performed)
    need (kind ≠ .sc || s.allDone) (.wait .performed)
    let t := if fenceAcq kind then s.acquire s.curW.core sc else s
    let u := if fenceRel kind then (t.setCur { t.cur with relBar := t.stamp }).fresh else t
    .ok (u.retire 4))

/-- FENCE.WB (R316): the slate of an address that resolves local is written back (R78). -/
def execFenceWb (a : Opnd) (s : State) : Host.Outcome State Fault Refusal :=
  finish s (do
    let c := s.cur
    c.check s.curL ⟨[a], [], []⟩ [0] (.ok ())
    let r ← translate s 0 [(0, (c.src64 a).toNat)]
    match r.2 with
    | x :: _ =>
      keeping r.1 (need (decide (x.2.res = .here)) illegal)
      .ok ((r.1.writeBack (slateOf x.2.pa)).retire 4)
    | [] => .error .again)

-- ## BAR (R317, R318)

/-- A barrier of the workgroup that issues. -/
def State.bar (s : State) (b : Nat) : Bar := Tab.get Bar.fresh s.curW.bars b
/-- Replaces it, and ends its phase when that is complete. -/
def State.setBar (s : State) (b : Nat) (x : Bar) : State :=
  s.setCurW ({ s.curW with bars := Tab.put Bar.fresh s.curW.bars b x }.settleBar s.curL.ncrs b)

/-- The checks of BAR: its registers, then that the barrier exists (R253, R318). -/
def barCheck (s : State) (bar : Nat) (srcO dst : List Opnd) : R Unit := do
  s.cur.check s.curL ⟨[], srcO, dst⟩ [0] (.ok ())
  need (decide (bar < s.curL.nbar)) illegal

/-- The arrival: a release at .wg; the phase number goes to d; a course that has arrived already waits for the next
phase. -/
def barArrival (s : State) (bar : Nat) (d : Opnd) : R State := do
  barCheck s bar [] [d]
  need s.allDone (.wait .performed)
  let b := s.bar bar
  need (!b.arr.getLsbD s.curCrs) (.wait (.arrival bar))
  let t := s.setCur (s.cur.writeScalar d (b.ph.setWidth 64))
  .ok (t.setBar bar { b with arr := b.arr ||| BitVec.ofNat 32 (2 ^ s.curCrs) })

/-- BAR.ARRIVE. -/
def execBarArrive (d : Opnd) (bar : Nat) (s : State) : Host.Outcome State Fault Refusal :=
  finish s (do
    let t ← barArrival s bar d
    .ok (t.retire 4))

/-- BAR.WAIT: waits while the phase is the one of b. -/
def execBarWait (bar : Nat) (b : Opnd) (s : State) : Host.Outcome State Fault Refusal :=
  finish s (do
    s.reportPoint
    barCheck s bar [b] []
    let ph : W32 := (s.cur.src64 b).setWidth 32
    need (decide ((s.bar bar).ph ≠ ph)) (.wait (.barrier bar ph))
    .ok (s.retire 4))

/-- BAR.SYNC: it arrives once, then waits for that phase. -/
def execBarSync (d : Opnd) (bar : Nat) (s : State) : Host.Outcome State Fault Refusal :=
  finish s (do
    let through := fun (t : State) (ph : W32) =>
      if (t.bar bar).ph = ph then (t.setCur { t.cur with sync := some (bar, ph) }).park (.barrier bar ph)
      else (t.setCur { t.cur with sync := none }).retire 4
    s.reportPoint
    match s.cur.sync with
    | some (b, ph) =>
      if b = bar then .ok (through s ph)
      else do
        let t ← barArrival s bar d
        .ok (through t (s.bar bar).ph)
    | none => do
      let t ← barArrival s bar d
      .ok (through t (s.bar bar).ph))

/-- BAR.EXPECT: EXP grows, and may complete the phase. -/
def execBarExpect (bar : Nat) (b : Opnd) (s : State) : Host.Outcome State Fault Refusal :=
  finish s (do
    barCheck s bar [b] []
    let x := s.bar bar
    let n := x.exp + (s.cur.src64 b).toNat % 2 ^ 32
    need (decide (n < 2 ^ 32)) illegal
    .ok ((s.setBar bar { x with exp := n }).retire 4))

-- ## MONITOR and MWAIT (R319, R320)

/-- MONITOR: an acquire read at .dev that arms the course's monitor as it is performed. -/
def execMonitor (data voff : Opnd) (sb : Nat) (lit : Option W32) (s : State) : Host.Outcome State Fault Refusal :=
  finish s (do
    let c := s.cur
    c.check s.curL ⟨[voff], [.s sb], [data]⟩ [0] (.ok ())
    let a := c.addr voff sb lit 4 0
    aligned [(0, a)] fun x => decide (x % 4 = 0)
    let r ← translate s 0 [(0, a)]
    match r.2 with
    | x :: _ =>
      keeping r.1 (need (decide (x.2.res = .here)) illegal)
      let ls : List LaneAcc := [⟨0, x.2.target, a, 4, c.laneReg data 0, 0, 0⟩]
      keeping r.1 (unpoisoned r.1 false ls)
      .ok ((r.1.launchFlight [data] [] .watch true false .dev ls []).retire (Instr.monitor data voff sb lit).size)
    | [] => .error .again)

/-- The monitor of a course. -/
def State.monitorOf (s : State) (u c : Nat) : Option (Nat × Nat × Nat × Nat × Bool) :=
  s.monitors.find? fun m => decide (m.1 = u) && decide (m.2.1 = c)
/-- The course has no monitor armed. -/
def State.disarm (s : State) (u c : Nat) : State :=
  { s with monitors := s.monitors.filter fun m => !(decide (m.1 = u) && decide (m.2.1 = c)) }

/-- The armed block has been written since, or nothing is armed: MWAIT returns. -/
def State.monitorOver (s : State) (u c : Nat) : Bool :=
  match s.monitorOf u c with
  | some m => m.2.2.2.2
  | none => true

/-- The course's latest MONITOR has not been performed yet. -/
def Course.arming (c : Course) : Bool := c.flights.any fun f => decide (f.kind = .watch)

/-- The wait-timeout of an MWAIT: within a REP the repetition counts as complete, and the resume address is the REP
word (R257). While the trap record cannot be written yet, the course waits as before. -/
def mwaitExpired (s : State) : State :=
  let c := { s.cur with limit := none }
  let u :=
    if s.inRep then
      stopped (s.setCur { c with repst := repWord true c.repCount (c.repDone + 1) }) (.trap { code := 0x11 })
    else stopped (s.setCur c) (.trap { code := 0x11, resume := some (c.pc + 4) })
  if u.cur.tlev = s.cur.tlev ∧ u.curG.abort = none then u.setCur { u.cur with limit := s.cur.limit, repst := s.cur.repst }
  else u.disarm s.curWg s.curCrs

/-- MWAIT: returns once the block has been written, on a single step, or traps when its time has run out. -/
def execMwait (a : Opnd) (s : State) : Host.Outcome State Fault Refusal :=
  finish s (do
    let c := s.cur
    c.check s.curL ⟨[a], [], []⟩ [0] (.ok ())
    need (!c.arming) .again
    let fired := s.monitorOver s.curWg s.curCrs || c.stepping
    let first := decide (c.wait ≠ some .mwait)
    if fired then
      .ok ((s.setCur { c with limit := none }).disarm s.curWg s.curCrs |>.retire 4)
    else if first then
      let n := c.src64 a
      .ok ((s.setCur { c with limit := if n = 0 then none else some n }).park .mwait)
    else if c.limit = some 0 then .ok (mwaitExpired s)
    else .error (.wait .mwait))

-- ## SIGQ (R321)

/-- The SIGQ record. -/
def State.sigqRecord (s : State) (payload : W64) (code : Nat) (host : Bool) : List Byte :=
  bytesOf 8 payload.toNat ++ bytesOf 8 s.curL.cpla ++ bytesOf 8 s.curW.w ++ bytesOf 1 s.curCrs ++ bytesOf 1 code
    ++ bytesOf 1 (ofBool host) ++ bytesOf 1 0 ++ bytesOf 4 (s.dtime / 2 ^ 16)

/-- SIGQ: behind everything before it, and held while its destination's event path is full. -/
def execSigq (a : Opnd) (code : Nat) (host : Bool) (s : State) : Host.Outcome State Fault Refusal :=
  finish s (do
    let c := s.cur
    c.check s.curL ⟨[a], [], []⟩ [0] (.ok ())
    need s.allDone (.wait .structural)
    need (!(if host then s.evHost else s.evMgmt).full) (.wait .structural)
    let e : Event := ⟨3, s.sigqRecord (c.src64 a) code host⟩
    let t : State := if host then { s with evHost := s.evHost.post e } else { s with evMgmt := s.evMgmt.post e }
    .ok (t.retire 4))

-- ## TEND (R323)

/-- TEND: adds a guard to the task and ends the course as EXIT does; in an unbuffered task the guard word is read at
once, and a mismatch aborts the grid with cause 2 (R182). -/
def execTend (data voff : Opnd) (sb : Nat) (lit : Option W32) (s : State) : Host.Outcome State Fault Refusal :=
  finish s (do
    let c := s.cur
    c.check s.curL ⟨[voff], [.s sb, data], []⟩ [0] (.ok ())
    let a := c.addr voff sb lit 4 0
    aligned [(0, a)] fun x => decide (x % 4 = 0)
    let r ← translate s 0 [(0, a)]
    match r.2 with
    | [] => .error .again
    | x :: _ =>
      keeping r.1 (need (s.curL.ver && decide (x.2.res = .here)) illegal)
      s.mayEnd
      let v := (c.src64 data).toNat % 2 ^ 32
      if s.curW.unbuf then
        need (s.mayPerform s.curWg s.curCrs s.stamp 0 [(.stack x.2.pa, 4)]) .again
        keeping r.1 (unpoisoned r.1 false [⟨0, .stack x.2.pa, a, 4, 0, 0, 0⟩])
        let m := r.1.homeRead x.2.pa 4
        if m.2 = v then .ok m.1.endCourse else .ok (m.1.abortOf s.curWg 2)
      else .ok (r.1.setCurW { r.1.curW with guards := r.1.curW.guards ++ [(x.2.pa, v)] }).endCourse)

-- ## Step mailboxes (R324, R325, R391, R392)

/-- MEPI of a binding. -/
def Mbox.epi (m : Mbox) : Nat := bits m.binding.toNat 31 0
/-- MCORE. -/
def Mbox.core (m : Mbox) : Nat := bits m.binding.toNat 35 32
/-- MBV. -/
def Mbox.valid (m : Mbox) : Bool := bit m.binding.toNat 36
/-- EPI of a core (R388). -/
def Eave.epiNo (e : Eave) : Nat := bits e.epi.toNat 31 0

/-- The mailbox exists and is bound to an episode. -/
def State.bound (s : State) (m : Nat) : Bool :=
  let x := s.mbox m
  decide (m < 256) && x.valid && x.epi ≠ 0 && decide (x.epi = (s.eave x.core).epiNo)

/-- The message of a mailbox goes to the MBRECV that reached the ring first and has none (R324). -/
def State.feed (s : State) (m : Nat) : State :=
  let waiting := s.wgs.flatMap fun w => w.2.courses.flatMap fun k => k.2.flights.filterMap fun f =>
    match f.kind with
    | .message n => if n = m ∧ f.got = [] then some (f.id, w.1, k.1) else none
    | _ => none
  match (s.mbox m).obs, waiting.foldl (fun (b : Option (Nat × Nat × Nat)) x => match b with
      | some y => if x.1 < y.1 then some x else some y
      | none => some x) none with
  | o :: r, some (id, u, c) =>
    (s.setMbox m { s.mbox m with obs := r }).setCrs u c ((s.crs u c).mapFlight id fun f =>
      { f with got := (List.range 32).map fun l => (l, if l < 16 then bits o.toNat (32 * l + 31) (32 * l) else 0) })
  | _, _ => s

/-- Every message that a waiting MBRECV can take is taken: at most one a ring place. -/
def State.feedAll (s : State) (m : Nat) : State := (List.range 16).foldl (fun t _ => t.feed m) s

/-- A message with the bytes that the device writes: identifier, kind and zeros (R392). -/
def stampMessage (x : BitVec 512) (epi kind : Nat) : BitVec 512 :=
  BitVec.ofNat 512 (epi % 2 ^ 32 + bits x.toNat 95 32 * 2 ^ 32 + kind * 2 ^ 96 + x.toNat / 2 ^ 128 * 2 ^ 128)

/-- The first 64 bytes of a vector register. -/
def Course.message (c : Course) (a : Opnd) : BitVec 512 :=
  BitVec.ofNat 512 ((List.range 16).foldl (fun n l => n + (c.src a l).toNat * 2 ^ (32 * l)) 0)

/-- MBSEND: appends the message to the action ring, behind everything before it; a full ring makes the course wait. -/
def execMbsend (d a : Opnd) (s : State) : Host.Outcome State Fault Refusal :=
  finish s (do
    let c := s.cur
    c.check s.curL ⟨[a], [d], []⟩ (List.range 16) (.ok ())
    let m := (c.src64 d).toNat
    need (s.bound m) (trapCode 0x0D)
    need s.allDone (.wait .performed)
    let x := s.mbox m
    need (decide (x.actions.length < 16)) (.wait (.mailbox m))
    .ok ((s.setMbox m { x with actions := x.actions ++ [stampMessage (c.message a) x.epi 0] }).retire 4))

/-- MBRECV: takes the oldest observation, or is in flight until one arrives. -/
def execMbrecv (d a : Opnd) (s : State) : Host.Outcome State Fault Refusal :=
  finish s (do
    let c := s.cur
    c.check s.curL ⟨[a], [], [d]⟩ [0] (.ok ())
    let m := (c.src64 a).toNat
    need (s.bound m) (trapCode 0x0D)
    .ok (((s.launchFlight [d] [] (.message m) true false .sys [] []).retire 4).feedAll m))

end Sys2Proof.Machine
end

