-- ==== Sys2Proof/Machine/Engine.lean ====
section
/-! DEFINITION. Engine commands: issue, the range-overlap scoreboard (R153, R326, R327), operand slots and their
instructions OCLM, ORLS, OST, OFNC, WAITC (R329 to R334), and generators (R344 to R346). -/

namespace Sys2Proof.Machine

-- ## Regions (R327)

/-- A local region: class 0 scratchpad granules, 1 slot chunks, 2 accumulators; first and past the last. -/
abbrev Region := Nat × Nat × Nat

/-- Two regions share a unit. -/
def Region.meets (a b : Region) : Bool := decide (a.1 = b.1) && decide (a.2.1 < b.2.2) && decide (b.2.1 < a.2.2)

/-- The region of class `k` that covers the bytes from `lo` to before `hi` in units of `u`. -/
def byteRegion (k u lo hi : Nat) : List Region := if lo < hi then [(k, lo / u, (hi - 1) / u + 1)] else []

/-- Element size of a record (R348). -/
def CopyRec.e (r : CopyRec) : Nat := 2 ^ r.esz
/-- Bytes of a box row on the local side. -/
def CopyRec.rowBytes (r : CopyRec) : Nat := r.bw * r.e
/-- End of the span on the local side. -/
def CopyRec.localEnd (r : CopyRec) : Nat := r.lbase + (r.bh - 1) * r.lpitch + r.rowBytes
/-- First byte of a scratchpad source named by GBASE (R351). -/
def CopyRec.srcStart (r : CopyRec) : Int := (r.gbase : Int) + r.y0 * r.gpitch + r.x0 * r.e
/-- Past its last byte. -/
def CopyRec.srcEnd (r : CopyRec) : Int := r.srcStart + ((r.bh - 1) * r.gpitch + r.rowBytes : Nat)

/-- Slots that the B run of an operation of N columns takes: lines of K elements of `e` bytes (R335). -/
def runSlots (n k e : Nat) : Nat := (n * k * e + 8191) / 8192

/-- Stored K of a B line (R335): `sparse` is none for MMA, else whether 8 of 32. -/
def kOf (sparse : Option (Nat × Nat)) : Nat := match sparse with | none => 64 | some (p, _) => if p = 8 then 256 else 128

/-- Bytes of an element in an operand line; 0 for a format that the matrix unit refuses (R335). -/
def tileBytes (d : W32) : Nat :=
  match slotCode d with
  | 1 => 1 | 2 => 1 | 3 => 1 | 4 => 1 | 5 => 2 | 6 => 2 | _ => 0

/-- The regions that a command reads. -/
def CmdOp.reads (l : Launch) : CmdOp → List Region
  | .copyIn r srcl indexed _ =>
    (if srcl then byteRegion 0 16 r.srcStart.toNat r.srcEnd.toNat else [])
      ++ (if indexed then byteRegion 0 16 r.xaddr (r.xaddr + 4 * r.bh) else [])
  | .copyOut r indexed _ _ _ =>
    byteRegion 0 16 r.lbase r.localEnd ++ (if indexed then byteRegion 0 16 r.xaddr (r.xaddr + 4 * r.bh) else [])
  | .mma xd xa xb _ _ fb n za sparse =>
    [(1, 16 * xa, 16 * xa + 16)]
      ++ (match xb with
        | .slot t => [(1, 16 * t, 16 * (t + runSlots n (kOf sparse) (tileBytes (l.fslot fb))))]
        | .gen _ => [])
      ++ (match sparse with | some (_, ms) => [(1, 16 * ms, 16 * ms + 16)] | none => [])
      ++ (if za then [] else [(2, xd, xd + n / 16)])
  | .awb _ a _ acnt _ _ _ _ _ _ => [(2, a, a + acnt)]
  | _ => []

/-- Bytes of an element that AWB writes (R343); 0 for a format it refuses. -/
def awbBytes (d : W32) : Nat :=
  match slotCode d with
  | 1 => 1 | 3 => 1 | 4 => 1 | 5 => 2 | 6 => 2 | 7 => 4 | _ => 0

/-- Bytes of a row that AWB writes. -/
def awbRow (l : Launch) (fs acnt : Nat) : Nat := 16 * acnt * awbBytes (l.fslot fs)

/-- The regions that a command writes. -/
def CmdOp.writes (l : Launch) : CmdOp → List Region
  | .oclm t cnt => [(1, 16 * t, 16 * (t + cnt))]
  | .orls t cnt => [(1, 16 * t, 16 * (t + cnt))]
  | .ost t chunk _ => [(1, 16 * t + chunk, 16 * t + chunk + 1)]
  | .copyIn r _ _ _ => if r.lsl then byteRegion 1 512 r.lbase r.localEnd else byteRegion 0 16 r.lbase r.localEnd
  | .mma xd _ _ _ _ _ n _ _ => [(2, xd, xd + n / 16)]
  | .aclr a cnt => [(2, a, a + cnt)]
  | .awb dst _ fs acnt pitch _ _ _ _ _ => byteRegion 0 16 dst (dst + 63 * pitch + awbRow l fs acnt)
  | _ => []

/-- MMA, MMAS, ACLR and AWB (R339). -/
def CmdOp.isAcc : CmdOp → Bool
  | .mma _ _ _ _ _ _ _ _ _ => true
  | .aclr _ _ => true
  | .awb _ _ _ _ _ _ _ _ _ _ => true
  | _ => false

/-- Command `m` writes a chunk for which an operand-ready fence holds the earlier command `j`: `j` comes after it, whatever their
order of issue (R333). -/
def Workgroup.fencedFor (w : Workgroup) (l : Launch) (j m : Cmd) : Bool :=
  w.cmds.any fun f => decide (f.id < j.id) && decide (f.crs = j.crs) && !f.done && (match f.op with
    | .ofnc t mask => (j.op.reads l).any (fun a => Region.meets a (1, 16 * t, 16 * t + 16))
        && (List.range 16).any fun c => bit mask c && (m.op.writes l).any fun a => Region.meets a (1, 16 * t + c, 16 * t + c + 1)
    | _ => false)

/-- An earlier command of the workgroup holds a command back: its regions meet (R153, R327), but for a reader that a fence holds
until the command has landed (R333), or it is an operand-ready fence of the same course over a slot that the command reads. -/
def Workgroup.blocked (w : Workgroup) (l : Launch) (m : Cmd) : Bool :=
  let rd := m.op.reads l
  let wr := m.op.writes l
  w.cmds.any fun j => decide (j.id < m.id) && !j.done &&
    ((j.op.writes l).any (fun a => (rd ++ wr).any a.meets)
      || ((j.op.reads l).any (fun a => wr.any a.meets) && !w.fencedFor l j m)
      || (match j.op with
        | .ofnc t _ => decide (j.crs = m.crs) && rd.any fun a => Region.meets a (1, 16 * t, 16 * t + 16)
        | _ => false))

-- ## Slots (R329, R330)

/-- A slot of a workgroup. -/
def Workgroup.slot (w : Workgroup) (t : Nat) : Slot := Tab.get .fresh w.slots t
/-- Replaces a slot. -/
def Workgroup.setSlot (w : Workgroup) (t : Nat) (x : Slot) : Workgroup := { w with slots := Tab.set w.slots t x }
/-- Bytes placed in the slot space; 8-byte units written whole lose their poison (R89, R90). -/
def Workgroup.putSlot (w : Workgroup) (at1 : Nat) (bs : List Byte) : Workgroup :=
  (unitsOf 8192 at1 bs.length).foldl (fun w t =>
    let lo := max at1 (t * 8192)
    let hi := min (at1 + bs.length) (t * 8192 + 8192)
    let x := w.slot t
    w.setSlot t { x with
      data := putBytes x.data (lo - t * 8192) ((bs.drop (lo - at1)).take (hi - lo))
      poison := clearPoison x.poison 8 (lo - t * 8192) (hi - lo) }) w
/-- Poison of the 8-byte units of the slot space that a range touches. -/
def Workgroup.poisonSlot (w : Workgroup) (at1 n : Nat) : Workgroup :=
  (unitsOf 8 at1 n).foldl (fun w k =>
    let x := w.slot (k / 1024)
    w.setSlot (k / 1024) { x with poison := Tab.set x.poison (k % 1024) true }) w
/-- A byte of the slot space. -/
def Workgroup.slotByte (w : Workgroup) (at1 : Nat) : Byte := Tab.get 0 (w.slot (at1 / 8192)).data (at1 % 8192)
/-- Some unit of the range is poisoned. -/
def Workgroup.slotPoisoned (w : Workgroup) (at1 n : Nat) : Bool :=
  (unitsOf 8 at1 n).any fun k => Tab.get false (w.slot (k / 1024)).poison (k % 1024)

/-- The chunk's bit, numbered over all slots. -/
def Workgroup.chunkBit (w : Workgroup) (k : Nat) : Bool := (w.slot (k / 16)).bitmap.getLsbD (k % 16)
/-- The issue of a writer: it is the chunk's latest writer, and the bit is 0 (R330). -/
def Workgroup.claimChunk (w : Workgroup) (id k : Nat) : Workgroup :=
  let x := w.slot (k / 16)
  w.setSlot (k / 16) { x with
    bitmap := x.bitmap &&& ~~~(BitVec.ofNat 16 (2 ^ (k % 16))), latest := Tab.set x.latest (k % 16) id }
/-- The last byte of a writer has landed in the chunk: its bit turns 1 when it is the latest writer (R330). -/
def Workgroup.landChunk (w : Workgroup) (id k : Nat) : Workgroup :=
  let x := w.slot (k / 16)
  if Tab.find x.latest (k % 16) = some id then
    w.setSlot (k / 16) { x with bitmap := x.bitmap ||| BitVec.ofNat 16 (2 ^ (k % 16)) }
  else w

-- ## Accumulators

/-- Element [i][q] of an accumulator (R337). -/
def Workgroup.acc (w : Workgroup) (a i q : Nat) : W32 := Tab.get 0 (Tab.get [] w.accs a) (16 * i + q)
/-- A 16-byte unit of an accumulator is poisoned: unit `u` of 256 stands at 256a + u (R89). -/
def Workgroup.accPoisoned (w : Workgroup) (a : Nat) : Bool := w.apoison.any fun e => decide (e.1 / 256 = a)
/-- Every unit of an accumulator becomes poisoned (R91). -/
def Workgroup.poisonAcc (w : Workgroup) (a : Nat) : Workgroup :=
  { w with apoison := (List.range 256).foldl (fun t u => Tab.set t (256 * a + u) true) w.apoison }

/-- Replaces an accumulator by its 1,024 elements; written whole, it is clean (R90). -/
def Workgroup.setAcc (w : Workgroup) (a : Nat) (f : Nat → Nat → W32) : Workgroup :=
  { w with
    accs := Tab.put [] w.accs a ((List.range 1024).filterMap fun k =>
      let v := f (k / 16) (k % 16)
      if v = 0 then none else some (k, v))
    apoison := w.apoison.filter fun e => e.1 / 256 ≠ a }

-- ## Issue and the commands that settle at once

/-- The commands that need no event of their own, done as soon as the scoreboard lets them be: OCLM and ORLS land
nothing, OST its chunk, ACLR its zeros; an operand-ready fence is done once its chunks are ready. Commands complete in
order of issue, so two passes reach them all. Commands that nothing can ask about any more are dropped. -/
def Workgroup.settle1 (w : Workgroup) (l : Launch) : Workgroup :=
  w.cmds.foldl (fun w m =>
    if m.done || w.blocked l m then w
    else
      let fin := fun (w : Workgroup) => w.mapCmd m.id fun x => { x with done := true }
      match m.op with
      | .oclm _ _ => fin w
      | .orls _ _ => fin w
      | .ost t chunk data => fin ((w.putSlot (8192 * t + 512 * chunk) data).landChunk m.id (16 * t + chunk))
      | .aclr a cnt =>
        fin { w with accs := w.accs.filter fun e => !(decide (a ≤ e.1) && decide (e.1 < a + cnt))
                     apoison := w.apoison.filter fun e => !(decide (a ≤ e.1 / 256) && decide (e.1 / 256 < a + cnt)) }
      | .ofnc t mask =>
        if (w.slot t).bitmap &&& BitVec.ofNat 16 mask = BitVec.ofNat 16 mask then fin w else w
      | _ => w) w

/-- Both passes, and the finished commands dropped. -/
def Workgroup.settleCmds (w : Workgroup) (l : Launch) : Workgroup :=
  let x := (w.settle1 l).settle1 l
  { x with cmds := x.cmds.filter fun m => !(m.done && !m.op.isAcc && m.poison.isNone) }

/-- Commands of a core that have issued and not completed (R326). -/
def State.cmdsOn (s : State) (core : Nat) : Nat :=
  s.wgs.foldl (fun n e =>
    if e.2.core = core ∧ e.2.status = .resident then n + (e.2.cmds.filter fun m => !m.done).length else n) 0

/-- The granules that hold a destination byte of a command (R62). -/
def CmdOp.granules (l : Launch) : CmdOp → List Nat
  | .copyIn r _ _ _ =>
    if r.lsl then [] else ((List.range r.bh).flatMap fun i => unitsOf 16 (r.lbase + i * r.lpitch) r.rowBytes).eraseDups
  | .awb dst _ fs acnt pitch _ _ _ _ _ => ((List.range 64).flatMap fun i => unitsOf 16 (dst + i * pitch) (awbRow l fs acnt)).eraseDups
  | _ => []

/-- The chunks that a command writes under R327. -/
def CmdOp.chunks (l : Launch) (op : CmdOp) : List Nat :=
  (op.writes l).flatMap fun r => if r.1 = 1 then (List.range (r.2.2 - r.2.1)).map (r.2.1 + ·) else []

/-- Issues a command: it joins the scoreboard behind the others, its chunks' bits turn 0 and its destination granules
empty; a core that holds 64 commands holds the course (R326). -/
def State.issueCmd (s : State) (op : CmdOp) (index : Option (List (Option Nat))) : R State := do
  let w := s.curW
  need (decide (s.cmdsOn w.core < 64)) (.wait .structural)
  let c := s.cur
  let m : Cmd := { id := s.stamp, crs := s.curCrs, op := op, pc := c.pc, rm := c.rm, ftz := c.ftz, next := 0, high := 0,
                   index := index, asked := [], got := [], fails := [], again := none, rerun := false, done := false, flags := 0,
                   fail := none, poison := none }
  let x := (op.chunks s.curL).foldl (fun w k => w.claimChunk m.id k) { w with cmds := w.cmds ++ [m] }
  .ok (s.fresh.setCurW ((x.mark (op.granules s.curL) false).settleCmds s.curL))

/-- A command may go on: nothing in the scoreboard holds it, its core is not frozen (R406), and every access of the course before
its issue has been performed, but remote stores (R151, R156). Of the accesses before the issue, R151 names those that happen before
it; that a plain load, which nothing orders, is waited for too is a choice of the model (log entry 67). -/
def State.mayRun (s : State) (u : Nat) (m : Cmd) : Bool :=
  let w := s.wg u
  !m.done && !(s.core w.core).frozen && !w.blocked (s.grid w.gid).launch m
    && (s.pend.all fun p => !(decide (p.uid = u) && decide (p.crs = m.crs) && decide (p.id < m.id)))
    && ((w.crs m.crs).flights.all fun f => f.isClose || !decide (f.id < m.id))

/-- A command of a workgroup by its number. -/
def State.cmd (s : State) (u id : Nat) : Option Cmd := (s.wg u).cmds.find? fun m => decide (m.id = id)

/-- A command has completed: the commands that waited for it settle. -/
def State.finishCmd (s : State) (u id : Nat) (f : Cmd → Cmd) : State :=
  s.setWg u (((s.wg u).mapCmd id fun m => { f m with done := true }).settleCmds (s.grid (s.wg u).gid).launch)

/-- Bytes reported to a barrier (R317): they may complete its phase. -/
def State.reportBytes (s : State) (u : Nat) (bar : Option Nat) (n : Nat) : State :=
  match bar with
  | none => s
  | some k =>
    let w := s.wg u
    let b := Tab.get Bar.fresh w.bars k
    s.setWg u ({ w with bars := Tab.put Bar.fresh w.bars k { b with rcv := b.rcv + n } }.settleBar
      (s.grid w.gid).launch.ncrs k)

/-- The slots of a run all satisfy a claim. -/
def claimedAll (w : Workgroup) (t cnt : Nat) : Bool := (List.range cnt).all fun k => (w.slot (t + k)).claimed

/-- OCLM (R331). -/
def execOclm (t cnt : Nat) (s : State) : Host.Outcome State Fault Refusal :=
  finish s (do
    need (decide (t + cnt ≤ s.curL.nos)) illegal
    need ((List.range cnt).all fun k => !(s.curW.slot (t + k)).claimed) illegal
    let u ← (s.setCurW ((List.range cnt).foldl (fun w k => w.setSlot (t + k) { w.slot (t + k) with claimed := true }) s.curW)).issueCmd
      (.oclm t cnt) none
    .ok (u.retire 8))

/-- ORLS (R331). -/
def execOrls (t cnt : Nat) (s : State) : Host.Outcome State Fault Refusal :=
  finish s (do
    need (decide (t + cnt ≤ s.curL.nos)) illegal
    need (claimedAll s.curW t cnt) illegal
    let u ← (s.setCurW ((List.range cnt).foldl (fun w k => w.setSlot (t + k) { w.slot (t + k) with claimed := false }) s.curW)).issueCmd
      (.orls t cnt) none
    .ok (u.retire 8))

/-- OST (R332): the four registers are captured at issue, every lane. -/
def execOst (t : Nat) (a : Opnd) (chunk : Nat) (s : State) : Host.Outcome State Fault Refusal :=
  finish s (do
    let c := s.cur
    need (decide (t < s.curL.nos)) illegal
    c.check s.curL ⟨block a 4, [], []⟩ (List.range 32) (.ok ())
    need ((s.curW.slot t).claimed) illegal
    let data := (block a 4).flatMap fun o => (List.range 32).flatMap fun l => bytesOf 4 (c.src o l).toNat
    let u ← s.issueCmd (.ost t chunk data) none
    .ok (u.retire 8))

/-- OFNC (R333): it holds later readers of the slot, not the course; a mask of zero holds nothing. -/
def execOfnc (t mask : Nat) (s : State) : Host.Outcome State Fault Refusal :=
  finish s (do
    need (decide (t < s.curL.nos)) illegal
    let u ← s.issueCmd (.ofnc t mask) none
    .ok (u.retire 8))

/-- WAITC's condition (R334). -/
def slotReady (w : Workgroup) (t mask : Nat) (anyBit : Bool) : Bool :=
  let b := (w.slot t).bitmap &&& BitVec.ofNat 16 mask
  decide (mask = 0) || (if anyBit then decide (b ≠ 0) else decide (b = BitVec.ofNat 16 mask))

/-- WAITC (R334): a report point. -/
def execWaitc (t mask : Nat) (anyBit : Bool) (s : State) : Host.Outcome State Fault Refusal :=
  finish s (do
    need (decide (t < s.curL.nos)) illegal
    s.reportPoint
    need (slotReady s.curW t mask anyBit) (.wait (.slotBits t mask anyBit))
    .ok (s.retire 8))

-- ## Generators (R231, R344 to R346)

/-- PARAM lies in its function's range (R344). -/
def genParamOk (func param : Nat) : Bool :=
  if func = 5 then decide (param < 64) else if func = 6 then decide (1 ≤ param) && decide (param ≤ 32) else decide (param = 0)

/-- GSET (R345). -/
def execGset (g : Nat) (a b : Opnd) (func : Nat) (tr : Bool) (param : Nat) (s : State) :
    Host.Outcome State Fault Refusal :=
  finish s (do
    let c := s.cur
    c.check s.curL ⟨[a], [b], []⟩ [0] (.ok ())
    need (decide (func < 7) && genParamOk func param) illegal
    let x := { c.gen g with
      gscl := (c.src64 a).setWidth 32, row0 := (c.src64 b).setWidth 32, col0 := ((c.src64 b) >>> 32).setWidth 32,
      func := func, tr := tr, param := param }
    .ok ((s.setCur ({ c with g := Tab.put .zero c.g g x }.putStrip (35 + 2 * g) false)).retire 8))

/-- GSEED (R345). -/
def execGseed (g : Nat) (a b : Opnd) (s : State) : Host.Outcome State Fault Refusal :=
  finish s (do
    let c := s.cur
    c.check s.curL ⟨[a], [b], []⟩ [0] (.ok ())
    .ok ((s.setCur { c with g := Tab.put .zero c.g g { c.gen g with gs := c.src64 a, tid := (c.src64 b).setWidth 32 } }).retire 8))

/-- A generator's key (R346). -/
def Gen.key (g : Gen) (seed : W64) : W64 := seed ^^^ g.gs ^^^ (g.tid.setWidth 64 * 0xC4E31B57A96D0F35)

/-- Rank of a column among its group of 32 by hash, ties to the lower number (R231). -/
def nofRank (key : W64) (row col : W32) : Nat :=
  let base := col.toNat / 32 * 32
  let h := fun i => (reed key row (BitVec.ofNat 32 (base + i))).toNat
  let me := col.toNat % 32
  ((List.range 32).filter fun i => decide (h i < h me) || (decide (h i = h me) && decide (i < me))).length

/-- The value of R231 at (row, col), as FP32 bits; `table` is the core's rotary table. The manual does not say what a signalling
NaN σ gives: the sign function hands on its bits, so that the matrix unit that fetches the value raises NV, and the functions that
multiply give the canonical quiet NaN (log entry 90). Nor does it say whether MODE.FTZ acts on σ and on the rounded product: the
value is formed without it, and only the fetch flushes (log entry 91). -/
def genValue (g : Gen) (seed : W64) (table : Tab W32) (row0 col0 : W32) : Nat :=
  let row := if g.tr then col0 else row0
  let col := if g.tr then row0 else col0
  let key := g.key seed
  let h := (reed key row col).toNat
  let sg := g.gscl.toNat
  let times := fun (x : FV) => (roundTo f32 0 false (mulFV x (decodeF f32 false sg)).1).1
  let one := fun (b : Bool) => if b then 0x3F800000 else 0
  match g.func with
  | 0 => if h % 2 = 0 then sg else sg ^^^ 2 ^ 31
  | 1 => times (.fin false (h / 2 ^ 8) (-24))
  | 2 => times (decodeF f32 false (gauss (h / 2 ^ 20)))
  | 3 =>
    let f := (Tab.get 0 table (col.toNat / 2 % 64)).toNat
    rotaryV (col.toNat % 2 = 1) (decodeF f32 false sg) (row.toNat * f % 2 ^ 32)
  | 4 => one (decide (col.toNat ≤ row.toNat))
  | 5 => one (decide (((row.toNat : Int) - col.toNat).natAbs ≤ g.param))
  | _ => one (decide (nofRank key row col < g.param))

/-- Gen(g, k, n) (R346). -/
def genAt (g : Gen) (seed : W64) (table : Tab W32) (k n : Nat) : Nat :=
  genValue g seed table (g.row0 + BitVec.ofNat 32 k) (g.col0 + BitVec.ofNat 32 n)

end Sys2Proof.Machine
end

