-- ==== Sys2Proof/Machine/Matrix.lean ====
section
/-! DEFINITION. The matrix unit, accumulators and the write-back path: MMA, MMAS, WAITM, ACLR, ALD, AWB and the events that
complete them (R335 to R343). -/

namespace Sys2Proof.Machine

-- ## Operand tiles (R335)

/-- Sixteen bytes of the slot space as a container. -/
def Workgroup.container (w : Workgroup) (at1 : Nat) : Nat := leBytes ((List.range 16).map fun i => w.slotByte (at1 + i))

/-- Element `k` of the operand line that begins at a byte of the slot space, with the flags of its decoding. -/
def Workgroup.tileElem (w : Workgroup) (d : W32) (ftz : Bool) (line k : Nat) : FV × Nat :=
  if slotCode d = 2 then
    match t6Elem (w.container (line + 16 * (k / 64 * 4 + k % 64 / 20))) (k % 64 % 20) with
    | some v => decodeSlot d ftz v
    | none => ((narValue d).1, fNV)
  else if tileBytes d = 2 then decodeSlot d ftz (leBytes [w.slotByte (line + 2 * k), w.slotByte (line + 2 * k + 1)])
  else decodeSlot d ftz (w.slotByte (line + k)).toNat

/-- A T6 container among `n` bytes fails its tag or a parity: NV, padding included (R335). -/
def Workgroup.t6Fault (w : Workgroup) (d : W32) (at1 n : Nat) : Nat :=
  if slotCode d = 2 && (List.range (n / 16)).any fun i => !t6Good (w.container (at1 + 16 * i)) then fNV else 0

/-- Metadata word g of line i (R338). -/
def Workgroup.meta (w : Workgroup) (ms i k g : Nat) : Nat :=
  leBytes ((List.range 4).map fun b => w.slotByte (8192 * ms + (i * (k / 32) + g) * 4 + b))

/-- The set bits of a word, ascending. -/
def setBits (x : Nat) : List Nat := (List.range 32).filter fun j => bit x j

/-- The terms of a row: (stored element of A, logical k); none where a metadata word has a wrong count (R338). -/
def Workgroup.positions (w : Workgroup) (i : Nat) : Option (Nat × Nat) → Option (List (Nat × Nat))
  | none => some ((List.range 64).map fun k => (k, k))
  | some (p, ms) =>
    let k := kOf (some (p, ms))
    let words := (List.range (k / 32)).map fun g => (g, setBits (w.meta ms i k g))
    if words.all fun x => decide (x.2.length = p) then
      some (words.flatMap fun x => x.2.zipIdx.map fun b => (x.1 * p + b.2, 32 * x.1 + b.1))
    else none

/-- What an operation reads of B: element k of line n. -/
def Workgroup.bElem (w : Workgroup) (l : Launch) (table : Tab W32) (ftz : Bool) (xb : BSrc) (g : Gen) (fb kk k n : Nat) :
    FV × Nat :=
  match xb with
  | .slot t => w.tileElem (l.fslot fb) ftz (8192 * t + n * kk * tileBytes (l.fslot fb)) k
  | .gen _ => (decodeF f32 ftz (genAt g l.seed table k n), 0)

/-- One result element of R337 with its flags. -/
def Workgroup.mmaElem (w : Workgroup) (l : Launch) (table : Tab W32) (rm : Nat) (ftz : Bool) (xd xa : Nat) (xb : BSrc)
    (g : Gen) (fa fb : Nat) (za : Bool) (sparse : Option (Nat × Nat)) (i n : Nat) : Flagged :=
  match w.positions i sparse with
  | none => (f32.nan, fNV)
  | some ps =>
    let da := l.fslot fa
    let prods := ps.map fun (sk, k) =>
      let a := w.tileElem da ftz (8192 * xa + i * 64 * tileBytes da) sk
      let b := w.bElem l table ftz xb g fb (kOf sparse) k n
      let p := mulFV a.1 b.1
      (p.1, a.2 ||| b.2 ||| p.2)
    let acc := if za then [] else [decodeF f32 ftz (w.acc (xd + n / 16) i (n % 16)).toNat]
    exactDot rm ftz (prods.map Prod.fst ++ acc) (prods.foldl (fun f p => f ||| p.2) 0)

/-- The issue of MMA and MMAS with their checks (R336, R338). -/
def mmaIssue (xd xa : Nat) (xb : BSrc) (fa fb ns : Nat) (za : Bool) (sparse : Option (Nat × Nat)) (s : State) :
    Host.Outcome State Fault Refusal :=
  finish s (do
    let c := s.cur
    let l := s.curL
    let w := s.curW
    need (decide (xd < l.nacc) && decide (xa < l.nos) && decide (ns < l.ns)
      && (match xb with | .slot t => decide (t < l.nos) | .gen _ => true)
      && (match sparse with | some (_, ms) => decide (ms < l.nos) | none => true)) illegal
    c.check l ⟨[], [.s ns], []⟩ [0] c.needRm
    let n := (c.sreg ns).toNat
    need (decide (n % 16 = 0) && decide (16 ≤ n) && decide (n ≤ 512)) illegal
    need (tileBytes (l.fslot fa) ≠ 0) illegal
    need (match xb with | .slot _ => tileBytes (l.fslot fb) ≠ 0 | .gen _ => decide (fb = 0)) illegal
    need (decide (xd + n / 16 ≤ l.nacc)) illegal
    need (w.slot xa).claimed illegal
    need (match xb with
      | .slot t =>
        let r := runSlots n (kOf sparse) (tileBytes (l.fslot fb))
        decide (t + r ≤ l.nos) && claimedAll w t r
      | .gen _ => true) illegal
    need (match sparse with | some (_, ms) => (w.slot ms).claimed | none => true) illegal
    c.allActive
    let g := match xb with | .gen k => c.gen k | .slot _ => Gen.zero
    let u ← s.issueCmd (.mma xd xa xb g fa fb n za sparse) none
    .ok (u.retire 8))

/-- MMA (R336, R337). -/
def execMma (xd xa : Nat) (xb : BSrc) (fa fb ns : Nat) (za : Bool) (s : State) : Host.Outcome State Fault Refusal :=
  mmaIssue xd xa xb fa fb ns za none s

/-- MMAS (R338). -/
def execMmas (xd xa : Nat) (xb : BSrc) (fa fb ns : Nat) (za sp : Bool) (ms : Nat) (s : State) :
    Host.Outcome State Fault Refusal :=
  mmaIssue xd xa xb fa fb ns za (some (if sp then 8 else 16, ms)) s

/-- A poisoned unit among what an operation reads (R91): array code 2 for slots, 1 for accumulators. -/
def Workgroup.mmaPoison (w : Workgroup) (l : Launch) : CmdOp → Option Nat
  | .mma xd xa xb _ fa fb n za sparse =>
    let da := l.fslot fa
    if w.slotPoisoned (8192 * xa) (4096 * tileBytes da)
      || (match xb with
        | .slot t => w.slotPoisoned (8192 * t) (n * kOf sparse * tileBytes (l.fslot fb))
        | .gen _ => false)
      || (match sparse with | some p => w.slotPoisoned (8192 * p.2) (64 * (kOf sparse / 32) * 4) | none => false) then some 2
    else if !za && (List.range (n / 16)).any fun j => w.accPoisoned (xd + j) then some 1
    else none
  | _ => none

/-- An operation's accumulators written: its results with their flags, or poison. -/
def State.runMma (s : State) (u : Nat) (m : Cmd) : State :=
  let w := s.wg u
  let l := (s.grid w.gid).launch
  match m.op with
  | .mma xd xa xb g fa fb n za sparse =>
    match w.mmaPoison l m.op with
    | some k =>
      (s.setWg u ((List.range (n / 16)).foldl (fun w j => w.poisonAcc (xd + j)) w)).finishCmd u m.id
        fun x => { x with poison := some (k, 0) }
    | none =>
      let table := (s.core w.core).rotary
      let res := (List.range (n / 16)).map fun j => (List.range 1024).map fun k =>
        w.mmaElem l table m.rm m.ftz xd xa xb g fa fb za sparse (k / 16) (16 * j + k % 16)
      let nv := w.t6Fault (l.fslot fa) (8192 * xa) 4096
        ||| (match xb with | .slot t => w.t6Fault (l.fslot fb) (8192 * t) (n * kOf sparse) | .gen _ => 0)
      let flags := res.foldl (fun f r => r.foldl (fun f x => f ||| x.2) f) nv
      let x := res.zipIdx.foldl (fun (w : Workgroup) r =>
        w.setAcc (xd + r.2) fun i q => BitVec.ofNat 32 (r.1.getD (16 * i + q) (0, 0)).1) w
      (s.setWg u x).finishCmd u m.id fun y => { y with flags := flags }
  | _ => s

/-- MATRIX_OPERATION_COMPLETE (R337): an MMA or MMAS whose turn has come writes every element of its accumulators. -/
def execMatrixOperationComplete (u id : Nat) (s : State) : Host.Outcome State Fault Refusal :=
  match s.cmd u id with
  | some m => .next (if s.mayRun u m then s.runMma u m else s)
  | none => .next s

-- ## WAITM, ACLR, ALD (R339 to R342)

/-- The accumulator commands of a course, in order of issue, and how many count as incomplete (R339). -/
def Workgroup.accCmds (w : Workgroup) (c : Nat) : List Cmd × Nat :=
  let ms := w.cmds.filter fun m => decide (m.crs = c) && m.op.isAcc
  (ms, (ms.dropWhile fun m => m.done).length)

/-- WAITM (R339): a report point; poison of a covered command is the memory-error trap; its completion ORs the flags of the
covered commands into FSTAT (R220). -/
def execWaitm (pend : Nat) (s : State) : Host.Outcome State Fault Refusal :=
  finish s (do
    s.reportPoint
    let r := s.curW.accCmds s.curCrs
    need (decide (r.2 ≤ pend)) (.wait (.accs pend))
    let covered := r.1.takeWhile fun m => m.done
    match covered.findSome? fun m => m.poison.map fun p => (m.id, p) with
    | some (id, k, a) => .error (.copyFault id { code := 0x0A, arr := k, fva := a })
    | none =>
      let t := s.setCurW { s.curW with cmds := s.curW.cmds.filter fun m => !covered.any fun x => decide (x.id = m.id) }
      .ok ((t.setCur (t.cur.flag (covered.foldl (fun f m => f ||| m.flags) 0))).retire 8))

/-- ACLR (R340). -/
def execAclr (a cnt : Nat) (s : State) : Host.Outcome State Fault Refusal :=
  finish s (do
    need (decide (a + cnt ≤ s.curL.nacc)) illegal
    let u ← s.issueCmd (.aclr a cnt) none
    .ok (u.retire 8))

/-- ALD (R341, R342): every lane, from the accumulator as it stands. -/
def execAld (d : Opnd) (a h0 nreg : Nat) (s : State) : Host.Outcome State Fault Refusal :=
  finish s (do
    let c := s.cur
    need (decide (a < s.curL.nacc)) illegal
    c.check s.curL ⟨[], [], (List.range nreg).map d.plus⟩ [] (.ok ())
    need (decide (h0 + nreg ≤ 32)) illegal
    need (!s.curW.accPoisoned a) (.trap { code := 0x0A, arr := 1 })
    let w := s.curW
    let k := (List.range nreg).foldl (fun (k : Course) j =>
      k.writeLanes (d.plus j) 0xFFFFFFFF fun l => w.acc a (2 * (h0 + j) + l / 16) (l % 16)) c
    .ok ((s.setCur k).retire 8))

-- ## AWB (R343)

/-- An accumulator is poisoned, and no command that has issued and not completed writes it: what an AWB issued now will read. -/
def Workgroup.accBad (w : Workgroup) (l : Launch) (a : Nat) : Bool :=
  w.accPoisoned a && !w.cmds.any fun m => !m.done && (m.op.writes l).any fun r => Region.meets r (2, a, a + 1)

/-- AWB: the registers, the generator and MODE are captured at issue; the destination granules turn empty. An accumulator that is
poisoned as it stands traps at the instruction (R91); poison that an earlier command has yet to bring is raised at WAITM (R343,
log entry 24). -/
def execAwb (d : Opnd) (a : Nat) (b : Opnd) (fs acnt pitch mg : Nat) (me neg : Bool) (barn : Nat) (ben : Bool) (s : State) :
    Host.Outcome State Fault Refusal :=
  finish s (do
    let c := s.cur
    let l := s.curL
    need (decide (a < l.nacc)) illegal
    c.check l ⟨[], [d, b], []⟩ [0] c.needRm
    need (awbBytes (l.fslot fs) ≠ 0) illegal
    need (decide (a + acnt ≤ l.nacc)) illegal
    need (pitch ≠ 0 && decide (awbRow l fs acnt ≤ 16 * pitch)) illegal
    need (!me || (decide (4 ≤ (c.gen mg).func) && decide ((c.gen mg).func ≤ 6))) illegal
    need (!ben || decide (barn < l.nbar)) illegal
    let dst := (c.src64 d).toNat
    need (decide (dst % 16 = 0)) (trapCode 0x07)
    need (decide (dst + 63 * (16 * pitch) + awbRow l fs acnt ≤ l.spg * 0x4000)) (.trap { code := 0x08, fva := dst })
    need (!(List.range acnt).any fun j => s.curW.accBad l (a + j)) (.trap { code := 0x0A, arr := 1 })
    let x := c.src64 b
    let u ← s.issueCmd (.awb dst a fs acnt (16 * pitch) (x.setWidth 32) ((x >>> 32).setWidth 32)
      (if me then some (c.gen mg) else none) neg (if ben then some barn else none)) none
    .ok (u.retire 8))

/-- The element (i, n) that AWB writes, with its flags. -/
def Workgroup.awbElem (w : Workgroup) (l : Launch) (table : Tab W32) (m : Cmd) (a fs : Nat) (sg cl : W32)
    (mask : Option Gen) (neg : Bool) (i n : Nat) : Flagged :=
  let core := writeBackCore m.ftz (w.acc (a + n / 16) i (n % 16)).toNat sg.toNat cl.toNat
  let masked := match mask with
    | some g => decide (genAt g l.seed table i n = 0)
    | none => false
  let y : FV := if masked then (if neg then (decodeF f32 m.ftz cl.toNat).withSign true else .fin false 0 0) else core.1
  let r := encodeSlot (l.fslot fs) m.rm m.ftz y
  (r.1, r.2 ||| core.2)

/-- One block of an AWB lands: the part of one row that lies in one 512-byte block of the scratchpad. -/
def State.awbBlock (s : State) (u : Nat) (m : Cmd) : State :=
  let w := s.wg u
  let l := (s.grid w.gid).launch
  match m.op with
  | .awb dst a fs acnt pitch sg cl mask neg bar =>
    let e := awbBytes (l.fslot fs)
    let row := awbRow l fs acnt
    let i := m.next / 2 ^ 16
    let off := m.next % 2 ^ 16
    let at1 := dst + i * pitch + off
    let n := min (row - off) (512 - at1 % 512)
    let first := off / e
    let els := (List.range (n / e)).map fun k => w.awbElem l (s.core w.core).rotary m a fs sg cl mask neg i (first + k)
    let bad := (List.range (n / e)).filter fun k =>
      Tab.get false w.apoison (256 * (a + (first + k) / 16) + (16 * i + (first + k) % 16) / 4)
    let w1 := w.write at1 (els.flatMap fun x => bytesOf e x.1)
    let w2 : Workgroup := { w1 with
      spoison := bad.foldl (fun t k => Tab.set t ((at1 + k * e) / 16) true) w1.spoison }
    let w3 := w2.mark (unitsOf 16 at1 n) true
    let rowDone := decide (off + n = row)
    let step := fun (x : Cmd) => { x with
      next := if rowDone then (i + 1) * 2 ^ 16 else i * 2 ^ 16 + off + n
      flags := els.foldl (fun f y => f ||| y.2) x.flags
      poison := if bad.isEmpty then x.poison else some (1, at1) }
    let t := s.setWg u w3
    let t1 := if rowDone && decide (i = 63) then t.finishCmd u m.id step else t.setWg u (w3.mapCmd m.id step)
    t1.reportBytes u bar n
  | _ => s

/-- WRITE_BACK_BLOCK (R343). -/
def execWriteBackBlock (u id : Nat) (s : State) : Host.Outcome State Fault Refusal :=
  match s.cmd u id with
  | some m => .next (if s.mayRun u m then s.awbBlock u m else s)
  | none => .next s

end Sys2Proof.Machine
end

