-- ==== Sys2Proof/Machine/Copy.lean ====
section
/-! DEFINITION. The copy engine: CPY, CPYI, CPYO and the event that lands one piece (R348 to R355). -/

namespace Sys2Proof.Machine

-- ## The record and its checks (R348, R350)

/-- The record of eight registers, or the illegal trap for a reserved bit. -/
def copyRecord (c : Course) (b : Nat) : R CopyRec := do
  let f := fun k => (c.sreg (b + k)).toNat
  need (decide (f 4 < 2 ^ 37) && decide (f 6 < 2 ^ 32)) illegal
  .ok { gbase := f 0, gw := bits (f 1) 31 0, gh := bits (f 1) 63 32, gpitch := f 2, x0 := signed 32 (f 3),
        y0 := signed 32 (f 3 / 2 ^ 32), bw := bits (f 4) 15 0, bh := bits (f 4) 31 16, esz := bits (f 4) 33 32,
        slt := bit (f 4) 34, col := bit (f 4) 35, lsl := bit (f 4) 36, lbase := f 5, lpitch := f 6, xaddr := f 7 }

/-- The registers of a record are named within the allotment, readable, and captured (R348), by the producer course (R328). -/
def captureRecord (s : State) (a : Opnd) : R CopyRec := do
  let c := s.cur
  need (match a with | .s b => decide (1 ≤ b) && decide (b + 7 < s.curL.ns) | _ => false) illegal
  c.check s.curL ⟨(List.range 8).map a.plus, [], []⟩ [0] (.ok ())
  need (decide (s.curCrs = s.curL.prod)) illegal
  match a with
  | .s b => copyRecord c b
  | _ => .error illegal

/-- The checks of R350 that every copy makes; `srcl` and `indexed` as the instruction says. -/
def copyChecks (s : State) (r : CopyRec) (srcl indexed ben : Bool) (barn : Nat) : R Unit := do
  let size := s.curL.spg * 0x4000
  need (decide (1 ≤ r.bw) && decide (1 ≤ r.bh) && decide (r.esz ≠ 3)) illegal
  need (decide (r.rowBytes ≤ r.lpitch) || decide (r.bh = 1)) illegal
  need (decide (r.lbase % 16 = 0) && decide (r.lpitch % 16 = 0)) illegal
  need (!r.lsl || (decide (r.localEnd ≤ 8192 * s.curL.nos)
    && (unitsOf 8192 r.lbase (r.localEnd - r.lbase)).all fun t => (s.curW.slot t).claimed)) illegal
  need (!ben || decide (barn < s.curL.nbar)) illegal
  need (!r.col || (r.slt && decide (r.y0 % 32 = 0) && decide (r.bw % 32 = 0) && decide (r.x0 + r.bw - 1 < r.gw))) illegal
  need (!r.slt || (decide (r.gpitch % 32 = 0) && decide (r.gh % 32 = 0) && decide (r.gbase % 1024 = 0))) illegal
  need (indexed || decide (r.xaddr = 0)) illegal
  need (decide (r.gbase % r.e = 0) && (!indexed || decide (r.xaddr % 4 = 0))) (trapCode 0x07)
  need (r.lsl || decide (r.localEnd ≤ size)) (.trap { code := 0x08, fva := r.lbase })
  need (!indexed || decide (r.xaddr + 4 * r.bh ≤ size)) (.trap { code := 0x08, fva := r.xaddr })
  need (!srcl || (decide (0 ≤ r.srcStart) && decide (r.srcEnd ≤ size))) (.trap { code := 0x08, fva := r.gbase })

-- ## Elements (R349)

/-- The global address of the element of box row `row` and box column `c`, none where it is out of bounds; `idx` is the
index list of an indexed copy. -/
def CopyRec.elem (r : CopyRec) (idx : Option (List (Option Nat))) (row c : Nat) : Option Nat :=
  let y : Option Int := match idx with
    | none => some (if r.col then r.y0 + c else r.y0 + row)
    | some l => (l.getD row none).map Int.ofNat
  let x : Int := if r.col then r.x0 + row else r.x0 + c
  match y with
  | none => none
  | some y =>
    if 0 ≤ y ∧ y < r.gh ∧ 0 ≤ x ∧ x < r.gw then
      let i := y.toNat
      let j := x.toNat * r.e
      some (wrap 64 (if r.slt then
        (r.gbase + (i / 32 * (r.gpitch / 32) + j / 32) * 1024 + i % 32 * 32 + j % 32 : Nat)
      else (r.gbase + i * r.gpitch + j : Nat)))
    else none

/-- The distinct 16-byte units of a box row's elements in bounds, in their order (R352). -/
def CopyRec.rowUnits (r : CopyRec) (idx : Option (List (Option Nat))) (row : Nat) : List Nat :=
  ((List.range r.bw).foldl (fun (acc : List Nat) c =>
    match r.elem idx row c with
    | none => acc
    | some a => if acc.head? = some (a / 16) then acc else a / 16 :: acc) []).reverse

/-- Units of the rows before a row. -/
def CopyRec.unitsBefore (r : CopyRec) (idx : Option (List (Option Nat))) (row : Nat) : Nat :=
  (List.range row).foldl (fun n i => n + (r.rowUnits idx i).length) 0

/-- The index list names no row for a box row: its entry was poisoned. -/
def badRow (idx : Option (List (Option Nat))) (row : Nat) : Bool :=
  match idx with
  | some l => l[row]? == some none
  | none => false

/-- The index list in the scratchpad; an entry whose granule is poisoned is none. -/
def Workgroup.indexList (w : Workgroup) (r : CopyRec) : List (Option Nat) :=
  (List.range r.bh).map fun i =>
    if w.rangePoisoned (r.xaddr + 4 * i) 4 then none else some (w.read (r.xaddr + 4 * i) 4)

-- ## CPY, CPYI, CPYO

/-- CPY (R351). -/
def execCpy (a : Opnd) (barn : Nat) (ben srcl : Bool) (s : State) : Host.Outcome State Fault Refusal :=
  finish s (do
    s.reportPoint
    let r ← captureRecord s a
    need (!srcl || (!r.col && !r.slt && r.lsl)) illegal
    copyChecks s r srcl false ben barn
    let u ← s.issueCmd (.copyIn r srcl false (if ben then some barn else none)) none
    .ok (u.retire 8))

/-- CPYI (R351): rows by index. -/
def execCpyi (a : Opnd) (barn : Nat) (ben : Bool) (s : State) : Host.Outcome State Fault Refusal :=
  finish s (do
    s.reportPoint
    let r ← captureRecord s a
    need (!r.col && decide (r.y0 = 0)) illegal
    copyChecks s r false true ben barn
    let u ← s.issueCmd (.copyIn r false true (if ben then some barn else none)) none
    .ok (u.retire 8))

/-- CPYO (R351, R352): the numbers of its units are taken at issue. With IDX they depend on the index list, which is read
at issue too, behind the course's own stores to it; an earlier command that still writes it holds the course (log entry 20). -/
def execCpyo (a : Opnd) (barn : Nat) (ben : Bool) (bt : Nat) (idx : Bool) (s : State) :
    Host.Outcome State Fault Refusal :=
  finish s (do
    s.reportPoint
    let r ← captureRecord s a
    need (!r.lsl && !r.col) illegal
    copyChecks s r false idx ben barn
    let l := s.curL
    need (!idx || !(s.curW.cmds.any fun m => !m.done &&
      (m.op.writes l).any fun x => (byteRegion 0 16 r.xaddr (r.xaddr + 4 * r.bh)).any x.meets)) (.wait .structural)
    need (!idx || s.mayPerform s.curWg s.curCrs s.stamp 0 [(.scratch s.curWg r.xaddr, 4 * r.bh)]) .again
    let list := if idx then some (s.curW.indexList r) else none
    let n := r.unitsBefore list r.bh
    let b := s.cur.batch bt
    let t := s.setCur (s.cur.setBatch bt { b with count := b.count + BitVec.ofNat 32 n })
    let u ← t.issueCmd (.copyOut r idx (if ben then some barn else none) (s.cur.batchNo bt) b.count) list
    .ok (u.retire 8))

-- ## Pieces (R354)

/-- The elements of the piece that begins at (row, c): those that follow in the row while the global page, of `z` bytes, and the
512-byte block of the destination stay the same. Each is (column, global address or none). -/
def CopyRec.piece (r : CopyRec) (idx : Option (List (Option Nat))) (local1 out : Bool) (z row c : Nat) :
    List (Nat × Option Nat) :=
  let at1 := fun k => if local1 then none else r.elem idx row k
  let dst := fun k => if out then (match r.elem idx row k with | some a => a / 512 | none => 0) else (r.lbase + row * r.lpitch + k * r.e) / 512
  let key := fun k => ((at1 k).map (· / z), dst k)
  ((List.range (r.bw - c)).map (c + ·)).takeWhile (fun k => key k = key c) |>.map fun k => (k, at1 k)

/-- What a run again lands at once (R354): of a piece that holds, under larger pages than before, bytes that have landed and bytes
that have not, the former first, so that the latter signal as in a first run (log entry 49). -/
def Cmd.portion (m : Cmd) (row c : Nat) (els : List (Nat × Option Nat)) : List (Nat × Option Nat) :=
  if m.next < m.high ∧ m.high / 2 ^ 16 = row then els.take (m.high % 2 ^ 16 - c) else els

/-- Place of the next piece. -/
def nextPlace (r : CopyRec) (row c n : Nat) : Nat := if c + n = r.bw then (row + 1) * 2 ^ 16 else row * 2 ^ 16 + c + n

/-- A copy stops with a fault (R354). -/
def State.failCmd (s : State) (u id : Nat) (f : CopyFail) : State :=
  s.setWg u ((s.wg u).mapCmd id fun m => { m with fail := some f, asked := [], got := [], fails := [] })

/-- The signals of a piece landed in the scratchpad or the slots for the first time (R62, R330, R353): granules and chunks
whose last byte of this copy it holds. -/
def Workgroup.signal (w : Workgroup) (id : Nat) (r : CopyRec) (row at1 n : Nat) : Workgroup :=
  let rowEnd := r.lbase + row * r.lpitch + r.rowBytes
  let stop := at1 + n
  if r.lsl then
    ((unitsOf 512 at1 n).filter fun k =>
      decide (512 * k + 512 ≤ stop)
        || (decide (stop = rowEnd) && (decide (row + 1 = r.bh) || decide (512 * k + 512 ≤ r.lbase + (row + 1) * r.lpitch)))).foldl
      (fun w k => w.landChunk id k) w
  else w.mark ((unitsOf 16 at1 n).filter fun g => decide (min (16 * g + 16) rowEnd ≤ stop)) true

/-- A piece of a copy has landed: its place moves on, a barrier hears of it once, and the last one completes the copy. -/
def State.pieceDone (s : State) (u : Nat) (m : Cmd) (r : CopyRec) (bar : Option Nat) (row c n bytes : Nat)
    (poison : Option (Nat × Nat)) : State :=
  let place := nextPlace r row c n
  let step := fun (x : Cmd) => { x with
    next := place, high := max x.high place
    poison := if x.poison.isSome then x.poison else poison }
  let t := if place = r.bh * 2 ^ 16 then s.finishCmd u m.id step else s.setWg u ((s.wg u).mapCmd m.id step)
  if m.high ≤ m.next then t.reportBytes u bar bytes else t

/-- The bytes of a piece placed at its destination, with poison for the bytes flagged. -/
def Workgroup.landPiece (w : Workgroup) (r : CopyRec) (at1 : Nat) (data : List (Byte × Bool)) : Workgroup :=
  let bs := data.map Prod.fst
  let bad := (data.zipIdx.filter fun x => x.1.2).map Prod.snd
  if r.lsl then bad.foldl (fun w k => w.poisonSlot (at1 + k) 1) (w.putSlot at1 bs)
  else
    let x := w.write at1 bs
    { x with spoison := bad.foldl (fun t k => Tab.set t ((at1 + k) / 16) true) x.spoison }

/-- The translation of a piece (R354): the state after a miss or a fault, whose lookup counts (R40), or the translation. -/
def State.pieceXlat (s : State) (u : Nat) (m : Cmd) (va kind : Nat) : Except State Xlat :=
  let w := s.wg u
  let g := (s.grid w.gid).chain
  let who := (u, 2 * m.id + 1)
  match lookupFor s w.core g.asn va kind who with
  | .miss => .error (s.queueMiss ⟨w.core, g.asn, g.root, va, kind, 0, 0, [who]⟩)
  | .fault f =>
    .error (((s.countPages w.core g.asn g.root [va]).dropFaults who).failCmd u m.id
      { code := 0x09, info := tfsWord f kind 63 true, status := 0, addr := va, peer := 0 })
  | .ok x _ => .ok x

/-- The lookup of a piece that has been translated counts, once for the piece (R40), and nothing of its walk stays. -/
def State.countPiece (s : State) (u : Nat) (m : Cmd) (va : Nat) : State :=
  let w := s.wg u
  let g := (s.grid w.gid).chain
  (s.countPages w.core g.asn g.root [va]).dropFaults (u, 2 * m.id + 1)

/-- Size of the page that a translation is of. -/
def Xlat.size (x : Xlat) : Nat := if x.big then 2 ^ 26 else 2 ^ 16

-- ## Source units (R151)

/-- Where a copy reads: its workgroup's scratchpad, this module's stack memory, another module, or copies of its slates. -/
inductive Source where
  | scratch | stack
  | far (peer : Nat)
  | copies (peer : Nat)
deriving DecidableEq, Repr

/-- A translation's source. -/
def Xlat.source (x : Xlat) : Source :=
  match x.res with | .here => .stack | .direct => .far x.peer | .cached => .copies x.peer

/-- Bytes of a unit: 16 (R129), and a slate where copies are fetched (R110). -/
def Source.size : Source → Nat
  | .copies _ => 1024
  | _ => 16

/-- The number of a source's unit among all that a command reads. -/
def Source.key (o : Source) (k : Nat) : Nat :=
  k * 2 ^ 16 + (match o with | .scratch => 0 | .stack => 1 | .far p => 2 + 2 * p | .copies p => 3 + 2 * p)

/-- The command has read the unit in this run, or knows that it could not. -/
def Cmd.knows (m : Cmd) (k : Nat) : Bool := (Tab.find m.got k).isSome || (Tab.find m.fails k).isSome

/-- The byte at an address lies in a row line that a slate's reply gave as poisoned (log entry 93). -/
def Cmd.slateBad (m : Cmd) (o : Source) (a : Nat) : Bool :=
  match o with
  | .copies _ => bit (Tab.get 0 m.got (o.key (a / o.size)) / 2 ^ 8192) (a % 1024 / 32)
  | _ => false

/-- A byte of a unit that the command has read, and its poison. -/
def Cmd.unitByte (m : Cmd) (o : Source) (a : Nat) : Byte × Bool :=
  let k := o.key (a / o.size)
  (BitVec.ofNat 8 (Tab.get 0 m.got k / 2 ^ (8 * (a % o.size))), (Tab.find m.fails k).isSome || m.slateBad o a)

/-- The array code of a unit's poison (R91): 16 more than the code where it was met here; 5 where a reply brought it. -/
def poisonCode (v : Nat) : Nat := if v = 4 then 5 else v - 16

/-- The array code of the first poisoned unit of some addresses. -/
def Cmd.poisonOf (m : Cmd) (o : Source) (as : List Nat) : Option Nat :=
  as.findSome? fun a => match Tab.find m.fails (o.key (a / o.size)) with
    | some v => some (poisonCode v)
    | none => if m.slateBad o a then some 5 else none

/-- What a unit read here holds, and 16 more than the array code of its poison. -/
def State.unitHere (s : State) (u : Nat) (o : Source) (k : Nat) : State × Nat × Option Nat :=
  match o with
  | .scratch => (s, (s.wg u).read (16 * k) 16, (s.poisonAt (.scratch u (16 * k)) 16).map (16 + ·))
  | _ =>
    let bad := (s.meetsPoison u (.stack (16 * k)) 16).map (16 + ·)
    let r := s.homeRead (16 * k) 16
    (r.1, r.1.taskValue u none (16 * k) 16 r.2, bad)

/-- What a command has read of a unit. -/
def Cmd.note (m : Cmd) (k v : Nat) (bad : Option Nat) : Cmd :=
  { m with got := Tab.set m.got k v, fails := match bad with | some e => Tab.set m.fails k e | none => m.fails }

/-- A copy's units read: all are there, or some are still to come, or one of them failed. -/
inductive Fetch where
  | ready (s : State)
  | later (s : State)

/-- The units of a source that a piece needs, each read once in the run (R151): those here at once; another module's are asked for
once and waited for; a failure other than poison stops the copy (R354). -/
def State.readUnits (s : State) (u : Nat) (m : Cmd) (va : Nat) (o : Source) (units : List Nat) : Fetch :=
  let lacking := units.filter fun k => !m.knows (o.key k)
  let far := fun (t : State) (peer : Nat) (lacking : List Nat) =>
    let missing := lacking.filter fun k => !m.asked.contains (o.key k)
    if !missing.isEmpty then
      let t1 := t.setWg u ((t.wg u).mapCmd m.id fun x => { x with asked := x.asked ++ missing.map o.key })
      Fetch.later (missing.foldl (fun t k => t.formReqAt m.id u m.crs m.id (o.key k) peer (o.size * k) o.size 0 0 .read 0 0 0 false) t1)
    else if !lacking.isEmpty then .later t
    else match units.findSome? fun k => match Tab.find m.fails (o.key k) with | some st => if st = 4 then none else some st | none => none with
      | some st => .later (t.failCmd u m.id { code := 0x0B, info := 0, status := st, addr := va, peer := peer })
      | none => .ready t
  match o with
  | .far p => far s p lacking
  | .copies p =>
    let copy := fun (k : Nat) => s.copies.find? fun y => decide (y.peer = p) && decide (y.slate = k)
    far (lacking.foldl (fun t k => match copy k with
      | some y => t.setWg u ((t.wg u).mapCmd m.id fun x => x.note (o.key k) (leBytes y.data) none)
      | none => t) s) p (lacking.filter fun k => (copy k).isNone)
  | _ => .ready (lacking.foldl (fun t k =>
      let r := t.unitHere u o k
      r.1.setWg u ((r.1.wg u).mapCmd m.id fun x => x.note (o.key k) r.2.1 r.2.2)) s)

/-- The units of a source that hold some addresses. -/
def Source.units (o : Source) (as : List Nat) (n : Nat) : List Nat := (as.flatMap fun a => unitsOf o.size a n).eraseDups

/-- One piece of a copy into the workgroup. -/
def State.copyInPiece (s : State) (u : Nat) (m : Cmd) (r : CopyRec) (srcl : Bool) (bar : Option Nat) : State :=
  let row := m.next / 2 ^ 16
  let c := m.next % 2 ^ 16
  let at1 := r.lbase + row * r.lpitch + c * r.e
  let land := fun (t : State) (n : Nat) (data : List (Byte × Bool)) (poison : Option (Nat × Nat)) =>
    let w1 := (t.wg u).landPiece r at1 data
    let w2 := if m.high ≤ m.next then w1.signal m.id r row at1 (n * r.e) else w1
    (t.setWg u w2).pieceDone u m r bar row c n (n * r.e) poison
  let gather := fun (t : State) (o : Source) (va : Nat) (els : List (Nat × Option Nat)) (addr : Nat × Option Nat → Option Nat) =>
    let as := els.filterMap addr
    match t.readUnits u m va o (o.units as r.e) with
    | .later t1 => t1
    | .ready t1 =>
      let k := (t1.cmd u m.id).getD m
      let task := fun (a : Nat) (b : Byte × Bool) => match o with
        | .far p => (if t1.buffers u then t1.taskByte u (some p) a b.1 else b.1, b.2)
        | .copies p => (if t1.buffers u then t1.taskByte u (some p) a b.1 else b.1, b.2)
        | _ => b
      land (if srcl then t1 else t1.countPiece u m va) els.length (els.flatMap fun y => match addr y with
        | none => List.replicate r.e (0, false)
        | some a => (List.range r.e).map fun b => task (a + b) (k.unitByte o (a + b)))
        ((k.poisonOf o (as.flatMap fun a => (List.range r.e).map (a + ·))).map fun e => (e, va))
  if srcl then
    let els := m.portion row c (r.piece m.index true false 1 row c)
    let src := fun (k : Nat) => (r.srcStart + (row * r.gpitch + k * r.e : Nat)).toNat
    gather s .scratch (src c) els fun y => some (src y.1)
  else
    match r.elem m.index row c with
    | none =>
      let n := (m.portion row c (r.piece m.index false false 1 row c)).length
      let bad := badRow m.index row
      land s n (List.replicate (n * r.e) (0, bad)) (if bad then some (1, r.xaddr + 4 * row) else none)
    | some va =>
      match s.pieceXlat u m va (if r.col then 4 else 0) with
      | .error t => t
      | .ok x =>
        let pa := fun (a : Nat) => x.pa - va % x.size + a % x.size
        gather s x.source va (m.portion row c (r.piece m.index false false x.size row c)) fun y => y.2.map pa

/-- A peer joins the batch of an engine command, or that batch as it is being closed; none when that would be the 65th
(R116, R352). -/
def State.joinPeer (s : State) (u c b ord peer : Nat) : Option State :=
  let k := s.crs u c
  if k.closing b ord then
    let full := k.flights.any fun f => match f.kind with
      | .closeb bt ps _ _ _ _ => decide (bt = b) && decide (ord < f.id) && !ps.contains peer && decide (64 ≤ ps.length)
      | _ => false
    if full then none
    else some (s.setCrs u c (k.mapClose b ord fun
      | .closeb bt ps sn got er mt => .closeb bt (if ps.contains peer then ps else ps ++ [peer]) sn got er mt
      | x => x))
  else if k.batchNo b ≠ b then some s
  else
    let x := k.batch b
    if x.peers.contains peer then some s
    else if 64 ≤ x.peers.length then none
    else some (s.setCrs u c (k.setBatch b { x with peers := x.peers ++ [peer] }))

/-- A unit of a remote copy-out that its poisoned source keeps from leaving sets its number's error bit (log entry 20). -/
def State.markUnit (s : State) (u c b ord seqno : Nat) : State :=
  let k := s.crs u c
  let e : W32 := BitVec.ofNat 32 (2 ^ (seqno % 32))
  if k.closing b ord then s.setCrs u c (k.mapClose b ord (FlightKind.mark e))
  else s.setCrs u c (k.mapBatch b fun x => { x with errs := x.errs ||| e })

/-- The units of a piece for another module, joined into requests of consecutive whole units in one 256-byte block with
consecutive numbers (R422): each has its number, its address and its bytes. -/
def joinUnits (us : List (Nat × Nat × List (Byte × Bool))) : List (Nat × Nat × List (Byte × Bool)) :=
  us.foldr (fun p acc => match acc with
    | q :: r =>
      if p.2.2.length = 16 ∧ q.2.2.length % 16 = 0 ∧ p.2.1 + 16 = q.2.1 ∧ p.2.1 / 256 = q.2.1 / 256 ∧ p.1 + 1 = q.1 then
        (p.1, p.2.1, p.2.2 ++ q.2.2) :: r
      else p :: q :: r
    | [] => [p]) []

/-- Adjacent runs of bytes joined: what a piece writes to stack memory covers whole units where it does so together (R90). -/
def joinRuns (runs : List (Nat × List (Byte × Bool))) : List (Nat × List (Byte × Bool)) :=
  runs.foldr (fun p acc => match acc with
    | q :: r => if p.1 + p.2.length = q.1 then (p.1, p.2 ++ q.2) :: r else p :: q :: r
    | [] => [p]) []

/-- A run written to stack memory by the copy engine: its poison goes with it (R90), and the core's L1 lines are removed (R66). -/
def State.copyRun (s : State) (core : Nat) (p : Nat × List (Byte × Bool)) : State :=
  let t := (s.homeWrite p.1 (p.2.map Prod.fst)).dropL1 core fun l => (unitsOf 128 p.1 p.2.length).contains l
  p.2.zipIdx.foldl (fun t b => if b.1.2 then t.poisonRange (p.1 + b.2) 1 else t) t

/-- A run held in the task's version, with its poison, or none where the version is full (R79, R90). -/
def State.versionRun (s : State) (u bt : Nat) (peer : Option Nat) (p : Nat × List (Byte × Bool)) : Option State :=
  (s.versionWrite u (bt % 4) peer p.1 (p.2.map Prod.fst)).map fun t =>
    p.2.zipIdx.foldl (fun (t : State) b =>
      if b.1.2 then
        t.setWg u { t.wg u with version := mapVersion (t.wg u).version peer (slateOf p.1) fun x => x.spoil (p.1 % 1024 + b.2) 1 }
      else t) t

/-- One piece of a copy out of the scratchpad, by its 16-byte global units. -/
def State.copyOutPiece (s : State) (u : Nat) (m : Cmd) (r : CopyRec) (bar : Option Nat) (bt : Nat) (seq0 : W32) : State :=
  let row := m.next / 2 ^ 16
  let c := m.next % 2 ^ 16
  match r.elem m.index row c with
  | none =>
    s.pieceDone u m r bar row c (m.portion row c (r.piece m.index false true 1 row c)).length 0
      (if badRow m.index row then some (1, r.xaddr + 4 * row) else none)
  | some va =>
    match s.pieceXlat u m va 1 with
    | .error t => t
    | .ok x =>
      let els := m.portion row c (r.piece m.index false true x.size row c)
      let src := fun (k : Nat) => r.lbase + row * r.lpitch + k * r.e
      match (s.countPiece u m va).readUnits u m va .scratch (Source.scratch.units (els.map fun y => src y.1) r.e) with
      | .later t => t
      | .ready t =>
        let k := (t.cmd u m.id).getD m
        let core := (t.wg u).core
        let mine := els.filterMap fun y => y.2.map fun a => (y.1, a)
        -- of each unit: its number, where its bytes begin, and the bytes with their poison
        let parts := ((mine.map fun y => y.2 / 16).eraseDups).map fun n =>
          let inU := mine.filter fun y => decide (y.2 / 16 = n)
          (n, x.pa - va % x.size + (inU.headD (0, 0)).2 % x.size,
            inU.flatMap fun y => (List.range r.e).map fun b => k.unitByte .scratch (src y.1 + b))
        let runs := joinRuns (parts.map Prod.snd)
        let bytes := parts.foldl (fun n p => n + p.2.2.length) 0
        let bad := parts.any fun p => p.2.2.any (·.2)
        let fin := fun (t : State) => t.pieceDone u m r bar row c els.length bytes (if bad then some (1, va) else none)
        let rowUnits := r.rowUnits m.index row
        let before := r.unitsBefore m.index row
        let seqOf := fun (n : Nat) => (seq0 + BitVec.ofNat 32 (before + rowUnits.findIdx (· = n))).toNat
        if t.buffers u then
          match runs.foldlM (fun t p => t.versionRun u bt (match x.res with | .here => none | _ => some x.peer) p) t with
          | some t1 => fin t1
          | none => s.setWg u { s.wg u with fullV := true }
        else match x.res with
          | .here => fin (runs.foldl (fun t p => t.copyRun core p) t)
          | _ =>
            match t.joinPeer u m.crs bt m.id x.peer with
            | none => t.failCmd u m.id { code := 0x0B, info := 0, status := 7, addr := va, peer := x.peer }
            | some t1 =>
              let units := parts.map fun p => (seqOf p.1, p.2)
              let lost := fun (p : Nat × Nat × List (Byte × Bool)) => p.2.2.any (·.2)
              fin ((joinUnits (units.filter fun p => !lost p)).foldl (fun t p =>
                t.formReqAt m.id u m.crs 0 0 x.peer p.2.1 p.2.2.length (leBytes (p.2.2.map Prod.fst)) 0 .write bt p.1 0 false)
                ((units.filter lost).foldl (fun t p => t.markUnit u m.crs bt m.id p.1) t1))

/-- COPY_PIECE (R354): a copy that may run reads its index list, then lands one piece, or stops on a fault. -/
def execCopyPiece (u id : Nat) (s : State) : Host.Outcome State Fault Refusal :=
  match s.cmd u id with
  | none => .next s
  | some m =>
    if !s.mayRun u m || m.fail.isSome then .next s
    else match m.op with
      | .copyIn r srcl indexed bar =>
        if indexed ∧ m.index = none then
          .next (s.setWg u ((s.wg u).mapCmd id fun x => { x with index := some ((s.wg u).indexList r) }))
        else .next (s.copyInPiece u m r srcl bar)
      | .copyOut r _ bar bt seq0 => .next ((s.copyOutPiece u m r bar bt seq0).closeMarkers)
      | _ => .next s

end Sys2Proof.Machine
end

