-- ==== Sys2Proof/Machine/Seq.lean ====
section
/-! DEFINITION. Link sequencers: their contexts, translation and faults, the scalar, control, flag and slot instructions
(R356 to R365, R369 to R371, R374 to R378, R381, R382). -/

namespace Sys2Proof.Machine

-- ## Contexts

/-- Why a sequencer instruction does not complete: a fault (cause, address or destination, kind, level, the channel whose
head it holds), a wait, or a wait at the head of a channel; `after` says in which state. -/
inductive SStop where
  | fault (cause addr kind level : Nat) (head : Option Nat)
  | wait (why : CtxWait)
  | head (ch : Nat)
  | after (t : State) (e : SStop)
deriving DecidableEq, Repr

/-- A result of a sequencer instruction, or why there is none. -/
abbrev SR (α : Type) := Except SStop α

/-- Passes, or stops. -/
def sneed (b : Bool) (e : SStop) : SR Unit := if b then .ok () else .error e

/-- Register ci; c0 reads as zero (R357). -/
def Ctx.reg (x : Ctx) (i : Nat) : W64 := if i = 0 then 0 else Tab.get 0 x.c i
/-- Writes ci; a write to c0 is discarded (R357). -/
def Ctx.setReg (x : Ctx) (i : Nat) (v : W64) : Ctx := if i = 0 then x else { x with c := Tab.put 0 x.c i v }

/-- A context's name in the carried chunks. -/
def ctxName (l k : Nat) : Nat := 4 * l + k

/-- A byte offset in instruction memory. -/
def wrapPc (z : Int) : Nat := wrap 14 z

/-- A sequencer event record (R381). -/
def State.seqRecord (s : State) (type l k code off payload tail : Nat) : List Byte :=
  bytesOf 1 type ++ bytesOf 1 l ++ s.timeBytes ++ bytesOf 1 k ++ bytesOf 1 code ++ bytesOf 2 off ++ bytesOf 8 payload
    ++ bytesOf 8 tail

/-- The register at 0x4018 (R358). -/
def Ctx.faultWord (x : Ctx) : Nat :=
  x.fkind + x.flevel * 2 ^ 3 + x.hsz * 2 ^ 5 + x.hpeer * 2 ^ 9 + x.hlink * 2 ^ 21

/-- The present sequencer changed. -/
def State.mapSeqr (s : State) (f : Seqr → Seqr) : State := s.setSeqr s.curLink (f (s.seqr s.curLink))
/-- The turn of the present sequencer is over (R376). -/
def State.endTurn (s : State) : State := s.mapSeqr fun q => { q with run := 256 }

/-- A context that no longer waits at the head of a channel. -/
def Seqr.leaveHead (q : Seqr) (k : Nat) : Seqr := { q with atHead := q.atHead.filter fun e => e.1 ≠ k }

-- ## Room for a chunk (R367, R372)

/-- Where a link lists the room that the receiving link toward a peer has announced for a channel (R372, R124). -/
def Link.roomKey (l : Link) (peer ch : Nat) : Nat := 4 * (if l.lmode = 2 then peer else 0) + ch
/-- That room: 64 KiB from training on. -/
def Link.roomFor (l : Link) (peer ch : Nat) : Nat := Tab.get 65536 l.room (l.roomKey peer ch)

/-- The room kept for the instruction of the context is given back. -/
def State.freeRoom (s : State) : State :=
  match s.ctx.kept with
  | some (j, k, n) =>
    let l := s.link j
    (s.setLink j { l with room := Tab.set l.room k (Tab.get 65536 l.room k + n) }).setCtx { s.ctx with kept := none }
  | none => s

/-- A fault of the context (R378): precise, recorded, the head chunk it has seen held, and an event posted; GO looks the pages
up again. -/
def State.seqFaulted (s0 : State) (cause addr kind level : Nat) (head : Option Nat) : State :=
  let s := s0.freeRoom.dropFaultsIf (0, s0.curCtx) fun w => decide (w.unit = 576 + s0.curLink)
  let l := s.link s.curLink
  let x := s.ctx
  let chunk := match head with | some ch => (Tab.get [] l.rx ch).head? | none => none
  let y : Ctx := { x with st := .faulted, cause := cause, faddr := BitVec.ofNat 64 addr, fkind := kind, flevel := level,
                          since := none, barked := false, step1 := false, stopReq := false, watch := none, met := false }
  let z : Ctx := match head, chunk with
    | some ch, some h => { y with held := true, hch := ch, hsz := h.size, hpeer := h.peer, hlink := h.link }
    | _, _ => y
  let t := match head with
    | some ch => s.setLink s.curLink { l with heldCh := Tab.set l.heldCh ch s.curCtx }
    | none => s
  ((t.setCtx z).mapSeqr fun q => q.leaveHead s.curCtx).postEvent 2 (t.seqRecord 0x10 s.curLink s.curCtx cause x.cpc addr z.faultWord)

/-- A fault of the context at turn ends its turn (R376). -/
def State.seqFault (s : State) (cause addr kind level : Nat) (head : Option Nat) : State :=
  (s.seqFaulted cause addr kind level head).endTurn

/-- The context waits at its instruction. -/
def State.seqWait (s : State) (why : CtxWait) : State :=
  let x := s.ctx
  (s.setCtx { x with st := .waiting, since := match x.since with | some t => some t | none => some s.dtime, why := some why }).endTurn

/-- A chunk held for the context that it has not taken is held no longer, once an instruction of it completes. -/
def State.releaseHeld (s : State) : State :=
  if s.ctx.held then
    let x := s.link s.curLink
    (s.setLink s.curLink { x with heldCh := x.heldCh.filter fun e => e.2 ≠ s.curCtx }).setCtx { s.ctx with held := false }
  else s

/-- The instruction of the context is done: the program counter, and whether the context goes on (R376, R380). -/
def State.seqDone (s0 : State) (pc : Nat) : State :=
  let s := s0.releaseHeld
  let x := s.ctx
  let stop := (x.step1 || x.stopReq) && x.sending.isNone
  (s.setCtx { x with cpc := pc, since := none, barked := false, watch := none, met := false, st := if stop then .stopped else .running,
                     step1 := x.step1 && !stop, stopReq := x.stopReq && !stop }).mapSeqr
    fun q => { (q.leaveHead s.curCtx) with run := if stop then 256 else q.run + 1 }

/-- The next instruction follows. -/
def State.seqNext (s : State) : State := s.seqDone (wrapPc (s.ctx.cpc + 4))

/-- The state in which an instruction that does not complete leaves its context. -/
def seqStopped (s : State) : SStop → State
  | .fault c a k v h => s.seqFault c a k v h
  | .wait w => s.seqWait w
  | .head ch => (s.seqWait (.head ch)).mapSeqr fun q =>
      if q.atHead.any fun e => decide (e.1 = s.curCtx) then q else { q with atHead := q.atHead ++ [(s.curCtx, ch)] }
  | .after t e => seqStopped t e

/-- The outcome of a sequencer instruction. -/
def sfinish (s : State) (r : SR State) : Host.Outcome State Fault Refusal :=
  match r with
  | .ok t => .next t
  | .error e => .next (seqStopped s e)

/-- A register result. -/
def seqAlu (d : Nat) (f : Ctx → W64) (s : State) : Host.Outcome State Fault Refusal :=
  .next ((s.setCtx (s.ctx.setReg d (f s.ctx))).seqNext)

/-- Translation for a sequencer: its own TLB, whose misses go to the walkers of its die (R38, R356, R377); a page that
resolves remote gives MODE. The state keeps what the lookup has done. -/
def State.seqXlat (s : State) (va kind : Nat) (head : Option Nat) : SR (State × Nat) :=
  match s.xlat ⟨576 + s.curLink, s.ctx.casn, s.ctx.root, va, kind, 0, 0, [(0, s.curCtx)]⟩ with
  | .ok t x => if x.res = .here then .ok (t, x.pa) else .error (.after t (.fault causeMode va kind (ofBool x.big) head))
  | .fault t f => .error (.after t (.fault f.cause va kind f.level head))
  | .wait t => .error (.after t (.wait .page))

/-- FADDR of a fault that neither an address nor a destination makes (log entry 21). -/
def State.openAddr (s : State) : Nat := Config.faultField s.steps 0
/-- FKIND of a fault that no access to memory makes. -/
def State.openKind (s : State) : Nat := Config.faultField s.steps 1 % 8
/-- FLEVEL of a fault at which no walk stopped. -/
def State.openLevel (s : State) : Nat := Config.faultField s.steps 2 % 4

/-- Alignment of an address (cause ALIGN). -/
def seqAligned (s : State) (va n kind : Nat) : SR Unit := sneed (decide (va % n = 0)) (.fault 0x11 va kind s.openLevel none)

/-- A read at home; poison is the fault POISON, its slate filled where the read missed (R71). -/
def State.seqRead (s : State) (va pa n : Nat) : SR (State × Nat) :=
  if s.rangePoisoned pa n then .error (.after (s.homeRead pa n).1 (.fault 0x15 va 0 s.openLevel none)) else .ok (s.homeRead pa n)

-- ## Register and control instructions (R362, R364, R365)

/-- NOP. -/
def execSeqNop (s : State) : Host.Outcome State Fault Refusal := .next s.seqNext

/-- ALU add. -/
def execSeqAdd (d a b : Nat) (s : State) : Host.Outcome State Fault Refusal := seqAlu d (fun x => x.reg a + x.reg b) s
/-- ALU subtract. -/
def execSeqSub (d a b : Nat) (s : State) : Host.Outcome State Fault Refusal := seqAlu d (fun x => x.reg a - x.reg b) s
/-- ALU AND. -/
def execSeqAnd (d a b : Nat) (s : State) : Host.Outcome State Fault Refusal := seqAlu d (fun x => x.reg a &&& x.reg b) s
/-- ALU OR. -/
def execSeqOr (d a b : Nat) (s : State) : Host.Outcome State Fault Refusal := seqAlu d (fun x => x.reg a ||| x.reg b) s
/-- ALU XOR. -/
def execSeqXor (d a b : Nat) (s : State) : Host.Outcome State Fault Refusal := seqAlu d (fun x => x.reg a ^^^ x.reg b) s
/-- ALU shift left by b[5:0]. -/
def execSeqShl (d a b : Nat) (s : State) : Host.Outcome State Fault Refusal :=
  seqAlu d (fun x => x.reg a <<< ((x.reg b).toNat % 64)) s
/-- ALU logical shift right by b[5:0]. -/
def execSeqShr (d a b : Nat) (s : State) : Host.Outcome State Fault Refusal :=
  seqAlu d (fun x => x.reg a >>> ((x.reg b).toNat % 64)) s
/-- ALU multiply, low 64 bits. -/
def execSeqMul (d a b : Nat) (s : State) : Host.Outcome State Fault Refusal := seqAlu d (fun x => x.reg a * x.reg b) s
/-- ADDI. -/
def execAddi (d a : Nat) (imm : Int) (s : State) : Host.Outcome State Fault Refusal :=
  seqAlu d (fun x => x.reg a + BitVec.ofInt 64 imm) s
/-- LI. -/
def execLi (d : Nat) (imm : Int) (s : State) : Host.Outcome State Fault Refusal := seqAlu d (fun _ => BitVec.ofInt 64 imm) s
/-- LIH. -/
def execLih (d imm : Nat) (s : State) : Host.Outcome State Fault Refusal :=
  seqAlu d (fun x => x.reg d * BitVec.ofNat 64 (2 ^ 22) + BitVec.ofNat 64 imm) s

/-- The cause ILLEGAL: neither an address nor a destination faulted, so that all three fields are open (log entry 21). -/
def seqIllegal (s : State) : SStop := .fault 0x10 s.openAddr s.openKind s.openLevel none

/-- CST (R362). -/
def execCst (d sel : Nat) (s : State) : Host.Outcome State Fault Refusal :=
  sfinish s (do
    let x := s.ctx
    let v ← (match sel with
      | 0 => (.ok (BitVec.ofNat 64 s.curLink) : SR W64)
      | 1 => .ok (s.ownPeer.setWidth 64)
      | 2 => .ok (BitVec.ofNat 64 (s.dtime / 2 ^ 16))
      | 3 => .ok x.last
      | 4 => .ok (BitVec.ofNat 64 s.curCtx)
      | _ => .error (seqIllegal s))
    .ok ((s.setCtx (x.setReg d v)).seqNext))

/-- A branch condition (R364). -/
def seqCond (cond : Nat) (a b : W64) : Bool :=
  match cond with
  | 0 => true
  | 1 => a == b
  | 2 => a != b
  | 3 => decide (a.toInt < b.toInt)
  | 4 => decide (a.toNat < b.toNat)
  | 5 => decide (b.toInt ≤ a.toInt)
  | _ => decide (b.toNat ≤ a.toNat)

/-- BR (R364). -/
def execSeqBr (cond a b : Nat) (off : Int) (s : State) : Host.Outcome State Fault Refusal :=
  let x := s.ctx
  .next (if seqCond cond (x.reg a) (x.reg b) then s.seqDone (wrapPc (x.cpc + 4 * off)) else s.seqNext)

/-- LOOP (R364). -/
def execLoop (a : Nat) (off : Int) (s : State) : Host.Outcome State Fault Refusal :=
  let x := s.ctx
  let v := x.reg a - 1
  let t := s.setCtx (x.setReg a v)
  .next (if v ≠ 0 then t.seqDone (wrapPc (x.cpc + 4 * off)) else t.seqNext)

/-- YIELD ends the turn. -/
def execYield (s : State) : Host.Outcome State Fault Refusal := .next s.seqNext.endTurn

/-- FENCE: a context's accesses are performed as they issue, so that nothing is left to wait for. -/
def execSeqFence (s : State) : Host.Outcome State Fault Refusal := .next s.seqNext

/-- EVT: waits while either destination is full, then posts its record. -/
def execEvt (a code : Nat) (s : State) : Host.Outcome State Fault Refusal :=
  sfinish s (do
    sneed (!s.evMgmt.full && !s.evHost.full) (.wait .event)
    let x := s.ctx
    .ok ((s.postEvent 2 (s.seqRecord 0x12 s.curLink s.curCtx code x.cpc (x.reg a).toNat 0)).seqNext))

/-- HALT: the context is idle, and its collective counts one link more (R365, R386). -/
def execHalt (s0 : State) : Host.Outcome State Fault Refusal :=
  let s := s0.releaseHeld
  let x := s.ctx
  let t := s.setCtx { x with st := .idle, since := none, barked := false, step1 := false, stopReq := false }
  let u := match Tab.find t.colls x.coll with
    | some c => { t with colls := Tab.set t.colls x.coll { c with halted := c.halted ||| 2 ^ s.curLink, last := s.dtime } }
    | none => t
  .next u.endTurn

-- ## Memory, flags and slots (R363, R369 to R371)

/-- LDC. -/
def execLdc (d a : Nat) (imm : Int) (s : State) : Host.Outcome State Fault Refusal :=
  sfinish s (do
    let x := s.ctx
    let va := (x.reg a + BitVec.ofInt 64 imm).toNat
    seqAligned s va 8 0
    let r ← s.seqXlat va 0 none
    let v ← r.1.seqRead va r.2 8
    .ok ((v.1.setCtx (v.1.ctx.setReg d (BitVec.ofNat 64 v.2))).seqNext))

/-- STC. -/
def execStc (a b : Nat) (imm : Int) (s : State) : Host.Outcome State Fault Refusal :=
  sfinish s (do
    let x := s.ctx
    let va := (x.reg a + BitVec.ofInt 64 imm).toNat
    seqAligned s va 8 1
    let r ← s.seqXlat va 1 none
    .ok ((r.1.homeWrite r.2 (bytesOf 8 (x.reg b).toNat)).seqNext))

/-- WAITF: an acquire read at home; it goes on at the first read for which the condition holds: this one, or one after a
later write to the word (R369). -/
def execWaitf (a b cond : Nat) (s : State) : Host.Outcome State Fault Refusal :=
  if s.ctx.met then .next s.seqNext
  else sfinish s (do
    let x := s.ctx
    sneed (decide (cond < 4)) (seqIllegal s)
    let va := (x.reg a).toNat
    seqAligned s va 4 0
    let r ← s.seqXlat va 0 none
    let v ← r.1.seqRead va r.2 4
    let w : W32 := (x.reg b).setWidth 32
    sneed (flagCond cond (BitVec.ofNat 32 v.2) w) (.after (v.1.setCtx { v.1.ctx with watch := some (r.2, cond, w) }) (.wait .flag))
    .ok v.1.seqNext)

/-- SIGF: a release write of a flag word. -/
def execSigf (a b : Nat) (s : State) : Host.Outcome State Fault Refusal :=
  sfinish s (do
    let x := s.ctx
    let va := (x.reg a).toNat
    seqAligned s va 4 1
    let r ← s.seqXlat va 1 none
    .ok ((r.1.homeWrite r.2 (bytesOf 4 (x.reg b).toNat)).seqNext))

/-- SIGF.ADD: a release fetch-and-add on a flag word. -/
def execSigfAdd (a b : Nat) (s : State) : Host.Outcome State Fault Refusal :=
  sfinish s (do
    let x := s.ctx
    let va := (x.reg a).toNat
    seqAligned s va 4 2
    let r ← s.seqXlat va 2 none
    sneed (!r.1.rangePoisoned r.2 4) (.after (r.1.homeRead r.2 4).1 (.fault 0x15 va 2 s.openLevel none))
    .ok ((r.1.homeRmw r.2 2 0 false ((x.reg b).toNat % 2 ^ 32) 0).1.seqNext))

/-- A destination register (R366): the link and the peer, or DEST or PEER. -/
def State.seqDest (s : State) (v : W64) (head : Option Nat) : SR (Nat × Nat) := do
  let n := v.toNat
  sneed (decide (n < 2 ^ 16)) (.fault 0x14 n s.openKind s.openLevel head)
  let l := s.link (n / 2 ^ 12)
  let peer := n % 2 ^ 12
  sneed (decide (l.state = 2) && (if l.lmode = 2 then !(l.slotsFor peer).isEmpty else decide (l.lpeer = peer)))
    (.fault 0x13 n s.openKind s.openLevel head)
  .ok (n / 2 ^ 12, peer)

/-- A link can transmit to a peer now (R371): at once in phase mode, else inside a slot that names it, after the guard. -/
def State.slotOpen (s : State) (l peer : Nat) : Bool :=
  decide ((s.link l).lmode ≠ 2) || decide ((s.link l).sendsTo (s.dtime / 2 ^ 16) = some peer)

/-- SLOT: device time once the destination can transmit. A slot that came while the context waited for its turn counts (R371,
R376). -/
def execSlot (d b : Nat) (s : State) : Host.Outcome State Fault Refusal :=
  let x := s.ctx
  let done := (s.setCtx (x.setReg d (BitVec.ofNat 64 (s.dtime / 2 ^ 16)))).seqNext
  if x.met then .next done
  else sfinish s (do
    let dest ← s.seqDest (x.reg b) none
    sneed (s.slotOpen dest.1 dest.2) (.wait (.slot dest.1 dest.2))
    .ok done)

-- ## Waiting contexts (R376)

/-- What a waiting context waits for has come. -/
def State.ctxReady (s : State) (l k : Nat) : Bool :=
  let q := s.seqr l
  let x := q.ctx k
  match x.why with
  | none => true
  | some .page =>
    let d := s.die (walkDie (576 + l))
    !((d.walks ++ d.parked).any fun m => decide (m.core = 576 + l) && m.who.contains (0, k))
  | some (.head ch) =>
    !(Tab.get [] (s.link l).rx ch).isEmpty && (match Tab.find (s.link l).heldCh ch with | some j => decide (j = k) | none => true)
      && decide ((q.atHead.find? fun e => decide (e.2 = ch)) = some (k, ch))
  | some (.room j key size) => decide (size ≤ Tab.get 65536 (s.link j).room key)
  | some .event => !s.evMgmt.full && !s.evHost.full
  | some .flag => x.met || x.watch.isNone
  | some (.slot j peer) => s.slotOpen j peer

/-- A context that waits becomes running when its condition holds, and tries its instruction at its next turn (R376); a slot that
has come is remembered (R371). -/
def State.wakeCtx (s : State) (l k : Nat) : State :=
  let x := (s.seqr l).ctx k
  if x.st = .waiting ∧ s.ctxReady l k then
    s.setSeqr l ((s.seqr l).setCtx k { x with
      st := .running, met := x.met || (match x.why with | some (.slot _ _) => true | _ => false) })
  else s

/-- Every context of every sequencer. -/
def State.wakeCtxs (s : State) : State :=
  s.seqs.foldl (fun t q => (List.range 4).foldl (fun t k => t.wakeCtx q.1 k) t) s

end Sys2Proof.Machine
end

