-- ==== Sys2Proof/Machine/SeqChunk.lean ====
section
/-! DEFINITION. The chunk instructions of the link sequencers (R366 to R368, R372, R373). -/

namespace Sys2Proof.Machine

/-- Bytes of a chunk (R366). -/
def chunkSize (sz : Nat) : Nat := 256 * 2 ^ sz

/-- The first context that has reached the head of a channel and waits there (R373). -/
def Seqr.firstAt (q : Seqr) (ch : Nat) : Option Nat := (q.atHead.find? fun e => decide (e.2 = ch)).map Prod.fst

/-- The chunk at the head of a channel of the context's own link, unless it is held for another context (R373, R378) or
another context has reached the head before. -/
def State.waitHead (s : State) (ch : Nat) : SR Chunk :=
  let l := s.link s.curLink
  match (Tab.get [] l.rx ch), Tab.find l.heldCh ch with
  | h :: _, none =>
    match (s.seqr s.curLink).firstAt ch with
    | some k => if k = s.curCtx then .ok h else .error (.after s (.head ch))
    | none => .ok h
  | h :: _, some k => if k = s.curCtx then .ok h else .error (.after s (.head ch))
  | [], _ => .error (.after s (.head ch))

/-- The head chunk is taken: its room in the buffer is announced again, and the context remembers its peer. -/
def State.takeHead (s : State) (ch : Nat) : State :=
  let l := s.link s.curLink
  match Tab.get [] l.rx ch with
  | h :: r =>
    let t := s.setLink s.curLink { l with rx := Tab.set l.rx ch r, heldCh := Tab.del l.heldCh ch }
    (t.setCtx { t.ctx with last := BitVec.ofNat 64 h.peer, held := false }).enqueue s.curLink clsControl h.peer
      (.control (2 + ch) (chunkSize h.size))
  | [] => s

/-- A transmitting instruction waits until the destination link has room for its chunk; the room found is kept for it, also
while it waits for its head (R367). -/
def State.keepRoom (s : State) (dl peer ch size : Nat) : SR State :=
  let l := s.link dl
  if s.ctx.kept = some (dl, l.roomKey peer ch, size) then .ok s
  else do
    let t := s.freeRoom
    sneed (decide (size ≤ (t.link dl).roomFor peer ch)) (.after t (.wait (.room dl ((t.link dl).roomKey peer ch) size)))
    .ok ((t.setLink dl { t.link dl with room := Tab.set (t.link dl).room (l.roomKey peer ch) ((t.link dl).roomFor peer ch - size) }).setCtx
      { t.ctx with kept := some (dl, l.roomKey peer ch, size) })

/-- The chunk is handed to the destination link, in the room kept for it: one header flit and its payload flits, in order
(R372). -/
def State.transmit (s : State) (dl peer ch sz : Nat) (bs : List Byte) : State :=
  let c : Chunk := ⟨s.ownPeer.toNat, dl, sz, bs⟩
  let l := s.link dl
  let n := 1 + chunkSize sz / 64
  let flits := (List.range n).map fun i =>
    let load := s.flitLoad (.chunk (ctxName s.curLink s.curCtx) c) (chunkSize sz) i
    (⟨0, ch, peer, peer, 0, decide (i = 0), decide (i + 1 = n), .chunk (ctxName s.curLink s.curCtx) c, load.1, load.2⟩ : TxFlit)
  let t := s.setLink dl { l with tx := l.tx ++ flits }
  t.setCtx { t.ctx with sending := some dl, kept := none }

/-- Chunk bytes combined element by element, the local one first (R368). -/
def combine (op rm : Nat) (x y : List Byte) : List Byte :=
  let w := rmwWidth op
  (List.range (x.length / w)).flatMap fun i =>
    bytesOf w (rmwNew op rm false (leBytes ((x.drop (w * i)).take w)) (leBytes ((y.drop (w * i)).take w)) 0)

/-- A local buffer: aligned to the chunk, translated with the kinds it is used with (R366). -/
def State.seqBuffer (s : State) (a sz : Nat) (kinds : List Nat) (head : Option Nat) : SR (State × Nat × Nat) := do
  let va := (s.ctx.reg a).toNat
  sneed (decide (va % chunkSize sz = 0)) (.after s (.fault 0x11 va (kinds.headD 0) s.openLevel head))
  let r ← kinds.foldlM (fun (acc : State × Nat) k => acc.1.seqXlat va k head) (s, 0)
  .ok (r.1, va, r.2)

/-- The bytes of a buffer; poison faults before anything is transmitted or written (R367), its slates filled all the same (R71). -/
def State.seqBytes (s : State) (va pa n : Nat) (head : Option Nat) : SR (State × List Byte) := do
  let t := s.settleRange pa n
  let u := (unitsOf 1024 pa n).foldl State.holdSlate t
  sneed (!t.rangePoisoned pa n) (.after u (.fault 0x15 va 0 s.openLevel head))
  .ok (u, t.bytesAt pa n)

/-- The channel that the context used. -/
def State.useCh (s : State) (ch : Nat) : State := s.setCtx { s.ctx with lastCh := some ch }

/-- The head's size code agrees (cause SIZE). -/
def sizeIs (s : State) (h : Chunk) (sz ch : Nat) : SR Unit :=
  sneed (decide (h.size = sz)) (.after s (.fault 0x12 s.openAddr s.openKind s.openLevel (some ch)))

/-- A chunk instruction has done what it does at once: its turn ends as it completes (R376), for one that transmits when its
last flit has been placed. -/
def State.chunkDone (s : State) (ch : Nat) : State :=
  let t := (s.useCh ch).seqNext
  if t.ctx.sending.isSome then t else t.endTurn

/-- SEND. -/
def execSend (ch sz a b : Nat) (s : State) : Host.Outcome State Fault Refusal :=
  sfinish s (do
    let d ← s.seqDest (s.ctx.reg b) none
    let r ← s.seqBuffer a sz [0] none
    let k ← r.1.keepRoom d.1 d.2 ch (chunkSize sz)
    let v ← k.seqBytes r.2.1 r.2.2 (chunkSize sz) none
    .ok ((v.1.transmit d.1 d.2 ch sz v.2).chunkDone ch))

/-- RECV. -/
def execRecv (ch sz a : Nat) (s : State) : Host.Outcome State Fault Refusal :=
  sfinish s (do
    let h ← s.waitHead ch
    sizeIs s h sz ch
    let r ← s.seqBuffer a sz [1] (some ch)
    .ok (((r.1.takeHead ch).homeWrite r.2.2 h.bytes).chunkDone ch))

/-- RCOMB. -/
def execRcomb (ch sz a op rm : Nat) (s : State) : Host.Outcome State Fault Refusal :=
  sfinish s (do
    let h ← s.waitHead ch
    sizeIs s h sz ch
    let r ← s.seqBuffer a sz [0, 1] (some ch)
    let v ← r.1.seqBytes r.2.1 r.2.2 (chunkSize sz) (some ch)
    .ok (((v.1.takeHead ch).homeWrite r.2.2 (combine op rm v.2 h.bytes)).chunkDone ch))

/-- A forwarding instruction waits for room before it looks for its head, where its destination can be sent to at all;
a bad destination faults once the head is there (R367). -/
def forwardRoom (s : State) (b ch sz : Nat) : SR State :=
  match s.seqDest (s.ctx.reg b) none with
  | .ok d => s.keepRoom d.1 d.2 ch (chunkSize sz)
  | .error _ => .ok s

/-- RCFWD. -/
def execRcfwd (ch sz a b op rm : Nat) (w : Bool) (s0 : State) : Host.Outcome State Fault Refusal :=
  sfinish s0 (do
    let s ← forwardRoom s0 b ch sz
    let h ← s.waitHead ch
    sizeIs s h sz ch
    let d ← s.seqDest (s.ctx.reg b) (some ch)
    let r ← s.seqBuffer a sz (if w then [0, 1] else [0]) (some ch)
    let v ← r.1.seqBytes r.2.1 r.2.2 (chunkSize sz) (some ch)
    let y := combine op rm v.2 h.bytes
    let t := (v.1.takeHead ch).transmit d.1 d.2 ch sz y
    .ok ((if w then t.homeWrite r.2.2 y else t).chunkDone ch))

/-- RFWD: no local buffer where W = 0. -/
def execRfwd (ch sz a b : Nat) (w : Bool) (s0 : State) : Host.Outcome State Fault Refusal :=
  sfinish s0 (do
    let s ← forwardRoom s0 b ch sz
    let h ← s.waitHead ch
    sizeIs s h sz ch
    let d ← s.seqDest (s.ctx.reg b) (some ch)
    let r ← (if w then s.seqBuffer a sz [1] (some ch) else .ok (s, 0, 0))
    let t := (r.1.takeHead ch).transmit d.1 d.2 ch sz h.bytes
    .ok ((if w then t.homeWrite r.2.2 h.bytes else t).chunkDone ch))

/-- CHUNK_ARRIVAL (R372, R373): a whole chunk joins its channel's receive buffer, where the buffer has room for it. -/
def execChunkArrival (l ch : Nat) (c : Chunk) (s : State) : Host.Outcome State Fault Refusal :=
  let x := s.link l
  let q := Tab.get [] x.rx ch
  let used := q.foldl (fun n h => n + chunkSize h.size) 0
  .next (if (x.state = 2 ∨ x.state = 3) ∧ ch < 4 ∧ c.bytes.length = chunkSize c.size ∧ used + chunkSize c.size ≤ 65536 then
    s.setLink l { x with rx := Tab.set x.rx ch (q ++ [c]) }
  else s)

/-- CONTEXT_TURN (R376): the turn goes to the first running context after the present one. -/
def execContextTurn (l : Nat) (s : State) : Host.Outcome State Fault Refusal :=
  let q := s.seqr l
  let order := [1, 2, 3, 4].map fun k => (q.turn + k) % 4
  match order.find? fun k => decide ((q.ctx k).st = .running) with
  | some k => .next (s.setSeqr l { q with turn := k, run := 0 })
  | none => .next s

/-- SEQ_WATCHDOG (R374): a context that has waited WDOG µs at one instruction posts its record once. -/
def execSeqWatchdog (l k : Nat) (s : State) : Host.Outcome State Fault Refusal :=
  let q := s.seqr l
  let x := q.ctx k
  match x.since with
  | some t =>
    let us := (s.dtime - t) / 2 ^ 16 / 1000
    .next (if q.wdog ≠ 0 ∧ x.st = .waiting ∧ !x.barked ∧ q.wdog.toNat ≤ us then
      (s.setSeqr l (q.setCtx k { x with barked := true })).postEvent 2 (s.seqRecord 0x11 l k 0 x.cpc us 0)
    else s)
  | none => .next s

-- ## Control (R378, R380)

/-- A context changed. -/
def State.mapCtx (s : State) (l k : Nat) (f : Ctx → Ctx) : State :=
  s.setSeqr l ((s.seqr l).setCtx k (f ((s.seqr l).ctx k)))

/-- The context is faulted or stopped. -/
def Ctx.rests (x : Ctx) : Bool := decide (x.st = .faulted) || decide (x.st = .stopped)

/-- GO (R378, R380). -/
def execGo (l k : Nat) (s : State) : Host.Outcome State Fault Refusal :=
  .next (if ((s.seqr l).ctx k).rests then
    s.mapCtx l k fun x => { x with st := .running, stopReq := false, step1 := false }
  else s)

/-- STEP (R380): one instruction, then stopped. -/
def execSeqStep (l k : Nat) (s : State) : Host.Outcome State Fault Refusal :=
  .next (if ((s.seqr l).ctx k).rests then
    s.mapCtx l k fun x => { x with st := .running, stopReq := false, step1 := true }
  else s)

/-- The room that a context has kept is given back (R367). -/
def State.dropKept (s : State) (l k : Nat) : State :=
  match ((s.seqr l).ctx k).kept with
  | some (j, key, n) =>
    (s.setLink j { s.link j with room := Tab.set (s.link j).room key (Tab.get 65536 (s.link j).room key + n) }).mapCtx l k
      fun x => { x with kept := none }
  | none => s

/-- STOP (R380): at the next instruction boundary; a chunk on its way leaves first. -/
def execStop (l k : Nat) (s : State) : Host.Outcome State Fault Refusal :=
  let t := s.mapCtx l k fun x =>
    if x.st = .running ∨ x.st = .waiting then
      if x.sending.isSome then { x with stopReq := true }
      else { x with st := .stopped, since := none, barked := false, stopReq := false, step1 := false, watch := none, met := false }
    else x
  let u := t.setSeqr l ((t.seqr l).leaveHead k)
  .next (if ((u.seqr l).ctx k).sending.isSome then u else u.dropKept l k)

/-- The record of R187: value, status, index, time stamps. -/
def completionRecord (value status index : Nat) (t0 t1 : List Byte) : List Byte :=
  bytesOf 8 value ++ bytesOf 1 status ++ bytesOf 7 0 ++ bytesOf 8 index ++ bytesOf 8 0 ++ t0 ++ t1

/-- A time stamp field: device time in bits 79:0 when asked for, the nanoseconds of R417 in bits 63:0 and the fraction above
them, as the records of R127 and R381 have them. The order of the two within the field is the model's choice (log entry 68). -/
def stampField (on : Bool) (t : Nat) : List Byte :=
  if on then bytesOf 8 (t / 2 ^ 16) ++ bytesOf 2 (t % 2 ^ 16) ++ bytesOf 6 0 else bytesOf 16 0

/-- A completion record is written: bytes 8 to 63 first, then the value (R187); `false` while its page is held or walked. A
fault or a page that is not local leaves the record unwritten (log entry 22). -/
def State.writeRecord (s : State) (asn root va : Nat) (rec : List Byte) : State × Bool :=
  match s.ioXlat asn root va 1 with
  | .wait t => (t, false)
  | .fault t _ => (t, true)
  | .ok t x => (if x.res = .here then (t.homeWrite (x.pa + 8) (rec.drop 8)).homeWrite x.pa (rec.take 8) else t, true)

/-- The completion record of a collective is written, and the collective is over (R386, R380). -/
def State.finishColl (s : State) (gid : Nat) (c : Coll) : State :=
  let last := if c.aborted then Config.openStamp s.steps % 2 ^ 80 else c.last
  let r := s.writeRecord c.asn c.root c.cpla (completionRecord c.cplv.toNat (if c.aborted then 5 else 0) (2 ^ 64 - 1)
    (stampField c.tsr c.start) (stampField c.tsr last))
  if r.2 then { r.1 with colls := Tab.del r.1.colls gid } else r.1

/-- The chunks of a channel's receive buffer are discarded, and their room is announced again (R372, R380). -/
def State.dropChunks (s : State) (l ch : Nat) : State :=
  let x := s.link l
  (Tab.get [] x.rx ch).foldl (fun t h => t.enqueue l clsControl h.peer (.control (2 + ch) (chunkSize h.size)))
    (s.setLink l { x with rx := Tab.del x.rx ch })

/-- A context of an aborted collective is idle; its held chunk, and what its channel's buffer holds, are discarded. -/
def State.dropContext (s0 : State) (l k : Nat) : State :=
  let s := (s0.dropKept l k).dropFaultsIf (0, k) fun w => decide (w.unit = 576 + l)
  let x := (s.seqr l).ctx k
  let chans := (if x.held then [x.hch] else []) ++ (match x.lastCh with | some c => [c] | none => [])
  let d := chans.foldl (fun t c => t.dropChunks l c) s
  let t := d.setLink l { d.link l with heldCh := (d.link l).heldCh.filter fun e => e.2 ≠ k }
  let u := t.mapCtx l k fun z => { z with
    st := .idle, held := false, stopReq := false, step1 := false, since := none, sending := none, watch := none, met := false }
  u.setSeqr l ((u.seqr l).leaveHead k)

/-- ABORT (R380): every context of the collective, on every link, its chunks, and the completion record with status 5, once
its page can be written. -/
def execAbort (l k : Nat) (s : State) : Host.Outcome State Fault Refusal :=
  let x := (s.seqr l).ctx k
  match Tab.find s.colls x.coll with
  | none => .next s
  | some c =>
    if x.st = .idle ∨ c.aborted then .next s
    else
      let t := (linkBits c.lmask).foldl (fun t j => if ((t.seqr j).ctx c.ctx).coll = x.coll then t.dropContext j c.ctx else t) s
      let d := { c with aborted := true }
      .next ({ t with colls := Tab.set t.colls x.coll d }.finishColl x.coll d)

end Sys2Proof.Machine
end

