-- ==== Sys2Proof/Machine/Translate.lean ====
section
/-! DEFINITION. The translation agents: the walkers of the compute dies (R34, R38, R43), the walkers of the I/O die (R38),
the migration queue (R41, R44) and invalidations (R44 to R47). -/

namespace Sys2Proof.Machine

-- ## Walks (R34, R38, R43)

/-- WALK (R34): the first queued miss of a die, when a walker is free of parked walks. -/
def execWalk (die : Nat) (s : State) : Host.Outcome State Fault Refusal :=
  let d := s.die die
  match d.walks with
  | [] => .next s
  | m :: r =>
    if walkers die ≤ d.parked.length then .next s
    else
      match dieWalk (s.setDie die { d with walks := r }) d m with
      | (t, .leaf e level tables) => .next (t.walked m e level tables)
      | (t, .held level) => .next (t.parkWalk m level)
      | (t, .fault f) => .next (t.recordFault m f)

/-- Every parked walk of a die starts again from level 3. -/
def Die.restartWalks (d : Die) : Die := { d with walks := d.parked ++ d.walks, parked := [] }

/-- WALK_RESTART (R43). -/
def execWalkRestart (die : Nat) (s : State) : Host.Outcome State Fault Refusal :=
  .next (s.setDie die (s.die die).restartWalks)

/-- 10 ms of device time, in units of 2^-16 ns. -/
def heldTime : Nat := 10000000 * 2 ^ 16

/-- WALK_HELD_TIMEOUT (R43): a walk parked 10 ms in all faults with cause HELD. -/
def execWalkHeldTimeout (die : Nat) (s : State) : Host.Outcome State Fault Refusal :=
  let d := s.die die
  match d.parked.find? fun m => decide (m.since + heldTime ≤ s.dtime) with
  | some m =>
    .next ((s.setDie die { d with parked := d.parked.filter fun x => x ≠ m }).recordFault m
      ⟨causeHeld, m.level, decide (m.level = 1)⟩)
  | none => .next s

-- ## The I/O die's walkers (R38)

/-- The root of an address space: that of a live grid or collective of the job, else free (log entry 27). -/
def State.rootOf (s : State) (asn : Nat) : Nat :=
  match s.grids.find? fun g => decide (g.2.chain.asn = asn) with
  | some g => g.2.chain.root
  | none =>
    match s.colls.find? fun c => decide (c.2.asn = asn) with
    | some c => c.2.root
    | none => Config.asnRoot asn

-- ## The migration queue (R41, R44)

/-- MIGRATION_RECORD_APPEND (R41): the first page held at its threshold is queued, where the ring has room. -/
def execMigrationRecordAppend (die : Nat) (s : State) : Host.Outcome State Fault Refusal :=
  let d := s.die die
  match d.mig.find? fun m =>
      let th := (Tab.get 0 d.thresh m.tix).toNat
      !m.queued && decide (th ≠ 0) && decide (th ≤ m.count) with
  | some m => .next (s.migQueue die m)
  | none => .next s

/-- A record's place lies among those that a move of the tail frees. -/
def freedBy (size old new i : Nat) : Bool :=
  size ≠ 0 && decide ((i + size - old % size) % size < (new % size + size - old % size) % size)

/-- MQTAIL_WRITE (R44): the records up to the new tail are consumed, and their pages count again. -/
def execMqtailWrite (die value : Nat) (s : State) : Host.Outcome State Fault Refusal :=
  let d := s.die die
  .next (s.setDie die { d with
    mqtail := BitVec.ofNat 16 value
    mig := d.mig.map fun m =>
      if m.queued && freedBy d.mqsize.toNat d.mqtail.toNat value m.index then { m with queued := false } else m })

-- ## Invalidations (R44 to R47)

/-- INVALIDATE (R44, R45): `word` is what is written to the register at 0x0008 with GO set. It starts, queues behind the
one that runs, or is refused with BAD. What a refused write does to the fields it names the manual does not say: here it
changes only BAD (DESIGN CHOICE, log entry 69). -/
def execInvalidate (die : Nat) (word : W64) (s : State) : Host.Outcome State Fault Refusal :=
  let d := s.die die
  let w := word.toNat
  let v : InvScope := ⟨bits w 9 8, bits w 7 0, bits d.iva.toNat 53 16, bits w 31 16⟩
  let bad := decide (bits w 15 10 ≠ 0) || decide (bits w 63 33 ≠ 0) || decide (v.scope = 3)
    || (decide (v.scope = 2) && decide (v.count = 0))
  .next (s.setDie die (
    if bad then { d with bad := true }
    else
      let e := { d with iscope := BitVec.ofNat 64 (w % 2 ^ 32) }
      if d.running.isNone then { e with running := some v }
      else if d.queued.length < 4 then { e with queued := d.queued ++ [v] }
      else { d with bad := true }))

/-- Every access of a workgroup that may use an old translation has been performed, has faulted, or is with the link
layer (R46), what its version holds and the words that its task guards included. -/
def State.drained (s : State) (u : Nat) : Bool :=
  let w := s.wg u
  (s.pend.all fun p => p.uid ≠ u) && w.buffered.isEmpty && w.guards.isEmpty
    && ((s.wg u).courses.all fun c => c.2.flights.all fun f => f.isClose || f.lanes.all fun a => a.tgt.far)
    && (s.reqs.all fun r => r.uid ≠ u || r.sent)

/-- The entries of the scope leave every translation cache of the module, and the copies of remote slates go, those on their
way included (R44, R45, R110). The mark of a page whose migration record is not consumed stays (R41), and a waiting WAITF
looks its page up again. -/
def State.purge (s : State) (v : InvScope) : State :=
  let keep := fun (e : TlbE) => !v.covers e.asn e.page e.big
  { s with
    cores := Tab.mapVal (fun _ c => { c with tlb := c.tlb.filter keep }) s.cores
    seqs := Tab.mapVal (fun _ (q : Seqr) => { q with
      tlb := q.tlb.filter keep
      ctxs := Tab.mapVal (fun _ (x : Ctx) => if v.touches x.casn then { x with watch := none } else x) q.ctxs }) s.seqs
    wfaults := s.wfaults.filter fun w => !v.touches w.asn
    reqs := s.reqs.map fun r => { r with keep := false }
    ioTlb := s.ioTlb.filter keep
    copies := []
    dies := Tab.mapVal (fun _ d => { d with
      wcache := d.wcache.filter fun e => !v.touches e.asn
      mig := (d.mig.filter fun m => m.queued || !v.covers m.asn m.page m.big).map fun m =>
        if v.covers m.asn m.page m.big then { m with count := 0 } else m }) s.dies }

/-- INVALIDATION_COMPLETE (R46): once the accesses that may use a removed translation are over, the entries are gone,
DONE counts one more, every parked walk restarts, and the next queued invalidation runs. -/
def execInvalidationComplete (die : Nat) (s : State) : Host.Outcome State Fault Refusal :=
  let d := s.die die
  match d.running with
  | none => .next s
  | some v =>
    if s.reds = [] ∧ s.wgs.all fun w => !v.touches w.2.asn || s.drained w.1 then
      let t := s.purge v
      let e := { t.die die with invDone := d.invDone + 1, running := d.queued.head?, queued := d.queued.tail }
      let u := t.setDie die e
      .next { u with dies := Tab.mapVal (fun _ x => x.restartWalks) u.dies }
    else .next s

end Sys2Proof.Machine
end

