-- ==== Sys2Proof/Machine/Pool.lean ====
section
/-! DEFINITION. The SRAM pool of a core (R16, R20 to R22): which register, scratchpad or accumulator byte each of its bytes is,
and what its granules hold once the workgroup that held them has left. -/

namespace Sys2Proof.Machine

/-- A generator as its 256 bits (R344). -/
def genNat (g : Gen) : Nat :=
  g.gs.toNat + g.tid.toNat * 2 ^ 64 + g.gscl.toNat * 2 ^ 96 + g.row0.toNat * 2 ^ 128 + g.col0.toNat * 2 ^ 160
    + g.func * 2 ^ 192 + ofBool g.tr * 2 ^ 195 + g.param * 2 ^ 196

/-- The generator of 256 bits. -/
def genOf (n : Nat) : Gen :=
  ⟨BitVec.ofNat 64 n, BitVec.ofNat 32 (n / 2 ^ 64), BitVec.ofNat 32 (n / 2 ^ 96), BitVec.ofNat 32 (n / 2 ^ 128),
    BitVec.ofNat 32 (n / 2 ^ 160), bits n 194 192, bit n 195, bits n 201 196⟩

/-- An index register as its 224 bits (R243). -/
def xregNat (x : XReg) : Nat :=
  x.ctl.toNat + (List.range 32).foldl (fun a l => a + (x.off.toArray.getD l 0).toNat * 2 ^ (32 + 6 * l)) 0

/-- A value whose bits from number k up are reserved and read zero. -/
def lowBits (k n : Nat) : W32 := BitVec.ofNat 32 (n % 2 ^ k)

/-- The index register of 224 bits; the reserved bits of its control half read zero (R243). -/
def xregOf (n : Nat) : XReg :=
  ⟨lowBits 20 n, Vector.ofFn fun l : Fin 32 => BitVec.ofNat 6 (n / 2 ^ (32 + 6 * l.val))⟩

/-- A byte of a number. -/
def byteOf (n k : Nat) : Nat := n / 2 ^ (8 * k) % 256
/-- A number with one byte replaced. -/
def putByte (n k b : Nat) : Nat := n % 2 ^ (8 * k) + b % 256 * 2 ^ (8 * k) + n / 2 ^ (8 * k + 8) * 2 ^ (8 * k + 8)

/-- The resident workgroup that holds a pool byte of a core, and the byte's place among the granules that it holds. -/
def State.poolHolder (s : State) (k o : Nat) : Option (Nat × Nat) :=
  (s.wgs.find? fun e => decide (e.2.core = k) && decide (e.2.status = .resident) && e.2.granules.contains (o / 0x4000)).map
    fun e => (e.1, e.2.granules.idxOf (o / 0x4000) * 0x4000 + o % 0x4000)

/-- The course and the byte of its V × 128 + S × 8 + 2,048 bytes of register file (R20) that a byte of the register granules
is, or none for a byte that is no register's. How the file is laid out is open: it is turned by a free number of units (log entry 6). -/
def regPlace (l : Launch) (o : Nat) : Option (Nat × Nat) :=
  let per := l.nv * 128 + l.ns * 8 + 2048
  let n := l.rfg * 0x4000
  let p := (o + 16 * Config.poolPlace n) % n
  if p < l.ncrs * per then some (p / per, p % per) else none

/-- Where a byte of a course's part of the register file stands in the register granules. -/
def regByteAt (l : Launch) (c r : Nat) : Nat :=
  let n := l.rfg * 0x4000
  (c * (l.nv * 128 + l.ns * 8 + 2048) + r + (n - 16 * Config.poolPlace n % n)) % n

/-- Bytes of the reserved strip that hold something (R20, R260); those behind them are plain SRAM (log entry 6). -/
def stripBytes : Nat := 1344

/-- The stack entry that stands in a place of the strip (R20, R178): entry number e, counted from the bottom, in place e mod 32. -/
def Course.entryAt (c : Course) (p : Nat) : Option StackEntry := c.stack[(c.depth + 31 - p) % 32]?

/-- A byte of a course's registers: vector registers, scalar registers, then the reserved strip with predicates, index registers,
generators, MODE, EXEC, the program counter, the stack, FSTAT, REPST and CTIMER (R20, R260; the order is log entry 6). -/
def Course.poolByte (c : Course) (l : Launch) (r : Nat) : Nat :=
  let q := r - (l.nv * 128 + l.ns * 8)
  if r < l.nv * 128 then byteOf ((c.vreg (r / 128)).toArray.getD (r % 128 / 4) 0).toNat (r % 4)
  else if r < l.nv * 128 + l.ns * 8 then byteOf (c.sreg ((r - l.nv * 128) / 8)).toNat ((r - l.nv * 128) % 8)
  else if q < 32 then byteOf (c.pred (q / 4)).toNat (q % 4)
  else if q < 544 then byteOf (xregNat (c.xreg ((q - 32) / 32))) ((q - 32) % 32)
  else if q < 800 then byteOf (genNat (c.gen ((q - 544) / 32))) ((q - 544) % 32)
  else if q < 804 then byteOf c.mode.toNat (q - 800)
  else if q < 808 then byteOf c.exec.toNat (q - 804)
  else if q < 816 then byteOf c.pc.toNat (q - 808)
  else if q < 1328 then (match c.entryAt ((q - 816) / 16) with
    | some e => byteOf (entryNat e) ((q - 816) % 16)
    | none => 0)
  else if q < 1332 then byteOf c.fstat.toNat (q - 1328)
  else if q < 1336 then byteOf c.repst.toNat (q - 1332)
  else byteOf c.ctimer.toNat (q - 1336)

/-- What a byte of the pool is: a byte of a course's registers, of a scratchpad, of the accumulators, or of neither. -/
inductive PoolPart where
  | free
  | reg (u c r : Nat)
  | pad (u a : Nat)
  | acc (u a : Nat)
deriving DecidableEq, Repr

/-- The part of the pool that a byte belongs to. -/
def State.poolPart (s : State) (k o : Nat) : PoolPart :=
  match s.poolHolder k o with
  | none => .free
  | some (u, at1) =>
    let l := (s.grid (s.wg u).gid).launch
    let a := at1 - l.rfg * 0x4000
    if at1 < l.rfg * 0x4000 then
      match regPlace l at1 with
      | some (c, r) => if r < l.nv * 128 + l.ns * 8 + stripBytes then .reg u c r else .free
      | none => .free
    else if a < l.spg * 0x4000 then .pad u a
    else .acc u (a - l.spg * 0x4000)

/-- A byte of the pool that is no register, scratchpad or accumulator byte of a resident workgroup. -/
def State.poolByteAt (s : State) (k o : Nat) : Byte :=
  let c := s.core k
  (Tab.find c.pool o).getD (if c.used.contains (o / 0x4000) then 0 else Config.poolByte (k * 2 ^ 21 + o))

/-- The bytes of a course's registers that are not zero, by their place in its part of the register file. -/
def Course.poolBytes (c : Course) (l : Launch) : List (Nat × Byte) :=
  let at1 := (c.v.flatMap fun e => if e.1 < l.nv then (List.range 128).map (128 * e.1 + ·) else [])
    ++ (c.s.flatMap fun e => if e.1 < l.ns then (List.range 8).map (l.nv * 128 + 8 * e.1 + ·) else [])
    ++ (List.range stripBytes).map (l.nv * 128 + l.ns * 8 + ·)
  (at1.map fun r => (r, BitVec.ofNat 8 (c.poolByte l r))).filter fun e => decide (e.2 ≠ 0)

/-- The bytes of a workgroup's granules that are not zero, by their place among its granules. -/
def Workgroup.poolBytes (w : Workgroup) (l : Launch) : List (Nat × Byte) :=
  (w.courses.flatMap fun c => (c.2.poolBytes l).map fun e => (regByteAt l c.1 e.1, e.2))
    ++ (w.scratch.map fun e => (l.rfg * 0x4000 + e.1, e.2))
    ++ w.accs.flatMap fun (a : Nat × Tab W32) => a.2.flatMap fun (e : Nat × W32) => (List.range 4).map fun j =>
      ((l.rfg + l.spg) * 0x4000 + 4096 * a.1 + 4 * e.1 + j, (BitVec.ofNat 8 (byteOf e.2.toNat j) : Byte))

/-- Its poisoned 16-byte units, in the same way. -/
def Workgroup.poolBad (w : Workgroup) (l : Launch) : List Nat :=
  (w.courses.flatMap fun c =>
      ((c.2.vpoison.map fun (e : Nat × Bool) => 16 * e.1) ++ (c.2.spoison.map fun (e : Nat × Bool) => l.nv * 128 + 16 * e.1)
        ++ c.2.rpoison.map fun (e : Nat × Bool) => l.nv * 128 + l.ns * 8 + 16 * e.1).map fun r => regByteAt l c.1 r / 16)
    ++ (w.spoison.map fun (e : Nat × Bool) => l.rfg * 0x400 + e.1) ++ w.apoison.map fun (e : Nat × Bool) => (l.rfg + l.spg) * 0x400 + e.1

/-- The granules of a workgroup that leaves its core hold what they held (R16). -/
def State.releasePool (s : State) (u : Nat) : State :=
  let w := s.wg u
  let l := (s.grid w.gid).launch
  let c := s.core w.core
  if w.status ≠ .resident then s
  else
    let place := fun (unit o : Nat) => (w.granules[o / (0x4000 / unit)]?).map fun g => g * (0x4000 / unit) + o % (0x4000 / unit)
    s.setCore w.core { c with
      pool := (w.poolBytes l).foldl (fun t e => match place 1 e.1 with | some o => Tab.set t o e.2 | none => t) c.pool
      poolBad := (w.poolBad l).foldl (fun t x => match place 16 x with | some o => Tab.set t o true | none => t) c.poolBad
      used := (c.used ++ w.granules).eraseDups }

/-- The granules that a workgroup takes hold nothing of before (R22). -/
def State.wipe (s : State) (k : Nat) (gs : List Nat) : State :=
  let c := s.core k
  s.setCore k { c with
    pool := c.pool.filter fun e => !gs.contains (e.1 / 0x4000)
    poolBad := c.poolBad.filter fun e => !gs.contains (e.1 / 0x400)
    used := (c.used ++ gs).eraseDups }

end Sys2Proof.Machine
end

