-- ==== Sys2Proof/Machine/Task.lean ====
section
/-! DEFINITION. The ends of workgroups, tasks and grids: resources returned (R273), the ticket unit's commits (R180 to R183,
R159, R83, R189), grid abort (R186) and the completion records of grids and collectives (R187, R386). -/

namespace Sys2Proof.Machine

-- ## The end of a workgroup (R180, R273)

/-- Every course has ended, and every engine command, remote read and closing of a batch is over. A copy whose fault no
course is left to report counts as dropped (log entry 28). -/
def Workgroup.over (w : Workgroup) (l : Launch) : Bool :=
  (List.range l.ncrs).all (fun c => (w.crs c).exited) && w.cmds.all (fun m => m.done || m.fail.isSome)
    && w.courses.all (fun c => c.2.flights.isEmpty)

/-- What the release fences of a workgroup's courses order before their ends has been performed, and so have its stores to
scratchpads, which its end gives back (R149). -/
def State.fencesDone (s : State) (u : Nat) : Bool :=
  s.pend.all fun p => decide (p.uid ≠ u)
    || (decide ((s.crs u p.crs).relBar ≤ p.id) && (match p.tgt with | .scratch _ _ => false | _ => true))

/-- The workgroup is over. -/
def State.over (s : State) (u : Nat) : Bool := (s.wg u).over (s.grid (s.wg u).gid).launch && s.fencesDone u

/-- A workgroup without its resources; its address space is still that of accesses which it has left behind (R46). -/
def Workgroup.gone (w : Workgroup) : Workgroup :=
  { Workgroup.empty with gid := w.gid, w := w.w, asn := w.asn, core := w.core, tries := w.tries }

/-- The workgroup is over: its granules, barriers and slots return, and its grid counts one more (R21, R170). -/
def State.endWg (s : State) (u : Nat) : State :=
  let w := s.wg u
  let g := s.grid w.gid
  { ((s.releasePool u).setWg u w.gone).setGrid w.gid { g with endedN := g.endedN + 1 } with
    monitors := s.monitors.filter fun m => m.1 ≠ u }

/-- Workgroups placed together: a cohort, or one (R25). -/
def Launch.unit (l : Launch) : Nat := max 1 l.coh

/-- The members of a workgroup's unit that have been placed and are not over. -/
def State.unitOf (s : State) (u : Nat) : List Nat :=
  let w := s.wg u
  let n := (s.grid w.gid).launch.unit
  (s.wgs.filter fun e => decide (e.2.gid = w.gid) && decide (e.2.w / n = w.w / n) && decide (e.2.status ≠ .ended)).map Prod.fst

/-- Every member of the workgroup's unit is over, and committed where its grid is versioned: a member of a cohort keeps its
place while another may still address it (R25, log entry 19). -/
def State.unitOver (s : State) (u : Nat) : Bool :=
  let l := (s.grid (s.wg u).gid).launch
  (s.unitOf u).all fun v => s.over v && (!l.ver || (s.wg v).taskEnd)

/-- WORKGROUP_END (R273): a task of a versioned grid ends once it has been committed. -/
def execWorkgroupEnd (u : Nat) (s : State) : Host.Outcome State Fault Refusal :=
  let w := s.wg u
  let g := s.grid w.gid
  .next (if w.status = .resident ∧ g.abort = none ∧ s.unitOver u then s.endWg u else s)

-- ## Commit (R83, R159, R180 to R183, R189)

/-- Bytes at neighbouring places gathered into runs. -/
def runsOf (bytes : Tab Byte) : List (Nat × List Byte) :=
  (bytes.foldl (fun (acc : List (Nat × List Byte)) e =>
    match acc with
    | (a, bs) :: r => if a + bs.length = e.1 then (a, bs ++ [e.2]) :: r else (e.1, [e.2]) :: acc
    | [] => [(e.1, [e.2])]) []).reverse

/-- The written bytes of a slate as one number, and their mask. -/
def slateWord (bytes : Tab Byte) : Nat × Nat :=
  bytes.foldl (fun n e => (n.1 + e.2.toNat * 2 ^ (8 * e.1), n.2 + 2 ^ e.1)) (0, 0)

/-- The bytes of a version slate without those of its poisoned row lines. -/
def VSlate.sound (v : VSlate) : Tab Byte := v.bytes.filter fun e => !Tab.get false v.bad (e.1 / 32)

/-- One version slate applied: at home as one row write of its written bytes, its poison with them (R90); at another module as
one request, whose compare field carries the written-byte mask, and which a poisoned row line does not join: its number's error
bit is set (log entry 20). The manual does not say by which of a task's courses and numbers a commit's remote stores count:
here each slate takes one number of course 0's batch, of whose peers there may then be more than 64 (DESIGN CHOICE, log entry
70). -/
def State.commitSlate (s : State) (u : Nat) (v : VSlate) : State :=
  match v.peer with
  | none =>
    let t := (runsOf v.bytes).foldl (fun t r => t.write (v.slate * 1024 + r.1) r.2) (s.settle v.slate)
    v.bad.foldl (fun t e => if e.2 then t.poisonRange (v.slate * 1024 + 32 * e.1) 32 else t) t
  | some p =>
    let k := (s.crs u 0).takeSeq v.batch p
    let x := slateWord v.sound
    let b := k.1.batch v.batch
    let c := if v.bad.any Prod.snd then k.1.setBatch v.batch { b with errs := b.errs ||| BitVec.ofNat 32 (2 ^ (k.2 % 32)) } else k.1
    (s.setCrs u 0 c).formReq u 0 0 0 p (v.slate * 1024) 1024 x.1 x.2 .write (c.batchNo v.batch) k.2 0 false

/-- One reduction of a task applied, in its order: at home at once, elsewhere as a reduction store. -/
def State.commitRed (s : State) (u : Nat) (r : RedRec) : State :=
  match r.peer with
  | none => (s.sendRed ⟨r.pa, r.op, r.rm, r.ftz, r.v, none⟩).settle (slateOf r.pa)
  | some p => s.remoteStore u 0 r.batch 0 p r.pa r.width r.v (.red r.op) r.rm r.ftz

/-- A batch of a task's course is closed by the ticket unit. -/
def State.closeBatch (s : State) (u c b : Nat) : State :=
  let k := s.crs u c
  let x := k.batch b
  if x.peers.isEmpty then s
  else
    let got := (x.peers.filter x.down.contains).map fun p => (p, 2 ^ 32 - 1)
    let f : Flight := { id := s.stamp, kind := .closeb (k.batchNo b) x.peers x.sent got x.errs none, acq := false, rel := false,
                        scope := .sys, marks := [], scal := true, lanes := [], got := [], fails := [], pc := k.pc, bar := 0, rep := 0 }
    (s.setCrs u c { k.setBatch b { Batch.zero with gen := x.gen + 1 } with flights := k.flights ++ [f] }).fresh

/-- The batches of a task's remote writes are closed, so that the next commit waits until they are performed (R159): those of
its commit, and those of the courses of an unbuffered task. -/
def State.closeCommit (s : State) (u : Nat) : State :=
  ((s.wg u).courses.foldl (fun t c => [0, 1, 2, 3].foldl (fun t b => t.closeBatch u c.1 b) t) s).closeMarkers

/-- The version slates of a task applied (R83). The manual lets another agent see a commit's slates apart (R159); here those of
this module are written in one step (DESIGN CHOICE, log entry 71). -/
def State.performSlates (s : State) (u : Nat) : State :=
  let t := (s.wg u).version.foldl (fun t v => t.commitSlate u v) s
  t.setWg u { t.wg u with version := [] }

/-- A task's reductions in the order in which they are applied (R80, R190). The manual does not say how its courses stand to each
other in the task's program order: they keep the order in which they issued, but in deterministic mode, where no timing may show,
a lower course's come first (log entry 66). -/
def Workgroup.logOrder (w : Workgroup) (l : Launch) : List RedRec :=
  if l.det then (List.range l.ncrs).flatMap fun c => w.redlog.filter fun r => decide (r.crs = c) else w.redlog

/-- The reduction log of a task applied, then its ATOMD totals in order of first use (R184, R189). -/
def State.performReds (s : State) (u : Nat) : State :=
  let w := s.wg u
  let t := (w.logOrder (s.grid w.gid).launch).foldl (fun t r => t.commitRed u r) s
  let t1 := w.detadd.foldl (fun t d => t.commitRed u ⟨0, false, d.1, d.2.1, 2, 0, false, 4, d.2.2 % 2 ^ 32, 0⟩) t
  t1.setWg u { t1.wg u with redlog := [], detadd := [] }

/-- What a task holds is performed: its version slates, its reductions, its ATOMD totals (R83, R184, R189). -/
def State.performVersion (s : State) (u : Nat) : State := ((s.performSlates u).performReds u).closeCommit u

/-- A record of a task's reduction log stands in a poisoned row line of its version slate: no value of it may be used (R90), so that
the task runs again (R183). -/
def Workgroup.logBad (w : Workgroup) : Bool := w.redlog.any RedRec.bad

/-- A read of memory by the front end or the ticket unit. The manual does not say what these agents make of poison: the
value read is then open (log entry 30). -/
def State.openRead (s : State) (pa n : Nat) : Nat :=
  if s.rangePoisoned pa n then Config.choice s.steps % 2 ^ (8 * n) else (s.homeRead pa n).2

/-- A guard word holds its value (R160). -/
def State.guardHolds (s : State) (g : Nat × Nat) : Bool := decide (s.openRead g.1 4 = g.2)

/-- The workgroup of a grid and linear index. -/
def State.taskOf (s : State) (gid w : Nat) : Option Nat :=
  (s.wgs.find? fun e => decide (e.2.gid = gid) && decide (e.2.w = w) && decide (e.2.status ≠ .ended)).map Prod.fst

/-- Every write of the previous commit, and of the previous task where that was unbuffered, has been performed (R159). -/
def State.commitsQuiet (s : State) (gid : Nat) : Bool :=
  s.wgs.all fun e => !(decide (e.2.gid = gid) && decide (e.2.w + 1 = (s.grid gid).commits))
    || ((e.2.courses.all fun c => c.2.flights.isEmpty) && s.pend.all fun p => p.uid ≠ e.1)

/-- COMMIT (R180): the oldest uncommitted task of a grid, once it has ended and its predecessor's commit is performed.
Every guard is read; all hold and the version is performed, or it is discarded and the task restarts (R181). An
unbuffered task commits nothing, and no guard is read (R182), but for the reductions of a deterministic grid, which are applied
only so (R190, log entry 66). -/
def execCommit (gid : Nat) (s : State) : Host.Outcome State Fault Refusal :=
  let g := s.grid gid
  match s.taskOf gid g.commits with
  | none => .next s
  | some u =>
    let w := s.wg u
    .next (
      if g.launch.ver ∧ g.abort = none ∧ w.status = .resident ∧ !w.taskEnd ∧ w.holder = none ∧ s.over u ∧ s.commitsQuiet gid then
        let t := if w.unbuf then s else w.guards.foldl (fun t x => (t.homeRead x.1 4).1) s
        if w.logBad then
          if w.unbuf then s.abortOf u 1 else if s.calm u then s.restartTask u (w.tries + 1) else s
        else if w.unbuf || w.guards.all t.guardHolds then
          let t1 := t.performVersion u
          (t1.setWg u { t1.wg u with taskEnd := true, guards := [] }).setGrid gid { g with commits := g.commits + 1, last := s.dtime }
        else if s.calm u then t.restartTask u (w.tries + 1)
        else s
      else s)

/-- A task waits for its version, which is full. -/
def Workgroup.versionFull (w : Workgroup) : Bool := w.fullV || w.courses.any fun c => decide (c.2.wait = some .version)

/-- UNBUFFERED_COMMIT (R182): the oldest uncommitted task, when its version is full, commits what it holds without a look at
the guards of the TENDs that it has executed, and runs on unbuffered. In deterministic mode its reductions, whose order is fixed
only at its end, are kept while there is room, and so those of an unbuffered task (R190, log entry 66). -/
def execUnbufferedCommit (gid : Nat) (s : State) : Host.Outcome State Fault Refusal :=
  let g := s.grid gid
  match s.taskOf gid g.commits with
  | none => .next s
  | some u =>
    let w := s.wg u
    .next (
      if g.launch.ver ∧ g.abort = none ∧ w.status = .resident ∧ (!w.unbuf || g.launch.det) ∧ w.holder = none ∧ w.versionFull
          ∧ s.commitsQuiet gid then
        if w.logBad ∧ ¬(g.launch.det ∧ w.version ≠ []) then
          if w.unbuf then s.abortOf u 1 else if s.calm u then s.restartTask u (w.tries + 1) else s
        else
          let t := if g.launch.det ∧ w.version ≠ [] then (s.performSlates u).closeCommit u else s.performVersion u
          t.setWg u { t.wg u with
            unbuf := true, fullV := false, guards := []
            courses := Tab.mapVal (fun _ (k : Course) => if k.wait = some .version then k.awake else k) (t.wg u).courses }
      else s)

-- ## Records and aborts (R186, R187, R386)

/-- The completion record of a grid. -/
def State.gridRecord (s : State) (g : Grid) (status index : Nat) (done : Nat) : List Byte :=
  completionRecord g.launch.cplv.toNat status index (stampField g.launch.tsr (g.first.getD (Config.openStamp s.steps % 2 ^ 80)))
    (stampField g.launch.tsr done)

/-- The record of a grid is written and the grid is over; nothing yet while the record's page is held or walked. -/
def State.finishGrid (s : State) (gid status index done : Nat) : State :=
  let g := s.grid gid
  let r := s.writeRecord g.chain.asn g.chain.root g.launch.cpla (s.gridRecord g status index done)
  if r.2 then
    { r.1 with grids := Tab.del r.1.grids gid, reqs := r.1.reqs.filter fun x => !(x.sent && decide ((s.wg x.uid).gid = gid) && decide ((s.wg x.uid).status = .ended)) }
  else r.1

/-- A link has begun to send the packet of a request. -/
def State.begun (s : State) (tag : Nat) : Bool :=
  s.links.any fun l => (l.2.replay.any fun f => f.carries tag)
    || ((l.2.tx.any fun f => f.carries tag) && !(l.2.tx.any fun f => f.carries tag && f.first))

/-- A request of a grid that no link has begun to send is dropped, and so is one whose reply nobody waits for any more. -/
def State.dropReqs (s : State) (gid : Nat) : State :=
  let mine := s.reqs.filter fun r => decide ((s.wg r.uid).gid = gid) && !s.begun r.tag
  { s with
    reqs := s.reqs.filter fun r => !mine.any fun x => decide (x.tag = r.tag)
    links := Tab.mapVal (fun _ (l : Link) => { l with tx := l.tx.filter fun f => !mine.any fun x => f.carries x.tag }) s.links }

/-- The workgroups of an aborted grid are gone: commands and remote accesses dropped, uncommitted versions discarded; the
writes performed or issued before stay (R186). Freezes of their cores end. -/
def State.dropGrid (s0 : State) (gid : Nat) : State :=
  let s := s0.dropReqs gid
  let mine := s.wgs.filter fun e => decide (e.2.gid = gid) && decide (e.2.status ≠ .ended)
  let t := mine.foldl (fun (t : State) e =>
    let k := e.2.core
    { ((t.releasePool e.1).setWg e.1 e.2.gone).setCore k { t.core k with frozen := false, quiet := false } with
      monitors := t.monitors.filter fun m => m.1 ≠ e.1 }) s
  t.setGrid gid { t.grid gid with dropped := true }

/-- What a dropped grid had issued is complete: its writes performed, its packets with the link layer of their targets. -/
def State.gridQuiet (s : State) (gid : Nat) : Bool :=
  (s.pend.all fun p => (s.wg p.uid).gid ≠ gid)
    && s.reqs.all fun r => decide ((s.wg r.uid).gid ≠ gid)
      || !(s.links.any fun l => (l.2.tx ++ l.2.replay).any fun f => f.carries r.tag)

/-- GRID_ABORT (R186): cancels a grid from outside with cause 5, or carries out an abort that has been decided: the grid
stops, drops its work, and writes its record once what it had issued is complete. -/
def execGridAbort (gid cause : Nat) (s : State) : Host.Outcome State Fault Refusal :=
  match Tab.find s.grids gid with
  | none => .next s
  | some g0 =>
    if g0.abort = none ∧ cause ≠ 5 then .next s
    else
      let t := if g0.abort = none then s.abortGrid gid cause 0 else s
      let t1 := if g0.dropped then t else t.dropGrid gid
      match (t1.grid gid).abort with
      | some (c, w) => .next (if t1.gridQuiet gid then t1.finishGrid gid c w (Config.openStamp s.steps % 2 ^ 80) else t1)
      | none => .next t1

/-- A collective whose contexts have all executed HALT (R386). -/
def Coll.over (c : Coll) : Bool := (linkBits c.lmask).all fun l => bit c.halted l

/-- COMPLETION_WRITE (R187, R386): the record of a grid whose workgroups have all ended, of a collective whose contexts
have all halted, or of an aborted one whose record waits for its page. Grids and collectives share one numbering. -/
def execCompletionWrite (gid : Nat) (s : State) : Host.Outcome State Fault Refusal :=
  match Tab.find s.grids gid with
  | some g =>
    .next (if g.abort = none ∧ g.endedN = g.total ∧ g.total ≠ 0 then s.finishGrid gid 0 (2 ^ 64 - 1) g.last else s)
  | none =>
    match Tab.find s.colls gid with
    | some c => .next (if c.over || c.aborted then s.finishColl gid c else s)
    | none => .next s

end Sys2Proof.Machine
end

