-- ==== Sys2Proof/Machine/Front.lean ====
section
/-! DEFINITION. The front end: launch queues, region control blocks, launch, wait and collective packets (R167 to R172,
R188, R192 to R200, R384, R385, R428). -/

namespace Sys2Proof.Machine

-- ## Queues (R192, R193, R197, R200)

/-- Address of a ring granule of a queue (R193). -/
def Queue.granule (q : Queue) (p : Nat) : Nat := q.qbase.toNat + (p % 2 ^ q.qlog) * 128

/-- The ring, the write-pointer word and the status word lie in stack memory, and the length is in range (R192). -/
def Queue.configured (q : Queue) : Bool :=
  decide (1 ≤ q.qlog) && decide (q.qlog ≤ 16) && inStack (q.qbase.toNat + 128 * 2 ^ q.qlog - 1) && inStack (q.wpa.toNat + 7)
    && inStack (q.swa.toNat + 15)

/-- Granules written and not yet taken, by the value last read. -/
def Queue.pending (q : Queue) : Nat := (q.wpseen - q.rp).toNat

/-- The writer to whom a packet of `n` granules at RP is attributed: 4,096 for this module and the host (R200, log entry 79). -/
def Queue.writer (q : Queue) (n : Nat) : Nat :=
  match q.wrote.find? fun e => decide (n ≤ (e.1 - q.rp).toNat) && decide ((e.1 - q.rp).toNat < 2 ^ 63) with
  | some e => e.2
  | none => 4096

/-- RP moves on; what was written before it is forgotten. -/
def Queue.pass (q : Queue) (n : Nat) : Queue :=
  let rp := q.rp + BitVec.ofNat 64 n
  { q with rp := rp, pkt := [], got := [], holding := false, qstate := 1
           wrote := q.wrote.filter fun e => decide (1 ≤ (e.1 - rp).toNat) && decide ((e.1 - rp).toNat < 2 ^ 63) }

/-- A queue stops (R197): the status word, QSTATE and QERR, and the event. What has been read of the packet is still known to SKIP. -/
def State.stopQueue (s : State) (k code n : Nat) : State :=
  let q := s.queue k
  let by1 := q.writer n
  let who := if by1 = 4096 then s.ownPeer.toNat + 2 ^ 15 else by1
  let word := bytesOf 8 q.rp.toNat ++ bytesOf 1 code ++ bytesOf 1 0 ++ bytesOf 2 who ++ bytesOf 4 0
  let t := s.homeWrite q.swa.toNat word
  (t.setQueue k { t.queue k with
    qstate := 3, qerr := code, pkt := [], holding := false, got := if q.pkt = [] then q.got else q.pkt }).postEvent 4
    (bytesOf 1 k ++ bytesOf 1 code ++ bytesOf 6 0 ++ word ++ bytesOf 8 0)

/-- A right that a peer needs for its packet: bit `n` of an entry that admits the peer and the queue (R199, R200). -/
def State.peerMay (s : State) (k peer n : Nat) : Bool :=
  s.acl.any fun e =>
    let w := e.2.1.toNat
    bit w 32 && decide (bits w 15 12 = 0) && decide (bits w 31 28 = 0) && decide (bits w 63 36 = 0)
      && decide (bits w 11 0 ≤ peer) && decide (peer ≤ bits w 27 16) && bit e.2.2.toNat k && bit w n

/-- The writer of a packet has a right; writers of this module and the host have every one. -/
def State.hasRight (s : State) (k by1 n : Nat) : Bool := decide (by1 = 4096) || s.peerMay k by1 n

/-- WRITE_POINTER_READ (R193): whatever the queue is at, a value beyond its ring stops it. -/
def execWritePointerRead (k : Nat) (s : State) : Host.Outcome State Fault Refusal :=
  let q := s.queue k
  .next (if q.qen ∧ q.qstate ≠ 3 then
    let v := s.openRead q.wpa.toNat 8
    let t := (s.homeRead q.wpa.toNat 8).1
    let u := t.setQueue k { t.queue k with wpseen := BitVec.ofNat 64 v, seen := true }
    if 2 ^ q.qlog < (u.queue k).pending then u.stopQueue k 0x0D 1 else u
  else s)

-- ## Packets

/-- Some byte from one offset to before another is not zero. -/
def anySet (b : Block) (lo hi : Nat) : Bool := b / 2 ^ (8 * lo) % 2 ^ (8 * (hi - lo)) ≠ 0

/-- The first `n` granules of the packet at RP, each read once (R193): those that have been read are not read again. -/
def State.readPacket (s : State) (k n : Nat) : Block :=
  let q := s.queue k
  (List.range n).foldl (fun b i => b + 2 ^ (1024 * i) * (
    if 128 * i < q.got.length then leBytes ((q.got.drop (128 * i)).take 128) else s.openRead (q.granule (q.rp.toNat + i)) 128)) 0

/-- Those granules are read: their slates are filled (R71), and their bytes are the packet's from now on (R193). -/
def State.touchPacket (s : State) (k n : Nat) : State :=
  let q := s.queue k
  let t := ((List.range n).filter fun i => decide (q.got.length ≤ 128 * i)).foldl
    (fun t i => (t.homeRead (q.granule (q.rp.toNat + i)) 128).1) s
  t.setQueue k { t.queue k with got := bytesOf (128 * n) (s.readPacket k n) }

/-- Granules of a packet by its first word; one where SZ is invalid (R197). Whether SZ = 0b01 is an invalid size of a wait or
collective packet, for which SKIP passes one granule, the manual does not say: here it passes two (DESIGN CHOICE, log entry
72). -/
def packetSize (first : Nat) : Nat := if bits first 5 4 = 1 then 2 else 1

/-- What the head of a queue is: nothing to take, an overrun, the first granule of a packet whose other one has not been written
yet, or a packet of a type with its block, whole. -/
inductive Head where
  | none
  | overrun
  | part
  | packet (ty n : Nat) (b : Block)
deriving DecidableEq, Repr

/-- The head of a running queue that holds no packet (R193). -/
def State.head (s : State) (k : Nat) : Head :=
  let q := s.queue k
  if !q.qen || decide (q.qstate ≠ 1) || q.holding || !q.seen then .none
  else if 2 ^ q.qlog < q.pending then .overrun
  else if q.pending = 0 then .none
  else
    let b := s.readPacket k 1
    let n := packetSize b
    if q.pending < n then (if q.got = [] then .part else .none)
    else .packet (bits b 3 0) n (if n = 1 then b else s.readPacket k 2)

-- ## Region control blocks (R167 to R169)

/-- Reserved bits or fields out of range in an RCB (R167, R169), but for its place in the chain. -/
def rcbBad (b : Block) : Bool :=
  let w0 := w8 b 0
  decide (bits w0 7 0 ≠ 1) || decide (bits w0 31 24 ≠ 0) || decide (bits w0 47 43 ≠ 0) || decide (bits w0 63 59 ≠ 0)
    || decide (bits (w8 b 8) 7 0 ≠ 0) || decide (bits (w8 b 8) 63 48 ≠ 0)
    || decide (bits (w8 b 0x10) 12 0 ≠ 0) || decide (bits (w8 b 0x10) 63 48 ≠ 0) || decide (bits (w8 b 0x18) 63 8 ≠ 0)
    || decide (576 < w4 b 0x20) || decide (73728 < w4 b 0x24) || decide (36864 < w4 b 0x28) || decide (18432 < w4 b 0x2C)
    || decide (4096 < w4 b 0x30) || decide (bits (w8 b 0x30) 63 40 ≠ 0)
    || decide (bits (w8 b 0x38) 11 0 ≠ 0) || decide (bits (w8 b 0x38) 63 54 ≠ 0)
    || decide (bits (w8 b 0x40) 11 0 ≠ 0) || decide (bits (w8 b 0x40) 63 54 ≠ 0) || anySet b 0x48 0xC0

/-- DEPTH. -/
def rcbDepth (b : Block) : Nat := bits (w8 b 0) 10 8
/-- The parent's address. -/
def rcbParent (b : Block) : Nat := bits (w8 b 8) 47 8 * 2 ^ 8

/-- The chain from an RCB to its job, each with its address, or none where it is malformed (R169). -/
def readChain (s : State) (pa depth fuel : Nat) : Option (List (Nat × Block)) :=
  match fuel with
  | 0 => none
  | f + 1 =>
    if !inStack pa then none
    else
      let b := s.openRead pa 256
      let d := rcbDepth b
      if rcbBad b || (decide (depth ≠ 8) && decide (d ≠ depth)) then none
      else if d = 0 then
        if rcbParent b ≠ 0 ∨ bits (w8 b 0) 58 48 ≠ 0 ∨ bits (w8 b 0x18) 7 0 = 0 ∨ !inStack (w8 b 0x10) then none
        else some [(pa, b)]
      else if rcbParent b = 0 ∨ w8 b 0x10 ≠ 0 ∨ w8 b 0x18 ≠ 0 then none
      else (readChain s (rcbParent b) (d - 1) f).map ((pa, b) :: ·)

/-- An inheritable field's own value by its number (R168). -/
def rcbField (b : Block) (i : Nat) : Nat :=
  match i with
  | 0 => bits (w8 b 0) 15 12
  | 1 => bits (w8 b 0) 11 11
  | 2 => bits (w8 b 0) 23 16
  | 3 => w4 b 0x20
  | 4 => w4 b 0x24
  | 5 => w4 b 0x28
  | 6 => w4 b 0x2C
  | 7 => w4 b 0x30
  | 8 => bits (w8 b 0x30) 39 32
  | 9 => w8 b 0x38
  | _ => w8 b 0x40

/-- The effective value of field i at the first member of a chain (R168). -/
def effective (i : Nat) : List (Nat × Block) → Nat
  | [] => 0
  | [x] => rcbField x.2 i
  | x :: p :: r =>
    if !bit (w8 p.2 0) (32 + i) || bit (w8 x.2 0) (48 + i) then rcbField x.2 i else effective i (p :: r)

/-- The members of a chain with their effective budgets, from the first up. -/
def budgetsOf : List (Nat × Block) → List Budget
  | [] => []
  | x :: r => ⟨x.1, effective 3 (x :: r), effective 4 (x :: r), effective 5 (x :: r), effective 6 (x :: r)⟩ :: budgetsOf r

/-- What the front end holds of a chain. -/
def chainOf (l : List (Nat × Block)) : Chain :=
  let job := l.getLast?.getD (0, 0)
  { prio := effective 0 l, lat := effective 1 l ≠ 0, fdom := effective 2 l, vcap := effective 7 l, fshare := effective 8 l,
    stk := effective 9 l, savea := effective 10 l, root := w8 job.2 0x10, asn := bits (w8 job.2 0x18) 7 0,
    depth := l.length - 1, job := job.1, budgets := budgetsOf l }

/-- The members of a chain are read: their slates are filled (R71). -/
def State.touchChain (s : State) (pa : Nat) : Nat → State
  | 0 => s
  | f + 1 =>
    if !inStack pa then s
    else
      let b := s.openRead pa 256
      let t := (s.homeRead pa 256).1
      if rcbBad b || decide (rcbDepth b = 0) then t else t.touchChain (rcbParent b) f

/-- The chain that a launch names. -/
def State.chainAt (s : State) (rcbp : Nat) : Option Chain := (readChain s rcbp 8 8).map chainOf

-- ## Launch packets (R19, R20, R172, R188, R195, R196)

/-- The fields of a launch packet (R195). -/
def launchOf (b : Block) : Launch :=
  let c := w4 b 0x0C
  { ver := bit b 8 || bit b 9, det := bit b 9, idem := bit b 10, tsr := bit b 11, lc := bit b 12, spe := bit b 13,
    prod := bits b 20 16, gx := w4 b 4, gy := bits (w4 b 8) 15 0, gz := bits (w4 b 8) 31 16, ncrs := bits c 4 0 + 1,
    nbar := bits c 11 5, nos := bits c 17 12, nacc := 4 * bits c 23 18, nv := 8 * (bits c 28 24 + 1),
    ns := 8 * (bits c 31 29 + 1), entry := BitVec.ofNat 64 (w8 b 0x10), rcbp := w8 b 0x18,
    partw := BitVec.ofNat 64 (w8 b 0x20), argp := BitVec.ofNat 64 (w8 b 0x28), seed := BitVec.ofNat 64 (w8 b 0x30),
    cpla := w8 b 0x38, cplv := BitVec.ofNat 64 (w8 b 0x40), handler := BitVec.ofNat 64 (w8 b 0x48), expi := w4 b 0x50,
    k := w4 b 0x54, fslots := (List.range 8).map fun i => BitVec.ofNat 32 (w4 b (0x60 + 4 * i)),
    notBefore := w8 b 0x80, cmask := bits (w8 b 0x88) 23 0 }

/-- Workgroups of a grid (R172). -/
def Launch.total (l : Launch) : Nat := l.gx * l.gy * l.gz

/-- A format slot is malformed (R226). -/
def fslotBad (d : W32) : Bool :=
  let w := d.toNat
  let c := bits w 3 0
  decide (8 ≤ c) || decide (bits w 31 13 ≠ 0) || (decide (c = 0) && decide (w ≠ 0))
    || ((decide (c = 1) || decide (c = 2)) && !bit w 11) || (decide (2 < c) && bit w 12)

/-- R19, R20 and the ranges of offset 0x0C. -/
def partitionBad (l : Launch) : Bool :=
  decide (l.rfg = 0) || decide (64 < l.rfg) || decide (127 < l.spg) || decide (32 < l.acg) || decide (24 < l.coh)
    || decide (bits l.partw.toNat 63 29 ≠ 0)
    || decide (l.rfg * 16384 < l.ncrs * (l.nv * 128 + l.ns * 8 + 2048)) || decide (l.acg * 4 < l.nacc)
    || decide (128 < l.rfg + l.spg + l.acg)
    || decide (64 < l.nbar) || decide (32 < l.nos) || decide (128 < l.nacc) || decide (192 < l.nv) || decide (48 < l.ns)
    || decide (l.ncrs ≤ l.prod)

/-- R172 and R188. -/
def gridBad (l : Launch) (c : Chain) : Bool :=
  decide (l.total = 0) || (decide (2 ≤ l.coh) && decide (l.total % l.coh ≠ 0))
    || (l.det && (decide (l.k % l.ncrs ≠ 0) || decide (2 ^ 32 ≤ l.total * l.k) || c.lat))

/-- Granules that a workgroup takes (R21). -/
def Launch.grans (l : Launch) : Nat := l.rfg + l.spg + l.acg

/-- One workgroup alone exceeds an effective budget (R169). -/
def unplaceable (l : Launch) (c : Chain) : Bool :=
  decide (24 < l.coh) || c.budgets.any fun b =>
    decide (b.cores < 1) || decide (b.gran < l.grans) || decide (b.bars < l.nbar) || decide (b.slots < l.nos)

/-- Reserved bits of a launch packet (R195). -/
def launchReserved (b : Block) (n : Nat) : Bool :=
  decide (bits b 7 6 ≠ 0) || decide (bits b 15 14 ≠ 0) || decide (bits b 31 21 ≠ 0) || anySet b 0x58 0x60
    || (decide (n = 2) && (decide (bits (w8 b 0x88) 63 24 ≠ 0) || anySet b 0x90 0x100))
    || (!bit b 9 && decide (w4 b 0x54 ≠ 0))

/-- The latency-class entry of a chain: the valid one whose LRCB is nearest (R210). -/
def State.latEntry (s : State) (c : Chain) : Option Nat :=
  c.budgets.findSome? fun b =>
    (s.resv.find? fun e => bit e.2.w0.toNat 0 && decide (bits e.2.w0.toNat 47 8 * 2 ^ 8 = b.rcb)).map Prod.fst

/-- The addresses of a launch are misaligned or not canonical (R196). -/
def launchAddress (l : Launch) : Bool :=
  decide (l.entry.toNat % 4 ≠ 0) || decide (2 ^ 54 ≤ l.entry.toNat) || decide (l.cpla % 64 ≠ 0) || decide (2 ^ 54 ≤ l.cpla)
    || decide (l.handler.toNat % 4 ≠ 0) || decide (2 ^ 54 ≤ l.handler.toNat)

/-- What the checks of a packet come to, with the state after them: a wait for a page, a stop code, or a chain. -/
inductive Checked where
  | held (s : State)
  | stop (code : Nat) (s : State)
  | ok (c : Chain) (s : State)

/-- The first code of a list of codes and conditions that holds. -/
def firstCode (l : List (Nat × Bool)) : Option Nat := (l.find? fun x => x.2).map Prod.fst

/-- The checks that follow the chain's: the codes before ADDRESS, the completion address, and the codes after it. -/
def checkRest (s : State) (c : Chain) (before : List (Nat × Bool)) (bad : Bool) (cpla : Nat) (after : List (Nat × Bool)) :
    Checked :=
  match firstCode before with
  | some e => .stop e s
  | none =>
    if bad then .stop 0x0A s
    else match s.ioXlat c.asn c.root cpla 1 with
      | .wait t => .held t
      | .fault t _ => .stop 0x0A t
      | .ok t _ => match firstCode after with
        | some e => .stop e t
        | none => .ok c t

/-- The checks of a launch packet of `n` granules in queue k (R196): the lowest failing code. -/
def checkLaunch (s : State) (k n : Nat) (b : Block) : Checked :=
  let q := s.queue k
  let l := launchOf b
  match firstCode [(1, decide (bits b 3 0 ≠ 1)), (2, bit b 5), (3, launchReserved b n),
      (4, decide (l.rcbp % 256 ≠ 0) || !inStack l.rcbp)] with
  | some e => .stop e s
  | none => match s.chainAt l.rcbp with
    | none => .stop 5 (s.touchChain l.rcbp 8)
    | some c =>
      let by1 := q.writer n
      checkRest (s.touchChain l.rcbp 8) c [(6, unplaceable l c), (7, partitionBad l), (8, gridBad l c), (9, l.fslots.any fslotBad)]
        (launchAddress l) l.cpla
        [(0x0B, decide (l.lc ≠ c.lat) || (l.lc && (!q.qlc || (s.latEntry c).isNone))),
          (0x0C, !s.hasRight k by1 33 || (l.lc && !s.hasRight k by1 35))]

-- ## Acceptance (R170, R194)

/-- RCBs with live grids. -/
def State.liveRcbs (s : State) : List Nat :=
  ((s.grids.flatMap fun g => g.2.chain.budgets.map fun b => b.rcb) ++ s.colls.map fun c => c.2.rcb).eraseDups

/-- A grid of a chain can join: at most 1,024 live grids, and 4,096 RCBs (R170, R194). -/
def State.roomFor (s : State) (c : Chain) : Bool :=
  decide (s.grids.length + s.colls.length < 1024)
    && decide (((s.liveRcbs ++ c.budgets.map fun b => b.rcb).eraseDups).length ≤ 4096)

/-- The queue has been served: its class goes on behind it (R194). -/
def State.served (s : State) (k : Nat) : State := if (s.queue k).qlc then { s with turnL := k } else { s with turnQ := k }

/-- A launch is accepted (R194). -/
def State.accept (s : State) (k n : Nat) (l : Launch) (c : Chain) : State :=
  let g : Grid := { launch := l, chain := c, total := l.total, nextW := 0, again := [], endedN := 0, commits := 0,
                    abort := none, dropped := false, first := none, last := 0, accepted := s.dtime, seen := [] }
  ({ (s.setGrid s.nextGid g).setQueue k ((s.queue k).pass n) with nextGid := s.nextGid + 1 } : State).served k

/-- A packet read whole that its queue holds for resources. -/
def State.holdPacket (s : State) (k n : Nat) (b : Block) (c : Chain) : State :=
  s.setQueue k { s.queue k with pkt := bytesOf (128 * n) b, chain := c, holding := true }

/-- LAUNCH_PACKET (R194): the launch packet at the head is checked, and accepted or held; a packet of no known type, or an
overrun, stops the queue. Its queue has then been served, also where it stops, or where the check waits for a page. -/
def execLaunchPacket (k : Nat) (s : State) : Host.Outcome State Fault Refusal :=
  match s.head k with
  | .none => .next s
  | .overrun => .next ((s.stopQueue k 0x0D 1).served k)
  | .part => .next (s.touchPacket k 1)
  | .packet ty n b =>
    if ty = 2 ∨ ty = 3 then .next s
    else match checkLaunch (s.touchPacket k n) k n b with
      | .held t => .next (t.served k)
      | .stop code t => .next ((t.stopQueue k code n).served k)
      | .ok c t => .next (if t.roomFor c then t.accept k n (launchOf b) c else (t.holdPacket k n b c).served k)

/-- LAUNCH_HOLD_END (R194): a held launch joins once there is room; one of the latency class whose entry has been released
meanwhile fails the check of its class (R196, log entry 73). -/
def execLaunchHoldEnd (k : Nat) (s : State) : Host.Outcome State Fault Refusal :=
  let q := s.queue k
  let b := leBytes q.pkt
  .next (if q.qen ∧ q.holding ∧ bits b 3 0 = 1 ∧ s.roomFor q.chain then
    if (launchOf b).lc && (s.latEntry q.chain).isNone then (s.stopQueue k 0x0B (q.pkt.length / 128)).served k
    else s.accept k (q.pkt.length / 128) (launchOf b) q.chain
  else s)

-- ## Wait packets (R198)

/-- The checks of a wait packet: its lowest failing code. -/
def waitCode (s : State) (k n : Nat) (b : Block) : Option Nat :=
  let wide := bit (w4 b 0x18) 2
  let a := w8 b 8
  firstCode [(2, decide (bits b 5 4 ≠ 0)),
    (3, decide (bits b 31 6 ≠ 0) || decide (w4 b 4 ≠ 0) || decide (bits (w4 b 0x18) 31 3 ≠ 0) || anySet b 0x20 0x80
      || (!wide && decide (w4 b 0x14 ≠ 0))),
    (0x0A, decide (a % (if wide then 8 else 4) ≠ 0) || !inStack a),
    (0x0C, !s.hasRight k ((s.queue k).writer n) 34)]

/-- WAIT_PACKET (R198): the queue begins to wait on its word. -/
def execWaitPacket (k : Nat) (s : State) : Host.Outcome State Fault Refusal :=
  match s.head k with
  | .packet 2 n b =>
    let t := s.touchPacket k n
    match waitCode s k n b with
    | some code => .next ((t.stopQueue k code n).served k)
    | none => .next ((t.setQueue k
        { t.queue k with pkt := bytesOf 128 b, qstate := 2, began := s.dtime, met := false }).served k)
  | _ => .next s

/-- The word that a waiting queue reads. -/
def State.waitWord (s : State) (b : Block) : Nat := s.openRead (w8 b 8) (waitWidth b)

/-- The wait of a queue is over: COND holds, or held after a write to the word. -/
def State.waitMet (s : State) (q : Queue) : Bool := q.met || waitCond (leBytes q.pkt) (s.waitWord (leBytes q.pkt))

/-- WAIT_WORD_READ (R198). -/
def execWaitWordRead (k : Nat) (s : State) : Host.Outcome State Fault Refusal :=
  let q := s.queue k
  let b := leBytes q.pkt
  .next (if q.qen ∧ q.qstate = 2 then
    let t := (s.homeRead (w8 b 8) (waitWidth b)).1
    if s.waitMet q then t.setQueue k ((t.queue k).pass 1) else t
  else s)

/-- WAITTIME (R198): TMO µs have passed and COND has not held. -/
def execWaittime (k : Nat) (s : State) : Host.Outcome State Fault Refusal :=
  let q := s.queue k
  let tmo := w4 (leBytes q.pkt) 0x1C
  .next (if q.qen ∧ q.qstate = 2 ∧ tmo ≠ 0 ∧ q.began + tmo * 1000 * 2 ^ 16 ≤ s.dtime ∧ !s.waitMet q then s.stopQueue k 0x0E 1 else s)

-- ## Collective packets (R384, R385)

/-- The pages of a collective's image. -/
def imagePages (b : Block) : List Nat :=
  let len := bits (w4 b 8) 30 16
  (unitsOf (2 ^ 16) (w8 b 0x10) len).map fun p => max (w8 b 0x10) (p * 2 ^ 16)

/-- What the pages of an image come to, with the state after: a wait, a fault, or their physical addresses. -/
inductive Pages where
  | wait (s : State)
  | fault (s : State)
  | ok (s : State) (l : List (Nat × Nat))

/-- The pages translated as reads; one that resolves remote is a fault (log entry 31). -/
def State.imageXlat (s : State) (c : Chain) (pages : List Nat) : Pages :=
  pages.foldl (fun acc va =>
    match acc with
    | .ok t l => match t.ioXlat c.asn c.root va 0 with
      | .wait u => .wait u
      | .fault u _ => .fault u
      | .ok u x => if x.res = .here then .ok u (l ++ [(va, x.pa)]) else .fault u
    | x => x) (.ok s [])

/-- Reserved bits of a collective packet (R384). -/
def collReserved (b : Block) : Bool :=
  decide (bits b 10 6 ≠ 0) || decide (bits b 15 12 ≠ 0) || decide (bits b 31 18 ≠ 0) || decide (bits (w4 b 4) 31 16 ≠ 0)
    || bit (w4 b 8) 14 || bit (w4 b 8) 15 || bit (w4 b 8) 31 || decide (bits (w4 b 0x0C) 31 14 ≠ 0) || anySet b 0x38 0x80

/-- The addresses of a collective are misaligned, not canonical or out of range (R384). -/
def collAddress (b : Block) : Bool :=
  decide (w8 b 0x10 % 4 ≠ 0) || decide (2 ^ 54 ≤ w8 b 0x10) || decide (w8 b 0x28 % 64 ≠ 0) || decide (2 ^ 54 ≤ w8 b 0x28)
    || decide (bits (w4 b 8) 13 0 % 4 ≠ 0) || decide (bits (w4 b 0x0C) 13 0 % 4 ≠ 0) || decide (bits (w4 b 8) 30 16 % 4 ≠ 0)
    || decide (16384 < bits (w4 b 8) 13 0 + bits (w4 b 8) 30 16)

/-- The checks of a collective packet. -/
def checkColl (s : State) (k n : Nat) (b : Block) : Checked :=
  let rcbp := w8 b 0x18
  match firstCode [(2, decide (bits b 5 4 ≠ 0)), (3, collReserved b), (4, decide (rcbp % 256 ≠ 0) || !inStack rcbp)] with
  | some e => .stop e s
  | none => match s.chainAt rcbp with
    | none => .stop 5 (s.touchChain rcbp 8)
    | some c =>
      let s1 := s.touchChain rcbp 8
      if bits (w4 b 4) 15 0 = 0 then .stop 6 s1
      else
        let image := if collAddress b then .fault s1 else s1.imageXlat c (imagePages b)
        match image with
        | .wait t => .held t
        | .fault t => .stop 0x0A t
        | .ok t _ =>
          checkRest t c [] false (w8 b 0x28) [(0x0B, c.lat), (0x0C, !s.hasRight k ((s.queue k).writer n) 33)]

/-- COLLECTIVE_PACKET (R384): checked, and held until its contexts are idle (R385). -/
def execCollectivePacket (k : Nat) (s : State) : Host.Outcome State Fault Refusal :=
  match s.head k with
  | .packet 3 n b =>
    match checkColl (s.touchPacket k n) k n b with
    | .held t => .next (t.served k)
    | .stop code t => .next ((t.stopQueue k code n).served k)
    | .ok c t => .next ((t.holdPacket k 1 b c).served k)
  | _ => .next s

/-- A context as a collective starts it (R385). -/
def startCtx (x : Ctx) (s : State) (gid link entry asn root argp : Nat) : Ctx :=
  { x with
    st := .running, cpc := entry, casn := asn, root := root, coll := gid
    c := Tab.put 0 (Tab.put 0 (Tab.put 0 [] 1 (BitVec.ofNat 64 (argp + 128 * link))) 2 (BitVec.ofNat 64 link)) 3
      (s.ownPeer.setWidth 64)
    since := none, why := none, barked := false, stopReq := false, step1 := false, lastCh := none, sending := none, kept := none, watch := none, met := false }

/-- The collective that a queue holds can start: there is room for it, and its contexts are idle (R385). -/
def State.collReady (s : State) (k : Nat) : Bool :=
  let b := leBytes (s.queue k).pkt
  s.roomFor (s.queue k).chain && (linkBits (bits (w4 b 4) 15 0)).all fun l => decide (((s.seqr l).ctx (bits b 17 16)).st = .idle)

/-- COLLECTIVE_START (R385): once the contexts are idle, the image is loaded and all of them run at one moment. -/
def execCollectiveStart (k : Nat) (s : State) : Host.Outcome State Fault Refusal :=
  let q := s.queue k
  let b := leBytes q.pkt
  let mask := bits (w4 b 4) 15 0
  let ctx := bits b 17 16
  let ls := linkBits mask
  if q.qen ∧ q.holding ∧ bits b 3 0 = 3 ∧ s.collReady k then
    match s.imageXlat q.chain (imagePages b) with
    | .ok t0 pages =>
      let pas := fun (va : Nat) => match pages.find? fun p => decide (p.1 / 2 ^ 16 = va / 2 ^ 16) with
        | some p => p.2 - p.1 % 2 ^ 16 + va % 2 ^ 16
        | none => 0
      let len := bits (w4 b 8) 30 16
      let t := ((unitsOf 1024 (w8 b 0x10) len).map fun u => max (w8 b 0x10) (u * 1024)).foldl (fun t va => (t.homeRead (pas va) 4).1) t0
      let va0 := w8 b 0x10
      let words : List (Nat × W32) := (List.range (len / 4)).map fun i =>
        (bits (w4 b 8) 13 0 / 4 + i, (BitVec.ofNat 32 (t.openRead (pas (va0 + 4 * i)) 4) : W32))
      let gid := t.nextGid
      let u := ls.foldl (fun (u : State) l =>
        let x := u.seqr l
        let y := { x with imem := words.foldl (fun (m : Tab W32) (w : Nat × W32) => Tab.put 0 m w.1 w.2) x.imem }
        u.setSeqr l (y.setCtx ctx (startCtx (x.ctx ctx) t gid l (bits (w4 b 0x0C) 13 0) q.chain.asn q.chain.root
          (w8 b 0x20)))) t
      let c : Coll := { ctx := ctx, lmask := mask, halted := 0, cpla := w8 b 0x28, cplv := BitVec.ofNat 64 (w8 b 0x30),
                        tsr := bit b 11, asn := q.chain.asn, root := q.chain.root, start := s.dtime, last := s.dtime,
                        rcb := w8 b 0x18, aborted := false }
      .next (({ u with colls := Tab.set u.colls gid c, nextGid := gid + 1 }.setQueue k ((u.queue k).pass 1)).served k)
    | .fault t => .next ((t.stopQueue k 0x0A 1).served k)
    | .wait t => .next (t.served k)
  else .next s

-- ## Enable, disable, resume, skip (R192, R197, R428)

/-- QUEUE_ENABLE (R428): refused with CONFIG where the registers do not describe a queue. -/
def execQueueEnable (k : Nat) (s : State) : Host.Outcome State Fault Refusal :=
  let q := s.queue k
  .next (s.setQueue k (
    if !q.configured then { q with qerr := 0x10 }
    else if q.qen then q
    else { q with qen := true, qstate := if q.qstate = 3 then 3 else 1, seen := false, pkt := [], got := [], holding := false }))

/-- QUEUE_DISABLE (R428). -/
def execQueueDisable (k : Nat) (s : State) : Host.Outcome State Fault Refusal :=
  let q := s.queue k
  .next (s.setQueue k { q with qen := false, qstate := if q.qstate = 3 then 3 else 0, pkt := [], got := [], holding := false })

/-- RESUME (R197). -/
def execResume (k : Nat) (s : State) : Host.Outcome State Fault Refusal :=
  let q := s.queue k
  .next (if q.qen ∧ q.qstate = 3 then s.setQueue k { q with qstate := 1, got := [], seen := false } else s)

/-- SKIP (R197). -/
def execSkip (k : Nat) (s : State) : Host.Outcome State Fault Refusal :=
  let q := s.queue k
  .next (if q.qen ∧ q.qstate = 3 then
    s.setQueue k { q.pass (packetSize (s.readPacket k 1)) with seen := false }
  else s)

end Sys2Proof.Machine
end

