-- ==== Sys2Proof/Machine/Area.lean ====
section
/-! DEFINITION. The save area (R400 to R402): what a save writes of a workgroup, and what a restore reads back. -/

namespace Sys2Proof.Machine

/-- A piece of the area: its offset, its bytes, and the places among them that are poisoned (R402). -/
structure Piece where
  off : Nat
  bytes : List Byte
  bad : List Nat
deriving DecidableEq, Repr

/-- A table of bytes from a dense list. -/
def denseTab (bs : List Byte) : Tab Byte := (bs.zipIdx.filter fun x => decide (x.1 ≠ 0)).map fun x => (x.2, x.1)

/-- The set bits of a predicate on numbers below n, packed into bytes. -/
def packBits (n : Nat) (f : Nat → Bool) : List Byte :=
  (List.range (n / 8)).map fun k => BitVec.ofNat 8 ((List.range 8).foldl (fun a j => a + ofBool (f (8 * k + j)) * 2 ^ j) 0)

-- ## A course block (R401)

/-- A batch state as its 144 bytes. -/
def batchBytes (b : Batch) : List Byte :=
  bytesOf 4 b.count.toNat ++ bytesOf 4 b.peers.length
    ++ (List.range 64).flatMap (fun i => bytesOf 2 (b.peers.getD i 0)) ++ bytesOf 8 0

/-- The place in a piece of each poisoned unit of the strip among n from number u (log entry 86). -/
def Course.badUnits (c : Course) (u n : Nat) : List Nat := ((List.range n).filter fun k => c.stripBad (u + k)).map fun k => 16 * k

/-- The pending failure of a course as the area holds it. -/
def failBytes (c : Course) : List Byte :=
  match c.failed with
  | [] => bytesOf 12 0
  | f :: _ => bytesOf 4 f.status ++ bytesOf 4 f.lane ++ bytesOf 4 (f.marks.headD 0)

/-- The pieces of a course block of a course with nv vector and ns scalar registers; `mon` is the monitor word. -/
def coursePieces (c : Course) (nv ns mon : Nat) : List Piece :=
  [⟨0, bytesOf 8 c.tlev, []⟩, ⟨8, bytesOf 8 c.pc.toNat, []⟩, ⟨0x10, bytesOf 8 c.depth, []⟩, ⟨0x18, bytesOf 8 mon, []⟩,
   ⟨0x300, bytesOf 4 c.mode.toNat ++ bytesOf 4 c.exec.toNat ++ bytesOf 4 c.fstat.toNat ++ bytesOf 4 c.repst.toNat,
     if c.stripBad controlUnit || c.stripBad statusUnit then [0] else []⟩,
   ⟨0x310, bytesOf 8 c.ctimer.toNat ++ bytesOf 8 c.ctlim.toNat, []⟩,
   ⟨0x340, packBits 192 c.vIsFull ++ packBits 64 c.sIsFull, []⟩, ⟨0x360, failBytes c, []⟩]
  ++ (List.range 4).map (fun b => ⟨0x400 + 144 * b, batchBytes (c.batch b), []⟩)
  ++ [⟨0x800, (List.range 8).flatMap fun p => bytesOf 4 (c.pred p).toNat, c.badUnits 0 2⟩,
      ⟨0x820, (List.range 16).flatMap fun x => bytesOf 32 (xregNat (c.xreg x)), c.badUnits 2 32⟩,
      ⟨0xA20, (List.range 8).flatMap fun g => bytesOf 32 (genNat (c.gen g)), c.badUnits 34 16⟩,
      ⟨0xC00, c.stack.reverse.flatMap fun e => bytesOf 16 (entryNat e),
        ((List.range c.stack.length).filter fun j => c.stripBad (entryUnit (c.depth - c.stack.length + j))).map fun j => 16 * j⟩,
      ⟨0x1000, (List.range ns).flatMap fun n => bytesOf 8 (c.sreg n).toNat,
        ((List.range (ns / 2)).filter fun u => Tab.get false c.spoison u).map fun u => 16 * u⟩]
  ++ (List.range nv).map (fun n => ⟨0x2000 + 128 * n, (c.vreg n).toList.flatMap fun x => bytesOf 4 x.toNat,
      ((List.range 8).filter fun u => Tab.get false c.vpoison (8 * n + u)).map fun u => 16 * u⟩)

/-- A course as a restore reloads it: `rd` reads a number of the block, `bad` says that bytes of it are poisoned. What the
area does not hold stays with the course. -/
def Course.reload (c : Course) (nv ns : Nat) (rd : Nat → Nat → Nat) (bad : Nat → Nat → Bool) (now : Nat) : Course :=
  let depth := rd 0x10 4
  let chip := min 32 depth
  { c with
    tlev := rd 0 8, pc := BitVec.ofNat 64 (rd 8 8 / 4 * 4), depth := depth
    stack := ((List.range chip).map fun j => entryOf (rd (0xC00 + 16 * j) 16)).reverse
    mode := lowBits 17 (rd 0x300 4), exec := BitVec.ofNat 32 (rd 0x304 4), fstat := BitVec.ofNat 32 (rd 0x308 4)
    repst := lowBits 17 (rd 0x30C 4), ctimer := BitVec.ofNat 64 (rd 0x310 8), ctlim := BitVec.ofNat 64 (rd 0x318 8)
    vfull := (List.range nv).filterMap fun n => if bit (rd 0x340 24) n then none else some (n, false)
    sfull := (List.range ns).filterMap fun n => if bit (rd 0x358 8) n || decide (n = 0) then none else some (n, false)
    batches := (List.range 4).foldl (fun t b =>
      let o := 0x400 + 144 * b
      Tab.put .zero t b { c.batch b with
        count := BitVec.ofNat 32 (rd o 4), peers := (List.range (rd (o + 4) 4)).map fun i => rd (o + 8 + 2 * i) 2 }) []
    p := (List.range 8).foldl (fun t p => Tab.put 0 t p (BitVec.ofNat 32 (rd (0x800 + 4 * p) 4))) []
    x := (List.range 16).foldl (fun t x => Tab.put .zero t x (xregOf (rd (0x820 + 32 * x) 32))) []
    g := (List.range 8).foldl (fun t g => Tab.put .zero t g (genOf (rd (0xA20 + 32 * g) 32))) []
    s := (List.range ns).foldl (fun t n => if n = 0 then t else Tab.put 0 t n (BitVec.ofNat 64 (rd (0x1000 + 8 * n) 8))) []
    v := (List.range nv).foldl (fun t n => Tab.put .zero t n
      (Vector.ofFn fun l : Fin 32 => BitVec.ofNat 32 (rd (0x2000 + 128 * n + 4 * l.val) 4))) []
    spoison := (List.range (ns / 2)).filterMap fun u => if bad (0x1000 + 16 * u) 16 then some (u, true) else none
    vpoison := (List.range (8 * nv)).filterMap fun u => if bad (0x2000 + 16 * u) 16 then some (u, true) else none
    rpoison :=
      let at1 := fun (u o : Nat) => if bad o 16 then [(u, true)] else []
      ((List.range 50).flatMap fun u => at1 u (0x800 + 16 * u)) ++ at1 controlUnit 0x300
        ++ ((List.range 32).flatMap fun p => match (List.range chip).find? fun j => decide ((depth - chip + j) % 32 = p) with
          | some j => at1 (entryUnit p) (0xC00 + 16 * j)
          | none => [])
        ++ at1 statusUnit 0x300
    arb := none, wait := none, sched := .ready, entered := now, since := now }

-- ## The workgroup area (R400)

/-- The pieces of a workgroup's area; `mon` gives the monitor word of a course. -/
def wgPieces (w : Workgroup) (l : Launch) (mon : Nat → Nat) : List Piece :=
  [⟨0, (List.range l.nbar).flatMap fun i =>
      let b := Tab.get Bar.fresh w.bars i
      bytesOf 4 b.ph.toNat ++ bytesOf 4 b.arr.toNat ++ bytesOf 4 b.exp ++ bytesOf 4 b.rcv, []⟩,
   ⟨0x400, (List.range l.nos).flatMap fun t => bytesOf 4 ((w.slot t).bitmap.toNat + ofBool (w.slot t).claimed * 2 ^ 16), []⟩,
   ⟨0x500, bytesOf 8 w.retired ++ bytesOf 4 w.tries ++ bytesOf 4 0, []⟩]
  ++ (List.range l.ncrs).flatMap (fun c => (coursePieces (w.crs c) l.nv l.ns (mon c)).map fun p =>
      { p with off := 0x10000 + c * 0x8000 + p.off })
  ++ (List.range l.nos).map (fun t => ⟨0x110000 + t * 0x2000, (List.range 8192).map fun k => w.slotByte (8192 * t + k),
      ((List.range 1024).filter fun k => Tab.get false (w.slot t).poison k).map fun k => 8 * k⟩)
  ++ (List.range l.nacc).map (fun a => ⟨0x150000 + a * 0x1000, (List.range 1024).flatMap fun k =>
      bytesOf 4 (w.acc a (k / 16) (k % 16)).toNat, ((List.range 256).filter fun j => Tab.get false w.apoison (256 * a + j)).map fun j => 16 * j⟩)
  ++ [⟨0x1D0000, (List.range (l.spg * 0x4000)).map w.byte,
        ((List.range (l.spg * 1024)).filter fun g => Tab.get false w.spoison g).map fun g => 16 * g⟩,
      ⟨0x3D0000, packBits (l.spg * 1024) w.full, []⟩]

/-- A workgroup as a restore reloads it. -/
def Workgroup.reload (w : Workgroup) (l : Launch) (rd : Nat → Nat → Nat) (bad : Nat → Nat → Bool) (now : Nat) : Workgroup :=
  { w with
    bars := (List.range l.nbar).foldl (fun t i => Tab.put Bar.fresh t i
      ⟨BitVec.ofNat 32 (rd (16 * i) 4), BitVec.ofNat 32 (rd (16 * i + 4) 4), rd (16 * i + 8) 4, rd (16 * i + 12) 4⟩) []
    retired := rd 0x500 8, tries := rd 0x508 4
    courses := (List.range l.ncrs).map fun c => (c, (w.crs c).reload l.nv l.ns
      (fun o n => rd (0x10000 + c * 0x8000 + o) n) (fun o n => bad (0x10000 + c * 0x8000 + o) n) now)
    slots := (List.range l.nos).map fun t => (t, { w.slot t with
      claimed := bit (rd (0x400 + 4 * t) 4) 16, bitmap := BitVec.ofNat 16 (rd (0x400 + 4 * t) 4)
      data := denseTab ((List.range 8192).map fun k => BitVec.ofNat 8 (rd (0x110000 + t * 0x2000 + k) 1))
      poison := (List.range 1024).filterMap fun k => if bad (0x110000 + t * 0x2000 + 8 * k) 8 then some (k, true) else none })
    accs := (List.range l.nacc).foldl (fun t a => Tab.put [] t a ((List.range 1024).filterMap fun k =>
      let v : W32 := BitVec.ofNat 32 (rd (0x150000 + a * 0x1000 + 4 * k) 4)
      if v = 0 then none else some (k, v))) []
    apoison := (List.range (256 * l.nacc)).filterMap fun j => if bad (0x150000 + 16 * j) 16 then some (j, true) else none
    scratch := denseTab ((List.range (l.spg * 0x4000)).map fun k => BitVec.ofNat 8 (rd (0x1D0000 + k) 1))
    spoison := (List.range (l.spg * 1024)).filterMap fun g => if bad (0x1D0000 + 16 * g) 16 then some (g, true) else none
    fe := (List.range (l.spg * 1024)).foldl (fun t g => Tab.put w.feDef t g (bit (rd (0x3D0000 + g / 8) 1) (g % 8))) [] }

-- ## Through the job's pages

/-- The pages that a range of addresses touches, each with the part of the range in it. -/
def pageParts (va n : Nat) : List (Nat × Nat) :=
  (unitsOf (2 ^ 16) va n).map fun p => (max va (p * 2 ^ 16), min (va + n) ((p + 1) * 2 ^ 16))

/-- The physical address of an address of the area, by the pages that it has been mapped to. -/
def pageAddr (pages : List (Nat × Nat)) (va : Nat) : Nat :=
  match pages.find? fun p => decide (p.1 = va / 2 ^ 16) with
  | some p => p.2 + va % 2 ^ 16
  | none => 0

/-- A piece written at its address (R402), its poison with it (R90). -/
def State.writePiece (s : State) (u : Nat) (pages : List (Nat × Nat)) (p : Piece) : State :=
  let va := s.saveBase u + p.off
  (pageParts va p.bytes.length).foldl (fun t r =>
    let t1 := t.homeWrite (pageAddr pages r.1) ((p.bytes.drop (r.1 - va)).take (r.2 - r.1))
    ((p.bad.map (va + ·)).filter fun a => decide (r.1 ≤ a) && decide (a < r.2)).foldl
      (fun t a => t.poisonRange (pageAddr pages r.1 + (a - r.1)) 1) t1) s

/-- A workgroup's area written, its pages being mapped. -/
def State.writeArea (s : State) (u : Nat) (pages : List (Nat × Nat)) : State :=
  let w := s.wg u
  let g := s.grid w.gid
  let mon := fun c => match s.monitorOf u c with | some m => m.2.2.1 * 128 + 1 | none => 0
  (wgPieces w g.launch mon).foldl (fun t p => t.writePiece u pages p) s

/-- The pages that a workgroup's area touches. -/
def State.areaPages (s : State) (u : Nat) : List Nat :=
  let g := s.grid (s.wg u).gid
  ((wgPieces (s.wg u) g.launch fun _ => 0).flatMap fun p =>
    (pageParts (s.saveBase u + p.off) p.bytes.length).map fun r => r.1 / 2 ^ 16 * 2 ^ 16).eraseDups

/-- As the page tables stand, a restore will be able to read every page of the area: it is local and readable, or held. -/
def State.areaReadable (s : State) (u : Nat) : Bool :=
  let g := s.grid (s.wg u).gid
  (s.areaPages u).all fun va => match (walkVA s g.chain.root va 0).2 with
    | .leaf e _ _ => decide (leafResolve s.ownPeer.toNat e = .here)
    | .held _ => true
    | .fault _ => false

/-- The pages of the area translated through the TLB of a core for a save or a restore, as writes or as reads, each with its physical
address; one that faults or is not local leaves the save or the restore undone (R402, log entry 33). -/
def State.mapArea (s : State) (u k kind : Nat) : Did (State × List (Nat × Nat)) :=
  let h := (s.grid (s.wg u).gid).chain
  (s.areaPages u).foldl (fun acc va =>
    match acc with
    | .ok (t, l) =>
      match t.xlat ⟨k, h.asn, h.root, va, kind, 0, 0, [(u, 128)]⟩ with
      | .wait w => .held w
      | .fault _ _ => .bad
      | .ok t1 x => if x.res = .here then .ok (t1, l ++ [(va / 2 ^ 16, x.pa)]) else .bad
    | e => e) (.ok (s, []))

/-- The areas of the members of a unit mapped, each through its core, all of them or none: a unit is saved and restored only as one
(R25). -/
def State.mapAreas (s : State) (kind : Nat) (xs : List (Nat × Nat)) : Did (State × List (Nat × List (Nat × Nat))) :=
  xs.foldl (fun acc x => match acc with
    | .ok (t, l) => (match t.mapArea x.1 x.2 kind with
      | .ok r => .ok (r.1, l ++ [(x.1, r.2)])
      | .held w => .held w
      | .bad => .bad)
    | e => e) (.ok (s, []))

/-- A workgroup reloaded from its area, whose pages are mapped: its bytes are read at home (R70), and the slates are filled
(R71). -/
def State.readArea (s : State) (u : Nat) (pages : List (Nat × Nat)) : State × Workgroup :=
  let w := s.wg u
  let g := s.grid w.gid
  let pa := fun (o : Nat) => pageAddr pages (s.saveBase u + o)
  let t := (wgPieces w g.launch fun _ => 0).foldl (fun t p =>
    (pageParts (s.saveBase u + p.off) p.bytes.length).foldl (fun t r => (t.homeRead (pa (r.1 - s.saveBase u)) (r.2 - r.1)).1) t) s
  (t, w.reload g.launch (fun o n => leBytes ((List.range n).map fun k => t.byteAt (pa (o + k))))
    (fun o n => t.rangePoisoned (pa o) n) s.cycle.toNat)

end Sys2Proof.Machine
end

