-- ==== Sys2Proof/Machine/Place.lean ====
section
/-! DEFINITION. Placement, pre-emption, save, restore and migration of workgroups (R21, R22, R25, R68, R170, R201 to R204,
R207, R210), the timers of the course scheduler and the swap of an active course (R206, R300, R320). -/

namespace Sys2Proof.Machine

-- ## What a core and a region still have (R21, R170, R202)

/-- The resident workgroups of a core. -/
def State.onCore (s : State) (k : Nat) : List Workgroup :=
  (s.wgs.filter fun e => decide (e.2.core = k) && decide (e.2.status = .resident)).map Prod.snd

/-- A sum over workgroups of something of their launch packets. -/
def State.sumOf (s : State) (ws : List Workgroup) (f : Launch → Nat) : Nat :=
  ws.foldl (fun n w => n + f (s.grid w.gid).launch) 0

/-- The latency-class entry that holds a core (R209, R210). -/
def State.heldBy (s : State) (k : Nat) : Option Nat := (s.resv.find? fun e => e.2.held.contains k).map Prod.fst

/-- A workgroup of a grid fits on a core (R21, R202, R210, R410). -/
def State.coreFits (s : State) (g : Grid) (k : Nat) : Bool :=
  let l := g.launch
  let ws := s.onCore k
  let c := s.core k
  decide (k < 576) && !c.retired && !c.testing
    && decide (s.sumOf ws Launch.rfg + l.rfg ≤ 64) && decide (s.sumOf ws Launch.acg + l.acg ≤ 32)
    && decide (s.sumOf ws Launch.grans + l.grans ≤ 128)
    && decide (s.sumOf ws (·.nbar) + l.nbar ≤ 64) && decide (s.sumOf ws (·.nos) + l.nos ≤ 32)
    && decide (s.sumOf ws (·.ncrs) + l.ncrs ≤ 96)
    && (if l.lc then (s.latEntry g.chain).isSome && decide (s.heldBy k = s.latEntry g.chain) else decide (s.heldBy k = none))
    && (decide (l.cmask = 0) || bit l.cmask (k / 24))

/-- The placed workgroups of the grids of an RCB and its descendants. -/
def State.placedUnder (s : State) (rcb : Nat) : List Workgroup :=
  (s.wgs.filter fun e => decide (e.2.status = .resident)
    && (s.grid e.2.gid).chain.budgets.any fun b => decide (b.rcb = rcb)).map Prod.snd

/-- Every budget of a chain holds after a placement on some more cores (R170). -/
def State.budgetsHold (s : State) (g : Grid) (cores : List Nat) : Bool :=
  let n := cores.length
  let l := g.launch
  g.chain.budgets.all fun b =>
    let ws := s.placedUnder b.rcb
    decide ((((ws.map fun w => w.core) ++ cores).eraseDups).length ≤ b.cores)
      && decide (s.sumOf ws Launch.grans + n * l.grans ≤ b.gran) && decide (s.sumOf ws (·.nbar) + n * l.nbar ≤ b.bars)
      && decide (s.sumOf ws (·.nos) + n * l.nos ≤ b.slots)

/-- A unit of a grid can stand on these cores now: one each, distinct, of one cluster (R25, R201, R202). -/
def State.canPlace (s : State) (g : Grid) (cores : List Nat) : Bool :=
  decide (cores.length = g.launch.unit) && decide (cores.eraseDups.length = cores.length)
    && cores.all (fun k => decide (k / 24 = cores.headD 0 / 24)) && cores.all (s.coreFits g) && s.budgetsHold g cores
    && decide (g.launch.notBefore * 2 ^ 16 ≤ s.dtime)

-- ## Placement (R22, R68, R174, R201)

/-- Granules of a core's pool that no resident workgroup holds, the lowest first. -/
def State.freeGranules (s : State) (k n : Nat) : List Nat :=
  let used := (s.onCore k).flatMap fun w => w.granules
  ((List.range 128).filter fun g => !used.contains g).take n

/-- Places of a core's operand memory that no resident workgroup holds, the lowest first (R329). -/
def State.freeSlots (s : State) (k n : Nat) : List Nat :=
  let used := (s.onCore k).flatMap fun w => w.omem
  ((List.range 32).filter fun g => !used.contains g).take n

/-- The core's instruction cache is emptied before the first fetch of a workgroup, but where one of the grid has been placed or
restored already (R68). -/
def State.emptyICache (s : State) (gid k : Nat) : State :=
  let g := s.grid gid
  if g.seen.contains k then s
  else (s.setCore k { s.core k with icache := [] }).setGrid gid { g with seen := g.seen ++ [k] }

/-- A workgroup as placement begins it. -/
def Workgroup.begin (l : Launch) (gid w asn tries core : Nat) (granules omem : List Nat) (now cycle : Nat) : Workgroup :=
  { Workgroup.empty with
    gid := gid, w := w, asn := asn, core := core, status := .resident, tries := tries, granules := granules, omem := omem, placed := now
    feDef := !l.spe
    courses := (List.range l.ncrs).map fun c => (c, { Course.start l with entered := cycle, since := cycle }) }

/-- One workgroup placed. Where it starts again after a flush, its core's L1 is emptied, so that no course reads an older value
than before (R136). -/
def State.placeOne (s : State) (gid w tries k : Nat) (again : Bool) : State :=
  let l := (s.grid gid).launch
  let c := (s.emptyICache gid k).wipe k (s.freeGranules k l.grans)
  let t := if again then c.emptyL1 k else c
  { t.setWg s.nextUid (.begin l gid w (s.grid gid).chain.asn tries k (s.freeGranules k l.grans) (s.freeSlots k l.nos) s.dtime
      s.cycle.toNat) with nextUid := s.nextUid + 1 }

/-- The next unit of a grid to place: workgroups that wait to start afresh first, then those never placed, each as
(linear index, TRY). -/
def Grid.nextUnit (g : Grid) : List (Nat × Nat) :=
  let n := g.launch.unit
  match g.again with
  | (w, _, _) :: _ =>
    let base := w / n * n
    (g.again.filter fun a => decide (base ≤ a.1) && decide (a.1 < base + n)).map fun a => (a.1, a.2.1)
  | [] => if g.nextW < g.total then (List.range n).map fun i => (g.nextW + i, 0) else []

/-- PLACEMENT (R202): the next unit of a grid takes the cores named, where it fits. -/
def execPlacement (gid : Nat) (cores : List Nat) (s : State) : Host.Outcome State Fault Refusal :=
  let g := s.grid gid
  let unit := g.nextUnit
  .next (if g.abort = none ∧ unit ≠ [] ∧ s.canPlace g cores then
    let t := (unit.zip cores).foldl (fun t x => t.placeOne gid x.1.1 x.1.2 x.2 (!g.again.isEmpty)) s
    t.setGrid gid { t.grid gid with
      again := g.again.filter fun a => !(unit.any fun x => decide (x.1 = a.1))
      nextW := if g.again = [] then g.nextW + g.launch.unit else g.nextW }
  else s)

-- ## Pre-emption (R203, R204)

/-- The workgroup is the oldest uncommitted task of a versioned grid (R185). -/
def State.oldest (s : State) (u : Nat) : Bool :=
  let w := s.wg u
  let g := s.grid w.gid
  g.launch.ver && decide (w.w = g.commits) && !w.taskEnd

/-- A debugger holds a course of the workgroup or its core (R406). -/
def State.debugged (s : State) (u : Nat) : Bool :=
  (s.core (s.wg u).core).frozen || (s.wg u).courses.any fun c => c.2.halted

/-- Members of a unit on which a condition of R203's table holds. -/
def State.someOf (s : State) (us : List Nat) (f : Workgroup → Launch → Bool) : Bool :=
  us.any fun v => f (s.wg v) (s.grid (s.wg v).gid).launch

/-- The table of R203 allows a save of the unit: none of its members is unbuffered, oldest, or of an idempotent grid. -/
def State.saveAllowed (s : State) (us : List Nat) : Bool :=
  !(s.someOf us fun w _ => w.unbuf) && !us.any s.oldest && !(s.someOf us fun _ l => l.idem && !l.ver)

/-- The kind of pre-emption that R203's table gives a unit: the first whose condition holds for one of its members, since a
cohort leaves as a unit (R25, log entry 74). A member whose task has been committed has ended, and cannot run again: its unit drains. -/
def State.leaveKind (s : State) (us : List Nat) : Leave :=
  if s.someOf us fun w l => (decide (l.expi ≠ 0) && decide (l.expi - l.expi / 8 ≤ w.retired)) || w.unbuf || w.taskEnd then
    .drain s.dtime
  else if s.saveAllowed us then .save
  else .flush

/-- The candidates' order (R201): higher priority first; saved workgroups before unplaced ones; the older grid; the lower
index. Of the tasks of a versioned grid that wait only the first counts, since they are placed in ascending order (R185, R191).
Each is (priority, saved, grid, index, since when it waits). -/
def State.candidates (s : State) : List (Nat × Bool × Nat × Nat × Nat) :=
  let saved := (s.wgs.filter fun e => decide (e.2.status = .saved)).map fun e =>
    ((s.grid e.2.gid).chain.prio, true, e.2.gid, e.2.w, e.2.placed)
  let fresh := s.grids.filterMap fun e =>
    match e.2.abort, e.2.nextUnit with
    | none, (w, _) :: _ => some (e.2.chain.prio, false, e.1, w, match e.2.again with | a :: _ => a.2.2 | [] => e.2.accepted)
    | _, _ => none
  let before := fun (a b : Nat × Bool × Nat × Nat × Nat) =>
    decide (b.1 < a.1) || (decide (a.1 = b.1) && ((a.2.1 && !b.2.1) || (a.2.1 == b.2.1 &&
      (decide (a.2.2.1 < b.2.2.1) || (decide (a.2.2.1 = b.2.2.1) && decide (a.2.2.2.1 < b.2.2.2.1))))))
  let all := saved ++ fresh
  let barred := fun (a : Nat × Bool × Nat × Nat × Nat) => (s.grid a.2.2.1).launch.ver
    && all.any fun b => decide (b.2.2.1 = a.2.2.1) && decide (b.2.2.2.1 < a.2.2.2.1)
  (all.filter fun a => !barred a).foldl (fun out a => (out.filter fun b => before b a) ++ [a] ++ out.filter fun b => !before b a) []

/-- `n` members of a list, in its order, from a place freely chosen. -/
def takeAround (l : List Nat) (n pick : Nat) : List Nat :=
  if l.length = n then l else
    let at1 := pick % (l.length + 1)
    let chosen := ((l.drop at1) ++ l.take at1).take n
    l.filter fun k => chosen.contains k

/-- Cores of one cluster, among some that fit, on which the next unit of a grid can stand: freely chosen, or, where such a choice
passes a budget of cores (R170), those first on which the RCBs of the chain have workgroups already. The cores of an RCB are among
those of its parent, so that this order needs the fewest new ones of every member of the chain. -/
def State.pickIn (s : State) (g : Grid) (fit : List Nat) : Option (List Nat) :=
  let n := g.launch.unit
  let free := takeAround fit n (Config.choice (s.steps + 1))
  if s.canPlace g free then some free
  else
    let rank := fun (k : Nat) => (g.chain.budgets.filter fun b => (s.placedUnder b.rcb).any fun w => decide (w.core = k)).length
    let near := ((List.range (g.chain.budgets.length + 1)).reverse.flatMap fun r => fit.filter fun k => decide (rank k = r)).take n
    if s.canPlace g near then some near else none

/-- Cores among some on which the next unit of a grid fits, freely chosen: one, or a cohort's in one cluster. -/
def State.pickCores (s : State) (g : Grid) (among : Nat → Bool) : Option (List Nat) :=
  let n := g.launch.unit
  let fit := (List.range 576).filter fun k => among k && s.coreFits g k && (decide (n ≠ 1) || s.budgetsHold g [k])
  pickFrom ((List.range 24).filterMap fun c => s.pickIn g (fit.filter fun k => decide (k / 24 = c))) (Config.choice s.steps)

/-- The event that gives a candidate its cores, if it fits now. A unit that migrates takes the cores named for it, else others than
its own where it fits there, else any (R204, R207). -/
def State.placeEvent (s : State) (c : Nat × Bool × Nat × Nat × Nat) : Option Instr :=
  let g := s.grid c.2.2.1
  if c.2.1 then
    match s.wgs.find? fun e => decide (e.2.gid = c.2.2.1) && decide (e.2.w = c.2.2.2.1) && decide (e.2.status = .saved) with
    | none => none
    | some (u, w) =>
      let own := (s.unitOf u).map fun v => (s.wg v).core
      if g.abort.isSome || !((s.unitOf u).all fun v => decide ((s.wg v).status = .saved) && s.areaReadable v) then none
      else
        (if w.goal = [] then s.pickCores g fun _ => true
          else ((s.pickCores g w.goal.contains).or (s.pickCores g fun k => !own.contains k)).or (s.pickCores g fun _ => true)).map
          fun cores => .restore u cores
  else (s.pickCores g fun _ => true).map fun cores => .placement c.2.2.1 cores

/-- A candidate that has not been placed yet waits behind a saved workgroup of its job, of its priority or a higher one, that fits
nowhere now and whose area can be read: R191 promises that this one is restored first, where R201 lets a candidate that cannot be
placed hold back none; the model keeps the promise (log entry 96). -/
def State.passedOver (s : State) (c : Nat × Bool × Nat × Nat × Nat) : Bool :=
  !c.2.1 && s.wgs.any fun e => decide (e.2.status = .saved)
    && decide ((s.grid e.2.gid).chain.job = (s.grid c.2.2.1).chain.job) && decide (c.1 ≤ (s.grid e.2.gid).chain.prio)
    && s.areaReadable e.1

/-- 50 µs, 100 µs and 2 ms of device time, in units of 2^-16 ns. -/
def waitTime : Nat := 50000 * 2 ^ 16
/-- 100 µs. -/
def drainTime : Nat := 100000 * 2 ^ 16
/-- 2 ms. -/
def residency : Nat := 2000000 * 2 ^ 16

/-- The state once the workgroups that are leaving have left. -/
def State.afterLeaving (s : State) : State :=
  { s with wgs := Tab.mapVal (fun _ (w : Workgroup) =>
      if w.status = .resident ∧ w.leave ≠ .stay ∧ w.leave ≠ .runOn then { w with status := .ended } else w) s.wgs }

/-- The workgroup must yield to the first candidate: it has waited 50 µs, its NOTBEFORE has come, it has a higher priority and will
not fit either once those that are leaving have left, and no other workgroup that could yield has a lower one, or the same and was
placed later (R203). -/
def State.mustYield (s : State) (u : Nat) : Bool :=
  match s.candidates with
  | c :: _ =>
    let pr := fun (v : Nat) => (s.grid (s.wg v).gid).chain.prio
    let may := fun (e : Nat × Workgroup) => decide (e.2.status = .resident) && !(s.grid e.2.gid).launch.lc
      && decide (e.2.leave = .stay) && !(s.unitOf e.1).any s.debugged && decide (pr e.1 < c.1)
    decide (c.2.2.2.2 + waitTime ≤ s.dtime) && decide ((s.grid c.2.2.1).launch.notBefore * 2 ^ 16 ≤ s.dtime)
      && (s.afterLeaving.placeEvent c).isNone && (match s.wgs.find? fun e => decide (e.1 = u) with
      | some e => may e && s.wgs.all fun x => !may x || decide (pr u < pr x.1)
          || (decide (pr u = pr x.1) && decide (x.2.placed ≤ e.2.placed))
      | none => false)
  | [] => false

/-- The members of a unit all leave in one way. -/
def State.makeLeave (s : State) (us : List Nat) (k : Leave) : State := us.foldl (fun t v => t.setWg v { t.wg v with leave := k }) s

/-- The unit of a workgroup is asked to leave in the way of R203, unless it is leaving already or a debugger holds a member of it
(R406). -/
def State.askLeave (s : State) (u : Nat) : State :=
  let us := s.unitOf u
  if us.all fun v => decide ((s.wg v).leave = .stay) && !s.debugged v then s.makeLeave us (s.leaveKind us) else s

/-- PREEMPTION (R203): a workgroup that must yield is made to drain, to restart or to be saved, a cohort as a unit. -/
def execPreemption (u : Nat) (s : State) : Host.Outcome State Fault Refusal :=
  .next (if s.mustYield u then s.askLeave u else s)

/-- WORKGROUP_DRAIN (R204): the workgroup runs on to its end, a cohort as a unit. -/
def execWorkgroupDrain (u : Nat) (s : State) : Host.Outcome State Fault Refusal :=
  .next (if (s.wg u).status = .resident then s.makeLeave (s.unitOf u) (.drain s.dtime) else s)

/-- DRAIN_TIMEOUT (R204): after 100 µs a drain becomes a save where one is allowed, else the unit runs on to its end. -/
def execDrainTimeout (u : Nat) (s : State) : Host.Outcome State Fault Refusal :=
  match (s.wg u).leave with
  | .drain t =>
    .next (if t + drainTime ≤ s.dtime then s.makeLeave (s.unitOf u) (if s.saveAllowed (s.unitOf u) then .save else .runOn) else s)
  | _ => .next s

-- ## Save and flush (R114, R204, R325, R400 to R402)

/-- A copy of the workgroup waits for its fault to be reported: the courses run on to a report point first. -/
def Workgroup.reporting (w : Workgroup) : Bool := w.cmds.any fun m => !m.done && (m.fail.isSome || m.rerun)

/-- Every access of the workgroup has been performed, has timed out, or is with the link layer, but for an MBRECV that has taken no
message and what its course has issued behind it (R114, R136, R325). -/
def State.settled (s : State) (u : Nat) : Bool :=
  ((s.wg u).courses.all fun c => c.2.flights.all fun f => f.isClose || s.unfed u c.1 f.id)
    && (s.pend.all fun w => decide (w.uid ≠ u) || s.unfed u w.crs w.id)
    && s.reqs.all fun r => decide (r.uid ≠ u) || r.sent || s.unfed u r.crs r.ord

/-- Nothing of the workgroup is under way: its accesses and commands are complete, and its batches closed (R114, R204, R325). -/
def State.quietWg (s : State) (u : Nat) : Bool :=
  let w := s.wg u
  s.settled u && (w.cmds.all fun m => m.done || s.unfed u m.crs m.id)
    && w.courses.all fun c => c.2.flights.all fun f => !f.isClose || s.unfed u c.1 f.id

/-- A course whose MBRECV has taken no message stands at that MBRECV again, or at its REP with the repetitions before it done, the
destinations as before; what it has issued behind that MBRECV it issues again (R257, R325, log entry 50). -/
def Course.unreceive (c : Course) : Course :=
  match c.flights.find? Flight.unfed with
  | none => c
  | some f =>
    let lost := c.flights.filter fun g => decide (f.id ≤ g.id)
    let k := lost.foldl (fun k g => g.marks.foldl (fun k n => if g.scal then k.markS n true else k.markV n true) k) c
    { k with pc := f.pc, repst := f.rep, flights := c.flights.filter fun g => decide (g.id < f.id) }

/-- Every member of a unit is quiet, and a debugger holds none (R406). -/
def State.unitQuiet (s : State) (u : Nat) : Bool :=
  (s.unitOf u).all fun v => decide ((s.wg v).status = .resident) && decide ((s.wg v).leave = .save) && s.quietWg v && !s.debugged v

/-- A workgroup ready to be written: its courses stand at boundaries, and what is to be issued again is given up. -/
def State.settleWg (s : State) (u : Nat) : State :=
  let t := s.flushWg u
  let v := (t.wg u).courses.foldl (fun v c => v.unarb u c.1) { t with reqs := t.reqs.filter fun r => decide (r.uid ≠ u) || r.sent }
  v.setWg u { v.wg u with
    courses := Tab.mapVal (fun _ c => c.unreceive) (v.wg u).courses, cmds := (v.wg u).cmds.filter fun m => m.done }

/-- An event of class 5 for something that R413 gives no values of its own: its die is known, array, unit and address are open (log
entry 32). -/
def State.openEvent (s : State) (die : Nat) : State :=
  s.errorEvent (Config.eventField s.steps 0) die (Config.eventField s.steps 1) (Config.eventField s.steps 2)

/-- A member of a unit written to its area, whose pages are mapped, and off its core, a candidate again. -/
def State.saveOne (s : State) (u : Nat) (pages : List (Nat × Nat)) : State :=
  let r := ((s.settleWg u).writeArea u pages).releasePool u
  { (r.setWg u { r.wg u with status := .saved, granules := [], omem := [], leave := .stay, placed := s.dtime }) with
    monitors := r.monitors.map fun m => if m.1 = u then (m.1, m.2.1, m.2.2.1, 2 ^ 64, true) else m }

/-- SAVE (R204): the quiet unit is written to its areas, its resources return, and it is a candidate again (R25). It waits
while a page of an area is walked or held; a write that faults abandons the save, and the pre-emption becomes a drain
(R402). A unit that has become the oldest task, or unbuffered, since it was to be saved is not saved: a migration of it ends, and
a pre-emption takes the kind that R203 gives it now (R185, R191, R207). -/
def execSave (u : Nat) (s : State) : Host.Outcome State Fault Refusal :=
  let us := s.unitOf u
  .next (if us ≠ [] ∧ (s.wg u).status = .resident ∧ s.unitQuiet u then
    if (us.any s.oldest) || s.someOf us fun w _ => w.unbuf then
      if us.any fun v => decide ((s.wg v).goal ≠ []) then
        us.foldl (fun t v => t.setWg v { t.wg v with leave := .stay, goal := [] }) s
      else s.makeLeave us (s.leaveKind us)
    else match s.mapAreas 1 (us.map fun v => (v, (s.wg v).core)) with
      | .held w => w
      | .bad => (s.makeLeave us (.drain s.dtime)).openEvent (dieOf (s.wg u).core)
      | .ok (t, l) => l.foldl (fun t x => t.saveOne x.1 x.2) t
  else s)

/-- A workgroup leaves its core with nothing kept; it will start afresh with TRY unchanged (R204). -/
def State.flushOut (s : State) (u : Nat) : State :=
  let w := s.wg u
  let g := s.grid w.gid
  let t := (s.flushWg u).releasePool u
  { t.setWg u w.gone with monitors := t.monitors.filter fun m => m.1 ≠ u }.setGrid w.gid
      { g with again := (g.again.filter fun (a : Nat × Nat × Nat) => decide (a.1 < w.w)) ++ [(w.w, w.tries, s.dtime)]
          ++ g.again.filter fun (a : Nat × Nat × Nat) => !decide (a.1 < w.w) }

/-- A unit that is to be flushed may go: a debugger holds no member of it (R406), and what its members have issued has been performed,
so that nothing is performed out of its order (R136). -/
def State.mayFlush (s : State) (u : Nat) : Bool :=
  decide ((s.wg u).status = .resident) && decide ((s.wg u).leave = .flush)
    && (s.unitOf u).all fun v => !s.debugged v && s.settled v

/-- FLUSH_AND_RESTART (R204): the unit stops, its versions are discarded, and it waits to start afresh. One of which a task has been
committed meanwhile, or has become unbuffered, runs on instead (R182, R203). -/
def execFlushAndRestart (u : Nat) (s : State) : Host.Outcome State Fault Refusal :=
  let us := s.unitOf u
  .next (if s.mayFlush u then
    if s.someOf us fun w _ => w.unbuf || w.taskEnd then s.makeLeave us (.drain s.dtime) else us.foldl State.flushOut s
  else s)

-- ## Restore and migration (R136, R207, R402)

/-- A member of a saved unit reloaded on a core, whose L1 is emptied, so that no course reads an older value there (R136). A task
whose version has been lost meanwhile begins afresh (R92, R183). -/
def State.restoreOne (s : State) (u k : Nat) (pages : List (Nat × Nat)) : State :=
  let l := (s.grid (s.wg u).gid).launch
  let r := s.readArea u pages
  let t1 := ((r.1.emptyICache r.2.gid k).emptyL1 k).wipe k (r.1.freeGranules k l.grans)
  let t := t1.setWg u { r.2 with
    status := .resident, core := k, granules := t1.freeGranules k l.grans, omem := t1.freeSlots k l.nos, placed := t1.dtime, goal := [] }
  if r.2.redo then t.restartTask u (r.2.tries + 1) else t

/-- RESTORE (R402): a saved unit is reloaded on the cores named, where it fits. It waits while a page of its area is walked or
held, and nothing happens while one cannot be read (log entry 33). -/
def execRestore (u : Nat) (cores : List Nat) (s : State) : Host.Outcome State Fault Refusal :=
  let us := s.unitOf u
  let g := s.grid (s.wg u).gid
  .next (if g.abort = none ∧ us ≠ [] ∧ us.all (fun v => decide ((s.wg v).status = .saved))
      ∧ us.length = cores.length ∧ s.canPlace g cores then
    match s.mapAreas 0 (us.zip cores) with
    | .held w => w
    | .bad => s
    | .ok (t, l) => (l.zip cores).foldl (fun t x => t.restoreOne x.1.1 x.2 x.1.2) t
  else s)

/-- MIGRATION (R207): the management core moves a unit that has been resident for 2 ms off its cores: it is saved, and is to be
restored on others, one of the cores named for each where they fit. -/
def execMigration (u : Nat) (cores : List Nat) (s : State) : Host.Outcome State Fault Refusal :=
  let us := s.unitOf u
  let g := s.grid (s.wg u).gid
  .next (if us ≠ [] ∧ !g.launch.lc ∧ cores.length = us.length ∧ cores.eraseDups.length = cores.length
      ∧ cores.all (fun k => decide (k < 576) && decide (k / 24 = cores.headD 0 / 24))
      ∧ (us.zip cores).all (fun x => decide ((s.wg x.1).core ≠ x.2)) ∧ us.all (fun v =>
      let w := s.wg v
      decide (w.status = .resident) && decide (w.leave = .stay) && decide (w.placed + residency ≤ s.dtime) && !s.oldest v
        && !s.debugged v) then
    us.foldl (fun t v => t.setWg v { t.wg v with leave := .save, goal := cores }) s
  else s)

-- ## The course scheduler's swap and the timers (R206, R300, R320)

/-- Some course of a core is pending-ready. -/
def State.anyReady (s : State) (k : Nat) : Bool :=
  s.wgs.any fun e => decide (e.2.core = k) && decide (e.2.status = .resident)
    && e.2.courses.any fun c => decide (c.2.sched = .ready) && !c.2.exited

/-- QUANTUM_SWAP (R206): a course that has been active for 512 cycles makes room for a pending-ready one. -/
def execQuantumSwap (u c : Nat) (s : State) : Host.Outcome State Fault Refusal :=
  let k := s.crs u c
  .next (if k.sched = .active ∧ k.entered + 512 ≤ s.cycle.toNat ∧ s.anyReady (s.wg u).core then
    s.setCrs u c { k with sched := .ready, entered := s.cycle.toNat }
  else s)

/-- The course waits, which the timer never cuts short, or is inside an instruction that has issued, which completes first
(R300). The end of a register wait clears it. -/
def Course.midway (k : Course) : Bool :=
  match k.wait with
  | none => k.arb.isSome || k.sync.isSome
  | some .structural => false
  | some _ => true

/-- The timer trap is due: CTIMER has reached a limit that is set, and the course stands at a boundary (R300). -/
def State.timerDue (s : State) (u c : Nat) : Bool :=
  let k := s.crs u c
  decide (k.ctlim ≠ 0) && decide (k.ctlim.toNat ≤ k.ctimer.toNat) && !k.exited && (!k.halted || k.stepping)
    && decide ((s.wg u).status = .resident) && !k.midway

/-- TIMER (R300): the timer trap is taken before the next instruction, and its entry makes the limit 0. -/
def execTimer (u c : Nat) (s : State) : Host.Outcome State Fault Refusal :=
  .next (if s.timerDue u c then
    let t := takeTrap s u c { code := 0x10 }
    let k := t.crs u c
    if k.tlev = (s.crs u c).tlev then t else t.setCrs u c { k with ctlim := 0 }
  else s)

/-- WAIT_TIMEOUT (R320): the time of a waiting MWAIT has run out; a course in a REP waits inside a repetition (R257). -/
def execWaitTimeout (u c : Nat) (s : State) : Host.Outcome State Fault Refusal :=
  let k := s.crs u c
  .next (if k.wait = some .mwait ∧ k.limit = some 0 ∧ !s.monitorOver u c then
    mwaitExpired { s with curWg := u, curCrs := c, inRep := k.repAct }
  else s)

end Sys2Proof.Machine
end

