-- ==== Sys2Proof/Machine/Link.lean ====
section
/-! DEFINITION. The link layer (R95 to R106, R121 to R127, R375, R379, R424, R427): training, drains and readmission, flits
with their numbers, acknowledgements and replays, loss of light, and links that go down. -/

namespace Sys2Proof.Machine

-- ## Registers of a link (R96 to R98)

/-- LINK_CONTROL's slots: how many of the table are in use. -/
def Link.slot (l : Link) (i : Nat) : RotSlot := Tab.get .reset l.slots i

/-- A rotation table that LMODE = 2 refuses (R98); a reserved bit of a slot entry is refused as it is written. -/
def Link.badTable (l : Link) : Bool :=
  decide (l.nslot = 0) || decide (16 < l.nslot)
    || (List.range l.nslot).any fun i => decide (l.slotLen i < 2000) || decide (50000 < l.slotLen i)

/-- Every wavelength of a group has light. -/
def groupLit (light g : Nat) : Bool := bits light (4 * g + 3) (4 * g) = 15

/-- The wavelength groups with light on every wavelength in both directions, of which a retired one is never admitted (R125, R410). -/
def Link.litGroups (l : Link) : Nat :=
  (List.range 4).foldl (fun n g => if groupLit l.light g && groupLit l.far g && !bit l.excluded g then n + 2 ^ g else n) 0

/-- Sequence space of a flit toward a peer: one for each peer in rotation mode (R124). -/
def Link.spaceKey (l : Link) (peer : Nat) : Nat := if l.lmode = 2 then peer else 0
/-- A sequence space. -/
def Link.space (l : Link) (k : Nat) : Space := Tab.get .fresh l.spaces k
/-- A sequence space changed. -/
def Link.setSpace (l : Link) (k : Nat) (x : Space) : Link := { l with spaces := Tab.set l.spaces k x }

-- ## Training, drain, readmission (R101, R102, R427)

/-- Room kept on a link by contexts is no room of its any more. -/
def State.loseKept (s : State) (l : Nat) : State :=
  { s with seqs := Tab.mapVal (fun _ (q : Seqr) => { q with ctxs := Tab.mapVal (fun _ (x : Ctx) =>
      match x.kept with | some (j, _, _) => if j = l then { x with kept := none } else x | none => x) q.ctxs }) s.seqs }

/-- LINK_TRAIN (R98, R427): a write of LMODE 1 or 2; refused with BAD where R98 refuses it. From STATE 0 it begins to
train, with fresh sequence spaces, credits and room. -/
def execLinkTrain (l mode : Nat) (s : State) : Host.Outcome State Fault Refusal :=
  let x := s.link l
  .next (
    if mode = 3 ∨ (mode = 2 ∧ x.badTable) then s.setLink l { x with bad := true }
    else if mode ≠ 1 ∧ mode ≠ 2 then s
    else if x.state = 0 then
      (s.loseKept l).setLink l { x with
        lmode := mode, state := 1, groups := 0, joining := 0, restriping := none, curSlot := none, curPeriod := 0, served := []
        beat := 0, tx := [], replay := [], spaces := [], room := [] }
    else s.setLink l { x with lmode := mode })

/-- LINK_UP (R427): training ends on groups with light, and the link carries traffic; or the groups that READMIT trains
join those in use. -/
def execLinkUp (l groups : Nat) (s : State) : Host.Outcome State Fault Refusal :=
  let x := s.link l
  .next (
    if x.state = 1 ∧ groups ≠ 0 ∧ groups &&& x.litGroups = groups then
      (((s.setLink l { x with state := if x.drain then 3 else 2, groups := groups }).linkEvent l 6 0 groups 0 0 0).routeAll).closeMarkers
    else if x.state = 2 ∧ x.joining ≠ 0 ∧ x.restriping = none then
      let g := x.groups ||| (x.joining &&& x.litGroups)
      (s.setLink l { x with groups := g, joining := 0 }).linkEvent l 6 x.groups g 0 0 0
    else s)

/-- DRAIN (R101): setting it starts a drain, clearing it abandons one; the flits held stay. -/
def execDrain (l : Nat) (on : Bool) (s : State) : Host.Outcome State Fault Refusal :=
  let x := s.link l
  .next (
    if on then s.setLink l { x with drain := true, state := if x.state = 2 then 3 else x.state }
    else (s.setLink l { x with drain := false, state := if x.state = 3 then 2 else x.state }).routeAll.closeMarkers)

/-- LINK_DRAINED (R101, R102): nothing is held any more, and STATE moves to 0. -/
def execLinkDrained (l : Nat) (s : State) : Host.Outcome State Fault Refusal :=
  let x := s.link l
  .next (if x.state = 3 ∧ x.tx = [] ∧ x.replay = [] then (s.setLink l { x with state := 0, groups := 0 }).routeAll else s)

/-- READMIT (R427): while STATE is 2, every group that has light and is not in use trains beside the running ones. -/
def execReadmit (l : Nat) (s : State) : Host.Outcome State Fault Refusal :=
  let x := s.link l
  .next (if x.state = 2 then s.setLink l { x with joining := x.litGroups &&& (15 - x.groups % 16) } else s)

/-- ROUTE_ENTRY_WRITE (R96, R99): what waits looks at the new entry. -/
def execRouteEntryWrite (peer value : Nat) (s : State) : Host.Outcome State Fault Refusal :=
  .next ({ s with routes := Tab.put 0 s.routes peer (BitVec.ofNat 32 value) }).routeAll

/-- LIGHT_RETURN (R125, R427): wavelength `w` has light again, received, or from 16 on sent as the far end tells. -/
def execLightReturn (l w : Nat) (s : State) : Host.Outcome State Fault Refusal :=
  let x := s.link l
  .next (s.setLink l (if w < 16 then { x with light := x.light ||| 2 ^ w } else { x with far := x.far ||| 2 ^ (w - 16) }))

-- ## Rotation (R104, R105, R124)

/-- ROTATION_SLOT_START (R104): the guard of the slot under way has ended. What was sent toward its peer and is not
acknowledged goes first (R124). -/
def execRotationSlotStart (l : Nat) (s : State) : Host.Outcome State Fault Refusal :=
  let x := s.link l
  match x.slotAt (s.dtime / 2 ^ 16) with
  | some (i, off) =>
    .next (if x.lmode = 2 ∧ (x.state = 2 ∨ x.state = 3) ∧ 400 ≤ off then
      s.setLink l { x with
        curSlot := some i
        curPeriod := x.periodAt (s.dtime / 2 ^ 16)
        replay := x.replay.map fun f => if f.peer = (x.slot i).speer ∧ (x.slot i).sv then { f with sent := 0 } else f }
    else s)
  | none => .next s

/-- Time, in ns, of a period's slots toward a peer, after their guards, that lies before an offset. -/
def Link.usable (l : Link) (peer off : Nat) : Nat :=
  ((List.range l.nslot).foldl (fun (acc : Nat × Nat) i =>
    let r := l.slot i
    let lo := acc.1 + 400
    let hi := min off (acc.1 + r.slen)
    (acc.1 + r.slen, if r.sv && decide (r.speer = peer) then acc.2 + (hi - lo) else acc.2)) (0, 0)).2

/-- Time in ns inside slots toward a peer, after their guards, between two device times in ns (R123). -/
def Link.slotTime (l : Link) (peer t0 t1 : Nat) : Nat :=
  if l.period = 0 then 0
  else
    let upto := fun (t : Nat) =>
      let z : Int := (t : Int) - l.t0
      z / (l.period : Int) * (l.usable peer l.period : Int) + (l.usable peer (z % (l.period : Int)).toNat : Int)
    (upto t1 - upto t0).toNat

-- ## Sending (R105, R121 to R124, R171, R375)

/-- A flit that only acknowledges: it has no number of its own and is not held (log entry 23). -/
def TxFlit.ackOnly (f : TxFlit) : Bool := decide (f.carry = .control 0 0)

/-- The first flit of each packet of a queue that is left. -/
def leads : List TxFlit → Bool → List TxFlit
  | [], _ => []
  | f :: r, start => if start then f :: leads r f.fin else leads r f.fin

/-- The region of a packet and its FSHARE (R171): for a request the RCB of its grid; what belongs to no region of this module counts
as one region of weight 1. -/
def State.region (s : State) (c : Carry) : Nat × Nat :=
  match c with
  | .request tag =>
    match s.reqs.find? fun r => decide (r.tag = tag) with
    | some r =>
      if r.uid = hostUid then (0, 1)
      else let g := s.grid (s.wg r.uid).gid; (g.launch.rcbp + 1, g.chain.fshare)
    | none => (0, 1)
  | _ => (0, 1)

/-- The service of the regions whose requests wait (R171): it counts afresh whenever a region begins or ceases to wait (log entry
45). -/
def Link.service (l : Link) (waiting : List Nat) : Tab Nat :=
  if waiting.all (fun k => (Tab.find l.served k).isSome) && l.served.all (fun e => waiting.contains e.1) then l.served
  else waiting.map fun k => (k, 0)

/-- The regions whose requests wait to begin on a link, toward whichever peer (R171). -/
def State.regionsWaiting (s : State) (l : Link) : List Nat :=
  (((leads (l.tx.filter fun f => decide (f.cls = clsRequest) && !f.ackOnly) true).filter fun f => f.first).map
    fun f => (s.region f.carry).1).eraseDups

/-- Of the packets that may begin, one of the region that has been served least for its weight; one of weight 0 only where no other
waits (R171). -/
def State.fairest (s : State) (l : Link) (fs : List TxFlit) : Option TxFlit :=
  let sv := l.service (s.regionsWaiting l)
  (fs.foldl (fun (b : Option (TxFlit × Nat × Nat)) f =>
    let r := s.region f.carry
    let n := Tab.get 0 sv r.1
    match b with
    | none => some (f, n, r.2)
    | some (_, m, w) => if w = 0 ∧ r.2 ≠ 0 ∨ r.2 ≠ 0 ∧ n * w < m * r.2 then some (f, n, r.2) else b) none).map Prod.fst

/-- Device time, in units of 2^-16 ns, that remains in the slot under way. -/
def State.slotLeft (s : State) (l : Link) : Nat :=
  match l.slotAt (s.dtime / 2 ^ 16) with
  | some (i, off) => l.slotLen i * 2 ^ 16 - (off * 2 ^ 16 + s.dtime % 2 ^ 16)
  | none => 0

/-- Set bits of GROUPS. -/
def groupCount (g : Nat) : Nat := ((List.range 4).filter fun k => bit g k).length

/-- `n` flits fit in a time, at 0.2 ns × 16 / A each with A four times the groups in use (R122, R375). -/
def flitsFit (groups n left : Nat) : Bool := decide (n * 524288 ≤ left * 10 * groupCount groups)

/-- Flits of a chunk (R372). -/
def chunkFlits (c : Carry) : Nat := match c with | .chunk _ k => 1 + chunkSize k.size / 64 | _ => 1


/-- The next flit of a class that may leave now (R105, R171, R375): a packet begun goes on; in rotation mode a chunk begins only in a
slot that holds all of it, where the credits and the replay buffer hold it too. -/
def State.nextFlit (s : State) (l : Link) (cls : Nat) : Option TxFlit :=
  let rot := decide (l.lmode = 2)
  let left := s.slotLeft l
  let toward := l.sendsTo (s.dtime / 2 ^ 16)
  let q := l.tx.filter fun f => decide (f.cls = cls) && !f.ackOnly && (!rot || decide (toward = some f.peer))
  let ls := leads q true
  let pick := match ls.find? fun (f : TxFlit) => !f.first with
    | some f => some f
    | none => if cls = clsRequest then s.fairest l ls else ls.head?
  match pick with
  | some f =>
    let n := if f.first then chunkFlits f.carry else 1
    if !rot || (flitsFit l.groups n left && decide (n ≤ (l.space (l.spaceKey f.peer)).credits) && decide (l.replay.length + n ≤ 4096))
    then some f else none
  | none => none

/-- The link may send at all. -/
def Link.open1 (l : Link) : Bool := (decide (l.state = 2) || decide (l.state = 3)) && l.restriping.isNone

/-- The oldest flit that is to be sent again toward the peer that the link can send to now. -/
def State.nextReplay (s : State) (l : Link) : Option TxFlit :=
  let toward := l.sendsTo (s.dtime / 2 ^ 16)
  l.replay.find? fun f => decide (f.sent = 0)
    && (!decide (l.lmode = 2) || (decide (toward = some f.peer) && flitsFit l.groups 1 (s.slotLeft l)))

/-- The acknowledgement that may leave now. -/
def State.nextAck (s : State) (l : Link) : Option TxFlit :=
  let toward := l.sendsTo (s.dtime / 2 ^ 16)
  l.tx.find? fun f => f.ackOnly
    && (!decide (l.lmode = 2) || (decide (toward = some f.peer) && flitsFit l.groups 1 (s.slotLeft l)))

/-- The flits among which the link chooses the next to send: an acknowledgement, replays, then one of each class. -/
def State.sendable (s : State) (l : Link) : List TxFlit :=
  if !l.open1 then []
  else match (s.nextAck l).or (s.nextReplay l) with
    | some f => [f]
    | none =>
      if 4096 ≤ l.replay.length then []
      else ([6, 5, 4, 0, 1, 2, 3].filterMap (s.nextFlit l)).filter fun f => decide ((l.space (l.spaceKey f.peer)).credits ≠ 0)

/-- A context whose chunk has left goes on, or stops where it is asked to (R380). -/
def Ctx.sentAll (x : Ctx) : Ctx :=
  if (x.stopReq || x.step1) && decide (x.st = .running) then
    { x with sending := none, st := .stopped, stopReq := false, step1 := false, since := none, barked := false }
  else { x with sending := none }

/-- The chunk of a context has left (R376): a turn that waited for it is over. -/
def State.chunkSent (s : State) (lk k : Nat) : State :=
  let t := s.mapCtx lk k Ctx.sentAll
  if (t.seqr lk).turn = k then t.setSeqr lk { t.seqr lk with run := 256 } else t

/-- What follows the sending of a flit: a request is with the link layer, a chunk has left, or the time of a marker begins. -/
def State.afterSend (s : State) (l : Nat) (f : TxFlit) : State :=
  match f.carry with
  | .request tag =>
    if f.fin then
      { s with reqs := s.reqs.map fun (r : Req) => if r.tag = tag then { r with sent := true } else r }.closeMarkers
    else s
  | .chunk n _ =>
    if f.fin && (s.link l).tx.all fun (g : TxFlit) => match g.carry with | .chunk m _ => decide (m ≠ n) | _ => true then
      s.chunkSent (n / 4) (n % 4)
    else s
  | .relayMarker issuer _ _ _ => if issuer = s.ownPeer.toNat then s.closeMarkers else s
  | _ => s

-- ## Flits and beats (R121, R122)

/-- One byte into a CRC-32 (R121). -/
def crcByte (c : W32) (b : Byte) : W32 :=
  (List.range 8).foldl (fun (c : W32) _ => if c.getLsbD 0 then (c >>> 1) ^^^ 0xEDB88320 else c >>> 1) (c ^^^ b.setWidth 32)

/-- The CRC-32 of IEEE 802.3. -/
def crc32 (bs : List Byte) : Nat := ((bs.foldl crcByte 0xFFFFFFFF) ^^^ 0xFFFFFFFF).toNat

/-- Bytes 0 to 11 of a flit (R121). -/
def flitHead (f : Flit) : List Byte :=
  bytesOf 2 f.seqno ++ bytesOf 1 (f.cls + f.valid * 8) ++ bytesOf 1 f.code ++ bytesOf 2 f.src ++ bytesOf 2 f.dst
    ++ bytesOf 2 f.ack ++ bytesOf 2 f.credits

/-- The bytes of a flit that its CRC covers (R121). -/
def flitCovered (f : Flit) : List Byte := flitHead f ++ bytesOf 64 f.payload

/-- The CRC of a flit agrees. -/
def flitGood (f : Flit) : Bool := decide (crc32 (flitCovered f) = f.crc)

/-- The 80 bytes of a flit (R121). -/
def flitBytes (f : Flit) : List Byte := flitHead f ++ bytesOf 4 f.crc ++ bytesOf 64 f.payload

/-- A flit as it leaves (R121): the acknowledgement of the reverse direction, and the credits of a receiver that takes every flit as
it comes. -/
def State.formFlit (s : State) (l : Link) (f : TxFlit) : Flit :=
  let x : Flit := { seqno := f.seqno, cls := f.cls, valid := f.valid, code := (match f.carry with | .control c _ => c | _ => 0)
                    src := s.ownPeer.toNat, dst := f.dest, ack := (l.space (l.spaceKey f.peer)).expect, credits := 4096, crc := 0
                    payload := f.load }
  { x with crc := crc32 (flitCovered x) }

/-- The active wavelengths, ascending. -/
def activeWaves (groups : Nat) : List Nat := (List.range 16).filter fun w => bit groups (w / 4)

/-- The 16 beats of a flit whose first is beat `s` of the stream: beat s goes on the (s mod A)-th active wavelength (R122). -/
def flitBeats (groups s : Nat) (f : Flit) : List (Nat × List Byte) :=
  let ws := activeWaves groups
  (List.range 16).map fun i => (ws.getD ((s + i) % max 1 ws.length) 0, ((flitBytes f).drop (5 * i)).take 5)

/-- The beats of a flit leave. -/
def State.beam (s : State) (l : Nat) (f : TxFlit) : State :=
  let x := s.link l
  { s.setLink l { x with beat := x.beat + 16 } with txFlit := some (l, flitBeats x.groups x.beat (s.formFlit x f)) }

/-- A new flit leaves with the next number of its space and is held until it is acknowledged (R123). -/
def State.sendNew (s : State) (l : Nat) (f : TxFlit) : State :=
  let x := s.link l
  let k := x.spaceKey f.peer
  let sp := x.space k
  let y := x.setSpace k { sp with next := (sp.next + 1) % 65536, credits := sp.credits - 1 }
  let g := { f with seqno := sp.next, sent := s.moment }
  ((s.setLink l { y with tx := x.tx.erase f, replay := x.replay ++ [g] }).beam l g).afterSend l f

/-- One more packet of its region is served (R171). -/
def State.serveRegion (s : State) (l : Nat) (f : TxFlit) : State :=
  if f.first ∧ f.cls = clsRequest then
    let x := s.link l
    let sv := x.service (s.regionsWaiting x)
    let k := (s.region f.carry).1
    s.setLink l { x with served := Tab.set sv k (Tab.get 0 sv k + 1) }
  else s

/-- What leaves with a flit: in rotation mode the flits of a chunk leave together, within their slot (R375). -/
def State.withFlit (s : State) (l : Nat) (f : TxFlit) : List TxFlit :=
  let x := s.link l
  if x.lmode = 2 ∧ f.first ∧ 1 < chunkFlits f.carry then
    (x.tx.filter fun g => decide (g.cls = f.cls) && decide (g.peer = f.peer)).take (chunkFlits f.carry)
  else [f]

/-- FLIT_SEND (R123): the next flit leaves. -/
def execFlitSend (l : Nat) (s : State) : Host.Outcome State Fault Refusal :=
  let x := s.link l
  match pickFrom (s.sendable x) (Config.choice s.steps) with
  | none => .next s
  | some f =>
    if f.ackOnly then .next ((s.setLink l { x with tx := x.tx.erase f }).beam l { f with seqno := (x.space (x.spaceKey f.peer)).next })
    else if f.sent = 0 ∧ x.replay.contains f then
      .next ((s.setLink l { x with replay := x.replay.map fun g => if g = f then { g with sent := s.moment } else g }).beam l f)
    else .next ((s.withFlit l f).foldl (fun t g => t.sendNew l g) (s.serveRegion l f))

-- ## Receiving (R103, R121, R123)

/-- The peer whose flits belong at a device time: a flit in a guard belongs to the slot before (R103). -/
def Link.expects (l : Link) (ns : Nat) : Option Nat :=
  if l.lmode = 2 then
    match l.slotAt ns with
    | some (i, off) => some (l.slot (if off < 400 then (i + l.nslot - 1) % l.nslot else i)).speer
    | none => none
  else some l.lpeer

/-- A NAK goes back for what is lost from the number expected on: one after a gap or a damaged flit, and no other until the next flit
has been accepted (R123; the manual does not say how many a gap brings: log entry 75). -/
def State.nak (s : State) (l peer : Nat) : State :=
  let x := s.link l
  let k := x.spaceKey peer
  let sp := x.space k
  if sp.naked then s else (s.setLink l (x.setSpace k { sp with naked := true })).enqueue l clsControl peer (.control 1 sp.expect)

/-- An acknowledgement goes back beside the other traffic, unless one waits already (log entry 23). -/
def State.ackBack (s : State) (l peer : Nat) : State :=
  if (s.link l).tx.any fun f => f.ackOnly && decide (f.peer = peer) then s
  else s.enqueue l clsControl peer (.control 0 0)

/-- A number counted on from another. -/
def seqAhead (a b : Nat) : Nat := (a + 65536 - b % 65536) % 65536

/-- A flit's cumulative acknowledgement and credits, for the space it belongs to. -/
def Link.acked (l : Link) (k ack credits : Nat) : Link :=
  let mine := fun (f : TxFlit) => decide (l.spaceKey f.peer = k)
  let done := fun (f : TxFlit) => mine f && decide (1 ≤ seqAhead ack f.seqno) && decide (seqAhead ack f.seqno ≤ 4096)
  let sp := l.space k
  { l with replay := l.replay.filter fun f => !done f }.setSpace k
    { sp with credits := credits, replays := if l.replay.any done then 0 else sp.replays }

/-- The held flits of a space from a number on are to be sent again. -/
def Link.replayFrom (l : Link) (k from1 : Nat) : Link :=
  { l with replay := l.replay.map fun f =>
      if l.spaceKey f.peer = k ∧ seqAhead f.seqno from1 < 32768 then { f with sent := 0 } else f }

/-- One replay more without progress; the time from a loss of light to the return does not count (R424). -/
def Link.countReplay (l : Link) (k : Nat) : Link :=
  if l.restriping.isSome then l else l.setSpace k { l.space k with replays := (l.space k).replays + 1 }

/-- What an accepted link-control flit does: a NAK makes the sender replay; an announcement gives room to a channel (log
entry 23). -/
def Link.control (l : Link) (k : Nat) (f : Flit) : Link :=
  if f.code = 1 then (l.replayFrom k (f.payload % 65536)).countReplay k
  else if 2 ≤ f.code ∧ f.code < 6 then
    let at1 := 4 * k + (f.code - 2)
    { l with room := Tab.set l.room at1 (min 65536 (Tab.get 65536 l.room at1 + f.payload % 2 ^ 32)) }
  else l

/-- A wavelength in use, which the event does not tell from the others, is to be tested (R410). -/
def State.suspectWave (s : State) (l : Nat) : State :=
  match pickFrom (activeWaves (s.link l).groups) (Config.choice s.steps) with
  | some w => s.suspect .wavelength (l / 4) (16 * (l % 4) + w)
  | none => s

/-- A CRC failure, or a flit of a wrong peer, which counts as received in error (R103, log entry 23), is counted, and an event posted at the threshold (R97). -/
def State.crcFailed (s : State) (l : Nat) : State :=
  let x := s.link l
  let n := x.crcs + 1
  if x.crcth ≠ 0 ∧ x.crcth ≤ n then ((s.setLink l { x with crcs := 0 }).linkEvent l 5 x.groups x.groups 0 0 0).suspectWave l
  else s.setLink l { x with crcs := n }

/-- FLIT_RECEIVE (R123): a damaged flit, one of an unexpected peer, a duplicate or one after a gap is discarded, with a
NAK after damage or a gap; the next expected one is accepted. What a packet brings, once its last flit is in, is a step of
its own (REMOTE_REQUEST, REMOTE_REPLY, CLOSE_MARKER, SUMMARY_REPLY, CHUNK_ARRIVAL). -/
def execFlitReceive (l : Nat) (f : Flit) (s : State) : Host.Outcome State Fault Refusal :=
  let x := s.link l
  .next (
    if !(x.state = 2 ∨ x.state = 3) then s
    else if !flitGood f then (s.crcFailed l).nak l ((x.expects (s.dtime / 2 ^ 16)).getD x.lpeer)
    else if x.expects (s.dtime / 2 ^ 16) ≠ some f.src then
      ((s.setLink l { x with miswire := true }).linkEvent l 4 x.groups x.groups 0 0 f.src).crcFailed l
    else
      let k := x.spaceKey f.src
      let y := x.acked k f.ack f.credits
      let sp := y.space k
      if f.cls = clsControl ∧ f.code = 0 then s.setLink l y
      else if f.seqno = sp.expect then
        let z := y.setSpace k { sp with expect := (sp.expect + 1) % 65536, naked := false }
        (s.setLink l (if f.cls = clsControl then z.control k f else z)).ackBack l f.src
      else if seqAhead f.seqno sp.expect < 32768 then (s.setLink l y).nak l f.src
      else (s.setLink l y).ackBack l f.src)

/-- Time in ns that a held flit has waited, as the replay timer counts it (R123). -/
def Link.waited (l : Link) (f : TxFlit) (now : Nat) : Nat :=
  if l.lmode = 2 then l.slotTime f.peer (f.sent / 2 ^ 16) (now / 2 ^ 16) else (now - f.sent) / 2 ^ 16

/-- The oldest held flit of each space. -/
def Link.oldestHeld (l : Link) : List TxFlit :=
  l.replay.foldl (fun out f => if out.any fun g => decide (l.spaceKey g.peer = l.spaceKey f.peer) then out else out ++ [f]) []

/-- The flit whose replay timer has run out; it does not run from a loss of light until the return (R424). -/
def Link.overdue (l : Link) (now : Nat) : Option TxFlit :=
  if !l.open1 then none else l.oldestHeld.find? fun f => decide (f.sent ≠ 0) && decide (2000 ≤ l.waited f now)

/-- REPLAY_TIMEOUT (R123). -/
def execReplayTimeout (l : Nat) (s : State) : Host.Outcome State Fault Refusal :=
  let x := s.link l
  match x.overdue s.dtime with
  | some f =>
    let k := x.spaceKey f.peer
    let n := (x.replay.filter fun g => decide (x.spaceKey g.peer = k)).length
    .next (((s.setLink l ((x.replayFrom k f.seqno).countReplay k)).linkEvent l 3 x.groups x.groups f.seqno n 0).suspectWave l)
  | none => .next s

-- ## Light (R125, R424)

/-- LOSS_OF_LIGHT (R125): `light` names the wavelengths that keep their light, bits 15:0 those received, bits 31:16 those sent. The
groups that lost some are out of use once the link has restriped. -/
def execLossOfLight (l light : Nat) (s : State) : Host.Outcome State Fault Refusal :=
  let x := s.link l
  let rx := x.light &&& light % 2 ^ 16
  let sent := x.far &&& light / 2 ^ 16
  let y := { x with light := rx, far := sent, lossLight := rx + sent * 2 ^ 16 }
  let left := y.groups &&& y.litGroups
  let z := { y with joining := y.joining &&& y.litGroups }
  .next (s.setLink l (
    if (x.state = 2 ∨ x.state = 3) ∧ left ≠ x.groups then { z with restriping := some (left, s.dtime) } else z))

/-- The modules at the far end of a link. -/
def Link.peers (l : Link) : List Nat :=
  if l.lmode = 2 then (((List.range l.nslot).map l.slot).filterMap fun r => if r.sv then some r.speer else none).eraseDups else [l.lpeer]

/-- RESTRIPE (R125): the link returns to service on the groups that are left, replays every held flit, and announces its credits
again. The groups that have gone dark are to be tested (R410). -/
def execRestripe (l : Nat) (s : State) : Host.Outcome State Fault Refusal :=
  let x := s.link l
  match x.restriping with
  | some (g, t) =>
    .next (if g = 0 then s
      else
        let y := { x with groups := g, restriping := none, replay := x.replay.map fun f => { f with sent := 0 } }
        let u := (s.setLink l y).linkEventAt t x.lossLight l 1 x.groups g ((x.replay.head?.map TxFlit.seqno).getD 0) x.replay.length 0
        let v := ((activeWaves x.groups).filter fun w => !(bit x.lossLight w && bit x.lossLight (w + 16))).foldl
          (fun (z : State) w => z.suspect .wavelength (l / 4) (16 * (l % 4) + w)) u
        x.peers.foldl (fun (z : State) p => z.ackBack l p) v)
  | none => .next s

-- ## Links that go down (R126, R379)

/-- The link has to go down: no group is left, or eight replays in a row brought no progress (R123, R125). -/
def Link.dying (l : Link) : Bool :=
  (decide (l.state = 2) || decide (l.state = 3))
    && ((match l.restriping with | some (0, _) => true | _ => false) || l.spaces.any fun e => decide (8 ≤ e.2.replays))

/-- A context waits at an instruction for room on a link, or keeps room on it for an instruction that has not yet transmitted (R367,
R379, log entry 76). -/
def State.awaitsRoom (s : State) (l lk k : Nat) : Bool :=
  let q := s.seqr lk
  let x := q.ctx k
  let on := fun (ch sz b : Nat) =>
    decide ((x.reg b).toNat / 2 ^ 12 = l) && decide ((s.link l).roomFor ((x.reg b).toNat % 2 ^ 12) ch < chunkSize sz)
  let keeps := match x.kept with | some (j, _, _) => decide (j = l) | none => false
  decide (x.st = .waiting) && (keeps || match decodeSeq (Tab.get 0 q.imem (x.cpc / 4)) with
    | .ok (.send ch sz _ b) => on ch sz b
    | .ok (.rcfwd ch sz _ b _ _ _) => on ch sz b
    | .ok (.rfwd ch sz _ b _) => on ch sz b
    | _ => false)

/-- A context faults with cause LINKDOWN (R379): HELD is not set. The turn of another context goes on (R376). -/
def State.downFault (s : State) (l lk k : Nat) : State :=
  let x := (s.seqr lk).ctx k
  let s1 := s.mapCtx lk k fun y => { y with sending := none }
  if x.st = .idle ∨ x.st = .faulted then s1
  else
    let t := ({ s1 with curLink := lk, curCtx := k } : State).seqFaulted 0x17 l s.openKind s.openLevel none
    let u := if (t.seqr lk).turn = k then t.endTurn else t
    { u with curLink := s.curLink, curCtx := s.curCtx }

/-- The contexts that a link's end touches fault. -/
def State.downContexts (s : State) (l : Nat) (held : List TxFlit) : State :=
  ((List.range 16).flatMap fun lk => (List.range 4).map fun k => (lk, k)).foldl (fun (t : State) (p : Nat × Nat) =>
    let carries := held.any fun f => match f.carry with | .chunk n _ => decide (n = ctxName p.1 p.2) | _ => false
    if carries || s.awaitsRoom l p.1 p.2 then t.downFault l p.1 p.2 else t) s

/-- The issuer's link layer answers for every peer that a lost link carried a store or a marker of a batch to (R126). -/
def Course.loseLink (k : Course) (l : Nat) : Course :=
  { k with
    batches := Tab.mapVal (fun _ (b : Batch) =>
      let lost := (b.sent.filter fun p => decide (p.2 = l)).map Prod.fst
      { b with down := b.down ++ lost.filter fun n => !b.down.contains n }) k.batches
    flights := k.flights.map fun f =>
      match f.kind with
      | .closeb _ _ sn _ _ _ =>
        { f with kind := (sn.filter fun p => decide (p.2 = l)).foldl (fun x p => FlightKind.answer p.1 x) f.kind }
      | _ => f }

/-- A packet held on a lost link: a request of this module fails; a request forwarded for another goes back to its issuer
with the failure. -/
def State.loseCarry (s : State) (c : Carry) : State :=
  match c with
  | .request tag => s.failReq tag 5
  | .relay r => s.replyTo r 5 0 0
  | _ => s

/-- What is lost with a link that goes to a state: its held flits, the requests they carried, the batches that it carried
stores of, and the chunks under way. -/
def State.loseLink (s : State) (l st : Nat) : State :=
  let x := s.link l
  let held := x.replay ++ x.tx
  let t := s.downContexts l held
  let t1 := t.setLink l { t.link l with state := st, tx := [], replay := [], spaces := [], groups := 0, joining := 0,
                                        restriping := none, curSlot := none }
  let t2 := ((held.map TxFlit.carry).eraseDups).foldl State.loseCarry (t1.loseKept l)
  let t3 := { t2 with wgs := Tab.mapVal (fun _ (w : Workgroup) => { w with courses := Tab.mapVal (fun _ k => Course.loseLink k l) w.courses }) t2.wgs }
  t3.routeAll.closeMarkers

/-- LINK_OFF (R102): a write of LMODE = 0 takes effect at once. -/
def execLinkOff (l : Nat) (s : State) : Host.Outcome State Fault Refusal :=
  let x := s.link l
  .next (if x.state = 0 then s.setLink l { x with lmode := 0 } else (s.setLink l { x with lmode := 0 }).loseLink l 0)

/-- The link is cleared from LINKS in every route entry (R126). -/
def State.unroute (s : State) (l : Nat) : State :=
  { s with routes := (Tab.mapVal (fun _ (e : W32) => e &&& ~~~(BitVec.ofNat 32 (2 ^ l))) s.routes).filter fun e => decide (e.2 ≠ 0) }

/-- LINK_DOWN (R126). -/
def execLinkDown (l : Nat) (s : State) : Host.Outcome State Fault Refusal :=
  let x := s.link l
  .next (if x.dying then (((s.linkEvent l 2 x.groups 0 0 0 0).suspectWave l).unroute l).loseLink l 4 else s)

end Sys2Proof.Machine
end

