-- ==== Sys2Proof/Machine/Peer.lean ====
section
/-! DEFINITION. Remote memory at its target and at its issuer (R100, R108 to R113, R117, R118, R155, R200): requests performed
or forwarded, replies, close markers and summaries, with the reductions of the logic dies (R86). -/

namespace Sys2Proof.Machine

-- ## The target's checks (R96, R108, R200)

/-- An inbound window admits a peer to a page for one of its rights, numbered as its bit (R96); one with a reserved bit set
is invalid. -/
def windowAdmits (w : W64 × W64 × W64) (peer pa right : Nat) : Bool :=
  let b := w.1.toNat
  let m := w.2.1.toNat
  let p := w.2.2.toNat
  bit p 35 && bit p right && decide (bits p 11 0 ≤ peer) && decide (peer ≤ bits p 27 16)
    && decide (bits b 47 16 ≤ pa / 2 ^ 16) && decide (pa / 2 ^ 16 ≤ bits m 47 16)
    && decide (bits b 15 0 = 0) && decide (bits b 63 48 = 0) && decide (bits m 15 0 = 0) && decide (bits m 63 48 = 0)
    && decide (bits p 15 12 = 0) && decide (bits p 31 28 = 0) && decide (bits p 63 36 = 0)

/-- The right that a request needs (R108). -/
def needsRight : ReqKind → Nat
  | .read => 32
  | .write => 33
  | .rmw _ => 34
  | .red _ => 34

/-- A request writes the byte at an address: of a whole slate only the bytes that its mask, in the compare field, names (R159). -/
def writesByte (r : RemoteReq) (a : Nat) : Bool :=
  decide (r.kind ≠ .read) && decide (r.pa ≤ a) && decide (a < r.pa + r.width) && (decide (r.width ≠ 1024) || bit r.cmp (a - r.pa))

/-- The enabled queues whose write-pointer word a request writes to. -/
def State.queuesAt (s : State) (r : RemoteReq) : List Nat :=
  (s.queues.filter fun q => q.2.qen && (List.range 8).any fun k => writesByte r (q.2.wpa.toNat + k)).map Prod.fst

/-- Some entry admits the peer to a queue (R200). -/
def State.queueAdmits (s : State) (peer k : Nat) : Bool :=
  s.acl.any fun e =>
    let w := e.2.1.toNat
    bit w 32 && decide (bits w 15 12 = 0) && decide (bits w 31 28 = 0) && decide (bits w 63 36 = 0)
      && decide (bits w 11 0 ≤ peer) && decide (peer ≤ bits w 27 16) && bit e.2.2.toNat k

/-- The status of the target's checks: OUTSIDE, DENIED, or OK. -/
def State.admission (s : State) (r : RemoteReq) : Nat :=
  if !inStack (r.pa + r.width - 1) then 2
  else if !(s.windows.any fun w => windowAdmits w.2 r.issuer r.pa (needsRight r.kind)) then 3
  else if !((s.queuesAt r).all fun k => s.queueAdmits r.issuer k) then 3
  else 0

-- ## Performing a request (R70, R88, R113, R118)

/-- A batch's record changed, or begun. -/
def State.noteBatch (s : State) (issuer key batch : Nat) (f : InBatch → InBatch) : State :=
  let same := fun (b : InBatch) => decide (b.issuer = issuer) && decide (b.key = key) && decide (b.batch = batch)
  if s.inb.any same then { s with inb := s.inb.map fun b => if same b then f b else b }
  else { s with inb := s.inb ++ [f ⟨issuer, key, batch, 0, 0, 0, 0⟩] }

/-- A store of a batch failed here: bit k of the error word stands for the numbers that are k modulo 32 (R118). -/
def State.batchError (s : State) (r : RemoteReq) : State :=
  s.noteBatch r.issuer r.key r.batch fun b => { b with errors := b.errors ||| 2 ^ (r.seqno % 32) }

/-- The bytes of a write; a write of a whole slate carries the mask of its written bytes in the compare field (R159). -/
def State.remoteWrite (s : State) (r : RemoteReq) : State :=
  if r.width = 1024 then
    let bytes : Tab Byte := ((List.range 1024).filter fun k => bit r.cmp k).map fun k =>
      (k, BitVec.ofNat 8 (r.data / 2 ^ (8 * k)))
    (runsOf bytes).foldl (fun t x => t.write (r.pa + x.1) x.2) (s.settle (slateOf r.pa))
  else s.homeWrite r.pa (bytesOf r.width r.data)

/-- An event of poison met by a peer's request (R127). -/
def State.remotePoison (s : State) (l pa : Nat) : State :=
  let x := s.link l
  s.linkEvent l 7 x.groups x.groups 0 0 pa

/-- The poisoned 32-byte row lines of a range, counted from its start. -/
def State.badRows (s : State) (pa n : Nat) : List Nat :=
  (List.range ((n + 31) / 32)).filter fun q => s.rangePoisoned (pa + 32 * q) (min 32 (n - 32 * q))

/-- What goes back for a read that meets poison (R91): nothing, but for a whole slate, which several lanes may read, its bytes with
its poisoned row lines marked above them (log entry 93). -/
def State.poisonedReply (s : State) (r : RemoteReq) : Nat :=
  if r.width = 1024 ∧ r.kind = .read then
    s.read r.pa 1024 + 2 ^ 8192 * (s.badRows r.pa 1024).foldl (fun n q => n ||| 2 ^ q) 0
  else 0

/-- A request that passed the checks is performed: the state after it, its status and the value that goes back. A read fills its
slate at home, poisoned or not (R71). -/
def State.performRequest (s : State) (l : Nat) (r : RemoteReq) : State × Nat × Nat :=
  let t := s.settleRange r.pa r.width
  match r.kind with
  | .read =>
    let x := t.homeRead r.pa r.width
    match t.badRows r.pa r.width with
    | q :: _ => (x.1.remotePoison l (r.pa + 32 * q), 4, t.poisonedReply r)
    | [] => (x.1, 0, x.2)
  | .write => ((t.remoteWrite r).attribute1 t r.issuer, 0, 0)
  | .rmw op =>
    if t.rangePoisoned r.pa r.width then ((t.homeRead r.pa r.width).1.remotePoison l r.pa, 4, 0)
    else
      let x := t.homeRmw r.pa op r.rm r.ftz r.data r.cmp
      (x.1.attribute1 t r.issuer, 0, x.2)
  | .red op =>
    ((s.noteBatch r.issuer r.key r.batch fun b => { b with pendRed := b.pendRed + 1 }).sendRed
      ⟨r.pa, op, r.rm, r.ftz, r.data, some (r.issuer, r.key, r.batch, r.seqno)⟩, 0, 0)

/-- The accesses of a request that are checked, performed and reported on their own: the 16-byte units of a copy's (R422). -/
def unitRequests (r : RemoteReq) : List RemoteReq :=
  if r.units ≤ 1 then [r]
  else (List.range r.units).map fun k =>
    { r with pa := r.pa + 16 * k, width := 16, data := r.data / 2 ^ (128 * k) % 2 ^ 128, seqno := r.seqno + k }

/-- A store's unit at its target: performed, or in its batch's error word (R108, R118). -/
def State.storeUnit (s : State) (l : Nat) (r : RemoteReq) : State :=
  if s.admission r ≠ 0 then s.batchError r
  else
    let x := s.performRequest l r
    if x.2.1 = 0 then x.1 else x.1.batchError r

/-- Payload bytes of a request. -/
def requestPayload (r : RemoteReq) : Nat := if r.kind = .read then 0 else r.width

/-- A request for another module is forwarded once, on this module's own route, where its entry relays no further (R100). -/
def State.forward (s : State) (r : RemoteReq) : State :=
  let e := (Tab.get 0 s.routes r.dest).toNat
  if r.relayed ∨ routeRelay e ∨ routeHold e ∨ routeLinks e = [] then s.replyTo r 1 0 0
  else s.sendBack clsRequest r.dest (requestPayload r) (.relay { r with relayed := true })

/-- REMOTE_REQUEST (R108): checked, performed and answered at its target; at any other module forwarded. -/
def execRemoteRequest (l : Nat) (r : RemoteReq) (s : State) : Host.Outcome State Fault Refusal :=
  .next (
    if r.dest ≠ s.ownPeer.toNat then s.forward r
    else if !r.kind.returns then (unitRequests r).foldl (fun t q => t.storeUnit l q) s
    else if s.admission r ≠ 0 then s.replyTo r (s.admission r) 0 0
    else
      let x := s.performRequest l r
      x.1.replyTo r x.2.1 (if x.2.1 = 0 ∨ x.2.2 ≠ 0 then r.width else 0) x.2.2)

/-- REDUCTION_APPLY (R86): the oldest reduction at the logic dies is applied and acknowledged. -/
def execReductionApply (s : State) : Host.Outcome State Fault Refusal :=
  match s.reds with
  | [] => .next s
  | r :: rest => .next ({ s with reds := rest }.applyRed r)

-- ## Replies (R110, R112, R113)

/-- A fetched slate is held in its set, in place of an older copy of it (R69, R110). -/
def State.installCopy (s : State) (c : RCopy) : State :=
  let t : State := { s with copies := s.copies.filter fun x => !(decide (x.peer = c.peer) && decide (x.slate = c.slate)) }
  match t.makeRoom (some c.peer) c.slate with
  | some u => { u with copies := u.copies ++ [c] }
  | none => t

/-- The bytes that an acquire has read at their home take the place of a held copy's, which stays (R110), so that no later read of
the course finds an older value there (R158, log entry 94). -/
def State.refreshCopy (s : State) (peer pa : Nat) (bs : List Byte) : State :=
  { s with copies := s.copies.map fun c =>
      if c.peer = peer ∧ c.slate = slateOf pa then { c with data := overlay c.data (pa % 1024 : Nat) bs } else c }

/-- The request comes from an instruction's flight. -/
def State.ofFlight (s : State) (r : Req) : Bool := (s.crs r.uid r.crs).flights.any fun f => decide (f.id = r.flight)

/-- What a reply brings to the lane that asked: of a fetched slate its own bytes, poisoned where their row lines are; an engine
command takes a slate with its marks (log entry 93). -/
def State.takeReply (s : State) (r : Req) (data : Nat) : State :=
  let t : State := { s with reqs := s.reqs.filter fun x => x.tag ≠ r.tag }
  if r.req.width = 1024 ∧ s.ofFlight r then
    let sp := s.laneSpan r
    let bad := (List.range 32).any fun q => bit (data / 2 ^ 8192) q && decide (sp.1 / 32 ≤ q) && decide (q ≤ (sp.1 + sp.2 - 1) / 32)
    if bad then s.failReq r.tag 4 else t.answerReq r (s.laneValue r data)
  else t.answerReq r data

/-- REMOTE_REPLY (R113): a reply of this module's request fills its lane, or marks it failed; one whose request is over is
discarded; one for another module goes on by the route to its issuer, with all its bytes of payload (R100). -/
def execRemoteReply (issuer tag status : Nat) (d : ReplyData) (s : State) : Host.Outcome State Fault Refusal :=
  let data := d.bytes
  .next (
    if issuer ≠ s.ownPeer.toNat then s.sendBack clsReply issuer d.size (.reply issuer tag status data)
    else match s.reqs.find? fun r => decide (r.tag = tag) with
      | none => s
      | some r =>
        if status = 4 ∧ r.req.width = 1024 ∧ d.size = 1024 then s.takeReply r data
        else if status ≠ 0 then s.failReq tag status
        else if !r.req.kind.returns then s
        else if r.req.width ≠ 1024 then
          (if s.readsCopy r then s.refreshCopy r.req.dest r.req.pa (bytesOf r.req.width data) else s).takeReply r data
        else (if r.keep then s.installCopy ⟨r.req.dest, r.req.pa / 1024, bytesOf 1024 data⟩ else s).takeReply r (data % 2 ^ 8192))

/-- REQUEST_TIMEOUT (R112): a load or an atomic without a reply for 4 ms completes with TIMEOUT. -/
def execRequestTimeout (tag : Nat) (s : State) : Host.Outcome State Fault Refusal :=
  match s.reqs.find? fun r => decide (r.tag = tag) with
  | some r => .next (if r.req.kind.returns ∧ r.formed + requestTime ≤ s.dtime then s.failReq tag 6 else s)
  | none => .next s

-- ## Markers and summaries (R117, R118)

/-- CLOSE_MARKER (R118): a marker of a batch reaches its target, or is forwarded unchanged. The batch's number tells each closing from
the others of its tag, so that what an earlier one has left here counts for none (log entry 82). -/
def execCloseMarker (_l issuer dest key batch links : Nat) (s : State) : Host.Outcome State Fault Refusal :=
  .next (if dest ≠ s.ownPeer.toNat then s.sendBack clsRequest dest 0 (.relayMarker issuer key batch links)
    else s.noteBatch issuer key batch fun b => { b with expects := links, marked := b.marked + 1 })

/-- Every marker of a batch is in, and its stores are performed or have failed. -/
def InBatch.ready (b : InBatch) : Bool := decide (0 < b.expects) && decide (b.expects ≤ b.marked) && decide (b.pendRed = 0)

/-- SUMMARY_SEND (R118). -/
def execSummarySend (issuer key batch : Nat) (s : State) : Host.Outcome State Fault Refusal :=
  let same := fun (b : InBatch) => decide (b.issuer = issuer) && decide (b.key = key) && decide (b.batch = batch)
  match s.inb.find? same with
  | some b =>
    .next (if b.ready then
      { s with inb := s.inb.filter fun x => !same x }.sendBack clsReply issuer 4 (.summary issuer key batch s.ownPeer.toNat b.errors)
    else s)
  | none => .next s

/-- A summary taken by a CLOSEB whose markers are out, once a peer. -/
def FlightKind.summed (batch peer errors : Nat) : FlightKind → FlightKind
  | .closeb bt ps sn got er (some t) =>
    if bt = batch ∧ ps.contains peer ∧ !(got.any fun (g : Nat × Nat) => decide (g.1 = peer)) then
      .closeb bt ps sn (got ++ [(peer, errors % 2 ^ 32)]) er (some t)
    else .closeb bt ps sn got er (some t)
  | k => k

/-- SUMMARY_REPLY (R117): a summary arrives at the issuer, or is forwarded unchanged. -/
def execSummaryReply (issuer key batch peer errors : Nat) (s : State) : Host.Outcome State Fault Refusal :=
  .next (if issuer ≠ s.ownPeer.toNat then s.sendBack clsReply issuer 4 (.summary issuer key batch peer errors)
    else
      let k := s.crs (key / 32) (key % 32)
      if k.flights.isEmpty then s
      else s.setCrs (key / 32) (key % 32)
        { k with flights := k.flights.map fun f => { f with kind := f.kind.summed batch peer errors } })

/-- The CLOSEB of a course and batch whose time has run out; the port looks after its own (R412). -/
def State.lateClose (s : State) (u c batch : Nat) : Option Flight :=
  if u = hostUid then none else (s.crs u c).flights.find? fun f => match f.kind with
    | .closeb bt _ _ _ _ (some t) => decide (bt = batch) && s.closeLate t
    | _ => false

/-- CLOSEB_TIMEOUT (R117): 4 ms after the last marker the CLOSEB completes; a missing summary counts as all ones. -/
def execClosebTimeout (key batch : Nat) (s : State) : Host.Outcome State Fault Refusal :=
  match s.lateClose (key / 32) (key % 32) batch with
  | some f => .next (landFlight s (key / 32) (key % 32) f)
  | none => .next s

end Sys2Proof.Machine
end

