-- ==== Sys2Proof/Machine/Net.lean ====
section
/-! DEFINITION. The latency class's reservations (R208 to R210), Ethernet ingress and egress (R414 to R416), and the clock of
a die that is too hot (R420). -/

namespace Sys2Proof.Machine

-- ## Reservations (R208, R209)

/-- A reservation entry. -/
def State.resvAt (s : State) (i : Nat) : Resv := Tab.get .reset s.resv i

/-- Reserved bits of an entry's words are set, or LNC is out of its range (R208, R209). -/
def Resv.bad (e : Resv) : Bool :=
  let w := e.w0.toNat
  decide (bits w 7 1 ≠ 0) || decide (bits w 63 48 ≠ 0) || decide (bits e.w1.toNat 63 10 ≠ 0)
    || decide (bits e.w2.toNat 63 24 ≠ 0) || decide (e.w1.toNat = 0) || decide (576 < e.w1.toNat)

/-- The cores that an entry may hold: in its clusters, held by no other entry, in service. -/
def State.reservable (s : State) (i : Nat) (e : Resv) : List Nat :=
  (List.range 576).filter fun k =>
    (decide (e.w2 = 0) || bit e.w2.toNat (k / 24)) && !(s.core k).retired && !(s.core k).testing
      && s.resv.all fun x => decide (x.1 = i) || !x.2.held.contains k

/-- The workgroups of some cores that are not of the entry. -/
def State.strangers (s : State) (i : Nat) (cores : List Nat) : List Nat :=
  (s.wgs.filter fun w => decide (w.2.status = .resident) && cores.contains w.2.core
    && !((s.grid w.2.gid).launch.lc && decide (s.latEntry (s.grid w.2.gid).chain = some i))).map Prod.fst

/-- LREADY: every reserved core, or the one held to replace it, is not under test, and is free of other work (R208, R410). -/
def State.lready (s : State) (i : Nat) : Bool :=
  let e := s.resvAt i
  let standing := e.cores.map fun k => ((e.standIn.find? fun x => decide (x.1 = k)).map Prod.snd).getD k
  bit e.w0.toNat 0 && decide (e.cores.length = e.w1.toNat) && standing.all (fun k => !(s.core k).testing && !(s.core k).retired)
    && (s.strangers i standing).isEmpty

/-- A write of LV = 1 with the entry's first word (R209): the cores are chosen and their workgroups made to leave, or the
write is refused. -/
def State.reserve (s : State) (i : Nat) (w0 : W64) : State :=
  let e := { s.resvAt i with w0 := w0 }
  let able := s.reservable i e
  let n := e.w1.toNat
  match s.chainAt (bits w0.toNat 47 8 * 2 ^ 8) with
  | none => s
  | some c =>
    if bit (s.resvAt i).w0.toNat 0 || e.bad || !c.lat || decide (able.length < n) then s
    else
      let cores := takeAround able n (Config.choice s.steps)
      let t : State := { s with resv := Tab.set s.resv i { e with cores := cores, standIn := [] } }
      (t.strangers i cores).foldl State.askLeave t

/-- RESERVATION_VALID (R209): LV of an entry is written to 1. -/
def execReservationValid (i : Nat) (s : State) : Host.Outcome State Fault Refusal :=
  .next (s.reserve i ((s.resvAt i).w0 ||| 1))

/-- A live grid belongs to an entry (R210). -/
def State.entryLive (s : State) (i : Nat) : Bool :=
  s.grids.any fun g => g.2.launch.lc && decide (s.latEntry g.2.chain = some i)

/-- RESERVATION_RELEASE (R209): LV is written to 0. -/
def execReservationRelease (i : Nat) (s : State) : Host.Outcome State Fault Refusal :=
  let e := s.resvAt i
  .next (if s.entryLive i then s
    else { s with resv := Tab.set s.resv i { e with w0 := e.w0 &&& ~~~1, cores := [], standIn := [] } })

-- ## Frames (R414)

/-- Big-endian value of some bytes of a frame (IEEE 802.3 sends the most significant byte first; log entry 34). -/
def frameField (f : List Byte) (off n : Nat) : Nat := ((f.drop off).take n).foldl (fun a b => a * 256 + b.toNat) 0

/-- A frame carries one IEEE 802.1Q tag. -/
def frameTagged (f : List Byte) : Bool := decide (frameField f 12 2 = 0x8100)

/-- Where what follows the EtherType begins. -/
def frameBody (f : List Byte) : Nat := if frameTagged f then 18 else 14

/-- The EtherType, after an optional tag. -/
def frameType (f : List Byte) : Nat := frameField f (frameBody f - 2) 2

/-- The next-header values that name an IPv6 extension header. -/
def v6Extension : List Nat := [0, 43, 44, 50, 51, 60, 135, 139, 140]

/-- The IP fields of a frame: source, destination, protocol, and where the transport header begins; none where an IP
field cannot match (R414). -/
def frameIp (f : List Byte) : Option (Nat × Nat × Nat × Nat) :=
  let o := frameBody f
  if frameType f = 0x0800 ∧ frameField f o 1 = 0x45 ∧ o + 20 ≤ f.length then
    some (frameField f (o + 12) 4, frameField f (o + 16) 4, frameField f (o + 9) 1, o + 20)
  else if frameType f = 0x86DD ∧ frameField f o 1 / 16 = 6 ∧ o + 40 ≤ f.length ∧ !v6Extension.contains (frameField f (o + 6) 1) then
    some (frameField f (o + 8) 16, frameField f (o + 24) 16, frameField f (o + 6) 1, o + 40)
  else none

/-- A word of a rule. -/
def Rule.word (r : Rule) (k : Nat) : Nat := (Tab.get 0 r.words k).toNat

/-- A valid rule matches a frame on a port (R414). -/
def Rule.hits (r : Rule) (port : Nat) (f : List Byte) : Bool :=
  let w := r.word 1
  let on := fun (b : Nat) (p : Bool) => !bit w b || p
  let ip := fun (p : Nat × Nat × Nat × Nat → Bool) => match frameIp f with | some x => p x | none => false
  let udp := fun (off v : Nat) => ip fun x => decide (x.2.2.1 = 17) && decide (x.2.2.2 + 4 ≤ f.length)
    && decide (frameField f (x.2.2.2 + off) 2 = v)
  bit w 7 && bit w (8 + port) && on 0 (decide (frameField f 0 6 = bits (r.word 0) 47 0))
    && on 1 (decide (frameType f = bits (r.word 0) 63 48)) && on 2 (ip fun x => decide (x.1 = r.word 2 + r.word 3 * 2 ^ 64))
    && on 3 (ip fun x => decide (x.2.1 = r.word 4 + r.word 5 * 2 ^ 64)) && on 4 (ip fun x => decide (x.2.2.1 = bits w 23 16))
    && on 5 (udp 0 (bits w 39 24)) && on 6 (udp 2 (bits w 55 40))

-- ## Rings (R415, R416)

/-- The reservation entry, core index, base, slot size, and slot count of a ring word (R414). -/
def ringEntry (w : Nat) : Nat := bits w 3 0
/-- LCORE. -/
def ringCore (w : Nat) : Nat := bits w 13 4
/-- LBASE. -/
def ringBase (w : Nat) : Nat := bits w 41 16
/-- The slot size in bytes. -/
def ringSlot (w : Nat) : Nat := 2 ^ bits w 45 42
/-- The number of slots. -/
def ringCount (w : Nat) : Nat := bits w 53 46 + 1

/-- The ring holder (R415): of the workgroups on the core that belong to a grid of the entry, the one placed or restored
earliest. -/
def State.ringHolder (s : State) (w : Nat) : Option Nat :=
  match (s.resvAt (ringEntry w)).cores[ringCore w]? with
  | none => none
  | some k =>
    let here := s.wgs.filter fun e => decide (e.2.status = .resident) && decide (e.2.core = k)
      && (s.grid e.2.gid).launch.lc && decide (s.latEntry (s.grid e.2.gid).chain = some (ringEntry w))
    (here.foldl (fun (b : Option (Nat × Workgroup)) e => match b with
      | some x => if e.2.placed < x.2.placed then some e else some x
      | none => some e) none).map Prod.fst

/-- A workgroup's scratchpad covers a ring of slots of 64 bytes to 16 KiB. -/
def State.ringFits (s : State) (u w : Nat) : Bool :=
  decide (6 ≤ bits w 45 42) && decide (bits w 45 42 ≤ 14)
    && decide (ringBase w + ringCount w * ringSlot w ≤ (s.grid (s.wg u).gid).launch.spg * 0x4000)

/-- A frame in a slot: header, frame, zeros (R415). -/
def slotBytes (size : Nat) (header frame : List Byte) : List Byte :=
  (List.range size).map fun k => if k < 32 then header.getD k 0 else frame.getD (k - 32) 0

/-- The frame is dropped. -/
def State.dropFrame (s : State) (i : Nat) (r : Rule) : State :=
  { s with rules := Tab.set s.rules i { r with drops := r.drops + 1, seqn := r.seqn + 1 } }

/-- A frame received at a device time lands, is dropped, is discarded where no rule matches, or waits for a frozen core:
the lowest valid rule that matches takes it, into the slot under its ring index if granule 0 of that slot is empty. -/
def State.landFrame (s : State) (port : Nat) (frame : List Byte) (time : Nat) : State :=
  match s.rules.find? fun (e : Nat × Rule) => e.2.hits port frame with
  | none => s
  | some (i, r0) =>
    let w := r0.word 6
    let h := s.ringHolder w
    let r := if h = r0.holder then r0 else { r0 with holder := h, ringK := 0 }
    match h with
      | none => s.dropFrame i r
      | some u =>
        let at1 := ringBase w + r.ringK * ringSlot w
        if !s.ringFits u w then s.dropFrame i r
        else if (s.core (s.wg u).core).frozen then { s with frames := s.frames ++ [(port, frame, time)] }
        else if (s.wg u).full (at1 / 16) then s.dropFrame i r
        else
          let flags := port % 2 + ofBool (decide (ringSlot w < 32 + frame.length)) * 2 + ofBool (frameTagged frame) * 4
          let header := bytesOf 2 frame.length ++ bytesOf 1 i ++ bytesOf 1 flags ++ bytesOf 4 r.seqn.toNat
            ++ bytesOf 8 (time / 2 ^ 16) ++ bytesOf 2 (time % 2 ^ 16)
          let x := ((s.wg u).write at1 (slotBytes (ringSlot w) header frame)).mark (unitsOf 16 at1 (ringSlot w)) true
          { s.setWg u x with
            rules := Tab.set s.rules i { r with ringK := (r.ringK + 1) % ringCount w, seqn := r.seqn + 1 } }

/-- The frames that waited for a frozen core look for their places again, in the order in which they came (R128, R406). -/
def State.landWaiting (s : State) : State :=
  s.frames.foldl (fun t f => t.landFrame f.1 f.2.1 f.2.2) { s with frames := [] }

/-- FRAME_RECEIVE (R414, R415): a frame with a bad FCS is discarded; another lands behind those that wait. -/
def execFrameReceive (port : Nat) (frame : List Byte) (fcsOk : Bool) (s : State) : Host.Outcome State Fault Refusal :=
  .next (if fcsOk ∧ frame.length ≤ 9216 then s.landWaiting.landFrame port frame s.dtime else s)

/-- Reserved bits of a rule's second word and ring word. -/
def Rule.bad (r : Rule) (word : W64) : Bool :=
  decide (bits word.toNat 15 10 ≠ 0) || decide (bits word.toNat 63 56 ≠ 0) || decide (bits (r.word 6) 15 14 ≠ 0)
    || decide (bits (r.word 6) 63 54 ≠ 0)

/-- INGRESS_RULE_WRITE (R414): the word with RV is written; RV = 1 resets the ring index and SEQ, and is refused with a
reserved bit set. -/
def execIngressRuleWrite (i : Nat) (word : W64) (s : State) : Host.Outcome State Fault Refusal :=
  let r := Tab.get .reset s.rules i
  .next (if r.bad word then s
    else
      let t := { r with words := Tab.put 0 r.words 1 word }
      { s with rules := Tab.set s.rules i (if bit word.toNat 7 then { t with ringK := 0, seqn := 0 } else t) })

/-- An egress entry after a look at its ring: whose it is, and which slots have been empty (R416). -/
def State.lookEgress (s : State) (e : Egress) : Egress :=
  let w := e.ring.toNat
  let h := if bit e.ctl.toNat 7 then s.ringHolder w else none
  let e1 := if h = e.holder then e else { e with holder := h, ringK := 0, primed := [] }
  match h with
  | some u =>
    { e1 with primed := (List.range (ringCount w)).filter fun k =>
        e1.primed.contains k || !(s.wg u).full ((ringBase w + k * ringSlot w) / 16) }
  | none => e1

/-- Every egress entry looks at its ring: asked after each step. -/
def State.lookAll (s : State) : State := { s with egress := Tab.mapVal (fun _ e => s.lookEgress e) s.egress }

/-- The slot of a workgroup's ring at an address holds a frame that can be sent: of a frame's length, inside the slot, and with no
poisoned byte in its descriptor or frame, since poisoned bytes are nobody's ordinary data (R90, R416, log entry 98). -/
def Workgroup.slotSound (x : Workgroup) (at1 size : Nat) : Bool :=
  let len := x.read at1 2
  decide (60 ≤ len) && decide (len ≤ 9216) && decide (16 + len ≤ size) && !x.rangePoisoned at1 (16 + len)

/-- The slot that an egress entry takes next: the workgroup and the address, where granule 0 has turned full and the core is not
frozen, under whose QUIET the scratchpad is stable (R406, R416). -/
def State.egressSlot (s : State) (e : Egress) : Option (Nat × Nat) :=
  let w := e.ring.toNat
  let at1 := ringBase w + e.ringK * ringSlot w
  match e.holder with
  | some u =>
    if s.ringFits u w && e.primed.contains e.ringK && (s.wg u).full (at1 / 16) && !(s.core (s.wg u).core).frozen then some (u, at1) else none
  | none => none

/-- EGRESS_TRANSMIT (R416): the slot under the ring index, once its granule 0 has turned full, is sent with the FCS that the device
appends, and its granule 0 turns empty; a slot that holds no frame that can be sent is discarded with a record. -/
def execEgressTransmit (i : Nat) (s : State) : Host.Outcome State Fault Refusal :=
  let e := s.lookEgress (Tab.get .reset s.egress i)
  match s.egressSlot e with
  | none => .next s
  | some (u, at1) =>
    let x := s.wg u
    let next1 : Egress := { e with ringK := (e.ringK + 1) % ringCount e.ring.toNat }
    .next (if x.slotSound at1 (ringSlot e.ring.toNat) then
      let y := if bit (x.read (at1 + 3) 1) 0 then x.write (at1 + 4) s.timeBytes else x
      let frame := (List.range (x.read at1 2)).map fun k => x.byte (at1 + 16 + k)
      { s.setWg u (y.mark [at1 / 16] false) with
        egress := Tab.set s.egress i next1
        txFrame := some (x.read (at1 + 2) 1, frame ++ bytesOf 4 (crc32 frame)) }
    else ({ s.setWg u (x.mark [at1 / 16] false) with egress := Tab.set s.egress i next1 }).openEvent (dieOf x.core))

-- ## Power (R420)

/-- THERMAL_HOLD (R420): the die's core clock is held, and a class 5 record posted. -/
def execThermalHold (die : Nat) (s : State) : Host.Outcome State Fault Refusal :=
  .next ((s.setDie die { s.die die with clockHeld := true }).openEvent die)

/-- THERMAL_RESUME (R420). -/
def execThermalResume (die : Nat) (s : State) : Host.Outcome State Fault Refusal :=
  .next (s.setDie die { s.die die with clockHeld := false })

end Sys2Proof.Machine
end

