-- ==== Sys2Proof/Machine/Eaves.lean ====
section
/-! DEFINITION. The eave cluster (R387 to R395): the monitor's CSRs, episode windows, the step mailboxes' ports, the step
watchdog and the scrub. The traps of a hart and its physical memory protection are those of the RISC-V privileged
architecture that R387 names (log entry 35). -/

namespace Sys2Proof

/-- What a load puts into its register: extended as it says, a word into the upper half of a register of floating point with ones above
it; an LR or an AMO of a word is extended with its sign. -/
def HartAcc.loaded (a : HartAcc) (v : Nat) : Nat :=
  match a.kind with
  | .load =>
    if a.fp then (if a.size = 4 then v + (2 ^ 32 - 1) * 2 ^ 32 else v)
    else if a.sext then wrap 64 (signed (8 * a.size) v) else v
  | .sc => v
  | _ => if a.size = 4 then wrap 64 (signed 32 v) else v

/-- The access writes its register. -/
def EpiKind.loads : EpiKind → Bool
  | .store => false
  | .fetch => false
  | _ => true

end Sys2Proof

namespace Sys2Proof.Machine

-- ## Operations that wait in order (R166, R389, R393)

/-- The agent that makes an operation, of those whose operations are performed in the order in which they come: the Umhal port, an
eave core, the management core. -/
def agentOf : Instr → Option Nat
  | .physicalRead _ _ => some 0
  | .physicalWrite _ _ _ => some 0
  | .virtualRead _ _ _ => some 0
  | .virtualWrite _ _ _ _ => some 0
  | .managementMailbox _ _ _ => some 0
  | .episodeWindowAccess c _ _ _ _ _ => some (1 + c)
  | .episodeCsrWrite c _ _ => some (1 + c)
  | .take c _ _ => some (1 + c)
  | .post c _ => some (1 + c)
  | .managementCoreAccess _ _ _ _ _ => some 17
  | _ => none

/-- An operation of an agent waits. -/
def State.holdsBack (s : State) (a : Nat) : Bool := s.held.any fun i => decide (agentOf i = some a)

/-- An operation waits: one that was tried again in its old place, another behind all that wait. -/
def State.hold (s : State) (i : Instr) : State :=
  if s.retry then { s with held := i :: s.held, retry := false } else { s with held := s.held ++ [i] }

/-- An operation of an agent is performed in its turn: behind an earlier one that waits, it waits too (R166). -/
def State.inTurn (s : State) (i : Instr) (t : State) : State :=
  match agentOf i with
  | some a => if !s.retry && s.holdsBack a then s.hold i else t
  | none => t

/-- The operations that are to be tried again: of each agent the oldest that waits, with the others that then wait. -/
def State.retries (s : State) : List (Instr × List Instr) :=
  (List.range 18).filterMap fun a =>
    (s.held.find? fun i => decide (agentOf i = some a)).map fun i => (i, s.held.erase i)

-- ## A hart (R387)

/-- The hart of a number: 0 to 15 the eave cores, 16 the management core. -/
def State.hart (s : State) (h : Nat) : Eave := if h = 16 then s.mgmt else s.eave h
/-- Replaces a hart. -/
def State.setHart (s : State) (h : Nat) (e : Eave) : State := if h = 16 then { s with mgmt := e } else s.setEave h e

/-- A standard machine-level CSR. -/
def Eave.csrAt (e : Eave) (n : Nat) : Nat := (Tab.get 0 e.csr n).toNat
/-- Writes it. -/
def Eave.setCsr (e : Eave) (n v : Nat) : Eave := { e with csr := Tab.put 0 e.csr n (BitVec.ofNat 64 v) }
/-- An integer register; x0 is zero. -/
def Eave.reg (e : Eave) (n : Nat) : Nat := if n = 0 then 0 else (Tab.get 0 e.x n).toNat
/-- Writes an integer register; x0 stays zero. -/
def Eave.setReg (e : Eave) (n : Nat) (v : Nat) : Eave :=
  if n = 0 then e else { e with x := Tab.put 0 e.x n (BitVec.ofNat 64 v) }
/-- Writes a register of floating point. -/
def Eave.setF (e : Eave) (n v : Nat) : Eave := { e with f := Tab.put 0 e.f n (BitVec.ofNat 64 v) }
/-- The program counter moves past an instruction of `n` bytes. -/
def Eave.pass (e : Eave) (n : Nat) : Eave := { e with pc := e.pc + BitVec.ofNat 64 n }

/-- CSR numbers of the trap registers: mstatus, mtvec, mepc, mcause, mtval. -/
def csrMstatus : Nat := 0x300
/-- mtvec. -/
def csrMtvec : Nat := 0x305
/-- mepc. -/
def csrMepc : Nat := 0x341
/-- mcause. -/
def csrMcause : Nat := 0x342
/-- mtval. -/
def csrMtval : Nat := 0x343
/-- mip. -/
def csrMip : Nat := 0x344

/-- The hart takes a trap into M mode: mepc, mcause, mtval, mstatus with the old mode and interrupt enable, and the
program counter from mtvec. -/
def Eave.trap (e : Eave) (cause tval : Nat) : Eave :=
  let st := e.csrAt csrMstatus
  let st1 := st - bits st 12 11 * 2 ^ 11 - ofBool (bit st 7) * 2 ^ 7 - ofBool (bit st 3) * 2 ^ 3
    + (if e.umode then 0 else 3) * 2 ^ 11 + ofBool (bit st 3) * 2 ^ 7
  let tv := e.csrAt csrMtvec
  let off := if tv % 4 = 1 ∧ bit cause 63 then 4 * (cause % 2 ^ 63) else 0
  let k := (((e.setCsr csrMstatus st1).setCsr csrMepc e.pc.toNat).setCsr csrMcause cause).setCsr csrMtval tval
  { k with umode := false, pc := BitVec.ofNat 64 (tv / 4 * 4 + off) }

/-- Causes of the access faults, by kind. -/
def accessFault : EpiKind → Nat
  | .fetch => 1
  | .load => 5
  | .lr => 5
  | _ => 7
/-- Causes of the misaligned accesses. -/
def misaligned : EpiKind → Nat
  | .fetch => 0
  | .load => 4
  | .lr => 4
  | _ => 6

/-- A trap of a hart. -/
def State.eaveTrap (s : State) (h cause tval : Nat) : State := s.setHart h ((s.hart h).trap cause tval)

/-- What an access of a hart comes to: it is made, with what it reads; it traps; or it waits. -/
inductive HartRes where
  | made (t : State) (v : Nat)
  | trap (t : State) (cause tval : Nat)
  | wait (t : State)
deriving DecidableEq, Repr

-- ## Physical memory protection (R387)

/-- A PMP entry's configuration byte. -/
def Eave.pmpCfg (e : Eave) (i : Nat) : Nat := e.csrAt (0x3A0 + i / 8 * 2) / 2 ^ (8 * (i % 8)) % 256
/-- A PMP entry's address register. -/
def Eave.pmpAddr (e : Eave) (i : Nat) : Nat := e.csrAt (0x3B0 + i)

/-- Trailing ones of a number. -/
def trailingOnes (n fuel : Nat) : Nat := match fuel with | 0 => 0 | f + 1 => if n % 2 = 1 then 1 + trailingOnes (n / 2) f else 0

/-- The range of a PMP entry: first address and the one after the last. -/
def Eave.pmpRange (e : Eave) (i : Nat) : Nat × Nat :=
  let a := e.pmpAddr i
  match bits (e.pmpCfg i) 4 3 with
  | 1 => ((if i = 0 then 0 else e.pmpAddr (i - 1)) * 4, a * 4)
  | 2 => (a * 4, a * 4 + 4)
  | 3 =>
    let k := trailingOnes a 54
    (a / 2 ^ (k + 1) * 2 ^ (k + 1) * 4, (a / 2 ^ (k + 1) + 1) * 2 ^ (k + 1) * 4)
  | _ => (0, 0)

/-- The permissions that an access needs: an AMO both (R165). -/
def pmpNeeds : EpiKind → List Nat
  | .load => [0]
  | .lr => [0]
  | .store => [1]
  | .sc => [1]
  | .amo _ => [0, 1]
  | .fetch => [2]

/-- The lowest entry that matches any byte of an access decides it: it must match all, and give the permission, to U mode always and to
M mode where it is locked. Where no entry matches, M mode may. -/
def Eave.allows (e : Eave) (user : Bool) (addr n : Nat) (k : EpiKind) : Bool :=
  match (List.range 16).find? fun i => let r := e.pmpRange i; decide (addr < r.2) && decide (r.1 < addr + n) with
  | some i =>
    let r := e.pmpRange i
    decide (r.1 ≤ addr) && decide (addr + n ≤ r.2)
      && (!(user || bit (e.pmpCfg i) 7) || (pmpNeeds k).all fun b => bit (e.pmpCfg i) b)
  | none => !user

/-- U mode may make an access. -/
def Eave.pmpAllows (e : Eave) (addr n : Nat) (k : EpiKind) : Bool := e.allows true addr n k

/-- U mode has some access to a byte of private SRAM. -/
def Eave.granted (e : Eave) (a : Nat) : Bool := e.pmpAllows a 1 .load || e.pmpAllows a 1 .store || e.pmpAllows a 1 .fetch

-- ## Observations (R392 to R394)

/-- A mailbox is bound to a core's episode. -/
def State.boundTo (s : State) (core m : Nat) : Bool := s.bound m && decide ((s.mbox m).core = core)

/-- An observation in answer to the action last taken: bytes 4 to 11 from it, the kind and the payload given. -/
def Mbox.reply1 (m : Mbox) (kind payload : Nat) : BitVec 512 :=
  stampMessage (BitVec.ofNat 512 (bits m.action.toNat 95 32 * 2 ^ 32 + payload * 2 ^ 128)) m.epi kind

/-- A message joins the observation ring, and goes to whoever waits for it. -/
def State.observe (s : State) (m : Nat) (x : BitVec 512) : State :=
  (s.setMbox m { s.mbox m with obs := (s.mbox m).obs ++ [x] }).feedAll m

/-- The mailboxes bound to a core's episode. -/
def State.mailboxesOf (s : State) (core : Nat) : List Nat := (List.range 256).filter (s.boundTo core)

/-- TAKE on a bound mailbox (R393): 1 and the oldest action, or 0. The watchdog's count starts again (R394). -/
def State.takeAction (s : State) (core m rd : Nat) : State :=
  let x := s.mbox m
  let e := { s.eave core with count := 0 }
  match x.actions with
  | [] => s.setEave core (e.setReg rd 0)
  | a :: r => (s.setMbox m { x with actions := r, action := a, open1 := true }).setEave core (e.setReg rd 1)

/-- POST on a bound mailbox with room for an observation (R393). The monitor sets the kind in M mode. -/
def State.postObservation (s : State) (core m : Nat) : State :=
  let x := s.mbox m
  let e := s.eave core
  let kind := if e.umode then 0 else bits x.compose.toNat 103 96
  ((s.setMbox m { x with open1 := false }).setEave core { e with count := 0 }).observe m
    (x.reply1 kind (x.compose.toNat / 2 ^ 128))

/-- A POST waits while 15 observations are queued: the sixteenth place is the device's (R393). -/
def State.ringFull (s : State) (m : Nat) : Bool := decide (15 ≤ (s.mbox m).obs.length)

/-- Address of a mailbox's port. -/
def portAt (m off : Nat) : Nat := 0x40000000 + 0x100 * m + off

/-- TAKE (R393). -/
def execTake (core m rd : Nat) (s : State) : Host.Outcome State Fault Refusal :=
  .next (s.inTurn (.take core m rd)
    (if s.boundTo core m then s.takeAction core m rd else s.eaveTrap core 5 (portAt m 0x80)))

/-- POST (R393, R395): it waits while the ring is full; one that the end of its episode has overtaken is discarded with it. -/
def execPost (core m : Nat) (s : State) : Host.Outcome State Fault Refusal :=
  .next (s.inTurn (.post core m)
    (if (s.eave core).scrub then s
      else if !s.boundTo core m then s.eaveTrap core 7 (portAt m 0x88)
      else if s.ringFull m then s.hold (.post core m)
      else s.postObservation core m))

-- ## Atomics of a hart (R165)

/-- What an AMO leaves, of `n` bytes, by its funct5 code. -/
def amoNew (op n old v : Nat) : Nat :=
  let w := 8 * n
  match op with
  | 0 => (old + v) % 2 ^ w
  | 1 => v % 2 ^ w
  | 4 => (old ^^^ v) % 2 ^ w
  | 8 => (old ||| v) % 2 ^ w
  | 12 => (old &&& v) % 2 ^ w
  | 16 => if signed w old < signed w v then old else v % 2 ^ w
  | 20 => if signed w old < signed w v then v % 2 ^ w else old
  | 24 => min old (v % 2 ^ w)
  | _ => max old (v % 2 ^ w)

/-- An access of a hart to stack memory, served at its home (R70, R165, R389): poison is met as an access fault, an SC stores where the
reservation of the hart's LR stands, and gives 0, and else gives 1. -/
def State.hartHome (s : State) (h : Nat) (a : HartAcc) (pa : Nat) : HartRes :=
  let t := s.settleRange pa a.size
  let r := t.homeRead pa a.size
  let reads := !t.rangePoisoned pa a.size
  match a.kind with
  | .store => .made (t.homeWrite pa (bytesOf a.size a.value)) 0
  | .sc =>
    if Tab.find s.lrs h = some (pa, a.size) then .made ({ t with lrs := Tab.del t.lrs h }.homeWrite pa (bytesOf a.size a.value)) 0
    else .made { s with lrs := Tab.del s.lrs h } 1
  | .lr => if reads then .made { r.1 with lrs := Tab.set r.1.lrs h (pa, a.size) } r.2 else .trap r.1 (accessFault a.kind) a.addr
  | .amo op =>
    if reads then .made (r.1.homeWrite pa (bytesOf a.size (amoNew op a.size r.2 a.value))) r.2 else .trap r.1 (accessFault a.kind) a.addr
  | _ => if reads then .made r.1 r.2 else .trap r.1 (accessFault a.kind) a.addr

/-- Where a reservation of private SRAM is noted, apart from those of stack memory. -/
def sramPlace (a : Nat) : Nat := 2 ^ 60 + a

/-- Bytes of private SRAM written. -/
def State.sramWrite (s : State) (h addr n v : Nat) : State :=
  s.setHart h { s.hart h with sram := putBytes (s.hart h).sram addr (bytesOf n v) }

/-- An access of a hart to its private SRAM (R387), which is no other agent's. -/
def State.hartSram (s : State) (h : Nat) (a : HartAcc) : HartRes :=
  let old := leBytes ((List.range a.size).map fun k => Tab.get 0 (s.hart h).sram (a.addr + k))
  match a.kind with
  | .store => .made (s.sramWrite h a.addr a.size a.value) 0
  | .sc =>
    let t : State := { s with lrs := Tab.del s.lrs h }
    if Tab.find s.lrs h = some (sramPlace a.addr, a.size) then .made (t.sramWrite h a.addr a.size a.value) 0 else .made t 1
  | .lr => .made { s with lrs := Tab.set s.lrs h (sramPlace a.addr, a.size) } old
  | .amo op => .made (s.sramWrite h a.addr a.size (amoNew op a.size old a.value)) old
  | _ => .made s old

/-- An access of a hart ends: its register is written and the program counter passes the instruction, it traps, or it waits, a hart's
instruction where it stands and what no instruction makes in its place among the hart's operations. -/
def HartRes.finish (r : HartRes) (h : Nat) (a : HartAcc) (i : Instr) : State :=
  match r with
  | .made t v =>
    let e := t.hart h
    t.setHart h ((if !a.kind.loads then e else if a.fp then e.setF a.rd (a.loaded v) else e.setReg a.rd (a.loaded v)).pass a.len)
  | .trap t cause tval => t.eaveTrap h cause tval
  | .wait t => if a.len = 0 then t.hold i else t

-- ## Windows (R389)

/-- An aligned 8-byte access to the port of a bound mailbox (R393); what the port's table does not list is an access fault (log entry
80). -/
def State.portAccess (s : State) (core : Nat) (a : HartAcc) : HartRes :=
  let m := (a.addr - 0x40000000) / 0x100
  let off := a.addr % 0x100
  let x := s.mbox m
  let bad := HartRes.trap s (accessFault a.kind) a.addr
  match a.kind with
  | .load =>
    if off < 0x40 then .made s (x.action.toNat / 2 ^ (8 * off) % 2 ^ 64)
    else if off = 0x80 then .made (s.takeAction core m 0) (if x.actions = [] then 0 else 1)
    else if off = 0x90 then .made s (x.actions.length + x.obs.length * 2 ^ 8)
    else bad
  | .store =>
    if 0x40 ≤ off ∧ off < 0x80 then
      let sh := 8 * (off - 0x40)
      let old := x.compose.toNat
      let all := old % 2 ^ sh + a.value % 2 ^ 64 * 2 ^ sh + old / 2 ^ (sh + 64) * 2 ^ (sh + 64)
      .made (s.setMbox m { x with compose := BitVec.ofNat 512 all }) 0
    else if off = 0x88 then (if s.ringFull m then .wait s else .made (s.postObservation core m) 0)
    else bad
  | _ => bad

/-- The control word of a window. -/
def Eave.window (e : Eave) (i : Nat) : Nat := (Tab.get 0 e.wctl i).toNat

/-- The window that an episode address lies in. -/
def Eave.windowOf (e : Eave) (addr : Nat) : Option Nat :=
  (List.range 4).find? fun i => let w := e.window i
    bit w 0 && decide ((i + 1) * 2 ^ 40 ≤ addr) && decide (addr < (i + 1) * 2 ^ 40 + bits w 31 16 * 2 ^ 16)

/-- How an ordering instruction of a hart orders, in the terms of the courses' fences, at .sys (R165). -/
structure HartOrder where
  acq : Bool
  rel : Bool
deriving DecidableEq, Repr

/-- A hart's FENCE by its predecessor and successor sets, each as reads and writes (R165): FENCE rw,rw is FENCE.ar, FENCE r,rw is
FENCE.acq, FENCE rw,w is FENCE.rel; any other form synchronises with nothing. -/
def hartFence (pr pw sr sw : Bool) : HartOrder :=
  match pr, pw, sr, sw with
  | true, true, true, true => ⟨true, true⟩
  | true, false, true, true => ⟨true, false⟩
  | true, true, false, true => ⟨false, true⟩
  | _, _, _, _ => ⟨false, false⟩

/-- The aq and rl bits of a hart's AMO, LR or SC (R165). -/
def hartAtomic (aq rl : Bool) : HartOrder := ⟨aq, rl⟩

/-- An ordering instruction of a hart waits: one that releases while an earlier operation of the hart waits. Every other access of a
hart is performed at its home in the step that makes it (R70, R145), so that those before an ordering instruction are performed as it
comes and those after it are not made yet. -/
def State.orderWaits (s : State) (h : Nat) (o : HartOrder) : Bool := (o.acq || o.rel) && s.holdsBack (1 + h)

/-- An access through a window: translated by the I/O die, served at home, local pages only (R389). While its page is walked or
held the access waits. -/
def State.windowAccess (s : State) (core i : Nat) (a : HartAcc) : HartRes :=
  let e := s.eave core
  let w := e.window i
  let asn := bits e.epi.toNat 39 32
  let va := bits (Tab.get 0 e.vbase i).toNat 53 16 * 2 ^ 16 + a.addr % 2 ^ 40
  let bad := fun (t : State) => HartRes.trap t (accessFault a.kind) a.addr
  let may := a.kind ≠ .fetch && (pmpNeeds a.kind).all fun b => bit w (b + 1)
  if !may then bad s
  else match s.ioXlat asn (s.rootOf asn) va (if (pmpNeeds a.kind).contains 1 then 1 else 0) with
    | .wait t => .wait t
    | .fault t _ => bad t
    | .ok t x => if x.res ≠ .here then bad t else t.hartHome core a x.pa

/-- An access is made as U mode makes it: in U mode, or in M mode under MPRV with MPP naming U mode, but for a fetch. -/
def Eave.asUser (e : Eave) (k : EpiKind) : Bool :=
  let st := e.csrAt csrMstatus
  e.umode || (decide (k ≠ .fetch) && bit st 17 && decide (bits st 12 11 = 0))

/-- An access lies in the mailboxes' ports. -/
def inPorts (addr : Nat) : Bool := decide (portAt 0 0 ≤ addr) && decide (addr < portAt 256 0)

/-- One access of an eave core (R387, R389, R393): to private SRAM, to a mailbox port, or in U mode through a window. A misaligned
access to a port is an access fault, as is a fetch, an LR, an SC or an AMO there (log entry 80). -/
def State.eaveAccess (s : State) (core : Nat) (a : HartAcc) : HartRes :=
  let e := s.eave core
  let user := e.asUser a.kind
  let bad := HartRes.trap s (accessFault a.kind) a.addr
  if inPorts a.addr then
    (if s.boundTo core ((a.addr - portAt 0 0) / 0x100) ∧ a.size = 8 ∧ a.addr % 8 = 0 then s.portAccess core a else bad)
  else if a.addr % a.size ≠ 0 then .trap s (misaligned a.kind) a.addr
  else if a.addr + a.size ≤ 2 ^ 20 then (if e.allows user a.addr a.size a.kind then s.hartSram core a else bad)
  else match (if user then e.windowOf a.addr else none) with
    | some i => s.windowAccess core i a
    | none => bad

/-- EPISODE_WINDOW_ACCESS (R387, R389, R393): one access of an eave core, of 1, 2, 4 or 8 bytes. During a scrub the core does not
run in U mode (R390). -/
def execEpisodeWindowAccess (core : Nat) (kind : EpiKind) (addr size value : Nat) (move : HartMove) (s : State) :
    Host.Outcome State Fault Refusal :=
  let a : HartAcc := ⟨move, kind, addr, size, value⟩
  let i := Instr.episodeWindowAccess core kind addr size value move
  let e := s.eave core
  .next (
    if e.umode && e.scrub || !([1, 2, 4, 8].contains a.size) then s
    else s.inTurn i ((s.eaveAccess core a).finish core a i))

-- ## The end of an episode (R390, R394)

/-- The episode ends: its windows are invalid, every byte of private SRAM to which protection grants U mode access now is zero,
EPI is 0, its operations that wait are discarded with it, and the scrub is in progress, during which the core does not enter U mode and
LIVE reads 1. -/
def State.scrubFrom (s : State) (core : Nat) : State :=
  let e := s.eave core
  let t := s.setEave core { e with
    sram := e.sram.filter fun x => !e.granted x.1
    wctl := Tab.mapVal (fun _ (w : W64) => w &&& ~~~1) e.wctl, epi := e.epi &&& ~~~0xFFFFFFFF, scrub := true, umode := false
    count := 0 }
  { t with held := t.held.filter fun i => decide (agentOf i ≠ some (1 + core)) }

/-- END to some mailboxes of an episode. -/
def State.endTo (s : State) (ms : List Nat) : State := ms.foldl (fun t m => t.observe m ((t.mbox m).reply1 3 0)) s

/-- The episode of a core ends by EEND (R390, R394): END to each of its mailboxes, then the scrub. -/
def State.endEpisode (s : State) (core : Nat) : State :=
  let t := (s.endTo (s.mailboxesOf core)).scrubFrom core
  t.setEave core { t.eave core with killed := false }

/-- EEND. -/
def execEend (core : Nat) (s : State) : Host.Outcome State Fault Refusal := .next (s.endEpisode core)

/-- SCRUB_COMPLETE (R390): the core may run an episode again. -/
def execScrubComplete (core : Nat) (s : State) : Host.Outcome State Fault Refusal :=
  .next (s.setEave core { s.eave core with scrub := false })

/-- The watchdog has run out with an action outstanding (R394). -/
def State.expired (s : State) (core : Nat) : Bool :=
  let e := s.eave core
  decide (e.ewdog ≠ 0) && decide (e.ewdog.toNat * 2 ^ 15 ≤ e.count)
    && (s.mailboxesOf core).any fun m => (s.mbox m).open1

/-- EPISODE_WATCHDOG (R394): the episode is killed. Each outstanding action gets a TIMEOUT, every other mailbox END; the
monitor takes interrupt 16, and the scrub begins. -/
def execEpisodeWatchdog (core : Nat) (s : State) : Host.Outcome State Fault Refusal :=
  .next (if s.expired core then
    let ms := s.mailboxesOf core
    let t := (ms.filter fun m => (s.mbox m).open1).foldl (fun (t : State) m =>
      let u := t.observe m ((t.mbox m).reply1 1 0)
      u.setMbox m { u.mbox m with open1 := false }) s
    let t1 := t.endTo (ms.filter fun m => !(s.mbox m).open1)
    let e := (t1.eave core).setCsr csrMip ((t1.eave core).csrAt csrMip ||| 2 ^ 16)
    ((t1.setEave core (e.trap (2 ^ 63 + 16) 0)).scrubFrom core |> fun t2 =>
      t2.setEave core { t2.eave core with killed := true })
  else s)

-- ## Bindings (R391)

/-- Every course whose MBRECV waits on a mailbox receives a message. -/
def State.giveAll (s : State) (m : Nat) (x : BitVec 512) : State :=
  let give := fun (f : Flight) => match f.kind with
    | .message n => if n = m ∧ f.got = [] then
        { f with got := (List.range 32).map fun l => (l, if l < 16 then bits x.toNat (32 * l + 31) (32 * l) else 0) } else f
    | _ => f
  { s with wgs := Tab.mapVal (fun _ (w : Workgroup) =>
      { w with courses := Tab.mapVal (fun _ (k : Course) => { k with flights := k.flights.map give }) w.courses }) s.wgs }

/-- The courses that a full action ring holds at an MBSEND. -/
def State.senders (s : State) (m : Nat) : List (Nat × Nat) :=
  s.wgs.flatMap fun w => (w.2.courses.filter fun k => decide (w.2.status = .resident) && decide (k.2.wait = some (.mailbox m))
    && decide (k.2.sched = .waiting)).map fun k => (w.1, k.1)

/-- A course at an MBSEND takes the mailbox trap there (R391); where a page of its record is walked or held it takes it as it issues
next, whatever its mailbox is by then. -/
def State.unbindSender (s : State) (u c : Nat) : State :=
  let t := takeTrap s u c { code := 0x0D }
  if (t.crs u c).tlev = (s.crs u c).tlev ∧ (t.grid (t.wg u).gid).abort.isNone then t.setCrs u c { t.crs u c with wait := some .unbound } else t

/-- MAILBOX_BIND (R391): END to the receivers, the mailbox trap to the senders, the rings discarded, then the new value. -/
def execMailboxBind (m value : Nat) (s : State) : Host.Outcome State Fault Refusal :=
  .next (if bits value 63 37 ≠ 0 then s
    else
      let x := s.mbox m
      let t := s.giveAll m (BitVec.ofNat 512 (x.epi + 3 * 2 ^ 96))
      let u := (t.senders m).foldl (fun t p => t.unbindSender p.1 p.2) t
      u.setMbox m { Mbox.reset with binding := BitVec.ofNat 64 value })

-- ## CSRs (R387, R388)

/-- misa (R387). -/
def misaValue : Nat := 0x800000000010112D

/-- The CSRs of floating point: fflags, frm, and fcsr, of which the two are parts. -/
def floatCsr (n : Nat) : Bool := [0x001, 0x002, 0x003].contains n

/-- The standard CSRs that a hart of R387 has beside the monitor's: floating point, machine information, trap set-up and handling,
counters, and protection. There is no other: satp, the S-mode and the hypervisor CSRs are absent. -/
def standardCsr (n : Nat) : Bool :=
  floatCsr n || [0x300, 0x301, 0x304, 0x305, 0x306, 0x30A, 0x320, 0x340, 0x341, 0x342, 0x343, 0x344, 0x3A0, 0x3A2, 0xB00, 0xB02].contains n
    || (decide (0x3B0 ≤ n) && decide (n < 0x3C0)) || (decide (0xF11 ≤ n) && decide (n < 0xF16))
    || (decide (0x323 ≤ n) && decide (n < 0x340)) || (decide (0xB03 ≤ n) && decide (n < 0xB20))

/-- The monitor's CSRs (R388). -/
def monitorCsr (n : Nat) : Bool := decide (0x7C0 ≤ n) && decide (n < 0x7CC)

/-- Some bits of a number kept, the others taken from another. -/
def mixBits (mask new old : Nat) : Nat := new &&& mask ||| old &&& (2 ^ 64 - 1 - mask)

/-- Whether PMP entry i takes no write: it is locked, or its address bounds a locked range (log entry 35). -/
def Eave.pmpLocked (e : Eave) (i : Nat) : Bool := bit (e.pmpCfg i) 7
/-- The address register of entry i takes no write. -/
def Eave.addrLocked (e : Eave) (i : Nat) : Bool :=
  e.pmpLocked i || decide (i < 15) && e.pmpLocked (i + 1) && decide (bits (e.pmpCfg (i + 1)) 4 3 = 1)

/-- A configuration word of eight PMP entries after a write: a locked byte stays, bits 6:5 are zero, and writing without reading is no
permission. -/
def Eave.pmpCfgWrite (e : Eave) (csr v : Nat) : Nat :=
  let base := (csr - 0x3A0) / 2 * 8
  (List.range 8).foldl (fun n j =>
    let b := v / 2 ^ (8 * j) % 256 &&& 0x9F
    let c := if e.pmpLocked (base + j) then e.pmpCfg (base + j) else if bits b 1 0 = 2 then b - 2 else b
    n + c * 2 ^ (8 * j)) 0

/-- What a standard CSR holds after a write (log entry 35): the fields that the architecture lets a hart with M and U mode alone keep.
-/
def Eave.csrKept (e : Eave) (n v : Nat) : Nat :=
  let old := e.csrAt n
  match n with
  | 0x300 =>
    let m := mixBits 0x0226088 v old
    if bits v 12 11 = 0 ∨ bits v 12 11 = 3 then mixBits 0x1800 v m else m
  | 0x301 => old
  | 0x304 => v &&& 0x10888
  | 0x305 => v &&& (2 ^ 64 - 3)
  | 0x306 => 0
  | 0x30A => v % 2
  | 0x320 => v &&& 5
  | 0x341 => v / 2 * 2
  | 0x344 => mixBits 0x10000 v old
  | 0x3A0 => e.pmpCfgWrite n v
  | 0x3A2 => e.pmpCfgWrite n v
  | _ =>
    if 0x3B0 ≤ n ∧ n < 0x3C0 then (if e.addrLocked (n - 0x3B0) then old else v % 2 ^ 54)
    else if 0x323 ≤ n ∧ n < 0x340 ∨ 0xB03 ≤ n ∧ n < 0xB20 then 0
    else v

/-- The registers of floating point are in use and changed: mstatus.FS reads 3. -/
def Eave.dirty (e : Eave) : Eave := e.setCsr csrMstatus (mixBits 0x6000 0x6000 (e.csrAt csrMstatus))

/-- The CSRs after a write that sets no reserved bit; none where one is set, or the CSR is not one that a
write reaches. A write to LIVE and KILLED has no effect on them (R6). -/
def Eave.writeCsr (e : Eave) (csr : Nat) (v : W64) : Option Eave :=
  let n := v.toNat
  if 0x7C0 ≤ csr ∧ csr < 0x7C8 then
    let i := (csr - 0x7C0) / 2
    if csr % 2 = 0 then
      if bits n 15 0 ≠ 0 ∨ bits n 63 54 ≠ 0 then none else some { e with vbase := Tab.put 0 e.vbase i v }
    else if bits n 15 3 ≠ 0 ∨ bits n 63 32 ≠ 0 then none else some { e with wctl := Tab.put 0 e.wctl i v }
  else if csr = 0x7C8 then if bits n 63 40 ≠ 0 then none else some { e with epi := v }
  else if csr = 0x7C9 then some { e with ewdog := v }
  else if csr = 0x7CA then if bits n 63 1 ≠ 0 then none else some e
  else if csr = 0x7CB then if bits n 63 2 ≠ 0 then none else some e
  else if csr = 0x001 then some (e.setCsr 3 (mixBits 0x1F n (e.csrAt 3))).dirty
  else if csr = 0x002 then some (e.setCsr 3 (mixBits 0xE0 (n % 8 * 32) (e.csrAt 3))).dirty
  else if csr = 0x003 then some (e.setCsr 3 (n % 256)).dirty
  else if standardCsr csr && decide (csr < 0xC00) then some (e.setCsr csr (e.csrKept csr n))
  else none

/-- What a read of a CSR gives (R387, R388): EEND reads zero, being write-only; LIVE reads 1 until a scrub is complete, as R390 says,
and else where EPI is not zero (log entry 81); KILLED the way the last episode ended. The values that name a hart and its maker are open
(log entry 35). -/
def Eave.readCsr (e : Eave) (h csr : Nat) : W64 :=
  if 0x7C0 ≤ csr ∧ csr < 0x7C8 then
    if csr % 2 = 0 then Tab.get 0 e.vbase ((csr - 0x7C0) / 2) else Tab.get 0 e.wctl ((csr - 0x7C0) / 2)
  else if csr = 0x7C8 then e.epi
  else if csr = 0x7C9 then e.ewdog
  else if csr = 0x7CA then 0
  else if csr = 0x7CB then BitVec.ofNat 64 (ofBool (e.scrub || decide (bits e.epi.toNat 31 0 ≠ 0)) + ofBool e.killed * 2)
  else if csr = 0x001 then BitVec.ofNat 64 (e.csrAt 3 % 32)
  else if csr = 0x002 then BitVec.ofNat 64 (e.csrAt 3 / 32)
  else if csr = 0x300 then
    let st := e.csrAt csrMstatus
    BitVec.ofNat 64 (st + 2 * 2 ^ 32 + ofBool (decide (bits st 14 13 = 3)) * 2 ^ 63)
  else if csr = 0x301 then BitVec.ofNat 64 misaValue
  else if 0xF11 ≤ csr then BitVec.ofNat 64 (Config.hartName h csr)
  else BitVec.ofNat 64 (e.csrAt csr)

/-- An access to a CSR is no legal instruction: the hart has none of that number, U mode may not reach it, floating point is off, or it
writes one that is read-only (R387, R388). -/
def Eave.csrIllegal (e : Eave) (csr : Nat) (writes : Bool) : Bool :=
  !(monitorCsr csr || standardCsr csr) || (e.umode && decide (bits csr 9 8 ≠ 0))
    || (floatCsr csr && decide (bits (e.csrAt csrMstatus) 14 13 = 0)) || (writes && decide (bits csr 11 10 = 3))

/-- What an instruction writes to a CSR that reads as a value. -/
def CsrOp.result (o : CsrOp) (old v : W64) : W64 :=
  match o with
  | .put => v
  | .set => old ||| v
  | .clear => old &&& ~~~v

/-- EPISODE_CSR_WRITE (R388): an access to a CSR, an illegal-instruction exception and no change where U mode may not make it or a
reserved bit is set; a write of 1 to EEND ends the episode. mtval of that exception is open. -/
def execEpisodeCsrWrite (h csr : Nat) (a : CsrAcc) (s : State) : Host.Outcome State Fault Refusal :=
  let e := s.hart h
  let old := e.readCsr h csr
  let v := CsrOp.result a.op old a.value
  .next (s.inTurn (.episodeCsrWrite h csr a)
    (match (if e.csrIllegal csr a.writes then none else if a.writes then e.writeCsr csr v else some e) with
    | none => s.eaveTrap h 2 (Config.choice s.steps % 2 ^ 64)
    | some f =>
      let t := s.setHart h f
      let u := if a.writes && decide (csr = 0x7CA) && decide (v = 1) && decide (h < 16) then t.endEpisode h else t
      u.setHart h (((u.hart h).setReg a.rd old.toNat).pass a.len)))

end Sys2Proof.Machine
end

