-- ==== Sys2Proof/Machine/Debug.lean ====
section
/-! DEFINITION. Debug access (R404 to R407): the commands of a die's debug interface. Courses, registers and the rest are
selected by the debug registers. -/

namespace Sys2Proof.Machine

-- ## Selection (R404)

/-- The core that the debug registers of a die select. -/
def State.dbgCore (s : State) (d : Nat) : Nat := d * 144 + bits (s.die d).dbg.sel.toNat 7 0

/-- The resident courses of a core, in the order of their slots: workgroups in order of placement (log entry 37). -/
def State.residents (s : State) (k : Nat) : List (Nat × Nat) :=
  (s.wgs.filter fun e => decide (e.2.core = k) && decide (e.2.status = .resident)).flatMap fun e =>
    e.2.courses.map fun c => (e.1, c.1)

/-- The course that the debug registers select. -/
def State.dbgCourse (s : State) (d : Nat) : Option (Nat × Nat) :=
  if 144 ≤ bits (s.die d).dbg.sel.toNat 7 0 then none
  else (s.residents (s.dbgCore d))[bits (s.die d).dbg.sel.toNat 14 8]?

/-- RES codes. -/
def resOk : Nat := 0
/-- BUSY. -/
def resBusy : Nat := 1
/-- BADREG. -/
def resBadReg : Nat := 2
/-- NOTHALTED. -/
def resNotHalted : Nat := 3
/-- REFUSED. -/
def resRefused : Nat := 4

/-- The debug registers of a die changed. -/
def State.mapDbg (s : State) (d : Nat) (f : Dbg → Dbg) : State := s.setDie d { s.die d with dbg := f (s.die d).dbg }

/-- A command has finished with a result. -/
def State.dbgEnd (s : State) (d res : Nat) : State := s.mapDbg d fun g => { g with res := res, done := true }

/-- The course is halted, by a command or by the freeze of its core (R405, R406). -/
def State.stands (s : State) (u c : Nat) : Bool := (s.crs u c).halted || (s.core (s.wg u).core).frozen

/-- A command on the selected course. -/
def onCourse (d : Nat) (f : State → Nat → Nat → State) (s : State) : Host.Outcome State Fault Refusal :=
  match s.dbgCourse d with
  | none => .next (s.dbgEnd d resBadReg)
  | some (u, c) => .next (f s u c)

-- ## Halt, resume, step, breakpoints, freeze (R405, R406)

/-- HALT_COURSE. -/
def execHaltCourse (d : Nat) (s : State) : Host.Outcome State Fault Refusal :=
  onCourse d (fun s u c => (s.setCrs u c { s.crs u c with halted := true }).dbgEnd d resOk) s

/-- RESUME_COURSE. -/
def execResumeCourse (d : Nat) (s : State) : Host.Outcome State Fault Refusal :=
  onCourse d (fun s u c => (s.setCrs u c { s.crs u c with halted := false, stepping := false }).dbgEnd d resOk) s

/-- DEBUG_STEP: the course is let through one instruction or one repetition; the command finishes with it. -/
def execDebugStep (d : Nat) (s : State) : Host.Outcome State Fault Refusal :=
  onCourse d (fun s u c =>
    if !(s.crs u c).halted then s.dbgEnd d resNotHalted
    else (s.setCrs u c { s.crs u c with stepping := true }).mapDbg d fun g => { g with res := resOk, done := false }) s

/-- ARM_BREAKPOINT. -/
def execArmBreakpoint (d : Nat) (s : State) : Host.Outcome State Fault Refusal :=
  onCourse d (fun s u c => (s.setCrs u c { s.crs u c with armed := true }).dbgEnd d resOk) s

/-- DISARM_BREAKPOINT. -/
def execDisarmBreakpoint (d : Nat) (s : State) : Host.Outcome State Fault Refusal :=
  onCourse d (fun s u c => (s.setCrs u c { s.crs u c with armed := false }).dbgEnd d resOk) s

/-- FREEZE_CORE: every course of the core halts, and its engines stop at their boundaries. -/
def execFreezeCore (d : Nat) (s : State) : Host.Outcome State Fault Refusal :=
  let k := s.dbgCore d
  .next (if 144 ≤ bits (s.die d).dbg.sel.toNat 7 0 then s.dbgEnd d resBadReg
    else (s.setCore k { s.core k with frozen := true, quiet := false }).dbgEnd d resOk)

/-- A write of a course of a core to its own scratchpad is still to be performed. -/
def State.ownStores (s : State) (k : Nat) : Bool :=
  s.pend.any fun w => match w.tgt with
    | .scratch v _ => decide ((s.wg v).core = k) && !s.shut w.uid w.tgt
    | _ => false

/-- The engines of a core have nothing outstanding: what they asked of other modules has come back, and what they sent has reached
its target. A piece, a block or a matrix command is one step, so that they always stand at a boundary. The writes of the core's own
courses to its scratchpads are performed too, so that these are stable under QUIET (R406). -/
def State.enginesIdle (s : State) (k : Nat) : Bool :=
  !s.ownStores k && s.reqs.all fun r =>
    !(decide ((s.wg r.uid).core = k) && (s.wg r.uid).cmds.any fun m => decide (m.id = r.flight) || decide (m.id = r.ord))
      || (!r.req.kind.returns && r.sent && !s.links.any fun l => (l.2.tx ++ l.2.replay).any fun f => f.carries r.tag)

/-- QUIET (R406). -/
def execQuiet (core : Nat) (s : State) : Host.Outcome State Fault Refusal :=
  .next (if (s.core core).frozen ∧ s.enginesIdle core then s.setCore core { s.core core with quiet := true } else s)

/-- THAW_CORE: the engines and the courses not halted by a command go on; frames that waited land. -/
def execThawCore (d : Nat) (s : State) : Host.Outcome State Fault Refusal :=
  let k := s.dbgCore d
  .next (if 144 ≤ bits (s.die d).dbg.sel.toNat 7 0 then s.dbgEnd d resBadReg
    else ((s.setCore k { s.core k with frozen := false, quiet := false }).landWaiting).dbgEnd d resOk)

-- ## Units (R404, R407)

/-- What the debug registers name: CLS, NUM, DLANE, IND, DADDR. -/
structure Unit1 where
  cls  : Nat
  num  : Nat
  lane : Nat
  ind  : Bool
  addr : Nat
deriving DecidableEq, Repr

/-- The unit that a die's debug registers name. -/
def Dbg.unit1 (g : Dbg) : Unit1 :=
  let n := g.unit.toNat
  ⟨bits n 3 0, bits n 15 4, bits n 20 16, bit n 21, g.addr.toNat⟩

/-- The register that a vector unit names: NUM, or BASE + OFF of the lane of index register NUM (R246). -/
def Course.dbgReg (c : Course) (x : Unit1) : Nat :=
  if x.ind then (c.xreg x.num).base + ((c.xreg x.num).off.toArray.getD x.lane 0).toNat else x.num

/-- The scratchpad and the byte of it that a local address of a course names: its own, or a member's through the cohort window (R23,
R404). -/
def State.dbgPad (s : State) (u c a : Nat) : Option (Nat × Nat) := localTarget { s with curWg := u, curCrs := c } a

/-- The unit exists for a course of a workgroup; else BADREG. -/
def State.unitExists (s : State) (u c : Nat) (x : Unit1) : Bool :=
  let l := (s.grid (s.wg u).gid).launch
  let k := s.crs u c
  match x.cls with
  | 0 => (!x.ind || decide (x.num < 16)) && decide (k.dbgReg x < l.nv)
  | 1 => decide (x.num < l.ns)
  | 2 => decide (x.num < 8)
  | 3 => decide (x.num < 16) && decide (x.addr < 32)
  | 4 => decide (x.num < 8) && decide (x.addr < 32)
  | 5 => decide (x.num < l.nacc) && decide (x.addr < 4096)
  | 6 => decide (x.num < l.nos) && decide (x.addr < 8192)
  | 7 => decide (x.num ≤ 0x19)
  | 8 => decide (x.num < k.depth) && decide (k.depth - k.stack.length ≤ x.num)
  | 9 => (s.dbgPad u c x.addr).isSome
  | _ => false

/-- The value of a unit as it stands, zero-extended, and its full/empty bit. -/
def State.unitRead (s : State) (u c : Nat) (x : Unit1) : Nat × Bool :=
  let w := s.wg u
  let k := s.crs u c
  let at1 := x.addr / 16 * 16
  match x.cls with
  | 0 => ((((k.vreg (k.dbgReg x)).toArray.getD x.lane 0)).toNat, k.vIsFull (k.dbgReg x))
  | 1 => ((k.sreg x.num).toNat, k.sIsFull x.num)
  | 2 => ((k.pred x.num).toNat, false)
  | 3 => (xregNat (k.xreg x.num) / 2 ^ (8 * at1) % 2 ^ 128, false)
  | 4 => (genNat (k.gen x.num) / 2 ^ (8 * at1) % 2 ^ 128, false)
  | 5 => (leBytes ((List.range 4).flatMap fun j => bytesOf 4 (w.acc x.num ((at1 / 4 + j) / 16) ((at1 / 4 + j) % 16)).toNat), false)
  | 6 => (leBytes ((List.range 16).map fun b => w.slotByte (8192 * x.num + at1 + b)), false)
  | 7 =>
    if x.num = 0x18 then (k.pc.toNat, false)
    else if x.num = 0x19 then (k.tlev, false)
    else if x.num = 0x13 then (x.lane, false)
    else (({ s with curWg := u, curCrs := c }.special x.num).toNat, false)
  | 8 => (match k.stack.reverse[x.num - (k.depth - k.stack.length)]? with | some e => entryNat e | none => 0, false)
  | _ => match s.dbgPad u c at1 with
    | some (v, a) => ((s.wg v).read a 16, (s.wg v).full (a / 16))
    | none => (0, false)

/-- The unit holds poison. -/
def State.unitPoisoned (s : State) (u c : Nat) (x : Unit1) : Bool :=
  let w := s.wg u
  let k := s.crs u c
  match (x.cls : Nat) with
  | 0 => Tab.get false k.vpoison (8 * k.dbgReg x + x.lane / 4)
  | 1 => Tab.get false k.spoison (x.num / 2)
  | 5 => Tab.get false w.apoison (256 * x.num + x.addr / 16)
  | 6 => w.slotPoisoned (8192 * x.num + x.addr / 16 * 16) 16
  | 9 => (match s.dbgPad u c (x.addr / 16 * 16) with | some (v, a) => (s.wg v).rangePoisoned a 16 | none => false)
  | n => (stripUnit n x.num x.addr).any k.stripBad

/-- DEBUG_READ (R404, R405): DDATA and FE. A poisoned unit reads as an open value (log entry 37). -/
def execDebugRead (d : Nat) (s : State) : Host.Outcome State Fault Refusal :=
  onCourse d (fun s u c =>
    let x := (s.die d).dbg.unit1
    if !s.unitExists u c x then s.dbgEnd d resBadReg
    else if !s.stands u c then s.dbgEnd d resNotHalted
    else
      let r := s.unitRead u c x
      let v := if s.unitPoisoned u c x then Config.choice s.steps else r.1
      (s.mapDbg d fun g => { g with data := BitVec.ofNat 128 v, fe := r.2 }).dbgEnd d resOk) s

/-- A vector register is empty, which makes a write of it BUSY (R407): the one that the unit names, directly or through an index
register. A producer through an index register has marked every register of its window empty (R245), so that the register's own bit
tells of an empty window too. -/
def Course.emptied (c : Course) (x : Unit1) : Bool := !c.vIsFull (c.dbgReg x)

/-- A register's producers give it nothing any more, those at the arbiters included (R407). -/
def Course.disown (c : Course) (scal : Bool) (n : Nat) : Course :=
  { c with
    flights := c.flights.map fun f => if f.scal = scal then { f with marks := f.marks.filter (· ≠ n) } else f
    arb := c.arb.map fun a => if a.scal = scal then { a with marks := a.marks.filter (· ≠ n) } else a }

/-- A number with 16 bytes replaced. -/
def putUnit (old at1 v : Nat) : Nat :=
  old % 2 ^ (8 * at1) + v % 2 ^ 128 * 2 ^ (8 * at1) + old / 2 ^ (8 * at1 + 128) * 2 ^ (8 * at1 + 128)

/-- A special register written by a debugger; none for one that is not RW, beside REPST (R256), PC and TLEV. A course whose program
counter is moved leaves the instruction at which it waited (log entry 37). The low bits of the program counter stay zero (R233), as do
the reserved bits of REPST. -/
def Course.dbgSpecial (c : Course) (n v : Nat) : Option Course :=
  if n = 0x18 then some { c with
    pc := BitVec.ofNat 64 (v / 4 * 4), wait := none, sync := none, limit := none
    sched := if c.sched = .waiting then .ready else c.sched }
  else if n = 0x06 then some { c with repst := lowBits 17 v }
  else if n = 0x19 then some { c with tlev := v % 8 }
  else if n = 0x05 ∧ 64 ≤ v then none
  else if n = 0x03 ∨ n = 0x04 ∨ n = 0x05 ∨ n = 0x07 then some (c.setSpecial n (BitVec.ofNat 64 v))
  else none

/-- A unit of the strip that a debugger writes whole loses its poison (R90): not that of a predicate or a special register, which
fill a part of one. -/
def Course.dbgClean (c : Course) (x : Unit1) : Course :=
  if x.cls = 3 ∨ x.cls = 4 ∨ x.cls = 8 then (match stripUnit x.cls x.num x.addr with | some n => c.putStrip n false | none => c) else c

/-- A unit written: the state, or the result that refuses it. -/
def State.unitWrite (s : State) (u c : Nat) (x : Unit1) (v : Nat) (force : Bool) : Except Nat State :=
  let w := s.wg u
  let k := s.crs u c
  let at1 := x.addr / 16 * 16
  let put := fun (y : Course) => (.ok (s.setCrs u c (y.dbgClean x)) : Except Nat State)
  match x.cls with
  | 0 =>
    let n := k.dbgReg x
    let val := fun l => if l = x.lane then BitVec.ofNat 32 v else (k.vreg n).toArray.getD l 0
    if !k.emptied x then put (k.setV n (BitVec.ofNat 32 (2 ^ x.lane)) val)
    else if !force then .error resBusy
    else put ((((k.setV n 0xFFFFFFFF val)).markV n true).disown false n)
  | 1 =>
    if k.sIsFull x.num then put (k.setS x.num (BitVec.ofNat 64 v))
    else if !force then .error resBusy
    else put (((k.setS x.num (BitVec.ofNat 64 v)).markS x.num true).disown true x.num)
  | 2 => put (k.setPred x.num (BitVec.ofNat 32 v))
  | 3 => put (k.setX x.num (xregOf (putUnit (xregNat (k.xreg x.num)) at1 v)))
  | 4 => put { k with g := Tab.put .zero k.g x.num (genOf (putUnit (genNat (k.gen x.num)) at1 v)) }
  | 5 =>
    let old := fun (i q : Nat) => w.acc x.num i q
    let w1 := w.setAcc x.num fun i q =>
      let j := 16 * i + q
      if at1 / 4 ≤ j ∧ j < at1 / 4 + 4 then BitVec.ofNat 32 (v / 2 ^ (32 * (j - at1 / 4))) else old i q
    .ok (s.setWg u { w1 with apoison := Tab.del w.apoison (256 * x.num + x.addr / 16) })
  | 6 => .ok (s.setWg u (w.putSlot (8192 * x.num + at1) (bytesOf 16 v)))
  | 7 =>
    let t := if x.num = 0x18 then s.unarb u c else s
    (match (t.crs u c).dbgSpecial x.num v with | some y => .ok (t.setCrs u c y) | none => .error resRefused)
  | 8 =>
    let i := x.num - (k.depth - k.stack.length)
    put { k with stack := (k.stack.reverse.zipIdx.map fun e => if e.2 = i then entryOf v else e.1).reverse }
  | _ => match s.dbgPad u c at1 with
    | some (y, a) => .ok (s.setWg y ((s.wg y).write a (bytesOf 16 v)))
    | none => .error resBadReg

/-- The write of a unit needs QUIET (R407) and does not have it: the core's, and of a member's scratchpad that member's core's too (log
entry 37). -/
def State.unquiet (s : State) (u c : Nat) (x : Unit1) : Bool :=
  let quiet := fun (v : Nat) => (s.core (s.wg v).core).quiet
  (x.cls = 5 || x.cls = 6 || x.cls = 9) && (!quiet u || (x.cls = 9 && match s.dbgPad u c x.addr with | some (v, _) => !quiet v | none => false))

/-- DEBUG_WRITE (R407). -/
def execDebugWrite (d : Nat) (force : Bool) (s : State) : Host.Outcome State Fault Refusal :=
  onCourse d (fun s u c =>
    let x := (s.die d).dbg.unit1
    if !s.unitExists u c x then s.dbgEnd d resBadReg
    else if !s.stands u c || s.unquiet u c x then s.dbgEnd d resNotHalted
    else match s.unitWrite u c x (s.die d).dbg.data.toNat force with
      | .ok t => t.dbgEnd d resOk
      | .error e => s.dbgEnd d e) s

/-- WRITE_FULL_EMPTY (R405, R407): the bit of a register or a granule; a register set full gets nothing of its producer. -/
def execWriteFullEmpty (d : Nat) (s : State) : Host.Outcome State Fault Refusal :=
  onCourse d (fun s u c =>
    let x := (s.die d).dbg.unit1
    let b := (s.die d).dbg.data.getLsbD 0
    let k := s.crs u c
    if !s.unitExists u c x || !(decide (x.cls = 0) || decide (x.cls = 1) || decide (x.cls = 9)) then s.dbgEnd d resBadReg
    else if !s.stands u c || s.unquiet u c x then s.dbgEnd d resNotHalted
    else
      let t := match x.cls with
        | 0 =>
          let n := k.dbgReg x
          s.setCrs u c (if b then (k.markV n true).disown false n else k.markV n false)
        | 1 => s.setCrs u c (if b then (k.markS x.num true).disown true x.num else k.markS x.num false)
        | _ => match s.dbgPad u c x.addr with
          | some (v, a) => s.setWg v ((s.wg v).mark [a / 16] b)
          | none => s
      t.dbgEnd d resOk) s

/-- A write of DCMD (R404, R405): no command, REFUSED where a reserved bit is set, or the command with its FORCE bit. -/
def State.debugCommand (s : State) (d word : Nat) : Host.Outcome State Fault Refusal :=
  if bits word 3 0 ≠ 0 ∧ 32 ≤ word then .next (s.dbgEnd d resRefused)
  else match bits word 3 0 with
    | 0 => .next s
    | 1 => execHaltCourse d s
    | 2 => execResumeCourse d s
    | 3 => execDebugStep d s
    | 4 => execFreezeCore d s
    | 5 => execThawCore d s
    | 6 => execDebugRead d s
    | 7 => execDebugWrite d (bit word 4) s
    | 8 => execWriteFullEmpty d s
    | 9 => execArmBreakpoint d s
    | 10 => execDisarmBreakpoint d s
    | _ => .next (s.dbgEnd d resRefused)

/-- DSTAT (R404). -/
def State.dstat (s : State) (d : Nat) : Nat :=
  let g := (s.die d).dbg
  let k := s.core (s.dbgCore d)
  g.res + ofBool g.done * 2 ^ 3
    + ofBool (match s.dbgCourse d with | some (u, c) => (s.crs u c).halted | none => false) * 2 ^ 4
    + ofBool k.frozen * 2 ^ 5 + ofBool k.quiet * 2 ^ 6 + ofBool g.fe * 2 ^ 7

end Sys2Proof.Machine
end

