-- ==== Sys2Proof/Machine/Regs.lean ====
section
/-! DEFINITION. Physical accesses (R14 to R18): stack memory, the pool aperture and the control region (R7, R17), as the
management core (R387), the Umhal port (R412) and firmware's register writes make them; and event delivery (R413). -/

namespace Sys2Proof.Machine

-- ## The pool aperture (R16, R18)

/-- The core of a pool-aperture address; none in a hole. -/
def apertureCore (pa : Nat) : Option Nat :=
  if pa / 2 ^ 31 ≠ 0x200 then none
  else if 6 ≤ bits pa 28 26 ∨ 24 ≤ bits pa 25 21 then none
  else some (bits pa 30 29 * 144 + bits pa 28 26 * 24 + bits pa 25 21)

/-- That byte written, as a debugger writes it (R407): a byte of an empty register stays, the program counter stays aligned (R233), and
reserved bits stay zero (R249, R256). -/
def Course.putPoolByte (c : Course) (l : Launch) (r b : Nat) : Course :=
  let q := r - (l.nv * 128 + l.ns * 8)
  if r < l.nv * 128 then
    let n := r / 128
    let lane := r % 128 / 4
    if !c.vIsFull n then c
    else c.setV n (BitVec.ofNat 32 (2 ^ lane)) fun j => BitVec.ofNat 32 (putByte ((c.vreg n).toArray.getD j 0).toNat (r % 4) b)
  else if r < l.nv * 128 + l.ns * 8 then
    let n := (r - l.nv * 128) / 8
    if !c.sIsFull n then c else c.setS n (BitVec.ofNat 64 (putByte (c.sreg n).toNat ((r - l.nv * 128) % 8) b))
  else if q < 32 then c.setPred (q / 4) (BitVec.ofNat 32 (putByte (c.pred (q / 4)).toNat (q % 4) b))
  else if q < 544 then c.setX ((q - 32) / 32) (xregOf (putByte (xregNat (c.xreg ((q - 32) / 32))) ((q - 32) % 32) b))
  else if q < 800 then
    { c with g := Tab.put .zero c.g ((q - 544) / 32) (genOf (putByte (genNat (c.gen ((q - 544) / 32))) ((q - 544) % 32) b)) }
  else if q < 804 then { c with mode := lowBits 17 (putByte c.mode.toNat (q - 800) b) }
  else if q < 808 then { c with exec := BitVec.ofNat 32 (putByte c.exec.toNat (q - 804) b) }
  else if q < 816 then { c with pc := BitVec.ofNat 64 (putByte c.pc.toNat (q - 808) b / 4 * 4) }
  else if q < 1328 then
    match c.entryAt ((q - 816) / 16) with
    | some e => { c with stack := c.stack.set ((c.depth + 31 - (q - 816) / 16) % 32) (entryOf (putByte (entryNat e) ((q - 816) % 16) b)) }
    | none => c
  else if q < 1332 then { c with fstat := lowBits 6 (putByte c.fstat.toNat (q - 1328) b) }
  else if q < 1336 then { c with repst := lowBits 17 (putByte c.repst.toNat (q - 1332) b) }
  else { c with ctimer := BitVec.ofNat 64 (putByte c.ctimer.toNat (q - 1336) b) }

/-- The 16-byte unit that begins at a place of a course's part of the register file, written whole, loses its poison (R90): not one of
an empty register, which a write leaves as it is. -/
def Course.cleanUnit (c : Course) (l : Launch) (r : Nat) : Course :=
  let p := r - l.nv * 128
  let q := r - (l.nv * 128 + l.ns * 8)
  if r < l.nv * 128 then (if r % 16 = 0 ∧ c.vIsFull (r / 128) then { c with vpoison := Tab.del c.vpoison (r / 16) } else c)
  else if r < l.nv * 128 + l.ns * 8 then
    (if p % 16 = 0 ∧ c.sIsFull (p / 8) ∧ c.sIsFull (p / 8 + 1) then { c with spoison := Tab.del c.spoison (p / 16) } else c)
  else if q % 16 = 0 then c.putStrip (q / 16) false
  else c

/-- A pool byte as it stands: a register, scratchpad or accumulator byte of a resident workgroup, or what the SRAM holds
beside them. -/
def State.poolRead (s : State) (k o : Nat) : Nat :=
  match s.poolPart k o with
  | .free => (s.poolByteAt k o).toNat
  | .reg u c r => ((s.wg u).crs c).poolByte (s.grid (s.wg u).gid).launch r
  | .pad u a => ((s.wg u).byte a).toNat
  | .acc u b => byteOf ((s.wg u).acc (b / 4096) (b % 4096 / 4 / 16) (b % 4096 / 4 % 16)).toNat (b % 4)

/-- A pool byte holds poison. -/
def State.poolPoisoned (s : State) (k o : Nat) : Bool :=
  match s.poolPart k o with
  | .free => Tab.get false (s.core k).poolBad (o / 16)
  | .reg u c r =>
    let l := (s.grid (s.wg u).gid).launch
    let x := (s.wg u).crs c
    if r < l.nv * 128 then Tab.get false x.vpoison (r / 16)
    else if r < l.nv * 128 + l.ns * 8 then Tab.get false x.spoison ((r - l.nv * 128) / 16)
    else x.stripBad ((r - (l.nv * 128 + l.ns * 8)) / 16)
  | .pad u a => (s.wg u).rangePoisoned a 1
  | .acc u b => Tab.get false (s.wg u).apoison (b / 16)

/-- A pool byte written under the rules for debugger writes (R18, R407): a register byte while its course is halted, the
rest of a workgroup's granules under QUIET; otherwise nothing changes. A byte does not cover a unit, whose poison stays (R90). -/
def State.poolWrite (s : State) (k o b : Nat) : State :=
  match s.poolPart k o with
  | .free => s.setCore k { s.core k with pool := Tab.set (s.core k).pool o (BitVec.ofNat 8 b) }
  | .reg u c r =>
    if s.stands u c then s.setCrs u c (((s.wg u).crs c).putPoolByte (s.grid (s.wg u).gid).launch r b) else s
  | .pad u a => if (s.core k).quiet then s.setWg u ((s.wg u).write a [BitVec.ofNat 8 b]) else s
  | .acc u c =>
    if !(s.core k).quiet then s
    else
      let w := s.wg u
      let old := w.acc (c / 4096)
      s.setWg u { (w.setAcc (c / 4096) fun i q =>
        if 16 * i + q = c % 4096 / 4 then BitVec.ofNat 32 (putByte (old i q).toNat (c % 4) b) else old i q) with apoison := w.apoison }

/-- The 16-byte units of the pool that a write covers whole lose their poison (R90). -/
def State.poolClean (s : State) (k o n : Nat) : State :=
  ((List.range (n - 15)).map (o + ·)).foldl (fun t x => match t.poolPart k x with
    | .free => if x % 16 = 0 then t.setCore k { t.core k with poolBad := Tab.del (t.core k).poolBad (x / 16) } else t
    | .acc u b =>
      if (t.core k).quiet ∧ b % 16 = 0 then t.setWg u { t.wg u with apoison := Tab.del (t.wg u).apoison (b / 16) } else t
    | .pad u a =>
      if (t.core k).quiet ∧ a % 16 = 0 then t.setWg u { t.wg u with spoison := Tab.del (t.wg u).spoison (a / 16) } else t
    | .reg u c r =>
      if t.stands u c then t.setCrs u c ((t.crs u c).cleanUnit (t.grid (t.wg u).gid).launch r) else t) s

-- ## The control region: what stands where (R17)

/-- A place in the control region. -/
inductive Place where
  | transl (d off : Nat)
  | link (l off : Nat)
  | seq (l off : Nat)
  | rotary (d j : Nat)
  | debug (d off : Nat)
  | coreCtr (k i off : Nat)
  | dieCtr (d i off : Nat)
  | linkCtr (l i off : Nat)
  | ownPeer
  | route (n : Nat)
  | window (i off : Nat)
  | acl (i off : Nat)
  | queue (q off : Nat)
  | resv (i off : Nat)
  | mbox (m : Nat)
  | rule (i off : Nat)
  | egress (i off : Nat)
  | tsrc
  | nothing
deriving DecidableEq, Repr

/-- The place in a compute die's block (R44, R97, R347, R358, R404, R408). -/
def diePlace (d o : Nat) : Place :=
  if o < 0x10000 then .transl d o
  else if o < 0x14000 then .link (4 * d + (o - 0x10000) / 0x1000) (o % 0x1000)
  else if o < 0x20000 then .nothing
  else if o < 0x40000 then .seq (4 * d + (o - 0x20000) / 0x8000) (o % 0x8000)
  else if o < 0x40100 then .rotary d ((o - 0x40000) / 4)
  else if o < 0x80000 then .nothing
  else if o < 0x80038 then .debug d (o - 0x80000)
  else if o < 0x100000 then .nothing
  else if o < 0x109000 then (if o % 0x100 < 0x80 then .coreCtr (d * 144 + (o - 0x100000) / 0x100) (o % 0x100 / 16) (o % 16) else .nothing)
  else if o < 0x110000 then .nothing
  else if o < 0x110100 then .dieCtr d ((o - 0x110000) / 16) (o % 16)
  else if o < 0x111000 then .nothing
  else if o < 0x111100 then .linkCtr (4 * d + (o - 0x111000) / 0x40) (o % 0x40 / 16) (o % 16)
  else .nothing

/-- The place in the I/O die's blocks (R96, R192, R199, R208, R391, R414, R416, R417). -/
def ioPlace (o : Nat) : Place :=
  if o < 8 then .ownPeer
  else if o < 0x10000 then .nothing
  else if o < 0x14000 then .route ((o - 0x10000) / 4)
  else if o < 0x20000 then .nothing
  else if o < 0x20400 then .window ((o - 0x20000) / 32) (o % 32)
  else if o < 0x30000 then .nothing
  else if o < 0x31000 then .acl ((o - 0x30000) / 16) (o % 16)
  else if o < 0x40000 then .nothing
  else if o < 0x41000 then .queue ((o - 0x40000) / 64) (o % 64)
  else if o < 0x50000 then .nothing
  else if o < 0x50200 then .resv ((o - 0x50000) / 32) (o % 32)
  else if o < 0x60000 then .nothing
  else if o < 0x60800 then .mbox ((o - 0x60000) / 8)
  else if o < 0x80000 then .nothing
  else if o < 0x81000 then .rule ((o - 0x80000) / 64) (o % 64)
  else if o < 0x90000 then .nothing
  else if o < 0x90100 then .egress ((o - 0x90000) / 32) (o % 32)
  else if o < 0xA0000 then .nothing
  else if o < 0xA0008 then .tsrc
  else .nothing

/-- The place of an address of the control region. -/
def placeOf (pa : Nat) : Place :=
  let o := pa - 0x020000000000
  if o < 0x4000000 then diePlace (o / 2 ^ 24) (o % 2 ^ 24)
  else if o < 0x40000000 then .nothing
  else ioPlace (o - 0x40000000)

/-- Bytes of the register at a place: 4 for those that the maps space by 4, else 8 (log entry 14). -/
def Place.width : Place → Nat
  | .transl _ o => if 0x100 ≤ o ∧ o < 0x140 then 4 else 8
  | .seq _ o => if o < 0x4000 ∨ o = 0x5000 then 4 else 8
  | .rotary _ _ => 4
  | .route _ => 4
  | _ => 8

-- ## Reads (R6)

/-- A word of a counter (R408). -/
def Counter.word (c : Counter) (off : Nat) : Nat :=
  if off < 8 then c.src.toNat + ofBool c.en * 2 ^ 6 + ofBool c.ovf * 2 ^ 7 else c.count.toNat

/-- A translation register (R44). -/
def Die.regRead (d : Die) (o : Nat) : Nat :=
  match o with
  | 0x0 => d.iva.toNat
  | 0x8 => d.iscope.toNat
  | 0x10 => ofBool d.running.isSome + ofBool d.bad * 2 + d.invDone.toNat * 2 ^ 32
  | 0x200 => d.mqbase.toNat
  | 0x208 => d.mqsize.toNat
  | 0x210 => d.mqhead.toNat
  | 0x218 => d.mqtail.toNat
  | _ => if 0x100 ≤ o ∧ o < 0x140 then (Tab.get 0 d.thresh ((o - 0x100) / 4)).toNat else 0

/-- A slot entry of a rotation table. -/
def RotSlot.word (r : RotSlot) : Nat := r.speer + ofBool r.sv * 2 ^ 12 + r.slen * 2 ^ 32

/-- A register of a link (R97). -/
def Link.regRead (l : Link) (o : Nat) : Nat :=
  match o with
  | 0x0 => l.lmode + ofBool l.drain * 4
  | 0x8 => l.state + l.groups * 2 ^ 4 + l.light * 2 ^ 8 + ofBool l.bad * 2 ^ 24 + ofBool l.miswire * 2 ^ 25
  | 0x10 => l.lpeer
  | 0x18 => l.nslot
  | 0x20 => l.t0
  | 0x28 => l.crcth
  | _ => if 0x100 ≤ o ∧ o < 0x180 then (l.slot ((o - 0x100) / 8)).word else 0

/-- STATE of a context, as a number (R358). -/
def CtxState.code : CtxState → Nat
  | .idle => 0
  | .running => 1
  | .waiting => 2
  | .faulted => 3
  | .stopped => 4

/-- A register of a sequencer (R358). -/
def Seqr.regRead (q : Seqr) (o : Nat) : Nat :=
  let x := q.ctx ((o - 0x4000) / 0x100)
  let r := o % 0x100
  if o < 0x4000 then (Tab.get 0 q.imem (o / 4)).toNat
  else if o = 0x5000 then q.wdog.toNat
  else if o = 0x5008 then ofBool q.iecc + ofBool q.bad * 2
  else if 0x4400 ≤ o then 0
  else if r = 0 then x.st.code + x.cause * 2 ^ 8 + x.hch * 2 ^ 16 + ofBool x.held * 2 ^ 18
  else if r = 0x8 then x.cpc
  else if r = 0x10 then x.faddr.toNat
  else if r = 0x18 then x.faultWord
  else if r = 0x20 then x.casn
  else if 0x80 ≤ r then (x.reg ((r - 0x80) / 8)).toNat
  else 0

/-- A debug register (R404). -/
def State.debugRead (s : State) (d o : Nat) : Nat :=
  let g := (s.die d).dbg
  match o with
  | 0x0 => g.sel.toNat
  | 0x10 => g.unit.toNat
  | 0x18 => g.addr.toNat
  | 0x20 => g.data.toNat % 2 ^ 64
  | 0x28 => g.data.toNat / 2 ^ 64
  | 0x30 => s.dstat d
  | _ => 0

/-- QSTATE as a queue's register shows it, and the rest of the queue's registers (R192). -/
def Queue.regRead (q : Queue) (o : Nat) : Nat :=
  match o with
  | 0x0 => q.qbase.toNat
  | 0x8 => q.qlog + ofBool q.qen * 2 ^ 8 + ofBool q.qlc * 2 ^ 9
  | 0x10 => q.wpa.toNat
  | 0x18 => q.swa.toNat
  | 0x20 => q.rp.toNat
  | 0x28 => q.qstate + q.qerr * 2 ^ 8
  | 0x30 => q.wpseen.toNat
  | _ => 0

/-- The value of the register at a place: WO fields and reserved bits read zero (R6, R7). -/
def State.ctlValue (s : State) : Place → Nat
  | .transl d o => (s.die d).regRead o
  | .link l o => (s.link l).regRead o
  | .seq l o => (s.seqr l).regRead o
  | .rotary d j => (Tab.get 0 (s.core (144 * d)).rotary j).toNat
  | .debug d o => s.debugRead d o
  | .coreCtr k i o => (Tab.get .reset (s.core k).ctrs i).word o
  | .dieCtr d i o => (Tab.get .reset (s.die d).ctrs i).word o
  | .linkCtr l i o => (Tab.get .reset (s.link l).ctrs i).word o
  | .ownPeer => s.ownPeer.toNat
  | .route n => (Tab.get 0 s.routes n).toNat % 2 ^ 18
  | .window i o =>
    let w := Tab.get ((0, 0, 0) : W64 × W64 × W64) s.windows i
    if o = 0 then bits w.1.toNat 47 16 * 2 ^ 16
    else if o = 8 then bits w.2.1.toNat 47 16 * 2 ^ 16
    else if o = 16 then bits w.2.2.toNat 11 0 + bits w.2.2.toNat 27 16 * 2 ^ 16 + bits w.2.2.toNat 35 32 * 2 ^ 32
    else 0
  | .acl i o =>
    let w := Tab.get Acl.reset s.acl i
    if o = 0 then bits w.1.toNat 11 0 + bits w.1.toNat 27 16 * 2 ^ 16 + bits w.1.toNat 35 32 * 2 ^ 32 else w.2.toNat
  | .queue q o => (s.queue q).regRead o
  | .resv i o =>
    let e := s.resvAt i
    if o = 0 then e.w0.toNat else if o = 8 then e.w1.toNat else if o = 16 then e.w2.toNat else ofBool (s.lready i)
  | .mbox m => (s.mbox m).binding.toNat
  | .rule i o =>
    let r := Tab.get .reset s.rules i
    if o = 0x38 then r.drops.toNat else r.word (o / 8)
  | .egress i o =>
    let e := Tab.get .reset s.egress i
    if o = 8 then e.ctl.toNat else if o = 16 then e.ring.toNat else 0
  | .tsrc => s.tsrc.toNat
  | .nothing => 0

-- ## Writes (R7)

/-- The bits of the register at a place that a read returns and a write replaces: an access narrower than the register
leaves these as they stand where it does not reach. -/
def Place.keeps : Place → Nat
  | .transl _ o => if o = 0x8 then 2 ^ 32 - 1 else if o = 0x10 then 0 else 2 ^ 64 - 1
  | .link _ o => if o = 0 then 7 else if o = 8 then 0 else 2 ^ 64 - 1
  | .seq _ o => if o = 0x5008 ∨ (0x4000 ≤ o ∧ o < 0x5000 ∧ o % 0x100 = 0) then 0 else 2 ^ 64 - 1
  | .debug _ o => if o = 8 ∨ o = 0x30 then 0 else 2 ^ 64 - 1
  | .coreCtr _ _ o => if o < 8 then 0x7F else 2 ^ 64 - 1
  | .dieCtr _ _ o => if o < 8 then 0x7F else 2 ^ 64 - 1
  | .linkCtr _ _ o => if o < 8 then 0x7F else 2 ^ 64 - 1
  | .queue _ o => if o = 0x28 then 0 else 2 ^ 64 - 1
  | _ => 2 ^ 64 - 1

/-- A counter after a write of one of its words; a reserved bit refuses it (R408). -/
def Counter.put (c : Counter) (off v : Nat) : Counter :=
  if 8 ≤ off then { c with count := BitVec.ofNat 64 v }
  else if v / 2 ^ 8 ≠ 0 then c
  else { c with src := BitVec.ofNat 6 v, en := bit v 6, ovf := c.ovf && !bit v 7 }

/-- A write to a translation register (R44). -/
def State.translWrite (s : State) (d o v : Nat) : Host.Outcome State Fault Refusal :=
  let x := s.die d
  let put := fun (y : Die) => (.next (s.setDie d y) : Host.Outcome State Fault Refusal)
  match o with
  | 0x0 => if bits v 15 0 ≠ 0 ∨ bits v 63 54 ≠ 0 then .next s else put { x with iva := BitVec.ofNat 64 v }
  | 0x8 =>
    if bit v 32 then execInvalidate d (BitVec.ofNat 64 v) s
    else if bits v 15 10 ≠ 0 ∨ bits v 63 33 ≠ 0 then .next s
    else put { x with iscope := BitVec.ofNat 64 v }
  | 0x10 => if bits v 31 2 ≠ 0 then .next s else put { x with bad := x.bad && !bit v 1 }
  | 0x200 => if bits v 11 0 ≠ 0 ∨ bits v 63 48 ≠ 0 then .next s else put { x with mqbase := BitVec.ofNat 64 v }
  | 0x208 => if bits v 63 16 ≠ 0 then .next s else put { x with mqsize := BitVec.ofNat 16 v }
  | 0x218 => if bits v 63 16 ≠ 0 then .next s else execMqtailWrite d v s
  | _ => if 0x100 ≤ o ∧ o < 0x140 then put { x with thresh := Tab.put 0 x.thresh ((o - 0x100) / 4) (BitVec.ofNat 32 v) } else .next s

/-- The outcome's next state, carried on. -/
def andThen (o : Host.Outcome State Fault Refusal) (f : State → Host.Outcome State Fault Refusal) :
    Host.Outcome State Fault Refusal :=
  match o with
  | .next t => f t
  | .fault e => .fault e
  | .refused e => .refused e

/-- A write of LMODE, DRAIN and READMIT (R97, R98, R101, R102, R427). -/
def State.linkModeWrite (s : State) (l v : Nat) : Host.Outcome State Fault Refusal :=
  let x := s.link l
  let mode := v % 4
  if mode = 3 ∨ (mode = 2 ∧ (bits v 63 4 ≠ 0 ∨ x.badTable)) then .next (s.setLink l { x with bad := true })
  else if bits v 63 4 ≠ 0 then .next s
  else
    andThen (if bit v 2 = x.drain then .next s else execDrain l (bit v 2) s) fun t =>
    andThen (if mode = 0 then execLinkOff l t else execLinkTrain l mode t) fun u =>
    if bit v 3 then execReadmit l u else .next u

/-- A write to a register of a link (R97, R98). -/
def State.linkWrite (s : State) (l o v : Nat) : Host.Outcome State Fault Refusal :=
  let x := s.link l
  let put := fun (y : Link) => (.next (s.setLink l y) : Host.Outcome State Fault Refusal)
  let rot := fun (ok : Bool) (y : Link) =>
    if x.lmode = 2 then put { x with bad := true } else if ok then put y else .next s
  match o with
  | 0x0 => s.linkModeWrite l v
  | 0x8 => if bits v 63 26 ≠ 0 then .next s else put { x with bad := x.bad && !bit v 24, miswire := x.miswire && !bit v 25 }
  | 0x10 => if bits v 63 12 ≠ 0 then .next s else put { x with lpeer := v }
  | 0x18 => rot (decide (bits v 63 5 = 0)) { x with nslot := v }
  | 0x20 => rot true { x with t0 := v }
  | 0x28 => if bits v 63 32 ≠ 0 then .next s else put { x with crcth := v }
  | _ =>
    if 0x100 ≤ o ∧ o < 0x180 then
      rot (decide (bits v 31 13 = 0)) { x with slots := Tab.set x.slots ((o - 0x100) / 8) ⟨bits v 11 0, bit v 12, bits v 63 32⟩ }
    else .next s

/-- A write to a register of a sequencer (R358). -/
def State.seqWrite (s : State) (l o v : Nat) : Host.Outcome State Fault Refusal :=
  let q := s.seqr l
  let put := fun (y : Seqr) => (.next (s.setSeqr l y) : Host.Outcome State Fault Refusal)
  let k := (o - 0x4000) / 0x100
  let x := q.ctx k
  let r := o % 0x100
  let rests := decide (x.st = .idle) || x.rests
  if o < 0x4000 then put { q with imem := Tab.put 0 q.imem (o / 4) (BitVec.ofNat 32 v), broken := Tab.del q.broken (o / 4) }
  else if o = 0x5000 then put { q with wdog := BitVec.ofNat 32 v }
  else if o = 0x5008 then
    if bits v 63 2 ≠ 0 then .next s else put { q with iecc := q.iecc && !bit v 0, bad := q.bad && !bit v 1 }
  else if 0x4400 ≤ o then .next s
  else if r = 0 then
    if bit v 3 || decide (bits v 63 19 ≠ 0) then .next s
    else if bit v 7 then execAbort l k s
    else if bit v 6 then execStop l k s
    else if bit v 5 then execSeqStep l k s
    else if bit v 4 then execGo l k s
    else .next s
  else if r = 8 then
    if bits v 63 14 ≠ 0 ∨ v % 4 ≠ 0 ∨ !rests then put { q with bad := true } else put (q.setCtx k { x with cpc := v })
  else if 0x80 ≤ r then
    if !rests then put { q with bad := true } else put (q.setCtx k (x.setReg ((r - 0x80) / 8) (BitVec.ofNat 64 v)))
  else .next s

/-- A write to a debug register (R404). -/
def State.debugWrite (s : State) (d o v : Nat) : Host.Outcome State Fault Refusal :=
  let put := fun (f : Dbg → Dbg) => (.next (s.mapDbg d f) : Host.Outcome State Fault Refusal)
  match o with
  | 0x0 => if bits v 63 15 ≠ 0 then .next s else put fun g => { g with sel := BitVec.ofNat 64 v }
  | 0x8 => s.debugCommand d v
  | 0x10 => if bits v 63 22 ≠ 0 then .next s else put fun g => { g with unit := BitVec.ofNat 64 v }
  | 0x18 => put fun g => { g with addr := BitVec.ofNat 64 v }
  | 0x20 => put fun g => { g with data := BitVec.ofNat 128 (g.data.toNat / 2 ^ 64 * 2 ^ 64 + v) }
  | 0x28 => put fun g => { g with data := BitVec.ofNat 128 (g.data.toNat % 2 ^ 64 + v * 2 ^ 64) }
  | _ => .next s

/-- A write to QLOG, QEN and QLC (R192, R428). -/
def State.queueModeWrite (s : State) (k v : Nat) : Host.Outcome State Fault Refusal :=
  let q := s.queue k
  let reserved := decide (bits v 7 5 ≠ 0) || decide (bits v 63 10 ≠ 0)
  if bit v 8 then
    if q.qen then (if reserved then .next s else .next (s.setQueue k { q with qlc := bit v 9 }))
    else
      let n := { q with qlog := v % 32, qlc := bit v 9 }
      if reserved || !n.configured then .next (s.setQueue k { q with qerr := 0x10 })
      else execQueueEnable k (s.setQueue k n)
  else if reserved then .next s
  else if q.qen then execQueueDisable k (s.setQueue k { q with qlc := bit v 9 })
  else .next (s.setQueue k { q with qlog := v % 32, qlc := bit v 9 })

/-- A write to a register of a queue (R192, R197). -/
def State.queueWrite (s : State) (k o v : Nat) : Host.Outcome State Fault Refusal :=
  let q := s.queue k
  let put := fun (ok : Bool) (y : Queue) =>
    (.next (if q.qen || !ok then s else s.setQueue k y) : Host.Outcome State Fault Refusal)
  match o with
  | 0x0 => put (decide (bits v 6 0 = 0) && decide (bits v 63 48 = 0)) { q with qbase := BitVec.ofNat 64 v }
  | 0x8 => s.queueModeWrite k v
  | 0x10 => put (decide (bits v 2 0 = 0) && decide (bits v 63 48 = 0)) { q with wpa := BitVec.ofNat 64 v, wrote := [] }
  | 0x18 => put (decide (bits v 3 0 = 0) && decide (bits v 63 48 = 0)) { q with swa := BitVec.ofNat 64 v }
  | 0x20 => put true { q with rp := BitVec.ofNat 64 v }
  | 0x28 =>
    if bits v 7 2 ≠ 0 ∨ bits v 63 18 ≠ 0 then .next s
    else if bit v 17 then execSkip k s
    else if bit v 16 then execResume k s
    else .next s
  | _ => .next s

/-- A write to a word of a reservation entry (R208, R209). -/
def State.resvWrite (s : State) (i o v : Nat) : Host.Outcome State Fault Refusal :=
  let e := s.resvAt i
  let put := fun (ok : Bool) (y : Resv) =>
    (.next (if ok then { s with resv := Tab.set s.resv i y } else s) : Host.Outcome State Fault Refusal)
  match o with
  | 0x0 =>
    if bits v 7 1 ≠ 0 ∨ bits v 63 48 ≠ 0 then .next s
    else if bit v 0 then .next (s.reserve i (BitVec.ofNat 64 v))
    else if bit e.w0.toNat 0 then
      andThen (execReservationRelease i s) fun t =>
        let f := t.resvAt i
        .next (if bit f.w0.toNat 0 then t else { t with resv := Tab.set t.resv i { f with w0 := BitVec.ofNat 64 v } })
    else put true { e with w0 := BitVec.ofNat 64 v }
  | 0x8 => put (decide (bits v 63 10 = 0)) { e with w1 := BitVec.ofNat 64 v }
  | 0x10 => put (decide (bits v 63 24 = 0)) { e with w2 := BitVec.ofNat 64 v }
  | _ => .next s

/-- A write to an egress entry (R416): EV = 1 resets the ring index, and is refused with a reserved bit set. -/
def State.egressWrite (s : State) (i o v : Nat) : State :=
  let e := Tab.get .reset s.egress i
  let ringBad := fun (w : Nat) => decide (bits w 15 14 ≠ 0) || decide (bits w 63 54 ≠ 0)
  let put := fun (y : Egress) => { s with egress := Tab.set s.egress i y }
  if o = 8 then
    if v / 2 ^ 8 ≠ 0 ∨ v % 128 ≠ 0 ∨ ringBad e.ring.toNat then s
    else put { e with ctl := BitVec.ofNat 64 v, ringK := 0, holder := none, primed := [] }
  else if o = 16 then if ringBad v then s else put { e with ring := BitVec.ofNat 64 v, holder := none, primed := [] }
  else s

/-- A whole register at a place written with a value of its width. -/
def State.ctlPut (s : State) (p : Place) (v : Nat) : Host.Outcome State Fault Refusal :=
  match p with
  | .transl d o => s.translWrite d o v
  | .link l o => s.linkWrite l o v
  | .seq l o => s.seqWrite l o v
  | .rotary d j =>
    .next ((List.range 144).foldl (fun t i => t.setCore (144 * d + i)
      { t.core (144 * d + i) with rotary := Tab.put 0 (t.core (144 * d + i)).rotary j (BitVec.ofNat 32 v) }) s)
  | .debug d o => s.debugWrite d o v
  | .coreCtr k i o =>
    .next (s.setCore k { s.core k with ctrs := Tab.set (s.core k).ctrs i ((Tab.get .reset (s.core k).ctrs i).put o v) })
  | .dieCtr d i o =>
    .next (s.setDie d { s.die d with ctrs := Tab.set (s.die d).ctrs i ((Tab.get .reset (s.die d).ctrs i).put o v) })
  | .linkCtr l i o =>
    .next (s.setLink l { s.link l with ctrs := Tab.set (s.link l).ctrs i ((Tab.get .reset (s.link l).ctrs i).put o v) })
  | .ownPeer => .next (if v / 2 ^ 12 ≠ 0 then s else { s with ownPeer := BitVec.ofNat 12 v })
  | .route n => execRouteEntryWrite n v s
  | .window i o =>
    let w := Tab.get ((0, 0, 0) : W64 × W64 × W64) s.windows i
    let x := BitVec.ofNat 64 v
    let y := if o = 0 then (x, w.2.1, w.2.2) else if o = 8 then (w.1, x, w.2.2) else if o = 16 then (w.1, w.2.1, x) else w
    .next { s with windows := Tab.put (0, 0, 0) s.windows i y }
  | .acl i o =>
    let w := Tab.get Acl.reset s.acl i
    let x := BitVec.ofNat 64 v
    .next { s with acl := Tab.put Acl.reset s.acl i (if o = 0 then (x, w.2) else (w.1, x)) }
  | .queue q o => s.queueWrite q o v
  | .resv i o => s.resvWrite i o v
  | .mbox m => execMailboxBind m v s
  | .rule i o =>
    if o = 8 then execIngressRuleWrite i (BitVec.ofNat 64 v) s
    else
      let r := Tab.get .reset s.rules i
      let bad := decide (o = 0x38) || (decide (o = 0x30) && (decide (bits v 15 14 ≠ 0) || decide (bits v 63 54 ≠ 0)))
      .next (if bad then s else { s with rules := Tab.set s.rules i { r with words := Tab.put 0 r.words (o / 8) (BitVec.ofNat 64 v) } })
  | .egress i o => .next (s.egressWrite i o v)
  | .tsrc => .next (if v / 4 ≠ 0 then s else { s with tsrc := BitVec.ofNat 2 v })
  | .nothing => .next s

-- ## Accesses to the control region (R7, R18, R358)

/-- The access takes a size that its region accepts: instruction memory takes 4 bytes alone (R358). -/
def ctlSizeOk (pa n : Nat) : Bool :=
  match placeOf pa with
  | .seq _ o => decide (0x4000 ≤ o) || decide (n = 4)
  | _ => true

/-- A byte that a read returns. -/
def State.ctlByte (s : State) (pa : Nat) : Nat :=
  let p := placeOf pa
  let base := pa / p.width * p.width
  byteOf (s.ctlValue (placeOf base)) (pa - base)

/-- A read of the control region: registers in ascending order. -/
def State.ctlRead (s : State) (pa n : Nat) : Nat :=
  (List.range n).foldl (fun a k => a + s.ctlByte (pa + k) * 2 ^ (8 * k)) 0

/-- A write of `n` bytes that lie in one register, whose other bits stay as they stand. -/
def State.ctlPart (s : State) (pa n v : Nat) : Host.Outcome State Fault Refusal :=
  let w := (placeOf pa).width
  let base := pa / w * w
  let p := placeOf base
  let sh := 8 * (pa - base)
  let m := (2 ^ (8 * n) - 1) * 2 ^ sh
  let kept := (s.ctlValue p &&& p.keeps) &&& ((2 ^ 64 - 1) ^^^ m)
  s.ctlPut p (kept ||| v % 2 ^ (8 * n) * 2 ^ sh)

/-- A write to the control region: of one register or less, or of several registers in ascending order (log entry 14). -/
def State.ctlWrite (s : State) (pa n v : Nat) (fuel : Nat) : Host.Outcome State Fault Refusal :=
  match fuel with
  | 0 => .next s
  | f + 1 =>
    let w := (placeOf pa).width
    if n ≤ w then s.ctlPart pa n v
    else andThen (s.ctlPart pa w v) fun t => t.ctlWrite (pa + w) (n - w) (v / 2 ^ (8 * w)) f

-- ## Physical accesses (R14, R18)

/-- Why a physical access fails. -/
inductive PhysFail where
  | hole | malformed | poison
deriving DecidableEq, Repr

/-- The address lies in the control region. -/
def inControl (pa : Nat) : Bool := decide (pa / 2 ^ 32 = 0x200)

/-- A physical read of an aligned access: what it reads or why it fails, and the state in which a read of stack memory has filled its
slate (R71). -/
def State.physRead (s : State) (pa n : Nat) : State × Except PhysFail Nat :=
  if inStack pa then
    let t := s.settleRange pa n
    ((t.homeRead pa n).1, if t.rangePoisoned pa n then .error .poison else .ok (t.homeRead pa n).2)
  else if inControl pa then (s, if ctlSizeOk pa n then .ok (s.ctlRead pa n) else .error .malformed)
  else match apertureCore pa with
    | none => (s, .error .hole)
    | some k =>
      let o := pa % 2 ^ 21
      (s, if (List.range n).any fun j => s.poolPoisoned k (o + j) then .error .poison
        else .ok ((List.range n).foldl (fun a j => a + s.poolRead k (o + j) * 2 ^ (8 * j)) 0))

/-- A physical write of an aligned access. -/
def State.physWrite (s : State) (pa n v : Nat) : Except PhysFail (Host.Outcome State Fault Refusal) :=
  if inStack pa then .ok (.next (s.homeWrite pa (bytesOf n v)))
  else if inControl pa then
    if ctlSizeOk pa n then .ok (s.ctlWrite pa n v 16) else .error .malformed
  else match apertureCore pa with
    | none => .error .hole
    | some k =>
      .ok (.next (((List.range n).foldl (fun t j => t.poolWrite k (pa % 2 ^ 21 + j) (byteOf v j)) s).poolClean k (pa % 2 ^ 21) n))

-- ## The Umhal port (R412)

/-- A response. -/
def State.respond (s : State) (status data tfs : Nat) : State := { s with umhal := ⟨status, data, tfs⟩ }

/-- Statuses of failing accesses. -/
def PhysFail.status : PhysFail → Nat
  | .hole => 1
  | .poison => 3
  | .malformed => 4

/-- A size and an alignment that the port accepts. -/
def umhalOk (addr n : Nat) : Bool := [4, 8, 16, 64].contains n && decide (addr % n = 0)

/-- The response to a read. -/
def respondRead (r : State × Except PhysFail Nat) : State :=
  match r.2 with
  | .ok v => r.1.respond 0 v 0
  | .error e => r.1.respond e.status 0 0

/-- An operation of an agent whose outcome is given is performed in its turn (R166). -/
def State.inTurnOf (s : State) (i : Instr) (o : Host.Outcome State Fault Refusal) : Host.Outcome State Fault Refusal :=
  match agentOf i with
  | some a => if !s.retry && s.holdsBack a then .next (s.hold i) else o
  | none => o

/-- PHYSICAL_READ (R412, R18). A port whose boot has stopped answers only with status 1 (R418). -/
def execPhysicalRead (pa size : Nat) (s : State) : Host.Outcome State Fault Refusal :=
  .next (s.inTurn (.physicalRead pa size)
    (if s.bootStop then s.respond 1 0 0
      else if !umhalOk pa size then s.respond 4 0 0
      else respondRead (s.physRead pa size)))

/-- PHYSICAL_WRITE (R412, R18). -/
def execPhysicalWrite (pa size value : Nat) (s : State) : Host.Outcome State Fault Refusal :=
  s.inTurnOf (.physicalWrite pa size value)
    (if s.bootStop then .next (s.respond 1 0 0)
      else if !umhalOk pa size then .next (s.respond 4 0 0)
      else match s.physWrite pa size value with
        | .ok o => andThen o fun t => .next (t.respond 0 0 0)
        | .error e => .next (s.respond e.status 0 0))

-- ## The port's accesses to other modules (R13, R107, R412, log entry 38)

/-- The access of the port that waits for another module. -/
def State.hostFlight (s : State) : Option Flight := (s.crs hostUid 0).flights.head?

/-- It is over. -/
def State.hostDone (s : State) : State :=
  { s.setCrs hostUid 0 { s.crs hostUid 0 with flights := [] } with reqs := s.reqs.filter fun r => r.uid ≠ hostUid }

/-- The pieces of such an access, of 16 bytes or less (R107). -/
def hostPieces (n : Nat) : List Nat := List.range (max 1 (n / 16))

/-- A read of another module's memory: one request for each piece. -/
def State.hostAsk (s : State) (peer pa n : Nat) : State :=
  let f : Flight :=
    { id := s.stamp, kind := .load 0, acq := false, rel := false, scope := .sys, marks := [], scal := false
      lanes := (hostPieces n).map fun i => ⟨i, .remote peer (pa + 16 * i), 0, min n 16, 0, 0, 0⟩
      got := [], fails := [], pc := 0, bar := 0, rep := 0 }
  (hostPieces n).foldl (fun t i => t.formReq hostUid 0 f.id i peer (pa + 16 * i) (min n 16) 0 0 .read 0 0 0 false)
    (s.setCrs hostUid 0 { s.crs hostUid 0 with flights := [f] }).fresh

/-- A write of another module's memory: one store for each piece, of a batch that is closed behind them, so that the response tells what
came of them (R115, R117). -/
def State.hostSend (s : State) (peer pa n v : Nat) : State :=
  (((hostPieces n).foldl (fun t i =>
      t.remoteStore hostUid 0 0 i peer (pa + 16 * i) (min n 16) (v / 2 ^ (128 * i) % 2 ^ (8 * min n 16)) .write 0 false) s).closeBatch
    hostUid 0 0).closeMarkers

/-- What has come of such an access: nothing yet, its data, or the status of the response. R412 gives none to a failure at another
module but POISON: another is an open value (log entry 38). -/
def State.hostAnswer (s : State) (f : Flight) : Option (Except Nat Nat) :=
  if !s.canLand hostUid 0 f then none
  else some (match f.kind with
    | .closeb _ ps _ got er _ => if closeResult ps got er % 2 ^ 32 = 0 then .ok 0 else .error (Config.remoteStatus s.steps)
    | _ => match f.fails with
      | [] => .ok (f.lanes.foldl (fun a x => a + Tab.get 0 f.got x.lane % 2 ^ (8 * x.width) * 2 ^ (128 * x.lane)) 0)
      | e :: _ => .error (if e.2 = 4 then 3 else Config.remoteStatus s.steps))

/-- A virtual access of the port (R34, R412): made `here`, or asked of another module; while its page is walked or held, or the answer
is on its way, it waits with those behind it (R166). -/
def State.umhalXlat (s : State) (i : Instr) (asn va kind : Nat) (here : State → Nat → State) (there : State → Nat → Nat → State) : State :=
  match s.hostFlight with
  | some f => (match s.hostAnswer f with
    | none => s.hold i
    | some (.ok v) => s.hostDone.respond 0 v 0
    | some (.error e) => s.hostDone.respond e 0 0)
  | none =>
    match s.ioXlat asn (s.rootOf asn) va kind with
    | .wait t => t.hold i
    | .fault t e => t.respond 2 0 (tfsWord e kind 63 false)
    | .ok t x => if x.res = .here then here t x.pa else (there t x.peer x.pa).hold i

/-- VIRTUAL_READ (R412). -/
def execVirtualRead (asn va size : Nat) (s : State) : Host.Outcome State Fault Refusal :=
  .next (s.inTurn (.virtualRead asn va size)
    (if s.bootStop then s.respond 1 0 0
      else if !umhalOk va size then s.respond 4 0 0
      else s.umhalXlat (.virtualRead asn va size) asn va 0 (fun t pa => respondRead (t.physRead pa size)) fun t p pa => t.hostAsk p pa size))

/-- VIRTUAL_WRITE (R412). -/
def execVirtualWrite (asn va size value : Nat) (s : State) : Host.Outcome State Fault Refusal :=
  .next (s.inTurn (.virtualWrite asn va size value)
    (if s.bootStop then s.respond 1 0 0
      else if !umhalOk va size then s.respond 4 0 0
      else s.umhalXlat (.virtualWrite asn va size value) asn va 1 (fun t pa => (t.homeWrite pa (bytesOf size value)).respond 0 0 0)
        fun t p pa => t.hostSend p pa size value))

/-- A kind of unit, by its place in the table of R410. -/
def unitNo : UnitKind → Nat
  | .poolRow => 0
  | .lane => 1
  | .operandUnit => 2
  | .slateWay => 3
  | .stackUnit => 4
  | .wavelength => 5

/-- The attestation report that answers a nonce (R419), signed with the identity key. -/
def State.attest (s : State) (nonce : BitVec 256) : Report :=
  { nonce := nonce, peer := s.ownPeer.toNat, images := s.images, rollback := s.rollback, retired := s.retired
    sig := Config.attestSignature (s.idKey.getD 0) nonce s.ownPeer.toNat s.images s.rollback (s.retired.map fun r => (unitNo r.1, r.2)) }

/-- The nonce in a message to firmware. -/
def nonceOf (msg : Nat) : BitVec 256 := BitVec.ofNat 256 (msg / 2 ^ (8 * (Config.noncePlace % 33)))

/-- MANAGEMENT_MAILBOX (R412, R419): a message of 64 bytes to firmware, which answers one that asks for it with the attestation report
of its nonce, or one from firmware. -/
def execManagementMailbox (toFirmware : Bool) (msg : Nat) (attest : Bool) (s : State) :
    Host.Outcome State Fault Refusal :=
  .next (s.inTurn (.managementMailbox toFirmware msg attest)
    (if s.bootStop then s.respond 1 0 0
    else if toFirmware then
      let t := s.respond 0 0 0
      { t with
        fwInbox := t.fwInbox ++ [msg % 2 ^ 512]
        report := if attest then some (s.attest (nonceOf msg)) else t.report }
    else s.respond 0 (msg % 2 ^ 512) 0))

/-- HOST_CREDIT_RETURN (R412, R413): the host takes records. -/
def execHostCreditReturn (n : Nat) (s : State) : Host.Outcome State Fault Refusal :=
  .next { s with evHost := s.evHost.deliver n }

/-- MANAGEMENT_EVENT_DELIVERY (R413). -/
def execManagementEventDelivery (n : Nat) (s : State) : Host.Outcome State Fault Refusal :=
  .next { s with evMgmt := s.evMgmt.deliver n }

-- ## The management core (R18, R387)

/-- REGISTER_WRITE (R7): a write to the control region by an agent that may write it. -/
def execRegisterWrite (pa size value : Nat) (s : State) : Host.Outcome State Fault Refusal :=
  if inControl pa && [1, 2, 4, 8, 16, 64].contains size && decide (pa % size = 0) && ctlSizeOk pa size then
    s.ctlWrite pa size value 16
  else .next s

/-- An access of the management core that changes no register of the control region: stack memory is served at home, the pool aperture
takes plain accesses alone (log entry 80). -/
def State.mgmtAccess (s : State) (a : HartAcc) : HartRes :=
  let bad := fun (t : State) => HartRes.trap t (accessFault a.kind) a.addr
  if !([1, 2, 4, 8].contains a.size) || a.addr % a.size ≠ 0 then bad s
  else if inStack a.addr then s.hartHome 16 a a.addr
  else if pmpNeeds a.kind = [1] ∨ (pmpNeeds a.kind).length ≠ 1 ∨ a.kind = .lr then bad s
  else match s.physRead a.addr a.size with
    | (t, .ok v) => .made t v
    | (t, .error _) => bad t

/-- MANAGEMENT_CORE_ACCESS (R18, R91, R165, R387): an access of the management core; an error response is the access
fault of its kind, with mtval the physical address. -/
def execManagementCoreAccess (kind : EpiKind) (pa size value : Nat) (move : HartMove) (s : State) : Host.Outcome State Fault Refusal :=
  let a : HartAcc := ⟨move, kind, pa, size, value⟩
  let i := Instr.managementCoreAccess kind pa size value move
  let made := fun (r : HartRes) => (.next (r.finish 16 a i) : Host.Outcome State Fault Refusal)
  s.inTurnOf i
    (if a.kind = .store ∧ !inStack a.addr ∧ [1, 2, 4, 8].contains a.size ∧ a.addr % a.size = 0 then
      match s.physWrite a.addr a.size a.value with
      | .ok o => andThen o fun t => made (.made t 0)
      | .error _ => made (.trap s (accessFault a.kind) a.addr)
    else made (s.mgmtAccess a))

end Sys2Proof.Machine
end

