-- ==== Sys2Proof/Machine/Errors.lean ====
section
/-! DEFINITION. Errors (R89 to R94), self-test and retirement (R410), the fatal-error dump (R411) and boot (R418). -/

namespace Sys2Proof.Machine

-- ## The fatal-error dump (R411)

/-- A record of the dump: its type, the length of its content (log entry 41), and the content. -/
def recordBytes (r : BitVec 32 × List Byte) : List Byte := bytesOf 4 r.1.toNat ++ bytesOf 4 r.2.length ++ r.2

/-- The records that fit into a room, in order. -/
def fitting (room : Nat) : List (BitVec 32 × List Byte) → List (BitVec 32 × List Byte)
  | [] => []
  | r :: rest => if r.2.length + 8 ≤ room then r :: fitting (room - (r.2.length + 8)) rest else []

/-- The records that firmware writes behind the header of a dump: as many as its memory holds. -/
def State.dumped (s : State) : List (BitVec 32 × List Byte) := fitting (2 ^ 26 - 64) (Config.dumpRecords s.steps)

/-- The dump (R411): the header, then the typed records. -/
def State.dump (s : State) (cause die : Nat) : List Byte :=
  let recs := s.dumped.flatMap recordBytes
  bytesOf 4 0x44514D44 ++ bytesOf 2 1 ++ bytesOf 2 64 ++ bytesOf 8 (64 + recs.length) ++ bytesOf 4 cause ++ bytesOf 1 die
    ++ bytesOf 3 0 ++ s.timeBytes ++ bytesOf 2 s.ownPeer.toNat ++ bytesOf 4 s.dumped.length
    ++ bytesOf 4 (crc32 recs) ++ bytesOf 20 0 ++ recs

/-- A fatal error (R411): every queue and every course stops, the dump is written, and the module waits for reset. -/
def State.fatalStop (s : State) (cause die : Nat) : State :=
  let t := s.homeWrite 0x005FFC000000 (s.dump cause die)
  { t with
    queues := Tab.mapVal (fun _ (q : Queue) => { q with qstate := if q.qen then 3 else q.qstate }) t.queues
    wgs := Tab.mapVal (fun _ (w : Workgroup) =>
      { w with courses := Tab.mapVal (fun _ (k : Course) => { k with halted := true }) w.courses }) t.wgs
    fatal := true }

/-- FATAL_ERROR (R411). -/
def execFatalError (cause die : Nat) (s : State) : Host.Outcome State Fault Refusal := .next (s.fatalStop cause die)

-- ## Errors of the arrays (R89, R92, R94)

/-- The array of a place, by its row in R89's table. -/
def ArrayUnit.array : ArrayUnit → Nat
  | .pool _ _ => 0
  | .scratch _ _ => 0
  | .acc _ _ _ => 0
  | .vreg _ _ _ => 0
  | .sreg _ _ _ => 0
  | .strip _ _ _ => 0
  | .slot _ _ _ => 1
  | .l1 _ _ => 2
  | .icache _ _ => 2
  | .tlb _ _ => 3
  | .walkCache _ _ => 3
  | .migCache _ _ => 3
  | .slate _ => 4
  | .copy _ _ => 4
  | .version _ _ _ => 4
  | .log _ _ _ => 4
  | .tag _ _ => 5
  | .versionTag _ _ => 5
  | .logTag _ _ => 5
  | .stack _ => 6
  | .imem _ _ => 7

/-- An array that parity protects: an error in it removes its entry, and nothing is corrected (R89). -/
def ArrayUnit.parity (p : ArrayUnit) : Bool := decide (p.array = 2) || decide (p.array = 3)

/-- The array code of an event (R91); for an array that R91 does not name the code is open (log entry 77). -/
def ArrayUnit.code (p : ArrayUnit) : Nat :=
  match p.array with
  | 0 => 1
  | 1 => 2
  | 4 => 3
  | 6 => 4
  | a => Config.arrayCode a

/-- The core of a place of a core, and the slate of one of a slice. -/
def State.partCore (s : State) : ArrayUnit → Option Nat
  | .pool k _ => some k
  | .scratch u _ => some (s.wg u).core
  | .acc u _ _ => some (s.wg u).core
  | .vreg u _ _ => some (s.wg u).core
  | .sreg u _ _ => some (s.wg u).core
  | .strip u _ _ => some (s.wg u).core
  | .slot u _ _ => some (s.wg u).core
  | .l1 k _ => some k
  | .icache k _ => some k
  | .tlb k _ => if k < 576 then some k else none
  | _ => none

/-- The version slate of a workgroup by its place. -/
def State.versionAt (s : State) (u i : Nat) : VSlate := ((s.wg u).version[i]?).getD ⟨none, 0, [], 0, []⟩

/-- Where a byte of a workgroup's granules, by its place among them, stands in its core's pool. -/
def Workgroup.poolAddr (w : Workgroup) (o : Nat) : Nat := (w.granules[o / 0x4000]?).getD 0 * 0x4000 + o % 0x4000

/-- The first target of a task's reduction log, from which its version slates count (R80). -/
def State.logHead (s : State) (u : Nat) : Nat := ((s.wg u).redlog.head?.map fun r => r.pa).getD 0

/-- The address that an event of the place names: the physical address, of a local array its offset in it (log entry 77). A version
slate of a reduction log is that of no address: here it is named by the one that its slice and its place in the log give. -/
def State.partAddr (s : State) : ArrayUnit → Nat
  | .pool _ n => 16 * n
  | .scratch u n => (s.wg u).poolAddr ((s.grid (s.wg u).gid).launch.rfg * 0x4000 + 16 * n)
  | .acc u a n =>
    let l := (s.grid (s.wg u).gid).launch
    (s.wg u).poolAddr ((l.rfg + l.spg) * 0x4000 + 4096 * a + 16 * n)
  | .vreg u c n => (s.wg u).poolAddr (regByteAt (s.grid (s.wg u).gid).launch c (16 * n))
  | .sreg u c n => let l := (s.grid (s.wg u).gid).launch; (s.wg u).poolAddr (regByteAt l c (l.nv * 128 + 16 * n))
  | .strip u c n => let l := (s.grid (s.wg u).gid).launch; (s.wg u).poolAddr (regByteAt l c (l.nv * 128 + l.ns * 8 + 16 * n))
  | .slot u t n => 8192 * ((s.wg u).omem[t]?).getD t + 8 * n
  | .l1 _ n => 128 * n
  | .icache _ n => 4 * n
  | .tlb _ i => i
  | .walkCache _ i => i
  | .migCache _ i => i
  | .slate pa => pa
  | .copy _ pa => pa
  | .version u i q => (s.versionAt u i).slate * 1024 + 32 * q
  | .log u i q => (slateOf (s.logHead u) + i) * 1024 + 32 * q
  | .tag sl _ => sl * 1024
  | .versionTag u i => (s.versionAt u i).slate * 1024
  | .logTag u i => (slateOf (s.logHead u) + i) * 1024
  | .stack pa => pa
  | .imem _ n => 4 * n

/-- The slice of a place of the slate cache. -/
def State.partSlice (s : State) : ArrayUnit → Nat
  | .log u i _ => logSlice (s.logHead u) i
  | .logTag u i => logSlice (s.logHead u) i
  | p => homeSlice (s.partAddr p)

/-- The die of a place: the I/O die's is number 4. -/
def State.partDie (s : State) (p : ArrayUnit) : Nat :=
  match s.partCore p with
  | some k => dieOf k
  | none => match p with
    | .tlb n _ => if n < 592 then (n - 576) / 4 else 4
    | .walkCache d _ => d
    | .migCache d _ => d
    | .imem l _ => l / 4
    | _ => s.partSlice p / 16

/-- The unit that an event of the place names and that is tested after it (R94, R410): a core's with the core's number in its die
(log entry 40), a slice's way, a unit of the stack; none of R410's for the other arrays. The way is open. -/
def State.partUnit (s : State) (p : ArrayUnit) : Option UnitKind × Nat :=
  let a := s.partAddr p
  match s.partCore p with
  | some k =>
    if p.array = 0 then (some .poolRow, k % 144 + 144 * (a / 16))
    else if p.array = 1 then (some .operandUnit, k % 144 + 144 * (a / 8))
    else (none, k % 144 + 144 * a)
  | none =>
    if p.array = 4 ∨ p.array = 5 then (some .slateWay, s.partSlice p % 16 * 16 + Config.choice s.steps % 16)
    else if p.array = 6 then (some .stackUnit, a / 32)
    else (none, a)

/-- An error is reported (R94), and its unit is to be tested (R410). -/
def State.reportError (s : State) (p : ArrayUnit) : State :=
  let u := s.partUnit p
  let t := s.errorEvent p.code (s.partDie p) u.2 (s.partAddr p)
  match u.1 with
  | some k => t.suspect k (s.partDie p) u.2
  | none => t

/-- An uncorrectable error in a slate tag (R92): a clean way is dropped; of a dirty one the second copy names the slate, all of
whose units are poisoned; with both lost the error is fatal. A way that counts pending reductions holds no data (R87). -/
def State.tagError (s : State) (sl : Nat) (both : Bool) : State :=
  match Tab.find s.tags sl with
  | none => s
  | some t =>
    if t.pend ≠ 0 then s
    else if t.d = 0 then s.dropSlate sl
    else if both then s.fatalStop 5 (homeSlice (sl * 1024) / 16)
    else
      { s with
        tags := Tab.del s.tags sl
        poison := (List.range 32).foldl (fun p q => Tab.set p (32 * sl + q) true) s.poison
        under := s.under.filter fun e => e.1 / 32 ≠ sl }

/-- A task whose version slate is lost is treated as faulting: its version is discarded, and it runs again (R92, R183), a saved one from
its beginning as it comes back. -/
def State.loseTask (s : State) (u : Nat) : State :=
  let w := s.wg u
  if w.status = .saved then s.setWg u { w with version := [], redlog := [], detadd := [], guards := [], redo := true }
  else s.restartTask u (w.tries + 1)

/-- What an uncorrectable error does at its place (R89, R92, R110). -/
def State.lose (s : State) (p : ArrayUnit) : State :=
  match p with
  | .pool k n => s.setCore k { s.core k with poolBad := Tab.set (s.core k).poolBad n true }
  | .scratch u n => s.setWg u { s.wg u with spoison := Tab.set (s.wg u).spoison n true }
  | .acc u a n => s.setWg u { s.wg u with apoison := Tab.set (s.wg u).apoison (256 * a + n) true }
  | .vreg u c n => s.setCrs u c { s.crs u c with vpoison := Tab.set (s.crs u c).vpoison n true }
  | .sreg u c n => s.setCrs u c { s.crs u c with spoison := Tab.set (s.crs u c).spoison n true }
  | .strip u c n => s.setCrs u c ((s.crs u c).putStrip n true)
  | .slot u t n =>
    let x := (s.wg u).slot t
    s.setWg u { s.wg u with slots := Tab.set (s.wg u).slots t { x with poison := Tab.set x.poison n true } }
  | .l1 k n => s.setCore k { s.core k with l1 := (s.core k).l1.filter fun e => e.line ≠ n }
  | .icache k n => s.setCore k { s.core k with icache := (s.core k).icache.filter fun e => e.1 / 8 ≠ n / 8 }
  | .tlb n i =>
    if n < 576 then s.setCore n { s.core n with tlb := (s.core n).tlb.eraseIdx i }
    else if n < 592 then s.setSeqr (n - 576) { s.seqr (n - 576) with tlb := (s.seqr (n - 576)).tlb.eraseIdx i }
    else { s with ioTlb := s.ioTlb.eraseIdx i }
  | .walkCache d i => s.setDie d { s.die d with wcache := (s.die d).wcache.eraseIdx i }
  | .migCache d i => s.setDie d { s.die d with mig := (s.die d).mig.eraseIdx i }
  | .slate pa => { s with poison := Tab.set s.poison (pa / 32) true }
  | .copy q pa => { s with copies := s.copies.filter fun c => !(decide (c.peer = q) && decide (c.slate = slateOf pa)) }
  | .version u i q =>
    let w := s.wg u
    s.setWg u { w with version := w.version.zipIdx.map fun e => if e.2 = i then { e.1 with bad := Tab.set e.1.bad q true } else e.1 }
  | .log u i q =>
    let w := s.wg u
    s.setWg u { w with redlog := w.redlog.zipIdx.map fun e => if e.2 = 32 * i + q then { e.1 with bad := true } else e.1 }
  | .tag sl both => s.tagError sl both
  | .versionTag u _ => s.loseTask u
  | .logTag u _ => s.loseTask u
  | .stack pa =>
    if s.holds (slateOf pa) then { s with under := Tab.set s.under (pa / 32) true }
    else { s with poison := Tab.set s.poison (pa / 32) true }
  | .imem l n => s.setSeqr l { s.seqr l with broken := Tab.set (s.seqr l).broken n true }

/-- A record of a task's reduction log stands in a row line of its version slates. -/
def State.logged (s : State) (u i q : Nat) : Bool := decide (q < 32) && decide (32 * i + q < (s.wg u).redlog.length)

/-- The place exists, and something stands in it. -/
def State.partHere (s : State) (p : ArrayUnit) : Bool :=
  let wg := fun (u : Nat) (f : Launch → Bool) => match Tab.find s.wgs u with
    | some w => decide (w.status = .resident) && f (s.grid w.gid).launch
    | none => false
  match p with
  | .pool k n => decide (k < 576) && decide (n < 131072) && decide (s.poolPart k (16 * n) = .free)
  | .scratch u n => wg u fun l => decide (n < 1024 * l.spg)
  | .acc u a n => wg u fun l => decide (a < l.nacc) && decide (n < 256)
  | .vreg u c n => wg u fun l => decide (c < l.ncrs) && decide (n < 8 * l.nv)
  | .sreg u c n => wg u fun l => decide (c < l.ncrs) && decide (2 * n < l.ns)
  | .strip u c n => wg u fun l => decide (c < l.ncrs) && decide (16 * n < stripBytes)
  | .slot u t n => wg u fun l => decide (t < l.nos) && decide (n < 1024)
  | .l1 k n => (s.core k).l1.any fun e => decide (e.line = n)
  | .icache k n => (s.core k).icache.any fun e => decide (e.1 / 8 = n / 8)
  | .tlb k i => decide (i < (if k < 576 then (s.core k).tlb else if k < 592 then (s.seqr (k - 576)).tlb else s.ioTlb).length)
  | .walkCache d i => decide (i < (s.die d).wcache.length)
  | .migCache d i => decide (i < (s.die d).mig.length)
  | .slate pa => s.holds (slateOf pa)
  | .copy q pa => s.copies.any fun c => decide (c.peer = q) && decide (c.slate = slateOf pa)
  | .version u i q => decide (i < (s.wg u).version.length) && decide (q < 32)
  | .log u i q => s.logged u i q
  | .tag sl _ => (Tab.find s.tags sl).isSome
  | .versionTag u i => decide (i < (s.wg u).version.length)
  | .logTag u i => s.logged u i 0
  | .stack pa => inStack pa
  | .imem l n => decide (l < 16) && decide (n < 4096)

/-- An error as the read that meets it is performed (R89, R94): a corrected one is counted, and reported beyond the threshold that
firmware sets; another is reported and has the effect of its array. -/
def State.upset (s : State) (e : Upset) : State :=
  if !s.partHere e.part then s
  else if e.lost || e.part.parity then (s.reportError e.part).lose e.part
  else
    let d := s.partDie e.part
    let n := (s.die d).corrected + 1
    let t := s.setDie d { s.die d with corrected := n }
    if Config.correctedLimit < n then t.reportError e.part else t

/-- A lane of a flight is still to be performed in a unit of stack memory or of a scratchpad. -/
def LaneAcc.inUnit (a : LaneAcc) : ArrayUnit → Bool
  | .stack pa => (match a.tgt with | .stack x => (unitsOf 32 x a.width).contains (pa / 32) | _ => false)
  | .slate pa => (match a.tgt with | .stack x => (unitsOf 32 x a.width).contains (pa / 32) | _ => false)
  | .tag sl _ => (match a.tgt with | .stack x => decide (slateOf x = sl) | _ => false)
  | .scratch u n => (match a.tgt with | .scratch v x => decide (v = u) && (unitsOf 16 x a.width).contains n | _ => false)
  | _ => false

/-- A load or an atomic that has issued is still to be performed there: an error is met by a later read, so that the trap of R91
stands at its instruction. The tag of a task's version is met once the task can restart (R92). -/
def State.inUse (s : State) (p : ArrayUnit) : Bool :=
  (s.wgs.any fun w => w.2.courses.any fun c => c.2.flights.any fun f => f.lanes.any fun a => a.inUnit p)
    || (match p with | .versionTag u _ => !s.calm u | .logTag u _ => !s.calm u | _ => false)

/-- The next error is met (R89). -/
def State.takeUpset (s : State) : Option State :=
  match s.upsets with
  | e :: r => if s.inUse e.part then none else some ({ s with upsets := r }.upset e)
  | [] => none

-- ## Patrol (R93, R94)

/-- What a patrol read of an address may read (R93): a unit of the stack by the logic die; by the slice a row line of a held slate,
of a copy of another module's, of a version slate, or of a version slate of a reduction log in that slice. -/
def State.patrolled (s : State) (pa : Nat) : List ArrayUnit :=
  let sl := slateOf pa
  let row := pa % 1024 / 32
  [.stack pa] ++ (if s.holds sl then [.slate pa] else [])
    ++ ((s.copies.filter fun c => decide (c.slate = sl)).map fun c => .copy c.peer pa)
    ++ s.wgs.flatMap fun w => ((w.2.version.zipIdx.filter fun v => decide (v.1.slate = sl)).map fun v => .version w.1 v.2 row)
      ++ ((List.range (logSlates w.2.redlog.length)).filter fun i => decide (logSlice (s.logHead w.1) i = homeSlice pa) && s.logged w.1 i row).map
        fun i => .log w.1 i row

/-- PATROL_READ (R93): a clean read changes nothing; an error is met as any read meets it. Which of the readers it is the row
does not say, and is free. -/
def execPatrolRead (pa : Nat) (e : Ecc) (s : State) : Host.Outcome State Fault Refusal :=
  let part := (pickFrom (s.patrolled pa) (Config.choice s.steps)).getD (.stack pa)
  .next (if !inStack pa then s
    else match e with
      | .clean => s
      | .corrected => s.upset ⟨part, false⟩
      | .uncorrectable => s.upset ⟨part, true⟩)

-- ## Self-test and retirement (R410)

/-- 24 hours of device time, in units of 2^-16 ns. -/
def dayTime : Nat := 86400 * 1000000000 * 2 ^ 16

/-- The unit of a core: its kinds are those of the pool, the lanes and operand memory. -/
def coreUnit : UnitKind → Bool
  | .poolRow => true
  | .lane => true
  | .operandUnit => true
  | _ => false

/-- The core of a unit of a core (log entry 40: the unit index of such a unit begins with the core's number in its die). -/
def unitCore (die unit : Nat) : Nat := die * 144 + unit % 144

/-- The link and the wavelength of a unit of a die's links (log entry 40). -/
def unitLink (die unit : Nat) : Nat := 4 * die + unit / 16 % 4

/-- A unit is put on record as retired. -/
def State.noteRetired (s : State) (k : UnitKind) (die unit : Nat) : State :=
  { s with retired := s.retired ++ [(k, die, unit)] }

-- ## Pages of a stack unit (R43, R410)

/-- Entries of a table of a level (R28). -/
def tableLength (level : Nat) : Nat := if level = 3 then 256 else 1024

/-- The leaves under a table that map a page of this module's stack memory with a given byte: where each stands, and its level. -/
def State.leavesOn (s : State) (pa table level : Nat) : List (Nat × Nat) :=
  (List.range (tableLength level)).flatMap fun i =>
    let e := (s.homeRead (table + 8 * i) 8).2
    if !bit e 0 then []
    else if bit e 1 then
      (let base := bits e 47 16 * 2 ^ 16
       if level ≤ 1 ∧ leafResolve s.ownPeer.toNat e = .here ∧ base ≤ pa ∧ pa < base + pageSize level then [(table + 8 * i, level)] else [])
    else match nextTable e level, level with
      | .ok next, n + 1 => s.leavesOn pa next n
      | _, _ => []

/-- The page-table roots that are in use: those of the live grids and collectives. -/
def State.roots (s : State) : List Nat :=
  ((s.grids.map fun g => g.2.chain.root) ++ s.colls.map fun c => c.2.root).eraseDups.filter inStack

/-- The leaves of every page that holds a byte of stack memory. -/
def State.pagesOf (s : State) (pa : Nat) : List (Nat × Nat) := (s.roots.flatMap fun r => s.leavesOn pa r 3).eraseDups

/-- A leaf entry rewritten by the management core. -/
def State.putLeaf (s : State) (at1 : Nat) (f : Nat → Nat) : State := s.homeWrite at1 (bytesOf 8 (f (s.homeRead at1 8).2))

/-- A leaf with HLD set or clear, and with another frame. -/
def heldLeaf (on : Bool) (e : Nat) : Nat := e - ofBool (bit e 12) * 2 ^ 12 + ofBool on * 2 ^ 12
/-- A leaf with another frame. -/
def movedLeaf (pa e : Nat) : Nat := e - bits e 47 16 * 2 ^ 16 + bits pa 47 16 * 2 ^ 16

/-- The management core invalidates every translation, behind what a die has running (R44). -/
def State.invalidateAll (s : State) (d : Nat) : State :=
  let x := s.die d
  s.setDie d (if x.running.isNone then { x with running := some ⟨0, 0, 0, 0⟩ } else { x with queued := x.queued ++ [⟨0, 0, 0, 0⟩] })

/-- The pages that hold a unit of the stack are held, or released again (R43, R410). -/
def State.holdPages (s : State) (die unit : Nat) (on : Bool) : State :=
  ((s.pagesOf (32 * unit)).foldl (fun (t : State) e => t.putLeaf e.1 (heldLeaf on)) s).invalidateAll (die % 4)

/-- A page copied to another frame, its poison with it (R90). -/
def State.copyPage (s : State) (src dst n : Nat) : State :=
  (List.range (n / 32)).foldl (fun t i =>
    let r := t.homeRead (src + 32 * i) 32
    let u := r.1.homeWrite (dst + 32 * i) (bytesOf 32 r.2)
    if t.poisoned (src + 32 * i) then u.poisonRange (dst + 32 * i) 32 else u) s

/-- A page of a leaf migrates to a frame that firmware chooses (R43, R410): copied, its leaf rewritten with HLD clear. -/
def State.movePage (s : State) (e : Nat × Nat) : State :=
  let old := bits (s.homeRead e.1 8).2 47 16 * 2 ^ 16
  let any := Config.spareFrame s.steps old % (2 ^ 48 / pageSize e.2) * pageSize e.2
  let new := if inStack any && inStack (any + pageSize e.2 - 1) then any else old
  (s.copyPage old new (pageSize e.2)).putLeaf e.1 fun x => heldLeaf false (movedLeaf new x)

/-- Pages that share a frame migrate together: their leaves name one new frame. -/
def State.moveTogether (s : State) : List (Nat × Nat) → State
  | [] => s
  | p :: r =>
    let t := s.movePage p
    let new := bits (t.homeRead p.1 8).2 47 16 * 2 ^ 16
    r.foldl (fun (u : State) e => u.putLeaf e.1 fun x => heldLeaf false (movedLeaf new x)) t

/-- Every page that holds a unit of the stack migrates: those of 64 KiB, which share a frame, and those of 64 MiB (R410). -/
def State.movePages (s : State) (die unit : Nat) : State :=
  let ps := s.pagesOf (32 * unit)
  if ps = [] then s
  else ((s.moveTogether (ps.filter fun e => decide (e.2 = 0))).moveTogether (ps.filter fun e => decide (e.2 ≠ 0))).invalidateAll (die % 4)

-- ## Verdicts (R410)

/-- The next state of an outcome that has one. -/
def nextOr (s : State) (o : Host.Outcome State Fault Refusal) : State := match o with | .next t => t | _ => s

/-- A link in service again after a test: its drain is over, and it trains anew where it has drained. -/
def State.undrain (s : State) (l : Nat) : State :=
  let t := nextOr s (execDrain l false s)
  if (t.link l).state = 0 then nextOr t (execLinkTrain l (t.link l).lmode t) else t

/-- What the end of a unit's test gives back (R410): its pages are released, its link is in service again; a core waits for the verdict. -/
def State.resume (s : State) (k : UnitKind) (die unit : Nat) : State :=
  match k with
  | .wavelength => s.undrain (unitLink die unit)
  | .stackUnit => s.holdPages die unit false
  | _ => s

/-- What a lasting fault leads to (R410): a spare row or the core retired, a way disabled, the pages of a frame migrated,
a wavelength's group never admitted again. -/
def State.retireUnit (s : State) (k : UnitKind) (die unit : Nat) : State :=
  let c := s.core (unitCore die unit)
  let gone := fun (t : State) => (t.setCore (unitCore die unit) { c with retired := true, testing := false })
  match k with
  | .poolRow =>
    if c.spares = 0 then (gone s).noteRetired k die unit
    else (s.setCore (unitCore die unit) { c with spares := c.spares - 1, testing := false }).noteRetired k die unit
  | .lane => (gone s).noteRetired k die unit
  | .operandUnit => (gone s).noteRetired k die unit
  | .slateWay => s.noteRetired k die unit
  | .stackUnit => (s.movePages die unit).noteRetired k die unit
  | .wavelength =>
    let l := s.link (unitLink die unit)
    let g := unit % 16 / 4
    ((s.setLink (unitLink die unit) { l with excluded := if bit l.excluded g then l.excluded else l.excluded + 2 ^ g }).noteRetired
      k die unit).undrain (unitLink die unit)

/-- The verdict of a self-test posted (R413). -/
def State.verdict (s : State) (k : UnitKind) (unit : Nat) (lasting : Bool) : State :=
  s.postEvent 6 (bytesOf 1 (Config.unitCode (unitNo k)) ++ bytesOf 1 (ofBool lasting) ++ bytesOf 6 0 ++ bytesOf 8 unit
    ++ bytesOf 16 0)

/-- A unit is under test, or was tested less than 24 hours ago. -/
def State.watch1 (s : State) (k : UnitKind) (die unit : Nat) : Option TestUnit :=
  s.watched.find? fun w => decide (w.kind = k) && decide (w.die = die) && decide (w.unit = unit)

/-- The unit is watched no more. -/
def State.unwatch (s : State) (k : UnitKind) (die unit : Nat) : State :=
  { s with watched := s.watched.filter fun w => !(decide (w.kind = k) && decide (w.die = die) && decide (w.unit = unit)) }

/-- A way of a slice that issue is to stop to: no set of the slice needs it. -/
def State.closeWay (s : State) (h : Nat) : State :=
  (((s.placesIn h).map fun p => setOf p.peer p.slate).eraseDups).foldl (fun t set => (t.roomAt h set).getD t) s

/-- The holder of a unit is quiesced before its test (R410): nothing new is placed on a core, and its workgroups leave,
but for those of the latency class; a link drains; the pages of a stack unit are held; a way gives up what it holds. -/
def State.quiesce (s : State) (k : UnitKind) (die unit : Nat) : State :=
  let core := unitCore die unit
  if coreUnit k then
    let t := s.setCore core { s.core core with testing := true }
    ((t.wgs.filter fun w => decide (w.2.status = .resident) && decide (w.2.core = core)
        && !(t.grid w.2.gid).launch.lc).map Prod.fst).foldl State.askLeave t
  else match k with
    | .wavelength =>
      let l := s.link (unitLink die unit)
      s.setLink (unitLink die unit) { l with drain := true, state := if l.state = 2 then 3 else l.state }
    | .stackUnit => s.holdPages die unit true
    | .slateWay => s.closeWay (die * 16 + unit / 16)
    | _ => s

/-- No workgroup is on a core. -/
def State.coreEmpty (s : State) (k : Nat) : Bool := s.wgs.all fun w => !(decide (w.2.status = .resident) && decide (w.2.core = k))

/-- The unit's holder is quiet, so that its test can have been made (R410): the last workgroup of its core has ended or been saved, its
link has drained, the pages held are those of no access. -/
def State.quiesced (s : State) (k : UnitKind) (die unit : Nat) : Bool :=
  if coreUnit k then s.coreEmpty (unitCore die unit)
  else match k with
    | .wavelength => let l := s.link (unitLink die unit); decide (l.state ≠ 2) && l.tx.isEmpty && l.replay.isEmpty
    | .stackUnit => (s.die (die % 4)).running.isNone
    | _ => true

/-- TARGETED_SELF_TEST (R410): the unit's holder is quiesced, for a test of the unit that an error within 24 hours of an earlier one
makes end with a lasting fault. -/
def execTargetedSelfTest (k : UnitKind) (die unit : Nat) (s : State) : Host.Outcome State Fault Refusal :=
  let second := (s.watch1 k die unit).any fun w => w.again || decide (s.dtime < w.time + dayTime)
  let t := { s with suspects := s.suspects.filter fun x => !decide (x = (k, die, unit)) }.quiesce k die unit
  .next { t.unwatch k die unit with watched := (t.unwatch k die unit).watched ++ [⟨k, die, unit, s.dtime, true, second⟩] }

/-- SELF_TEST_VERDICT (R410): the outcome of a test whose unit was quiet. A failing read, or a second error of the unit within 24
hours, makes the fault lasting; it is transient once 24 hours have passed without one. A core waits for that before it returns to
placement; what else was quiesced is in use again once the test has ended (log entry 40). -/
def execSelfTestVerdict (k : UnitKind) (die unit : Nat) (pass : Bool) (s : State) : Host.Outcome State Fault Refusal :=
  let core := unitCore die unit
  .next (match s.watch1 k die unit with
    | none => s
    | some w =>
      let r := if w.busy then s.resume k die unit else s
      if w.busy && !s.quiesced k die unit then s
      else if !pass || w.again then ((s.unwatch k die unit).retireUnit k die unit).verdict k unit true
      else if s.dtime < w.time + dayTime then
        { r with watched := r.watched.map fun x => if x = w then { w with busy := false } else x }
      else
        let t := r.unwatch k die unit
        (if coreUnit k then t.setCore core { t.core core with testing := false } else t).verdict k unit false)

/-- A reserved core that is under test or retired gets a core to replace it in its entry, and is replaced, in the same place, when its
last workgroup is gone (R410); its number in the entry stays. -/
def State.replaceCores (s : State) (i : Nat) (e : Resv) : State :=
  let out := fun (k : Nat) => (s.core k).testing || (s.core k).retired
  let free := (s.reservable i e).filter fun j => !e.held.contains j
  match e.cores.find? fun k => out k && !(e.standIn.any fun x => decide (x.1 = k)), pickFrom free (Config.choice s.steps) with
  | some k, some j =>
    let t : State := { s with resv := Tab.set s.resv i { e with standIn := e.standIn ++ [(k, j)] } }
    (t.strangers i [j]).foldl State.askLeave t
  | _, _ =>
    let gone := e.standIn.filter fun x => s.coreEmpty x.1
    if gone = [] then s
    else
      { s with resv := Tab.set s.resv i { e with
          cores := e.cores.map fun k => ((gone.find? fun x => decide (x.1 = k)).map Prod.snd).getD k
          standIn := e.standIn.filter fun x => !gone.contains x } }

/-- Every entry looks for replacements, and asks what still stands on its cores to leave: asked after each step. -/
def State.replaceAll (s : State) : State :=
  s.resv.foldl (fun t e =>
    let u := t.replaceCores e.1 e.2
    (u.strangers e.1 (u.resvAt e.1).held).foldl State.askLeave u) s

-- ## Boot (R357, R418)

end Sys2Proof.Machine

namespace Sys2Proof

/-- What the signature of an image covers: its bytes and its version (log entry 7). -/
def Image.signed (i : Image) : List Byte := i.bytes ++ Machine.bytesOf 8 i.version

/-- An image passes under a rollback counter: its signature is good under the fused key, and its version no older (R418). -/
def Image.passes (i : Image) (rollback : Nat) : Bool :=
  Config.verifies Config.fusedKey i.signed i.signature && decide (rollback ≤ i.version)

end Sys2Proof

namespace Sys2Proof.Machine

/-- A hart as the images leave it: one that has firmware runs (R387, R418). -/
def bootHart (images : List (List Byte)) (h : Nat) : Eave :=
  match Config.firmware images h with
  | some (pc, sram) => { Eave.reset with awake := true, pc := BitVec.ofNat 64 pc, sram := sram.foldl (fun t e => Tab.put 0 t (e.1 % 2 ^ 20) e.2) [] }
  | none => Eave.reset

/-- BOOT (R418): the module after reset, with the images loaded and measured, or stopped where one fails to verify. The first
boot keeps the identity key pair `key` that is generated at it (log entry 7). What is in flash and in fuses stays (R410, R418), device time never moves backward (R417), CYCLE
counts from here (R298), and a reset does not clear stack memory (log entry 42). -/
def execBoot (images : List Image) (key : Nat) (s : State) : Host.Outcome State Fault Refusal :=
  let ok := images.all fun i => i.passes s.rollback
  let loaded := if ok then images.map fun i => i.bytes else []
  .next { State.reset with
    mem := s.mem
    poison := (s.tags.foldl (fun (t : State) x => t.dropSlate x.1) s).poison
    rollback := s.rollback
    retired := s.retired
    idKey := if ok then some (s.idKey.getD key) else s.idKey
    cores := Tab.mapVal (fun _ (c : Core) => { Core.reset with retired := c.retired, spares := c.spares }) s.cores
    links := Tab.mapVal (fun _ (l : Link) => { Link.reset with excluded := l.excluded }) s.links
    images := loaded.map Config.sha256
    eaves := if ok then (List.range 16).map fun h => (h, bootHart loaded h) else []
    mgmt := if ok then bootHart loaded 16 else Eave.reset
    bootStop := !ok
    dtime := s.dtime
    steps := s.steps
    agenda := s.agenda
    upsets := s.upsets }

end Sys2Proof.Machine
end

