-- ==== Sys2Proof/Machine/Clock.lean ====
section
/-! DEFINITION. What every step does beside its event: device time and cycles (R300, R403, R417), the active sets of the cores
(R205, R206), the course's step under debug (R405), event counters (R408, R409), and the looks of egress and reservations. -/

namespace Sys2Proof.Machine

/-- What a step performed: an instruction of a course, one of a sequencer, or an event of another agent. -/
inductive Kind where
  | course | seq | event
deriving DecidableEq, Repr

-- ## Issued instructions

/-- Branches end at a program counter that may be their own. -/
def isBranch : Instr → Bool
  | .br _ => true
  | .brd _ _ => true
  | .brany _ _ => true
  | .call _ _ => true
  | .callr _ _ => true
  | .ret _ => true
  | .jmpr _ _ => true
  | _ => false

/-- The course has performed an instruction or a repetition, or has taken a trap, and does not wait at it. -/
def progressed (k t : Course) (i : Option Instr) : Bool :=
  t.wait.isNone && (decide (k.pc ≠ t.pc) || decide (k.repst ≠ t.repst) || decide (k.tlev ≠ t.tlev) || (t.exited && !k.exited)
    || (match i with | some j => isBranch j | none => false))

/-- A REP has begun, with none of its repetitions performed: no instruction has been (R255, R257). -/
def repBegins (k t : Course) (i : Option Instr) : Bool :=
  (match i with | some (.rep _ _ _ _) => true | _ => false) && decide (k.pc = t.pc) && !k.repAct && t.repAct

/-- A block of a SPILL or a FILL has been moved, and others are left (R322). -/
def blockMoved (k t : Course) (i : Option Instr) : Bool :=
  (match i with | some (.spill _ _ _ _) => true | some (.fill _ _ _ _) => true | _ => false) && decide (k.pc = t.pc)

/-- The course has issued: it has gone on, aborted its grid, or begun a wait inside its instruction (R205, R212). -/
def State.issuedNow (s t : State) (i : Option Instr) : Bool :=
  let k := s.crs t.curWg t.curCrs
  let x := t.crs t.curWg t.curCrs
  let g := (t.wg t.curWg).gid
  progressed k x i || decide ((s.grid g).abort ≠ (t.grid g).abort)
    || (decide (k.wait ≠ x.wait) && match x.wait with
      | none => false
      | some (.regs _ _) => false
      | some .structural => false
      | some .performed => false
      | some _ => true)

/-- After an issue attempt of the present course: when it was made, the grid's first issue (R187, R212), the count of R203, what the
instruction's walks have left, and the end of a debug step, at which the course stands halted again (R405). -/
def State.afterIssue (s t : State) (i : Option Instr) : State :=
  let u := t.curWg
  let c := t.curCrs
  let k := s.crs u c
  let x := t.crs u c
  let g := t.grid (t.wg u).gid
  let done := progressed k x i && !repBegins k x i
  let t1 := if s.issuedNow t i then
      let y := t.setCrs u c { x with issued := s.steps }
      if (Tab.find t.grids (t.wg u).gid).isSome && g.first.isNone then y.setGrid (t.wg u).gid { g with first := some s.dtime } else y
    else t
  if !done then t1
  else
    let w := t1.wg u
    let t2 := (t1.setWg u { w with
      retired := if w.status = .resident ∧ !blockMoved k x i then w.retired + 1 else w.retired }).dropFaults (u, 2 * c)
    if k.stepping then (t2.setCrs u c { t2.crs u c with stepping := false }).dbgEnd (dieOf w.core) resOk else t2

-- ## Waits (R205, R206)

/-- A copy of the course has something to report, or runs again (R354). -/
def Workgroup.reports (w : Workgroup) (c : Nat) : Bool :=
  w.cmds.any fun m => decide (m.crs = c) && (m.report.isSome || m.rerun)

/-- What a course waits for has come. -/
def State.waitOver (s : State) (u c : Nat) (k : Course) : Bool :=
  let w := s.wg u
  match k.wait with
  | none => true
  | some (.regs v x) => !k.anyEmpty (v, x) || k.failed.any fun f => f.marks.any fun n => (if f.scal then x else v).contains n
  | some (.granule _ _) => match k.arb with | some a => a.over | none => true
  | some (.barrier b ph) => decide ((Tab.get Bar.fresh w.bars b).ph ≠ ph) || w.reports c
  | some (.arrival b) => !(Tab.get Bar.fresh w.bars b).arr.getLsbD c || w.reports c
  | some .mwait => s.monitorOver u c || decide (k.limit = some 0)
  | some (.mailbox m) => decide ((s.mbox m).actions.length < 16) || !s.bound m
  | some .unbound => true
  | some (.slotBits t mask anyBit) => slotReady w t mask anyBit || w.reports c
  | some (.accs pend) => decide ((w.accCmds c).2 ≤ pend) || w.reports c
  | some .performed => true
  | some .version => true
  | some .structural => true

/-- A waiting course whose wait is over is pending-ready; a register wait leaves nothing behind. -/
def State.wake (s : State) (u c : Nat) (k : Course) : Course :=
  if k.sched = .waiting ∧ s.waitOver u c k then
    { k with sched := .ready, entered := s.cycle.toNat
             wait := match k.wait with | some (.regs _ _) => none | x => x }
  else k

/-- The courses of a core that are in its active set. -/
def State.actives (s : State) (k : Nat) : List (Nat × Nat) :=
  (s.wgs.filter fun e => decide (e.2.core = k) && decide (e.2.status = .resident)).flatMap fun e =>
    (e.2.courses.filter fun c => decide (c.2.sched = .active) && !c.2.exited).map fun c => (e.1, c.1)

/-- The pending-ready course of a core that has been ready longest. -/
def State.longestReady (s : State) (k : Nat) : Option (Nat × Nat) :=
  let all := (s.wgs.filter fun e => decide (e.2.core = k) && decide (e.2.status = .resident)).flatMap fun e =>
    (e.2.courses.filter fun c => decide (c.2.sched = .ready) && !c.2.exited).map fun c => (e.1, c.1, c.2.entered)
  (all.foldl (fun (b : Option (Nat × Nat × Nat)) x => match b with
    | some y => if x.2.2 < y.2.2 then some x else some y
    | none => some x) none).map fun x => (x.1, x.2.1)

/-- The vacancies of a core's active set of 8 are filled, at most one for each pending-ready course. -/
def State.fillActive (s : State) (k : Nat) (fuel : Nat) : State :=
  match fuel with
  | 0 => s
  | f + 1 =>
    if 8 ≤ (s.actives k).length then s
    else match s.longestReady k with
      | none => s
      | some (u, c) => (s.setCrs u c { s.crs u c with sched := .active, entered := s.cycle.toNat }).fillActive k f

/-- Every wait and every active set settled. -/
def State.settleSched (s : State) : State :=
  let t : State := { s with wgs := Tab.mapVal (fun u (w : Workgroup) =>
    if w.status = .resident then { w with courses := Tab.mapVal (fun c k => s.wake u c k) w.courses } else w) s.wgs }
  (((t.wgs.filter fun e => decide (e.2.status = .resident)).map fun e => e.2.core).eraseDups).foldl
    (fun t k => t.fillActive k 8) t

-- ## Time (R300, R320, R403, R417)

/-- The cycles of a step counted by a course: CTIMER and the limit of an MWAIT, while it is neither halted nor frozen. -/
def Course.tick (k : Course) (n : Nat) : Course :=
  if k.halted || k.exited then k
  else { k with ctimer := k.ctimer + BitVec.ofNat 64 n, limit := k.limit.map fun x => BitVec.ofNat 64 (x.toNat - n) }

/-- The core's clock runs: neither is the core frozen nor its die's clock held (R403, R420). -/
def State.clockRuns (s : State) (k : Nat) : Bool := !(s.core k).frozen && !(s.die (dieOf k)).clockHeld

/-- Time passes from the moment of one state for what an event has made of it: no event sets device time, and CYCLE only a
reset (R298). -/
def State.advanceTime (s0 s : State) (cycles time : Nat) : State :=
  { s with
    cycle := s.cycle + BitVec.ofNat 64 cycles
    dtime := s0.dtime + time
    steps := s0.steps + 1
    inRep := false
    retry := false
    wgs := Tab.mapVal (fun _ (w : Workgroup) =>
      if w.status = .resident ∧ s.clockRuns w.core then { w with courses := Tab.mapVal (fun _ k => k.tick cycles) w.courses }
      else w) s.wgs
    eaves := Tab.mapVal (fun c (e : Eave) =>
      if (s.mailboxesOf c).any fun m => (s.mbox m).open1 then { e with count := e.count + time } else e) s.eaves }

-- ## Event counters (R408, R409)

/-- A counter that counts n events. -/
def Counter.add (c : Counter) (n : Nat) : Counter :=
  if c.en then { c with count := c.count + BitVec.ofNat 64 n, ovf := c.ovf || decide (2 ^ 64 ≤ c.count.toNat + n) } else c

/-- The error that a step has met: one that the arrays held ready, or a patrol read's (R94). -/
def State.metError (s t : State) (i : Option Instr) : Option Upset :=
  match i with
  | some (.patrolRead pa .corrected) => some ⟨(pickFrom (s.patrolled pa) (Config.choice s.steps)).getD (.stack pa), false⟩
  | some (.patrolRead pa .uncorrectable) => some ⟨(pickFrom (s.patrolled pa) (Config.choice s.steps)).getD (.stack pa), true⟩
  | _ => if t.upsets.length < s.upsets.length then s.upsets.head?.filter fun e => s.partHere e.part else none

/-- Errors of a core's pool, or of the other arrays of a die, that a step has met: corrected, or not (R94, R409, log entry 51). -/
def errorCount (s t : State) (i : Option Instr) (pool : Bool) (at1 : Nat) (lost : Bool) : Nat :=
  match s.metError t i with
  | some e => ofBool (decide ((e.lost || e.part.parity) = lost)
      && (if pool then decide (e.part.array = 0) && decide (s.partCore e.part = some at1)
        else decide (e.part.array ≠ 0) && decide (s.partDie e.part = at1)))
  | none => 0

/-- A course may issue: it is active, or under a debug step, and nothing holds it, its workgroup, its core or its die. Where a fault
holds a task's ticket, its handler goes on though the version is full: what does not fit is discarded with it (R183). -/
def State.canIssue (s : State) (w : Workgroup) (c : Nat) (k : Course) : Bool :=
  decide (w.status = .resident) && !k.exited && (k.stepping || (!k.halted && decide (k.sched = .active)))
    && (k.stepping || !(s.core w.core).frozen) && !(s.die (dieOf w.core)).clockHeld
    && (s.grid w.gid).abort.isNone && (match w.holder with | none => !w.fullV | some h => decide (h.1 = c))
    && (match w.leave with
      | .stay => true
      | .runOn => true
      | .drain _ => true
      | .save => w.reporting
      | .flush => false)

/-- A course of a core is able to issue, and is not held at an instruction. -/
def State.ableOn (s : State) (k : Nat) : Bool :=
  s.wgs.any fun e => decide (e.2.core = k) && e.2.courses.any fun c => s.canIssue e.2 c.1 c.2 && c.2.wait.isNone

/-- The lines of the L1 that a flight reads as it lands, with whether each is held (R64, R67). -/
def State.linesRead (s : State) (t : State) (i : Option Instr) (k : Nat) (hit : Bool) : Nat :=
  match i with
  | some (.registerLand u c id) =>
    (match (s.crs u c).flights.find? fun f => decide (f.id = id) with
    | some f =>
      if (s.wg u).core ≠ k ∨ !f.plain ∨ (s.grid (s.wg u).gid).launch.ver ∨ (t.crs u c).flights.any fun x => decide (x.id = id) then 0
      else
        ((f.lanes.filterMap fun a => match a.tgt with
          | .stack pa => if s.inL1 u true a.tgt = hit then some (pa / 128) else none
          | _ => none).eraseDups).length
    | none => 0)
  | _ => 0

/-- Accesses that have joined the misses of a translation cache. -/
def Die.missers (d : Die) (unit : Nat) : List (Nat × Nat × Nat) :=
  ((d.walks ++ d.parked).filter fun m => decide (m.core = unit)).flatMap fun m => m.who.map fun w => (m.va, w.1, w.2)

/-- The entries that a translation cache has gained by a walk made at once, with no wait (log entry 15). -/
def State.walkedAtOnce (s t : State) (i : Option Instr) (unit : Nat) : Nat :=
  match i with
  | some (.walk _) => 0
  | _ => ((t.tlbOf unit).filter fun e => !(s.tlbOf unit).contains e).length

/-- Misses of a core's TLB in a step. -/
def tlbMisses (s t : State) (i : Option Instr) (k : Nat) : Nat :=
  (((t.die (dieOf k)).missers k).filter fun m => !((s.die (dieOf k)).missers k).contains m).length + s.walkedAtOnce t i k

/-- An engine command has gone on from one state to another: by a piece or a block, or to its end. -/
def cmdMoved (s t : State) (u id : Nat) : Bool :=
  match (s.wg u).cmds.find? fun m => decide (m.id = id) with
  | none => false
  | some m => match (t.wg u).cmds.find? fun m => decide (m.id = id) with
    | none => true
    | some n => decide (m.next ≠ n.next) || (n.done && !m.done)

/-- Events of a source of a core in a step from one state to another (R409); sources whose events the model does not see
one by one grow by an open number (log entry 43). -/
def coreEvents (s t : State) (kind : Kind) (i : Option Instr) (cycles k src : Nat) : Nat :=
  let here := fun (u : Nat) => decide ((s.wg u).core = k)
  let issued := decide (kind = .course) && here t.curWg && progressed (s.crs t.curWg t.curCrs) (t.crs t.curWg t.curCrs) i
  let count := fun (p : Course → Course → Bool) =>
    ((s.wgs.filter fun e => decide (e.2.core = k) && decide (e.2.status = .resident)).flatMap fun e =>
      e.2.courses.filter fun c => p c.2 (t.crs e.1 c.1)).length
  let of := fun (b : Bool) => ofBool b
  match src with
  | 0x00 => if s.clockRuns k then cycles else 0
  | 0x01 => of (issued && decide (Config.choice s.steps % 2 = 0))
  | 0x02 => of (issued && decide (Config.choice s.steps % 2 = 1))
  | 0x03 => if s.clockRuns k && !s.ableOn k then cycles else 0
  | 0x04 => match i with | some (.quantumSwap u _) => of (here u) | _ => 0
  | 0x05 => count fun a b => decide (a.sched ≠ .waiting) && decide (b.sched = .waiting)
  | 0x06 => s.linesRead t i k true
  | 0x07 => s.linesRead t i k false
  | 0x08 => tlbMisses s t i k
  | 0x0C => match i with | some (.matrixOperationComplete u m) => of (here u && cmdMoved s t u m) | _ => 0
  | 0x0E => match i with | some (.copyPiece u m) => of (here u && cmdMoved s t u m) | _ => 0
  | 0x0F => match i with | some (.writeBackBlock u m) => of (here u && cmdMoved s t u m) | _ => 0
  | 0x10 => count fun a b => decide (a.tlev < b.tlev)
  | 0x11 => (t.reqs.filter fun r => here r.uid && !s.reqs.any fun x => decide (x.tag = r.tag)).length
  | 0x12 => errorCount s t i true k false
  | 0x13 => errorCount s t i true k true
  | _ => if src < 0x14 then Config.openCount s.steps src else 0

/-- Version slates of this module's memory that tasks hold on a die. -/
def State.versionsOn (s : State) (d : Nat) : Nat :=
  s.wgs.foldl (fun n e => n + (e.2.version.filter fun v => v.peer.isNone && decide (homeSlice (v.slate * 1024) / 16 = d)).length) 0

/-- The slates of a die that a step reads or writes at their home as a flight lands or a write is performed, held before it. -/
def slateHits (s t : State) (i : Option Instr) (d : Nat) : Nat :=
  let held := fun (pas : List Nat) =>
    (((pas.map slateOf).eraseDups).filter fun sl => s.holds sl && decide (homeSlice (sl * 1024) / 16 = d)).length
  let pa := fun (x : Target) => match x with | .stack pa => some pa | _ => none
  match i with
  | some (.registerLand u c id) =>
    (match (s.crs u c).flights.find? fun f => decide (f.id = id) with
    | some f =>
      if (t.crs u c).flights.any fun x => decide (x.id = id) then 0
      else held ((f.lanes.filter fun a => !s.inL1 u f.plain a.tgt).filterMap fun a => pa a.tgt)
    | none => 0)
  | some (.writePerformed id) =>
    if t.pend.length < s.pend.length then held ((s.pend.filter fun w => decide (w.id = id)).filterMap fun w => pa w.tgt) else 0
  | _ => 0

/-- Column reads and writes of a die's slates, one of each lane (R73), that a step performs. -/
def columnAccesses (s t : State) (i : Option Instr) (d : Nat) : Nat :=
  let at1 := fun (x : Target) => match x with | .stack pa => decide (homeSlice pa / 16 = d) | _ => false
  match i with
  | some (.registerLand u c id) =>
    (match (s.crs u c).flights.find? fun f => decide (f.id = id) with
    | some f =>
      (match f.kind with
      | .load ty =>
        if ty < 32 ∨ (t.crs u c).flights.any fun x => decide (x.id = id) then 0
        else (f.lanes.filter fun a => at1 a.tgt).length
      | _ => 0)
    | none => 0)
  | some (.writePerformed id) =>
    if t.pend.length < s.pend.length then (s.pend.filter fun w => decide (w.id = id) && w.column && at1 w.tgt).length else 0
  | _ => 0

/-- The slates of a die whose pending bytes drained as a write came along the other axis (R76). -/
def drainsOn (s t : State) (d : Nat) : Nat :=
  (s.tags.filter fun e => decide (e.2.d ≠ 0) && decide (homeSlice (e.1 * 1024) / 16 = d)
    && (Tab.find t.tags e.1).any fun x => decide (x.o ≠ e.2.o) && decide (x.d = 0xFFFFFFFF)).length

/-- A walk of a die that began at a table of its walk cache (R38). -/
def cacheHits (s : State) (i : Option Instr) (d : Nat) : Nat :=
  match i with
  | some (.walk j) =>
    (match (s.die j).walks with
    | m :: _ =>
      if j ≠ d ∨ walkers j ≤ (s.die j).parked.length ∨ m.va / 2 ^ 54 ≠ 0 then 0
      else ofBool (decide (((pickFrom (walkStarts (s.die j) m) (Config.choice s.steps)).getD (m.root, 3)).2 ≠ 3))
    | [] => 0)
  | _ => 0

/-- Walks of a die in a step: of a queued miss, or of one that did not wait. -/
def walksOf (s t : State) (i : Option Instr) (d : Nat) : Nat :=
  (match i with
    | some (.walk j) => ofBool (decide (j = d) && decide ((s.die j).walks ≠ []) && !decide (walkers j ≤ (s.die j).parked.length))
    | _ => 0)
    + (((List.range 593).filter fun unit => decide (walkDie unit = d)).map fun unit => s.walkedAtOnce t i unit).foldl (· + ·) 0

/-- Events of a source of a die; of the slates' hits the model sees those of the courses' loads, atomics and stores, and of the walk
cache's those of queued walks (log entry 43). -/
def dieEvents (s t : State) (i : Option Instr) (d src : Nat) : Nat :=
  let x := s.die d
  let y := t.die d
  match src with
  | 0x20 => slateHits s t i d + Config.openCount s.steps src
  | 0x22 => columnAccesses s t i d
  | 0x23 => drainsOn s t d
  | 0x27 => cacheHits s i d + Config.openCount s.steps src
  | 0x21 => (t.tags.filter fun e => decide (homeSlice (e.1 * 1024) / 16 = d) && (Tab.find s.tags e.1).isNone).length
  | 0x24 => t.versionsOn d - s.versionsOn d
  | 0x25 => (t.reds.filter fun r => decide (homeSlice r.pa / 16 = d)).length - (s.reds.filter fun r => decide (homeSlice r.pa / 16 = d)).length
  | 0x26 => walksOf s t i d
  | 0x28 => (y.invDone - x.invDone).toNat
  | 0x29 => (y.mqhead.toNat + x.mqsize.toNat - x.mqhead.toNat) % max 1 x.mqsize.toNat
  | 0x2A => errorCount s t i false d false
  | 0x2B => errorCount s t i false d true
  | _ => if 0x20 ≤ src ∧ src < 0x2C then Config.openCount s.steps src else 0

/-- NAKs that a link has ready to send. -/
def Link.naks (l : Link) : Nat := (l.tx.filter fun f => match f.carry with | .control 1 _ => true | _ => false).length

/-- The chunks that a rotating link holds back at their turn to leave: the slot under way is none of their peer's, or too short
(R375). -/
def State.deferred (s : State) (l : Link) : List TxFlit :=
  let chunks := l.tx.filter fun f => decide (f.cls < 4)
  let turns := (List.range 4).flatMap fun k => ((chunks.map TxFlit.peer).eraseDups).filterMap fun p =>
    (chunks.filter fun f => decide (f.cls = k) && decide (f.peer = p)).head?
  if l.lmode ≠ 2 then []
  else turns.filter fun f => f.first
    && !(decide (l.sendsTo (s.dtime / 2 ^ 16) = some f.peer) && flitsFit l.groups (chunkFlits f.carry) (s.slotLeft l))

/-- Events of a source of a link. -/
def linkEvents (s t : State) (i : Option Instr) (l src : Nat) : Nat :=
  match src with
  | 0x30 => match i with | some (.flitSend j) => ofBool (decide (j = l)) | _ => 0
  | 0x31 => match i with | some (.flitReceive j _) => ofBool (decide (j = l)) | _ => 0
  | 0x32 => match i with
    | some (.flitReceive j f) => ofBool (decide (j = l) && (decide ((s.link l).state = 2) || decide ((s.link l).state = 3))
        && (!flitGood f || decide ((s.link l).expects (s.dtime / 2 ^ 16) ≠ some f.src)))
    | _ => 0
  | 0x33 => ((t.link l).replay.filter fun f => decide (f.sent = 0)).length - ((s.link l).replay.filter fun f => decide (f.sent = 0)).length
  | 0x34 => (t.link l).naks - (s.link l).naks
  | 0x35 => match i with | some (.restripe j) => ofBool (decide (j = l) && (s.link l).restriping.isSome && (t.link l).restriping.isNone) | _ => 0
  | 0x36 => ((t.deferred (t.link l)).filter fun f => !(s.deferred (s.link l)).contains f).length
  | _ => if 0x30 ≤ src ∧ src < 0x38 then Config.openCount s.steps src else 0

/-- Every counter after a step. -/
def State.tally (s t : State) (kind : Kind) (i : Option Instr) (cycles : Nat) : State :=
  { t with
    cores := Tab.mapVal (fun k (c : Core) =>
      { c with ctrs := Tab.mapVal (fun _ x => x.add (coreEvents s t kind i cycles k x.src.toNat)) c.ctrs }) t.cores
    dies := Tab.mapVal (fun d (x : Die) =>
      { x with ctrs := Tab.mapVal (fun _ y => y.add (dieEvents s t i d y.src.toNat)) x.ctrs }) t.dies
    links := Tab.mapVal (fun l (x : Link) =>
      { x with ctrs := Tab.mapVal (fun _ y => y.add (linkEvents s t i l y.src.toNat)) x.ctrs }) t.links }

-- ## The end of a step

/-- What follows the event of a step: the course's bookkeeping, the arbiters, routes that have opened and frames that can land,
counters, time, active sets, and the looks of reservations and egress. -/
def State.closeStep (s : State) (kind : Kind) (i : Option Instr) (t : State) : State :=
  let cycles := Config.stepCycles s.steps
  let issue := decide (kind = .course) || (match i with
    | some (.timer u c) => decide (u = t.curWg) && decide (c = t.curCrs)
    | _ => false)
  let a := if issue then s.afterIssue t i else t
  let b := (if a.backlog.isEmpty then a.serve.routeWaiting else a.serve.routeAll)
  ((s.advanceTime (s.tally (if b.frames.isEmpty then b else b.landWaiting) kind i cycles) cycles
    (Config.stepTime s.steps)).settleSched.wakeCtxs.replaceAll).lookAll

end Sys2Proof.Machine
end

