-- ==== Sys2Proof/Machine/Hart.lean ====
section
/-! DEFINITION. The instructions of the eave cores (R387): RV64IMAFDC with Zicsr, Zifencei, Zba and Zbb, in machine and user mode. The
manual names that architecture and does not restate it: what an instruction does is taken from it (log entry 35). An instruction is read
from private SRAM, executed in one step, and what it asks of memory or of a CSR is performed as the event that the manual has for it. -/

namespace Sys2Proof.Machine

/-- binary64. -/
def f64 : Fmt := ⟨11, 52⟩

/-- What an instruction of a hart comes to: the hart after it, an access, an access to a CSR, a trap, or nothing yet. -/
inductive HartDo where
  | regs (e : Eave)
  | acc (a : HartAcc)
  | csr (n : Nat) (a : CsrAcc)
  | trap (cause tval : Nat)
  | stays
deriving DecidableEq, Repr

/-- The low `w` bits of a number, extended with their sign to 64. -/
def sext (w v : Nat) : Nat := wrap 64 (signed w v)
/-- A sum of 64 bits. -/
def sum64 (a : Nat) (z : Int) : Nat := wrap 64 ((a : Int) + z)

-- ## Compressed instructions

/-- An instruction of the I format. -/
def encI (imm rs1 f3 rd op : Nat) : Nat := imm % 2 ^ 12 * 2 ^ 20 + rs1 * 2 ^ 15 + f3 * 2 ^ 12 + rd * 2 ^ 7 + op
/-- Of the S format. -/
def encS (imm rs2 rs1 f3 op : Nat) : Nat :=
  bits imm 11 5 * 2 ^ 25 + rs2 * 2 ^ 20 + rs1 * 2 ^ 15 + f3 * 2 ^ 12 + bits imm 4 0 * 2 ^ 7 + op
/-- Of the R format. -/
def encR (f7 rs2 rs1 f3 rd op : Nat) : Nat := f7 * 2 ^ 25 + rs2 * 2 ^ 20 + rs1 * 2 ^ 15 + f3 * 2 ^ 12 + rd * 2 ^ 7 + op
/-- A branch of the B format that compares a register with zero. -/
def encB (imm rs1 f3 : Nat) : Nat :=
  bits imm 12 12 * 2 ^ 31 + bits imm 10 5 * 2 ^ 25 + rs1 * 2 ^ 15 + f3 * 2 ^ 12 + bits imm 4 1 * 2 ^ 8 + bits imm 11 11 * 2 ^ 7 + 0x63
/-- A jump of the J format that links nowhere. -/
def encJ (imm : Nat) : Nat :=
  bits imm 20 20 * 2 ^ 31 + bits imm 10 1 * 2 ^ 21 + bits imm 11 11 * 2 ^ 20 + bits imm 19 12 * 2 ^ 12 + 0x6F

/-- The compressed instructions of quadrant 0. -/
def expand0 (h : Nat) : Option Nat :=
  let rd := 8 + bits h 4 2
  let rs := 8 + bits h 9 7
  let off8 := bits h 12 10 * 8 + bits h 6 5 * 64
  let off4 := bits h 12 10 * 8 + bits h 6 6 * 4 + bits h 5 5 * 64
  match bits h 15 13 with
  | 0 =>
    let n := bits h 12 11 * 16 + bits h 10 7 * 64 + bits h 6 6 * 4 + bits h 5 5 * 8
    if n = 0 then none else some (encI n 2 0 rd 0x13)
  | 1 => some (encI off8 rs 3 rd 0x07)
  | 2 => some (encI off4 rs 2 rd 0x03)
  | 3 => some (encI off8 rs 3 rd 0x03)
  | 5 => some (encS off8 rd rs 3 0x27)
  | 6 => some (encS off4 rd rs 2 0x23)
  | 7 => some (encS off8 rd rs 3 0x23)
  | _ => none

/-- Those of quadrant 1. -/
def expand1 (h : Nat) : Option Nat :=
  let rd := bits h 11 7
  let r := 8 + bits h 9 7
  let r2 := 8 + bits h 4 2
  let sh := bits h 12 12 * 32 + bits h 6 2
  let imm := sext 6 sh
  let jump := sext 12 (bits h 12 12 * 2048 + bits h 11 11 * 16 + bits h 10 9 * 256 + bits h 8 8 * 1024 + bits h 7 7 * 64 + bits h 6 6 * 128
    + bits h 5 3 * 2 + bits h 2 2 * 32)
  let branch := sext 9 (bits h 12 12 * 256 + bits h 11 10 * 8 + bits h 6 5 * 64 + bits h 4 3 * 2 + bits h 2 2 * 32)
  match bits h 15 13 with
  | 0 => some (encI imm rd 0 rd 0x13)
  | 1 => if rd = 0 then none else some (encI imm rd 0 rd 0x1B)
  | 2 => some (encI imm 0 0 rd 0x13)
  | 3 =>
    if rd = 2 then
      let n := sext 10 (bits h 12 12 * 512 + bits h 6 6 * 16 + bits h 5 5 * 64 + bits h 4 3 * 128 + bits h 2 2 * 32)
      if n = 0 then none else some (encI n 2 0 2 0x13)
    else if sh = 0 then none
    else some (imm % 2 ^ 20 * 2 ^ 12 + rd * 2 ^ 7 + 0x37)
  | 4 =>
    (match bits h 11 10 with
    | 0 => some (encI sh r 5 r 0x13)
    | 1 => some (encI (sh + 0x400) r 5 r 0x13)
    | 2 => some (encI imm r 7 r 0x13)
    | _ => match bits h 12 12, bits h 6 5 with
      | 0, 0 => some (encR 0x20 r2 r 0 r 0x33)
      | 0, 1 => some (encR 0 r2 r 4 r 0x33)
      | 0, 2 => some (encR 0 r2 r 6 r 0x33)
      | 0, _ => some (encR 0 r2 r 7 r 0x33)
      | _, 0 => some (encR 0x20 r2 r 0 r 0x3B)
      | _, 1 => some (encR 0 r2 r 0 r 0x3B)
      | _, _ => none)
  | 5 => some (encJ jump)
  | 6 => some (encB branch r 0)
  | _ => some (encB branch r 1)

/-- Those of quadrant 2. -/
def expand2 (h : Nat) : Option Nat :=
  let rd := bits h 11 7
  let rs2 := bits h 6 2
  let load8 := bits h 12 12 * 32 + bits h 6 5 * 8 + bits h 4 2 * 64
  let store8 := bits h 12 10 * 8 + bits h 9 7 * 64
  match bits h 15 13 with
  | 0 => some (encI (bits h 12 12 * 32 + rs2) rd 1 rd 0x13)
  | 1 => some (encI load8 2 3 rd 0x07)
  | 2 => if rd = 0 then none else some (encI (bits h 12 12 * 32 + bits h 6 4 * 4 + bits h 3 2 * 64) 2 2 rd 0x03)
  | 3 => if rd = 0 then none else some (encI load8 2 3 rd 0x03)
  | 4 =>
    if bits h 12 12 = 0 then
      (if rs2 ≠ 0 then some (encR 0 rs2 0 0 rd 0x33) else if rd = 0 then none else some (encI 0 rd 0 0 0x67))
    else if rs2 ≠ 0 then some (encR 0 rs2 rd 0 rd 0x33)
    else if rd = 0 then some 0x00100073
    else some (encI 0 rd 0 1 0x67)
  | 5 => some (encS store8 rs2 2 3 0x27)
  | 6 => some (encS (bits h 12 9 * 4 + bits h 8 7 * 64) rs2 2 2 0x23)
  | _ => some (encS store8 rs2 2 3 0x23)

/-- The instruction of 32 bits that a compressed one stands for; none where it is reserved. -/
def expandC (h : Nat) : Option Nat := match h % 4 with | 0 => expand0 h | 1 => expand1 h | _ => expand2 h

-- ## Integers

/-- Leading zeros of the low `w` bits. -/
def leading (w a : Nat) : Nat := if a % 2 ^ w = 0 then w else w - 1 - Nat.log2 (a % 2 ^ w)
/-- Trailing zeros. -/
def trailing (w a : Nat) : Nat := if a % 2 ^ w = 0 then w else Nat.log2 (a % 2 ^ w &&& (2 ^ w - a % 2 ^ w))
/-- Set bits. -/
def onesIn (w a : Nat) : Nat := ((List.range w).filter fun k => bit a k).length
/-- The low `w` bits rotated left. -/
def rotl (w a k : Nat) : Nat := (a % 2 ^ w * 2 ^ (k % w) + a % 2 ^ w / 2 ^ (w - k % w)) % 2 ^ w
/-- Each of the 8 bytes of a number replaced, the byte at a place by what `f` gives for it. -/
def byBytes (f : Nat → Nat) : Nat := (List.range 8).foldl (fun n k => n + f k * 2 ^ (8 * k)) 0

/-- A signed quotient of `w` bits. -/
def quotS (w a b : Nat) : Nat := if b % 2 ^ w = 0 then 2 ^ w - 1 else wrap w (Int.tdiv (signed w a) (signed w b))
/-- An unsigned one. -/
def quotU (w a b : Nat) : Nat := if b % 2 ^ w = 0 then 2 ^ w - 1 else a % 2 ^ w / (b % 2 ^ w)
/-- A signed remainder. -/
def remS (w a b : Nat) : Nat := if b % 2 ^ w = 0 then a % 2 ^ w else wrap w (Int.tmod (signed w a) (signed w b))
/-- An unsigned one. -/
def remU (w a b : Nat) : Nat := if b % 2 ^ w = 0 then a % 2 ^ w else a % 2 ^ w % (b % 2 ^ w)

/-- A register-register instruction (OP) by funct7 and funct3. -/
def opReg (f7 f3 a b : Nat) : Option Nat :=
  let sa := signed 64 a
  let sb := signed 64 b
  let flip := 2 ^ 64 - 1 - b
  match f7, f3 with
  | 0x00, 0 => some ((a + b) % 2 ^ 64)
  | 0x00, 1 => some (a * 2 ^ (b % 64) % 2 ^ 64)
  | 0x00, 2 => some (ofBool (decide (sa < sb)))
  | 0x00, 3 => some (ofBool (decide (a < b)))
  | 0x00, 4 => some (a ^^^ b)
  | 0x00, 5 => some (a / 2 ^ (b % 64))
  | 0x00, 6 => some (a ||| b)
  | 0x00, 7 => some (a &&& b)
  | 0x20, 0 => some (wrap 64 ((a : Int) - b))
  | 0x20, 4 => some (a ^^^ flip)
  | 0x20, 5 => some (wrap 64 (sa / 2 ^ (b % 64)))
  | 0x20, 6 => some (a ||| flip)
  | 0x20, 7 => some (a &&& flip)
  | 0x01, 0 => some (a * b % 2 ^ 64)
  | 0x01, 1 => some (wrap 64 (sa * sb / 2 ^ 64))
  | 0x01, 2 => some (wrap 64 (sa * (b : Int) / 2 ^ 64))
  | 0x01, 3 => some (a * b / 2 ^ 64)
  | 0x01, 4 => some (quotS 64 a b)
  | 0x01, 5 => some (quotU 64 a b)
  | 0x01, 6 => some (remS 64 a b)
  | 0x01, 7 => some (remU 64 a b)
  | 0x05, 4 => some (if sa < sb then a else b)
  | 0x05, 5 => some (min a b)
  | 0x05, 6 => some (if sa < sb then b else a)
  | 0x05, 7 => some (max a b)
  | 0x10, 2 => some ((a * 2 + b) % 2 ^ 64)
  | 0x10, 4 => some ((a * 4 + b) % 2 ^ 64)
  | 0x10, 6 => some ((a * 8 + b) % 2 ^ 64)
  | 0x30, 1 => some (rotl 64 a b)
  | 0x30, 5 => some (rotl 64 a (64 - b % 64))
  | _, _ => none

/-- One of 32 bits (OP-32). -/
def opReg32 (f7 f3 rs2 a b : Nat) : Option Nat :=
  let low := a % 2 ^ 32
  match f7, f3 with
  | 0x00, 0 => some (sext 32 (a + b))
  | 0x00, 1 => some (sext 32 (low * 2 ^ (b % 32)))
  | 0x00, 5 => some (sext 32 (low / 2 ^ (b % 32)))
  | 0x20, 0 => some (sext 32 (wrap 32 ((a : Int) - b)))
  | 0x20, 5 => some (wrap 64 (signed 32 a / 2 ^ (b % 32)))
  | 0x01, 0 => some (sext 32 (a * b))
  | 0x01, 4 => some (sext 32 (quotS 32 a b))
  | 0x01, 5 => some (sext 32 (quotU 32 a b))
  | 0x01, 6 => some (sext 32 (remS 32 a b))
  | 0x01, 7 => some (sext 32 (remU 32 a b))
  | 0x04, 0 => some ((low + b) % 2 ^ 64)
  | 0x04, 4 => if rs2 = 0 then some (a % 2 ^ 16) else none
  | 0x10, 2 => some ((low * 2 + b) % 2 ^ 64)
  | 0x10, 4 => some ((low * 4 + b) % 2 ^ 64)
  | 0x10, 6 => some ((low * 8 + b) % 2 ^ 64)
  | 0x30, 1 => some (sext 32 (rotl 32 a b))
  | 0x30, 5 => some (sext 32 (rotl 32 a (32 - b % 32)))
  | _, _ => none

/-- An instruction with an immediate of 12 bits (OP-IMM). -/
def opImm (f3 a imm : Nat) : Option Nat :=
  let v := sext 12 imm
  match f3 with
  | 0 => opReg 0 0 a v
  | 1 =>
    if imm < 64 then opReg 0 1 a imm
    else (match imm with
      | 0x600 => some (leading 64 a)
      | 0x601 => some (trailing 64 a)
      | 0x602 => some (onesIn 64 a)
      | 0x604 => some (sext 8 a)
      | 0x605 => some (sext 16 a)
      | _ => none)
  | 5 =>
    if imm = 0x287 then some (byBytes fun k => if byteOf a k = 0 then 0 else 255)
    else if imm = 0x6B8 then some (byBytes fun k => byteOf a (7 - k))
    else (match imm / 64 with
      | 0 => opReg 0 5 a imm
      | 0x10 => opReg 0x20 5 a (imm % 64)
      | 0x18 => opReg 0x30 5 a (imm % 64)
      | _ => none)
  | n => opReg 0 n a v

/-- One of 32 bits (OP-IMM-32). -/
def opImm32 (f3 a imm : Nat) : Option Nat :=
  match f3, imm / 32 with
  | 0, _ => some (sext 32 (a + sext 12 imm))
  | 1, 0 => opReg32 0 1 0 a imm
  | 1, 0x04 => some (a % 2 ^ 32 * 2 ^ (imm % 64) % 2 ^ 64)
  | 1, 0x05 => some (a % 2 ^ 32 * 2 ^ (imm % 64) % 2 ^ 64)
  | 1, 0x30 => (match imm % 32 with
    | 0 => some (leading 32 a)
    | 1 => some (trailing 32 a)
    | 2 => some (onesIn 32 a)
    | _ => none)
  | 5, 0 => opReg32 0 5 0 a imm
  | 5, 0x20 => opReg32 0x20 5 0 a (imm % 32)
  | 5, 0x30 => opReg32 0x30 5 0 a (imm % 32)
  | _, _ => none

/-- A branch's condition. -/
def branchTaken (f3 a b : Nat) : Option Bool :=
  match f3 with
  | 0 => some (decide (a = b))
  | 1 => some (decide (a ≠ b))
  | 4 => some (decide (signed 64 a < signed 64 b))
  | 5 => some (decide (signed 64 b ≤ signed 64 a))
  | 6 => some (decide (a < b))
  | 7 => some (decide (b ≤ a))
  | _ => none

-- ## Floating point

/-- The format of a code of two bits; none for those that the hart does not have. -/
def hartFmt (n : Nat) : Option Fmt := match n with | 0 => some f32 | 1 => some f64 | _ => none

/-- A register of floating point, in a format: a value of 32 bits that is not boxed in ones counts as the canonical NaN. -/
def Eave.fbits (e : Eave) (f : Fmt) (n : Nat) : Nat :=
  let v := (Tab.get 0 e.f n).toNat
  if f = f64 then v else if v / 2 ^ 32 = 2 ^ 32 - 1 then v % 2 ^ 32 else f32.nan

/-- The exact value there. -/
def Eave.fval (e : Eave) (f : Fmt) (n : Nat) : FV := decodeF f false (e.fbits f n)

/-- A result of floating point in its register, boxed. -/
def Eave.putF (e : Eave) (f : Fmt) (n v : Nat) : Eave := (e.setF n (if f = f64 then v else v + (2 ^ 32 - 1) * 2 ^ 32)).dirty

/-- Flags that an operation has raised join fcsr. -/
def Eave.raise1 (e : Eave) (fl : Nat) : Eave := if fl = 0 then e else (e.setCsr 3 (e.csrAt 3 ||| fl % 32)).dirty

/-- The rounding mode of an instruction: its own, or frm; none where it is no mode. -/
def Eave.rounding (e : Eave) (rm : Nat) : Option Nat :=
  let r := if rm = 7 then e.csrAt 3 / 32 % 8 else rm
  if r ≤ 4 then some r else none

/-- FCLASS. -/
def fclass (f : Fmt) (b : Nat) : Nat :=
  match decodeF f false b with
  | .nan sg => if sg then 2 ^ 8 else 2 ^ 9
  | .inf n => if n then 1 else 2 ^ 7
  | .fin n m _ =>
    if m = 0 then (if n then 8 else 16) else if m < 2 ^ f.fb then (if n then 4 else 32) else if n then 2 else 64

/-- A conversion to an integer of a type, in 64 bits: what has no value there gives the nearest bound, a NaN the greatest. -/
def fpToInt (t : ITy) (rm : Nat) (x : FV) : Flagged :=
  let out := fun (z : Int) => sext t.w (wrap t.w z)
  match x with
  | .nan _ => (out t.hi, fNV)
  | .inf n => (out (if n then t.lo else t.hi), fNV)
  | .fin n m e =>
    let r := roundInt rm n m e
    if r.1 < t.lo then (out t.lo, fNV) else if t.hi < r.1 then (out t.hi, fNV) else (out r.1, if r.2 then fNX else 0)

/-- The integer types of the conversions, by the code in rs2. -/
def convTy (n : Nat) : Option ITy :=
  match n with
  | 0 => some ⟨32, true⟩
  | 1 => some ⟨32, false⟩
  | 2 => some ⟨64, true⟩
  | 3 => some ⟨64, false⟩
  | _ => none

/-- A comparison: less or equal, less, equal; only the last is quiet. -/
def fpCompare (k : Nat) (x y : FV) : Flagged :=
  if x.isNan || y.isNan then (0, if k ≠ 2 || x.isSig || y.isSig then fNV else 0)
  else
    let o := cmpFV x y
    (ofBool (match k with | 0 => decide (o ≠ .gt) | 1 => decide (o = .lt) | _ => decide (o = .eq)), 0)

/-- An instruction of OP-FP, at a hart whose floating point is on; none where it is illegal. -/
def Eave.opFp (e : Eave) (w len : Nat) : Option Eave := do
  let f ← hartFmt (bits w 26 25)
  let rd := bits w 11 7
  let rs1 := bits w 19 15
  let rs2 := bits w 24 20
  let k := bits w 14 12
  let x := e.fval f rs1
  let y := e.fval f rs2
  let toF := fun (r : Flagged) => ((e.putF f rd r.1).raise1 r.2).pass len
  let toX := fun (r : Flagged) => ((e.setReg rd r.1).raise1 r.2).pass len
  let a := e.fbits f rs1
  let b := e.fbits f rs2
  match bits w 31 27 with
  | 0x00 => let rm ← e.rounding k; some (toF (rounded f rm false (addFV rm x y)))
  | 0x01 => let rm ← e.rounding k; some (toF (rounded f rm false (addFV rm x y.negated)))
  | 0x02 => let rm ← e.rounding k; some (toF (rounded f rm false (mulFV x y)))
  | 0x03 => let rm ← e.rounding k; some (toF (rounded f rm false (divFV x y)))
  | 0x0B => let rm ← e.rounding k; if rs2 = 0 then some (toF (rounded f rm false (sqrtFV x))) else none
  | 0x04 =>
    let sgn := match k with
      | 0 => some (bit b (f.eb + f.fb))
      | 1 => some (!bit b (f.eb + f.fb))
      | 2 => some (bit a (f.eb + f.fb) != bit b (f.eb + f.fb))
      | _ => none
    sgn.map fun n => toF (a % f.signBit + ofBool n * f.signBit, 0)
  | 0x05 => if k ≤ 1 then some (toF (rounded f 0 false (minMaxFV (decide (k = 1)) x y))) else none
  | 0x08 =>
    let g ← hartFmt rs2
    let rm ← e.rounding k
    let z := e.fval g rs1
    if f = g then none else some (toF (rounded f rm false (z, if z.isSig then fNV else 0)))
  | 0x14 => if k ≤ 2 then some (toX (fpCompare k x y)) else none
  | 0x18 => let rm ← e.rounding k; let t ← convTy rs2; some (toX (fpToInt t rm x))
  | 0x1A => let rm ← e.rounding k; let t ← convTy rs2; some (toF (rounded f rm false (ofInt (t.val (e.reg rs1)) 0, 0)))
  | 0x1C =>
    if rs2 = 0 ∧ k = 0 then some (toX ((if f = f64 then (Tab.get 0 e.f rs1).toNat else sext 32 (Tab.get 0 e.f rs1).toNat), 0))
    else if rs2 = 0 ∧ k = 1 then some (toX (fclass f a, 0))
    else none
  | 0x1E => if rs2 = 0 ∧ k = 0 then some (toF (e.reg rs1 % 2 ^ (f.eb + f.fb + 1), 0)) else none
  | _ => none

/-- A fused multiply-add, its product and its addend negated or not. -/
def Eave.opFma (e : Eave) (w len : Nat) (negP negA : Bool) : Option Eave := do
  let f ← hartFmt (bits w 26 25)
  let rm ← e.rounding (bits w 14 12)
  let x := e.fval f (bits w 19 15)
  let z := e.fval f (bits w 31 27)
  let r := rounded f rm false (fmaFV rm (if negP then x.negated else x) (e.fval f (bits w 24 20)) (if negA then z.negated else z))
  some (((e.putF f (bits w 11 7) r.1).raise1 r.2).pass len)

-- ## One instruction

/-- The hart's floating point is on. -/
def Eave.floats (e : Eave) : Bool := decide (bits (e.csrAt csrMstatus) 14 13 ≠ 0)

/-- MRET: the mode and the interrupt enable from mstatus, the program counter from mepc. -/
def Eave.mret (e : Eave) : Eave :=
  let st := e.csrAt csrMstatus
  let user := decide (bits st 12 11 = 0)
  let kept := st - ofBool (bit st 3) * 2 ^ 3 + ofBool (bit st 7) * 2 ^ 3 - ofBool (bit st 7) * 2 ^ 7 + 2 ^ 7 - bits st 12 11 * 2 ^ 11
    - (if user then ofBool (bit st 17) * 2 ^ 17 else 0)
  { e.setCsr csrMstatus kept with umode := user, pc := BitVec.ofNat 64 (e.csrAt csrMepc) }

/-- The illegal-instruction trap; what mtval shows is open (log entry 35). -/
def hartIllegal (s : State) : HartDo := .trap 2 (Config.choice s.steps % 2 ^ 64)

/-- A load or a store, of integers or of floating point. -/
def hartAccess (kind : EpiKind) (addr size value rd : Nat) (sx fp : Bool) (len : Nat) : HartDo :=
  .acc ⟨⟨rd, sx, fp, false, false, len⟩, kind, addr, size, value⟩

/-- The instructions of SYSTEM: the CSR instructions, and those without operands. WFI ends at once. -/
def State.hartSystem (s : State) (e : Eave) (w len : Nat) : HartDo :=
  let rd := bits w 11 7
  let rs1 := bits w 19 15
  let f3 := bits w 14 12
  let v : W64 := if f3 < 4 then BitVec.ofNat 64 (e.reg rs1) else BitVec.ofNat 64 rs1
  match f3 with
  | 0 =>
    (match w with
    | 0x00000073 => .trap (if e.umode then 8 else 11) 0
    | 0x00100073 => .trap 3 e.pc.toNat
    | 0x30200073 =>
      if e.umode then hartIllegal s
      else if e.scrub && decide (bits (e.csrAt csrMstatus) 12 11 = 0) then .stays
      else .regs e.mret
    | 0x10500073 => if e.umode && bit (e.csrAt csrMstatus) 21 then hartIllegal s else .regs (e.pass len)
    | _ => hartIllegal s)
  | 4 => hartIllegal s
  | n =>
    let op : CsrOp := match n % 4 with | 1 => .put | 2 => .set | _ => .clear
    .csr (bits w 31 20) ⟨op, v, decide (n % 4 = 1) || decide (rs1 ≠ 0), rd, len⟩

/-- The instructions of AMO, LR and SC among them. An ordered one waits for the hart's operations that wait (R165). -/
def State.hartAmo (s : State) (h : Nat) (e : Eave) (w len : Nat) : HartDo :=
  let size := 2 ^ bits w 14 12
  let op := bits w 31 27
  let aq := bit w 26
  let rl := bit w 25
  let mk := fun (k : EpiKind) =>
    if s.orderWaits h (hartAtomic aq rl) then HartDo.stays
    else .acc ⟨⟨bits w 11 7, true, false, aq, rl, len⟩, k, e.reg (bits w 19 15), size, e.reg (bits w 24 20)⟩
  if size ≠ 4 ∧ size ≠ 8 then hartIllegal s
  else if op = 2 then (if bits w 24 20 = 0 then mk .lr else hartIllegal s)
  else if op = 3 then mk .sc
  else if [0, 1, 4, 8, 12, 16, 20, 24, 28].contains op then mk (.amo op)
  else hartIllegal s

/-- A FENCE (R165), or a FENCE.I, after which a fetch sees every store, as it does at all times. -/
def State.hartFenceOp (s : State) (h : Nat) (e : Eave) (w len : Nat) : HartDo :=
  match bits w 14 12 with
  | 0 => if s.orderWaits h (hartFence (bit w 25) (bit w 24) (bit w 21) (bit w 20)) then .stays else .regs (e.pass len)
  | 1 => .regs (e.pass len)
  | _ => hartIllegal s

/-- One instruction of 32 bits, or one that stands for it in `len` bytes. -/
def State.hartExec (s : State) (h : Nat) (e : Eave) (w len : Nat) : HartDo :=
  let rd := bits w 11 7
  let a := e.reg (bits w 19 15)
  let b := e.reg (bits w 24 20)
  let f3 := bits w 14 12
  let immI := signed 12 (bits w 31 20)
  let immS := signed 12 (bits w 31 25 * 32 + bits w 11 7)
  let pc := e.pc.toNat
  let put := fun (r : Option Nat) => match r with | some v => HartDo.regs ((e.setReg rd v).pass len) | none => hartIllegal s
  let goto1 := fun (e : Eave) (n : Nat) => HartDo.regs { e with pc := BitVec.ofNat 64 n }
  let fp := fun (r : Option Eave) => if e.floats then (match r with | some x => HartDo.regs x | none => hartIllegal s) else hartIllegal s
  match bits w 6 0 with
  | 0x33 => put (opReg (bits w 31 25) f3 a b)
  | 0x3B => put (opReg32 (bits w 31 25) f3 (bits w 24 20) a b)
  | 0x13 => put (opImm f3 a (bits w 31 20))
  | 0x1B => put (opImm32 f3 a (bits w 31 20))
  | 0x37 => put (some (sext 32 (bits w 31 12 * 2 ^ 12)))
  | 0x17 => put (some (sum64 pc (signed 32 (bits w 31 12 * 2 ^ 12))))
  | 0x6F =>
    let off := signed 21 (bits w 31 31 * 2 ^ 20 + bits w 19 12 * 2 ^ 12 + bits w 20 20 * 2 ^ 11 + bits w 30 21 * 2)
    goto1 (e.setReg rd (sum64 pc len)) (sum64 pc off)
  | 0x67 => if f3 = 0 then goto1 (e.setReg rd (sum64 pc len)) (sum64 a immI / 2 * 2) else hartIllegal s
  | 0x63 =>
    let off := signed 13 (bits w 31 31 * 2 ^ 12 + bits w 7 7 * 2 ^ 11 + bits w 30 25 * 32 + bits w 11 8 * 2)
    (match branchTaken f3 a b with
    | some t => if t then goto1 e (sum64 pc off) else .regs (e.pass len)
    | none => hartIllegal s)
  | 0x03 => if f3 = 7 then hartIllegal s else hartAccess .load (sum64 a immI) (2 ^ (f3 % 4)) 0 rd (decide (f3 < 4)) false len
  | 0x23 => if 4 ≤ f3 then hartIllegal s else hartAccess .store (sum64 a immS) (2 ^ f3) b 0 false false len
  | 0x07 => if (f3 = 2 ∨ f3 = 3) ∧ e.floats then hartAccess .load (sum64 a immI) (2 ^ f3) 0 rd false true len else hartIllegal s
  | 0x27 =>
    if (f3 = 2 ∨ f3 = 3) ∧ e.floats then hartAccess .store (sum64 a immS) (2 ^ f3) (Tab.get 0 e.f (bits w 24 20)).toNat 0 false true len
    else hartIllegal s
  | 0x2F => s.hartAmo h e w len
  | 0x0F => s.hartFenceOp h e w len
  | 0x73 => s.hartSystem e w len
  | 0x53 => fp (e.opFp w len)
  | 0x43 => fp (e.opFma w len false false)
  | 0x47 => fp (e.opFma w len false true)
  | 0x4B => fp (e.opFma w len true false)
  | 0x4F => fp (e.opFma w len true true)
  | _ => hartIllegal s

-- ## Fetch and issue

/-- Two bytes of an instruction. -/
def State.hartFetch (s : State) (h a : Nat) : Except (Nat × Nat) Nat :=
  match s.eaveAccess h ⟨⟨0, false, false, false, false, 0⟩, .fetch, a, 2, 0⟩ with
  | .made _ v => .ok v
  | .trap _ cause tval => .error (cause, tval)
  | .wait _ => .error (1, a)

/-- The instruction at a hart's program counter, and what it comes to. -/
def State.hartIssue (s : State) (h : Nat) : HartDo :=
  let e := s.hart h
  let pc := e.pc.toNat
  match s.hartFetch h pc with
  | .error t => .trap t.1 t.2
  | .ok lo =>
    if lo % 4 ≠ 3 then (match expandC lo with | some w => s.hartExec h e w 2 | none => hartIllegal s)
    else match s.hartFetch h (sum64 pc 2) with
      | .error t => .trap t.1 t.2
      | .ok hi => s.hartExec h e (lo + hi * 2 ^ 16) 4

/-- The harts that run: those of the eave cores that have firmware (R387, R418), but for one whose operation waits for its turn. -/
def State.running (s : State) : List Nat :=
  (s.eaves.filter fun e => decide (e.1 < 16) && e.2.awake && !(e.2.umode && e.2.scrub) && !s.holdsBack (1 + e.1)).map Prod.fst

end Sys2Proof.Machine
end

