-- ==== Sys2Proof/Machine/Sched.lean ====
section
/-! DEFINITION. What occurs next (log entries 1, 4): the events that the outside world has put on the agenda, then, turn about,
an instruction of a course or a sequencer, and an event of an agent of the module that is due. -/

namespace Sys2Proof.Machine

-- ## Courses (R205, R403, R405, R406, R420)


/-- A course that may issue: its core, workgroup and number, when it last issued, and when it was last looked at. -/
structure Issuer where
  core   : Nat
  uid    : Nat
  crs    : Nat
  issued : Nat
  tried  : Nat
deriving DecidableEq, Repr

/-- The courses that may issue. -/
def State.issuers (s : State) : List Issuer :=
  s.wgs.flatMap fun e => (e.2.courses.filter fun k => s.canIssue e.2 k.1 k.2).map fun k => ⟨e.2.core, e.1, k.1, k.2.issued, k.2.tried⟩

/-- Of some courses the one with the least of a number, the first of those that tie. -/
def leastBy (f : Issuer → Nat) (l : List Issuer) : Option Issuer :=
  l.foldl (fun (b : Option Issuer) x => match b with
    | some y => if f x < f y then some x else some y
    | none => some x) none

/-- Of a core's courses the one that has gone longest since its last issue (R205). One that was found held, by a structural cause or
a miss, is looked at again once another has issued; where all are held, the one looked at longest ago. -/
def turnOf (l : List Issuer) : Option Issuer :=
  let last := l.foldl (fun n x => max n x.issued) 0
  (leastBy (·.issued) (l.filter fun x => decide (x.tried ≤ x.issued) || decide (x.tried ≤ last))).or (leastBy (·.tried) l)

/-- The course that issues, on a core freely chosen. -/
def State.pickIssuer (s : State) : Option (Nat × Nat) :=
  match pickFrom ((s.issuers.map fun x => x.core).eraseDups) (Config.choice s.steps) with
  | none => none
  | some k => (turnOf (s.issuers.filter fun x => decide (x.core = k))).map fun x => (x.uid, x.crs)

-- ## Sequencers (R376)

/-- A sequencer's context at turn may issue. -/
def State.seqMay (s : State) (l : Nat) (q : Seqr) : Bool :=
  let x := q.ctx q.turn
  decide (x.st = .running) && x.sending.isNone && decide (q.run < 256)
    && !(s.die (l / 4)).clockHeld

/-- The link whose sequencer issues. -/
def State.pickSeq (s : State) : Option Nat :=
  pickFrom ((s.seqs.filter fun e => s.seqMay e.1 e.2).map Prod.fst) (Config.choice s.steps)

/-- A sequencer's turn may go to another context: not while a chunk of the context at turn is leaving (R376). -/
def State.turnDue (s : State) (l : Nat) (q : Seqr) : Bool :=
  !s.seqMay l q && (q.ctx q.turn).sending.isNone && (List.range 4).any fun k => decide ((q.ctx k).st = .running)

-- ## The front end (R193, R194)

/-- The packet event of a queue: what it holds at its head. -/
def State.packetEvent (s : State) (k : Nat) : Option Instr :=
  match s.head k with
  | .none => none
  | .overrun => some (.launchPacket k)
  | .part => some (.launchPacket k)
  | .packet ty _ _ => some (if ty = 2 then .waitPacket k else if ty = 3 then .collectivePacket k else .launchPacket k)

/-- What a queue has to take: the packet at its head, or the launch or the collective that it holds, where there is room for it. -/
def State.takeEvent (s : State) (k : Nat) : Option Instr :=
  let q := s.queue k
  let ty := bits (leBytes q.pkt) 3 0
  if q.qen && q.holding then
    if ty = 1 then (if s.roomFor q.chain then some (.launchHoldEnd k) else none)
    else if ty = 3 then (if s.collReady k then some (.collectiveStart k) else none)
    else none
  else s.packetEvent k

/-- The queue that is served next (R194): every one of the latency class before any other, and each class round about, in queue
order. Which queue the round begins with after a reset the manual does not say: here queue 0 counts as the one served last, so that
queue 1 goes before it (log entry 97). -/
def State.nextPacket (s : State) : List Instr :=
  let order := fun (last : Nat) (lc : Bool) => ((List.range 64).map fun i => (last + 1 + i) % 64).filter fun k =>
    (Tab.find s.queues k).isSome && decide ((s.queue k).qlc = lc) && (s.takeEvent k).isSome
  match (order s.turnL true ++ order s.turnQ false).head? with
  | some k => (s.takeEvent k).toList
  | none => []

/-- The other events of a queue. -/
def State.queueEvents (s : State) (k : Nat) (q : Queue) : List Instr :=
  let b := leBytes q.pkt
  (if q.qen && decide (q.qstate ≠ 3) && !q.seen then [.writePointerRead k] else [])
    ++ (if q.qen && decide (q.qstate = 2) then
      (if s.waitMet q then [.waitWordRead k]
        else if w4 b 0x1C ≠ 0 ∧ q.began + w4 b 0x1C * 1000 * 2 ^ 16 ≤ s.dtime then [.waittime k] else [])
    else [])

-- ## Placement (R25, R201, R202, R402)

/-- The first candidate that fits, in the order of R201, but for those that wait behind a saved one (R191). -/
def State.placementEvents (s : State) : List Instr :=
  ((s.candidates.filter fun c => !s.passedOver c).findSome? s.placeEvent).toList

/-- A workgroup that must make room (R203). -/
def State.yieldEvents (s : State) : List Instr :=
  (((s.wgs.filter fun e => decide (e.2.status = .resident) && s.mustYield e.1).map Prod.fst).take 1).map .preemption

-- ## Workgroups and engines

/-- The event of an engine command. -/
def cmdEvent (u : Nat) (m : Cmd) : Option Instr :=
  match m.op with
  | .mma _ _ _ _ _ _ _ _ _ => some (.matrixOperationComplete u m.id)
  | .awb _ _ _ _ _ _ _ _ _ _ => some (.writeBackBlock u m.id)
  | .copyIn _ _ _ _ => some (.copyPiece u m.id)
  | .copyOut _ _ _ _ _ => some (.copyPiece u m.id)
  | _ => none

/-- The events of a course. -/
def State.courseEvents (s : State) (u c : Nat) (w : Workgroup) (k : Course) : List Instr :=
  ((k.flights.filter fun f => s.canLand u c f).map fun f => .registerLand u c f.id)
    ++ (if k.wait = some .mwait ∧ k.limit = some 0 then [.waitTimeout u c] else [])
    ++ (if k.sched = .active ∧ k.entered + 512 ≤ s.cycle.toNat ∧ s.anyReady w.core then [.quantumSwap u c] else [])
    ++ ((k.flights.filterMap fun f => match f.kind with
      | .closeb b _ _ _ _ (some t) => if s.closeLate t then some (.closebTimeout (courseKey u c) b) else none
      | _ => none))

/-- The events of a resident workgroup. -/
def State.wgEvents (s : State) (u : Nat) (w : Workgroup) : List Instr :=
  let g := s.grid w.gid
  if w.status ≠ .resident then []
  else (w.courses.flatMap fun c => s.courseEvents u c.1 w c.2)
    ++ (if (s.die (dieOf w.core)).clockHeld then [] else
      (w.cmds.filter fun m => m.fail.isNone && s.mayRun u m).filterMap fun m => cmdEvent u m)
    ++ (match w.leave with
      | .stay => []
      | .runOn => []
      | .drain t => if t + drainTime ≤ s.dtime then [.drainTimeout u] else []
      | .save => if s.unitQuiet u && decide ((s.unitOf u).head? = some u) then [.save u] else []
      | .flush => if s.mayFlush u then [.flushAndRestart u] else [])
    ++ (if g.abort = none ∧ s.unitOver u then [.workgroupEnd u] else [])

/-- The events of a grid. -/
def State.gridEvents (s : State) (n : Nat) (g : Grid) : List Instr :=
  if g.abort.isSome then (if !g.dropped || s.gridQuiet n then [.gridAbort n 0] else [])
  else (if g.launch.ver then
      match s.taskOf n g.commits with
      | none => []
      | some u =>
        let w := s.wg u
        (if s.over u ∧ !w.taskEnd ∧ w.holder = none ∧ w.status = .resident ∧ s.commitsQuiet n then [.commit n] else [])
          ++ (if w.versionFull ∧ (!w.unbuf || g.launch.det) ∧ w.holder = none ∧ s.commitsQuiet n then [.unbufferedCommit n] else [])
    else [])
    ++ (if g.endedN = g.total then [.completionWrite n] else [])

-- ## Dies and links

/-- The events of a die. -/
def State.dieEvents1 (s : State) (n : Nat) (d : Die) : List Instr :=
  (if d.walks ≠ [] ∧ d.parked.length < walkers n then [.walk n] else [])
    ++ (if d.parked ≠ [] then [.walkRestart n] else [])
    ++ (if d.parked.any fun m => decide (m.since + heldTime ≤ s.dtime) then [.walkHeldTimeout n] else [])
    ++ (if d.mqRoom ∧ d.mig.any fun m =>
        let th := (Tab.get 0 d.thresh m.tix).toNat
        !m.queued && decide (th ≠ 0) && decide (th ≤ m.count) then [.migrationRecordAppend n] else [])
    ++ (if d.running.isSome then [.invalidationComplete n] else [])

/-- The events of a link. -/
def State.linkEvents1 (s : State) (n : Nat) (l : Link) : List Instr :=
  (if decide (l.lmode = 2) && (match l.slotAt (s.dtime / 2 ^ 16) with
      | some (i, off) => decide (400 ≤ off)
          && !(decide (l.curSlot = some i) && decide (l.curPeriod = l.periodAt (s.dtime / 2 ^ 16)))
      | none => false) then [.rotationSlotStart n] else [])
    ++ (if s.sendable l ≠ [] then [.flitSend n] else [])
    ++ (if (l.overdue s.dtime).isSome then [.replayTimeout n] else [])
    ++ (match l.restriping with | some (g, _) => if g = 0 then [] else [.restripe n] | none => [])
    ++ (if l.dying then [.linkDown n] else [])
    ++ (if l.state = 3 ∧ l.tx = [] ∧ l.replay = [] then [.linkDrained n] else [])

/-- The events of a sequencer beside its instructions. -/
def State.seqEvents (s : State) (n : Nat) (q : Seqr) : List Instr :=
  (if s.turnDue n q then [.contextTurn n] else [])
    ++ (List.range 4).filterMap fun k =>
      let x := q.ctx k
      match x.since with
      | some t => if q.wdog ≠ 0 ∧ x.st = .waiting ∧ !x.barked ∧ q.wdog.toNat * 1000 * 2 ^ 16 ≤ s.dtime - t then some (.seqWatchdog n k) else none
      | none => none

-- ## The events that are due

/-- Events of the network, the eave cluster, remote memory and the cores' freezes. -/
def State.restEvents (s : State) : List Instr :=
  ((s.pend.filter fun w => s.mayPerform w.uid w.crs w.id w.relBar [(w.tgt, w.width)]).map fun w => .writePerformed w.id)
    ++ (if s.reds = [] then [] else [.reductionApply])
    ++ ((s.reqs.filter fun r => r.req.kind.returns && decide (r.formed + requestTime ≤ s.dtime)).map fun r => .requestTimeout r.tag)
    ++ ((s.inb.filter InBatch.ready).map fun b => .summarySend b.issuer b.key b.batch)
    ++ (s.suspects.map fun x => .targetedSelfTest x.1 x.2.1 x.2.2)
    ++ ((s.eaves.filter fun e => s.expired e.1).map fun e => .episodeWatchdog e.1)
    ++ ((s.eaves.filter fun e => e.2.scrub).map fun e => .scrubComplete e.1)
    ++ ((s.cores.filter fun e => e.2.frozen && !e.2.quiet && s.enginesIdle e.1).map fun e => .quiet e.1)
    ++ ((s.egress.filter fun e => (s.egressSlot e.2).isSome).map fun e => .egressTransmit e.1)

/-- Every event that is due. -/
def State.due (s : State) : List Instr :=
  s.restEvents
    ++ (s.wgs.flatMap fun e => s.wgEvents e.1 e.2)
    ++ (s.grids.flatMap fun e => s.gridEvents e.1 e.2)
    ++ ((s.colls.filter fun e => e.2.over || e.2.aborted).map fun e => .completionWrite e.1)
    ++ (s.dies.flatMap fun e => s.dieEvents1 e.1 e.2)
    ++ (s.links.flatMap fun e => s.linkEvents1 e.1 e.2)
    ++ (s.seqs.flatMap fun e => s.seqEvents e.1 e.2)
    ++ (s.queues.flatMap fun e => s.queueEvents e.1 e.2) ++ s.nextPacket ++ s.placementEvents ++ s.yieldEvents

-- ## The plan of a step

/-- What a step does: it stops, performs an operation in a state, or ends in a state in which nothing was performed. -/
inductive Plan where
  | stop (f : Fault)
  | run (kind : Kind) (i : Instr) (t : State)
  | done (kind : Kind) (t : State)
deriving DecidableEq, Repr

/-- The instruction that the course issues, none of whose operands in the reserved strip is poisoned (R89, R91): the program counter,
MODE and EXEC, REPST in a repetition, and what the instruction reads there. -/
def issueFetch (s : State) : R (State × Instr × Bool) := do
  s.cur.stripCheck [controlUnit]
  let r ← nextInstr s
  keeping r.1 (do
    r.1.cur.stripCheck (r.1.cur.stripReads r.2.1 ++ if r.2.2 then [statusUnit] else [])
    .ok r)

/-- The issue of a course: its timer trap, the mailbox trap of a sender whose binding has ended (R391), the instruction that it fetches,
or what stops the fetch. -/
def State.courseIssue (s : State) (u c : Nat) : Plan :=
  let t := ({ s with curWg := u, curCrs := c, seqTurn := true } : State).setCrs u c { s.crs u c with tried := s.steps }
  if t.timerDue u c then .run .event (.timer u c) t
  else if t.cur.wait = some .unbound then .done .course (stopped t (trapCode 0x0D))
  else match issueFetch t with
    | .ok (x, i, r) => .run .course i { x with inRep := r }
    | .error e => .done .course (stopped t e)

/-- The instruction of a sequencer's context at turn (R360, R377): a word whose bits were lost, or one that is no
instruction, faults. -/
def State.seqIssue (s : State) (l : Nat) : Plan :=
  let q := s.seqr l
  let x := q.ctx q.turn
  let t : State := { s with curLink := l, curCtx := q.turn, seqTurn := false }
  if Tab.get false q.broken (x.cpc / 4) then .done .seq ((t.mapSeqr fun y => { y with iecc := true }).seqFault 0x16 s.openAddr s.openKind s.openLevel none)
  else match decodeSeq (Tab.get 0 q.imem (x.cpc / 4)) with
    | .ok i => .run .seq i t
    | .error _ => .done .seq (t.seqFault 0x10 s.openAddr s.openKind s.openLevel none)

/-- An instruction that issues now, courses and sequencers turn about. -/
def State.issuePlan (s : State) : Option Plan :=
  match s.pickIssuer, s.pickSeq with
  | some p, some l => some (if s.seqTurn then s.seqIssue l else s.courseIssue p.1 p.2)
  | some p, none => some (s.courseIssue p.1 p.2)
  | none, some l => some (s.seqIssue l)
  | none, none => none

/-- The instruction of an eave core (R387): it changes the hart, makes an access or reaches a CSR in the way of the events that stand for
those, or traps. -/
def State.hartPlan (s : State) (h : Nat) : Option Plan :=
  match s.hartIssue h with
  | .regs e => some (.done .event (s.setHart h e))
  | .acc a => some (.run .event (.episodeWindowAccess h a.kind a.addr a.size a.value a.toHartMove) s)
  | .csr n a => some (.run .event (.episodeCsrWrite h n a) s)
  | .trap c v => some (.done .event (s.eaveTrap h c v))
  | .stays => none

/-- What the module may do of its own accord now: an event that is due, an operation that waits and is tried again (R166), or an
instruction of an eave core. -/
def State.options (s : State) : List Plan :=
  (s.due.map fun i => .run .event i s) ++ (s.retries.map fun r => .run .event r.1 { s with held := r.2, retry := true })
    ++ s.running.filterMap s.hartPlan

/-- One of them, freely chosen. -/
def State.eventPlan (s : State) : Option Plan := pickFrom s.options (Config.choice s.steps)

/-- What occurs next: what the outside world has put on the agenda; the next error of the arrays, as soon as it can be met; then the
machine's own. After a fatal error only a reset is left (R411); after a failed boot only what the outside world
does (R418). -/
def plan (s : State) : Plan :=
  match s.agenda with
  | i :: r =>
    if s.fatal && !(match i with | .boot _ _ => true | _ => false) then .stop .awaitingReset
    else .run .event i { s with agenda := r }
  | [] =>
    if s.fatal then .stop .awaitingReset
    else if s.bootStop then .stop .bootStopped
    else match s.takeUpset with
    | some t => .done .event t
    | none =>
    if s.steps % 2 = 0 then (s.issuePlan.or s.eventPlan).getD (.done .event s)
    else (s.eventPlan.or s.issuePlan).getD (.done .event s)

end Sys2Proof.Machine
end

