-- ==== Sys2Proof/Machine/Dispatch.lean ====
section
/-! DEFINITION. The meaning of every instruction and event: one arm a constructor, each one call. -/

namespace Sys2Proof.Machine

/-- What an operation does to the machine. -/
def exec (i : Instr) (s : State) : Host.Outcome State Fault Refusal :=
  match i with
  -- control, MODE and prefix groups (0x00 to 0x0F)
  | .nop => Sys2Proof.Machine.execNop s
  | .br off => Sys2Proof.Machine.execBr off s
  | .brd p off => Sys2Proof.Machine.execBrd p off s
  | .brany p off => Sys2Proof.Machine.execBrany p off s
  | .join => Sys2Proof.Machine.execJoin s
  | .call l off => Sys2Proof.Machine.execCall l off s
  | .callr d a => Sys2Proof.Machine.execCallr d a s
  | .ret a => Sys2Proof.Machine.execRet a s
  | .jmpr a b => Sys2Proof.Machine.execJmpr a b s
  | .exit => Sys2Proof.Machine.execExit s
  | .trap code => Sys2Proof.Machine.execTrap code s
  | .brk tag => Sys2Proof.Machine.execBrk tag s
  | .modew a => Sys2Proof.Machine.execModew a s
  | .modef sel val => Sys2Proof.Machine.execModef sel val s
  | .moder d => Sys2Proof.Machine.execModer d s
  | .rep n sd sa sb => Sys2Proof.Machine.execRep n sd sa sb s
  -- integer (0x10 to 0x27)
  | .iadd d a b hold => Sys2Proof.Machine.execIadd d a b hold s
  | .isub d a b hold => Sys2Proof.Machine.execIsub d a b hold s
  | .imul d a b hold => Sys2Proof.Machine.execImul d a b hold s
  | .imulh d a b hold => Sys2Proof.Machine.execImulh d a b hold s
  | .imad d a b hold => Sys2Proof.Machine.execImad d a b hold s
  | .idiv d a b hold => Sys2Proof.Machine.execIdiv d a b hold s
  | .irem d a b hold => Sys2Proof.Machine.execIrem d a b hold s
  | .imin d a b hold => Sys2Proof.Machine.execImin d a b hold s
  | .imax d a b hold => Sys2Proof.Machine.execImax d a b hold s
  | .iabs d a hold => Sys2Proof.Machine.execIabs d a hold s
  | .and d a b hold => Sys2Proof.Machine.execAnd d a b hold s
  | .or d a b hold => Sys2Proof.Machine.execOr d a b hold s
  | .xor d a b hold => Sys2Proof.Machine.execXor d a b hold s
  | .shl d a b hold => Sys2Proof.Machine.execShl d a b hold s
  | .shr d a b hold => Sys2Proof.Machine.execShr d a b hold s
  | .sar d a b hold => Sys2Proof.Machine.execSar d a b hold s
  | .popc d a hold => Sys2Proof.Machine.execPopc d a hold s
  | .clz d a hold => Sys2Proof.Machine.execClz d a hold s
  | .bfx d a b hold => Sys2Proof.Machine.execBfx d a b hold s
  | .bfi d a b hold => Sys2Proof.Machine.execBfi d a b hold s
  | .iaddi d a imm => Sys2Proof.Machine.execIaddi d a imm s
  | .shli d a imm => Sys2Proof.Machine.execShli d a imm s
  | .mov d a hold => Sys2Proof.Machine.execMov d a hold s
  | .lit d hi w => Sys2Proof.Machine.execLit d hi w s
  -- floating point (0x28 to 0x3B)
  | .fadd d a b hold => Sys2Proof.Machine.execFadd d a b hold s
  | .fsub d a b hold => Sys2Proof.Machine.execFsub d a b hold s
  | .fmul d a b hold => Sys2Proof.Machine.execFmul d a b hold s
  | .fma d a b hold => Sys2Proof.Machine.execFma d a b hold s
  | .fnma d a b hold => Sys2Proof.Machine.execFnma d a b hold s
  | .fdiv d a b hold => Sys2Proof.Machine.execFdiv d a b hold s
  | .fsqrt d a hold => Sys2Proof.Machine.execFsqrt d a hold s
  | .frsq d a hold => Sys2Proof.Machine.execFrsq d a hold s
  | .frcp d a hold => Sys2Proof.Machine.execFrcp d a hold s
  | .fmin d a b hold => Sys2Proof.Machine.execFmin d a b hold s
  | .fmax d a b hold => Sys2Proof.Machine.execFmax d a b hold s
  | .fabs d a hold => Sys2Proof.Machine.execFabs d a hold s
  | .fneg d a hold => Sys2Proof.Machine.execFneg d a hold s
  | .fexp2 d a hold => Sys2Proof.Machine.execFexp2 d a hold s
  | .flog2 d a hold => Sys2Proof.Machine.execFlog2 d a hold s
  | .fsin d a hold => Sys2Proof.Machine.execFsin d a hold s
  | .fcos d a hold => Sys2Proof.Machine.execFcos d a hold s
  | .frint d a hold => Sys2Proof.Machine.execFrint d a hold s
  | .fsgn d a b hold => Sys2Proof.Machine.execFsgn d a b hold s
  | .fscale d a b hold => Sys2Proof.Machine.execFscale d a b hold s
  -- compare and predicate (0x3C to 0x43)
  | .icmp pd cond a b hold => Sys2Proof.Machine.execIcmp pd cond a b hold s
  | .fcmp pd cond a b hold => Sys2Proof.Machine.execFcmp pd cond a b hold s
  | .plog pd op pa pb => Sys2Proof.Machine.execPlog pd op pa pb s
  | .prd d p => Sys2Proof.Machine.execPrd d p s
  | .pwr p a hold => Sys2Proof.Machine.execPwr p a hold s
  | .sel d a b hold => Sys2Proof.Machine.execSel d a b hold s
  | .icmpi pd cond a imm => Sys2Proof.Machine.execIcmpi pd cond a imm s
  | .fclass d a hold => Sys2Proof.Machine.execFclass d a hold s
  -- conversion (0x44 to 0x47)
  | .cvt d a ty hold => Sys2Proof.Machine.execCvt d a ty hold s
  | .cvts d a enc fslot hold => Sys2Proof.Machine.execCvts d a enc fslot hold s
  | .cpack d a fslot => Sys2Proof.Machine.execCpack d a fslot s
  | .cunpk d a fslot => Sys2Proof.Machine.execCunpk d a fslot s
  -- lane operations (0x48 to 0x4F)
  | .shfl d a b hold => Sys2Proof.Machine.execShfl d a b hold s
  | .shflx d a b hold => Sys2Proof.Machine.execShflx d a b hold s
  | .bcast d a b => Sys2Proof.Machine.execBcast d a b s
  | .ballot d a => Sys2Proof.Machine.execBallot d a s
  | .vred d a op => Sys2Proof.Machine.execVred d a op s
  | .vscan d a op ex hold => Sys2Proof.Machine.execVscan d a op ex hold s
  | .lfirst d p => Sys2Proof.Machine.execLfirst d p s
  | .rnd d a b => Sys2Proof.Machine.execRnd d a b s
  -- index and special registers (0x50 to 0x57)
  | .xset x a hold => Sys2Proof.Machine.execXset x a hold s
  | .xoff x a hold => Sys2Proof.Machine.execXoff x a hold s
  | .xrd d x => Sys2Proof.Machine.execXrd d x s
  | .xrdo d x => Sys2Proof.Machine.execXrdo d x s
  | .xadd x a hold => Sys2Proof.Machine.execXadd x a hold s
  | .xclr x => Sys2Proof.Machine.execXclr x s
  | .srd d n => Sys2Proof.Machine.execSrd d n s
  | .swr n a hold => Sys2Proof.Machine.execSwr n a hold s
  -- memory, synchronisation and mailbox (0x58 to 0x6B)
  | .ld pfx data voff sb lit => Sys2Proof.Machine.execLd pfx data voff sb lit s
  | .st pfx data voff sb lit batch => Sys2Proof.Machine.execSt pfx data voff sb lit batch s
  | .ldl pfx data voff sb lit q => Sys2Proof.Machine.execLdl pfx data voff sb lit q s
  | .stl pfx data voff sb lit q => Sys2Proof.Machine.execStl pfx data voff sb lit q s
  | .ldcol data voff sb lit => Sys2Proof.Machine.execLdcol data voff sb lit s
  | .stcol data voff sb lit => Sys2Proof.Machine.execStcol data voff sb lit s
  | .atomr pfx data voff sb lit => Sys2Proof.Machine.execAtomr pfx data voff sb lit s
  | .atoml pfx data voff sb lit full => Sys2Proof.Machine.execAtoml pfx data voff sb lit full s
  | .red pfx data voff sb lit batch => Sys2Proof.Machine.execRed pfx data voff sb lit batch s
  | .atomd data voff sb lit => Sys2Proof.Machine.execAtomd data voff sb lit s
  | .closeb d b => Sys2Proof.Machine.execCloseb d b s
  | .fence kind scope => Sys2Proof.Machine.execFence kind scope s
  | .fenceWb a => Sys2Proof.Machine.execFenceWb a s
  | .barArrive d bar => Sys2Proof.Machine.execBarArrive d bar s
  | .barWait bar b => Sys2Proof.Machine.execBarWait bar b s
  | .barSync d bar => Sys2Proof.Machine.execBarSync d bar s
  | .barExpect bar b => Sys2Proof.Machine.execBarExpect bar b s
  | .monitor data voff sb lit => Sys2Proof.Machine.execMonitor data voff sb lit s
  | .mwait a => Sys2Proof.Machine.execMwait a s
  | .sigq a code host => Sys2Proof.Machine.execSigq a code host s
  | .spill first last sb lit => Sys2Proof.Machine.execSpill first last sb lit s
  | .fill first last sb lit => Sys2Proof.Machine.execFill first last sb lit s
  | .tend data voff sb lit => Sys2Proof.Machine.execTend data voff sb lit s
  | .mbsend d a => Sys2Proof.Machine.execMbsend d a s
  | .mbrecv d a => Sys2Proof.Machine.execMbrecv d a s
  -- matrix, generator and copy (0x6C to 0x7B)
  | .mma xd xa xb fa fb ns za => Sys2Proof.Machine.execMma xd xa xb fa fb ns za s
  | .mmas xd xa xb fa fb ns za sp ms => Sys2Proof.Machine.execMmas xd xa xb fa fb ns za sp ms s
  | .oclm t cnt => Sys2Proof.Machine.execOclm t cnt s
  | .orls t cnt => Sys2Proof.Machine.execOrls t cnt s
  | .ost t a chunk => Sys2Proof.Machine.execOst t a chunk s
  | .ofnc t mask => Sys2Proof.Machine.execOfnc t mask s
  | .gset g a b func tr param => Sys2Proof.Machine.execGset g a b func tr param s
  | .gseed g a b => Sys2Proof.Machine.execGseed g a b s
  | .cpy a barn ben srcl => Sys2Proof.Machine.execCpy a barn ben srcl s
  | .cpyi a barn ben => Sys2Proof.Machine.execCpyi a barn ben s
  | .cpyo a barn ben bt idx => Sys2Proof.Machine.execCpyo a barn ben bt idx s
  | .waitc t mask anyBit => Sys2Proof.Machine.execWaitc t mask anyBit s
  | .waitm pend => Sys2Proof.Machine.execWaitm pend s
  | .aclr a cnt => Sys2Proof.Machine.execAclr a cnt s
  | .ald d a h0 nreg => Sys2Proof.Machine.execAld d a h0 nreg s
  | .awb d a b fs acnt pitch mg me neg barn ben => Sys2Proof.Machine.execAwb d a b fs acnt pitch mg me neg barn ben s
  -- link sequencers (R360)
  | .seqNop => Sys2Proof.Machine.execSeqNop s
  | .halt => Sys2Proof.Machine.execHalt s
  | .yield => Sys2Proof.Machine.execYield s
  | .seqFence => Sys2Proof.Machine.execSeqFence s
  | .evt a code => Sys2Proof.Machine.execEvt a code s
  | .seqBr cond a b off => Sys2Proof.Machine.execSeqBr cond a b off s
  | .loop a off => Sys2Proof.Machine.execLoop a off s
  | .seqAdd d a b => Sys2Proof.Machine.execSeqAdd d a b s
  | .seqSub d a b => Sys2Proof.Machine.execSeqSub d a b s
  | .seqAnd d a b => Sys2Proof.Machine.execSeqAnd d a b s
  | .seqOr d a b => Sys2Proof.Machine.execSeqOr d a b s
  | .seqXor d a b => Sys2Proof.Machine.execSeqXor d a b s
  | .seqShl d a b => Sys2Proof.Machine.execSeqShl d a b s
  | .seqShr d a b => Sys2Proof.Machine.execSeqShr d a b s
  | .seqMul d a b => Sys2Proof.Machine.execSeqMul d a b s
  | .addi d a imm => Sys2Proof.Machine.execAddi d a imm s
  | .li d imm => Sys2Proof.Machine.execLi d imm s
  | .lih d imm => Sys2Proof.Machine.execLih d imm s
  | .ldc d a imm => Sys2Proof.Machine.execLdc d a imm s
  | .stc a b imm => Sys2Proof.Machine.execStc a b imm s
  | .cst d sel => Sys2Proof.Machine.execCst d sel s
  | .waitf a b cond => Sys2Proof.Machine.execWaitf a b cond s
  | .sigf a b => Sys2Proof.Machine.execSigf a b s
  | .sigfAdd a b => Sys2Proof.Machine.execSigfAdd a b s
  | .slot d b => Sys2Proof.Machine.execSlot d b s
  | .send ch sz a b => Sys2Proof.Machine.execSend ch sz a b s
  | .recv ch sz a => Sys2Proof.Machine.execRecv ch sz a s
  | .rcomb ch sz a op rm => Sys2Proof.Machine.execRcomb ch sz a op rm s
  | .rcfwd ch sz a b op rm w => Sys2Proof.Machine.execRcfwd ch sz a b op rm w s
  | .rfwd ch sz a b w => Sys2Proof.Machine.execRfwd ch sz a b w s
  -- translation and the control region
  | .walk die => Sys2Proof.Machine.execWalk die s
  | .walkRestart die => Sys2Proof.Machine.execWalkRestart die s
  | .walkHeldTimeout die => Sys2Proof.Machine.execWalkHeldTimeout die s
  | .invalidate die word => Sys2Proof.Machine.execInvalidate die word s
  | .invalidationComplete die => Sys2Proof.Machine.execInvalidationComplete die s
  | .mqtailWrite die value => Sys2Proof.Machine.execMqtailWrite die value s
  | .migrationRecordAppend die => Sys2Proof.Machine.execMigrationRecordAppend die s
  | .registerWrite pa size value => Sys2Proof.Machine.execRegisterWrite pa size value s
  -- the Umhal port
  | .physicalRead pa size => Sys2Proof.Machine.execPhysicalRead pa size s
  | .physicalWrite pa size value => Sys2Proof.Machine.execPhysicalWrite pa size value s
  | .virtualRead asn va size => Sys2Proof.Machine.execVirtualRead asn va size s
  | .virtualWrite asn va size value => Sys2Proof.Machine.execVirtualWrite asn va size value s
  | .managementMailbox toFirmware msg attest => Sys2Proof.Machine.execManagementMailbox toFirmware msg attest s
  | .hostCreditReturn n => Sys2Proof.Machine.execHostCreditReturn n s
  -- links and remote memory
  | .linkTrain l mode => Sys2Proof.Machine.execLinkTrain l mode s
  | .linkUp l groups => Sys2Proof.Machine.execLinkUp l groups s
  | .linkOff l => Sys2Proof.Machine.execLinkOff l s
  | .drain l on => Sys2Proof.Machine.execDrain l on s
  | .linkDrained l => Sys2Proof.Machine.execLinkDrained l s
  | .readmit l => Sys2Proof.Machine.execReadmit l s
  | .routeEntryWrite peer value => Sys2Proof.Machine.execRouteEntryWrite peer value s
  | .rotationSlotStart l => Sys2Proof.Machine.execRotationSlotStart l s
  | .flitSend l => Sys2Proof.Machine.execFlitSend l s
  | .flitReceive l f => Sys2Proof.Machine.execFlitReceive l f s
  | .replayTimeout l => Sys2Proof.Machine.execReplayTimeout l s
  | .lossOfLight l light => Sys2Proof.Machine.execLossOfLight l light s
  | .restripe l => Sys2Proof.Machine.execRestripe l s
  | .linkDown l => Sys2Proof.Machine.execLinkDown l s
  | .remoteRequest l r => Sys2Proof.Machine.execRemoteRequest l r s
  | .remoteReply issuer tag status data => Sys2Proof.Machine.execRemoteReply issuer tag status data s
  | .requestTimeout tag => Sys2Proof.Machine.execRequestTimeout tag s
  | .closeMarker l issuer dest key batch links => Sys2Proof.Machine.execCloseMarker l issuer dest key batch links s
  | .summarySend issuer key batch => Sys2Proof.Machine.execSummarySend issuer key batch s
  | .summaryReply issuer key batch peer errors => Sys2Proof.Machine.execSummaryReply issuer key batch peer errors s
  | .closebTimeout key batch => Sys2Proof.Machine.execClosebTimeout key batch s
  | .reductionApply => Sys2Proof.Machine.execReductionApply s
  -- errors
  | .patrolRead pa e => Sys2Proof.Machine.execPatrolRead pa e s
  | .targetedSelfTest k die unit => Sys2Proof.Machine.execTargetedSelfTest k die unit s
  | .fatalError cause die => Sys2Proof.Machine.execFatalError cause die s
  -- launch queues
  | .writePointerRead q => Sys2Proof.Machine.execWritePointerRead q s
  | .launchPacket q => Sys2Proof.Machine.execLaunchPacket q s
  | .launchHoldEnd q => Sys2Proof.Machine.execLaunchHoldEnd q s
  | .waitPacket q => Sys2Proof.Machine.execWaitPacket q s
  | .waitWordRead q => Sys2Proof.Machine.execWaitWordRead q s
  | .waittime q => Sys2Proof.Machine.execWaittime q s
  | .collectivePacket q => Sys2Proof.Machine.execCollectivePacket q s
  | .collectiveStart q => Sys2Proof.Machine.execCollectiveStart q s
  | .queueEnable q => Sys2Proof.Machine.execQueueEnable q s
  | .queueDisable q => Sys2Proof.Machine.execQueueDisable q s
  | .resume q => Sys2Proof.Machine.execResume q s
  | .skip q => Sys2Proof.Machine.execSkip q s
  -- placement and pre-emption
  | .placement gid cores => Sys2Proof.Machine.execPlacement gid cores s
  | .preemption uid => Sys2Proof.Machine.execPreemption uid s
  | .save uid => Sys2Proof.Machine.execSave uid s
  | .flushAndRestart uid => Sys2Proof.Machine.execFlushAndRestart uid s
  | .workgroupDrain uid => Sys2Proof.Machine.execWorkgroupDrain uid s
  | .drainTimeout uid => Sys2Proof.Machine.execDrainTimeout uid s
  | .restore uid cores => Sys2Proof.Machine.execRestore uid cores s
  | .migration uid cores => Sys2Proof.Machine.execMigration uid cores s
  | .workgroupEnd uid => Sys2Proof.Machine.execWorkgroupEnd uid s
  | .quantumSwap uid crs => Sys2Proof.Machine.execQuantumSwap uid crs s
  | .timer uid crs => Sys2Proof.Machine.execTimer uid crs s
  | .waitTimeout uid crs => Sys2Proof.Machine.execWaitTimeout uid crs s
  | .registerLand uid crs id => Sys2Proof.Machine.execRegisterLand uid crs id s
  -- what the agents of the module do of their own accord
  | .seqWatchdog l k => Sys2Proof.Machine.execSeqWatchdog l k s
  | .contextTurn l => Sys2Proof.Machine.execContextTurn l s
  | .quiet core => Sys2Proof.Machine.execQuiet core s
  | .writePerformed id => Sys2Proof.Machine.execWritePerformed id s
  -- tasks and grids
  | .commit gid => Sys2Proof.Machine.execCommit gid s
  | .unbufferedCommit gid => Sys2Proof.Machine.execUnbufferedCommit gid s
  | .gridAbort gid cause => Sys2Proof.Machine.execGridAbort gid cause s
  | .completionWrite gid => Sys2Proof.Machine.execCompletionWrite gid s
  -- engines
  | .copyPiece uid cmd => Sys2Proof.Machine.execCopyPiece uid cmd s
  | .matrixOperationComplete uid cmd => Sys2Proof.Machine.execMatrixOperationComplete uid cmd s
  | .writeBackBlock uid cmd => Sys2Proof.Machine.execWriteBackBlock uid cmd s
  -- latency class, network
  | .reservationValid n => Sys2Proof.Machine.execReservationValid n s
  | .reservationRelease n => Sys2Proof.Machine.execReservationRelease n s
  | .frameReceive port frame fcsOk => Sys2Proof.Machine.execFrameReceive port frame fcsOk s
  | .ingressRuleWrite n word => Sys2Proof.Machine.execIngressRuleWrite n word s
  | .egressTransmit e => Sys2Proof.Machine.execEgressTransmit e s
  -- power and boot
  | .thermalHold die => Sys2Proof.Machine.execThermalHold die s
  | .boot images key => Sys2Proof.Machine.execBoot images key s
  -- the eave cluster
  | .eend core => Sys2Proof.Machine.execEend core s
  | .scrubComplete core => Sys2Proof.Machine.execScrubComplete core s
  | .episodeWatchdog core => Sys2Proof.Machine.execEpisodeWatchdog core s
  | .take core m rd => Sys2Proof.Machine.execTake core m rd s
  | .post core m => Sys2Proof.Machine.execPost core m s
  | .mailboxBind m value => Sys2Proof.Machine.execMailboxBind m value s
  -- sequencer control
  | .go l k => Sys2Proof.Machine.execGo l k s
  | .seqStep l k => Sys2Proof.Machine.execSeqStep l k s
  | .stop l k => Sys2Proof.Machine.execStop l k s
  | .abort l k => Sys2Proof.Machine.execAbort l k s
  | .chunkArrival l ch c => Sys2Proof.Machine.execChunkArrival l ch c s
  -- debug commands
  | .haltCourse die => Sys2Proof.Machine.execHaltCourse die s
  | .resumeCourse die => Sys2Proof.Machine.execResumeCourse die s
  | .debugStep die => Sys2Proof.Machine.execDebugStep die s
  | .freezeCore die => Sys2Proof.Machine.execFreezeCore die s
  | .thawCore die => Sys2Proof.Machine.execThawCore die s
  | .debugRead die => Sys2Proof.Machine.execDebugRead die s
  | .debugWrite die force => Sys2Proof.Machine.execDebugWrite die force s
  | .writeFullEmpty die => Sys2Proof.Machine.execWriteFullEmpty die s
  | .armBreakpoint die => Sys2Proof.Machine.execArmBreakpoint die s
  | .disarmBreakpoint die => Sys2Proof.Machine.execDisarmBreakpoint die s
  -- scalar cores, events and writes
  | .episodeWindowAccess core kind addr size value move => Sys2Proof.Machine.execEpisodeWindowAccess core kind addr size value move s
  | .episodeCsrWrite core csr a => Sys2Proof.Machine.execEpisodeCsrWrite core csr a s
  | .managementCoreAccess kind pa size value move => Sys2Proof.Machine.execManagementCoreAccess kind pa size value move s
  | .lightReturn l w => Sys2Proof.Machine.execLightReturn l w s
  | .thermalResume die => Sys2Proof.Machine.execThermalResume die s
  | .selfTestVerdict k die unit pass => Sys2Proof.Machine.execSelfTestVerdict k die unit pass s
  | .managementEventDelivery n => Sys2Proof.Machine.execManagementEventDelivery n s

end Sys2Proof.Machine
end

