-- ==== Sys2Proof/Machine/Step.lean ====
section
/-! DEFINITION. One step of the machine, and a state whose very next step runs a given instruction. -/

namespace Sys2Proof.Machine

/-- One step: what the plan names is performed, and the step is closed. -/
def step (s : State) : Host.Outcome State Fault Refusal :=
  match plan s with
  | .stop f => .fault f
  | .run kind i t => andThen (exec i t) fun u => .next (s.closeStep kind (some i) u)
  | .done kind t => .next (s.closeStep kind none t)

/-- The launch of the grid that withFetchWord makes: one course, with every register, barrier, slot and accumulator that a
workgroup can have, and 32 granules of scratchpad (log entry 13). -/
def fetchLaunch : Launch :=
  { Launch.empty with
    gx := 1, gy := 1, gz := 1, ncrs := 1, nbar := 64, nos := 32, nacc := 128, nv := 192, ns := 48
    partw := 0x20200A }

/-- Its grid, in address space 1. -/
def fetchGrid : Grid :=
  { Grid.empty with launch := fetchLaunch, chain := { Chain.empty with asn := 1 }, total := 1, nextW := 1 }

/-- Its workgroup on core 0, the course active at address 0x10000. -/
def fetchWg : Workgroup :=
  { Workgroup.empty with
    gid := 1, asn := 1, omem := List.range 32, status := .resident
    courses := [(0, { Course.fresh with pc := 0x10000, sched := .active })] }

/-- The state with an instruction stored where the next step fetches (log entry 13): a core's, at the program counter of
the one course that is resident, on a page that its core's TLB maps; a sequencer's, in the instruction memory of link 0,
whose context 0 runs. -/
def State.withFetchWord (s : State) (_nbits w : Nat) : State :=
  let t : State := { s with agenda := [], upsets := [], suspects := [], wfaults := [], fatal := false, bootStop := false, steps := s.steps / 2 * 2, seqTurn := false }
  match decodeCore (tableWords w) with
  | .ok _ =>
    { t with
      mem := putBytes t.mem 0x10000 (bytesOf 12 w)
      poison := clearPoison t.poison 32 0x10000 32
      seqs := []
      dies := Tab.set t.dies 0 { t.die 0 with clockHeld := false }
      grids := Tab.set t.grids 1 fetchGrid
      cores := Tab.set t.cores 0 { t.core 0 with
        tlb := [tlbEntry 1 0x10000 0x10073 0], icache := [], frozen := false }
      wgs := [(0, fetchWg)] }
  | .error _ =>
    { t with
      wgs := []
      dies := Tab.set t.dies 0 { t.die 0 with clockHeld := false }
      seqs := [(0, { Seqr.reset with imem := Tab.put 0 [] 0 (BitVec.ofNat 32 w), ctxs := [(0, { Ctx.reset with st := .running })] })] }

end Sys2Proof.Machine
end

