-- ==== Sys2Proof/Safety.lean ====
section
/-! DEFINITION. What a run must keep, and the terms in which claims speak of an instruction: what it changes, where the
program counter goes, and what reading a register gives afterwards. -/

namespace Sys2Proof.Machine

/-- The machine goes on from a state. -/
def Runs (s : State) : Prop := ∃ t, step s = .next t

/-- Every egress entry knows whose ring it serves (R415, R416). -/
def State.EgressCurrent (s : State) : Prop :=
  ∀ e ∈ s.egress, e.2.holder = if bit e.2.ctl.toNat 7 then s.ringHolder e.2.ring.toNat else none

/-- What holds between steps: no repetition is marked as under way, and the egress entries are current. -/
def State.Inv (s : State) : Prop := s.inRep = false ∧ s.EgressCurrent

-- ## Memory

/-- A byte of memory reads as before. -/
def SameByte (s t : State) (a : Nat) : Prop := t.byteAt a = s.byteAt a

/-- Every byte of stack memory and of every scratchpad reads as before. -/
def SameMemory (s t : State) : Prop := (∀ a, SameByte s t a) ∧ ∀ u a, (t.wg u).byte a = (s.wg u).byte a

-- ## What a course keeps

/-- The parts of a course that a claim about an instruction tells apart. -/
inductive Part where
  | pc | repst | vregs | sregs | fullBits | poison | strip | preds | index | gens | mode | exec | fstat | timers | stack | tlev
  | batches | flights | failed | waiting | order | ended | halted | held
deriving DecidableEq, Repr

/-- The part reads the same in two courses. -/
def Part.same (p : Part) (c k : Course) : Prop :=
  match p with
  | .pc => k.pc = c.pc
  | .repst => k.repst = c.repst
  | .vregs => ∀ r, k.vreg r = c.vreg r
  | .sregs => ∀ r, k.sreg r = c.sreg r
  | .fullBits => (∀ r, k.vIsFull r = c.vIsFull r) ∧ ∀ r, k.sIsFull r = c.sIsFull r
  | .poison => k.vpoison = c.vpoison ∧ k.spoison = c.spoison
  | .strip => ∀ u, k.stripBad u = c.stripBad u
  | .preds => ∀ n, k.pred n = c.pred n
  | .index => ∀ n, k.xreg n = c.xreg n
  | .gens => ∀ n, k.gen n = c.gen n
  | .mode => k.mode = c.mode
  | .exec => k.exec = c.exec
  | .fstat => k.fstat = c.fstat
  | .timers => k.ctimer = c.ctimer ∧ k.ctlim = c.ctlim ∧ k.dtfrac = c.dtfrac
  | .stack => k.stack = c.stack ∧ k.depth = c.depth
  | .tlev => k.tlev = c.tlev
  | .batches => ∀ b, k.batch b = c.batch b
  | .flights => k.flights = c.flights
  | .failed => k.failed = c.failed
  | .waiting => k.wait = c.wait ∧ k.sched = c.sched
  | .order => k.relBar = c.relBar
  | .ended => k.exited = c.exited
  | .halted => k.halted = c.halted
  | .held => k.entered = c.entered ∧ k.since = c.since ∧ k.issued = c.issued ∧ k.sync = c.sync ∧ k.limit = c.limit
      ∧ k.arb = c.arb ∧ k.tried = c.tried ∧ k.detUsed = c.detUsed ∧ k.stepping = c.stepping ∧ k.armed = c.armed

/-- Only the parts named differ between two courses. -/
def CourseKeeps (c k : Course) (ps : List Part) : Prop := ∀ p, p ∉ ps → p.same c k

/-- From `s` to `t` nothing but the course that issues changes, and of it only the parts named: every other course,
register, memory and unit is as before. -/
def Changes (s t : State) (ps : List Part) : Prop := t = s.setCur t.cur ∧ CourseKeeps s.cur t.cur ps

/-- The program counter moves past an instruction of `n` bytes; within a repetition it is counted instead, and the last
one moves past the REP word too (R233, R255). -/
def PastInstr (s t : State) (n : Nat) : Prop :=
  if s.inRep then
    if s.cur.repDone + 1 = s.cur.repCount then t.cur.pc = s.cur.pc + BitVec.ofNat 64 (4 + n) ∧ t.cur.repst = 0
    else t.cur.pc = s.cur.pc ∧ t.cur.repst = repWord true s.cur.repCount (s.cur.repDone + 1)
  else t.cur.pc = s.cur.pc + BitVec.ofNat 64 n ∧ t.cur.repst = s.cur.repst

-- ## Results in registers

/-- A lane of a vector register. -/
def Course.lane (c : Course) (r l : Nat) : W32 := (c.vreg r).toArray.getD l 0

/-- The vector register that lane `l` of a destination names (R240, R244). -/
def Course.dstReg (c : Course) (d : Opnd) (l : Nat) : Option Nat :=
  match d with
  | .v n => some n
  | .s _ => none
  | .x x => some ((c.xreg x).reg l)

/-- The lanes of `m` of a destination hold `f`; every other lane of every vector register is as before. -/
def LanesHold (c k : Course) (d : Opnd) (m : W32) (f : Nat → W32) : Prop :=
  ∀ r l, l < 32 → k.lane r l = if m.getLsbD l ∧ c.dstReg d l = some r then f l else c.lane r l

/-- A scalar destination holds `v`, s0 excepted, which discards it (R240); every other scalar register is as before. -/
def ScalarHolds (c k : Course) (d : Opnd) (v : W64) : Prop :=
  ∀ r, k.sreg r = if d = .s r ∧ r ≠ 0 then v else c.sreg r

/-- An index register after a use in the lanes of a mask (R244). -/
def XReg.stepped (x : XReg) (m : W32) : XReg :=
  { x with off := Vector.ofFn fun l : Fin 32 => if m.getLsbD l.val then BitVec.ofNat 6 (x.after l.val) else x.off[l.val] }

/-- Every index register that the fields name has stepped in the active lanes; the others are as before (R244). -/
def IndexesStep (c k : Course) (os : List Opnd) : Prop :=
  ∀ x, k.xreg x = if x ∈ indexRegs os then (c.xreg x).stepped c.active else c.xreg x

/-- What an ALU instruction of `n` bytes leaves (R241, R220): on the scalar path the destination holds `fs` of the sources'
64 bits, on the vector path each active lane holds `fv` of the sources' 32 bits; FSTAT gains the flags; nothing else
changes. -/
def AluLeaves (s t : State) (n : Nat) (d : Opnd) (srcs : List Opnd) (fs : List W64 → W64 × Nat)
    (fv : List W32 → W32 × Nat) : Prop :=
  Changes s t [.pc, .repst, .waiting, .vregs, .sregs, .poison, .fstat, .index] ∧ PastInstr s t n ∧ t.cur.sched = s.cur.sched
    ∧ if allScalar (d :: srcs) then
        ScalarHolds s.cur t.cur d (fs (srcs.map s.cur.src64)).1 ∧ (∀ r, t.cur.vreg r = s.cur.vreg r)
          ∧ t.cur.fstat = s.cur.fstat ||| BitVec.ofNat 32 (fs (srcs.map s.cur.src64)).2
          ∧ (∀ x, t.cur.xreg x = s.cur.xreg x) ∧ t.cur.vpoison = s.cur.vpoison ∧ t.cur.spoison = s.cur.spoison
      else
        LanesHold s.cur t.cur d s.cur.active (fun l => (fv (srcs.map fun o => s.cur.src o l)).1)
          ∧ (∀ r, t.cur.sreg r = s.cur.sreg r) ∧ t.cur.spoison = s.cur.spoison
          ∧ t.cur.fstat = s.cur.fstat ||| BitVec.ofNat 32
              ((lanesOf s.cur.active).foldl (fun a l => a ||| (fv (srcs.map fun o => s.cur.src o l)).2) 0)
          ∧ IndexesStep s.cur t.cur (d :: srcs)

end Sys2Proof.Machine
end

