-- ==== Sys2Proof/Certificates/Slice0/Obligations.lean ====
section
/-! DEFINITION. The statements for the provers. -/

open Sys2Proof Sys2Proof.Machine

-- ## Words the statements share

namespace Sys2Proof.Machine

/-- The checks of R253 pass: registers allotted, MODE as `mode` asks, registers full, indexes in bounds, no poison. -/
def Passes (s : State) (u : Uses) (lanes : List Nat) (mode : R Unit) : Prop := s.cur.check s.curL u lanes mode = .ok ()

/-- MODE.T holds an integer type (R277). -/
def intMode (s : State) : R Unit := s.cur.needTy [0, 1, 2, 3, 4, 5]

/-- Fit of R277 applied to the exact result of an operation on sources x, y and the third one, with its flags. -/
def intOn (c : Course) (scalar sat : Bool) (z : ITy → Nat → Nat → Nat → Int × Nat) (xs : List Nat) : Nat × Nat :=
  let t := intTy c.ty scalar
  let r := z t (xs.getD 0 0) (xs.getD 1 0) (xs.getD 2 0)
  let f := fit t (if scalar then 64 else 32) (sat && c.sat) r.1
  (f.1, f.2 ||| r.2)

/-- An integer instruction completes: where its checks pass, exec answers a next state, in which the destination holds the
fitted result on the path that the fields choose, FSTAT gains the flags, the indexes step, the program counter passes the
instruction, and nothing else has changed. `srcs` are the sources, `a` alone under FEA. -/
def IntCompletes (s : State) (i : Instr) (d a : Opnd) (others : List Opnd) (sat : Bool)
    (z : ITy → Nat → Nat → Nat → Int × Nat) : Prop :=
  Passes s ⟨[a], others, [d]⟩ (s.cur.pathLanes (d :: a :: others)) (intMode s) →
    ∃ t, exec i s = .next t ∧ AluLeaves s t 4 d (a :: others)
      (fun xs => (BitVec.ofNat 64 (intOn s.cur true sat z (xs.map BitVec.toNat)).1, (intOn s.cur true sat z (xs.map BitVec.toNat)).2))
      (fun xs => (BitVec.ofNat 32 (intOn s.cur false sat z (xs.map BitVec.toNat)).1, (intOn s.cur false sat z (xs.map BitVec.toNat)).2))

/-- The same of the three-operand form. -/
def IntRule (mk : Opnd → Opnd → Opnd → Bool → Instr) (third sat : Bool) (z : ITy → Nat → Nat → Nat → Int × Nat) : Prop :=
  ∀ (s : State) (d a b : Opnd) (h : Bool), IntCompletes s (mk d a b h) d a (if third then [b, d] else [b]) sat z

/-- The same of the two-operand form. -/
def IntRule1 (mk : Opnd → Opnd → Bool → Instr) (sat : Bool) (z : ITy → Nat → Nat → Nat → Int × Nat) : Prop :=
  ∀ (s : State) (d a : Opnd) (h : Bool), IntCompletes s (mk d a h) d a [] sat z

end Sys2Proof.Machine

-- ## Integer instructions

/-- R277, R278, R279, R281: the arithmetic of integers. Each instruction completes in every state in which the checks of
R253 pass, and leaves Fit of its exact result, saturated under MODE.SAT where R278 says so. -/
def Obligations.IntegerArithmeticFitsExactResult : Prop :=
  IntRule .iadd false true (fun t x y _ => (t.val x + t.val y, 0))
  ∧ IntRule .isub false true (fun t x y _ => (t.val x - t.val y, 0))
  ∧ IntRule .imul false true (fun t x y _ => (t.val x * t.val y, 0))
  ∧ IntRule .imulh false false (fun t x y _ => (t.val x * t.val y / ((2 ^ t.w : Nat) : Int), 0))
  ∧ IntRule .imad true true (fun t x y o => (t.val x * t.val y + t.val o, 0))
  ∧ IntRule .idiv false true (fun t x y _ =>
      if t.val y = 0 then (if t.sg then -1 else ((2 ^ t.w : Nat) : Int) - 1, fDZ) else ((t.val x).tdiv (t.val y), 0))
  ∧ IntRule .irem false false (fun t x y _ =>
      if t.val y = 0 then (t.val x, fDZ) else (t.val x - t.val y * (t.val x).tdiv (t.val y), 0))
  ∧ IntRule .imin false false (fun t x y _ => (if t.val x ≤ t.val y then t.val x else t.val y, 0))
  ∧ IntRule .imax false false (fun t x y _ => (if t.val x ≤ t.val y then t.val y else t.val x, 0))
  ∧ IntRule1 .iabs true (fun t x _ _ => (if t.sg ∧ t.val x < 0 then -t.val x else t.val x, 0))
  ∧ ∀ (s : State) (d a : Opnd) (imm : Int),
      IntCompletes s (.iaddi d a imm) d a [] true (fun t x _ _ => (t.val x + imm, 0))

/-- R278, R279, R280, R281: the bitwise instructions, shifts, counts and bit fields work on the W-bit patterns. -/
def Obligations.IntegerBitInstructionsFollowPatterns : Prop :=
  IntRule .and false false (fun t x y _ => (((x % 2 ^ t.w) &&& (y % 2 ^ t.w) : Nat), 0))
  ∧ IntRule .or false false (fun t x y _ => (((x % 2 ^ t.w) ||| (y % 2 ^ t.w) : Nat), 0))
  ∧ IntRule .xor false false (fun t x y _ => (((x % 2 ^ t.w) ^^^ (y % 2 ^ t.w) : Nat), 0))
  ∧ IntRule .shl false false (fun t x y _ => (if t.w ≤ y % 256 then 0 else t.val x * (2 ^ (y % 256) : Nat), 0))
  ∧ IntRule .shr false false (fun t x y _ => (if t.w ≤ y % 256 then 0 else (x % 2 ^ t.w / 2 ^ (y % 256) : Nat), 0))
  ∧ IntRule .sar false false (fun t x y _ => (signed t.w x / ((2 ^ min (y % 256) t.w : Nat) : Int), 0))
  ∧ IntRule1 .popc false (fun t x _ _ => (((List.range t.w).filter fun k => bit x k).length, 0))
  ∧ IntRule1 .clz false (fun t x _ _ => ((((List.range t.w).find? fun n => bit x (t.w - 1 - n)).getD t.w : Nat), 0))
  ∧ IntRule .bfx false false (fun t x y _ =>
      (let pos := y % 256
       let len := y / 256 % 256
       if len = 0 ∨ t.w ≤ pos then 0
       else if t.sg ∧ len < t.w then signed len (x % 2 ^ t.w / 2 ^ pos % 2 ^ len)
       else ((x % 2 ^ t.w / 2 ^ pos % 2 ^ len : Nat) : Int), 0))
  ∧ IntRule .bfi true false (fun t x y o =>
      (((List.range t.w).foldl (fun acc k => acc + ofBool (if y % 256 ≤ k ∧ k < y % 256 + y / 256 % 256
        then bit x (k - y % 256) else bit o k) * 2 ^ k) 0 : Nat), 0))
  ∧ ∀ (s : State) (d a : Opnd) (imm : Nat),
      IntCompletes s (.shli d a imm) d a [] false (fun t x _ _ => (if t.w ≤ imm then 0 else t.val x * (2 ^ imm : Nat), 0))

/-- R282: MOV copies raw bits whatever MODE.T holds, and LIT writes its literal, sign-extended into a scalar, or into bits
63:32 of a scalar whose low half stays. -/
def Obligations.MoveAndLiteralWriteRawBits : Prop :=
  (∀ (s : State) (d a : Opnd) (h : Bool), Passes s ⟨[a], [], [d]⟩ (s.cur.pathLanes [d, a]) (.ok ()) →
    ∃ t, exec (.mov d a h) s = .next t ∧ AluLeaves s t 4 d [a] (fun xs => (xs.getD 0 0, 0)) (fun xs => (xs.getD 0 0, 0)))
  ∧ (∀ (s : State) (d : Opnd) (w : W32), Passes s ⟨[], [], [d]⟩ (s.cur.pathLanes [d]) (.ok ()) →
    ∃ t, exec (.lit d false w) s = .next t ∧ AluLeaves s t 8 d [] (fun _ => (w.signExtend 64, 0)) (fun _ => (w, 0)))
  ∧ (∀ (s : State) (n : Nat) (w : W32), Passes s ⟨[], [.s n], [.s n]⟩ [0] (.ok ()) →
    ∃ t, exec (.lit (.s n) true w) s = .next t ∧ AluLeaves s t 8 (.s n) []
      (fun _ => (BitVec.ofNat 64 (w.toNat * 2 ^ 32 + (s.cur.sreg n).toNat % 2 ^ 32), 0)) (fun _ => (w, 0)))

-- ## Floating-point instructions

namespace Sys2Proof.Machine

/-- MODE.T holds a floating-point type, and MODE.RM a rounding mode where the instruction rounds (R283, R216). -/
def fpMode (rounds : Bool) (s : State) : R Unit := do
  s.cur.needTy [8, 9, 10, 12, 13]
  if rounds then s.cur.needRm else .ok ()

/-- Each element of the result is the exact result on the sources' elements, rounded to MODE.T's format, under MODE.RM
where the instruction rounds and exactly otherwise; a packed pair is two elements (R214, R217, R283). -/
def fpOn (c : Course) (rounds : Bool) (z : Fmt → Nat → FV → FV → FV → FV × Nat) (xs : List Nat) : Nat × Nat :=
  placeF c.ty fun k =>
    let f := fmtOf c.ty
    let v := fun i => decodeF f c.ftz (elemOf c.ty k (xs.getD i 0))
    let r := z f c.rm (v 0) (v 1) (v 2)
    let e := roundTo f (if rounds then c.rm else 0) c.ftz r.1
    (e.1, e.2 ||| r.2)

/-- A floating-point instruction completes with `g` of its sources' bits where its checks pass, and nothing but its
destination, FSTAT, the index registers and the program counter has changed. -/
def FpCompletes (s : State) (i : Instr) (d a : Opnd) (others : List Opnd) (rounds : Bool) (g : List Nat → Nat × Nat) : Prop :=
  Passes s ⟨[a], others, [d]⟩ (s.cur.pathLanes (d :: a :: others)) (fpMode rounds s) →
    ∃ t, exec i s = .next t ∧ AluLeaves s t 4 d (a :: others)
      (fun xs => (BitVec.ofNat 64 (g (xs.map BitVec.toNat)).1, (g (xs.map BitVec.toNat)).2))
      (fun xs => (BitVec.ofNat 32 (g (xs.map BitVec.toNat)).1, (g (xs.map BitVec.toNat)).2))

/-- The three-operand form over elements. -/
def FpRule (mk : Opnd → Opnd → Opnd → Bool → Instr) (third rounds : Bool) (z : Fmt → Nat → FV → FV → FV → FV × Nat) : Prop :=
  ∀ (s : State) (d a b : Opnd) (h : Bool),
    FpCompletes s (mk d a b h) d a (if third then [b, d] else [b]) rounds (fpOn s.cur rounds z)

/-- The two-operand form over elements. -/
def FpRule1 (mk : Opnd → Opnd → Bool → Instr) (rounds : Bool) (z : Fmt → Nat → FV → FV → FV → FV × Nat) : Prop :=
  ∀ (s : State) (d a : Opnd) (h : Bool), FpCompletes s (mk d a h) d a [] rounds (fpOn s.cur rounds z)

/-- A two-operand form computed to nearest by a function of the element's format, FTZ and bits. -/
def FpFunction (mk : Opnd → Opnd → Bool → Instr) (g : Fmt → Bool → Nat → Nat × Nat) : Prop :=
  ∀ (s : State) (d a : Opnd) (h : Bool), FpCompletes s (mk d a h) d a [] false fun xs =>
    placeF s.cur.ty fun k => g (fmtOf s.cur.ty) s.cur.ftz (elemOf s.cur.ty k (xs.getD 0 0))

/-- A NaN operand makes a result NaN; a signalling one raises NV as well (R219). -/
def nanOr (x y : FV) : FV × Nat := (match x with | .nan _ => .nan false | _ => y, match x with | .nan true => fNV | _ => 0)

end Sys2Proof.Machine

/-- R283, R284: the arithmetic that rounds under MODE.RM. Subtraction adds the negated operand, FNMA negates the first
factor, FRCP divides one. -/
def Obligations.FloatArithmeticRoundsExactResult : Prop :=
  FpRule .fadd false true (fun _ rm x y _ => addFV rm x y)
  ∧ FpRule .fsub false true (fun _ rm x y _ => addFV rm x y.negated)
  ∧ FpRule .fmul false true (fun _ _ x y _ => mulFV x y)
  ∧ FpRule .fdiv false true (fun _ _ x y _ => divFV x y)
  ∧ FpRule .fma true true (fun _ rm x y o => fmaFV rm x y o)
  ∧ FpRule .fnma true true (fun _ rm x y o => fmaFV rm x.negated y o)
  ∧ FpRule1 .fsqrt true (fun _ _ x _ _ => sqrtFV x)
  ∧ FpRule1 .frsq true (fun _ _ x _ _ => rsqrtFV x)
  ∧ FpRule1 .frcp true (fun _ _ x _ _ => divFV (.fin false 1 0) x)
  ∧ FpRule1 .frint true (fun _ rm x _ _ => rintFV rm x)
  ∧ ∀ (s : State) (d a b : Opnd) (h : Bool), FpCompletes s (.fscale d a b h) d a [b] true fun xs =>
      placeF s.cur.ty fun k =>
        let f := fmtOf s.cur.ty
        let x := decodeF f s.cur.ftz (elemOf s.cur.ty k (xs.getD 0 0))
        let r := nanOr x (x.scaled (max (-2000) (min 2000 (signed 32 (xs.getD 1 0)))))
        let e := roundTo f s.cur.rm s.cur.ftz r.1
        (e.1, e.2 ||| r.2)

/-- R219, R284: minimum, maximum, absolute value, negation and sign transfer are exact; the four functions of R284 are
rounded to nearest whatever MODE.RM holds. -/
def Obligations.FloatFunctionsIgnoreRoundingMode : Prop :=
  FpRule .fmin false false (fun _ _ x y _ => minMaxFV false x y)
  ∧ FpRule .fmax false false (fun _ _ x y _ => minMaxFV true x y)
  ∧ FpRule1 .fabs false (fun _ _ x _ _ => nanOr x (x.withSign false))
  ∧ FpRule1 .fneg false (fun _ _ x _ _ => nanOr x x.negated)
  ∧ FpFunction .fexp2 (fun f z x => exp2V (fun v => roundTo f 0 z v) x (decodeF f z x))
  ∧ FpFunction .flog2 (fun f z x => log2V (fun v => roundTo f 0 z v) x (decodeF f z x))
  ∧ FpFunction .fsin (fun f z x => turnV false (fun v => roundTo f 0 z v) x (decodeF f z x))
  ∧ FpFunction .fcos (fun f z x => turnV true (fun v => roundTo f 0 z v) x (decodeF f z x))
  ∧ ∀ (s : State) (d a b : Opnd) (h : Bool), FpCompletes s (.fsgn d a b h) d a [b] false fun xs =>
      placeF s.cur.ty fun k =>
        let f := fmtOf s.cur.ty
        let x := decodeF f s.cur.ftz (elemOf s.cur.ty k (xs.getD 0 0))
        let y := elemOf s.cur.ty k (xs.getD 1 0)
        let r := nanOr x (x.withSign (bit y (f.eb + f.fb)))
        ((roundTo f 0 s.cur.ftz r.1).1, (roundTo f 0 s.cur.ftz r.1).2 ||| r.2 ||| (nanOr (decodeF f s.cur.ftz y) x).2)

/-- R216, R217: rounding toward −∞ never exceeds the exact value, rounding toward +∞ never falls below it, and rounding
toward zero never exceeds it in magnitude. Rounding the value of an encoding gives the encoding back, with no flag: what a
format can hold is not changed, in any rounding mode. -/
def Obligations.DirectedRoundingStaysOnItsSide : Prop :=
  (
    ∀ f ∈ [f32, f16, bf16], ∀ (n : Bool) (m : Nat) (e : Int),
      let r := fun rm => decodeF f false (roundTo f rm false (.fin n m e)).1
      cmpFV (r 2) (.fin n m e) ≠ .gt ∧ cmpFV (r 3) (.fin n m e) ≠ .lt
        ∧ cmpFV ((r 1).withSign false) (.fin false m e) ≠ .gt)
  ∧ (
    ∀ f ∈ [f32, f16, bf16], ∀ (rm b : Nat), b < 2 ^ (f.eb + f.fb + 1) → (decodeF f false b).isNan = false →
      roundTo f rm false (decodeF f false b) = (b, 0))

-- ## Compares, predicates and conversions

namespace Sys2Proof.Machine

/-- The instruction of `n` bytes is done: beside the parts named, only the program counter, a repetition's count and the
course's wait have changed. -/
def Leaves (s t : State) (n : Nat) (ps : List Part) : Prop :=
  Changes s t ([.pc, .repst, .waiting] ++ ps) ∧ PastInstr s t n ∧ t.cur.sched = s.cur.sched

/-- Lanes `m` of predicate `p` hold `f`; every other bit of every predicate is as before. -/
def PredHolds (c k : Course) (p : Nat) (m : W32) (f : Nat → Bool) : Prop :=
  ∀ q l, l < 32 → (k.pred q).getLsbD l = if q = p ∧ m.getLsbD l then f l else (c.pred q).getLsbD l

/-- FSTAT has gained flags. -/
def FstatGains (c k : Course) (fl : Nat) : Prop := k.fstat = c.fstat ||| BitVec.ofNat 32 fl

/-- The flags that the lanes of a mask raise. -/
def laneFlags (m : W32) (f : Nat → Nat) : Nat := (lanesOf m).foldl (fun a l => a ||| f l) 0

/-- A compare completes (R285): `f` gives the condition and the flags from the path, and the sources' bits. -/
def CmpCompletes (s : State) (i : Instr) (pd : Nat) (a : Opnd) (others : List Opnd) (tys : List Nat)
    (f : Bool → List Nat → Bool × Nat) : Prop :=
  Passes s ⟨[a], others, []⟩ (s.cur.pathLanes (a :: others)) (s.cur.needTy tys) →
    ∃ t, exec i s = .next t ∧ Leaves s t 4 [.preds, .fstat, .index] ∧
      if allScalar (a :: others) then
        PredHolds s.cur t.cur pd 0xFFFFFFFF (fun _ => (f true ((a :: others).map fun o => (s.cur.src64 o).toNat)).1)
          ∧ FstatGains s.cur t.cur (f true ((a :: others).map fun o => (s.cur.src64 o).toNat)).2
          ∧ ∀ x, t.cur.xreg x = s.cur.xreg x
      else
        PredHolds s.cur t.cur pd s.cur.active (fun l => (f false ((a :: others).map fun o => (s.cur.src o l).toNat)).1)
          ∧ FstatGains s.cur t.cur
              (laneFlags s.cur.active fun l => (f false ((a :: others).map fun o => (s.cur.src o l).toNat)).2)
          ∧ IndexesStep s.cur t.cur (a :: others)

/-- The integer conditions 0 to 5 (R285). -/
def intCond (cond : Nat) (x y : Int) : Bool :=
  [decide (x = y), decide (x ≠ y), decide (x < y), decide (x ≤ y), decide (x > y), decide (x ≥ y)].getD cond false

/-- The floating-point conditions 0 to 7 (R285). -/
def fpCond (cond : Nat) (x y : FV) : Bool :=
  if x.isNan || y.isNan then [false, true, false, false, false, false, false, true].getD cond false
  else
    let o := cmpFV x y
    [decide (o = .eq), decide (o ≠ .eq), decide (o = .lt), decide (o = .lt ∨ o = .eq), decide (o = .gt),
      decide (o = .gt ∨ o = .eq), true, false].getD cond false

end Sys2Proof.Machine

/-- R285: the compares. An ICMPI immediate keeps its value under a signed type, and is brought to W bits under another; a
signalling NaN raises NV under every condition, a quiet one under conditions 2 to 5. -/
def Obligations.ComparesWritePredicate : Prop :=
  (∀ (s : State) (pd cond : Nat) (a b : Opnd) (h : Bool), cond < 6 →
    CmpCompletes s (.icmp pd cond a b h) pd a [b] [0, 1, 2, 3, 4, 5] fun sc xs =>
      (intCond cond ((intTy s.cur.ty sc).val (xs.getD 0 0)) ((intTy s.cur.ty sc).val (xs.getD 1 0)), 0))
  ∧ (∀ (s : State) (pd cond : Nat) (a : Opnd) (imm : Int), cond < 6 →
    CmpCompletes s (.icmpi pd cond a imm) pd a [] [0, 1, 2, 3, 4, 5] fun sc xs =>
      (intCond cond ((intTy s.cur.ty sc).val (xs.getD 0 0))
        (if s.cur.ty ∈ [0, 2, 4] then imm else imm % ((2 ^ (intTy s.cur.ty sc).w : Nat) : Int)), 0))
  ∧ ∀ (s : State) (pd cond : Nat) (a b : Opnd) (h : Bool), cond < 8 →
    CmpCompletes s (.fcmp pd cond a b h) pd a [b] [8, 9, 10] fun _ xs =>
      let v := fun i => decodeF (fmtOf s.cur.ty) s.cur.ftz (elemOf s.cur.ty 0 (xs.getD i 0))
      (fpCond cond (v 0) (v 1),
        if (v 0).isSig || (v 1).isSig || (((v 0).isNan || (v 1).isNan) && 2 ≤ cond && cond ≤ 5) then fNV else 0)

/-- R286, R287, R288: predicate logic, the transfers between predicates and registers, and select, which the guard does
not restrict. -/
def Obligations.PredicateInstructionsAndSelect : Prop :=
  (∀ (s : State) (pd op pa pb : Nat), op < 8 →
    ∃ t, exec (.plog pd op pa pb) s = .next t ∧ Leaves s t 4 [.preds] ∧ PredHolds s.cur t.cur pd s.cur.active fun l =>
      let a := (s.cur.pred pa).getLsbD l
      let b := (s.cur.pred pb).getLsbD l
      [a && b, a || b, xor a b, a && !b, a || !b, !a, true, false].getD op false)
  ∧ (∀ (s : State) (d : Opnd) (p : Nat), Passes s ⟨[], [], [d]⟩ (s.cur.pathLanes [d]) (.ok ()) →
    ∃ t, exec (.prd d p) s = .next t ∧ Leaves s t 4 [.vregs, .sregs, .poison, .index] ∧
      if d.isS then ScalarHolds s.cur t.cur d ((s.cur.pred p).setWidth 64) ∧ (∀ r, t.cur.vreg r = s.cur.vreg r)
      else LanesHold s.cur t.cur d s.cur.active (fun l => if (s.cur.pred p).getLsbD l then 1 else 0)
        ∧ (∀ r, t.cur.sreg r = s.cur.sreg r) ∧ IndexesStep s.cur t.cur [d])
  ∧ (∀ (s : State) (p : Nat) (a : Opnd) (h : Bool), Passes s ⟨[a], [], []⟩ (s.cur.pathLanes [a]) (.ok ()) →
    ∃ t, exec (.pwr p a h) s = .next t ∧ Leaves s t 4 [.preds, .index] ∧
      if a.isS then PredHolds s.cur t.cur p 0xFFFFFFFF (fun l => (s.cur.src64 a).getLsbD l)
        ∧ ∀ x, t.cur.xreg x = s.cur.xreg x
      else PredHolds s.cur t.cur p s.cur.active (fun l => decide (s.cur.src a l ≠ 0)) ∧ IndexesStep s.cur t.cur [a])
  ∧ ∀ (s : State) (d a b : Opnd) (h : Bool),
    s.cur.unguarded.check s.curL ⟨[a], [b], [d]⟩ (s.cur.unguarded.pathLanes [d, a, b]) (.ok ()) = .ok () →
    ∃ t, exec (.sel d a b h) s = .next t ∧ Leaves s t 4 [.vregs, .sregs, .poison, .index] ∧
      let pick := fun l => xor ((s.cur.pred (s.cur.mode.toNat % 8)).getLsbD l) (s.cur.mode.getLsbD 3)
      if allScalar [d, a, b] then
        ScalarHolds s.cur t.cur d
            (if (lanesOf s.cur.exec).head?.any pick then s.cur.src64 a else s.cur.src64 b)
          ∧ ∀ r, t.cur.vreg r = s.cur.vreg r
      else LanesHold s.cur t.cur d s.cur.exec (fun l => if pick l then s.cur.src a l else s.cur.src b l)
        ∧ (∀ r, t.cur.sreg r = s.cur.sreg r)
        ∧ ∀ x, t.cur.xreg x = if x ∈ indexRegs [d, a, b] then (s.cur.xreg x).stepped s.cur.exec else s.cur.xreg x

namespace Sys2Proof.Machine

/-- The class of an encoding (R289), by its fields. -/
def fpClass (f : Fmt) (b : Nat) : Nat :=
  let neg := bit b (f.eb + f.fb)
  let ex := b / 2 ^ f.fb % 2 ^ f.eb
  let fr := b % 2 ^ f.fb
  if ex = 2 ^ f.eb - 1 then
    if fr = 0 then (if neg then 0 else 7) else if 2 ^ (f.fb - 1) ≤ fr then 9 else 8
  else if ex = 0 then
    if fr = 0 then (if neg then 3 else 4) else if neg then 2 else 5
  else if neg then 1 else 6

/-- What CVT makes of a source's bits (R290), on a path. -/
def cvtResult (c : Course) (scalar : Bool) (tgt x : Nat) : Nat × Nat :=
  let pw := if scalar then 64 else 32
  let toTy := intTy tgt scalar
  let round := fun (v : FV) (fl : Nat) => ((roundTo (fmtOf tgt) c.rm c.ftz v).1, (roundTo (fmtOf tgt) c.rm c.ftz v).2 ||| fl)
  if c.ty ≤ 5 then
    let z := (intTy c.ty scalar).val x
    if tgt ≤ 5 then fit toTy pw c.sat z else round (.fin (decide (z < 0)) z.natAbs 0) 0
  else
    let v := decodeF (fmtOf c.ty) c.ftz (elemOf c.ty 0 x)
    if tgt ≤ 5 then (wrap pw (toTy.val (toInt toTy c.rm c.sat v).1), (toInt toTy c.rm c.sat v).2)
    else round v (if v.isSig then fNV else 0)

/-- What CVTS makes of a source's bits (R291): decoding a slot's pattern into FP32, or encoding FP32 under the slot. -/
def cvtsResult (c : Course) (enc : Bool) (slot : W32) (x : Nat) : Nat × Nat :=
  if enc then
    let v := decodeF f32 c.ftz (x % 2 ^ 32)
    ((encodeSlot slot c.rm c.ftz v).1,
      (encodeSlot slot c.rm c.ftz v).2 ||| (if v.isSig && decide (3 ≤ slotCode slot) then fNV else 0))
  else
    let v := decodeSlot slot c.ftz (x % 2 ^ slotWidth slot)
    let e := roundTo f32 c.rm c.ftz v.1
    (e.1, e.2 ||| v.2 ||| (if v.1.isSig then fNV else 0))

/-- The MODE checks of CVT (R290): both types convertible, and a rounding mode unless both are integer. -/
def cvtMode (tgt : Nat) (s : State) : R Unit := do
  s.cur.needTy [0, 1, 2, 3, 4, 5, 8, 9, 10]
  if s.cur.ty ≤ 5 ∧ tgt ≤ 5 then .ok () else s.cur.needRm

/-- The container checks (R292): a t8 or t6 slot. -/
def contMode (fslot : Nat) (s : State) : R Unit := do
  need (decide (slotCode (s.curL.fslot fslot) = 1) || decide (slotCode (s.curL.fslot fslot) = 2)) illegal
  s.cur.needRm

/-- The registers `n` to `n + k - 1` hold `f` of their place and the lane, in the active lanes; every other lane of every
register is as before. -/
def BlockHolds (c k : Course) (n len : Nat) (f : Nat → Nat → W32) : Prop :=
  ∀ r l, l < 32 → k.lane r l = if c.active.getLsbD l ∧ n ≤ r ∧ r < n + len then f (r - n) l else c.lane r l

end Sys2Proof.Machine

/-- R289, R290, R291: classification, conversion between element types, and conversion under a format slot. -/
def Obligations.ConversionsFollowTypesAndSlots : Prop :=
  (∀ (s : State) (d a : Opnd) (h : Bool), Passes s ⟨[a], [], [d]⟩ (s.cur.pathLanes [d, a]) (s.cur.needTy [8, 9, 10]) →
    ∃ t, exec (.fclass d a h) s = .next t ∧ AluLeaves s t 4 d [a]
      (fun xs => (BitVec.ofNat 64 (2 ^ fpClass (fmtOf s.cur.ty) (elemOf s.cur.ty 0 (xs.getD 0 0).toNat)), 0))
      (fun xs => (BitVec.ofNat 32 (2 ^ fpClass (fmtOf s.cur.ty) (elemOf s.cur.ty 0 (xs.getD 0 0).toNat)), 0)))
  ∧ (∀ (s : State) (d a : Opnd) (tgt : Nat) (h : Bool),
    Passes s ⟨[a], [], [d]⟩ (s.cur.pathLanes [d, a]) (cvtMode tgt s) →
    ∃ t, exec (.cvt d a tgt h) s = .next t ∧ AluLeaves s t 4 d [a]
      (fun xs => (BitVec.ofNat 64 (cvtResult s.cur true tgt (xs.getD 0 0).toNat).1, (cvtResult s.cur true tgt (xs.getD 0 0).toNat).2))
      (fun xs => (BitVec.ofNat 32 (cvtResult s.cur false tgt (xs.getD 0 0).toNat).1, (cvtResult s.cur false tgt (xs.getD 0 0).toNat).2)))
  ∧ ∀ (s : State) (d a : Opnd) (enc : Bool) (n : Nat) (h : Bool), slotCode (s.curL.fslot n) ≠ 0 →
    Passes s ⟨[a], [], [d]⟩ (s.cur.pathLanes [d, a]) s.cur.needRm →
    ∃ t, exec (.cvts d a enc n h) s = .next t ∧ AluLeaves s t 4 d [a]
      (fun xs => (BitVec.ofNat 64 (cvtsResult s.cur enc (s.curL.fslot n) (xs.getD 0 0).toNat).1,
        (cvtsResult s.cur enc (s.curL.fslot n) (xs.getD 0 0).toNat).2))
      (fun xs => (BitVec.ofNat 32 (cvtsResult s.cur enc (s.curL.fslot n) (xs.getD 0 0).toNat).1,
        (cvtsResult s.cur enc (s.curL.fslot n) (xs.getD 0 0).toNat).2))

/-- R292: CPACK encodes 16 or 20 FP32 registers into a container of four, and CUNPK decodes one, lane by lane; every source
is read before any register is written. -/
def Obligations.ContainersPackAndUnpack : Prop :=
  (∀ (s : State) (d a fslot : Nat),
    let slot := s.curL.fslot fslot
    let n := if slotCode slot = 1 then 16 else 20
    Passes s ⟨(List.range n).map fun j => .v (a + j), [], (List.range 4).map fun j => .v (d + j)⟩ (lanesOf s.cur.active)
      (contMode fslot s) →
    ∃ t, exec (.cpack (.v d) (.v a) fslot) s = .next t ∧ Leaves s t 4 [.vregs, .poison] ∧
      BlockHolds s.cur t.cur d 4 fun j l =>
        let es := (List.range n).map fun i =>
          (encodeSlot slot 0 s.cur.ftz (decodeF f32 s.cur.ftz (s.cur.lane (a + i) l).toNat)).1
        BitVec.ofNat 32 ((if slotCode slot = 1 then leBytes (es.map (BitVec.ofNat 8)) else t6Pack es) / 2 ^ (32 * j)))
  ∧ ∀ (s : State) (d a fslot : Nat),
    let slot := s.curL.fslot fslot
    let n := if slotCode slot = 1 then 16 else 20
    Passes s ⟨(List.range 4).map fun j => .v (a + j), [], (List.range n).map fun j => .v (d + j)⟩ (lanesOf s.cur.active)
      (contMode fslot s) →
    let el := fun i l => rounded f32 s.cur.rm s.cur.ftz (contElem slot
      ((s.cur.lane a l).toNat + (s.cur.lane (a + 1) l).toNat * 2 ^ 32 + (s.cur.lane (a + 2) l).toNat * 2 ^ 64
        + (s.cur.lane (a + 3) l).toNat * 2 ^ 96) i)
    ∃ t, exec (.cunpk (.v d) (.v a) fslot) s = .next t ∧ Leaves s t 4 [.vregs, .poison, .fstat] ∧
      BlockHolds s.cur t.cur d n (fun i l => BitVec.ofNat 32 (el i l).1)
      ∧ FstatGains s.cur t.cur (laneFlags s.cur.active fun l => (List.range n).foldl (fun f i => f ||| (el i l).2) 0)

-- ## Lane operations, index registers and special registers

namespace Sys2Proof.Machine

/-- One value in a scalar, or in every active lane of a vector (R294). -/
def OneValue (s t : State) (d : Opnd) (v : W64) : Prop :=
  if d.isS then ScalarHolds s.cur t.cur d v ∧ (∀ r, t.cur.vreg r = s.cur.vreg r) ∧ ∀ x, t.cur.xreg x = s.cur.xreg x
  else LanesHold s.cur t.cur d s.cur.active (fun _ => v.setWidth 32) ∧ (∀ r, t.cur.sreg r = s.cur.sreg r)
    ∧ IndexesStep s.cur t.cur [d]

/-- The register of a shuffle's source that lane `l` names, read in lane `k` (R293). -/
def shuffleSource (c : Course) (a : Opnd) (l k : Nat) : W32 :=
  match a with
  | .v n => c.lane n k
  | .x x => c.lane ((c.xreg x).reg l) k
  | .s n => (c.sreg n).setWidth 32

/-- A shuffle completes. -/
def ShuffleCompletes (s : State) (i : Instr) (d a b : Opnd) (pick : Nat → Nat → Nat) : Prop :=
  Passes s ⟨[a], [b], [d]⟩ (lanesOf s.cur.active) (.ok ()) →
    ∃ t, exec i s = .next t ∧ Leaves s t 4 [.vregs, .poison, .index]
      ∧ LanesHold s.cur t.cur d s.cur.active (fun l => shuffleSource s.cur a l (pick l ((s.cur.src b l).toNat % 32)))
      ∧ IndexesStep s.cur t.cur [d, a, b]

end Sys2Proof.Machine

/-- R293, R294, R295, R296: shuffles, the values formed from the lanes, reductions, scans and the counter hash. -/
def Obligations.LaneOperationsReadAcrossLanes : Prop :=
  (∀ (s : State) (d a b : Opnd) (h : Bool), ShuffleCompletes s (.shfl d a b h) d a b fun _ k => k)
  ∧ (∀ (s : State) (d a b : Opnd) (h : Bool), ShuffleCompletes s (.shflx d a b h) d a b fun l k => l ^^^ k)
  ∧ (∀ (s : State) (d : Opnd) (a : Nat) (b : Opnd),
    Passes s ⟨[.v a], [b], [d]⟩ [(s.cur.src b 0).toNat % 32] (.ok ()) →
    ∃ t, exec (.bcast d a b) s = .next t ∧ Leaves s t 4 [.vregs, .sregs, .poison, .index, .fstat]
      ∧ OneValue s t d ((s.cur.lane a ((s.cur.src b 0).toNat % 32)).setWidth 64) ∧ t.cur.fstat = s.cur.fstat)
  ∧ (∀ (s : State) (d : Opnd) (a : Nat), Passes s ⟨[.v a], [], [d]⟩ (lanesOf s.cur.active) (.ok ()) →
    ∃ t v, exec (.ballot d a) s = .next t ∧ Leaves s t 4 [.vregs, .sregs, .poison, .index, .fstat] ∧ OneValue s t d v
      ∧ (∀ l, v.getLsbD l = (decide (l < 32) && s.cur.active.getLsbD l && decide (s.cur.lane a l ≠ 0)))
      ∧ t.cur.fstat = s.cur.fstat)
  ∧ (∀ (s : State) (d : Opnd) (p : Nat), Passes s ⟨[], [], [d]⟩ [] (.ok ()) →
    ∃ t n, exec (.lfirst d p) s = .next t ∧ Leaves s t 4 [.vregs, .sregs, .poison, .index, .fstat]
      ∧ OneValue s t d (BitVec.ofNat 64 n) ∧ n ≤ 32
      ∧ (∀ l < n, ¬(s.cur.active.getLsbD l ∧ (s.cur.pred p).getLsbD l))
      ∧ (n < 32 → s.cur.active.getLsbD n ∧ (s.cur.pred p).getLsbD n) ∧ t.cur.fstat = s.cur.fstat)
  ∧ (∀ (s : State) (d : Opnd) (a op : Nat), Passes s ⟨[.v a], [], [d]⟩ (lanesOf s.cur.active) (redMode op s.cur) →
    let r := redValue s.cur op ((lanesOf s.cur.active).map fun l => (s.cur.lane a l).toNat)
    ∃ t, exec (.vred d a op) s = .next t ∧ Leaves s t 4 [.vregs, .sregs, .poison, .index, .fstat]
      ∧ OneValue s t d (if s.cur.ty ∈ [0, 2, 4] then (BitVec.ofNat 32 r.1).signExtend 64 else BitVec.ofNat 64 r.1)
      ∧ FstatGains s.cur t.cur r.2)
  ∧ (∀ (s : State) (d a : Opnd) (op : Nat) (ex h : Bool), Passes s ⟨[a], [], [d]⟩ (lanesOf s.cur.active) (redMode op s.cur) →
    let r := fun l => redValue s.cur op
      (((lanesOf s.cur.active).filter fun k => decide (k < l) || (!ex && decide (k = l))).map fun k => (s.cur.src a k).toNat)
    ∃ t, exec (.vscan d a op ex h) s = .next t ∧ Leaves s t 4 [.vregs, .poison, .index, .fstat]
      ∧ LanesHold s.cur t.cur d s.cur.active (fun l => BitVec.ofNat 32 (r l).1)
      ∧ FstatGains s.cur t.cur (laneFlags s.cur.active fun l => (r l).2) ∧ IndexesStep s.cur t.cur [d, a])
  ∧ ∀ (s : State) (d a b : Opnd), Passes s ⟨[a], [b], [d]⟩ (s.cur.pathLanes [d, a, b]) (.ok ()) →
    let col := fun l => BitVec.ofNat 32 ((s.curW.w * s.curL.ncrs + s.curCrs) * 32 + l)
    let key := s.curL.seed ^^^ s.cur.src64 a
    ∃ t, exec (.rnd d a b) s = .next t ∧ Leaves s t 4 [.vregs, .sregs, .poison, .index] ∧
      if allScalar [d, a, b] then ScalarHolds s.cur t.cur d ((reed key (s.cur.src b 0) (col 0)).setWidth 64)
        ∧ ∀ r, t.cur.vreg r = s.cur.vreg r
      else LanesHold s.cur t.cur d s.cur.active (fun l => reed key (s.cur.src b l) (col l))
        ∧ (∀ r, t.cur.sreg r = s.cur.sreg r) ∧ IndexesStep s.cur t.cur [d, a, b]

namespace Sys2Proof.Machine

/-- The units of the reserved strip named are poisoned no more; every other one is as before (R90, log entry 86). -/
def StripCleared (c k : Course) (us : List Nat) : Prop := ∀ u, k.stripBad u = (c.stripBad u && !us.contains u)

/-- Index register `x` holds `r`; the others are as before. -/
def IndexHolds (c k : Course) (x : Nat) (r : XReg) : Prop := ∀ y, k.xreg y = if y = x then r else c.xreg y

/-- Index register `x` keeps its control bits and has `f` in the active lanes' offsets and its old or stepped offsets, those
after the source's resolution, in the others; the source's other index registers have stepped (R297). -/
def OffsetsHold (c k : Course) (x : Nat) (a : Opnd) (f : XReg → Nat → Nat) : Prop :=
  let at0 := fun y => if y ∈ indexRegs [a] then (c.xreg y).stepped c.active else c.xreg y
  (∀ y, y ≠ x → k.xreg y = at0 y) ∧ (k.xreg x).ctl = (c.xreg x).ctl
    ∧ ∀ l : Fin 32, ((k.xreg x).off[l]).toNat = if c.active.getLsbD l.val then f (at0 x) l.val else ((at0 x).off[l]).toNat

end Sys2Proof.Machine

/-- R297: the index instructions. XSET sets the control bits, and raises the illegal trap for a source with any of bits 63:20 set;
XOFF sets offsets, and raises the index-bound trap, for the lowest active lane whose value exceeds 63; XADD adds to the
offsets, stepped first where the source resolves through the same register; XRD reads the control bits, XRDO the offsets; XCLR
clears the register. XCLR, and XOFF in the upper 16 lanes, write whole units of the reserved strip, whose poison ends (R90): which
register lies in which unit is the model's choice (log entry 86). -/
def Obligations.IndexInstructionsSetFields : Prop :=
  (∀ (s : State) (x : Nat) (a : Opnd) (h : Bool), Passes s ⟨[a], [], []⟩ [0] (.ok ()) → (s.cur.src64 a).toNat < 2 ^ 20 →
    ∃ t, exec (.xset x a h) s = .next t ∧ Leaves s t 4 [.index]
      ∧ IndexHolds s.cur t.cur x { s.cur.xreg x with ctl := (s.cur.src64 a).setWidth 32 })
  ∧ (∀ (s : State) (x : Nat) (a : Opnd) (h : Bool), Passes s ⟨[a], [], []⟩ [0] (.ok ()) → 2 ^ 20 ≤ (s.cur.src64 a).toNat →
    exec (.xset x a h) s = .next (stopped s (.trap { code := 0x01 })))
  ∧ (∀ (s : State) (x : Nat) (a : Opnd) (h : Bool), Passes s ⟨[a], [], []⟩ (lanesOf s.cur.active) (.ok ()) →
    (∀ l, s.cur.active.getLsbD l → (s.cur.src a l).toNat ≤ 63) →
    ∃ t, exec (.xoff x a h) s = .next t ∧ Leaves s t 4 [.index, .strip]
      ∧ (OffsetsHold s.cur t.cur x a fun _ l => (s.cur.src a l).toNat)
      ∧ StripCleared s.cur t.cur (if ∀ l < 32, 16 ≤ l → s.cur.active.getLsbD l = true then [3 + 2 * x] else []))
  ∧ (∀ (s : State) (x : Nat) (a : Opnd) (h : Bool) (l : Nat), Passes s ⟨[a], [], []⟩ (lanesOf s.cur.active) (.ok ()) →
    l < 32 → s.cur.active.getLsbD l = true → 63 < (s.cur.src a l).toNat →
    (∀ k < l, s.cur.active.getLsbD k → (s.cur.src a k).toNat ≤ 63) →
    exec (.xoff x a h) s = .next (stopped s (.trap { code := 0x05, lane := l })))
  ∧ (∀ (s : State) (x : Nat) (a : Opnd) (h : Bool), Passes s ⟨[a], [], []⟩ (lanesOf s.cur.active) (.ok ()) →
    ∃ t, exec (.xadd x a h) s = .next t ∧ Leaves s t 4 [.index]
      ∧ OffsetsHold s.cur t.cur x a fun r l =>
        (((r.off.toArray.getD l 0).toNat + (s.cur.src a l).toInt) % (if r.wrapped then (r.bound : Int) else 64)).toNat)
  ∧ (∀ (s : State) (d : Opnd) (x : Nat), Passes s ⟨[], [], [d]⟩ [] (.ok ()) →
    ∃ t, exec (.xrd d x) s = .next t ∧ Leaves s t 4 [.vregs, .sregs, .poison, .index, .fstat]
      ∧ OneValue s t d ((s.cur.xreg x).ctl.setWidth 64) ∧ t.cur.fstat = s.cur.fstat)
  ∧ (∀ (s : State) (d : Opnd) (x : Nat), Passes s ⟨[], [], [d]⟩ (lanesOf s.cur.active) (.ok ()) →
    ∃ t, exec (.xrdo d x) s = .next t ∧ Leaves s t 4 [.vregs, .poison, .index]
      ∧ LanesHold s.cur t.cur d s.cur.active (fun l => ((s.cur.xreg x).off.toArray.getD l 0).setWidth 32)
      ∧ IndexesStep s.cur t.cur [d])
  ∧ ∀ (s : State) (x : Nat), ∃ t, exec (.xclr x) s = .next t ∧ Leaves s t 4 [.index, .strip]
      ∧ IndexHolds s.cur t.cur x ⟨0, Vector.replicate 32 0⟩ ∧ StripCleared s.cur t.cur [2 + 2 * x, 3 + 2 * x]

/-- R173, R298, R299: SRD gives each special register's value, LANE each lane its own number, and a read of DTIME latches
DTFRAC; SWR writes CTIMER, CTLIM, FSTAT, which refuses bits 63:6, and EXEC, which the path mask bounds (R176). -/
def Obligations.SpecialRegistersReadAndWrite : Prop :=
  (∀ (s : State) (d : Opnd) (n : Nat) (v : W64), Passes s ⟨[], [], [d]⟩ (s.cur.pathLanes [d]) (.ok ()) →
    (n, v) ∈ [(0x00, s.cycle), (0x01, BitVec.ofNat 64 (s.dtime / 2 ^ 16)), (0x02, s.cur.dtfrac.setWidth 64), (0x03, s.cur.ctimer),
      (0x04, s.cur.ctlim), (0x05, s.cur.fstat.setWidth 64), (0x06, s.cur.repst.setWidth 64), (0x07, s.cur.exec.setWidth 64),
      (0x08, s.curL.partw), (0x09, s.curL.seed), (0x0A, BitVec.ofNat 64 s.curL.gx), (0x0B, BitVec.ofNat 64 s.curL.gy),
      (0x0C, BitVec.ofNat 64 s.curL.gz), (0x0D, BitVec.ofNat 64 (s.curW.w % s.curL.gx)),
      (0x0E, BitVec.ofNat 64 (s.curW.w / s.curL.gx % s.curL.gy)), (0x0F, BitVec.ofNat 64 (s.curW.w / (s.curL.gx * s.curL.gy))),
      (0x10, BitVec.ofNat 64 s.curW.w), (0x11, BitVec.ofNat 64 s.curL.ncrs), (0x12, BitVec.ofNat 64 s.curCrs),
      (0x14, BitVec.ofNat 64 (if s.curL.coh ≤ 1 then 0 else s.curW.w / s.curL.coh)),
      (0x15, BitVec.ofNat 64 (if s.curL.coh ≤ 1 then 0 else s.curW.w % s.curL.coh)), (0x16, BitVec.ofNat 64 s.curW.tries),
      (0x17, s.ownPeer.setWidth 64)] →
    ∃ t, exec (.srd d n) s = .next t ∧ Leaves s t 4 [.vregs, .sregs, .poison, .index, .timers] ∧ OneValue s t d v
      ∧ t.cur.ctimer = s.cur.ctimer ∧ t.cur.ctlim = s.cur.ctlim
      ∧ t.cur.dtfrac = if n = 0x01 then BitVec.ofNat 16 s.dtime else s.cur.dtfrac)
  ∧ (∀ (s : State) (d : Opnd), d.isS = false → Passes s ⟨[], [], [d]⟩ (s.cur.pathLanes [d]) (.ok ()) →
    ∃ t, exec (.srd d 0x13) s = .next t ∧ Leaves s t 4 [.vregs, .poison, .index]
      ∧ LanesHold s.cur t.cur d s.cur.active (fun l => BitVec.ofNat 32 l) ∧ IndexesStep s.cur t.cur [d])
  ∧ (∀ (s : State) (a : Opnd) (h : Bool), Passes s ⟨[a], [], []⟩ [0] (.ok ()) →
    (∃ t, exec (.swr 0x03 a h) s = .next t ∧ Leaves s t 4 [.timers]
      ∧ t.cur.ctimer = s.cur.src64 a ∧ t.cur.ctlim = s.cur.ctlim ∧ t.cur.dtfrac = s.cur.dtfrac)
    ∧ (∃ t, exec (.swr 0x04 a h) s = .next t ∧ Leaves s t 4 [.timers]
      ∧ t.cur.ctlim = s.cur.src64 a ∧ t.cur.ctimer = s.cur.ctimer ∧ t.cur.dtfrac = s.cur.dtfrac)
    ∧ ((s.cur.src64 a).toNat < 64 → ∃ t, exec (.swr 0x05 a h) s = .next t ∧ Leaves s t 4 [.fstat]
      ∧ t.cur.fstat = (s.cur.src64 a).setWidth 32)
    ∧ (64 ≤ (s.cur.src64 a).toNat → exec (.swr 0x05 a h) s = .next (stopped s (.trap { code := 0x01 })))
    ∧ ∃ t, exec (.swr 0x07 a h) s = .next t ∧ Leaves s t 4 [.exec]
      ∧ t.cur.exec = (s.cur.src64 a).setWidth 32 &&& s.cur.pathMask)

-- ## MODE, control flow, divergence, traps and REP

namespace Sys2Proof.Machine

/-- The word `w` can be fetched at `va`, from the physical address `pa`: the core's TLB maps the page for execution (and does
not count its uses), and the core's instruction cache holds the word, or it does not and memory does, without poison there or in
the stack beneath a held slate. -/
def WordAt (s : State) (va pa : Nat) (w : W32) : Prop :=
  ∃ x leaf, lookup s s.curW.core s.curG.chain.asn va 3 = .ok x leaf ∧ x.pa = pa ∧ leafAM leaf ≠ 3
    ∧ (Tab.find (s.core s.curW.core).icache (pa / 4) = some w
      ∨ (Tab.find (s.core s.curW.core).icache (pa / 4) = none ∧ s.poisoned pa = false
        ∧ Tab.get false s.under (pa / 32) = false ∧ s.read pa 4 = w.toNat))

end Sys2Proof.Machine

/-- R275, R276: NOP moves the program counter alone, and its word with a field set raises the illegal trap; MODEW and MODEF
write MODE, MODER reads it. A source of MODEW with any of bits 63:17 set raises the illegal trap and MODE is unchanged. -/
def Obligations.ModeInstructionsWriteOneField : Prop :=
  (∀ s : State, ∃ t, exec .nop s = .next t ∧ Leaves s t 4 [])
  ∧ decodeCore [0] = .ok .nop
  ∧ (∀ (s : State) (pa : Nat) (w : W32), 0 < w.toNat → w.toNat < 2 ^ 25 → s.reds = [] → WordAt s s.cur.pc.toNat pa w →
    ∃ x, nextInstr s = .error (.after x (.trap { code := 0x01 })) ∧ (∀ y, SameByte s x y) ∧ x.wgs = s.wgs)
  ∧ (∀ (s : State) (a : Opnd), Passes s ⟨[a], [], []⟩ [0] (.ok ()) → (s.cur.src64 a).toNat < 2 ^ 17 →
    ∃ t, exec (.modew a) s = .next t ∧ Leaves s t 4 [.mode] ∧ t.cur.mode = (s.cur.src64 a).setWidth 32)
  ∧ (∀ (s : State) (a : Opnd), Passes s ⟨[a], [], []⟩ [0] (.ok ()) → 2 ^ 17 ≤ (s.cur.src64 a).toNat →
    exec (.modew a) s = .next (stopped s (.trap { code := 0x01 })))
  ∧ (∀ (s : State) (sel val lo w : Nat), [(0, 5), (5, 5), (10, 3), (13, 1), (14, 1), (15, 1), (16, 1)][sel]? = some (lo, w) →
    val < 2 ^ w →
    ∃ t, exec (.modef sel val) s = .next t ∧ Leaves s t 4 [.mode] ∧
      ∀ j, j < 32 → t.cur.mode.getLsbD j = if lo ≤ j ∧ j < lo + w then val.testBit (j - lo) else s.cur.mode.getLsbD j)
  ∧ ∀ (s : State) (d : Opnd), Passes s ⟨[], [], [d]⟩ [0] (.ok ()) →
    ∃ t, exec (.moder d) s = .next t ∧ Leaves s t 4 [.sregs] ∧ ScalarHolds s.cur t.cur d (s.cur.mode.setWidth 64)

namespace Sys2Proof.Machine

/-- Control has passed to `pc`: beside it, and the parts named, only the course's wait has changed. -/
def Jumps (s t : State) (pc : W64) (ps : List Part) : Prop :=
  Changes s t ([.pc, .waiting] ++ ps) ∧ t.cur.pc = pc ∧ t.cur.sched = s.cur.sched

/-- The target of a branch: four times the offset from its own address (R237). -/
def branchTo (s : State) (off : Int) : W64 := s.cur.pc + BitVec.ofInt 64 (4 * off)

end Sys2Proof.Machine

/-- R237, R269, R272: branches, calls and register jumps. A misaligned register target raises the alignment trap, transfers
nothing and writes no link; the target is read before the link is written. -/
def Obligations.BranchesAndCallsTransferControl : Prop :=
  (∀ (s : State) (off : Int), ∃ t, exec (.br off) s = .next t ∧ Jumps s t (branchTo s off) [])
  ∧ (∀ (s : State) (p : Nat) (off : Int), ∃ t, exec (.brany p off) s = .next t ∧
    if (lanesOf s.cur.exec).any fun l => (s.cur.pred p).getLsbD l then Jumps s t (branchTo s off) [] else Leaves s t 4 [])
  ∧ (∀ (s : State) (l : Nat) (off : Int), Passes s ⟨[], [], [.s l]⟩ [0] (.ok ()) →
    ∃ t, exec (.call l off) s = .next t ∧ Jumps s t (branchTo s off) [.sregs]
      ∧ ScalarHolds s.cur t.cur (.s l) (s.cur.pc + 4))
  ∧ (∀ (s : State) (d a : Opnd), Passes s ⟨[a], [], [d]⟩ [0] (.ok ()) →
    if (s.cur.src64 a).toNat % 4 = 0 then
      ∃ t, exec (.callr d a) s = .next t ∧ Jumps s t (s.cur.src64 a) [.sregs] ∧ ScalarHolds s.cur t.cur d (s.cur.pc + 4)
    else exec (.callr d a) s = .next (stopped s (.trap { code := 0x07 })))
  ∧ (∀ (s : State) (a : Opnd), Passes s ⟨[a], [], []⟩ [0] (.ok ()) →
    if (s.cur.src64 a).toNat % 4 = 0 then ∃ t, exec (.ret a) s = .next t ∧ Jumps s t (s.cur.src64 a) []
    else exec (.ret a) s = .next (stopped s (.trap { code := 0x07 })))
  ∧ ∀ (s : State) (a b : Opnd), Passes s ⟨[a], [b], []⟩ [0] (.ok ()) →
    if (s.cur.src64 a).toNat % 4 = 0 then
      ∃ t, exec (.jmpr a b) s = .next t ∧ Jumps s t (s.cur.src64 a + 4 * s.cur.src64 b) []
    else exec (.jmpr a b) s = .next (stopped s (.trap { code := 0x07 }))

namespace Sys2Proof.Machine

/-- The state in which an entry can be pushed: this one where the stack has room on chip, else the one in which the lowest
entry stands in the course's spill region (R178). -/
def RoomOnChip (s w : State) : Prop :=
  (s.cur.stack.length < 32 ∧ w = s)
    ∨ (32 ≤ s.cur.stack.length ∧ s.selfWrite s.curWg s.curCrs
        (s.spillBase s.curWg s.curCrs + (s.cur.depth - s.cur.stack.length) * 16)
        (bytesOf 16 (entryNat (s.cur.stack.getLast?.getD ⟨.diverge, 0, false, 0, 0⟩)))
        (s.cur.stripBad (entryUnit s.cur.depth)) = .ok w)

/-- The new entry's unit of the reserved strip carries the poison of EXEC, from which the entry comes (R90, log entry 86). -/
def StripPushed (c k : Course) : Prop :=
  ∀ u, k.stripBad u = if u = entryUnit c.depth then c.stripBad controlUnit else c.stripBad u

/-- The entries on chip once one more is to be pushed. -/
def belowTop (c : Course) : List StackEntry := if c.stack.length < 32 then c.stack else c.stack.dropLast

/-- The state in which the top entry has been popped, with the entries then on chip: the next lower one comes back where it
stands in the spill region (R178). -/
def Popped (s w : State) (stack : List StackEntry) : Prop :=
  (s.cur.depth ≤ s.cur.stack.length ∧ w = s ∧ stack = s.cur.stack.tail)
    ∨ (s.cur.stack.length < s.cur.depth ∧ ∃ n, s.selfRead s.curWg s.curCrs
        (s.spillBase s.curWg s.curCrs + (s.cur.depth - s.cur.stack.length - 1) * 16) 16 = .ok (w, n)
        ∧ stack = s.cur.stack.tail ++ [entryOf n])

end Sys2Proof.Machine

/-- R175 to R179, R270, R271: a divergent branch pushes one entry and runs the taken path first; the join runs the deferred
path, then restores EXEC and pops. -/
def Obligations.DivergencePushesAndJoinPops : Prop :=
  (∀ (s w : State) (p : Nat) (off : Int), s.cur.depth < 255 → RoomOnChip s w →
    let T := s.cur.exec &&& s.cur.pred p
    let N := s.cur.exec &&& ~~~T
    ∃ t, exec (.brd p off) s = .next t ∧ t = w.setCur t.cur ∧ CourseKeeps s.cur t.cur [.pc, .waiting, .exec, .stack, .strip]
      ∧ StripPushed s.cur t.cur ∧ t.cur.depth = s.cur.depth + 1 ∧
      if T = 0 ∨ N = 0 then
        t.cur.stack = ⟨.diverge, 0, false, s.cur.exec, 0⟩ :: belowTop s.cur ∧ t.cur.exec = s.cur.exec
          ∧ t.cur.pc = if T = 0 then s.cur.pc + 4 else branchTo s off
      else
        t.cur.stack = ⟨.diverge, entryPc (s.cur.pc + 4), false, s.cur.exec, N⟩ :: belowTop s.cur ∧ t.cur.exec = T
          ∧ t.cur.pc = branchTo s off)
  ∧ (∀ (s : State) (p : Nat) (off : Int), 255 ≤ s.cur.depth →
    exec (.brd p off) s = .next (stopped s (.trap { code := 0x03 })))
  ∧ (∀ s : State, s.cur.stack = [] → exec .join s = .next (stopped s (.trap { code := 0x02 })))
  ∧ (∀ (s : State) (e : StackEntry) (r : List StackEntry), s.cur.stack = e :: r → e.kind = .diverge → e.phase = false →
    e.pend ≠ 0 → ∃ t, exec .join s = .next t ∧ Jumps s t e.pc [.exec, .stack] ∧ t.cur.exec = e.pend
      ∧ t.cur.stack = { e with phase := true } :: r ∧ t.cur.depth = s.cur.depth)
  ∧ ∀ (s w : State) (e : StackEntry) (r l : List StackEntry), s.cur.stack = e :: r → e.kind = .diverge →
    (e.phase = true ∨ e.pend = 0) → s.inRep = false → Popped s w l →
    ∃ t, exec .join s = .next t ∧ t = w.setCur t.cur ∧ CourseKeeps s.cur t.cur [.pc, .waiting, .exec, .stack, .strip]
      ∧ StripCleared s.cur t.cur [entryUnit (s.cur.depth - 1)] ∧ t.cur.exec = e.mask ∧ t.cur.stack = l ∧ t.cur.depth = s.cur.depth - 1 ∧ t.cur.pc = s.cur.pc + 4

namespace Sys2Proof.Machine

/-- The number that bytes `at1` to `at1 + n - 1` of a record hold. -/
def recField (r : List Byte) (at1 n : Nat) : Nat := leBytes ((r.drop at1).take n)

/-- The write of the trap record of the course that issues to slot TLEV of the save area; what it reads of the reserved strip is
poisoned with it. -/
def recordWrite (s : State) (i : TrapInfo) : Did State :=
  s.selfWrite s.curWg s.curCrs (s.courseBlock s.curWg s.curCrs + 0x100 + 128 * s.cur.tlev) (s.trapRecord s.cur i)
    (s.cur.stripBad controlUnit || s.cur.stripBad statusUnit)

/-- The trap record has been written and TLEV counted up beside it, both at home (R397); in `w` MODE and REPST are zero. -/
def TrapRecorded (s w : State) (i : TrapInfo) : Prop :=
  ∃ s1 s2, recordWrite s i = .ok s1
    ∧ s1.selfWrite s.curWg s.curCrs (s.courseBlock s.curWg s.curCrs) (bytesOf 8 (s.cur.tlev + 1)) = .ok s2
    ∧ w = s2.setCur { s2.cur with tlev := s.cur.tlev + 1, mode := 0, repst := 0 }

/-- And an entry can be pushed; `w` is the state then. -/
def TrapWrites (s w : State) (i : TrapInfo) : Prop := ∃ s2, TrapRecorded s s2 i ∧ RoomOnChip s2 w

/-- A trap of the course that issues has been taken (R177, R397): beside the writes, TLEV counts one more, a trap entry holds
the resume address and EXEC, MODE and REPST are zero, and control is at the handler. Faults of walks that were held for the course are
gone, and a course that waited is ready from now on. -/
def TrapTaken (s w t : State) (i : TrapInfo) : Prop :=
  t = (w.dropFaults (s.curWg, 2 * s.curCrs)).setCur t.cur
    ∧ CourseKeeps s.cur { t.cur with entered := s.cur.entered } [.pc, .repst, .mode, .stack, .strip, .tlev, .waiting]
    ∧ StripPushed s.cur t.cur ∧ t.cur.tlev = s.cur.tlev + 1 ∧ t.cur.mode = 0 ∧ t.cur.repst = 0 ∧ t.cur.pc = s.curL.handler
    ∧ t.cur.stack = ⟨.trap, entryPc (i.resume.getD s.cur.pc), false, s.cur.exec, 0⟩ :: belowTop s.cur
    ∧ t.cur.depth = s.cur.depth + 1

end Sys2Proof.Machine

/-- R177, R179, R274, R397, R398: TRAP and BRK enter the handler with the resume address behind them; BRK halts instead where
breakpoint halts are armed. Where a trap cannot be taken, the grid aborts: with cause 1 when no handler is named, at the
fifth trap, for TRAP 255 within a handler, and where the record cannot be written; with cause 4 at depth 256, after the record. Said
of a course that is inside no qualified local access, as every course is that issues another instruction. -/
def Obligations.SoftwareTrapsEnterHandler : Prop :=
  (
    (∀ (s w : State) (code : Nat), (code ≠ 255 ∨ s.cur.tlev = 0) → s.cur.arb = none → s.curL.handler ≠ 0 → s.cur.tlev < 4 → s.cur.depth < 256 →
      let i : TrapInfo := { code := 0x0E, info := code, resume := some (s.cur.pc + 4) }
      TrapWrites s w i → ∃ t, exec (.trap code) s = .next t ∧ TrapTaken s w t i)
    ∧ (∀ (s w : State) (tag : Nat), s.cur.armed = false → s.cur.arb = none → s.curL.handler ≠ 0 → s.cur.tlev < 4 → s.cur.depth < 256 →
      let i : TrapInfo := { code := 0x0F, info := tag, resume := some (s.cur.pc + 4) }
      TrapWrites s w i → ∃ t, exec (.brk tag) s = .next t ∧ TrapTaken s w t i)
    ∧ ∀ (s : State) (tag : Nat), s.cur.armed = true →
      ∃ t, exec (.brk tag) s = .next t ∧ Leaves s t 4 [.halted] ∧ t.cur.halted = true)
  ∧ (
    ∀ (s : State) (code : Nat),
      (s.curL.handler = 0 ∨ 4 ≤ s.cur.tlev ∨ (code = 255 ∧ s.cur.tlev ≠ 0) →
        exec (.trap code) s = .next (s.abortOf s.curWg 1))
      ∧ (s.curL.handler ≠ 0 → s.cur.tlev < 4 → ¬(code = 255 ∧ s.cur.tlev ≠ 0) →
        let i : TrapInfo := { code := 0x0E, info := code, resume := some (s.cur.pc + 4) }
        (recordWrite s i = .bad → exec (.trap code) s = .next (s.abortOf s.curWg 1))
        ∧ ∀ w, 256 ≤ s.cur.depth → TrapRecorded s w i → exec (.trap code) s = .next (w.abortOf s.curWg 4))
      ∧ ∀ (g cause w : Nat), (s.grid g).abort = none → (Tab.find s.grids g).isSome = true → cause = 1 ∨ cause = 4 →
        ((s.abortGrid g cause w).grid g).abort = some (cause, w))

/-- R399: what the 128 bytes of a trap record hold. A trap that supplies none of them has no lane, array code, information,
address or peer, names the instruction at the program counter, and resumes there. -/
def Obligations.TrapRecordLayout : Prop :=
  ∀ (s : State) (c : Course) (i : TrapInfo), i.code < 256 → i.lane < 256 → i.arr < 256 → i.info < 2 ^ 32 → i.fva < 2 ^ 64 →
    i.peer < 2 ^ 12 →
    let r := s.trapRecord c i
    r.length = 128 ∧ recField r 0 1 = i.code
      ∧ recField r 1 1 = (if i.code < 0x09 then 0 else if i.code < 0x0C then 1 else if i.code < 0x0E then 0 else 2)
      ∧ recField r 2 1 = i.lane ∧ recField r 3 1 = i.arr ∧ recField r 4 4 = i.info
      ∧ recField r 8 8 = (i.at1.getD c.pc).toNat ∧ recField r 16 8 = (i.resume.getD c.pc).toNat ∧ recField r 24 8 = i.fva
      ∧ recField r 32 2 = i.peer ∧ recField r 34 2 = 0 ∧ recField r 36 4 = c.mode.toNat ∧ recField r 40 4 = c.repst.toNat
      ∧ recField r 44 4 = c.exec.toNat ∧ recField r 48 8 = s.dtime / 2 ^ 16 % 2 ^ 64 ∧ recField r 56 2 = s.dtime % 2 ^ 16
      ∧ recField r 58 70 = 0
      ∧ let x : TrapInfo := { code := i.code }
        x.lane = 63 ∧ x.arr = 0 ∧ x.info = 0 ∧ x.fva = 0 ∧ x.peer = 0 ∧ x.resume = none ∧ x.at1 = none

/-- R271, R398: the join that pops a trap entry restores MODE and REPST from the slot, EXEC and the program counter from the
entry, and counts TLEV down. A reserved MODE bit or a DONE beyond COUNT aborts the grid with cause 1; REPST's reserved bits read zero.
Said where the join does not first wait for an atomic of a task that it is to restart. -/
def Obligations.JoinReturnsFromTrap : Prop :=
  ∀ (s s1 : State) (e : StackEntry) (r : List StackEntry) (v : Nat), s.cur.stack = e :: r → e.kind = .trap →
    (s.curW.holder = some (s.curCrs, s.cur.tlev) → s.calm s.curWg = true) →
    s.selfRead s.curWg s.curCrs (s.courseBlock s.curWg s.curCrs + 0x100 + 128 * (s.cur.tlev - 1) + 36) 8 = .ok (s1, v) →
    (2 ^ 17 ≤ v % 2 ^ 32 ∨ v / 2 ^ 40 % 256 < v / 2 ^ 32 % 256 → exec .join s = .next (s1.abortOf s.curWg 1))
    ∧ ∀ (s2 w : State) (l : List StackEntry), v % 2 ^ 32 < 2 ^ 17 → v / 2 ^ 32 % 256 ≤ v / 2 ^ 40 % 256 →
      s1.selfWrite s.curWg s.curCrs (s.courseBlock s.curWg s.curCrs) (bytesOf 8 (s.cur.tlev - 1)) = .ok s2 → Popped s2 w l →
      (∀ m ∈ s.curW.cmds, m.again = none) → s.curW.holder ≠ some (s.curCrs, s.cur.tlev) →
      ∃ t, exec .join s = .next t ∧ t = w.setCur t.cur
        ∧ CourseKeeps s.cur t.cur [.pc, .repst, .mode, .stack, .strip, .tlev, .exec]
        ∧ StripCleared s.cur t.cur [entryUnit (s.cur.depth - 1)]
        ∧ t.cur.mode = BitVec.ofNat 32 v ∧ t.cur.repst = BitVec.ofNat 32 (v / 2 ^ 32 % 2 ^ 17) ∧ t.cur.exec = e.mask
        ∧ t.cur.pc = e.pc ∧ t.cur.tlev = s.cur.tlev - 1 ∧ t.cur.stack = l ∧ t.cur.depth = s.cur.depth - 1

namespace Sys2Proof.Machine

/-- A register of the course that issues is awaited: it is empty, and no producer of it has failed (R113, R273). -/
def Awaited (s : State) (scal : Bool) (n : Nat) : Prop :=
  (if scal then n < s.curL.ns ∧ s.cur.sIsFull n = false else n < s.curL.nv ∧ s.cur.vIsFull n = false)
    ∧ ∀ f ∈ s.cur.failed, f.scal = scal → n ∉ f.marks

/-- A CLOSEB into s0 awaits its summaries: no register shows it (R314). -/
def ClosebOut (s : State) : Prop :=
  ∃ f ∈ s.cur.flights, f.marks = [] ∧ ∃ b k ps fl ws t0, f.kind = .closeb b k ps fl ws t0

/-- The course that issues may end: no copy's fault is to be reported, and nothing is awaited or failed (R273, R314, R354). -/
def MayEnd (s : State) : Prop :=
  s.reportPoint = .ok () ∧ (∀ scal n, ¬Awaited s scal n) ∧ ¬ClosebOut s ∧ s.cur.failed = []

/-- The course that issues has ended (R273): its stack, index registers and MODE are gone, its registers are as they were; memory, `r`
being the state after the translation's page counts (R40), and every other course are as before; a barrier whose phase its end
completes begins the next (R317). -/
def CourseEnded (s r t : State) : Prop :=
  t.cur.exited = true ∧ t.cur.stack = [] ∧ t.cur.depth = 0 ∧ t.cur.mode = 0
    ∧ (∀ x, t.cur.xreg x = ⟨0, Vector.replicate 32 0⟩) ∧ CourseKeeps s.cur t.cur [.ended, .stack, .mode, .index, .waiting]
    ∧ SameMemory r t ∧ (∀ u c, (u, c) ≠ (s.curWg, s.curCrs) → t.crs u c = s.crs u c) ∧ (∀ u, (t.wg u).cmds = (s.wg u).cmds)
    ∧ t.curG.last = s.dtime ∧ ∀ k < s.curL.nbar, Tab.get Bar.fresh t.curW.bars k =
        (let b := Tab.get Bar.fresh s.curW.bars k
         if (∀ c < s.curL.ncrs, b.arr.getLsbD c = true ∨ (t.curW.crs c).exited = true) ∧ b.rcv = b.exp then ⟨b.ph + 1, 0, 0, 0⟩ else b)

/-- EXIT and TEND wait, or raise a failure, where a course may not end (R273, R323): while a register is awaited, while a CLOSEB into s0
is, and for the oldest failure that is left then. -/
def EndWaits (i : Instr) (s : State) : Prop :=
  s.reportPoint = .ok () →
    ((∃ scal n, Awaited s scal n) → ∃ v r, exec i s = .next (stopped s (.wait (.regs v r)))
      ∧ (∀ n, n ∈ v ↔ Awaited s false n) ∧ ∀ n, n ∈ r ↔ Awaited s true n)
    ∧ ((∀ scal n, ¬Awaited s scal n) → ClosebOut s → exec i s = .next (stopped s (.wait .performed)))
    ∧ ∀ (f : Failure) (l : List Failure), (∀ scal n, ¬Awaited s scal n) → ¬ClosebOut s → s.cur.failed = f :: l →
        exec i s = .next (stopped s (.failure f))

end Sys2Proof.Machine

/-- R273: EXIT ends the course: its stack, index registers and MODE are gone, its registers and every other course are as
they were, memory is unchanged, and a barrier that waited for it alone goes on. First it waits until every register is full or its
producer has failed, then it raises a pending failure. -/
def Obligations.ExitEndsCourse : Prop :=
  (∀ s : State, MayEnd s → ∃ t, exec .exit s = .next t ∧ CourseEnded s s t)
  ∧ ∀ s : State, EndWaits .exit s

/-- R254, R255: a REP whose count is not zero records its progress and issues its repetitions in place; one whose count is
zero, or whose repetitions are all done, passes itself and the prefixed instruction with its literal. A count above 255, and
an instruction that REP may not prefix or stride, and a word that is no instruction, raise the illegal trap at the REP. Repetition i
performs the next instruction with each strided field moved by i strides within its class; a register beyond its class's limit
raises the register-range trap. The second part is said of IADD on vector and scalar registers. -/
def Obligations.RepStartsAndEnds : Prop :=
  (
    ∀ (s r : State) (n : RepCount) (sd sa sb : Int) (w : W32), s.inRep = false →
      fetchWord s (s.cur.pc.toNat + 4) = .ok (r, w) →
      (∀ e, parseCore [w, 0, 0] = .error e → exec (.rep n sd sa sb) s = .next (stopped r (.trap { code := 0x01 })))
      ∧ ∀ i, parseCore [w, 0, 0] = .ok i →
        (repAllows i n sd sa sb = false → exec (.rep n sd sa sb) s = .next (stopped r (.trap { code := 0x01 })))
        ∧ (repAllows i n sd sa sb = true → s.cur.repAct = false → ∀ q, n = .reg q → Passes s ⟨[], [.s q], []⟩ [0] (.ok ()) →
          255 < (s.cur.sreg q).toNat → exec (.rep n sd sa sb) s = .next (stopped r (.trap { code := 0x01 })))
        ∧ (repAllows i n sd sa sb = true →
          ∀ k, (if s.cur.repAct then s.cur.repCount ≤ s.cur.repDone ∧ k = 0 else repCountOf s n = .ok k) →
          ∃ t, exec (.rep n sd sa sb) s = .next t ∧ t = r.setCur t.cur ∧ CourseKeeps s.cur t.cur [.pc, .repst, .waiting] ∧
            if k = 0 then t.cur.pc = s.cur.pc + BitVec.ofNat 64 (4 + i.size) ∧ t.cur.repst = 0
            else t.cur.pc = s.cur.pc ∧ t.cur.repst = BitVec.ofNat 32 (2 ^ 16 + k * 256)))
  ∧ (
    ∀ (s r t : State) (n : RepCount) (sd sa sb : Int) (d a b : Nat) (h : Bool),
      fetchInstr s s.cur.pc.toNat = .ok (r, .rep n sd sa sb) → s.cur.repAct = true → s.cur.repDone < s.cur.repCount →
      fetchInstr r (s.cur.pc.toNat + 4) = .ok (t, .iadd (.v d) (.v a) (.s b) h) →
      let at1 := fun (f : Nat) (st : Int) => (f : Int) + s.cur.repDone * st
      let inside := fun (z : Int) (lim : Nat) => 0 ≤ z ∧ z < lim
      if n = .reg b ∧ sb ≠ 0 then nextInstr s = .error (.after t (.trap { code := 0x01 }))
      else
        (inside (at1 d sd) (min s.curL.nv 192) → inside (at1 a sa) (min s.curL.nv 192) → inside (at1 b sb) (min s.curL.ns 48) →
          nextInstr s = .ok (t, .iadd (.v (at1 d sd).toNat) (.v (at1 a sa).toNat) (.s (at1 b sb).toNat) h, true))
        ∧ (¬inside (at1 d sd) s.curL.nv → nextInstr s = .error (.after t (.trap { code := 0x04 }))))

-- ## Loads, stores, atomics

namespace Sys2Proof.Machine

/-- A producer without what it has gathered so far. -/
def Flight.bare (f : Flight) : Flight :=
  { f with
    got := []
    fails := []
    kind := match f.kind with
      | .closeb b ps _ _ _ _ => .closeb b ps [] [] 0 none
      | k => k }

/-- A long-latency producer has issued (R303): it is in flight with `f`, its destination registers are empty, the index
registers have stepped, the program counter has moved past `n` bytes, and neither memory, `r` being the state after the
translation's page counts (R40), nor a scratchpad has changed. Of the rest of the course only a batch may change, and only
where a lane's request goes to another module. -/
def ProducerIssued (s r t : State) (n : Nat) (dst idx : List Opnd) (f : Flight) : Prop :=
  let d := joinRegs (dst.map (s.cur.writeRegs s.curL))
  t.cur.flights.map Flight.bare = (s.cur.flights ++ [f]).map Flight.bare
    ∧ (∀ n, t.cur.vIsFull n = (s.cur.vIsFull n && !d.1.contains n))
    ∧ (∀ n, t.cur.sIsFull n = (decide (n = 0) || (s.cur.sIsFull n && !d.2.contains n)))
    ∧ IndexesStep s.cur t.cur idx ∧ PastInstr s t n
    ∧ CourseKeeps s.cur t.cur ([.pc, .repst, .waiting, .fullBits, .flights, .index]
        ++ if f.lanes.any fun a => a.tgt.far then [.batches] else [])
    ∧ (∀ a, SameByte r t a) ∧ ∀ u a, (t.wg u).byte a = (s.wg u).byte a

/-- The lanes of an access at their translated places, each with its address, width and register (R238, R302). -/
def lanesAt (s : State) (data voff : Opnd) (sb : Nat) (lit : Option W32) (w : Nat) (xs : List (Nat × Xlat)) : List LaneAcc :=
  xs.map fun x => ⟨x.1, x.2.target, s.cur.addr voff sb lit w x.1, w, s.cur.laneReg data x.1, 0, 0⟩

/-- The addresses of an access's lanes (R238): the scalar base, the lane's offset times the width, and the literal. -/
def laneAddrs (s : State) (ops : List Opnd) (voff : Opnd) (sb : Nat) (lit : Option W32) (w : Nat) : List (Nat × Nat) :=
  (s.cur.pathLanes ops).map fun l =>
    (l, (((s.cur.sreg sb).toNat + (s.cur.src voff l).toInt * w + (match lit with | some i => i.toInt | none => 0))
      % 2 ^ 64).toNat)

/-- MODE.T is a type of memory, and a 16-byte access names a vector register that is a multiple of 4 (R301, R238). -/
def memMode (s : State) (data : Opnd) : R Unit := do
  s.cur.needTy memTypes
  need (quadOk data (widthOf s.cur.ty)) illegal

/-- The destination registers of a load: four for a 16-byte access. -/
def loadRegs (s : State) (data : Opnd) : List Opnd :=
  if widthOf s.cur.ty = 16 then (List.range 4).map data.plus else [data]

/-- Every address is a multiple of the width. -/
def AllAligned (w : Nat) (addrs : List (Nat × Nat)) : Prop := ∀ x ∈ addrs, x.2 % w = 0

end Sys2Proof.Machine

/-- R236, R238, R302, R303, R306: a load whose checks pass, whose lanes are aligned, translated and free of poison, issues as
a producer with one access for each lane; where no lane is active it only passes. A misaligned lane takes the alignment trap
and names the lowest such lane. -/
def Obligations.LoadsIssueAsProducers : Prop :=
  (∀ (s r : State) (p : Option Acc) (data voff : Opnd) (sb : Nat) (lit : Option W32) (xs : List (Nat × Xlat)),
    let w := widthOf s.cur.ty
    let addrs := laneAddrs s [data, voff] voff sb lit w
    let ls := lanesAt s data voff sb lit w xs
    let n := (Instr.ld p data voff sb lit).size
    Passes s ⟨[voff], [.s sb], loadRegs s data⟩ (s.cur.pathLanes [data, voff]) (memMode s data) → AllAligned w addrs →
    translate s 0 addrs = .ok (r, xs) → unpoisoned r (!isAcq p) ls = .ok () → remoteReady r false ls = .ok () →
    ∃ t, exec (.ld p data voff sb lit) s = .next t ∧
      if xs = [] then t = r.setCur t.cur ∧ CourseKeeps s.cur t.cur [.pc, .repst, .waiting, .index] ∧ PastInstr s t n
      else ∃ f : Flight, ProducerIssued s r t n (loadRegs s data) [data, voff] f ∧ f.kind = .load s.cur.ty ∧ f.lanes = ls
        ∧ f.acq = isAcq p ∧ f.pc = s.cur.pc)
  ∧ (∀ (s : State) (p : Option Acc) (data voff : Opnd) (sb : Nat) (lit : Option W32) (l a : Nat),
    let w := widthOf s.cur.ty
    let addrs := laneAddrs s [data, voff] voff sb lit w
    Passes s ⟨[voff], [.s sb], loadRegs s data⟩ (s.cur.pathLanes [data, voff]) (memMode s data) →
    (addrs.find? fun x => decide (x.2 % w ≠ 0)) = some (l, a) →
    exec (.ld p data voff sb lit) s = .next (stopped s (.trap { code := 0x07, lane := l })))
  ∧ (∀ (s : State) (p : Option Acc) (data voff : Opnd) (sb : Nat) (lit : Option W32) (ls : List LaneAcc),
    let n := (Instr.ldl p data voff sb lit .any).size
    s.cur.arb = none →
    localLanes s [] (loadRegs s data) data voff sb lit (widthOf s.cur.ty) (memMode s data) = .ok ls → unpoisoned s false ls = .ok () →
    ∃ t, exec (.ldl p data voff sb lit .any) s = .next t ∧
      if ls = [] then Leaves s t n [.index]
      else ∃ f : Flight, ProducerIssued s s t n (loadRegs s data) [data, voff] f ∧ f.kind = .load s.cur.ty ∧ f.lanes = ls)
  ∧ ∀ (s r : State) (data voff : Opnd) (sb : Nat) (lit : Option W32) (ls : List LaneAcc),
    let n := (Instr.ldcol data voff sb lit).size
    columnLanes s 4 [] [data] data voff sb lit = .ok (r, ls) → unpoisoned r false ls = .ok () → ls ≠ [] →
    ∃ t, exec (.ldcol data voff sb lit) s = .next t ∧ ∃ f : Flight, ProducerIssued s r t n [data] [data] f ∧ f.lanes = ls
      ∧ ∀ a ∈ ls, a.va = s.cur.addr voff sb lit (widthOf s.cur.ty) 0 + 32 * a.lane

namespace Sys2Proof.Machine

/-- What a pending write is made of: its place, width, bytes, and whether it is a column or a reduction. -/
def PWrite.what (w : PWrite) : Nat × Nat × Target × Nat × Nat × Bool × Option (Nat × Nat × Bool) :=
  (w.uid, w.crs, w.tgt, w.width, w.data, w.column, w.red)

/-- The pending write that a lane of the course that issues makes. -/
def laneWrite (s : State) (column : Bool) (red : Option (Nat × Nat × Bool)) (a : LaneAcc) :
    Nat × Nat × Target × Nat × Nat × Bool × Option (Nat × Nat × Bool) :=
  (s.curWg, s.curCrs, a.tgt, a.width, a.v, column, red)

/-- A store has issued: beside the writes that wait to be performed, in the lanes' order, nothing but the course's program
counter and index registers has changed; memory has not. -/
def StoresPend (s r t : State) (n : Nat) (idx : List Opnd) (ws : List (Nat × Nat × Target × Nat × Nat × Bool × Option (Nat × Nat × Bool))) :
    Prop :=
  t.pend.map PWrite.what = r.pend.map PWrite.what ++ ws ∧ (∀ a, SameByte r t a) ∧ (∀ u a, (t.wg u).byte a = (s.wg u).byte a)
    ∧ CourseKeeps s.cur t.cur [.pc, .repst, .waiting, .index] ∧ IndexesStep s.cur t.cur idx ∧ PastInstr s t n

end Sys2Proof.Machine

namespace Sys2Proof.Machine

/-- The lanes of a store that are at other modules, and the others. -/
def farLanes (ls : List LaneAcc) : List LaneAcc := ls.filter fun a => a.tgt.far
/-- The lanes at this module. -/
def nearLanes (ls : List LaneAcc) : List LaneAcc := ls.filter fun a => !a.tgt.far
/-- The peer of a lane, where it is at another module. -/
def LaneAcc.peerOf (a : LaneAcc) : Option Nat := match a.tgt with | .remote p _ => some p | _ => none

/-- The peers that the lanes bring to a batch's set. -/
def newPeers (c : Course) (b : Nat) (ls : List LaneAcc) : List Nat :=
  ((ls.filterMap LaneAcc.peerOf).filter fun p => !(c.batch b).peers.contains p).eraseDups

/-- The batch's set has room for them: it holds at most 64 (R116). -/
def BatchRoom (c : Course) (b : Nat) (ls : List LaneAcc) : Prop :=
  newPeers c b ls = [] ∨ (c.batch b).peers.length + (newPeers c b ls).length ≤ 64

/-- The way to a peer is open or held: no request of that address fails before a link takes it (R99). -/
def WayOpen (s : State) (peer pa : Nat) : Prop :=
  (∀ st, s.routePick peer pa ≠ .fail st) ∧ ∀ j st, s.routePick peer pa = .go j → s.linkAnswer j peer ≠ .fail st

/-- Every lane of a store has a home where it can go: stack memory of this module, or a peer whose way is open. -/
def StoreTargets (s : State) (ls : List LaneAcc) : Prop :=
  ∀ a ∈ ls, match a.tgt with | .stack _ => True | .remote p pa => WayOpen s p pa | _ => False

/-- What a remote store is made of: its course, peer, address, width, data, kind, rounding and FTZ, and the number of its batch and
its own number there. -/
structure StoreReq where
  uid   : Nat
  crs   : Nat
  dest  : Nat
  pa    : Nat
  width : Nat
  data  : Nat
  kind  : ReqKind
  rm    : Nat
  ftz   : Bool
  batch : Nat
  seqno : Nat
deriving DecidableEq, Repr

/-- That of a request. -/
def Req.store (q : Req) : StoreReq :=
  ⟨q.uid, q.crs, q.req.dest, q.req.pa, q.req.width, q.req.data, q.req.kind, q.req.rm, q.req.ftz, q.req.batch, q.req.seqno⟩

/-- The requests of a store's lanes, ascending: each takes the batch's counter as its number, and the counter then counts one more,
modulo 2^32 (R115). -/
def laneRequests (s : State) (b : Nat) (kind : ReqKind) (rm : Nat) (ftz : Bool) (ls : List LaneAcc) : List StoreReq :=
  (farLanes ls).zipIdx.map fun x =>
    let at1 := match x.1.tgt with | .remote p pa => (p, pa) | _ => (0, 0)
    ⟨s.curWg, s.curCrs, at1.1, at1.2, x.1.width, x.1.v, kind, rm, ftz, s.cur.batchNo b, ((s.cur.batch b).count + BitVec.ofNat 32 x.2).toNat⟩

/-- A store has issued whose lanes `ls` are at this module and at others (R107, R115): the requests wait for their links, the batch has
counted them and its set has gained their peers; the other lanes' writes, `near` of them, are pending; every other batch, what is in
flight, and memory are as before. -/
def StoresGo (s r t : State) (n : Nat) (idx : List Opnd) (b : Nat) (ls : List LaneAcc) (far : List StoreReq)
    (near : List (Nat × Nat × Target × Nat × Nat × Bool × Option (Nat × Nat × Bool))) : Prop :=
  t.reqs.map Req.store = r.reqs.map Req.store ++ far ∧ (∃ ws, t.pend.map PWrite.what = r.pend.map PWrite.what ++ ws ∧ ws.Perm near)
    ∧ (∀ a, SameByte r t a) ∧ (∀ u a, (t.wg u).byte a = (s.wg u).byte a)
    ∧ CourseKeeps s.cur t.cur [.pc, .repst, .waiting, .index, .batches, .flights]
    ∧ t.cur.flights.map Flight.bare = s.cur.flights.map Flight.bare ∧ IndexesStep s.cur t.cur idx ∧ PastInstr s t n
    ∧ (t.cur.batch b).count = (s.cur.batch b).count + BitVec.ofNat 32 far.length
    ∧ (∀ p, p ∈ (t.cur.batch b).peers ↔ p ∈ (s.cur.batch b).peers ∨ some p ∈ ls.map LaneAcc.peerOf)
    ∧ (t.cur.batch b).errs = (s.cur.batch b).errs ∧ ∀ k, k % 4 ≠ b % 4 → t.cur.batch k = s.cur.batch k

/-- BATCHFULL (R116): the store traps before any lane performs, naming a lane that brings a new peer. -/
def BatchFullTrap (i : Instr) (s r : State) (b : Nat) (ls : List LaneAcc) : Prop :=
  ∃ a p, a ∈ ls ∧ a.peerOf = some p ∧ p ∈ newPeers s.cur b ls
    ∧ exec i s = .next (stopped r (.trap { code := 0x0B, arr := 7, lane := a.lane, fva := a.va, peer := p }))

end Sys2Proof.Machine

/-- R115, R116, R133, R146, R306, R309: a store to this module's memory, or to a scratchpad, issues as one pending write for each lane
with the low bytes of the lane's register, the lanes ascending, so that the highest of two lanes at one address remains; memory
does not change until a write is performed. The lanes at other modules go as requests that take their batch's numbers, ascending, and
their peers join its set; where it would pass 64, the instruction traps with BATCHFULL instead. Which lane that trap names is the
model's choice (log entry 63). -/
def Obligations.StoresPendInLaneOrder : Prop :=
  (∀ (s r : State) (p : Option Acc) (data voff : Opnd) (sb : Nat) (lit : Option W32) (b : Nat) (xs : List (Nat × Xlat)),
    let w := widthOf s.cur.ty
    let addrs := laneAddrs s [data, voff] voff sb lit w
    let ls := (lanesAt s data voff sb lit w xs).map fun a => { a with reg := 0, v := s.cur.storeValue data w a.lane }
    Passes s ⟨[voff], .s sb :: loadRegs s data, []⟩ (s.cur.pathLanes [data, voff]) (memMode s data) → AllAligned w addrs →
    translate s 1 addrs = .ok (r, xs) → (∀ x ∈ xs, x.2.res = .here) → s.buffers s.curWg = false →
    ∃ t, exec (.st p data voff sb lit b) s = .next t ∧
      StoresPend s r t (Instr.st p data voff sb lit b).size [data, voff] (ls.map (laneWrite s false none)))
  ∧ (∀ (s r : State) (p : Option Acc) (data voff : Opnd) (sb : Nat) (lit : Option W32) (b : Nat) (xs : List (Nat × Xlat)),
    let w := widthOf s.cur.ty
    let addrs := laneAddrs s [data, voff] voff sb lit w
    let ls := (lanesAt s data voff sb lit w xs).map fun a => { a with reg := 0, v := s.cur.storeValue data w a.lane }
    Passes s ⟨[voff], .s sb :: loadRegs s data, []⟩ (s.cur.pathLanes [data, voff]) (memMode s data) → AllAligned w addrs →
    translate s 1 addrs = .ok (r, xs) →
    (¬BatchRoom s.cur b ls → BatchFullTrap (.st p data voff sb lit b) s r b ls)
    ∧ (BatchRoom s.cur b ls → remoteReady r (isRel p) ls = .ok () → StoreTargets r ls → s.buffers s.curWg = false →
      ∃ t, exec (.st p data voff sb lit b) s = .next t ∧
        StoresGo s r t (Instr.st p data voff sb lit b).size [data, voff] b ls (laneRequests s b .write 0 false ls)
          ((nearLanes ls).map (laneWrite s false none))))
  ∧ (∀ (s : State) (p : Option Acc) (data voff : Opnd) (sb : Nat) (lit : Option W32) (ls : List LaneAcc), s.cur.arb = none →
    localLanes s (loadRegs s data) [] data voff sb lit (widthOf s.cur.ty) (memMode s data) = .ok ls →
    ∃ t, exec (.stl p data voff sb lit .any) s = .next t ∧
      StoresPend s s t (Instr.stl p data voff sb lit .any).size [data, voff]
        ((ls.map fun a => { a with v := s.cur.storeValue data (widthOf s.cur.ty) a.lane }).map (laneWrite s false none)))
  ∧ ∀ (s r : State) (data voff : Opnd) (sb : Nat) (lit : Option W32) (ls : List LaneAcc),
    columnLanes s 5 [data] [] data voff sb lit = .ok (r, ls) → s.buffers s.curWg = false →
    ∃ t, exec (.stcol data voff sb lit) s = .next t ∧
      StoresPend s r t (Instr.stcol data voff sb lit).size [data] (ls.map (laneWrite s true none))

/-- R144, R303, R307: as a load lands, each lane's register holds the memory's value under MODE.T's width and sign, lanes
without an access keep theirs, the registers are full, and memory is unchanged. Said of the loads of one vector register
from stack memory with no reduction pending and no line of it in the core's L1: it says nothing of 16-byte, scalar, scratchpad and
remote loads, nor of a hit in the L1. That all lanes take memory's value in the one step of the landing is the model's choice (log
entry 65; R143 lets them be read apart). -/
def Obligations.LoadsLandMemoryValues : Prop :=
  ∀ (s : State) (u c d ty : Nat) (f : Flight), u ≠ hostUid → (s.crs u c).flights.find? (fun x => decide (x.id = f.id)) = some f →
    f.kind = .load ty → ty < 32 → widthOf ty ≠ 16 → f.scal = false → f.marks = [d] → f.lanes ≠ [] →
    (f.lanes.map LaneAcc.lane).Nodup →
    (∀ a ∈ f.lanes, a.reg = d ∧ a.lane < 32 ∧ a.width = widthOf ty
      ∧ ∃ pa, a.tgt = .stack pa ∧ pa % widthOf ty = 0 ∧ s.l1Hit (s.wg u).core pa = none) →
    f.fails = [] → s.reds = [] → s.buffers u = false → (∀ a ∈ f.lanes, s.poisonAt a.tgt a.width = none) →
    s.mayPerform u c f.id f.orderedFrom (f.lanes.map fun a => (a.tgt, a.width)) = true →
    ∃ t, exec (.registerLand u c f.id) s = .next t ∧ (∀ a, SameByte s t a)
      ∧ (∀ a ∈ f.lanes, ∀ pa, a.tgt = .stack pa → (t.crs u c).lane d a.lane = extend32 ty (s.read pa (widthOf ty)))
      ∧ (∀ r l, l < 32 → (r ≠ d ∨ l ∉ f.lanes.map LaneAcc.lane) → (t.crs u c).lane r l = (s.crs u c).lane r l)
      ∧ (t.crs u c).vIsFull d = true ∧ (∀ x ∈ (t.crs u c).flights, x.id ≠ f.id)
      ∧ ∀ v k, (v, k) ≠ (u, c) → t.crs v k = s.crs v k

/-- R133, R146: performing a pending write puts its bytes at its place, little end first, and changes no other byte of
memory; the write is then no longer pending. Said of plain writes to stack memory where no reduction is pending, and of
writes to a scratchpad. -/
def Obligations.PerformedWritesChangeOnlyTheirBytes : Prop :=
  ∀ (s : State) (w : PWrite), (s.pend.find? fun x => decide (x.id = w.id)) = some w → w.red = none →
    s.mayPerform w.uid w.crs w.id w.relBar [(w.tgt, w.width)] = true →
    ∃ t, exec (.writePerformed w.id) s = .next t ∧ (∀ x ∈ t.pend, x.id ≠ w.id) ∧ (∀ u c, t.crs u c = s.crs u c) ∧
      match w.tgt with
      | .stack pa => s.reds = [] → (∀ u a, (t.wg u).byte a = (s.wg u).byte a) ∧
          ∀ a, t.byteAt a = if pa ≤ a ∧ a < pa + w.width then BitVec.ofNat 8 (w.data / 2 ^ (8 * (a - pa))) else s.byteAt a
      | .scratch v x => (∀ a, SameByte s t a) ∧ ∀ u a, (t.wg u).byte a =
          if u = v ∧ x ≤ a ∧ a < x + w.width then BitVec.ofNat 8 (w.data / 2 ^ (8 * (a - x))) else (s.wg u).byte a
      | _ => SameMemory s t

namespace Sys2Proof.Machine

/-- The lanes are all in one scratchpad and at its places `at1`. -/
def InScratch (u : Nat) (ls : List LaneAcc) : Prop := ∀ a ∈ ls, ∃ x, a.tgt = .scratch u x

/-- A qualified local access may reach the arbiters (R58, R61, R135, R406): its course is not inside one already and is at its turn in
its order, its workgroup is on a core and not aborted, no core that it touches is frozen, and nothing else waits there. -/
def AtArbiter (s : State) (u : Nat) (rel : Bool) (ls : List LaneAcc) : Prop :=
  s.cur.arb = none ∧ s.curW.status = .resident ∧ s.curG.abort = none ∧ s.waiting = []
    ∧ (s.core s.curW.core).frozen = false ∧ (s.core (s.wg u).core).frozen = false
    ∧ s.mayPerform s.curWg s.curCrs s.stamp (if rel then s.stamp else s.cur.relBar) (ls.map fun a => (a.tgt, a.width)) = true

/-- The granules are in the state that a qualified access asks for (R55 to R57). -/
def GranulesIn (s : State) (req : Option Bool) (ls : List LaneAcc) : Prop :=
  ∀ full, req = some full → ∀ a ∈ ls, s.granuleIs full a.granule = true

end Sys2Proof.Machine

/-- R55 to R58, R60, R308: the qualified local accesses, performed in one step of the scratchpad's arbiter. LDL.FULL and LDL.TAKE
need full granules and take the values at once, TAKE leaving the granules empty; STL.PUT needs empty granules; STL.FILL, PUT
and EMPTY write at once and leave the granules full, full and empty. An access whose granules are in the other state waits
and changes nothing, but that the destination of a load is empty from then on. Said of accesses to one scratchpad, at whose
arbiter nothing else waits. -/
def Obligations.QualifiedLocalAccessesMoveFullBits : Prop :=
  (∀ (s : State) (p : Option Acc) (data voff : Opnd) (sb u : Nat) (lit : Option W32) (q : LdQual) (ls : List LaneAcc), q ≠ .any →
    localLanes s [] (loadRegs s data) data voff sb lit (widthOf s.cur.ty) (memMode s data) = .ok ls →
    ls ≠ [] → InScratch u ls → AtArbiter s u false ls →
    (GranulesIn s (some true) ls → (∀ a ∈ ls, s.localPoison a = false) →
      ∃ t, exec (.ldl p data voff sb lit q) s = .next t ∧ (∃ f : Flight,
        ProducerIssued s s t (Instr.ldl p data voff sb lit q).size (loadRegs s data) [data, voff] f ∧ f.kind = .taken s.cur.ty
          ∧ f.lanes = ls)
        ∧ (∃ g ∈ t.cur.flights.getLast?, ∀ a ∈ ls, ∀ x, a.tgt = .scratch u x → Tab.get 0 g.got a.lane = (s.wg u).read x a.width)
        ∧ ∀ v g, (t.wg v).full g = if q = .take ∧ (v, g) ∈ ls.map LaneAcc.granule then false else (s.wg v).full g)
    ∧ (¬GranulesIn s (some true) ls →
      let d := joinRegs ((loadRegs s data).map (s.cur.writeRegs s.curL))
      ∃ t, exec (.ldl p data voff sb lit q) s = .next t ∧ SameMemory s t ∧ CourseKeeps s.cur t.cur [.waiting, .held, .fullBits]
        ∧ t.cur.sched = .waiting ∧ (∀ v g, (t.wg v).full g = (s.wg v).full g)
        ∧ (∀ n, t.cur.vIsFull n = (s.cur.vIsFull n && !d.1.contains n))
        ∧ ∀ n, t.cur.sIsFull n = (decide (n = 0) || (s.cur.sIsFull n && !d.2.contains n))))
  ∧ ∀ (s : State) (p : Option Acc) (data voff : Opnd) (sb u : Nat) (lit : Option W32) (q : StQual) (ls0 : List LaneAcc), q ≠ .any →
    localLanes s (loadRegs s data) [] data voff sb lit (widthOf s.cur.ty) (memMode s data) = .ok ls0 →
    let ls := ls0.map fun a => { a with v := s.cur.storeValue data (widthOf s.cur.ty) a.lane }
    let req := if q = .put then some false else none
    InScratch u ls → AtArbiter s u (isRel p) ls →
    (GranulesIn s req ls →
      ∃ t, exec (.stl p data voff sb lit q) s = .next t ∧ PastInstr s t (Instr.stl p data voff sb lit q).size
        ∧ CourseKeeps s.cur t.cur [.pc, .repst, .waiting, .index] ∧ IndexesStep s.cur t.cur [data, voff]
        ∧ (∀ a, SameByte s t a) ∧ t.pend = s.pend
        ∧ (∀ v g, (t.wg v).full g = if (v, g) ∈ ls.map LaneAcc.granule then q ≠ .empty else (s.wg v).full g)
        ∧ ∀ v a, (t.wg v).byte a =
            match (ls.filter fun x => match x.tgt with
              | .scratch y b => decide (y = v) && decide (b ≤ a) && decide (a < b + x.width)
              | _ => false).getLast? with
            | some x => (match x.tgt with | .scratch _ b => BitVec.ofNat 8 (x.v / 2 ^ (8 * (a - b))) | _ => 0)
            | none => (s.wg v).byte a)
    ∧ (¬GranulesIn s req ls →
      ∃ t, exec (.stl p data voff sb lit q) s = .next t ∧ SameMemory s t ∧ CourseKeeps s.cur t.cur [.waiting, .held]
        ∧ t.cur.sched = .waiting ∧ ∀ v g, (t.wg v).full g = (s.wg v).full g)

/-- R310 to R313: atomics issue as producers. ATOMR's and ATOML's lanes each bring their operand; ATOMD is one fetch-and-add
for all its active lanes, and within a deterministic grid no access: it takes offsets from the course's own range, or the
reservation trap where they would pass its end. A reduction store's lanes at this module become pending reductions, in an order that is
open (R86): the model draws it (log entry 5). Its lanes at other modules go as requests with their batch's numbers, ascending (R115), or
the instruction traps with BATCHFULL (R116), at a lane that the model chooses (log entry 63). Outside deterministic mode. -/
def Obligations.AtomicsIssueAsProducers : Prop :=
  (
    (∀ (s r : State) (p : Acc) (data voff : Opnd) (sb : Nat) (lit : Option W32) (ls : List LaneAcc),
      atomLanes s p.op [data] data voff sb lit (need (!s.curL.ver) illegal) = .ok (r, ls) → unpoisoned r false ls = .ok () →
      remoteReady r (isRel (some p)) ls = .ok () → ls ≠ [] →
      ∃ t, exec (.atomr p data voff sb lit) s = .next t ∧ ∃ f : Flight,
        ProducerIssued s r t (Instr.atomr p data voff sb lit).size [data] [data, voff] f ∧ f.kind = .rmw p.op s.cur.rm s.cur.ftz
          ∧ f.lanes = ls ∧ ∀ a ∈ ls, a.v = s.cur.storeValue data (rmwWidth p.op) a.lane)
    ∧ (∀ (s : State) (p : Acc) (data voff : Opnd) (sb u : Nat) (lit : Option W32) (full : Bool) (ls0 : List LaneAcc),
      localLanes s (atomSources p.op data) [data] data voff sb lit (rmwWidth p.op) (atomMode s.cur p.op data) = .ok ls0 →
      let ls := ls0.map (s.cur.bring p.op data)
      ls ≠ [] → InScratch u ls → (∀ a ∈ ls, s.localPoison a = false) → AtArbiter s u (isRel (some p)) ls →
      GranulesIn s (if full then some true else none) ls →
      ∃ t, exec (.atoml p data voff sb lit full) s = .next t ∧ PastInstr s t (Instr.atoml p data voff sb lit full).size
        ∧ CourseKeeps s.cur t.cur [.pc, .repst, .waiting, .fullBits, .flights, .index] ∧ (∀ y, SameByte s t y)
        ∧ (∀ v y, (v = u → ∀ a ∈ ls, ∀ x, a.tgt = .scratch u x → y < x ∨ x + a.width ≤ y) → (t.wg v).byte y = (s.wg v).byte y)
        ∧ ∃ f ∈ t.cur.flights.getLast?, f.kind = .taken 5 ∧ f.lanes = ls
          ∧ ∀ a x, ls = [a] → a.tgt = .scratch u x → Tab.get 0 f.got a.lane = (s.wg u).read x a.width
            ∧ ∀ y, x ≤ y → y < x + a.width → (t.wg u).byte y =
              BitVec.ofNat 8 (rmwNew p.op s.cur.rm s.cur.ftz ((s.wg u).read x a.width) a.v a.c / 2 ^ (8 * (y - x))))
    ∧ (∀ (s r : State) (data voff : Opnd) (sb : Nat) (lit : Option W32) (l : Nat) (x : Xlat) (rest : List (Nat × Xlat)),
      Passes s ⟨[voff], [.s sb, data], [data]⟩ (lanesOf s.cur.active) (.ok ()) →
      let a := s.cur.addr voff sb lit 4 0
      let ls := (lanesOf s.cur.active).map fun k => (⟨k, x.target, a, 4, s.cur.laneReg data k, (s.cur.src data k).toNat, 0⟩ : LaneAcc)
      a % 4 = 0 → translate s 2 (((lanesOf s.cur.active).take 1).map fun k => (k, a)) = .ok (r, (l, x) :: rest) →
      (s.curL.det = false → unpoisoned r false (ls.take 1) = .ok () → remoteReady r false (ls.take 1) = .ok () →
        ∃ t, exec (.atomd data voff sb lit) s = .next t ∧ ∃ f : Flight,
          ProducerIssued s r t (Instr.atomd data voff sb lit).size [data] [data] f ∧ f.kind = .reserve ∧ f.lanes = ls)
      ∧ (s.curL.det = true →
        let total := ls.foldl (fun n a => n + a.v) 0
        (s.curL.k / s.curL.ncrs < s.cur.detUsed + total →
          exec (.atomd data voff sb lit) s = .next (stopped r (.trap { code := 0x0C })))
        ∧ (s.cur.detUsed + total ≤ s.curL.k / s.curL.ncrs →
          ∃ t, exec (.atomd data voff sb lit) s = .next t ∧ t.cur.detUsed = s.cur.detUsed + total
            ∧ (∀ y, SameByte r t y) ∧ ∃ f ∈ t.cur.flights.getLast?, f.lanes = ls
              ∧ Tab.get 0 f.got l = (s.curW.w * s.curL.k + s.curCrs * (s.curL.k / s.curL.ncrs) + s.cur.detUsed) % 2 ^ 32))))
  ∧ (
    ∀ (s r : State) (p : Acc) (data voff : Opnd) (sb : Nat) (lit : Option W32) (b : Nat) (ls : List LaneAcc),
      atomLanes s p.op [] data voff sb lit (.ok ()) = .ok (r, ls) → s.buffers s.curWg = false → s.curL.det = false →
      ((∀ a ∈ ls, ∃ pa, a.tgt = .stack pa) →
        ∃ t ws, exec (.red p data voff sb lit b) s = .next t
          ∧ StoresPend s r t (Instr.red p data voff sb lit b).size [data, voff] ws
          ∧ ws.Perm (ls.map (laneWrite s false (some (p.op, s.cur.rm, s.cur.ftz)))))
      ∧ (¬BatchRoom s.cur b ls → BatchFullTrap (.red p data voff sb lit b) s r b ls)
      ∧ (BatchRoom s.cur b ls → remoteReady r (isRel (some p)) ls = .ok () → StoreTargets r ls →
        ∃ t, exec (.red p data voff sb lit b) s = .next t ∧
          StoresGo s r t (Instr.red p data voff sb lit b).size [data, voff] b ls (laneRequests s b (.red p.op) s.cur.rm s.cur.ftz ls)
            ((nearLanes ls).map (laneWrite s false (some (p.op, s.cur.rm, s.cur.ftz))))))

-- ## Register blocks, batches, synchronisation, mailboxes

namespace Sys2Proof.Machine

/-- Where a SPILL or FILL stands: block k of n (R322). -/
def blockK (s : State) : Nat := if s.cur.repAct then s.cur.repDone else 0

/-- After block k of n: REPST counts it, or the instruction is passed with REPST zero (R322). -/
def BlockDone (s t : State) (n k size : Nat) : Prop :=
  if k + 1 < n then t.cur.pc = s.cur.pc ∧ t.cur.repst = BitVec.ofNat 32 (2 ^ 16 + n * 256 + (k + 1))
  else t.cur.pc = s.cur.pc + BitVec.ofNat 64 size ∧ t.cur.repst = 0

end Sys2Proof.Machine

namespace Sys2Proof.Machine

/-- The blocks of a SPILL or FILL (R322): how many, the base address, the address of block k. -/
def blockCount (first last : Opnd) : Nat := blockNo last + 1 - blockNo first
/-- B. -/
def blockBase (s : State) (sb : Nat) (lit : Option W32) : Nat :=
  (((s.cur.sreg sb).toNat + (match lit with | some i => i.toInt | none => 0)) % 2 ^ 64).toNat
/-- B + k·z. -/
def blockAddr (s : State) (first : Opnd) (sb : Nat) (lit : Option W32) : Nat :=
  (blockBase s sb lit + blockK s * blockSize first) % 2 ^ 64

/-- The checks of R322 before block k of a SPILL or FILL: the base and the range allotted, the base full, the registers that a FILL has
still to fill full, and B aligned. -/
def BlockChecks (s : State) (first last : Opnd) (sb : Nat) (lit : Option W32) (isFill : Bool) : Prop :=
  let rest := (List.range (blockCount first last - blockK s)).map fun j => first.plus (blockK s + j)
  Passes s ⟨[], [.s sb], if isFill then rest else []⟩ [0] (need (allotted s.curL last && allotted s.curL first) illegal)
    ∧ blockBase s sb lit % blockSize first = 0

end Sys2Proof.Machine

/-- R322: block k of a SPILL goes to address B + k·z as pending writes of 16 bytes, or one of 8 for a scalar register; block
k of a FILL is read at home into register first + k, every lane of it. No other register changes, and REPST counts the
blocks. A B that is no multiple of z raises the alignment trap. -/
def Obligations.RegisterBlocksMoveOneByOne : Prop :=
  (∀ (s r : State) (first last : Opnd) (sb l : Nat) (lit : Option W32) (x : Xlat) (rest : List (Nat × Xlat)),
    (Instr.spill first last sb lit).wf = true → s.inRep = false → BlockChecks s first last sb lit false →
    Passes s ⟨[], [first.plus (blockK s)], []⟩ (List.range 32) (.ok ()) → s.buffers s.curWg = false →
    translate s 1 [(0, blockAddr s first sb lit)] = .ok (r, (l, x) :: rest) → x.res = .here →
    ∃ t, exec (.spill first last sb lit) s = .next t
      ∧ BlockDone s t (blockCount first last) (blockK s) (Instr.spill first last sb lit).size
      ∧ CourseKeeps s.cur t.cur [.pc, .repst, .waiting] ∧ (∀ y, SameByte r t y) ∧ (∀ u y, (t.wg u).byte y = (s.wg u).byte y)
      ∧ t.pend.map PWrite.what = r.pend.map PWrite.what ++
          match first with
          | .v m => (List.range 8).map fun j => (s.curWg, s.curCrs, .stack (x.pa + 16 * j), 16,
              ((List.range 4).map fun i => (s.cur.lane (m + blockK s) (4 * j + i)).toNat * 2 ^ (32 * i)).sum, false, none)
          | .s m => [(s.curWg, s.curCrs, .stack x.pa, 8, (s.cur.sreg (m + blockK s)).toNat, false, none)]
          | .x _ => [])
  ∧ (∀ (s r : State) (first last : Opnd) (sb l : Nat) (lit : Option W32) (x : Xlat) (rest : List (Nat × Xlat)),
    (Instr.fill first last sb lit).wf = true → s.inRep = false → BlockChecks s first last sb lit true → s.buffers s.curWg = false →
    translate s 0 [(0, blockAddr s first sb lit)] = .ok (r, (l, x) :: rest) → x.res = .here → r.reds = [] →
    r.rangePoisoned x.pa (blockSize first) = false →
    s.mayPerform s.curWg s.curCrs s.stamp 0 [(.stack x.pa, blockSize first)] = true →
    ∃ t, exec (.fill first last sb lit) s = .next t
      ∧ BlockDone s t (blockCount first last) (blockK s) (Instr.fill first last sb lit).size
      ∧ CourseKeeps s.cur t.cur [.pc, .repst, .waiting, .vregs, .sregs, .poison] ∧ (∀ y, SameByte r t y)
      ∧ (∀ u y, (t.wg u).byte y = (s.wg u).byte y) ∧ t.pend = r.pend
      ∧ (match first with
        | .v m => (∀ q i, i < 32 → t.cur.lane q i =
              if q = m + blockK s then BitVec.ofNat 32 (r.read (x.pa + 4 * i) 4) else s.cur.lane q i)
            ∧ ∀ q, t.cur.sreg q = s.cur.sreg q
        | .s m => ScalarHolds s.cur t.cur (.s (m + blockK s)) (BitVec.ofNat 64 (r.read x.pa 8)) ∧ ∀ q, t.cur.vreg q = s.cur.vreg q
        | .x _ => True))
  ∧ ∀ (s : State) (first last : Opnd) (sb : Nat) (lit : Option W32),
    blockBase s sb lit % blockSize first ≠ 0 →
    Passes s ⟨[], [.s sb], []⟩ [0] (need (allotted s.curL last && allotted s.curL first) illegal) →
    exec (.spill first last sb lit) s = .next (stopped s (.trap { code := 0x07 }))

/-- R67, R117, R138, R314 to R316: a FENCE with nothing before it outstanding passes: it changes no register and no memory, an
acquire at .cl, .dev or .sys empties the core's L1, and writes after a release stay behind it. It waits for outstanding remote
loads, an acquire for every load, and raises their failures. FENCE.WB writes back a slate of this module and changes no value.
CLOSEB issues as a producer of its scalar, and its batch is zero again: no peers, no errors, no count (the model counts its
closings, log entry 82); a pending failure is raised before it acts, a CLOSEB into s0 of the same batch is awaited first, and in a
versioned task it is illegal. -/
def Obligations.FencesOrderAndChangeNoValue : Prop :=
  (
    (∀ (s : State) (k : FenceKind) (sc : Scope), s.reportPoint = .ok () → s.cur.failed = [] → s.cur.flights = [] →
      (k = .sc → s.writesDone s.curWg s.curCrs = true) →
      ∃ t, exec (.fence k sc) s = .next t ∧ PastInstr s t 4 ∧ SameMemory s t
        ∧ CourseKeeps s.cur t.cur ([.pc, .repst, .waiting] ++ if k = .acq then [] else [.order])
        ∧ t.cur.relBar = (if k = .acq then s.cur.relBar else s.stamp)
        ∧ (k ≠ .rel → sc ∈ [.cl, .dev, .sys] → (t.core s.curW.core).l1 = [])
        ∧ ((k = .rel ∨ sc ∈ [.co, .wg]) → (t.core s.curW.core).l1 = (s.core s.curW.core).l1))
    ∧ (∀ (s : State) (k : FenceKind) (sc : Scope) (f : Failure) (r : List Failure), s.reportPoint = .ok () →
      s.cur.failed = f :: r → exec (.fence k sc) s = .next (stopped s (.failure f)))
    ∧ (∀ (s : State) (k : FenceKind) (sc : Scope), s.reportPoint = .ok () → s.cur.failed = [] →
      (∀ f ∈ s.cur.flights, f.isClose = false) →
      ((∃ f ∈ s.cur.flights, (f.lanes.any fun a => a.tgt.far) = true) ∨ (k ≠ .rel ∧ s.cur.flights ≠ [])) →
      exec (.fence k sc) s = .next (stopped s (.wait .performed)))
    ∧ ∀ (s r : State) (a : Opnd) (l : Nat) (x : Xlat) (rest : List (Nat × Xlat)), Passes s ⟨[a], [], []⟩ [0] (.ok ()) →
      translate s 0 [(0, (s.cur.src64 a).toNat)] = .ok (r, (l, x) :: rest) → x.res = .here →
      ∃ t, exec (.fenceWb a) s = .next t ∧ PastInstr s t 4 ∧ CourseKeeps s.cur t.cur [.pc, .repst, .waiting] ∧ SameMemory r t
        ∧ t.poison = r.poison ∧ (∀ g, Tab.find t.tags (x.pa / 1024) = some g → g.d = 0)
        ∧ ∀ k, k ≠ x.pa / 1024 → Tab.find t.tags k = Tab.find r.tags k)
  ∧ (
    (∀ (s : State) (d : Opnd) (b : Nat), d.isS = true → Passes s ⟨[], [], [d]⟩ [0] (.ok ()) → s.curL.ver = false →
      s.cur.failed = [] → s.cur.closesOut (some b) = false →
      ∃ t, exec (.closeb d b) s = .next t ∧ PastInstr s t 4 ∧ (∀ x, SameByte s t x) ∧ (∀ u x, (t.wg u).byte x = (s.wg u).byte x)
        ∧ CourseKeeps s.cur t.cur [.pc, .repst, .waiting, .fullBits, .flights, .batches]
        ∧ (∀ k, t.cur.batch k = if k % 4 = b % 4 then { Batch.zero with gen := (s.cur.batch b).gen + 1 } else s.cur.batch k)
        ∧ (∀ n, d = .s n → n ≠ 0 → t.cur.sIsFull n = false)
        ∧ (∃ f : Flight, t.cur.flights.map Flight.bare = (s.cur.flights ++ [f]).map Flight.bare
            ∧ (∃ sn got er mt, f.kind = .closeb (s.cur.batchNo b) (s.cur.batch b).peers sn got er mt) ∧ f.lanes = []))
    ∧ (∀ (s : State) (d : Opnd) (b : Nat) (f : Failure) (r : List Failure), Passes s ⟨[], [], [d]⟩ [0] (.ok ()) →
      s.curL.ver = false → s.cur.failed = f :: r → exec (.closeb d b) s = .next (stopped s (.failure f)))
    ∧ (∀ (s : State) (d : Opnd) (b : Nat), Passes s ⟨[], [], [d]⟩ [0] (.ok ()) → s.curL.ver = false → s.cur.failed = [] →
      s.cur.closesOut (some b) = true → exec (.closeb d b) s = .next (stopped s (.wait .performed)))
    ∧ ∀ (s : State) (d : Opnd) (b : Nat), Passes s ⟨[], [], [d]⟩ [0] (.ok ()) → s.curL.ver = true →
      exec (.closeb d b) s = .next (stopped s (.trap { code := 0x01 })))

namespace Sys2Proof.Machine

/-- What barrier `k` of the workgroup that issues becomes once its state is `x` (R317): the phase ends where every course has
arrived or exited and the bytes reported are those expected. -/
def barAfter (s : State) (x : Bar) : Bar :=
  if (∀ c, c < s.curL.ncrs → x.arr.getLsbD c = true ∨ (s.curW.crs c).exited = true) ∧ x.rcv = x.exp then ⟨x.ph + 1, 0, 0, 0⟩ else x

/-- Only barrier `k` of the workgroup that issues, and the parts named of its course, have changed. -/
def BarsChange (s t : State) (k : Nat) (x : Bar) (ps : List Part) : Prop :=
  (∀ j, t.bar j = if j = k then x else s.bar j) ∧ SameMemory s t ∧ CourseKeeps s.cur t.cur ps
    ∧ ∀ u c, (u, c) ≠ (s.curWg, s.curCrs) → t.crs u c = s.crs u c

end Sys2Proof.Machine

/-- R317, R318: an arrival gives the phase number and sets the course's ARR bit; a wait passes once PH differs from its
operand and else leaves the active set; EXPECT adds to EXP; the phase ends at the first moment when all have arrived or
exited and RCV = EXP. -/
def Obligations.BarriersCountArrivalsAndBytes : Prop :=
  (∀ (s : State) (d : Opnd) (k : Nat), Passes s ⟨[], [], [d]⟩ [0] (need (decide (k < s.curL.nbar)) illegal) →
    s.allDone = true → (s.bar k).arr.getLsbD s.curCrs = false →
    let b := s.bar k
    let x := barAfter s { b with arr := b.arr ||| BitVec.ofNat 32 (2 ^ s.curCrs) }
    (∃ t, exec (.barArrive d k) s = .next t ∧ PastInstr s t 4 ∧ BarsChange s t k x [.pc, .repst, .waiting, .sregs]
      ∧ ScalarHolds s.cur t.cur d (b.ph.setWidth 64))
    ∧ (s.reportPoint = .ok () → s.cur.sync = none →
      ∃ t, exec (.barSync d k) s = .next t ∧ BarsChange s t k x [.pc, .repst, .waiting, .sregs, .held]
        ∧ ScalarHolds s.cur t.cur d (b.ph.setWidth 64)
        ∧ if x.ph = b.ph then t.cur.pc = s.cur.pc ∧ t.cur.sync = some (k, b.ph) ∧ t.cur.sched = .waiting
          else PastInstr s t 4 ∧ t.cur.sync = none))
  ∧ (∀ (s : State) (d : Opnd) (k : Nat) (ph : W32), s.reportPoint = .ok () → s.cur.sync = some (k, ph) → (s.bar k).ph ≠ ph →
    ∃ t, exec (.barSync d k) s = .next t ∧ PastInstr s t 4 ∧ BarsChange s t k (s.bar k) [.pc, .repst, .waiting, .held]
      ∧ t.cur.sync = none)
  ∧ (∀ (s : State) (k : Nat) (b : Opnd), s.reportPoint = .ok () →
    Passes s ⟨[], [b], []⟩ [0] (need (decide (k < s.curL.nbar)) illegal) →
    if (s.bar k).ph = (s.cur.src64 b).setWidth 32 then
      exec (.barWait k b) s = .next (stopped s (.wait (.barrier k (s.bar k).ph)))
    else ∃ t, exec (.barWait k b) s = .next t ∧ Leaves s t 4 [])
  ∧ ∀ (s : State) (k : Nat) (b : Opnd), Passes s ⟨[], [b], []⟩ [0] (need (decide (k < s.curL.nbar)) illegal) →
    let x := s.bar k
    let n := x.exp + (s.cur.src64 b).toNat % 2 ^ 32
    if n < 2 ^ 32 then
      ∃ t, exec (.barExpect k b) s = .next t ∧ PastInstr s t 4 ∧ BarsChange s t k (barAfter s { x with exp := n }) [.pc, .repst, .waiting]
    else exec (.barExpect k b) s = .next (stopped s (.trap { code := 0x01 }))

/-- R319, R320, R321: MONITOR issues as a producer of its word at this module; MWAIT returns and disarms once the block has
been written, or at once with nothing armed, and else leaves the active set with its timeout; SIGQ posts one record of its
payload, code and target behind every access before it. -/
def Obligations.MonitorsAndSignals : Prop :=
  (∀ (s r : State) (data voff : Opnd) (sb l : Nat) (lit : Option W32) (x : Xlat) (rest : List (Nat × Xlat)),
    Passes s ⟨[voff], [.s sb], [data]⟩ [0] (.ok ()) →
    let a := s.cur.addr voff sb lit 4 0
    a % 4 = 0 → translate s 0 [(0, a)] = .ok (r, (l, x) :: rest) → x.res = .here →
    r.meetsPoison s.curWg (.stack x.pa) 4 = none →
    ∃ t, exec (.monitor data voff sb lit) s = .next t ∧ ∃ f : Flight,
      ProducerIssued s r t (Instr.monitor data voff sb lit).size [data] [] f ∧ f.kind = .watch ∧ f.acq = true
        ∧ f.lanes.map (fun y => (y.tgt, y.va, y.width)) = [(.stack x.pa, a, 4)])
  ∧ (∀ (s : State) (a : Opnd), Passes s ⟨[a], [], []⟩ [0] (.ok ()) → s.cur.arming = false →
    (s.monitorOver s.curWg s.curCrs = true ∨ s.cur.stepping = true →
      ∃ t, exec (.mwait a) s = .next t ∧ PastInstr s t 4 ∧ SameMemory s t ∧ CourseKeeps s.cur t.cur [.pc, .repst, .waiting, .held]
        ∧ t.monitorOf s.curWg s.curCrs = none ∧ t.cur.limit = none)
    ∧ (s.monitorOver s.curWg s.curCrs = false → s.cur.stepping = false → s.cur.wait ≠ some .mwait →
      ∃ t, exec (.mwait a) s = .next t ∧ Changes s t [.waiting, .held] ∧ t.cur.wait = some .mwait ∧ t.cur.sched = .waiting
        ∧ t.cur.limit = if s.cur.src64 a = 0 then none else some (s.cur.src64 a)))
  ∧ ∀ (s : State) (a : Opnd) (code : Nat) (host : Bool), Passes s ⟨[a], [], []⟩ [0] (.ok ()) → s.allDone = true → code < 128 →
    let q := fun (t : State) => if host then t.evHost else t.evMgmt
    (q s).queue.length < 1024 →
    ∃ t e, exec (.sigq a code host) s = .next t ∧ PastInstr s t 4 ∧ SameMemory s t ∧ CourseKeeps s.cur t.cur [.pc, .repst, .waiting]
      ∧ (q t).queue = (q s).queue ++ [⟨3, e⟩] ∧ e.length = 32 ∧ recField e 0 8 = (s.cur.src64 a).toNat
      ∧ recField e 8 8 = s.curL.cpla % 2 ^ 64 ∧ recField e 16 8 = s.curW.w % 2 ^ 64 ∧ recField e 24 1 = s.curCrs % 256
      ∧ recField e 25 1 = code ∧ recField e 26 1 = (if host then 1 else 0) ∧ recField e 27 1 = 0
      ∧ recField e 28 4 = s.dtime / 2 ^ 16 % 2 ^ 32

/-- R180, R182, R323: TEND adds its guard, the local address and the value, to its task and ends the course as EXIT does; in an
unbuffered task it reads the guard word at once, and a mismatch aborts the grid with cause 2. Outside a versioned grid, and on a page
that is not of this module, it is illegal. -/
def Obligations.TendGuardsTaskAndEndsCourse : Prop :=
  (∀ (s r : State) (data voff : Opnd) (sb l : Nat) (lit : Option W32) (x : Xlat) (rest : List (Nat × Xlat)),
    Passes s ⟨[voff], [.s sb, data], []⟩ [0] (need s.curL.ver illegal) →
    let a := s.cur.addr voff sb lit 4 0
    let v := (s.cur.src64 data).toNat % 2 ^ 32
    a % 4 = 0 → translate s 0 [(0, a)] = .ok (r, (l, x) :: rest) →
    (x.res = .here →
      EndWaits (.tend data voff sb lit) s
      ∧ (MayEnd s → s.curW.unbuf = false → ∃ t, exec (.tend data voff sb lit) s = .next t
        ∧ t.curW.guards = s.curW.guards ++ [(x.pa, v)] ∧ CourseEnded s r t)
      ∧ (MayEnd s → s.curW.unbuf = true → s.mayPerform s.curWg s.curCrs s.stamp 0 [(.stack x.pa, 4)] = true →
        r.rangePoisoned x.pa 4 = false → r.reds = [] →
        (r.read x.pa 4 = v → ∃ t, exec (.tend data voff sb lit) s = .next t ∧ t.curW.guards = s.curW.guards ∧ CourseEnded s r t)
        ∧ (r.read x.pa 4 ≠ v → ∃ t, exec (.tend data voff sb lit) s = .next t ∧ SameMemory r t
          ∧ ((s.grid s.curW.gid).abort = none → (Tab.find s.grids s.curW.gid).isSome = true →
            (t.grid s.curW.gid).abort = some (2, s.curW.w)))))
    ∧ (x.res ≠ .here → exec (.tend data voff sb lit) s = .next (stopped r (.trap { code := 0x01 }))))
  ∧ ∀ (s r : State) (data voff : Opnd) (sb : Nat) (lit : Option W32) (y : Nat × Xlat) (rest : List (Nat × Xlat)),
    Passes s ⟨[voff], [.s sb, data], []⟩ [0] (.ok ()) → s.curL.ver = false →
    let a := s.cur.addr voff sb lit 4 0
    a % 4 = 0 → translate s 0 [(0, a)] = .ok (r, y :: rest) →
    exec (.tend data voff sb lit) s = .next (stopped r (.trap { code := 0x01 }))

namespace Sys2Proof.Machine

/-- No MBRECV of a mailbox waits for a message. -/
def NoReceiver (s : State) (m : Nat) : Prop :=
  ∀ w ∈ s.wgs, ∀ k ∈ w.2.courses, ∀ f ∈ k.2.flights, f.kind = .message m → f.got ≠ []

/-- The words of a message in the lanes of a register: its 64 bytes in lanes 0 to 15, zeros above (R324). -/
def MessageLanes (got : Tab Nat) (o : BitVec 512) : Prop :=
  ∀ l, l < 32 → Tab.find got l = some (if l < 16 then bits o.toNat (32 * l + 31) (32 * l) else 0)

end Sys2Proof.Machine

/-- R324, R392: MBSEND appends its message, whose identifier and kind the device writes, to the action ring of a bound
mailbox, and waits while the ring is full. MBRECV issues as a producer and, where no other receiver stands before it, takes the
oldest observation; with none queued, nothing has come yet. A mailbox that is bound to no episode raises the mailbox trap. -/
def Obligations.MailboxesCarryMessages : Prop :=
  (∀ (s : State) (d a : Opnd), Passes s ⟨[a], [d], []⟩ (List.range 16) (.ok ()) →
    let m := (s.cur.src64 d).toNat
    (s.bound m = false → exec (.mbsend d a) s = .next (stopped s (.trap { code := 0x0D })))
    ∧ (s.bound m = true → s.allDone = true → 16 ≤ (s.mbox m).actions.length →
      exec (.mbsend d a) s = .next (stopped s (.wait (.mailbox m))))
    ∧ (s.bound m = true → s.allDone = true → (s.mbox m).actions.length < 16 →
      ∃ t x, exec (.mbsend d a) s = .next t ∧ PastInstr s t 4 ∧ SameMemory s t ∧ CourseKeeps s.cur t.cur [.pc, .repst, .waiting]
        ∧ (t.mbox m).actions = (s.mbox m).actions ++ [x] ∧ (t.mbox m).obs = (s.mbox m).obs ∧ (∀ n, n ≠ m → t.mbox n = s.mbox n)
        ∧ bits x.toNat 31 0 = (s.mbox m).epi % 2 ^ 32 ∧ bits x.toNat 127 96 = 0
        ∧ ∀ l, l < 16 → l ≠ 0 → l ≠ 3 → bits x.toNat (32 * l + 31) (32 * l) = (s.cur.src a l).toNat))
  ∧ ∀ (s : State) (d a : Opnd), Passes s ⟨[a], [], [d]⟩ [0] (.ok ()) →
    let m := (s.cur.src64 a).toNat
    (s.bound m = false → exec (.mbrecv d a) s = .next (stopped s (.trap { code := 0x0D })))
    ∧ (s.bound m = true → ∃ t, exec (.mbrecv d a) s = .next t ∧ (∃ f : Flight, ProducerIssued s s t 4 [d] [] f ∧ f.kind = .message m)
      ∧ (NoReceiver s m → ∃ g ∈ t.cur.flights.getLast?, g.kind = .message m ∧
        match (s.mbox m).obs with
        | [] => g.got = [] ∧ t.mbox m = s.mbox m
        | o :: r => MessageLanes g.got o ∧ (t.mbox m).obs = r ∧ (t.mbox m).actions = (s.mbox m).actions))

-- ## Matrix, generator and copy instructions

namespace Sys2Proof.Machine

/-- An engine command, or an instruction of eight bytes that changes only the workgroup's engines, has issued: the parts
named of its course, and the program counter, have changed, and no byte of memory or of a scratchpad. -/
def EngineIssued (s t : State) (ps : List Part) : Prop :=
  CourseKeeps s.cur t.cur ([.pc, .repst, .waiting] ++ ps) ∧ PastInstr s t 8 ∧ SameMemory s t

/-- The core has room for one more engine command (R326). -/
def RoomForCommand (s : State) : Prop := s.cmdsOn s.curW.core < 64

end Sys2Proof.Machine

/-- R329 to R334: OCLM claims an unclaimed run of slots and ORLS releases a claimed one, clearing their chunk bits and no
byte; OST lands four registers in one chunk and sets its bit; OFNC holds nothing of the course, and lets no later command of its course
that reads its slot start before it is done; WAITC passes when its mask is satisfied, and waits else. The bits and bytes are
said of a workgroup with no earlier command incomplete. -/
def Obligations.SlotsClaimReleaseAndStore : Prop :=
  (∀ (s : State) (t0 cnt : Nat), t0 + cnt ≤ s.curL.nos → RoomForCommand s →
    let mine := fun k => t0 ≤ k ∧ k < t0 + cnt
    ((∀ k, mine k → (s.curW.slot k).claimed = false) →
      ∃ t, exec (.oclm t0 cnt) s = .next t ∧ EngineIssued s t []
        ∧ (∀ k, (t.curW.slot k).claimed = if mine k then true else (s.curW.slot k).claimed)
        ∧ (s.curW.cmds = [] → (∀ a, t.curW.slotByte a = s.curW.slotByte a)
          ∧ ∀ k, (t.curW.slot k).bitmap = if mine k then 0 else (s.curW.slot k).bitmap))
    ∧ ((∃ k, mine k ∧ (s.curW.slot k).claimed = true) → exec (.oclm t0 cnt) s = .next (stopped s (.trap { code := 0x01 })))
    ∧ ((∀ k, mine k → (s.curW.slot k).claimed = true) →
      ∃ t, exec (.orls t0 cnt) s = .next t ∧ EngineIssued s t []
        ∧ (∀ k, (t.curW.slot k).claimed = if mine k then false else (s.curW.slot k).claimed)
        ∧ (s.curW.cmds = [] → (∀ a, t.curW.slotByte a = s.curW.slotByte a)
          ∧ ∀ k, (t.curW.slot k).bitmap = if mine k then 0 else (s.curW.slot k).bitmap))
    ∧ ((∃ k, mine k ∧ (s.curW.slot k).claimed = false) → exec (.orls t0 cnt) s = .next (stopped s (.trap { code := 0x01 }))))
  ∧ (∀ (s : State) (t0 r chunk : Nat), t0 < s.curL.nos → chunk < 16 → RoomForCommand s →
    Passes s ⟨(List.range 4).map fun j => .v (r + j), [], []⟩ (List.range 32) (.ok ()) → (s.curW.slot t0).claimed = true →
    ∃ t, exec (.ost t0 (.v r) chunk) s = .next t ∧ EngineIssued s t []
      ∧ (∀ k, (t.curW.slot k).claimed = (s.curW.slot k).claimed)
      ∧ (s.curW.cmds = [] → (∀ a, t.curW.slotByte a =
            if 8192 * t0 + 512 * chunk ≤ a ∧ a < 8192 * t0 + 512 * chunk + 512 then
              let b := a - (8192 * t0 + 512 * chunk)
              BitVec.ofNat 8 ((s.cur.lane (r + b / 128) (b % 128 / 4)).toNat / 2 ^ (8 * (b % 4)))
            else s.curW.slotByte a)
        ∧ ∀ k, t.curW.chunkBit k = if k = 16 * t0 + chunk then true else s.curW.chunkBit k))
  ∧ (∀ (s : State) (t0 mask : Nat), t0 < s.curL.nos → RoomForCommand s →
    ∃ t, exec (.ofnc t0 mask) s = .next t ∧ EngineIssued s t [] ∧ ∀ k, (t.curW.slot k).claimed = (s.curW.slot k).claimed)
  ∧ (∀ (s : State) (u t0 mask : Nat) (f m : Cmd), f ∈ (s.wg u).cmds → f.op = .ofnc t0 mask → f.done = false →
    m.crs = f.crs → f.id < m.id → (m.op.reads (s.grid (s.wg u).gid).launch).any (Region.meets · (1, 16 * t0, 16 * t0 + 16)) = true →
    s.mayRun u m = false)
  ∧ ∀ (s : State) (t0 mask : Nat) (anyBit : Bool), t0 < s.curL.nos → s.reportPoint = .ok () → mask < 2 ^ 16 →
    let set := fun j => mask.testBit j ∧ (s.curW.slot t0).bitmap.getLsbD j
    if mask = 0 ∨ (if anyBit then ∃ j : Fin 16, set j else ∀ j : Fin 16, mask.testBit j → set j) then
      ∃ t, exec (.waitc t0 mask anyBit) s = .next t ∧ Leaves s t 8 []
    else exec (.waitc t0 mask anyBit) s = .next (stopped s (.wait (.slotBits t0 mask anyBit)))

/-- R344, R345: GSET and GSEED write their fields of one generator and nothing else; FUNC 7, and a PARAM outside its
function's range, raise the illegal trap. GSET writes a whole unit of the reserved strip, whose poison ends (R90; its place is the
model's, log entry 86). -/
def Obligations.GeneratorsTakeTheirFields : Prop :=
  (∀ (s : State) (g : Nat) (a b : Opnd) (func : Nat) (tr : Bool) (param : Nat), Passes s ⟨[a], [b], []⟩ [0] (.ok ()) →
    let ok := func < 7 ∧ (if func = 5 then param < 64 else if func = 6 then 1 ≤ param ∧ param ≤ 32 else param = 0)
    (ok → ∃ t, exec (.gset g a b func tr param) s = .next t ∧ Leaves s t 8 [.gens, .strip]
      ∧ StripCleared s.cur t.cur [35 + 2 * g] ∧ ∀ k, t.cur.gen k = if k = g then { s.cur.gen g with
        gscl := (s.cur.src64 a).setWidth 32, row0 := (s.cur.src64 b).setWidth 32,
        col0 := BitVec.ofNat 32 ((s.cur.src64 b).toNat / 2 ^ 32), func := func, tr := tr, param := param }
      else s.cur.gen k)
    ∧ (¬ok → exec (.gset g a b func tr param) s = .next (stopped s (.trap { code := 0x01 }))))
  ∧ ∀ (s : State) (g : Nat) (a b : Opnd), Passes s ⟨[a], [b], []⟩ [0] (.ok ()) →
    ∃ t, exec (.gseed g a b) s = .next t ∧ Leaves s t 8 [.gens] ∧ ∀ k, t.cur.gen k =
      if k = g then { s.cur.gen g with gs := s.cur.src64 a, tid := (s.cur.src64 b).setWidth 32 } else s.cur.gen k

namespace Sys2Proof.Machine

/-- The checks of R336 and R338 pass for N columns: registers and slots within the allotments, formats that the unit takes,
accumulators and claimed slots for the whole operation, all lanes active, and room for a command. -/
def MmaMayIssue (s : State) (xd xa : Nat) (xb : BSrc) (fa fb ns n : Nat) (sparse : Option (Nat × Nat)) : Prop :=
  ns < s.curL.ns ∧ Passes s ⟨[], [.s ns], []⟩ [0] s.cur.needRm ∧ (s.cur.sreg ns).toNat = n ∧ n % 16 = 0 ∧ 16 ≤ n ∧ n ≤ 512
    ∧ xd + n / 16 ≤ s.curL.nacc ∧ tileBytes (s.curL.fslot fa) ≠ 0 ∧ xa < s.curL.nos ∧ (s.curW.slot xa).claimed = true
    ∧ (match xb with
      | .gen _ => fb = 0
      | .slot t => tileBytes (s.curL.fslot fb) ≠ 0 ∧ t < s.curL.nos
        ∧ t + runSlots n (kOf sparse) (tileBytes (s.curL.fslot fb)) ≤ s.curL.nos
        ∧ ∀ k < runSlots n (kOf sparse) (tileBytes (s.curL.fslot fb)), (s.curW.slot (t + k)).claimed = true)
    ∧ (match sparse with | some (_, ms) => ms < s.curL.nos ∧ (s.curW.slot ms).claimed = true | none => True)
    ∧ s.cur.active = 0xFFFFFFFF ∧ RoomForCommand s

/-- The command of a matrix operation as it issues (R326): it captures its generator, MODE.RM and MODE.FTZ. -/
def MmaQueued (s t : State) (op : CmdOp) : Prop :=
  EngineIssued s t [] ∧ (s.curW.cmds = [] → (∀ a i q, t.curW.acc a i q = s.curW.acc a i q)
    ∧ ∃ m, t.curW.cmds = [m] ∧ m.op = op ∧ m.crs = s.curCrs ∧ m.rm = s.cur.rm ∧ m.ftz = s.cur.ftz ∧ m.done = false)

/-- The generator that an operation captures. -/
def capturedGen (s : State) (xb : BSrc) : Gen := match xb with | .gen k => s.cur.gen k | .slot _ => Gen.zero

end Sys2Proof.Machine

/-- R326, R336, R338: MMA and MMAS issue as engine commands, with their operands captured, where R336's checks pass, and
change no accumulator as they issue; ACLR writes zeros; ALD copies rows of an accumulator to registers, every lane whatever EXEC
holds; AWB issues with its destination granules empty, or traps on a misaligned destination, one outside the scratchpad, and a
poisoned accumulator; WAITM passes when at most PEND commands are incomplete and gathers the flags of those it covers, and else
waits. -/
def Obligations.AccumulatorInstructions : Prop :=
  (∀ (s : State) (xd xa : Nat) (xb : BSrc) (fa fb ns n : Nat) (za : Bool), xd < s.curL.nacc →
    MmaMayIssue s xd xa xb fa fb ns n none →
    ∃ t, exec (.mma xd xa xb fa fb ns za) s = .next t ∧ MmaQueued s t (.mma xd xa xb (capturedGen s xb) fa fb n za none))
  ∧ (∀ (s : State) (xd xa : Nat) (xb : BSrc) (fa fb ns n : Nat) (za sp : Bool) (ms : Nat), xd < s.curL.nacc →
    MmaMayIssue s xd xa xb fa fb ns n (some (if sp then 8 else 16, ms)) →
    ∃ t, exec (.mmas xd xa xb fa fb ns za sp ms) s = .next t
      ∧ MmaQueued s t (.mma xd xa xb (capturedGen s xb) fa fb n za (some (if sp then 8 else 16, ms))))
  ∧ (∀ (s : State) (a cnt : Nat), a + cnt ≤ s.curL.nacc → RoomForCommand s →
    ∃ t, exec (.aclr a cnt) s = .next t ∧ EngineIssued s t [] ∧ (s.curW.cmds = [] →
      ∀ k i q, t.curW.acc k i q = if a ≤ k ∧ k < a + cnt then 0 else s.curW.acc k i q))
  ∧ (∀ (s : State) (d a h0 nreg : Nat), a < s.curL.nacc →
    Passes s ⟨[], [], (List.range nreg).map fun j => .v (d + j)⟩ [] (.ok ()) → h0 + nreg ≤ 32 →
    s.curW.accPoisoned a = false →
    ∃ t, exec (.ald (.v d) a h0 nreg) s = .next t ∧ Leaves s t 8 [.vregs, .poison] ∧
      ∀ r l, l < 32 → t.cur.lane r l = if d ≤ r ∧ r < d + nreg then s.curW.acc a (2 * (h0 + (r - d)) + l / 16) (l % 16)
        else s.cur.lane r l)
  ∧ (∀ (s : State) (d : Opnd) (a : Nat) (b : Opnd) (fs acnt pitch mg : Nat) (me neg : Bool) (barn : Nat) (ben : Bool),
    let dst := (s.cur.src64 d).toNat
    let row := 16 * acnt * awbBytes (s.curL.fslot fs)
    a < s.curL.nacc → Passes s ⟨[], [d, b], []⟩ [0] s.cur.needRm → awbBytes (s.curL.fslot fs) ≠ 0 → a + acnt ≤ s.curL.nacc →
    pitch ≠ 0 → row ≤ 16 * pitch → (me = true → (s.cur.gen mg).func ∈ [4, 5, 6]) → (ben = true → barn < s.curL.nbar) →
    RoomForCommand s →
    (dst % 16 ≠ 0 → exec (.awb d a b fs acnt pitch mg me neg barn ben) s = .next (stopped s (.trap { code := 0x07 })))
    ∧ (dst % 16 = 0 → s.curL.spg * 0x4000 < dst + 63 * (16 * pitch) + row →
      exec (.awb d a b fs acnt pitch mg me neg barn ben) s = .next (stopped s (.trap { code := 0x08, fva := dst })))
    ∧ (dst % 16 = 0 → dst + 63 * (16 * pitch) + row ≤ s.curL.spg * 0x4000 →
      (∃ j < acnt, s.curW.accBad s.curL (a + j) = true) →
      exec (.awb d a b fs acnt pitch mg me neg barn ben) s = .next (stopped s (.trap { code := 0x0A, arr := 1 })))
    ∧ (dst % 16 = 0 → dst + 63 * (16 * pitch) + row ≤ s.curL.spg * 0x4000 →
      (∀ j < acnt, s.curW.accBad s.curL (a + j) = false) →
      ∃ t, exec (.awb d a b fs acnt pitch mg me neg barn ben) s = .next t ∧ EngineIssued s t []
        ∧ ∀ g, t.curW.full g = if ∃ i : Fin 64, dst + i * (16 * pitch) < 16 * g + 16 ∧ 16 * g < dst + i * (16 * pitch) + row
            then false else s.curW.full g))
  ∧ ∀ (s : State) (pend : Nat), s.reportPoint = .ok () →
    let r := s.curW.accCmds s.curCrs
    (pend < r.2 → exec (.waitm pend) s = .next (stopped s (.wait (.accs pend))))
    ∧ (r.2 ≤ pend → (∀ m ∈ r.1, m.done = true → m.poison = none) →
      ∃ t, exec (.waitm pend) s = .next t ∧ EngineIssued s t [.fstat]
        ∧ FstatGains s.cur t.cur ((r.1.takeWhile Cmd.done).foldl (fun f m => f ||| m.flags) 0)
        ∧ ∀ a i q, t.curW.acc a i q = s.curW.acc a i q)

/-- R337, R338: a matrix operation that completes leaves in each element of its accumulators the rounded exact dot product of
a row of A and a column of B, with the old element unless ZA, and changes no other accumulator, memory or scratchpad. A row
whose metadata has a wrong count becomes NaN. -/
def Obligations.MatrixResultIsRoundedExactDot : Prop :=
  ∀ (s : State) (u xd xa : Nat) (xb : BSrc) (g : Gen) (fa fb n : Nat) (za : Bool) (sparse : Option (Nat × Nat)) (m : Cmd),
    (s.wg u).cmds = [m] → m.op = .mma xd xa xb g fa fb n za sparse → s.mayRun u m = true →
    let w := s.wg u
    let l := (s.grid w.gid).launch
    w.mmaPoison l m.op = none → n % 16 = 0 →
    ∃ t, exec (.matrixOperationComplete u m.id) s = .next t ∧ SameMemory s t ∧ (∀ c, t.crs u c = s.crs u c)
      ∧ (∀ a i q, a < xd ∨ xd + n / 16 ≤ a → (t.wg u).acc a i q = w.acc a i q)
      ∧ ∀ j i q, j < n / 16 → i < 64 → q < 16 → ((t.wg u).acc (xd + j) i q).toNat =
        match w.positions i sparse with
        | none => 0x7FC00000
        | some ps =>
          (exactDot m.rm m.ftz
            (ps.map (fun p => (mulFV (w.tileElem (l.fslot fa) m.ftz (8192 * xa + i * 64 * tileBytes (l.fslot fa)) p.1).1
                (w.bElem l (s.core w.core).rotary m.ftz xb g fb (kOf sparse) p.2 (16 * j + q)).1).1)
              ++ if za then [] else [decodeF f32 m.ftz (w.acc (xd + j) i q).toNat]) 0).1 % 2 ^ 32

/-- R349, R351, R352, R353: CPY, CPYI and CPYO issue with the record of eight scalars captured, where the checks of R350
pass: the destination granules of a CPY into the scratchpad turn empty, a CPYO takes one number of its batch for each of its
16-byte units, and no byte moves yet. Said of a CPYO with no earlier command incomplete; one with an index list issues once the
course's stores to the list have been performed. -/
def Obligations.CopiesIssueWithTheirRecord : Prop :=
  (∀ (s : State) (a : Opnd) (barn : Nat) (ben srcl : Bool) (r : CopyRec), s.reportPoint = .ok () →
    captureRecord s a = .ok r → (srcl = true → r.col = false ∧ r.slt = false ∧ r.lsl = true) →
    copyChecks s r srcl false ben barn = .ok () → RoomForCommand s →
    ∃ t, exec (.cpy a barn ben srcl) s = .next t ∧ EngineIssued s t []
      ∧ (r.lsl = true → ∀ g, t.curW.full g = s.curW.full g)
      ∧ (r.lsl = false → ∀ g, t.curW.full g =
          if ∃ i ∈ List.range r.bh, r.lbase + i * r.lpitch < 16 * g + 16 ∧ 16 * g < r.lbase + i * r.lpitch + r.bw * 2 ^ r.esz
            then false else s.curW.full g))
  ∧ (∀ (s : State) (a : Opnd) (barn : Nat) (ben : Bool) (r : CopyRec), s.reportPoint = .ok () →
    captureRecord s a = .ok r → r.col = false → r.y0 = 0 → copyChecks s r false true ben barn = .ok () → RoomForCommand s →
    ∃ t, exec (.cpyi a barn ben) s = .next t ∧ EngineIssued s t [])
  ∧ ∀ (s : State) (a : Opnd) (barn : Nat) (ben : Bool) (bt : Nat) (idx : Bool) (r : CopyRec), s.reportPoint = .ok () →
    captureRecord s a = .ok r → r.lsl = false → r.col = false → copyChecks s r false idx ben barn = .ok () → RoomForCommand s →
    s.curW.cmds = [] →
    (idx = true → s.mayPerform s.curWg s.curCrs s.stamp 0 [(.scratch s.curWg r.xaddr, 4 * r.bh)] = true) →
    let list := if idx then some (s.curW.indexList r) else none
    ∃ t, exec (.cpyo a barn ben bt idx) s = .next t ∧ EngineIssued s t [.batches] ∧ (∀ g, t.curW.full g = s.curW.full g)
      ∧ ∀ k, t.cur.batch k = if k % 4 = bt % 4 then { s.cur.batch bt with
          count := (s.cur.batch bt).count + BitVec.ofNat 32 (((List.range r.bh).map fun i => (r.rowUnits list i).length).sum) }
        else s.cur.batch k

namespace Sys2Proof.Machine

/-- What a copy command takes for a byte of its source that holds `now`: what it read before in its run, where it has (R151). -/
def Cmd.sees (m : Cmd) (o : Source) (a : Nat) (now : Byte) : Byte :=
  if m.knows (o.key (a / o.size)) then (m.unitByte o a).1 else now

end Sys2Proof.Machine

/-- R151, R349, R354: a piece of a copy that lands puts the elements' bytes, zeros where an element is out of bounds, at their
places, and changes no other byte; a unit of the source that the command has read before is not read again. Where a run again meets
larger pages than the first one did, a piece ends where the first run had come to (log entry 49). Said of pieces between this
module's memory, with no reduction pending, and a scratchpad. -/
def Obligations.CopyPiecesMoveBytes : Prop :=
  (∀ (s : State) (u : Nat) (m : Cmd) (c : CopyRec) (indexed : Bool) (bar : Option Nat),
    s.cmd u m.id = some m → m.op = .copyIn c false indexed bar → (indexed = true → m.index ≠ none) → m.fail = none →
    s.mayRun u m = true → c.lsl = false → s.buffers u = false → s.reds = [] →
    let row := m.next / 2 ^ 16
    let col := m.next % 2 ^ 16
    let at1 := c.lbase + row * c.lpitch + col * 2 ^ c.esz
    (∀ (va : Nat) (x : Xlat), c.elem m.index row col = some va → s.pieceXlat u m va (if c.col then 4 else 0) = .ok x →
      x.res = .here →
      let els := m.portion row col (c.piece m.index false false x.size row col)
      ∃ t, exec (.copyPiece u m.id) s = .next t ∧ (∀ a, SameByte s t a)
        ∧ (∀ k a b, (els[k]?).bind Prod.snd = some a → b < 2 ^ c.esz →
            let pa := x.pa - va % x.size + a % x.size + b
            (t.wg u).byte (at1 + k * 2 ^ c.esz + b) = m.sees .stack pa (s.byteAt pa))
        ∧ ∀ v a, (v ≠ u ∨ a < at1 ∨ at1 + els.length * 2 ^ c.esz ≤ a) → (t.wg v).byte a = (s.wg v).byte a)
    ∧ (c.elem m.index row col = none →
      let n := (m.portion row col (c.piece m.index false false 1 row col)).length
      ∃ t, exec (.copyPiece u m.id) s = .next t ∧ (∀ a, SameByte s t a)
        ∧ ∀ v a, (t.wg v).byte a = if v = u ∧ at1 ≤ a ∧ a < at1 + n * 2 ^ c.esz then 0 else (s.wg v).byte a))
  ∧ ∀ (s : State) (u : Nat) (m : Cmd) (c : CopyRec) (indexed : Bool) (bar : Option Nat) (bt va : Nat) (seq0 : W32) (x : Xlat),
    s.cmd u m.id = some m → m.op = .copyOut c indexed bar bt seq0 → m.fail = none → s.mayRun u m = true →
    s.buffers u = false → s.reds = [] → c.col = false →
    let row := m.next / 2 ^ 16
    let col := m.next % 2 ^ 16
    let els := m.portion row col (c.piece m.index false true x.size row col)
    let pa := fun a => x.pa - va % x.size + a % x.size
    c.elem m.index row col = some va → s.pieceXlat u m va 1 = .ok x → x.res = .here →
    ∃ t, exec (.copyPiece u m.id) s = .next t ∧ (∀ v a, (t.wg v).byte a = (s.wg v).byte a)
      ∧ (∀ k a b, (k, some a) ∈ els → b < 2 ^ c.esz →
          let src := c.lbase + row * c.lpitch + k * 2 ^ c.esz + b
          t.byteAt (pa a + b) = m.sees .scratch src ((s.wg u).byte src))
      ∧ ∀ y, (∀ k a, (k, some a) ∈ els → y < pa a ∨ pa a + 2 ^ c.esz ≤ y) → SameByte s t y

/-- R343: a block of an accumulator write-back puts the encodings of its elements in the scratchpad, fills its granules, and
changes no other byte and no other granule's bit. -/
def Obligations.WriteBackBlocksLand : Prop :=
  ∀ (s : State) (u : Nat) (m : Cmd) (dst a fs acnt pitch : Nat) (sg cl : W32) (mask : Option Gen) (neg : Bool) (bar : Option Nat),
    s.cmd u m.id = some m → m.op = .awb dst a fs acnt pitch sg cl mask neg bar → s.mayRun u m = true →
    let w := s.wg u
    let l := (s.grid w.gid).launch
    let e := awbBytes (l.fslot fs)
    let i := m.next / 2 ^ 16
    let off := m.next % 2 ^ 16
    let at1 := dst + i * pitch + off
    let nb := min (16 * acnt * e - off) (512 - at1 % 512)
    let n := nb / e
    0 < e → off < 16 * acnt * e →
    ∃ t, exec (.writeBackBlock u m.id) s = .next t ∧ (∀ y, SameByte s t y) ∧ (∀ c, t.crs u c = s.crs u c)
      ∧ (∀ k b, k < n → b < e → (t.wg u).byte (at1 + k * e + b) = BitVec.ofNat 8
          ((w.awbElem l (s.core w.core).rotary m a fs sg cl mask neg i (off / e + k)).1 / 2 ^ (8 * b)))
      ∧ (∀ g, (t.wg u).full g = if at1 < 16 * g + 16 ∧ 16 * g < at1 + nb then true else w.full g)
      ∧ ∀ v y, (v ≠ u ∨ y < at1 ∨ at1 + n * e ≤ y) → (t.wg v).byte y = (s.wg v).byte y

-- ## Link sequencers

namespace Sys2Proof.Machine

/-- The context stops at this instruction's end (R380). -/
def Ctx.stopsNow (x : Ctx) : Bool := (x.step1 || x.stopReq) && x.sending.isNone

/-- The context `x` after an instruction that is complete, with the program counter at `pc`: it goes on, or stops where it was
told to; its held chunk is held no longer; every register and other field is as `x` has it. -/
def CtxDone (x y : Ctx) (pc : Nat) : Prop :=
  y = { x with
    cpc := pc, since := none, barked := false, held := false, watch := none, met := false
    st := if x.stopsNow then .stopped else .running
    step1 := x.step1 && !x.stopsNow, stopReq := x.stopReq && !x.stopsNow }

/-- Nothing changes but the context at turn, the turn's count, the sequencer's translations, and who holds or waits at a
channel's head. -/
def SeqFrame (s t : State) : Prop :=
  t = { s with seqs := t.seqs, links := t.links }
    ∧ (∀ l k, (l, k) ≠ (s.curLink, s.curCtx) → (t.seqr l).ctx k = (s.seqr l).ctx k)
    ∧ (∀ l, t.seqr l = { s.seqr l with
        ctxs := (t.seqr l).ctxs, run := (t.seqr l).run, tlb := (t.seqr l).tlb, atHead := (t.seqr l).atHead })
    ∧ ∀ l, t.link l = { s.link l with heldCh := (t.link l).heldCh }

/-- A register or control instruction leaves the context as `x` with the program counter at `pc`, and counts one more
instruction of its turn (R376). -/
def SeqLeaves (s t : State) (x : Ctx) (pc : Nat) : Prop :=
  SeqFrame s t ∧ CtxDone x t.ctx pc
    ∧ (t.seqr s.curLink).run = if x.stopsNow then 256 else (s.seqr s.curLink).run + 1

/-- The next instruction's place (R358: instruction memory holds 16,384 bytes). -/
def Ctx.next (x : Ctx) : Nat := (x.cpc + 4) % 16384

end Sys2Proof.Machine

/-- R357, R362, R364, R365: the register and control instructions of a sequencer context. Each register instruction writes
its one register (c0 discards it) with the value of R362's table and goes on at the next word; BR and LOOP go where their
conditions say; YIELD ends the turn; EVT posts its record once both destinations have room; HALT makes the context idle and counts
it in its collective; nothing else changes. A selector of CST above 4 is the fault ILLEGAL. -/
def Obligations.SequencerRegisterAndControl : Prop :=
  (∀ (s : State) (d a b : Nat) (i : Int) (u : Nat) (op : Instr) (v : W64),
    let x := s.ctx
    (op, v) ∈ [
      (Instr.seqAdd d a b, x.reg a + x.reg b), (.seqSub d a b, x.reg a - x.reg b),
      (.seqAnd d a b, x.reg a &&& x.reg b), (.seqOr d a b, x.reg a ||| x.reg b), (.seqXor d a b, x.reg a ^^^ x.reg b),
      (.seqShl d a b, x.reg a <<< ((x.reg b).toNat % 64)), (.seqShr d a b, x.reg a >>> ((x.reg b).toNat % 64)),
      (.seqMul d a b, x.reg a * x.reg b), (.addi d a i, x.reg a + BitVec.ofInt 64 i), (.li d i, BitVec.ofInt 64 i),
      (.lih d u, BitVec.ofNat 64 ((x.reg d).toNat * 2 ^ 22 + u)),
      (.cst d 0, BitVec.ofNat 64 s.curLink), (.cst d 1, s.ownPeer.setWidth 64),
      (.cst d 2, BitVec.ofNat 64 (s.dtime / 2 ^ 16)), (.cst d 3, x.last), (.cst d 4, BitVec.ofNat 64 s.curCtx)] →
    ∃ t, exec op s = .next t ∧ SeqLeaves s t (x.setReg d v) x.next
      ∧ ∀ r, t.ctx.reg r = if r = 0 then 0 else if r = d then v else x.reg r)
  ∧ (∀ (s : State) (d sel : Nat), 5 ≤ sel → ∃ n k v, exec (.cst d sel) s = .next (s.seqFault 0x10 n k v none))
  ∧ (∀ (s : State) (op : Instr), op = .seqNop ∨ op = .seqFence →
    ∃ t, exec op s = .next t ∧ SeqLeaves s t s.ctx s.ctx.next)
  ∧ (∀ (s : State) (cond a b : Nat) (off : Int), cond < 7 →
    let x := s.ctx
    let p := x.reg a
    let q := x.reg b
    let taken := cond = 0 ∨ (cond = 1 ∧ p = q) ∨ (cond = 2 ∧ p ≠ q) ∨ (cond = 3 ∧ p.toInt < q.toInt)
      ∨ (cond = 4 ∧ p.toNat < q.toNat) ∨ (cond = 5 ∧ q.toInt ≤ p.toInt) ∨ (cond = 6 ∧ q.toNat ≤ p.toNat)
    ∃ t, exec (.seqBr cond a b off) s = .next t
      ∧ (taken → SeqLeaves s t x (((x.cpc : Int) + 4 * off) % 16384).toNat) ∧ (¬taken → SeqLeaves s t x x.next))
  ∧ (∀ (s : State) (a : Nat) (off : Int), a ≠ 0 →
    let x := s.ctx
    ∃ t, exec (.loop a off) s = .next t
      ∧ SeqLeaves s t (x.setReg a (x.reg a - 1)) (if x.reg a = 1 then x.next else (((x.cpc : Int) + 4 * off) % 16384).toNat))
  ∧ (∀ s : State, ∃ t, exec .yield s = .next t ∧ SeqFrame s t ∧ CtxDone s.ctx t.ctx s.ctx.next ∧ (t.seqr s.curLink).run = 256)
  ∧ (∀ (s : State) (a code : Nat),
    ((s.evMgmt.full = true ∨ s.evHost.full = true) → exec (.evt a code) s = .next (s.seqWait .event))
    ∧ (s.evMgmt.full = false → s.evHost.full = false → ∃ t, exec (.evt a code) s = .next t
      ∧ SeqLeaves (s.postEvent 2 (s.seqRecord 0x12 s.curLink s.curCtx code s.ctx.cpc (s.ctx.reg a).toNat 0)) t s.ctx s.ctx.next))
  ∧ ∀ s : State, ∃ t, exec .halt s = .next t ∧ t.ctx.st = .idle ∧ (∀ r, t.ctx.reg r = s.ctx.reg r) ∧ t.ctx.cpc = s.ctx.cpc
    ∧ SeqFrame s { t with colls := s.colls }
    ∧ ∀ k, Tab.find t.colls k = if k = s.ctx.coll then (Tab.find s.colls k).map fun c =>
        { c with halted := c.halted ||| 2 ^ s.curLink, last := s.dtime } else Tab.find s.colls k

namespace Sys2Proof.Machine

/-- Beside what is performed in memory, an access of a context leaves every workgroup as it was, and of its sequencer only
what a completed instruction changes: its registers and counter become those of `x` at the next word. Another context may have
been told that the word it waits for has met its condition (R369). -/
def SeqAccess (s t : State) (x : Ctx) : Prop :=
  CtxDone x t.ctx s.ctx.next ∧ t.wgs = s.wgs
    ∧ ∀ l k, (l, k) ≠ (s.curLink, s.curCtx) →
      (t.seqr l).ctx k = { (s.seqr l).ctx k with met := ((t.seqr l).ctx k).met }

/-- The context waits at its instruction, as `x`, for `why`: its turn is over, and nothing that it could change has changed. -/
def SeqWaits (s t : State) (x : Ctx) (why : CtxWait) : Prop :=
  t.ctx = { x with st := .waiting, since := some (x.since.getD s.dtime), why := some why } ∧ (t.seqr s.curLink).run = 256 ∧ SameMemory s t
    ∧ t.wgs = s.wgs ∧ (∀ l k, (l, k) ≠ (s.curLink, s.curCtx) → (t.seqr l).ctx k = (s.seqr l).ctx k)
    ∧ ∀ l, (t.link l).tx = (s.link l).tx ∧ (t.link l).room = (s.link l).room ∧ (t.link l).rx = (s.link l).rx

/-- Memory holds the `n` low bytes of `v` at `pa`, and every other byte is as before. -/
def Stored (s t : State) (pa n v : Nat) : Prop :=
  ∀ y, t.byteAt y = if pa ≤ y ∧ y < pa + n then BitVec.ofNat 8 (v / 2 ^ (8 * (y - pa))) else s.byteAt y

/-- A fault of the instruction `i` at the address `va` with the access kind `kind`, in the state `r` that its reads have left; at which
level a walk stopped, none having been made, is open (log entry 21). -/
def SeqFaults (i : Instr) (s r : State) (cause va kind : Nat) : Prop := ∃ level, exec i s = .next (r.seqFault cause va kind level none)

/-- A destination register names a link and a peer that a context may send to (R366). -/
def DestOk (s : State) (v : W64) (dl peer : Nat) : Prop :=
  v.toNat = dl * 4096 + peer ∧ dl < 16 ∧ peer < 4096 ∧ (s.link dl).state = 2
    ∧ if (s.link dl).lmode = 2 then ∃ i ∈ List.range (s.link dl).nslot,
          (Tab.get .reset (s.link dl).slots i).sv = true ∧ (Tab.get .reset (s.link dl).slots i).speer = peer
      else (s.link dl).lpeer = peer

end Sys2Proof.Machine

/-- R363, R369, R370, R371: LDC and STC move eight bytes; WAITF goes on when the word meets its condition, or has met it at a write
since, and otherwise waits, with the word watched; SIGF writes a word and SIGF.ADD adds to one; SLOT reads device time where its
destination can transmit, or could since it began to wait, and else waits. A misaligned address, and poison that is read, fault, the
slate filled all the same (R71); FLEVEL of those faults is open (log entry 21). The values are said with no reduction pending. -/
def Obligations.SequencerMemoryAndFlags : Prop :=
  (∀ (s r : State) (d a pa : Nat) (imm : Int),
    let va := (s.ctx.reg a + BitVec.ofInt 64 imm).toNat
    (va % 8 ≠ 0 → SeqFaults (.ldc d a imm) s s 0x11 va 0)
    ∧ (va % 8 = 0 → s.seqXlat va 0 none = .ok (r, pa) → s.reds = [] →
      (r.rangePoisoned pa 8 = true → SeqFaults (.ldc d a imm) s (r.homeRead pa 8).1 0x15 va 0)
      ∧ (r.rangePoisoned pa 8 = false → ∃ t, exec (.ldc d a imm) s = .next t ∧ (∀ y, SameByte s t y)
        ∧ SeqAccess s t (s.ctx.setReg d (BitVec.ofNat 64 (s.read pa 8))))))
  ∧ (∀ (s r : State) (a b pa : Nat) (imm : Int),
    let va := (s.ctx.reg a + BitVec.ofInt 64 imm).toNat
    (va % 8 ≠ 0 → SeqFaults (.stc a b imm) s s 0x11 va 1)
    ∧ (va % 8 = 0 → s.seqXlat va 1 none = .ok (r, pa) → s.reds = [] →
      ∃ t, exec (.stc a b imm) s = .next t ∧ Stored s t pa 8 (s.ctx.reg b).toNat ∧ SeqAccess s t s.ctx))
  ∧ (∀ (s r : State) (a b cond pa : Nat),
    let va := (s.ctx.reg a).toNat
    let v : W32 := BitVec.ofNat 32 (s.read pa 4)
    let w : W32 := (s.ctx.reg b).setWidth 32
    let holds := (cond = 0 ∧ v = w) ∨ (cond = 1 ∧ v ≠ w) ∨ (cond = 2 ∧ w.toNat ≤ v.toNat) ∨ (cond = 3 ∧ w.toInt ≤ v.toInt)
    (s.ctx.met = true → ∃ t, exec (.waitf a b cond) s = .next t ∧ SeqLeaves s t s.ctx s.ctx.next)
    ∧ (s.ctx.met = false → 4 ≤ cond → ∃ n k v, exec (.waitf a b cond) s = .next (s.seqFault 0x10 n k v none))
    ∧ (s.ctx.met = false → cond < 4 → va % 4 ≠ 0 → SeqFaults (.waitf a b cond) s s 0x11 va 0)
    ∧ (s.ctx.met = false → cond < 4 → va % 4 = 0 → s.seqXlat va 0 none = .ok (r, pa) → s.reds = [] →
      (r.rangePoisoned pa 4 = true → SeqFaults (.waitf a b cond) s (r.homeRead pa 4).1 0x15 va 0)
      ∧ (r.rangePoisoned pa 4 = false →
        (holds → ∃ t, exec (.waitf a b cond) s = .next t ∧ (∀ y, SameByte s t y) ∧ SeqAccess s t s.ctx)
        ∧ (¬holds → ∃ t, exec (.waitf a b cond) s = .next t ∧ SeqWaits s t { s.ctx with watch := some (pa, cond, w) } .flag))))
  ∧ (∀ (s r : State) (a b pa : Nat),
    let va := (s.ctx.reg a).toNat
    (va % 4 ≠ 0 → SeqFaults (.sigf a b) s s 0x11 va 1 ∧ SeqFaults (.sigfAdd a b) s s 0x11 va 2)
    ∧ (va % 4 = 0 → s.seqXlat va 1 none = .ok (r, pa) → s.reds = [] →
      ∃ t, exec (.sigf a b) s = .next t ∧ Stored s t pa 4 (s.ctx.reg b).toNat ∧ SeqAccess s t s.ctx)
    ∧ (va % 4 = 0 → s.seqXlat va 2 none = .ok (r, pa) → s.reds = [] →
      (r.rangePoisoned pa 4 = true → SeqFaults (.sigfAdd a b) s (r.homeRead pa 4).1 0x15 va 2)
      ∧ (r.rangePoisoned pa 4 = false →
        ∃ t, exec (.sigfAdd a b) s = .next t ∧ Stored s t pa 4 (s.read pa 4 + (s.ctx.reg b).toNat) ∧ SeqAccess s t s.ctx)))
  ∧ (∀ (s : State) (d b dl peer : Nat), DestOk s (s.ctx.reg b) dl peer →
    let now := s.dtime / 2 ^ 16
    ((s.link dl).lmode ≠ 2 ∨ (s.link dl).sendsTo now = some peer →
      ∃ t, exec (.slot d b) s = .next t ∧ SeqLeaves s t (s.ctx.setReg d (BitVec.ofNat 64 now)) s.ctx.next)
    ∧ (s.ctx.met = false → (s.link dl).lmode = 2 → (s.link dl).sendsTo now ≠ some peer →
      exec (.slot d b) s = .next (s.seqWait (.slot dl peer))))
  ∧ (∀ (s : State) (d b : Nat), s.ctx.met = true →
    ∃ t, exec (.slot d b) s = .next t ∧ SeqLeaves s t (s.ctx.setReg d (BitVec.ofNat 64 (s.dtime / 2 ^ 16))) s.ctx.next)
  ∧ ∀ (s : State) (l k dl peer : Nat), ((s.seqr l).ctx k).st = .waiting → ((s.seqr l).ctx k).why = some (.slot dl peer) →
    (s.link dl).lmode = 2 → if (s.link dl).sendsTo (s.dtime / 2 ^ 16) = some peer then
        ((((s.wakeCtx l k).seqr l).ctx k).st = .running ∧ (((s.wakeCtx l k).seqr l).ctx k).met = true)
      else s.wakeCtx l k = s

namespace Sys2Proof.Machine

/-- A flit of a chunk. -/
def TxFlit.ofChunk (f : TxFlit) : Bool := match f.carry with | .chunk _ _ => true | _ => false

/-- The room for the chunk of the instruction: kept for it before, or there now (R367). -/
def RoomFound (s : State) (dl peer ch n : Nat) : Prop :=
  s.ctx.kept = some (dl, (s.link dl).roomKey peer ch, n) ∨ (s.ctx.kept = none ∧ n ≤ (s.link dl).roomFor peer ch)

/-- The rooms that the far ends have announced, but that one has `n` fewer. -/
def RoomLess (s t : State) (dl key n : Nat) : Prop :=
  ∀ l k, Tab.get 65536 (t.link l).room k =
    if l = dl ∧ k = key then Tab.get 65536 (s.link l).room k - n else Tab.get 65536 (s.link l).room k

/-- One chunk has been handed to channel `ch` of link `dl`: a header flit and one flit for each 64 bytes, consecutive, behind
what was there, out of the room that its far end had announced (R367, R372); no other link gets one. -/
def Handed (s t : State) (dl peer ch sz : Nat) (bs : List Byte) : Prop :=
  let n := 1 + 256 * 2 ^ sz / 64
  let carry := Carry.chunk (ctxName s.curLink s.curCtx) ⟨s.ownPeer.toNat, dl, sz, bs⟩
  (∀ l, (t.link l).tx.filter TxFlit.ofChunk = (s.link l).tx.filter TxFlit.ofChunk ++
    if l = dl then (List.range n).map fun i => ⟨0, ch, peer, peer, 0, decide (i = 0), decide (i + 1 = n), carry,
      (s.flitLoad carry (256 * 2 ^ sz) i).1, (s.flitLoad carry (256 * 2 ^ sz) i).2⟩
    else [])
    ∧ RoomLess s t dl ((s.link dl).roomKey peer ch) (if s.ctx.kept = none then 256 * 2 ^ sz else 0)

/-- No link is handed a chunk. -/
def NoneHanded (s t : State) : Prop :=
  (∀ l, (t.link l).tx.filter TxFlit.ofChunk = (s.link l).tx.filter TxFlit.ofChunk) ∧ RoomLess s t 0 0 0

/-- The chunk `h` stands at the head of a channel of the context's own link, for this context (R373). -/
def HeadFor (s : State) (ch : Nat) (h : Chunk) : Prop :=
  (Tab.get [] (s.link s.curLink).rx ch).head? = some h
    ∧ (Tab.find (s.link s.curLink).heldCh ch = some s.curCtx
      ∨ (Tab.find (s.link s.curLink).heldCh ch = none
        ∧ ((s.seqr s.curLink).firstAt ch = none ∨ (s.seqr s.curLink).firstAt ch = some s.curCtx)))

/-- The receive buffers are as before, but that the head of `ch` has been taken when `taken`. -/
def Buffers (s t : State) (ch : Nat) (taken : Bool) : Prop :=
  ∀ l c, Tab.get [] (t.link l).rx c =
    if taken ∧ l = s.curLink ∧ c = ch then (Tab.get [] (s.link l).rx c).drop 1 else Tab.get [] (s.link l).rx c

/-- The context after a chunk instruction on a channel: the peer of a chunk that it took, and the link that it sends on, for which
no room is kept any more. -/
def Ctx.used (x : Ctx) (ch : Nat) (h : Option Chunk) (dl : Option Nat) : Ctx :=
  { x with
    lastCh := some ch
    last := match h with | some c => BitVec.ofNat 64 c.peer | none => x.last
    held := if h.isSome then false else x.held
    sending := match dl with | some l => some l | none => x.sending
    kept := if dl.isSome then none else x.kept }

/-- Memory of `n` bytes at `pa` holds the bytes, and every other byte is as before. -/
def Placed (s t : State) (pa : Nat) (bs : List Byte) : Prop :=
  ∀ y, t.byteAt y = if pa ≤ y ∧ y < pa + bs.length then bs.getD (y - pa) 0 else s.byteAt y

/-- `y` is the combination of R368 of the bytes at `pa` with those of a chunk, element by element. -/
def Combined (s : State) (op rm pa : Nat) (x y : List Byte) : Prop :=
  let w := rmwWidth op
  y.length = x.length ∧ ∀ i, i < x.length / w → leBytes ((y.drop (w * i)).take w) =
    rmwNew op rm false (s.read (pa + w * i) w) (leBytes ((x.drop (w * i)).take w)) 0 % 2 ^ (8 * w)

end Sys2Proof.Machine

/-- R366, R367, R368, R372, R373, R378: the chunk instructions, where their checks pass. SEND hands a chunk of memory to a link,
RECV writes the head chunk to memory, RCOMB combines it there, RCFWD hands on the combination, and with W keeps it too, and RFWD
hands on the head chunk, and with W writes it too. A transmitting instruction without room waits and has changed nothing; one whose
head has not come waits at the head, a forwarding one with its room kept; a head of another size faults, and so does poison that is
to be sent or combined. A fault leaves the context faulted at its instruction, with its cause and its head chunk held, and changes
no register and no memory; the fields that its cause does not name are open (log entry 21). Values are said with no reduction
pending. -/
def Obligations.ChunkInstructionsMoveChunks : Prop :=
  (∀ (s r : State) (ch sz a b dl peer va pa : Nat), DestOk s (s.ctx.reg b) dl peer → sz < 9 →
    s.seqBuffer a sz [0] none = .ok (r, va, pa) → s.reds = [] →
    (s.ctx.kept = none → (s.link dl).roomFor peer ch < 256 * 2 ^ sz →
      ∃ t, exec (.send ch sz a b) s = .next t ∧ SeqWaits s t s.ctx (.room dl ((s.link dl).roomKey peer ch) (256 * 2 ^ sz)))
    ∧ (RoomFound s dl peer ch (256 * 2 ^ sz) → r.rangePoisoned pa (256 * 2 ^ sz) = true →
      ∃ (k : State) (level : Nat), exec (.send ch sz a b) s = .next (k.seqFault 0x15 va 0 level none)
        ∧ k.ctx.cpc = s.ctx.cpc ∧ ∀ l, (k.link l).tx = (s.link l).tx)
    ∧ (RoomFound s dl peer ch (256 * 2 ^ sz) → r.rangePoisoned pa (256 * 2 ^ sz) = false →
      ∃ t, exec (.send ch sz a b) s = .next t ∧ Handed s t dl peer ch sz (s.bytesAt pa (256 * 2 ^ sz)) ∧ Buffers s t ch false
        ∧ SeqAccess s t (s.ctx.used ch none (some dl)) ∧ ∀ y, SameByte s t y))
  ∧ (∀ (s k : State) (ch sz a b op rm : Nat) (w : Bool), Tab.get [] (s.link s.curLink).rx ch = [] →
    exec (.recv ch sz a) s = .next (seqStopped s (.head ch)) ∧ exec (.rcomb ch sz a op rm) s = .next (seqStopped s (.head ch))
      ∧ (forwardRoom s b ch sz = .ok k → exec (.rcfwd ch sz a b op rm w) s = .next (seqStopped k (.head ch))
        ∧ exec (.rfwd ch sz a b w) s = .next (seqStopped k (.head ch))))
  ∧ (∀ (s r : State) (ch sz a va pa op rm : Nat) (h : Chunk), HeadFor s ch h → h.bytes.length = 256 * 2 ^ sz →
    (h.size ≠ sz → ∃ n k level, exec (.recv ch sz a) s = .next (s.seqFault 0x12 n k level (some ch))
      ∧ exec (.rcomb ch sz a op rm) s = .next (s.seqFault 0x12 n k level (some ch)))
    ∧ (h.size = sz → s.seqBuffer a sz [1] (some ch) = .ok (r, va, pa) → s.reds = [] →
      ∃ t, exec (.recv ch sz a) s = .next t ∧ Placed s t pa h.bytes ∧ Buffers s t ch true ∧ NoneHanded s t
        ∧ SeqAccess s t (s.ctx.used ch (some h) none))
    ∧ (h.size = sz → s.seqBuffer a sz [0, 1] (some ch) = .ok (r, va, pa) → s.reds = [] →
      r.rangePoisoned pa (256 * 2 ^ sz) = false →
      ∃ t y, exec (.rcomb ch sz a op rm) s = .next t ∧ Combined s op rm pa h.bytes y ∧ Placed s t pa y ∧ Buffers s t ch true
        ∧ NoneHanded s t ∧ SeqAccess s t (s.ctx.used ch (some h) none)))
  ∧ (∀ (s k r : State) (ch sz a b dl peer va pa op rm : Nat) (w : Bool) (h : Chunk), DestOk s (s.ctx.reg b) dl peer →
    (s.ctx.kept = none → (s.link dl).roomFor peer ch < 256 * 2 ^ sz →
      let why := CtxWait.room dl ((s.link dl).roomKey peer ch) (256 * 2 ^ sz)
      (∃ t, exec (.rcfwd ch sz a b op rm w) s = .next t ∧ SeqWaits s t s.ctx why)
      ∧ ∃ t, exec (.rfwd ch sz a b w) s = .next t ∧ SeqWaits s t s.ctx why)
    ∧ (RoomFound s dl peer ch (256 * 2 ^ sz) → forwardRoom s b ch sz = .ok k → HeadFor s ch h → h.bytes.length = 256 * 2 ^ sz →
      h.size = sz → s.reds = [] →
      (k.seqBuffer a sz (if w then [0, 1] else [0]) (some ch) = .ok (r, va, pa) →
        r.rangePoisoned pa (256 * 2 ^ sz) = false →
        ∃ t y, exec (.rcfwd ch sz a b op rm w) s = .next t ∧ Combined s op rm pa h.bytes y ∧ Handed s t dl peer ch sz y
          ∧ (if w then Placed s t pa y else ∀ z, SameByte s t z) ∧ Buffers s t ch true
          ∧ SeqAccess s t (s.ctx.used ch (some h) (some dl)))
      ∧ ((w = true → k.seqBuffer a sz [1] (some ch) = .ok (r, va, pa)) →
        ∃ t, exec (.rfwd ch sz a b w) s = .next t ∧ Handed s t dl peer ch sz h.bytes
          ∧ (if w then Placed s t pa h.bytes else ∀ z, SameByte s t z) ∧ Buffers s t ch true
          ∧ SeqAccess s t (s.ctx.used ch (some h) (some dl)))))
  ∧ ∀ (s : State) (cause addr kind level : Nat) (head : Option Nat),
    let t := s.seqFault cause addr kind level head
    t.ctx.st = .faulted ∧ t.ctx.cpc = s.ctx.cpc ∧ t.ctx.cause = cause ∧ t.ctx.faddr = BitVec.ofNat 64 addr ∧ t.ctx.fkind = kind
      ∧ t.ctx.flevel = level ∧ t.ctx.kept = none ∧ (∀ r, t.ctx.reg r = s.ctx.reg r) ∧ SameMemory s t ∧ t.wgs = s.wgs
      ∧ (∀ l, (t.link l).tx = (s.link l).tx) ∧ (∀ ch, Buffers s t ch false)
      ∧ (∀ l k, Tab.get 65536 (t.link l).room k = Tab.get 65536 (s.link l).room k
          + (match s.ctx.kept with | some (j, key, n) => if l = j ∧ k = key then n else 0 | none => 0))
      ∧ (∀ l k, (l, k) ≠ (s.curLink, s.curCtx) → (t.seqr l).ctx k = (s.seqr l).ctx k)
      ∧ ∀ ch h, head = some ch → (Tab.get [] (s.link s.curLink).rx ch).head? = some h → t.ctx.held = true ∧ t.ctx.hch = ch
        ∧ t.ctx.hsz = h.size ∧ t.ctx.hpeer = h.peer ∧ t.ctx.hlink = h.link
        ∧ Tab.find (t.link s.curLink).heldCh ch = some s.curCtx

-- ## The machine: fetch, step, encoding, reset, invariants

namespace Sys2Proof.Machine

/-- The course that issues stands inside a repetition (R255). -/
def InRepetition (s : State) (i : Instr) : Prop := (∃ n a b c, i = .rep n a b c) ∧ s.cur.repAct = true ∧ s.cur.repDone < s.cur.repCount

/-- The state in which the course `c` of workgroup `u` issues. -/
def State.issuing (s : State) (u c : Nat) : State :=
  ({ s with curWg := u, curCrs := c, seqTurn := true } : State).setCrs u c { s.crs u c with tried := s.steps }

end Sys2Proof.Machine

/-- A step performs what the bytes say. Where the words at the program counter of the course that issues decode to an
instruction, the step is the meaning of that instruction in the state of the fetch, which leaves memory and every course as
they are; a sequencer's step is that of the word at its context's counter in instruction memory; an event of the outside
world is performed as it stands, and so is one of the machine's own that is due; an error of the arrays is met where a read can meet
it. Each is followed by what closes every step. A word that is no instruction of a sequencer faults, and so
does one whose bits were lost (R360, R377). A course with a poisoned unit of its reserved strip that the fetch reads takes the
memory-error trap (R91), and a sender whose mailbox was bound anew the mailbox trap (R391). The first part is said of words whose
pages do not count their uses, with no reduction pending. The order in which the agents act (the agenda first, an error of the
arrays that can be met, then instructions and events in turn, each freely picked of what may be performed) is the model's choice:
log entries 1 and 56. -/
def Obligations.StepRunsTheDecodedInstruction : Prop :=
  (∀ (s : State) (ws : List W32) (pas : List Nat) (i : Instr), s.reds = [] → ws.length ≤ 3 → pas.length = ws.length →
    (pas.map (· / 4)).Nodup →
    (∀ k w pa, ws[k]? = some w → pas[k]? = some pa → WordAt s (s.cur.pc.toNat + 4 * k) pa w) →
    decodeCore ws = .ok i → i.size = 4 * ws.length →
    (∀ k, 0 < k → k < ws.length → decodeCore (ws.take k) = .error .missingWord) → ¬InRepetition s i →
    ∃ x, nextInstr s = .ok (x, i, false) ∧ (∀ y, SameByte s x y) ∧ x.wgs = s.wgs
      ∧ ((∀ n, s.cur.stripBad n = false) → issueFetch s = .ok (x, i, false)))
  ∧ (∀ s : State, s.cur.stripBad controlUnit = true →
    issueFetch s = .error (.trap { code := 0x0A, lane := (lanesOf s.cur.exec).headD 63, arr := 1 }))
  ∧ (∀ (s x : State) (u c : Nat) (i : Instr) (r : Bool), s.agenda = [] → s.fatal = false → s.bootStop = false →
    s.takeUpset = none → s.steps % 2 = 0 → s.pickIssuer = some (u, c) → (s.pickSeq = none ∨ s.seqTurn = false) →
    (s.issuing u c).timerDue u c = false →
    ((s.crs u c).wait ≠ some .unbound → issueFetch (s.issuing u c) = .ok (x, i, r) →
      step s = andThen (exec i { x with inRep := r }) fun t => .next (s.closeStep .course (some i) t))
    ∧ ((s.crs u c).wait = some .unbound →
      step s = .next (s.closeStep .course none (takeTrap (s.issuing u c) u c { code := 0x0D }))))
  ∧ (∀ (s : State) (l : Nat) (i : Instr), s.agenda = [] → s.fatal = false → s.bootStop = false →
    s.takeUpset = none → s.steps % 2 = 0 → s.pickSeq = some l → (s.pickIssuer = none ∨ s.seqTurn = true) →
    let q := s.seqr l
    let w := Tab.get 0 q.imem ((q.ctx q.turn).cpc / 4)
    let t := { s with curLink := l, curCtx := q.turn, seqTurn := false }
    (Tab.get false q.broken ((q.ctx q.turn).cpc / 4) = false →
      (decodeSeq w = .ok i → step s = andThen (exec i t) fun u => .next (s.closeStep .seq (some i) u))
      ∧ (∀ e, decodeSeq w = .error e → ∃ n k v, step s = .next (s.closeStep .seq none (t.seqFault 0x10 n k v none))))
    ∧ (Tab.get false q.broken ((q.ctx q.turn).cpc / 4) = true → ∃ n k v, step s = .next (s.closeStep .seq none
        ((t.mapSeqr fun y => { y with iecc := true }).seqFault 0x16 n k v none))))
  ∧ (∀ s t : State, s.agenda = [] → s.fatal = false → s.bootStop = false → s.takeUpset = some t →
    step s = .next (s.closeStep .event none t))
  ∧ (∀ (s x : State) (i : Instr), s.agenda = [] → s.fatal = false → s.bootStop = false → s.takeUpset = none → s.steps % 2 = 1 →
    (pickFrom s.options (Config.choice s.steps) = some (.run .event i x) →
      step s = andThen (exec i x) fun t => .next (s.closeStep .event (some i) t))
    ∧ (pickFrom s.options (Config.choice s.steps) = some (.done .event x) → step s = .next (s.closeStep .event none x)))
  ∧ (∀ (s : State) (i : Instr), i ∈ s.due → Plan.run .event i s ∈ s.options)
  ∧ ∀ (s : State) (i : Instr) (r : List Instr), s.agenda = i :: r → s.fatal = false →
    step s = andThen (exec i { s with agenda := r }) fun t => .next (s.closeStep .event (some i) t)

/-- R235, R301, R304, R359: words that the manual writes out beside their assembly decode to the instruction that they stand
for; a word with an unassigned opcode or a field set that the instruction leaves zero is refused, and one that needs a
further word is not whole without it. -/
def Obligations.WordsDecodeAsTheTablesSay : Prop :=
  decodeCore [0x2006080A] = .ok (.iadd (.v 3) (.v 4) (.v 5) false)
  ∧ decodeCore [0x498B8BFF] = .ok (.iaddi (.s 5) (.s 5) (-1))
  ∧ decodeCore [0xB0120434, 0x40] = .ok (.ld none (.v 9) (.v 2) 6 (some 0x40))
  ∧ decodeCore [0x1E084400] = .ok (.rep (.imm 4) 2 2 0)
  ∧ decodeCore [0x50281186] = .ok (.fadd (.v 20) (.v 8) (.s 3) false)
  ∧ decodeCore [0x8422000A] = .ok (.icmpi 1 2 (.v 0) 10)
  ∧ decodeCore [0x04400006] = .ok (.brd 1 6)
  ∧ decodeCore [0x023FFFFB] = .ok (.br (-5))
  ∧ decodeCore [0x4E040000, 7] = .ok (.lit (.v 2) false 7)
  ∧ decodeCore [0xAC002600] = .ok (.srd (.v 0) 0x13)
  ∧ decodeCore [0xC6680000, 0xB38F8030] = .ok (.st (some ⟨.rel, .sys, 0⟩) (.s 7) (.s 0) 6 none 0)
  ∧ decodeCore [0xC6360000] = .ok (.fence .sc .dev)
  ∧ decodeCore [0xC9810200] = .ok (.barSync (.s 0) 1)
  ∧ decodeCore [0xD0203EA4, 0xFC00] = .ok (.spill (.v 16) (.v 31) 20 (some 0xFC00))
  ∧ decodeCore [0xD7982800] = .ok (.mbsend (.s 12) (.v 20))
  ∧ decodeCore [0xDC000000, 2] = .ok (.oclm 0 3)
  ∧ decodeCore [0xD8000002, 0x1080] = .ok (.mma 0 0 (.slot 1) 0 0 2 true)
  ∧ decodeCore [0xEC01B000, 0x40] = .ok (.cpyo (.s 24) 0 true 0 false)
  ∧ decodeSeq 0x31440008 = .ok (.ldc 5 1 8) ∧ decodeSeq 0x2A000001 = .ok (.li 8 1) ∧ decodeSeq 0x40160000 = .ok (.waitf 5 8 0)
  ∧ decodeSeq 0x60047000 = .ok (.send 0 0 4 7) ∧ decodeSeq 0x665E0000 = .ok (.recv 2 5 14) ∧ decodeSeq 0x68040000 = .ok (.rcomb 0 0 4 0 0)
  ∧ decodeSeq 0x441A0000 = .ok (.sigf 6 8) ∧ decodeSeq 0x04000000 = .ok .halt
  ∧ decodeCore [0xF8000000] = .error .reservedOpcode ∧ decodeCore [0x00000001] = .error .badField
  ∧ decodeSeq 0x1C000000 = .error .reservedOpcode
  ∧ decodeCore [0x4E040000] = .error .missingWord ∧ decodeCore [0xDC000000] = .error .missingWord

/-- Decoding and encoding agree. For every well-formed instruction of the cores the decoder reads its words back, with every
operand at every value that the encoding admits and whatever words follow, and no shorter run of its words is whole; the same
for the one word of a sequencer instruction. And the decoders accept nothing else: what they read is well-formed, and its
encoding is the words that they read. -/
def Obligations.DecodingInvertsEncoding : Prop :=
  (∀ (i : Instr) (rest : List W32), i.wf = true → i.isCore = true →
    decodeCore (encodeCore i ++ rest) = .ok i
      ∧ ∀ k, 0 < k → k < (encodeCore i).length → decodeCore ((encodeCore i).take k) = .error .missingWord)
  ∧ (∀ i : Instr, i.wf = true → i.isSeq = true → ∃ w, encodeSeq i = [w] ∧ decodeSeq w = .ok i)
  ∧ (∀ (ws : List W32) (i : Instr), decodeCore ws = .ok i → i.wf = true ∧ ∃ rest, ws = encodeCore i ++ rest)
  ∧ ∀ (w : W32) (i : Instr), decodeSeq w = .ok i → i.wf = true ∧ encodeSeq i = [w]

/-- Every step keeps the invariant: no repetition is marked as under way between steps, and every egress entry knows the
workgroup whose ring it serves (R415, R416). And time never runs back: device time does not fall, and the count of steps
grows by one. -/
def Obligations.EveryStepKeepsTheInvariant : Prop :=
  ∀ s t : State, s.Inv → step s = .next t → t.Inv ∧ s.dtime ≤ t.dtime ∧ t.steps = s.steps + 1

/-- R357 and the Reset column of R44, R96, R97, R192, R208, R358, R388, R404 and R408: right after module reset every context of
every sequencer is idle, every link is off with its registers and slots zero, every queue is disabled, the translation registers,
the debug registers, the counters, the reservation entries, the eaves' window registers, OWNPEER and the route entries are zero, no
workgroup, grid or collective exists, and the invariant holds. After a fatal error the module stops until a reset (R411), and after
a failed boot the firmware does not start (R418). That a step then faults, after a fatal error unless it is the reset's own BOOT,
and after a failed boot where the outside world has nothing to do, is the model's reading: log entry 52. -/
def Obligations.ResetAndWhatWaitsForIt : Prop :=
  State.reset.Inv
  ∧ (∀ l k, ((State.reset.seqr l).ctx k).st = .idle ∧ ∀ r, ((State.reset.seqr l).ctx k).reg r = 0)
  ∧ (∀ l, (State.reset.link l).lmode = 0 ∧ (State.reset.link l).state = 0 ∧ (State.reset.link l).groups = 0
      ∧ (State.reset.link l).drain = false ∧ (State.reset.link l).lpeer = 0 ∧ (State.reset.link l).nslot = 0
      ∧ (State.reset.link l).t0 = 0 ∧ (State.reset.link l).crcth = 0)
  ∧ (∀ q, (State.reset.queue q).qen = false ∧ (State.reset.queue q).qstate = 0 ∧ (State.reset.queue q).rp = 0)
  ∧ (∀ d, let x := State.reset.die d
      x.iva = 0 ∧ x.iscope = 0 ∧ x.running = none ∧ x.invDone = 0 ∧ x.bad = false ∧ x.mqbase = 0 ∧ x.mqsize = 0 ∧ x.mqhead = 0
      ∧ x.mqtail = 0 ∧ (∀ i, Tab.get 0 x.thresh i = (0 : W32)) ∧ x.dbg = Dbg.reset ∧ ∀ n, Tab.get .reset x.ctrs n = Counter.reset)
  ∧ (∀ k n, Tab.get .reset (State.reset.core k).ctrs n = Counter.reset)
  ∧ (∀ l n, Tab.get .reset (State.reset.link l).ctrs n = Counter.reset ∧ Tab.get .reset (State.reset.link l).slots n = RotSlot.reset)
  ∧ (∀ n, Tab.get .reset State.reset.resv n = Resv.reset)
  ∧ State.reset.ownPeer = 0 ∧ (∀ p, Tab.get 0 State.reset.routes p = (0 : W32))
  ∧ (∀ m, (State.reset.mbox m).binding = 0) ∧ (∀ k, (State.reset.eave k).epi = 0 ∧ (State.reset.eave k).ewdog = 0
      ∧ ∀ n, Tab.get 0 (State.reset.eave k).vbase n = (0 : W64) ∧ Tab.get 0 (State.reset.eave k).wctl n = (0 : W64))
  ∧ State.reset.wgs = [] ∧ State.reset.grids = [] ∧ State.reset.colls = []
  ∧ (∀ s : State, s.fatal = true → (∀ im key, s.agenda.head? ≠ some (.boot im key)) → step s = .fault .awaitingReset)
  ∧ ∀ s : State, s.bootStop = true → s.fatal = false → s.agenda = [] → step s = .fault .bootStopped

-- ## Events: translation

namespace Sys2Proof.Machine

/-- Only one die's registers and queues have changed. -/
def OnlyDie (s t : State) (d : Nat) : Prop := t = { s with dies := t.dies } ∧ ∀ j, j ≠ d → t.die j = s.die j

/-- The entries of a translation cache that an invalidation's scope leaves (R45). -/
def LeftBy (v : InvScope) (l : List TlbE) : List TlbE := l.filter fun e => !v.covers e.asn e.page e.big

/-- The place of the entry that a walk reads in a table of a level (R28). -/
def entryPlace (va table level : Nat) : Nat :=
  table + (if level = 3 then bits va 53 46 else if level = 2 then bits va 45 36 else if level = 1 then bits va 35 26
    else bits va 25 16) * 8

/-- The entry of a page table that a walk reads at a level: it is free of poison, and memory holds `e` there. -/
def EntryAt (s : State) (va table level e : Nat) : Prop :=
  let a := entryPlace va table level
  s.poisoned a = false ∧ Tab.get false s.under (a / 32) = false ∧ s.read a 8 = e

/-- The entry that a walk reads at a level is poisoned, in the slate that holds it and in its stack. -/
def EntryLost (s : State) (va table level : Nat) : Prop :=
  let a := entryPlace va table level
  s.poisoned a = true ∧ (Tab.find s.tags (a / 1024) = none ∨ Tab.get false s.under (a / 32) = true)

/-- A table entry that leads on, and where to (R29, R34). -/
def LeadsOn (e : Nat) : Prop :=
  bit e 0 = true ∧ bit e 1 = false ∧ bits e 12 2 = 0 ∧ bits e 63 48 = 0 ∧ inStack (bits e 47 13 * 2 ^ 13) = true

/-- The entries that a walk reads from a table of a level down, each but the last leading to the next table (R34). -/
def WalkReads (s : State) (va : Nat) : List Nat → Nat → Nat → Prop
  | [], _, _ => False
  | [e], table, level => EntryAt s va table level e
  | e :: r, table, level =>
    EntryAt s va table level e ∧ LeadsOn e ∧ 0 < level ∧ WalkReads s va r (bits e 47 13 * 2 ^ 13) (level - 1)

/-- A leaf that is malformed at its level in the module `own` (R31). -/
def LeafBad (own e level : Nat) : Prop :=
  bits e 15 13 ≠ 0 ∨ bits e 63 60 ≠ 0 ∨ 2 ≤ level ∨ (level = 1 ∧ bits e 25 16 ≠ 0) ∨ (bits e 3 2 = 0 ∧ bits e 59 48 ≠ 0)
    ∨ ((bits e 3 2 = 1 ∨ bits e 3 2 = 2) ∧ bits e 59 48 = own) ∨ (bits e 3 2 = 2 ∧ (bit e 5 = true ∨ bit e 7 = true))
    ∨ (bits e 3 2 ≠ 3 ∧ bits e 11 8 ≠ 0)

/-- The page of a leaf resolves remote in the module `own` (R32). -/
def LeafFar (own e : Nat) : Prop := bits e 3 2 = 1 ∨ bits e 3 2 = 2 ∨ (bits e 3 2 = 3 ∧ bits e 59 48 ≠ own)

/-- The cause with which an access of a kind fails the permissions of a leaf (R33), kinds in the order read, write, atomic, execute,
column read, column write (R49). -/
def Denies (own e kind : Nat) (c : Option Nat) : Prop :=
  (((kind = 0 ∨ kind = 4) ∧ bit e 4 = false) → c = some 7)
  ∧ (((kind = 1 ∨ kind = 5) ∧ bit e 5 = false) → c = some 8)
  ∧ ((kind = 2 ∧ (bit e 4 = false ∨ bit e 5 = false ∨ bit e 7 = false)) → c = some 9)
  ∧ ((kind = 3 ∧ bit e 6 = false) → c = some 10)
  ∧ (((kind = 3 ∧ bit e 6 = true) ∨ (kind = 4 ∧ bit e 4 = true) ∨ (kind = 5 ∧ bit e 5 = true)) →
      (LeafFar own e → c = some 11) ∧ (¬LeafFar own e → c = none))
  ∧ (((kind = 0 ∧ bit e 4 = true) ∨ (kind = 1 ∧ bit e 5 = true) ∨ (kind = 2 ∧ bit e 4 = true ∧ bit e 5 = true ∧ bit e 7 = true)) →
      c = none)

/-- The address that a leaf of a level gives, and where it lies (R32, R34). -/
def XlatIs (own e level va : Nat) (x : Xlat) : Prop :=
  x.pa = bits e 47 16 * 2 ^ 16 + va % (if level = 1 then 2 ^ 26 else 2 ^ 16) ∧ x.peer = bits e 59 48 ∧ (x.big = true ↔ level = 1)
    ∧ (x.res = .here ↔ ¬LeafFar own e) ∧ (x.res = .cached ↔ bits e 3 2 = 2)

end Sys2Proof.Machine

/-- R28, R31 to R34 and R50: what a walk gives, whatever the tables hold, and what a lookup of its entry gives. Causes stand in the
order of R34: an address past the 54 bits, a root outside stack memory; then of the entry that ends the walk whether it can be read,
whether it is valid, whether it is well formed, held, within stack memory, and the permissions before the resolution. It changes no
byte of memory. The agents of translation (R37, R38, R41, R43 to R46): a die's walk fills the translation cache that missed, where it has
room, parks at a held leaf, or leaves its fault for the accesses that missed; parked walks restart, or fault HELD after 10 ms. GO
starts an invalidation, queues it behind the one that runs, or is refused with BAD; its completion removes exactly the entries of
its scope from every translation cache and counts. A migration record goes into the ring where it has room; a move of the tail
lets pages count again. Said with no reduction pending. That a refused GO leaves its fields as they were, and how MQHEAD and MQTAIL
wrap and when the ring has room, are the model's choice: log entries 69 and 16. -/
def Obligations.TranslationEventsFollowTheRules : Prop :=
  (∀ (s : State) (root va kind : Nat), s.reds = [] → kind ≤ 5 →
    let own := s.ownPeer.toNat
    let r := walkVA s root va kind
    (∀ y, SameByte s r.1 y) ∧ r.1.wgs = s.wgs
    ∧ (2 ^ 54 ≤ va → r.2 = .fault ⟨1, 3, false⟩)
    ∧ (va < 2 ^ 54 → inStack root = false → r.2 = .fault ⟨5, 3, false⟩)
    ∧ (va < 2 ^ 54 → inStack root = true → root % 8192 = 0 →
      ∀ (es : List Nat) (e level : Nat), es.length + level = 3 → WalkReads s va (es ++ [e]) root 3 →
        (bit e 0 = false → r.2 = .fault ⟨3, level, false⟩)
        ∧ (bit e 0 = true → bit e 1 = false →
          (level = 0 ∨ bits e 12 2 ≠ 0 ∨ bits e 63 48 ≠ 0 → r.2 = .fault ⟨4, level, false⟩)
          ∧ (0 < level → bits e 12 2 = 0 → bits e 63 48 = 0 → inStack (bits e 47 13 * 2 ^ 13) = false → r.2 = .fault ⟨5, level, false⟩))
        ∧ (bit e 0 = true → bit e 1 = true →
          let big := decide (level = 1)
          (LeafBad own e level → r.2 = .fault ⟨4, level, big⟩)
          ∧ (¬LeafBad own e level → bit e 12 = true → r.2 = .held level)
          ∧ (¬LeafBad own e level → bit e 12 = false → ∀ x, XlatIs own e level va x → inStack x.pa = false →
            r.2 = .fault ⟨5, level, big⟩)
          ∧ (¬LeafBad own e level → bit e 12 = false → ∀ x, XlatIs own e level va x → inStack x.pa = true →
            ∀ c, Denies own e kind c → match c with
              | some n => r.2 = .fault ⟨n, level, big⟩
              | none => ∃ tables, r.2 = .leaf e level tables)
        ∧ (LeadsOn e → 0 < level → EntryLost s va (bits e 47 13 * 2 ^ 13) (level - 1) → r.2 = .fault ⟨2, level - 1, false⟩)))
    ∧ (va < 2 ^ 54 → inStack root = true → EntryLost s va root 3 → r.2 = .fault ⟨2, 3, false⟩))
  ∧ (∀ (s : State) (d : Die) (m : Miss), (∀ e ∈ d.wcache, e.asn ≠ m.asn) → dieWalk s d m = walkVA s m.root m.va m.kind)
  ∧ (∀ (s : State) (k asn va kind e level : Nat), e < 2 ^ 64 → kind ≤ 5 → level ≤ 1 → va < 2 ^ 54 →
    (s.tlbOf k).filter (fun x => x.covers asn va) = [tlbEntry asn va e level] →
    ∀ c, Denies s.ownPeer.toNat e kind c → match c with
      | some n => lookup s k asn va kind = .fault ⟨n, level, decide (level = 1)⟩
      | none => ∃ x, lookup s k asn va kind = .ok x e ∧ XlatIs s.ownPeer.toNat e level va x)
  ∧ (∀ (s : State) (k asn va kind : Nat), 2 ^ 54 ≤ va → lookup s k asn va kind = .fault ⟨1, 3, false⟩) ∧
  (∀ (s u : State) (d : Nat) (m : Miss) (r : List Miss), (s.die d).walks = m :: r → (s.die d).parked.length < walkers d →
    walkDie m.core = d → m.core ≤ ioUnit → s.reds = [] →
    let x := s.setDie d { s.die d with walks := r }
    (∀ e level tables, dieWalk x (s.die d) m = (u, .leaf e level tables) → (s.tlbOf m.core).length < tlbSize m.core →
      ∃ t, exec (.walk d) s = .next t ∧ (∀ y, SameByte s t y) ∧ t.wgs = s.wgs ∧ t.wfaults = s.wfaults ∧ (t.die d).walks = r
        ∧ (t.die d).parked = (s.die d).parked ∧ tlbEntry m.asn m.va e level ∈ t.tlbOf m.core
        ∧ (tlbEntry m.asn m.va e level).covers m.asn m.va = true ∧ ∀ k ≤ ioUnit, k ≠ m.core → t.tlbOf k = s.tlbOf k)
    ∧ (∀ level, dieWalk x (s.die d) m = (u, .held level) → ∃ t, exec (.walk d) s = .next t ∧ (∀ y, SameByte s t y) ∧ t.wgs = s.wgs
      ∧ t.wfaults = s.wfaults ∧ (t.die d).walks = r ∧ (∀ k, t.tlbOf k = s.tlbOf k)
      ∧ ∃ p, (t.die d).parked = (s.die d).parked ++ [p] ∧ p.va = m.va ∧ p.asn = m.asn ∧ p.core = m.core ∧ p.who = m.who
        ∧ p.level = level)
    ∧ (∀ f, dieWalk x (s.die d) m = (u, .fault f) → ∃ t, exec (.walk d) s = .next t ∧ (∀ y, SameByte s t y) ∧ t.wgs = s.wgs
      ∧ (t.die d).walks = r ∧ (t.die d).parked = (s.die d).parked ∧ (∀ k, t.tlbOf k = s.tlbOf k)
      ∧ t.wfaults = s.wfaults ++ [⟨m.core, m.asn, m.va, m.kind, f.cause, f.level, f.big, m.who⟩]))
  ∧ (∀ (s : State) (d : Nat), ∃ t, exec (.walkRestart d) s = .next t ∧ OnlyDie s t d
      ∧ (t.die d).walks = (s.die d).parked ++ (s.die d).walks ∧ (t.die d).parked = [])
  ∧ (∀ (s : State) (d : Nat) (m : Miss), ((s.die d).parked.find? fun m => decide (m.since + 10000000 * 2 ^ 16 ≤ s.dtime)) = some m →
    ∃ t, exec (.walkHeldTimeout d) s = .next t ∧ OnlyDie s { t with wfaults := s.wfaults } d ∧ m ∉ (t.die d).parked
      ∧ (t.die d).walks = (s.die d).walks
      ∧ t.wfaults = s.wfaults ++ [⟨m.core, m.asn, m.va, m.kind, causeHeld, m.level, decide (m.level = 1), m.who⟩])
  ∧ (∀ (s : State) (d : Nat) (word : W64),
    let x := s.die d
    let w := word.toNat
    let v : InvScope := ⟨bits w 9 8, bits w 7 0, bits x.iva.toNat 53 16, bits w 31 16⟩
    let good := bits w 15 10 = 0 ∧ bits w 63 33 = 0 ∧ bits w 9 8 ≠ 3 ∧ (bits w 9 8 = 2 → bits w 31 16 ≠ 0)
    ∃ t, exec (.invalidate d word) s = .next t ∧ OnlyDie s t d
      ∧ (¬good → t.die d = { x with bad := true })
      ∧ (good → x.running = none → (t.die d).running = some v ∧ (t.die d).queued = x.queued ∧ (t.die d).bad = x.bad)
      ∧ (good → x.running ≠ none → x.queued.length < 4 → (t.die d).queued = x.queued ++ [v] ∧ (t.die d).running = x.running
          ∧ (t.die d).bad = x.bad)
      ∧ (good → x.running ≠ none → 4 ≤ x.queued.length → (t.die d).bad = true ∧ (t.die d).queued = x.queued))
  ∧ (∀ (s : State) (d : Nat) (v : InvScope), (s.die d).running = some v → s.reds = [] →
    (∀ w ∈ s.wgs, v.touches w.2.asn = true → s.drained w.1 = true) →
    ∃ t, exec (.invalidationComplete d) s = .next t ∧ SameMemory s t ∧ t.wgs = s.wgs
      ∧ (∀ k, (t.core k).tlb = LeftBy v (s.core k).tlb) ∧ (∀ l, (t.seqr l).tlb = LeftBy v (s.seqr l).tlb)
      ∧ t.ioTlb = LeftBy v s.ioTlb ∧ t.copies = [] ∧ (∀ j, (t.die j).parked = [])
      ∧ (t.die d).invDone = (s.die d).invDone + 1 ∧ (t.die d).running = (s.die d).queued.head?
      ∧ (t.die d).queued = (s.die d).queued.tail)
  ∧ (∀ (s : State) (d v : Nat), ∃ t, exec (.mqtailWrite d v) s = .next t ∧ OnlyDie s t d ∧ (t.die d).mqtail = BitVec.ofNat 16 v
      ∧ (t.die d).mqhead = (s.die d).mqhead ∧ (t.die d).mig.length = (s.die d).mig.length
      ∧ ∀ (k : Nat) (m : MigE), (s.die d).mig[k]? = some m → (t.die d).mig[k]? = some
          (if m.queued = true ∧ freedBy (s.die d).mqsize.toNat (s.die d).mqtail.toNat v m.index = true then
            { m with queued := false } else m))
  ∧ ∀ (s : State) (d : Nat) (m : MigE),
    let x := s.die d
    let th := fun (m : MigE) => (Tab.get 0 x.thresh m.tix).toNat
    (x.mig.find? fun m => !m.queued && decide (th m ≠ 0) && decide (th m ≤ m.count)) = some m → x.mqRoom = true → s.reds = [] →
    ∃ t, exec (.migrationRecordAppend d) s = .next t ∧ t.wgs = s.wgs
      ∧ Placed s t (bits x.mqbase.toNat 47 12 * 4096 + 16 * x.mqhead.toNat)
          (bytesOf 8 m.page ++ bytesOf 1 m.asn ++ bytesOf 2 m.peer ++ bytesOf 1 (ofBool m.big) ++ bytesOf 4 (th m))
      ∧ (t.die d).mqhead = BitVec.ofNat 16 ((x.mqhead.toNat + 1) % x.mqsize.toNat) ∧ (t.die d).mqtail = x.mqtail

-- ## Events: the Umhal port, the control region, the management core

namespace Sys2Proof.Machine

/-- The port's sizes and alignment (R412). -/
def PortTakes (a n : Nat) : Prop := (n = 4 ∨ n = 8 ∨ n = 16 ∨ n = 64) ∧ a % n = 0

/-- The access fault of the management core (R18, R387): its registers are as before but for the trap's. -/
def MgmtFault (s t : State) (a : HartAcc) : Prop :=
  t.mgmt.csrAt csrMcause = (if a.kind = .fetch then 1 else if a.kind = .load ∨ a.kind = .lr then 5 else 7)
    ∧ t.mgmt.csrAt csrMtval = a.addr % 2 ^ 64 ∧ t.mgmt.csrAt csrMepc = s.mgmt.pc.toNat ∧ t.mgmt.umode = false
    ∧ t.mgmt.pc = BitVec.ofNat 64 (s.mgmt.csrAt csrMtvec / 4 * 4) ∧ ∀ n, Tab.get 0 t.mgmt.x n = Tab.get 0 s.mgmt.x n

/-- An access of the management core is made: its register takes `v`, and its program counter passes the instruction. -/
def MgmtGoes (s t : State) (a : HartAcc) (v : W64) : Prop :=
  (∀ r, Tab.get 0 t.mgmt.x r = if r = a.rd ∧ r ≠ 0 then v else Tab.get 0 s.mgmt.x r) ∧ t.mgmt.pc = s.mgmt.pc + BitVec.ofNat 64 a.len
    ∧ t.mgmt.csr = s.mgmt.csr ∧ t.wgs = s.wgs

/-- No operation of the agent waits before this one, or it is one that has waited and is tried again (R166). -/
def InTurn (s : State) (agent : Nat) : Prop := s.retry = true ∨ s.holdsBack agent = false

/-- The pool aperture's address of a byte of a core's pool (R16). -/
def apertureAt (d c k o : Nat) : Nat := 0x010000000000 + d * 2 ^ 29 + c * 2 ^ 26 + k * 2 ^ 21 + o

/-- A write through the aperture leaves all as it was but the port's response. -/
def PoolKept (s : State) (pa n v : Nat) : Prop := exec (.physicalWrite pa n v) s = .next (s.respond 0 0 0)

end Sys2Proof.Machine

/-- R16, R18: the port's accesses to the pool through its aperture. A read gives the bytes of the pool, or status POISON; holes answer
so. A write lands at once in SRAM that no workgroup has; it follows the rules for debugger writes in a workgroup's granules: of
scratchpad and accumulators under QUIET alone, of the registers of a course that stands alone, an empty one staying as it is. -/
def PoolAccesses : Prop :=
  (∀ (s : State) (d c k o n v : Nat), d < 4 → c < 8 → k < 32 → o < 2 ^ 21 → (6 ≤ c ∨ 24 ≤ k) → s.bootStop = false →
    InTurn s 0 → PortTakes (apertureAt d c k o) n →
    exec (.physicalRead (apertureAt d c k o) n) s = .next (s.respond 1 0 0)
      ∧ exec (.physicalWrite (apertureAt d c k o) n v) s = .next (s.respond 1 0 0))
  ∧ ∀ (s : State) (d c k o n v : Nat), d < 4 → c < 6 → k < 24 → o < 2 ^ 21 → s.bootStop = false → InTurn s 0 →
    PortTakes (apertureAt d c k o) n →
    let pa := apertureAt d c k o
    let core := 144 * d + 24 * c + k
    ((∀ j < n, s.poolPoisoned core (o + j) = false) → ∃ x, exec (.physicalRead pa n) s = .next (s.respond 0 x 0)
      ∧ x < 2 ^ (8 * n) ∧ ∀ j < n, x / 2 ^ (8 * j) % 256 = s.poolRead core (o + j))
    ∧ (∀ j < n, s.poolPoisoned core (o + j) = true → exec (.physicalRead pa n) s = .next (s.respond 3 0 0))
    ∧ ((∀ j < n, s.poolPart core (o + j) = .free) → ∃ t, exec (.physicalWrite pa n v) s = .next t ∧ t.umhal = ⟨0, 0, 0⟩ ∧ t.wgs = s.wgs
      ∧ (∀ y, SameByte s t y) ∧ ∀ q y, t.poolByteAt q y =
        if q = core ∧ o ≤ y ∧ y < o + n then BitVec.ofNat 8 (v / 2 ^ (8 * (y - o))) else s.poolByteAt q y)
    ∧ (∀ u a, (∀ j < n, s.poolPart core (o + j) = .pad u (a + j)) →
      ((s.core core).quiet = false → PoolKept s pa n v)
      ∧ ((s.core core).quiet = true → ∃ t, exec (.physicalWrite pa n v) s = .next t ∧ t.umhal = ⟨0, 0, 0⟩ ∧ (∀ y, SameByte s t y)
        ∧ (∀ q y, (t.wg q).byte y = if q = u ∧ a ≤ y ∧ y < a + n then BitVec.ofNat 8 (v / 2 ^ (8 * (y - a))) else (s.wg q).byte y)
        ∧ ∀ q i, t.crs q i = s.crs q i))
    ∧ (∀ u a, (∀ j < n, s.poolPart core (o + j) = .acc u (a + j)) → (s.core core).quiet = false → PoolKept s pa n v)
    ∧ ∀ u i r, (∀ j < n, s.poolPart core (o + j) = .reg u i (r + j)) →
      (s.stands u i = false → PoolKept s pa n v)
      ∧ (s.stands u i = true → n = 4 → r % 4 = 0 → r < (s.grid (s.wg u).gid).launch.nv * 128 →
        ((s.crs u i).vIsFull (r / 128) = false → ∃ t, exec (.physicalWrite pa n v) s = .next t ∧ t.umhal = ⟨0, 0, 0⟩
          ∧ ∀ q j, t.crs q j = s.crs q j)
        ∧ ((s.crs u i).vIsFull (r / 128) = true → ∃ t, exec (.physicalWrite pa n v) s = .next t ∧ t.umhal = ⟨0, 0, 0⟩
          ∧ (∀ y, SameByte s t y) ∧ (∀ q j, (q ≠ u ∨ j ≠ i) → t.crs q j = s.crs q j) ∧ CourseKeeps (s.crs u i) (t.crs u i) [.vregs]
          ∧ ∀ m l, l < 32 → (t.crs u i).lane m l =
              if m = r / 128 ∧ l = r % 128 / 4 then BitVec.ofNat 32 v else (s.crs u i).lane m l))

/-- R7, R16, R18, R91, R96, R358, R412, R413, R419: the Umhal port and the management core. A physical or virtual access of stack
memory reads the bytes or writes them and no others; a hole, poison, a bad size or alignment and a translation fault answer
with their statuses, and a failing request changes no byte; a virtual access whose page is walked or held waits, with every later
operation of the port behind it, and one of a page that resolves remote asks the other module and answers when it is served. After a
failed boot every request answers with status 1 (R418). OWNPEER, the time source and a link's peer take a write that sets no reserved bit,
and instruction memory takes a word. An access of a core's pool through its aperture reads its bytes, and writes them as a debugger
may. Firmware answers a nonce; records are delivered in posting order. Values are said with no
reduction pending. What an access fault does to mcause, mepc, mtval and the mode of the management core, what an AMO, LR and SC of it do,
and how a load extends, are the model's choice, taken from the RISC-V architecture: log entry 35. Which status answers a failure at
another module, and in which pieces the port reads it, is the model's choice too: log entry 38. Where a message holds its nonce is
open: log entry 7. Where a register stands in a core's pool, and that a write changes nothing in a running workgroup's granules or in an
empty register, are the model's choice: log entries 6 and 37. -/
def Obligations.PortAndRegisterAccesses : Prop :=
  (∀ (s : State) (pa n v : Nat), s.bootStop = false → InTurn s 0 →
    (¬PortTakes pa n → exec (.physicalRead pa n) s = .next (s.respond 4 0 0) ∧ exec (.physicalWrite pa n v) s = .next (s.respond 4 0 0))
    ∧ (PortTakes pa n → inStack pa = true → s.reds = [] →
      (s.rangePoisoned pa n = true → ∃ t, exec (.physicalRead pa n) s = .next t ∧ t.umhal = ⟨3, 0, 0⟩ ∧ (∀ y, SameByte s t y)
          ∧ t.wgs = s.wgs)
      ∧ (s.rangePoisoned pa n = false → ∃ t, exec (.physicalRead pa n) s = .next t ∧ t.umhal = ⟨0, s.read pa n, 0⟩
          ∧ (∀ y, SameByte s t y) ∧ t.wgs = s.wgs)
      ∧ ∃ t, exec (.physicalWrite pa n v) s = .next t ∧ t.umhal = ⟨0, 0, 0⟩ ∧ Stored s t pa n v ∧ t.wgs = s.wgs)
    ∧ (PortTakes pa n → inStack pa = false → inControl pa = false → apertureCore pa = none →
      exec (.physicalRead pa n) s = .next (s.respond 1 0 0) ∧ exec (.physicalWrite pa n v) s = .next (s.respond 1 0 0)))
  ∧ PoolAccesses
  ∧ (∀ (s : State) (pa asn n v : Nat) (b c : Bool), s.bootStop = true → InTurn s 0 →
    exec (.physicalRead pa n) s = .next (s.respond 1 0 0) ∧ exec (.physicalWrite pa n v) s = .next (s.respond 1 0 0)
    ∧ exec (.virtualRead asn pa n) s = .next (s.respond 1 0 0) ∧ exec (.virtualWrite asn pa n v) s = .next (s.respond 1 0 0)
    ∧ exec (.managementMailbox b v c) s = .next (s.respond 1 0 0))
  ∧ (∀ (s : State) (i : Instr) (agent : Nat), agentOf i = some agent → (agent = 0 ∨ agent = 17) → s.retry = false → s.holdsBack agent = true →
    exec i s = .next { s with held := s.held ++ [i] })
  ∧ (∀ (s : State) (asn va n v : Nat), s.bootStop = false → InTurn s 0 → PortTakes va n → s.hostFlight = none →
    (∀ t, (s.ioXlat asn (s.rootOf asn) va 0 = .wait t → exec (.virtualRead asn va n) s = .next (t.hold (.virtualRead asn va n)))
      ∧ (s.ioXlat asn (s.rootOf asn) va 1 = .wait t → exec (.virtualWrite asn va n v) s = .next (t.hold (.virtualWrite asn va n v))))
    ∧ (∀ t e, (s.ioXlat asn (s.rootOf asn) va 0 = .fault t e →
        exec (.virtualRead asn va n) s = .next (t.respond 2 0 (tfsWord e 0 63 false)))
      ∧ (s.ioXlat asn (s.rootOf asn) va 1 = .fault t e →
        exec (.virtualWrite asn va n v) s = .next (t.respond 2 0 (tfsWord e 1 63 false))))
    ∧ (∀ (r : State) (x : Xlat), x.res = .here → inStack x.pa = true → s.reds = [] →
      (s.ioXlat asn (s.rootOf asn) va 0 = .ok r x → r.rangePoisoned x.pa n = false →
        ∃ t, exec (.virtualRead asn va n) s = .next t ∧ t.umhal = ⟨0, s.read x.pa n, 0⟩ ∧ (∀ y, SameByte s t y) ∧ t.wgs = s.wgs)
      ∧ (s.ioXlat asn (s.rootOf asn) va 1 = .ok r x →
        ∃ t, exec (.virtualWrite asn va n v) s = .next t ∧ t.umhal = ⟨0, 0, 0⟩ ∧ Stored s t x.pa n v ∧ t.wgs = s.wgs))
    ∧ ∀ (r : State) (x : Xlat), x.res ≠ .here →
      (s.ioXlat asn (s.rootOf asn) va 0 = .ok r x → ∃ t f, exec (.virtualRead asn va n) s = .next t ∧ t.umhal = s.umhal
        ∧ .virtualRead asn va n ∈ t.held ∧ (∀ y, SameByte s t y) ∧ t.hostFlight = some f
        ∧ f.lanes.map (fun a => (a.tgt, a.width)) =
          (List.range (max 1 (n / 16))).map fun i => (Target.remote x.peer (x.pa + 16 * i), min n 16))
      ∧ (s.ioXlat asn (s.rootOf asn) va 1 = .ok r x → ∃ t f, exec (.virtualWrite asn va n v) s = .next t ∧ t.umhal = s.umhal
        ∧ .virtualWrite asn va n v ∈ t.held ∧ (∀ y, SameByte s t y) ∧ t.hostFlight = some f))
  ∧ (∀ (s : State) (asn va n v : Nat) (f : Flight), s.bootStop = false → InTurn s 0 → PortTakes va n → s.hostFlight = some f →
    (∀ x, s.hostAnswer f = some (.ok x) → ∃ t u, exec (.virtualRead asn va n) s = .next t ∧ exec (.virtualWrite asn va n v) s = .next u
      ∧ t.umhal = ⟨0, x, 0⟩ ∧ u.umhal = ⟨0, x, 0⟩ ∧ t.hostFlight = none ∧ u.hostFlight = none ∧ (∀ y, SameByte s t y ∧ SameByte s u y))
    ∧ ∀ e, s.hostAnswer f = some (.error e) → ∃ t u, exec (.virtualRead asn va n) s = .next t ∧ exec (.virtualWrite asn va n v) s = .next u
      ∧ t.umhal = ⟨e, 0, 0⟩ ∧ u.umhal = ⟨e, 0, 0⟩ ∧ t.hostFlight = none ∧ u.hostFlight = none ∧ ∀ y, SameByte s t y ∧ SameByte s u y)
  ∧ (∀ (s : State) (pa n v : Nat), inControl pa = true → (n = 4 ∨ n = 8) → pa % n = 0 → ctlSizeOk pa n = true →
    exec (.registerWrite pa n v) s = s.ctlWrite pa n v 16 ∧ ∃ t, exec (.registerWrite pa n v) s = .next t)
  ∧ (∀ (s : State) (v : Nat), v < 2 ^ 64 →
    exec (.registerWrite 0x020040000000 8 v) s = .next (if v < 2 ^ 12 then { s with ownPeer := BitVec.ofNat 12 v } else s)
    ∧ exec (.registerWrite 0x0200400A0000 8 v) s = .next (if v < 4 then { s with tsrc := BitVec.ofNat 2 v } else s)
    ∧ ∀ l, l < 16 → exec (.registerWrite (0x020000010010 + l / 4 * 2 ^ 24 + l % 4 * 0x1000) 8 v) s =
        .next (if v < 2 ^ 12 then s.setLink l { s.link l with lpeer := v } else s))
  ∧ (∀ (s : State) (l k v : Nat), l < 16 → k < 4096 → v < 2 ^ 32 →
    ∃ t, exec (.registerWrite (0x020000020000 + l / 4 * 2 ^ 24 + l % 4 * 0x8000 + 4 * k) 4 v) s = .next t
      ∧ t = { s with seqs := t.seqs } ∧ ∀ j i, Tab.get 0 (t.seqr j).imem i =
        if j = l ∧ i = k then BitVec.ofNat 32 v else Tab.get 0 (s.seqr j).imem i)
  ∧ (∀ (s : State) (msg : Nat) (b : Bool), s.bootStop = false → InTurn s 0 →
    (∃ t, exec (.managementMailbox true msg true) s = .next t ∧ t.umhal.status = 0 ∧ t.fwInbox = s.fwInbox ++ [msg % 2 ^ 512]
      ∧ ∃ r, t.report = some r ∧ (∃ p ≤ 32, r.nonce = BitVec.ofNat 256 (msg / 2 ^ (8 * p))) ∧ r.peer = s.ownPeer.toNat
        ∧ r.images = s.images ∧ r.rollback = s.rollback ∧ r.retired = s.retired)
    ∧ (∃ t, exec (.managementMailbox true msg false) s = .next t ∧ t.fwInbox = s.fwInbox ++ [msg % 2 ^ 512] ∧ t.report = s.report)
    ∧ exec (.managementMailbox false msg b) s = .next (s.respond 0 (msg % 2 ^ 512) 0))
  ∧ (∀ (s : State) (n : Nat), ∃ t u, exec (.hostCreditReturn n) s = .next t ∧ exec (.managementEventDelivery n) s = .next u
    ∧ t = { s with evHost := t.evHost } ∧ u = { s with evMgmt := u.evMgmt }
    ∧ t.evHost.queue = s.evHost.queue.drop n ∧ u.evMgmt.queue = s.evMgmt.queue.drop n
    ∧ (0 < n → s.evHost.queue ≠ [] → s.evHost.lost = 0 → t.evHost.out = s.evHost.queue.take n)
    ∧ (0 < n → s.evHost.queue ≠ [] → s.evHost.lost ≠ 0 → t.evHost.lost = 0
        ∧ t.evHost.out = ⟨7, bytesOf 8 s.evHost.lost ++ bytesOf 24 0⟩ :: s.evHost.queue.take n))
  ∧ ∀ (s : State) (a : HartAcc), InTurn s 17 →
    let sized := a.size = 1 ∨ a.size = 2 ∨ a.size = 4 ∨ a.size = 8
    (¬sized ∨ a.addr % a.size ≠ 0 → ∃ t, exec (.managementCoreAccess a.kind a.addr a.size a.value a.toHartMove) s = .next t ∧ t = { s with mgmt := t.mgmt } ∧ MgmtFault s t a)
    ∧ (sized → a.addr % a.size = 0 → inStack a.addr = false → inControl a.addr = false → apertureCore a.addr = none →
      ∃ t, exec (.managementCoreAccess a.kind a.addr a.size a.value a.toHartMove) s = .next t ∧ t = { s with mgmt := t.mgmt } ∧ MgmtFault s t a)
    ∧ (sized → a.addr % a.size = 0 → inStack a.addr = true → s.reds = [] →
      let old := s.read a.addr a.size
      let word := if a.size = 4 then (BitVec.ofNat 32 old).signExtend 64 else BitVec.ofNat 64 old
      (a.kind = .store → ∃ t, exec (.managementCoreAccess a.kind a.addr a.size a.value a.toHartMove) s = .next t ∧ Stored s t a.addr a.size a.value ∧ MgmtGoes s t { a with rd := 0 } 0)
      ∧ (a.kind = .load → a.fp = false → s.rangePoisoned a.addr a.size = false →
        ∃ t, exec (.managementCoreAccess a.kind a.addr a.size a.value a.toHartMove) s = .next t ∧ (∀ y, SameByte s t y)
          ∧ MgmtGoes s t a (if a.sext then (BitVec.ofNat (8 * a.size) old).signExtend 64 else BitVec.ofNat 64 old))
      ∧ (a.kind = .lr → a.fp = false → s.rangePoisoned a.addr a.size = false → ∃ t, exec (.managementCoreAccess a.kind a.addr a.size a.value a.toHartMove) s = .next t
          ∧ (∀ y, SameByte s t y) ∧ MgmtGoes s t a word ∧ Tab.find t.lrs 16 = some (a.addr, a.size))
      ∧ (a.kind = .sc → a.fp = false → Tab.find s.lrs 16 = some (a.addr, a.size) → ∃ t, exec (.managementCoreAccess a.kind a.addr a.size a.value a.toHartMove) s = .next t
          ∧ Stored s t a.addr a.size a.value ∧ MgmtGoes s t a 0 ∧ Tab.find t.lrs 16 = none)
      ∧ (a.kind = .sc → a.fp = false → Tab.find s.lrs 16 ≠ some (a.addr, a.size) → ∃ t, exec (.managementCoreAccess a.kind a.addr a.size a.value a.toHartMove) s = .next t
          ∧ (∀ y, SameByte s t y) ∧ MgmtGoes s t a 1 ∧ Tab.find t.lrs 16 = none)
      ∧ (∀ op, a.kind = .amo op → a.fp = false → s.rangePoisoned a.addr a.size = false → ∃ t, exec (.managementCoreAccess a.kind a.addr a.size a.value a.toHartMove) s = .next t
          ∧ Stored s t a.addr a.size (amoNew op a.size old a.value) ∧ MgmtGoes s t a word)
      ∧ (a.kind = .load ∨ a.kind = .lr ∨ (∃ op, a.kind = .amo op) → s.rangePoisoned a.addr a.size = true →
        ∃ t, exec (.managementCoreAccess a.kind a.addr a.size a.value a.toHartMove) s = .next t ∧ MgmtFault s t a ∧ (∀ y, SameByte s t y) ∧ t.wgs = s.wgs))

-- ## Events: links

namespace Sys2Proof.Machine

/-- Nothing but one link has changed. -/
def OnlyLink (s t : State) (l : Nat) : Prop := t = { s with links := t.links } ∧ ∀ j, j ≠ l → t.link j = s.link j

/-- The link is `x` but for what waits in its transmit queue: requests that waited for it may have taken it. -/
def LinkIs (t : State) (l : Nat) (x : Link) : Prop := t.link l = { x with tx := (t.link l).tx }

/-- A flit of the space `k` that a cumulative acknowledgement covers (R123). -/
def Covered (x : Link) (k ack : Nat) (f : TxFlit) : Prop :=
  x.spaceKey f.peer = k ∧ 1 ≤ seqAhead ack f.seqno ∧ seqAhead ack f.seqno ≤ 4096

/-- A link-control flit with a code and a number is queued on a link toward a peer, behind what was there. -/
def Queued (x y : Link) (peer code n : Nat) : Prop :=
  y.tx = x.tx ++ [⟨0, clsControl, peer, peer, 0, true, true, .control code n, 31, n⟩]

/-- A NAK that names the next expected number is queued, unless one has gone since the last accepted flit (R123). -/
def Nakked (x y : Link) (peer : Nat) : Prop :=
  let k := x.spaceKey peer
  ((x.space k).naked = false → Queued x y peer 1 (x.space k).expect) ∧ ((x.space k).naked = true → y.tx = x.tx)
    ∧ (y.space k).naked = true ∧ (y.space k).expect = (x.space k).expect

/-- The count of flits received in error after one more (R97, R103). -/
def Link.oneError (x : Link) : Nat := if x.crcth ≠ 0 ∧ x.crcth ≤ x.crcs + 1 then 0 else x.crcs + 1

/-- The flit `g` has left link `l` as the 16 beats of its 80 bytes, its CRC agreeing (R121, R122). -/
def Beamed (s t : State) (l : Nat) (g : TxFlit) : Prop :=
  let x := s.link l
  t.txFlit = some (l, flitBeats x.groups x.beat (s.formFlit x g)) ∧ flitGood (s.formFlit x g) = true

/-- An acknowledgement waits to go back to a peer. -/
def Link.acks (x : Link) (peer : Nat) : Prop := ∃ g ∈ x.tx, g.ackOnly = true ∧ g.peer = peer

end Sys2Proof.Machine

/-- R97, R98, R101 to R104, R121 to R126, R424, R427: the link layer. LMODE trains a link or is refused with BAD, training ends on
groups with light, a drain ends in STATE 0, LMODE 0 acts at once; a slot of a rotating link begins after its guard; a flit that
leaves takes the next number, leaves as 16 beats with its CRC, and is held until it is acknowledged; a damaged flit and one after a
gap bring a NAK and are not accepted, one of another peer sets MISWIRE and counts as received in error; a NAK and 2 µs of waiting
replay; light that fails takes groups out of use, and a link with none, or with eight replays in a row, goes down and leaves every
route entry. A group is lit where both directions are. The model's choice are one NAK for each gap and control flits' codes (log
entries 23 and 75), that LMODE 1 or 2 written while STATE is not 0 changes the register alone, that LMODE 0 acts at once, and that a
link whose DRAIN is set when training ends goes to STATE 3 (log entry 44). -/
def Obligations.LinkEventsFollowTheRules : Prop :=
  (∀ (s : State) (l mode : Nat),
    let x := s.link l
    (mode = 3 ∨ (mode = 2 ∧ x.badTable = true) → exec (.linkTrain l mode) s = .next (s.setLink l { x with bad := true }))
    ∧ ((mode = 1 ∨ (mode = 2 ∧ x.badTable = false)) → x.state ≠ 0 →
      exec (.linkTrain l mode) s = .next (s.setLink l { x with lmode := mode }))
    ∧ ((mode = 1 ∨ (mode = 2 ∧ x.badTable = false)) → x.state = 0 → ∃ t, exec (.linkTrain l mode) s = .next t
      ∧ t = { s with links := t.links, seqs := t.seqs } ∧ (∀ j, j ≠ l → t.link j = s.link j)
      ∧ (t.link l).lmode = mode ∧ (t.link l).state = 1 ∧ (t.link l).groups = 0 ∧ (t.link l).tx = [] ∧ (t.link l).replay = []
      ∧ (∀ k, (t.link l).space k = Space.fresh) ∧ (∀ peer ch, (t.link l).roomFor peer ch = 65536)
      ∧ (t.link l).bad = x.bad ∧ (t.link l).rx = x.rx))
  ∧ (∀ (s : State) (l g : Nat), (s.link l).state = 1 → g ≠ 0 → g &&& (s.link l).litGroups = g →
    ∃ t, exec (.linkUp l g) s = .next t
      ∧ LinkIs t l { s.link l with state := if (s.link l).drain then 3 else 2, groups := g } ∧ SameMemory s t)
  ∧ (∀ (s : State) (l g : Nat), (s.link l).state = 2 → (s.link l).joining ≠ 0 → (s.link l).restriping = none →
    ∃ t, exec (.linkUp l g) s = .next t ∧ (t.link l).groups = (s.link l).groups ||| ((s.link l).joining &&& (s.link l).litGroups)
      ∧ (t.link l).joining = 0)
  ∧ (∀ (s : State) (l : Nat) (on : Bool), ∃ t, exec (.drain l on) s = .next t
      ∧ LinkIs t l { s.link l with
          drain := on, state := if on then (if (s.link l).state = 2 then 3 else (s.link l).state)
            else (if (s.link l).state = 3 then 2 else (s.link l).state) })
  ∧ (∀ (s : State) (l : Nat), (s.link l).state = 3 → (s.link l).tx = [] → (s.link l).replay = [] →
    ∃ t, exec (.linkDrained l) s = .next t ∧ (t.link l).state = 0 ∧ (t.link l).groups = 0 ∧ SameMemory s t)
  ∧ (∀ (s : State) (l : Nat), (s.link l).state = 2 → ∃ t, exec (.readmit l) s = .next t ∧ OnlyLink s t l
      ∧ t.link l = { s.link l with joining := (s.link l).litGroups &&& (15 - (s.link l).groups % 16) })
  ∧ (∀ (s : State) (l : Nat), ∃ t, exec (.linkOff l) s = .next t ∧ (t.link l).lmode = 0 ∧ (t.link l).state = 0 ∧ SameMemory s t
      ∧ ((s.link l).state ≠ 0 → (t.link l).replay = [] ∧ (t.link l).groups = 0))
  ∧ (∀ (s : State) (p v : Nat), ∃ t, exec (.routeEntryWrite p v) s = .next t
      ∧ (∀ q, Tab.get 0 t.routes q = if q = p then (BitVec.ofNat 32 v : W32) else Tab.get 0 s.routes q) ∧ SameMemory s t)
  ∧ (∀ (s : State) (l i off : Nat), (s.link l).slotAt (s.dtime / 2 ^ 16) = some (i, off) → (s.link l).lmode = 2 →
    ((s.link l).state = 2 ∨ (s.link l).state = 3) → 400 ≤ off →
    ∃ t, exec (.rotationSlotStart l) s = .next t ∧ OnlyLink s t l ∧ (t.link l).curSlot = some i
      ∧ (t.link l).curPeriod = (((s.dtime / 2 ^ 16 : Nat) : Int) - (s.link l).t0) / ((s.link l).period : Int)
      ∧ (t.link l).replay = (s.link l).replay.map fun f =>
          if f.peer = ((s.link l).slot i).speer ∧ ((s.link l).slot i).sv = true then { f with sent := 0 } else f)
  ∧ (∀ (s : State) (l : Nat) (f : TxFlit), pickFrom (s.sendable (s.link l)) (Config.choice s.steps) = some f →
    let x := s.link l
    let k := x.spaceKey f.peer
    let sp := x.space k
    (f.ackOnly = true → ∃ t, exec (.flitSend l) s = .next t ∧ Beamed s t l { f with seqno := sp.next }
      ∧ (t.link l).tx = x.tx.erase f ∧ (t.link l).replay = x.replay ∧ (t.link l).spaces = x.spaces)
    ∧ (f.ackOnly = false → f.sent = 0 → x.replay.contains f = true → ∃ t, exec (.flitSend l) s = .next t ∧ Beamed s t l f
      ∧ (∀ j, j ≠ l → t.link j = s.link j) ∧ (t.link l).tx = x.tx
      ∧ (t.link l).replay = x.replay.map fun g => if g = f then { g with sent := s.moment } else g)
    ∧ (f.ackOnly = false → ¬(f.sent = 0 ∧ x.replay.contains f = true) → sp.next < 65536 → ∃ t, exec (.flitSend l) s = .next t
      ∧ (t.link l).replay = x.replay ++ ((s.withFlit l f).zipIdx.map fun g =>
          { g.1 with seqno := (sp.next + g.2) % 65536, sent := s.moment })
      ∧ ((t.link l).space k).next = (sp.next + (s.withFlit l f).length) % 65536
      ∧ ((t.link l).space k).credits = sp.credits - (s.withFlit l f).length
      ∧ (s.withFlit l f = [f] → Beamed s t l { f with seqno := sp.next, sent := s.moment })))
  ∧ (∀ (s : State) (l : Nat) (f : Flit), ((s.link l).state = 2 ∨ (s.link l).state = 3) →
    let x := s.link l
    let now := s.dtime / 2 ^ 16
    let k := x.spaceKey f.src
    (flitGood f = false → ∃ t, exec (.flitReceive l f) s = .next t ∧ Nakked x (t.link l) ((x.expects now).getD x.lpeer)
      ∧ (t.link l).replay = x.replay ∧ (t.link l).crcs = x.oneError)
    ∧ (flitGood f = true → x.expects now ≠ some f.src → ∃ t, exec (.flitReceive l f) s = .next t
      ∧ t.link l = { x with miswire := true, crcs := x.oneError })
    ∧ (flitGood f = true → x.expects now = some f.src → f.cls ≠ clsControl →
      ∃ t, exec (.flitReceive l f) s = .next t
        ∧ (∀ g, g ∈ (t.link l).replay ↔ g ∈ x.replay ∧ ¬Covered x k f.ack g)
        ∧ ((t.link l).space k).credits = f.credits
        ∧ ((t.link l).space k).expect = (if f.seqno = (x.space k).expect then ((x.space k).expect + 1) % 65536 else (x.space k).expect)
        ∧ (f.seqno = (x.space k).expect → (t.link l).acks f.src ∧ ((t.link l).space k).naked = false)
        ∧ (f.seqno ≠ (x.space k).expect → seqAhead f.seqno (x.space k).expect < 32768 → Nakked x (t.link l) f.src)
        ∧ (f.seqno ≠ (x.space k).expect → 32768 ≤ seqAhead f.seqno (x.space k).expect → (t.link l).acks f.src))
    ∧ (flitGood f = true → x.expects now = some f.src → f.cls = clsControl → f.seqno = (x.space k).expect →
      (∀ ch, ch < 4 → f.code = 2 + ch → ∃ t, exec (.flitReceive l f) s = .next t
        ∧ (t.link l).roomFor f.src ch = min 65536 (x.roomFor f.src ch + f.payload % 2 ^ 32))
      ∧ (f.code = 1 → ∃ t, exec (.flitReceive l f) s = .next t ∧ ((t.link l).space k).expect = ((x.space k).expect + 1) % 65536
        ∧ ∀ g ∈ (t.link l).replay, x.spaceKey g.peer = k → seqAhead g.seqno (f.payload % 65536) < 32768 → g.sent = 0)))
  ∧ (∀ (s : State) (l : Nat) (f : TxFlit), (s.link l).overdue s.dtime = some f →
    let x := s.link l
    let k := x.spaceKey f.peer
    ∃ t, exec (.replayTimeout l) s = .next t ∧ ((t.link l).space k).replays = (x.space k).replays + 1
      ∧ (t.link l).replay = x.replay.map fun g =>
          if x.spaceKey g.peer = k ∧ seqAhead g.seqno f.seqno < 32768 then { g with sent := 0 } else g)
  ∧ (∀ (s : State) (l light w : Nat), ∃ t u, exec (.lossOfLight l light) s = .next t ∧ exec (.lightReturn l w) s = .next u
      ∧ OnlyLink s t l ∧ OnlyLink s u l ∧ (t.link l).groups = (s.link l).groups
      ∧ (t.link l).light = (s.link l).light &&& (light % 2 ^ 16) ∧ (t.link l).far = (s.link l).far &&& (light / 2 ^ 16)
      ∧ (w < 16 → u.link l = { s.link l with light := (s.link l).light ||| 2 ^ w })
      ∧ (16 ≤ w → u.link l = { s.link l with far := (s.link l).far ||| 2 ^ (w - 16) })
      ∧ (∀ g, g < 4 → bit (t.link l).litGroups g = true → bits (t.link l).light (4 * g + 3) (4 * g) = 15
          ∧ bits (t.link l).far (4 * g + 3) (4 * g) = 15)
      ∧ let left := (s.link l).groups &&& (t.link l).litGroups
        ((s.link l).state = 2 ∨ (s.link l).state = 3) → left ≠ (s.link l).groups → (t.link l).restriping = some (left, s.dtime))
  ∧ (∀ (s : State) (l g time : Nat), (s.link l).restriping = some (g, time) → g ≠ 0 →
    ∃ t, exec (.restripe l) s = .next t ∧ t.dtime = s.dtime ∧ (∀ p ∈ (s.link l).peers, (t.link l).acks p)
      ∧ LinkIs t l { s.link l with groups := g, restriping := none, replay := (s.link l).replay.map fun f => { f with sent := 0 } })
  ∧ ∀ (s : State) (l : Nat), l < 32 → Tab.sorted s.routes = true → (s.link l).dying = true → ∃ t, exec (.linkDown l) s = .next t ∧ (t.link l).state = 4
      ∧ (t.link l).groups = 0 ∧ (t.link l).replay = [] ∧ SameMemory s t
      ∧ ∀ p b, b < 32 → (Tab.get 0 t.routes p : W32).getLsbD b = (!decide (b = l) && (Tab.get 0 s.routes p : W32).getLsbD b)

-- ## Events: remote memory

namespace Sys2Proof.Machine

/-- Nothing but the transmit queue of link `j` has changed, which has gained the flits of one packet toward a peer, by way of the
relay that the entry names, if any. -/
def PacketQueued (s t : State) (j cls peer n : Nat) (c : Carry) : Prop :=
  t = { s with links := t.links } ∧ (∀ i, i ≠ j → t.link i = s.link i)
    ∧ t.link j = { s.link j with tx := (s.link j).tx ++
        (List.range (flitsFor n)).map fun i => ⟨0, cls, s.hopOf j cls peer, peer, 0, decide (i = 0), decide (i + 1 = flitsFor n), c,
          (s.flitLoad c n i).1, (s.flitLoad c n i).2⟩ }

/-- A lane of the flight that a request belongs to has changed, and the request is over; of the others only whether what they
fetch is kept may have changed (R110). -/
def LaneAnswered (s t : State) (r : Req) (f : Flight → Flight) : Prop :=
  (t.reqs.map fun x => { x with keep := true }) = (s.reqs.filter fun x => x.tag ≠ r.tag).map (fun x => { x with keep := true })
    ∧ (t.crs r.uid r.crs).flights = (s.crs r.uid r.crs).flights.map (fun x => if x.id = r.flight then f x else x)
    ∧ ∀ y, SameByte s t y

/-- The set of a slate has a place that is not taken (R69). -/
def SetHasRoom (s : State) (peer : Option Nat) (sl : Nat) : Prop :=
  (s.inSet (homeSlice (sl * 1024)) (setOf peer sl)).length < s.sliceWays (homeSlice (sl * 1024))

/-- The copy of a slate of another module holds other bytes from an address on; every other copy is as it was. -/
def CopyHolds (s t : State) (peer pa : Nat) (bs : List Byte) : Prop :=
  ∃ f : RCopy → RCopy, t.copies = s.copies.map f ∧ ∀ c, (f c).peer = c.peer ∧ (f c).slate = c.slate
    ∧ (f c).data.length = c.data.length ∧ ∀ k, k < c.data.length → (f c).data.getD k 0 =
      if c.peer = peer ∧ c.slate = pa / 1024 ∧ pa % 1024 ≤ k ∧ k < pa % 1024 + bs.length then bs.getD (k - pa % 1024) 0
      else c.data.getD k 0

/-- What a lane of a request takes of the bytes of a whole slate: its own. -/
def LaneBytes (s : State) (r : Req) (data v : Nat) : Prop :=
  ∀ f a p pa, (s.crs r.uid r.crs).flights.find? (fun x => decide (x.id = r.flight)) = some f →
    f.lanes.find? (fun x => decide (x.lane = r.lane)) = some a → a.tgt = .cached p pa →
    v = data / 2 ^ (8 * (pa % 1024)) % 2 ^ (8 * a.width)

/-- The lane of a request reads a row line among those marked (R89, R91). -/
def LaneMarked (s : State) (r : Req) (marks : Nat) : Prop :=
  ∃ f a p pa q, (s.crs r.uid r.crs).flights.find? (fun x => decide (x.id = r.flight)) = some f
    ∧ f.lanes.find? (fun x => decide (x.lane = r.lane)) = some a ∧ a.tgt = .cached p pa
    ∧ q < 32 ∧ bit marks q = true ∧ pa % 1024 / 32 ≤ q ∧ q ≤ (pa % 1024 + a.width - 1) / 32

/-- The lane of a request is one that reads a slate of a remote cached page. -/
def LaneCached (s : State) (r : Req) : Prop :=
  ∃ f a p pa, (s.crs r.uid r.crs).flights.find? (fun x => decide (x.id = r.flight)) = some f
    ∧ f.lanes.find? (fun x => decide (x.lane = r.lane)) = some a ∧ a.tgt = .cached p pa

/-- A record of an issuer's batch. -/
def InBatch.isOf (b : InBatch) (issuer key batch : Nat) : Bool :=
  decide (b.issuer = issuer) && decide (b.key = key) && decide (b.batch = batch)

end Sys2Proof.Machine

/-- R86, R96, R100, R108, R110, R112, R113, R117, R118, R159: remote memory. A request is checked at its target: outside memory, or
not admitted, it changes nothing and its status goes back, or marks its batch's error word; else a read answers the bytes, a write
places them, an atomic leaves its new value and answers the old, and a reduction is sent to its logic die. A request for another
module is forwarded once, and a reply, a marker and a summary unchanged. A reply fills its lane, a failing one or 4 ms without one
marks it; a fetched slate is held where its set has a place. Markers are counted, a batch that is over answers its error word, and
CLOSEB takes the replies, or all ones for a peer that gave none. The units of a copy's store are checked, performed and reported one
by one (R422). Said where no other reduction is pending. The model's choice are: that a store failing at its issuer sets the error
bit of its number, which CLOSEB returns (log entry 17); how a reply tells of the poisoned row lines of a slate (log entry 93); that
an acquire's bytes replace those of a held copy (log entry 94); and that a batch's number tells its closings apart (log entry 82).
-/
def Obligations.RemoteEventsFollowTheRules : Prop :=
  (∀ (s : State) (l : Nat) (r : RemoteReq), r.dest = s.ownPeer.toNat → s.reds = [] →
    (s.admission r ≠ 0 → (r.kind.returns = true → exec (.remoteRequest l r) s = .next (s.replyTo r (s.admission r) 0 0))
      ∧ (r.kind.returns = false → r.units = 1 → exec (.remoteRequest l r) s = .next (s.batchError r)))
    ∧ (∀ n, r.kind = .write → 1 < n → n ≤ 16 → r.width = 16 * n → r.pa % 16 = 0 →
      let unit := fun k => { r with pa := r.pa + 16 * k, width := 16 }
      ∃ t, exec (.remoteRequest l r) s = .next t ∧ t.wgs = s.wgs
        ∧ (∀ y, t.byteAt y = if r.pa ≤ y ∧ y < r.pa + r.width ∧ s.admission (unit ((y - r.pa) / 16)) = 0 then
            BitVec.ofNat 8 (r.data / 2 ^ (8 * (y - r.pa))) else s.byteAt y)
        ∧ ∀ k < n, s.admission (unit k) ≠ 0 → ∃ b ∈ t.inb, b.isOf r.issuer r.key r.batch = true
          ∧ bit b.errors ((r.seqno + k) % 32) = true)
    ∧ (inStack (r.pa + r.width - 1) = false → s.admission r = 2)
    ∧ (inStack (r.pa + r.width - 1) = true → (∀ w ∈ s.windows, windowAdmits w.2 r.issuer r.pa (needsRight r.kind) = false) →
      s.admission r = 3)
    ∧ (s.admission r = 0 → r.kind = .read →
      (s.rangePoisoned r.pa r.width = true → r.width ≠ 1024 →
        ∃ u : State, exec (.remoteRequest l r) s = .next (u.replyTo r 4 0 0) ∧ u.mem = s.mem)
      ∧ (s.rangePoisoned r.pa r.width = true → r.width = 1024 →
        ∃ (u : State) (marks : Nat), exec (.remoteRequest l r) s = .next (u.replyTo r 4 1024 (s.read r.pa 1024 + 2 ^ 8192 * marks))
          ∧ u.mem = s.mem ∧ ∀ q, q < 32 → (bit marks q = true ↔ s.rangePoisoned (r.pa + 32 * q) 32 = true))
      ∧ (s.rangePoisoned r.pa r.width = false →
        ∃ u : State, exec (.remoteRequest l r) s = .next (u.replyTo r 0 r.width (s.read r.pa r.width)) ∧ u.mem = s.mem))
    ∧ (s.admission r = 0 → r.kind = .write → r.units = 1 → ∃ t, exec (.remoteRequest l r) s = .next t ∧ t.wgs = s.wgs
      ∧ (r.width ≠ 1024 → Stored s t r.pa r.width r.data)
      ∧ (r.width = 1024 → ∀ y, t.byteAt y =
          if r.pa ≤ y ∧ y < r.pa + 1024 ∧ bit r.cmp (y - r.pa) = true then BitVec.ofNat 8 (r.data / 2 ^ (8 * (y - r.pa)))
          else s.byteAt y))
    ∧ (∀ op, s.admission r = 0 → r.kind = .rmw op → s.rangePoisoned r.pa r.width = true →
      ∃ u : State, exec (.remoteRequest l r) s = .next (u.replyTo r 4 0 0) ∧ u.mem = s.mem)
    ∧ (∀ op, s.admission r = 0 → r.kind = .rmw op → r.width = rmwWidth op → s.rangePoisoned r.pa r.width = false →
      ∃ u : State, exec (.remoteRequest l r) s = .next (u.replyTo r 0 r.width (s.read r.pa r.width))
        ∧ Stored s u r.pa r.width (rmwNew op r.rm r.ftz (s.read r.pa r.width) r.data r.cmp))
    ∧ ∀ op, s.admission r = 0 → r.kind = .red op → SetHasRoom s none (slateOf r.pa) → ∃ t, exec (.remoteRequest l r) s = .next t ∧ t.mem = s.mem
      ∧ t.reds = [⟨r.pa, op, r.rm, r.ftz, r.data, some (r.issuer, r.key, r.batch, r.seqno)⟩]
      ∧ ∃ b ∈ t.inb, b.isOf r.issuer r.key r.batch = true ∧ 0 < b.pendRed)
  ∧ (∀ (s : State) (l : Nat) (r : RemoteReq), r.dest ≠ s.ownPeer.toNat →
    let e := (Tab.get 0 s.routes r.dest).toNat
    ((r.relayed = true ∨ routeRelay e = true ∨ routeHold e = true ∨ routeLinks e = []) →
      exec (.remoteRequest l r) s = .next (s.replyTo r 1 0 0))
    ∧ ∀ j, r.relayed = false → routeRelay e = false → routeHold e = false → s.routeOf r.dest r.pa = .go j →
      ∃ t, exec (.remoteRequest l r) s = .next t
        ∧ PacketQueued s t j clsRequest r.dest (if r.kind = .read then 0 else r.width) (.relay { r with relayed := true }))
  ∧ (∀ (s : State) (r : PRed) (rest : List PRed), s.reds = r :: rest →
    ∃ t, exec .reductionApply s = .next t ∧ t.reds = rest ∧ t.wgs = s.wgs
      ∧ (s.rangePoisoned r.pa (rmwWidth r.op) = true → t.mem = s.mem)
      ∧ (s.rangePoisoned r.pa (rmwWidth r.op) = false →
        Stored s t r.pa (rmwWidth r.op) (rmwNew r.op r.rm r.ftz (s.read r.pa (rmwWidth r.op)) r.v 0)))
  ∧ (∀ (s : State) (r : Req) (status data : Nat), s.reqs.find? (fun x => decide (x.tag = r.tag)) = some r →
    r.req.kind.returns = true →
    (∀ n, status ≠ 0 → ¬(status = 4 ∧ r.req.width = 1024 ∧ n = 1024) →
      ∃ t, exec (.remoteReply s.ownPeer.toNat r.tag status ⟨n, data⟩) s = .next t
        ∧ LaneAnswered s t r fun f => { f with fails := Tab.set f.fails r.lane status })
    ∧ (∀ n, r.req.width ≠ 1024 → ∃ t, exec (.remoteReply s.ownPeer.toNat r.tag 0 ⟨n, data⟩) s = .next t
      ∧ (s.readsCopy r = false → t.copies = s.copies)
      ∧ (s.readsCopy r = true → CopyHolds s t r.req.dest r.req.pa (bytesOf r.req.width data))
      ∧ LaneAnswered s t r fun f => { f with got := Tab.set f.got r.lane data })
    ∧ (∀ n, r.req.width = 1024 → data < 2 ^ 8192 → LaneCached s r →
      ∃ t v, exec (.remoteReply s.ownPeer.toNat r.tag 0 ⟨n, data⟩) s = .next t
        ∧ (r.keep = false → t.copies = s.copies)
        ∧ (r.keep = true → SetHasRoom s (some r.req.dest) (r.req.pa / 1024) →
          ⟨r.req.dest, r.req.pa / 1024, bytesOf 1024 data⟩ ∈ t.copies)
        ∧ LaneBytes s r data v ∧ LaneAnswered s t r fun f => { f with got := Tab.set f.got r.lane v })
    ∧ (∀ marks, r.req.width = 1024 → r.req.kind = .read → data < 2 ^ 8192 → LaneCached s r →
      ∃ t v, exec (.remoteReply s.ownPeer.toNat r.tag 4 ⟨1024, data + 2 ^ 8192 * marks⟩) s = .next t ∧ t.copies = s.copies
        ∧ LaneBytes s r data v
        ∧ (LaneMarked s r marks → LaneAnswered s t r fun f => { f with fails := Tab.set f.fails r.lane 4 })
        ∧ (¬LaneMarked s r marks → LaneAnswered s t r fun f => { f with got := Tab.set f.got r.lane v }))
    ∧ (r.formed + 4000000 * 2 ^ 16 ≤ s.dtime → ∃ t, exec (.requestTimeout r.tag) s = .next t
      ∧ LaneAnswered s t r fun f => { f with fails := Tab.set f.fails r.lane 6 }))
  ∧ (∀ (s : State) (r : Req) (status data : Nat), s.reqs.find? (fun x => decide (x.tag = r.tag)) = some r →
    r.req.kind.returns = false → status ≠ 0 → status ≠ 5 → (s.crs r.uid r.crs).closing r.req.batch r.ord = false →
    (s.crs r.uid r.crs).batchNo r.req.batch = r.req.batch →
    ∃ t, exec (.remoteReply s.ownPeer.toNat r.tag status ⟨0, data⟩) s = .next t
      ∧ ∀ j, j < 32 → (((t.crs r.uid r.crs).batch r.req.batch).errs.getLsbD j = true ↔
          ((s.crs r.uid r.crs).batch r.req.batch).errs.getLsbD j = true ∨ ∃ k < r.req.units, (r.req.seqno + k) % 32 = j))
  ∧ (∀ (s : State) (issuer tag status n data : Nat),
    (issuer = s.ownPeer.toNat → (∀ x ∈ s.reqs, x.tag ≠ tag) → exec (.remoteReply issuer tag status ⟨n, data⟩) s = .next s)
    ∧ ∀ j, issuer ≠ s.ownPeer.toNat → s.routeBack issuer = .go j →
      ∃ t, exec (.remoteReply issuer tag status ⟨n, data⟩) s = .next t
        ∧ PacketQueued s t j clsReply issuer n (.reply issuer tag status data))
  ∧ (∀ (s : State) (l issuer dest key batch links j : Nat), dest ≠ s.ownPeer.toNat → s.routeOf dest 0 = .go j →
    s.relayedAhead issuer key batch j = false → ∃ t, exec (.closeMarker l issuer dest key batch links) s = .next t
      ∧ PacketQueued s t j clsRequest dest 0 (.relayMarker issuer key batch links))
  ∧ (∀ (s : State) (issuer key batch peer errors j : Nat), issuer ≠ s.ownPeer.toNat → s.routeBack issuer = .go j →
    ∃ t, exec (.summaryReply issuer key batch peer errors) s = .next t
      ∧ PacketQueued s t j clsReply issuer 4 (.summary issuer key batch peer errors))
  ∧ (∀ (s : State) (l issuer key batch links : Nat), ∃ t,
    exec (.closeMarker l issuer s.ownPeer.toNat key batch links) s = .next t ∧ t = { s with inb := t.inb }
    ∧ t.inb = (if s.inb.any fun b => b.isOf issuer key batch then
        s.inb.map fun b => if b.isOf issuer key batch then { b with expects := links, marked := b.marked + 1 } else b
      else s.inb ++ [⟨issuer, key, batch, 0, links, 1, 0⟩]))
  ∧ (∀ (s : State) (issuer key batch j : Nat) (b : InBatch), s.inb.find? (fun x => x.isOf issuer key batch) = some b →
    (b.expects = 0 ∨ b.marked < b.expects ∨ b.pendRed ≠ 0 → exec (.summarySend issuer key batch) s = .next s)
    ∧ (0 < b.expects → b.expects ≤ b.marked → b.pendRed = 0 → s.routeBack issuer = .go j →
      ∃ u t, exec (.summarySend issuer key batch) s = .next t ∧ u = { s with inb := u.inb }
        ∧ u.inb = s.inb.filter (fun x => !x.isOf issuer key batch)
        ∧ PacketQueued u t j clsReply issuer 4 (.summary issuer key batch s.ownPeer.toNat b.errors)))
  ∧ (∀ (s : State) (u c batch peer errors k : Nat) (f : Flight) (ps : List Nat) (sn got : List (Nat × Nat)) (er : W32) (m : Nat),
    c < 32 → (s.crs u c).flights[k]? = some f → f.kind = .closeb batch ps sn got er (some m) → peer ∈ ps →
    (∀ g ∈ got, g.1 ≠ peer) →
    ∃ t, exec (.summaryReply s.ownPeer.toNat (32 * u + c) batch peer errors) s = .next t
      ∧ (t.crs u c).flights[k]? = some { f with kind := .closeb batch ps sn (got ++ [(peer, errors % 2 ^ 32)]) er (some m) })
  ∧ ∀ (s : State) (u c batch d : Nat) (f : Flight) (ps : List Nat) (sn got : List (Nat × Nat)) (er : W32) (m : Nat), c < 32 →
    s.lateClose u c batch = some f → f.kind = .closeb batch ps sn got er (some m) → f.scal = true → f.marks = [d] → d ≠ 0 →
    let n := (ps.filter fun p => got.any fun g => decide (g.1 = p)).length
    ∃ t, exec (.closebTimeout (32 * u + c) batch) s = .next t ∧ (∀ y, SameByte s t y) ∧ (t.crs u c).sIsFull d = true
      ∧ (∀ x ∈ (t.crs u c).flights, x.id ≠ f.id)
      ∧ (t.crs u c).sreg d = BitVec.ofNat 64
          (n * 2 ^ 32 + if n = ps.length then (got.foldl (fun a g => a ||| g.2) er.toNat) % 2 ^ 32 else 2 ^ 32 - 1)

-- ## Events: errors, self-test, power and boot

namespace Sys2Proof.Machine

/-- A record has been posted to both destinations of its class (R413). -/
def Posted (s t : State) (cls : Nat) (rec : List Byte) : Prop :=
  t.evMgmt = s.evMgmt.post ⟨cls, rec⟩ ∧ t.evHost = s.evHost.post ⟨cls, rec⟩

/-- What a lasting fault of a unit leads to (R410): it is on record, and what holds it loses it. -/
def UnitRetired (s t : State) (k : UnitKind) (die unit : Nat) : Prop :=
  let c := s.core (die * 144 + unit % 144)
  let c1 := t.core (die * 144 + unit % 144)
  (k, die, unit) ∈ t.retired ∧ match k with
  | .poolRow => if c.spares = 0 then c1.retired = true else c1.spares = c.spares - 1 ∧ c1.retired = c.retired
  | .lane => c1.retired = true
  | .operandUnit => c1.retired = true
  | .wavelength => (t.link (4 * die + unit / 16 % 4)).excluded.testBit (unit % 16 / 4) = true
  | _ => True

/-- The record of a verdict (R413). -/
def verdictBytes (k : UnitKind) (unit : Nat) (lasting : Bool) : List Byte :=
  bytesOf 1 (Config.unitCode (unitNo k)) ++ bytesOf 1 (ofBool lasting) ++ bytesOf 6 0 ++ bytesOf 8 unit ++ bytesOf 16 0

/-- The pages that hold a unit of the stack have HLD set, and nothing else in memory has changed (R43, R410). -/
def PagesHeld (s t : State) (unit : Nat) : Prop :=
  (∀ e ∈ s.pagesOf (32 * unit), t.read e.1 8 = s.read e.1 8 ||| 2 ^ 12)
    ∧ ∀ y, (∀ e ∈ s.pagesOf (32 * unit), ¬(e.1 ≤ y ∧ y < e.1 + 8)) → SameByte s t y

end Sys2Proof.Machine

/-- R89, R91 to R94, R410, R411, R418, R420: a patrol read that corrects counts, and one that cannot is reported and poisons its 32
bytes, of the stack or of what its slice holds, or drops a copy of another module's slate. An error in a slate's tag drops a
clean slate, and poisons the 32 units of a dirty one whose second copy is sound. A self-test quiesces its unit's holder; the outcome of a
test counts once the unit is quiet, and a failing one, or a second error within 24 hours, retires the unit, and 24 hours without one make
the fault transient. A fatal error stops every queue and course and writes its dump, a header and typed records. A die's clock is held
and released. BOOT begins as reset does, checks every image and holds its measurement, and stops where one fails. Which index names
which unit, the threshold of corrected errors, what a patrol read reads and when a verdict is taken are the model's
choices (log entries 40, 51 and 77), and so are what a record's length counts (log entry 41), that BOOT keeps memory, retirements, the
rollback counter and device time (log entry 42), and what an image's signature covers (log entry 7). -/
def Obligations.ErrorsTestsAndBootFollowTheRules : Prop :=
  (∀ (s : State) (pa : Nat) (p : ArrayUnit),
    exec (.patrolRead pa .clean) s = .next s
    ∧ (inStack pa = true → pickFrom (s.patrolled pa) (Config.choice s.steps) = some p → s.partHere p = true →
      let d := s.partDie p
      let rec1 := bytesOf 1 (if p = .stack pa then 4 else 3) ++ bytesOf 1 d ++ bytesOf 6 0 ++ bytesOf 8 (s.partUnit p).2
        ++ bytesOf 8 (s.partAddr p) ++ bytesOf 8 0
      (∃ t, exec (.patrolRead pa .corrected) s = .next t ∧ (∀ j, j ≠ d → t.die j = s.die j) ∧ SameMemory s t ∧ t.wgs = s.wgs
        ∧ t.poison = s.poison ∧ t.die d = { s.die d with corrected := (s.die d).corrected + 1 }
        ∧ (Config.correctedLimit < (s.die d).corrected + 1 → Posted s t 5 rec1)
        ∧ ((s.die d).corrected + 1 ≤ Config.correctedLimit → t.evMgmt = s.evMgmt ∧ t.evHost = s.evHost))
      ∧ ∃ t, exec (.patrolRead pa .uncorrectable) s = .next t ∧ t.mem = s.mem ∧ Posted s t 5 rec1
        ∧ (∀ a, t.poisoned a = ((decide (a / 32 = pa / 32) && (decide (p = .slate pa)
            || (decide (p = .stack pa) && !s.holds (slateOf pa)))) || s.poisoned a))
        ∧ (p = .stack pa → s.holds (slateOf pa) = true → Tab.get false t.under (pa / 32) = true)
        ∧ (∀ q, p = .copy q pa → t.copies = s.copies.filter fun c => !(decide (c.peer = q) && decide (c.slate = slateOf pa)))
        ∧ (∀ u i q v, p = .version u i q → (s.wg u).version[i]? = some v →
            (t.wg u).version[i]? = some { v with bad := Tab.set v.bad q true })
        ∧ (∀ u i q r, p = .log u i q → (s.wg u).redlog[32 * i + q]? = some r →
            (t.wg u).redlog[32 * i + q]? = some { r with bad := true })))
  ∧ (∀ (s : State) (sl : Nat) (tag : Tag) (both : Bool), Tab.find s.tags sl = some tag → tag.pend = 0 →
    (tag.d = 0 → Tab.find (s.tagError sl both).tags sl = none ∧ (s.tagError sl both).mem = s.mem)
    ∧ (tag.d ≠ 0 → Tab.find (s.tagError sl false).tags sl = none ∧ (s.tagError sl false).mem = s.mem
      ∧ (∀ a, (s.tagError sl false).poisoned a = (decide (a / 1024 = sl) || s.poisoned a))
      ∧ (s.tagError sl true).fatal = true))
  ∧ (∀ (s : State) (k : UnitKind) (die unit : Nat), s.reds = [] → (∀ r ∈ s.roots, r % 8192 = 0) →
    (∃ t, exec (.targetedSelfTest k die unit) s = .next t
      ∧ (s.watch1 k die unit = none → t.watched = s.watched ++ [⟨k, die, unit, s.dtime, true, false⟩])
      ∧ (∀ w, s.watch1 k die unit = some w → t.watch1 k die unit =
          some ⟨k, die, unit, s.dtime, true, w.again || decide (s.dtime < w.time + 86400 * 1000000000 * 2 ^ 16)⟩)
      ∧ (k ≠ .stackUnit → SameMemory s t)
      ∧ (k = .stackUnit → PagesHeld s t unit ∧ (t.die (die % 4)).running.isSome = true)
      ∧ (coreUnit k = true → (t.core (die * 144 + unit % 144)).testing = true
        ∧ ∀ u w, Tab.find s.wgs u = some w → w.status = .resident → w.core = die * 144 + unit % 144 →
          (s.grid w.gid).launch.lc = false →
          (∀ v ∈ s.unitOf u, s.debugged v = false ∧ (s.wg v).leave = .stay) → (t.wg u).leave ≠ .stay)
      ∧ (k = .wavelength → (t.link (4 * die + unit / 16 % 4)).drain = true
        ∧ ((s.link (4 * die + unit / 16 % 4)).state = 2 → (t.link (4 * die + unit / 16 % 4)).state = 3)))
    ∧ (coreUnit k = true → (s.quiesced k die unit = true ↔
        ∀ e ∈ s.wgs, ¬(e.2.status = .resident ∧ e.2.core = die * 144 + unit % 144)))
    ∧ (∀ w, s.watch1 k die unit = some w →
      (w.busy = true → s.quiesced k die unit = false → ∀ pass, exec (.selfTestVerdict k die unit pass) s = .next s)
      ∧ ((w.busy = false ∨ s.quiesced k die unit = true) →
        (∀ pass, pass = false ∨ w.again = true → ∃ t, exec (.selfTestVerdict k die unit pass) s = .next t ∧ UnitRetired s t k die unit
          ∧ (k ≠ .stackUnit → SameMemory s t) ∧ t.watch1 k die unit = none ∧ Posted s t 6 (verdictBytes k unit true))
        ∧ (w.again = false → s.dtime < w.time + 86400 * 1000000000 * 2 ^ 16 →
          (w.busy = false → exec (.selfTestVerdict k die unit true) s = .next s)
          ∧ (w.busy = true → ∃ t, exec (.selfTestVerdict k die unit true) s = .next t ∧ t.retired = s.retired ∧ t.cores = s.cores
            ∧ t.watch1 k die unit = some { w with busy := false } ∧ t.evMgmt = s.evMgmt
            ∧ (k = .wavelength → (t.link (4 * die + unit / 16 % 4)).drain = false)))
        ∧ (w.again = false → w.time + 86400 * 1000000000 * 2 ^ 16 ≤ s.dtime → ∃ t, exec (.selfTestVerdict k die unit true) s = .next t
          ∧ t.retired = s.retired ∧ (coreUnit k = true → (t.core (die * 144 + unit % 144)).testing = false)
          ∧ Posted s t 6 (verdictBytes k unit false)))))
  ∧ (∀ (s : State) (cause die : Nat), s.reds = [] → ∃ t, exec (.fatalError cause die) s = .next t ∧ t.fatal = true
    ∧ (∀ q, (s.queue q).qen = true → (t.queue q).qstate = 3)
    ∧ (∀ u c k, Tab.find (s.wg u).courses c = some k → (t.crs u c) = { k with halted := true })
    ∧ let b := s.dump cause die
      Placed s t 0x005FFC000000 b
      ∧ recField b 0 4 = 0x44514D44 ∧ recField b 4 2 = 1 ∧ recField b 6 2 = 64 ∧ recField b 8 8 = b.length ∧ b.length ≤ 2 ^ 26
      ∧ recField b 16 4 = cause % 2 ^ 32 ∧ recField b 20 1 = die % 2 ^ 8
      ∧ recField b 24 8 = s.dtime / 2 ^ 16 % 2 ^ 64 ∧ recField b 32 2 = s.dtime % 2 ^ 16
      ∧ recField b 34 2 = s.ownPeer.toNat ∧ recField b 40 4 = crc32 (b.drop 64)
      ∧ ∃ rs : List (BitVec 32 × List Byte), recField b 36 4 = rs.length
        ∧ b.drop 64 = rs.flatMap fun r => bytesOf 4 r.1.toNat ++ bytesOf 4 r.2.length ++ r.2)
  ∧ (∀ (s : State) (d : Nat), ∃ t u, exec (.thermalHold d) s = .next t ∧ exec (.thermalResume d) s = .next u
    ∧ (t.die d) = { s.die d with clockHeld := true } ∧ SameMemory s t ∧ t.wgs = s.wgs
    ∧ (t.evMgmt.queue.length = s.evMgmt.queue.length + 1 ∨ s.evMgmt.full = true) ∧ OnlyDie s u d
    ∧ u.die d = { s.die d with clockHeld := false })
  ∧ ∀ (s : State) (images : List Image) (key : Nat),
    let ok := ∀ i ∈ images, Config.verifies Config.fusedKey (i.bytes ++ bytesOf 8 i.version) i.signature = true ∧ s.rollback ≤ i.version
    ∃ t, exec (.boot images key) s = .next t ∧ t.mem = s.mem
    ∧ (t.bootStop = false ↔ ok) ∧ (ok → t.images = images.map fun i => Config.sha256 i.bytes) ∧ (¬ok → t.images = [])
    ∧ t.fatal = false ∧ t.rollback = s.rollback ∧ (∀ k, s.idKey = some k → t.idKey = some k) ∧ (ok → s.idKey = none → t.idKey = some key)
    ∧ t.retired = s.retired ∧ t.wgs = [] ∧ t.grids = [] ∧ (∀ l k, ((t.seqr l).ctx k).st = .idle) ∧ (∀ q, t.queue q = Queue.reset)
    ∧ (∀ l, t.link l = { Link.reset with excluded := (s.link l).excluded }) ∧ t.ownPeer = 0 ∧ t.routes = [] ∧ t.dtime = s.dtime
    ∧ ∀ k, t.core k = { Core.reset with retired := (s.core k).retired, spares := (s.core k).spares }

-- ## Events: launch queues

namespace Sys2Proof.Machine

/-- Nothing but one queue has changed. -/
def OnlyQueue (s t : State) (k : Nat) : Prop := t = { s with queues := t.queues } ∧ ∀ j, j ≠ k → t.queue j = s.queue j

/-- Nothing but what the slices hold has changed: a read has filled slates (R71). -/
def SlatesOnly (s t : State) : Prop :=
  t = { s with tags := t.tags, poison := t.poison, under := t.under, copies := t.copies }

/-- The queue has stopped (R197): its state and code, its place, its status word, which names the writer, and the event. -/
def QueueStopped (s t : State) (k code n : Nat) : Prop :=
  let q := s.queue k
  let word := bytesOf 8 q.rp.toNat ++ bytesOf 1 code ++ bytesOf 1 0
    ++ bytesOf 2 (if q.writer n = 4096 then s.ownPeer.toNat + 2 ^ 15 else q.writer n) ++ bytesOf 4 0
  (t.queue k).qstate = 3 ∧ (t.queue k).qerr = code ∧ (t.queue k).rp = q.rp ∧ (t.queue k).holding = false ∧ t.wgs = s.wgs
    ∧ t.grids = s.grids
    ∧ (s.reds = [] → Placed s t q.swa.toNat word
      ∧ Posted s t 4 (bytesOf 1 k ++ bytesOf 1 code ++ bytesOf 6 0 ++ word ++ bytesOf 8 0))

/-- The lowest code of a list whose condition holds. -/
def LowestOf (l : List (Nat × Bool)) (code : Nat) : Prop :=
  ∃ j : Nat, l[j]? = some (code, true) ∧ ∀ i < j, ∀ x, l[i]? = some x → x.2 = false

/-- None of the conditions holds. -/
def NoneOf (l : List (Nat × Bool)) : Prop := ∀ x ∈ l, x.2 = false

/-- The conditions on a launch packet before its chain is read, and those on the packet beside its chain (R196). -/
def launchFirst (b : Block) (n : Nat) : List (Nat × Bool) :=
  [(1, decide (bits b 3 0 ≠ 1)), (2, bit b 5), (3, launchReserved b n),
    (4, decide ((launchOf b).rcbp % 256 ≠ 0) || !inStack (launchOf b).rcbp)]

/-- Those that the chain decides. -/
def launchSecond (b : Block) (c : Chain) : List (Nat × Bool) :=
  [(6, unplaceable (launchOf b) c), (7, partitionBad (launchOf b)), (8, gridBad (launchOf b) c),
    (9, (launchOf b).fslots.any fslotBad), (10, launchAddress (launchOf b))]

/-- Those of class and right. -/
def launchThird (s : State) (k n : Nat) (b : Block) (c : Chain) : List (Nat × Bool) :=
  [(11, decide ((launchOf b).lc ≠ c.lat) || ((launchOf b).lc && (!(s.queue k).qlc || (s.latEntry c).isNone))),
    (12, !s.hasRight k ((s.queue k).writer n) 33 || ((launchOf b).lc && !s.hasRight k ((s.queue k).writer n) 35))]

/-- The conditions on a wait packet (R198). -/
def waitFirst (s : State) (k n : Nat) (b : Block) : List (Nat × Bool) :=
  [(2, decide (bits b 5 4 ≠ 0)),
    (3, decide (bits b 31 6 ≠ 0) || decide (w4 b 4 ≠ 0) || decide (bits (w4 b 0x18) 31 3 ≠ 0) || anySet b 0x20 0x80
      || (!bit (w4 b 0x18) 2 && decide (w4 b 0x14 ≠ 0))),
    (10, decide (w8 b 8 % (if bit (w4 b 0x18) 2 then 8 else 4) ≠ 0) || !inStack (w8 b 8)),
    (12, !s.hasRight k ((s.queue k).writer n) 34)]

/-- The conditions on a collective packet before its chain is read (R384). -/
def collFirst (b : Block) : List (Nat × Bool) :=
  [(2, decide (bits b 5 4 ≠ 0)), (3, collReserved b), (4, decide (w8 b 0x18 % 256 ≠ 0) || !inStack (w8 b 0x18))]

/-- The wait word, read now, meets COND (R198). -/
def WaitHolds (s : State) (b : Block) : Prop :=
  let n := if bit (w4 b 0x18) 2 then 8 else 4
  let v := s.read (w8 b 8) n
  let w := if n = 8 then w8 b 0x10 else w4 b 0x10
  let cond := bits (w4 b 0x18) 1 0
  (cond = 0 ∧ v = w) ∨ (cond = 1 ∧ v ≠ w) ∨ (cond = 2 ∧ w ≤ v) ∨ (cond = 3 ∧ signed (8 * n) w ≤ signed (8 * n) v)

/-- The round of a queue's class goes on behind it (R194). -/
def TurnTaken (s t : State) (k : Nat) : Prop :=
  if (s.queue k).qlc then t.turnL = k ∧ t.turnQ = s.turnQ else t.turnQ = k ∧ t.turnL = s.turnL

/-- The queue has stopped, and its class goes on behind it. -/
def StopsInTurn (s t : State) (k code n : Nat) : Prop := QueueStopped s t k code n ∧ TurnTaken s t k

/-- The check waits for a page, and the queue's class goes on behind it. -/
def WaitsInTurn (t u : State) (k : Nat) : Prop := u = { t with turnQ := u.turnQ, turnL := u.turnL } ∧ TurnTaken t u k

/-- A grid of a launch has joined: none of its workgroups is placed, and the queue passes its packet (R194). -/
def Joined (t u : State) (k n : Nat) (l : Launch) (c : Chain) : Prop :=
  u = { t with grids := u.grids, queues := u.queues, nextGid := t.nextGid + 1, turnQ := u.turnQ, turnL := u.turnL }
    ∧ TurnTaken t u k
    ∧ (u.grid t.nextGid).launch = l ∧ (u.grid t.nextGid).chain = c ∧ (u.grid t.nextGid).total = l.gx * l.gy * l.gz
    ∧ (u.grid t.nextGid).nextW = 0 ∧ (u.grid t.nextGid).abort = none ∧ (u.grid t.nextGid).endedN = 0
    ∧ (∀ g, g ≠ t.nextGid → u.grid g = t.grid g) ∧ (u.queue k).rp = (t.queue k).rp + BitVec.ofNat 64 n
    ∧ (u.queue k).qstate = 1 ∧ (u.queue k).holding = false ∧ ∀ j, j ≠ k → u.queue j = t.queue j

/-- A queue has become `q`, its round taken; nothing else has changed. -/
def QueueIs (t u : State) (k : Nat) (q : Queue) : Prop :=
  u = { t with queues := u.queues, turnQ := u.turnQ, turnL := u.turnL } ∧ TurnTaken t u k ∧ u.queue k = q
    ∧ ∀ j, j ≠ k → u.queue j = t.queue j

end Sys2Proof.Machine

/-- R192 to R200, R384, R385, R428: the front end. A queue reads its write pointer, and stops where it is beyond the ring; it
takes the packet at RP, of one granule or two. The lowest failing check stops the queue, an accepted launch joins or is held until there is
room; what the I/O die must walk first waits. A wait packet waits until its word meets the condition, or WAITTIME stops the
queue where it does not. A collective is held until its contexts are idle, then its image is loaded and all of them run. Enabling,
disabling, RESUME and SKIP do what they say. The round of each class goes on behind the queue served, which one that stops or waits for
a page has been too; a granule is read once. Memory's values are said with no reduction pending and no poison (log entry 30). That a
wait or collective packet of SZ = 0b01 counts two granules (log entry 72), and that a held launch of the latency class whose entry has
gone meanwhile stops the queue with code 11 (log entry 73), are the model's choice. -/
def Obligations.QueueEventsFollowTheRules : Prop :=
  (∀ (s : State) (k : Nat), s.reds = [] → (s.queue k).qen = true → (s.queue k).qstate ≠ 3 →
    s.rangePoisoned (s.queue k).wpa.toNat 8 = false →
    let v := BitVec.ofNat 64 (s.read (s.queue k).wpa.toNat 8)
    ∃ t, SlatesOnly s { t with queues := s.queues } ∧ (∀ j, j ≠ k → t.queue j = s.queue j)
      ∧ t.queue k = { s.queue k with wpseen := v, seen := true }
      ∧ ((v - (s.queue k).rp).toNat ≤ 2 ^ (s.queue k).qlog → exec (.writePointerRead k) s = .next t)
      ∧ (2 ^ (s.queue k).qlog < (v - (s.queue k).rp).toNat → ∃ u, exec (.writePointerRead k) s = .next u ∧ QueueStopped t u k 13 1))
  ∧ (∀ (s : State) (k : Nat), (s.queue k).qen = false ∨ (s.queue k).qstate = 3 → exec (.writePointerRead k) s = .next s)
  ∧ (∀ (s : State) (k : Nat), (s.queue k).qen = true → (s.queue k).qstate = 1 → (s.queue k).holding = false →
    (s.queue k).seen = true →
    (2 ^ (s.queue k).qlog < (s.queue k).pending → ∃ t, exec (.launchPacket k) s = .next t ∧ StopsInTurn s t k 13 1)
    ∧ let pa := fun i => (s.queue k).qbase.toNat + (((s.queue k).rp.toNat + i) % 2 ^ (s.queue k).qlog) * 128
      let got := (s.queue k).got
      let b := if got = [] then s.read (pa 0) 128 else leBytes got
      (s.reds = [] → 1 ≤ (s.queue k).pending → (s.queue k).pending ≤ 2 ^ (s.queue k).qlog →
        (got = [] ∧ s.rangePoisoned (pa 0) 128 = false) ∨ got.length = 128 →
        (bits b 5 4 ≠ 1 → s.head k = .packet (bits b 3 0) 1 b)
        ∧ (bits b 5 4 = 1 → (s.queue k).pending = 1 → got = [] → s.head k = .part
          ∧ ∃ t, exec (.launchPacket k) s = .next t ∧ SlatesOnly s { t with queues := s.queues }
            ∧ (∀ j, j ≠ k → t.queue j = s.queue j) ∧ t.queue k = { s.queue k with got := bytesOf 128 b })
        ∧ (bits b 5 4 = 1 → (s.queue k).pending = 1 → got ≠ [] → s.head k = .none)
        ∧ (bits b 5 4 = 1 → 2 ≤ (s.queue k).pending → s.rangePoisoned (pa 1) 128 = false →
          s.head k = .packet (bits b 3 0) 2 (b + s.read (pa 1) 128 * 2 ^ 1024)))
      ∧ (got.length = 256 → 2 ≤ (s.queue k).pending → (s.queue k).pending ≤ 2 ^ (s.queue k).qlog → bits (leBytes got) 5 4 = 1 →
        s.head k = .packet (bits (leBytes got) 3 0) 2 (leBytes got)))
  ∧ (∀ (s : State) (k n : Nat) (rcbp : Nat), s.reds = [] →
    SlatesOnly s { s.touchPacket k n with queues := s.queues } ∧ (∀ j, j ≠ k → (s.touchPacket k n).queue j = s.queue j)
    ∧ (s.touchPacket k n).queue k = { s.queue k with got := bytesOf (128 * n) (s.readPacket k n) }
    ∧ SlatesOnly s (s.touchChain rcbp 8))
  ∧ (∀ (s : State) (k ty n code : Nat) (b : Block), s.head k = .packet ty n b → ty ≠ 2 → ty ≠ 3 →
    let p := s.touchPacket k n
    let p1 := p.touchChain (launchOf b).rcbp 8
    (LowestOf (launchFirst b n) code → ∃ t, exec (.launchPacket k) s = .next t ∧ StopsInTurn p t k code n)
    ∧ (NoneOf (launchFirst b n) → p.chainAt (launchOf b).rcbp = none →
      ∃ t, exec (.launchPacket k) s = .next t ∧ StopsInTurn p1 t k 5 n)
    ∧ ∀ c, NoneOf (launchFirst b n) → p.chainAt (launchOf b).rcbp = some c →
      (LowestOf (launchSecond b c) code → ∃ t, exec (.launchPacket k) s = .next t ∧ StopsInTurn p1 t k code n)
      ∧ (NoneOf (launchSecond b c) →
        (∀ t, p1.ioXlat c.asn c.root (launchOf b).cpla 1 = .wait t → ∃ u, exec (.launchPacket k) s = .next u ∧ WaitsInTurn t u k)
        ∧ (∀ t f, p1.ioXlat c.asn c.root (launchOf b).cpla 1 = .fault t f →
          ∃ u, exec (.launchPacket k) s = .next u ∧ StopsInTurn t u k 10 n)
        ∧ ∀ (t : State) (x : Xlat), p1.ioXlat c.asn c.root (launchOf b).cpla 1 = .ok t x →
          (LowestOf (launchThird p k n b c) code → ∃ u, exec (.launchPacket k) s = .next u ∧ StopsInTurn t u k code n)
          ∧ (NoneOf (launchThird p k n b c) →
            (t.roomFor c = true → ∃ u, exec (.launchPacket k) s = .next u ∧ Joined t u k n (launchOf b) c)
            ∧ (t.roomFor c = false → ∃ u, exec (.launchPacket k) s = .next u
              ∧ QueueIs t u k { t.queue k with pkt := bytesOf (128 * n) b, chain := c, holding := true }))))
  ∧ (∀ (s : State) (k : Nat), (s.queue k).qen = true → (s.queue k).holding = true → bits (leBytes (s.queue k).pkt) 3 0 = 1 →
    let l := launchOf (leBytes (s.queue k).pkt)
    let n := (s.queue k).pkt.length / 128
    (s.roomFor (s.queue k).chain = false → exec (.launchHoldEnd k) s = .next s)
    ∧ (s.roomFor (s.queue k).chain = true → (l.lc = false ∨ s.latEntry (s.queue k).chain ≠ none) →
      ∃ u, exec (.launchHoldEnd k) s = .next u ∧ Joined s u k n l (s.queue k).chain)
    ∧ (s.roomFor (s.queue k).chain = true → l.lc = true → s.latEntry (s.queue k).chain = none →
      ∃ u, exec (.launchHoldEnd k) s = .next u ∧ StopsInTurn s u k 11 n))
  ∧ (∀ (s : State) (k n code : Nat) (b : Block), s.head k = .packet 2 n b →
    let p := s.touchPacket k n
    (LowestOf (waitFirst s k n b) code → ∃ t, exec (.waitPacket k) s = .next t ∧ StopsInTurn p t k code n)
    ∧ (NoneOf (waitFirst s k n b) → ∃ t, exec (.waitPacket k) s = .next t
      ∧ QueueIs p t k { p.queue k with pkt := bytesOf 128 b, qstate := 2, began := s.dtime, met := false }))
  ∧ (∀ (s : State) (k : Nat), (s.queue k).qen = true → (s.queue k).qstate = 2 → s.reds = [] →
    let b := leBytes (s.queue k).pkt
    let goes := (s.queue k).met = true ∨ WaitHolds s b
    s.rangePoisoned (w8 b 8) (if bit (w4 b 0x18) 2 then 8 else 4) = false →
    (goes → ∃ t, exec (.waitWordRead k) s = .next t ∧ (∀ y, SameByte s t y) ∧ (t.queue k).rp = (s.queue k).rp + 1
      ∧ (t.queue k).qstate = 1 ∧ ∀ j, j ≠ k → t.queue j = s.queue j)
    ∧ (¬goes → ∃ t, exec (.waitWordRead k) s = .next t ∧ SlatesOnly s t)
    ∧ let tmo := w4 b 0x1C
      (tmo ≠ 0 → (s.queue k).began + tmo * 1000 * 2 ^ 16 ≤ s.dtime → ¬goes →
        ∃ t, exec (.waittime k) s = .next t ∧ QueueStopped s t k 14 1)
      ∧ (tmo = 0 ∨ s.dtime < (s.queue k).began + tmo * 1000 * 2 ^ 16 ∨ goes → exec (.waittime k) s = .next s))
  ∧ (∀ (s : State) (k n : Nat) (b : Block), s.head k = .packet 3 n b →
    let p := s.touchPacket k n
    let p1 := p.touchChain (w8 b 0x18) 8
    let stops := fun (t : State) (code : Nat) => ∃ u, exec (.collectivePacket k) s = .next u ∧ StopsInTurn t u k code n
    (∀ code, LowestOf (collFirst b) code → stops p code)
    ∧ (NoneOf (collFirst b) → p.chainAt (w8 b 0x18) = none → stops p1 5)
    ∧ ∀ c, NoneOf (collFirst b) → p.chainAt (w8 b 0x18) = some c →
      (bits (w4 b 4) 15 0 = 0 → stops p1 6)
      ∧ (bits (w4 b 4) 15 0 ≠ 0 → collAddress b = true → stops p1 10)
      ∧ (bits (w4 b 4) 15 0 ≠ 0 → collAddress b = false →
        (∀ t, p1.imageXlat c (imagePages b) = .wait t → ∃ u, exec (.collectivePacket k) s = .next u ∧ WaitsInTurn t u k)
        ∧ (∀ t, p1.imageXlat c (imagePages b) = .fault t → stops t 10)
        ∧ ∀ t l, p1.imageXlat c (imagePages b) = .ok t l →
          (∀ u, t.ioXlat c.asn c.root (w8 b 0x28) 1 = .wait u → ∃ v, exec (.collectivePacket k) s = .next v ∧ WaitsInTurn u v k)
          ∧ (∀ u f, t.ioXlat c.asn c.root (w8 b 0x28) 1 = .fault u f → stops u 10)
          ∧ ∀ u x, t.ioXlat c.asn c.root (w8 b 0x28) 1 = .ok u x →
            let last := [(11, c.lat), (12, !p.hasRight k ((p.queue k).writer n) 33)]
            (∀ code, LowestOf last code → stops u code)
            ∧ (NoneOf last → ∃ v, exec (.collectivePacket k) s = .next v
              ∧ QueueIs u v k { u.queue k with pkt := bytesOf 128 b, chain := c, holding := true })))
  ∧ (∀ (s : State) (k : Nat), (s.queue k).qen = true → (s.queue k).holding = true →
    let b := leBytes (s.queue k).pkt
    let ls := linkBits (bits (w4 b 4) 15 0)
    let cx := bits b 17 16
    let at1 := bits (w4 b 8) 13 0 / 4
    let n := bits (w4 b 8) 30 16 / 4
    bits b 3 0 = 3 →
    (s.roomFor (s.queue k).chain = false → exec (.collectiveStart k) s = .next s)
    ∧ (∀ l ∈ ls, ((s.seqr l).ctx cx).st ≠ .idle → exec (.collectiveStart k) s = .next s)
    ∧ (s.roomFor (s.queue k).chain = true → (∀ l ∈ ls, ((s.seqr l).ctx cx).st = .idle) →
      (∀ t, s.imageXlat (s.queue k).chain (imagePages b) = .wait t →
        ∃ u, exec (.collectiveStart k) s = .next u ∧ WaitsInTurn t u k)
      ∧ (∀ t, s.imageXlat (s.queue k).chain (imagePages b) = .fault t →
        ∃ u, exec (.collectiveStart k) s = .next u ∧ StopsInTurn t u k 10 1)
      ∧ ∀ t pages, s.imageXlat (s.queue k).chain (imagePages b) = .ok t pages → t.reds = [] →
        ∃ u, exec (.collectiveStart k) s = .next u ∧ (∀ y, SameByte t u y) ∧ (u.queue k).rp = (t.queue k).rp + 1
          ∧ (u.queue k).holding = false ∧ u.wgs = t.wgs
          ∧ (∃ c, Tab.find u.colls t.nextGid = some c ∧ c.ctx = cx ∧ c.halted = 0 ∧ c.cpla = w8 b 0x28
            ∧ c.cplv.toNat = w8 b 0x30 ∧ c.lmask = bits (w4 b 4) 15 0 ∧ c.start = s.dtime)
          ∧ (∀ l ∈ ls, ((u.seqr l).ctx cx).st = .running ∧ ((u.seqr l).ctx cx).cpc = bits (w4 b 0x0C) 13 0
            ∧ ((u.seqr l).ctx cx).coll = t.nextGid ∧ ∀ r, ((u.seqr l).ctx cx).reg r =
                if r = 1 then BitVec.ofNat 64 (w8 b 0x20 + 128 * l) else if r = 2 then BitVec.ofNat 64 l
                else if r = 3 then t.ownPeer.setWidth 64 else 0)
          ∧ (∀ l ∈ ls, ∀ j, (j < at1 ∨ at1 + n ≤ j) → Tab.get 0 (u.seqr l).imem j = Tab.get 0 (t.seqr l).imem j)
          ∧ (∀ l ∈ ls, ∀ i p, i < n → pages.find? (fun p => decide (p.1 / 2 ^ 16 = (w8 b 0x10 + 4 * i) / 2 ^ 16)) = some p →
            let pa := p.2 - p.1 % 2 ^ 16 + (w8 b 0x10 + 4 * i) % 2 ^ 16
            u.rangePoisoned pa 4 = false → Tab.get 0 (u.seqr l).imem (at1 + i) = BitVec.ofNat 32 (t.read pa 4))
          ∧ (∀ l ∈ ls, (u.seqr l).broken = (t.seqr l).broken)
          ∧ ∀ l, l ∉ ls → u.seqr l = t.seqr l))
  ∧ ∀ (s : State) (k : Nat), ∃ t u v w : State, exec (.queueEnable k) s = .next t ∧ exec (.queueDisable k) s = .next u
    ∧ exec (.resume k) s = .next v ∧ exec (.skip k) s = .next w ∧ OnlyQueue s t k ∧ OnlyQueue s u k ∧ OnlyQueue s v k
    ∧ OnlyQueue s w k
    ∧ ((s.queue k).configured = false → t.queue k = { s.queue k with qerr := 0x10 })
    ∧ ((s.queue k).configured = true → (t.queue k).qen = true ∧ (t.queue k).rp = (s.queue k).rp)
    ∧ ((s.queue k).configured = true → (s.queue k).qen = true → t = s)
    ∧ ((s.queue k).configured = true → (s.queue k).qen = false → (t.queue k).qstate = if (s.queue k).qstate = 3 then 3 else 1)
    ∧ (u.queue k).qen = false ∧ (u.queue k).qstate = (if (s.queue k).qstate = 3 then 3 else 0) ∧ (u.queue k).rp = (s.queue k).rp
    ∧ ((s.queue k).qen = true → (s.queue k).qstate = 3 → (v.queue k).qstate = 1 ∧ (v.queue k).rp = (s.queue k).rp
      ∧ (w.queue k).qstate = 1
      ∧ (w.queue k).rp = (s.queue k).rp + if bits (s.readPacket k 1) 5 4 = 1 then 2 else 1)
    ∧ ((s.queue k).qen = false ∨ (s.queue k).qstate ≠ 3 → v = s ∧ w = s)

-- ## Events: placement, pre-emption, timers, tasks and grids

namespace Sys2Proof.Machine

/-- What a versioned task holds of this module's memory is in memory, its slates distinct and local, and every other byte is
as before (R83, R159). -/
def VersionPlaced (s t : State) (vs : List VSlate) : Prop :=
  ∀ y, t.byteAt y = match vs.find? fun v => decide (v.slate = y / 1024) with
    | some v => (Tab.find v.bytes (y % 1024)).getD (s.byteAt y)
    | none => s.byteAt y

/-- The version slates are of this module, distinct, and hold bytes of their slate. -/
def LocalVersion (vs : List VSlate) : Prop :=
  (vs.map VSlate.slate).Nodup ∧ ∀ v ∈ vs, v.peer = none ∧ Tab.sorted v.bytes = true ∧ ∀ e ∈ v.bytes, e.1 < 1024

/-- A device time as a time stamp (R187, R417; the order of its two parts is the model's choice, log entry 68). -/
def stampOf (a : Nat) : List Byte := bytesOf 8 (a / 2 ^ 16) ++ bytesOf 2 (a % 2 ^ 16) ++ bytesOf 6 0

/-- A completion record of R187 stands at `pa`: value, status, index, and two time stamps, zeros where none are asked for, else of
the device times given; one that is not given is open. -/
def RecordPlaced (s t : State) (pa value status index : Nat) (tsr : Bool) (first last : Option Nat) : Prop :=
  ∃ t0 t1 : List Byte, t0.length = 16 ∧ t1.length = 16 ∧ (tsr = false → t0 = bytesOf 16 0 ∧ t1 = bytesOf 16 0)
    ∧ (tsr = true → (∀ a, first = some a → t0 = stampOf a) ∧ ∀ a, last = some a → t1 = stampOf a)
    ∧ Placed s t pa (bytesOf 8 value ++ bytesOf 1 status ++ bytesOf 7 0 ++ bytesOf 8 index ++ bytesOf 8 0 ++ t0 ++ t1)

/-- A course begins as R174 says. -/
def Begun (l : Launch) (k : Course) : Prop :=
  k.pc = l.entry ∧ (∀ r, k.sreg r = if r = 1 then l.argp else 0) ∧ (∀ r, k.vreg r = VReg.zero) ∧ (∀ p, k.pred p = 0)
    ∧ k.exec = 0xFFFFFFFF ∧ k.mode = 0 ∧ k.fstat = 0 ∧ k.repst = 0 ∧ k.stack = [] ∧ k.depth = 0 ∧ k.tlev = 0 ∧ k.flights = []
    ∧ k.sched = .ready ∧ k.exited = false

/-- The members of a unit are to leave in this way (R25). -/
def UnitLeaves (s t : State) (us : List Nat) (k : Leave) : Prop :=
  (∀ v ∈ us, t.wg v = { s.wg v with leave := k }) ∧ (∀ v, v ∉ us → t.wg v = s.wg v) ∧ SameMemory s t

/-- A member of a unit has used seven eighths of the instructions that its grid expects, or is a task that runs unbuffered (R203);
or is a task that has been committed, and waits for its cohort to end. -/
def NearEnd (s : State) (us : List Nat) : Prop :=
  ∃ v ∈ us, let l := (s.grid (s.wg v).gid).launch
    (l.expi ≠ 0 ∧ l.expi - l.expi / 8 ≤ (s.wg v).retired) ∨ (s.wg v).unbuf = true ∨ (s.wg v).taskEnd = true

/-- A member of a unit is the oldest task of its grid, or of an idempotent grid (R203). -/
def StartsAfresh (s : State) (us : List Nat) : Prop :=
  ∃ v ∈ us, let l := (s.grid (s.wg v).gid).launch
    s.oldest v = true ∨ (l.idem = true ∧ l.ver = false)

/-- The bytes that a list of pieces puts in an area. -/
def Holds (ps : List Piece) (m : Nat → Byte) : Prop := ∀ p ∈ ps, ∀ i, i < p.bytes.length → m (p.off + i) = p.bytes.getD i 0

/-- The unit may be moved to these cores (R207): resident for 2 ms and not leaving, not of the latency class, no member the oldest
task or held by a debugger; other cores, of one cluster, one for each member. -/
def MayMigrate (s : State) (us cores : List Nat) (lc : Bool) : Prop :=
  us ≠ [] ∧ lc = false ∧ cores.length = us.length ∧ cores.Nodup
    ∧ (∀ k ∈ cores, k < 576 ∧ ∀ j ∈ cores, j / 24 = k / 24)
    ∧ (∀ i v k : Nat, us[i]? = some v → cores[i]? = some k → (s.wg v).core ≠ k)
    ∧ ∀ v ∈ us, (s.wg v).status = .resident ∧ (s.wg v).leave = .stay ∧ (s.wg v).placed + 2000000 * 2 ^ 16 ≤ s.dtime
      ∧ s.oldest v = false ∧ s.debugged v = false

end Sys2Proof.Machine

/-- R21, R22, R25, R136, R170, R174, R201 to R207, R273, R300, R320, R401, R402: workgroups. A unit that fits is placed on emptied
memory, each course begun; a unit that must yield drains, is saved or starts afresh; once the pages of all its members' areas are
mapped, a save writes the areas and a restore reads them back on emptied L1s, registers as they were; a unit that is over returns its
place. A course active for 512 cycles makes room; the timer trap and the wait-timeout of MWAIT are taken as they fall due (said of the
course at turn, inside and outside a REP). The model's choices: that a cohort leaves as a unit, and in which of the ways of R203's table
where its members differ (log entries 19 and 74); that nothing happens to a saved unit whose area cannot be read (log entry 33); that a
timed-out repetition of MWAIT counts as done (log entry 55); that a task whose version was lost while it was saved begins afresh when
it is restored (log entry 62). -/
def Obligations.PlacementEventsFollowTheRules : Prop :=
  (∀ (s : State) (gid : Nat) (cores : List Nat), (s.grid gid).abort = none → (s.grid gid).nextUnit ≠ [] →
    (s.canPlace (s.grid gid) cores = false → exec (.placement gid cores) s = .next s)
    ∧ (s.canPlace (s.grid gid) cores = true → ∃ t, exec (.placement gid cores) s = .next t ∧ (∀ y, SameByte s t y)
      ∧ (∀ (i w tries k : Nat), (s.grid gid).nextUnit[i]? = some (w, tries) → cores[i]? = some k →
        let x := t.wg (s.nextUid + i)
        x.gid = gid ∧ x.w = w ∧ x.core = k ∧ x.status = .resident ∧ x.tries = tries ∧ x.cmds = []
          ∧ (∀ c, c < (s.grid gid).launch.ncrs → Begun (s.grid gid).launch (x.crs c))
          ∧ (∀ g, x.full g = !(s.grid gid).launch.spe) ∧ (∀ a, x.byte a = 0)
          ∧ ((s.grid gid).again ≠ [] → (t.core k).l1 = []))
      ∧ ∀ v, v < s.nextUid → t.wg v = s.wg v))
  ∧ (∀ (s : State) (u : Nat),
    let us := s.unitOf u
    (s.mustYield u = false → exec (.preemption u) s = .next s)
    ∧ ((∃ v ∈ us, (s.wg v).leave ≠ .stay) → exec (.preemption u) s = .next s)
    ∧ (s.mustYield u = true → (∀ v ∈ us, (s.wg v).leave = .stay) → ∃ t, exec (.preemption u) s = .next t
      ∧ (NearEnd s us → UnitLeaves s t us (.drain s.dtime))
      ∧ (¬NearEnd s us → StartsAfresh s us → UnitLeaves s t us .flush)
      ∧ (¬NearEnd s us → ¬StartsAfresh s us → UnitLeaves s t us .save)))
  ∧ (∀ (s : State) (u : Nat), (s.wg u).status = .resident → ∃ t, exec (.workgroupDrain u) s = .next t
    ∧ UnitLeaves s t (s.unitOf u) (.drain s.dtime))
  ∧ (∀ (s : State) (u at1 : Nat), (s.wg u).leave = .drain at1 →
    let us := s.unitOf u
    (s.dtime < at1 + 100000 * 2 ^ 16 → exec (.drainTimeout u) s = .next s)
    ∧ (at1 + 100000 * 2 ^ 16 ≤ s.dtime → ∃ t, exec (.drainTimeout u) s = .next t
      ∧ (((∃ v ∈ us, (s.wg v).unbuf = true) ∨ StartsAfresh s us) → UnitLeaves s t us .runOn)
      ∧ ((∀ v ∈ us, (s.wg v).unbuf = false) → ¬StartsAfresh s us → UnitLeaves s t us .save)))
  ∧ (∀ (s : State) (u : Nat), (s.wg u).status = .resident →
    let us := s.unitOf u
    let late := ∃ v ∈ us, s.oldest v = true ∨ (s.wg v).unbuf = true
    let saved := s.mapAreas 1 (us.map fun v => (v, (s.wg v).core))
    (s.unitQuiet u = false → exec (.save u) s = .next s)
    ∧ (s.unitQuiet u = true → us ≠ [] →
      (late → (∃ v ∈ us, (s.wg v).goal ≠ []) → ∃ t, exec (.save u) s = .next t
        ∧ ∀ v ∈ us, (t.wg v).leave = .stay ∧ (t.wg v).goal = [] ∧ (t.wg v).status = (s.wg v).status)
      ∧ (late → (∀ v ∈ us, (s.wg v).goal = []) → ∃ t, exec (.save u) s = .next t
        ∧ UnitLeaves s t us (if us.any (fun v => let w := s.wg v; let l := (s.grid w.gid).launch
            (decide (l.expi ≠ 0) && decide (l.expi - l.expi / 8 ≤ w.retired)) || w.unbuf || w.taskEnd) then .drain s.dtime else .flush))
      ∧ (¬late → ∀ w, saved = .held w → exec (.save u) s = .next w)
      ∧ (¬late → saved = .bad → ∃ t, exec (.save u) s = .next t ∧ UnitLeaves s t us (.drain s.dtime))
      ∧ (¬late → us.Nodup → ∀ r l, saved = .ok (r, l) → ∃ t, exec (.save u) s = .next t
        ∧ (∀ v ∈ us, (t.wg v).status = .saved ∧ (t.wg v).granules = [] ∧ (t.wg v).leave = .stay)
        ∧ ∀ pages, us = [u] → l = [(u, pages)] → t.mem = ((r.settleWg u).writeArea u pages).mem)))
  ∧ (∀ (c : Course) (nv ns mon now : Nat) (m : Nat → Byte) (bad : Nat → Nat → Bool), nv ≤ 192 → ns ≤ 64 → Holds (coursePieces c nv ns mon) m →
    let k := c.reload nv ns (fun o n => leBytes ((List.range n).map fun j => m (o + j))) bad now
    k.pc.toNat = c.pc.toNat / 4 * 4 ∧ k.mode.toNat = c.mode.toNat % 2 ^ 17 ∧ k.exec = c.exec ∧ k.fstat = c.fstat
      ∧ k.repst.toNat = c.repst.toNat % 2 ^ 17 ∧ k.ctimer = c.ctimer
      ∧ k.ctlim = c.ctlim ∧ (c.tlev < 2 ^ 64 → k.tlev = c.tlev) ∧ (∀ p, p < 8 → k.pred p = c.pred p)
      ∧ (∀ n, n < ns → k.sreg n = c.sreg n ∧ (n ≠ 0 → k.sIsFull n = c.sIsFull n))
      ∧ (∀ n, n < nv → k.vreg n = c.vreg n ∧ k.vIsFull n = c.vIsFull n) ∧ k.sched = .ready ∧ k.wait = none)
  ∧ (∀ (s : State) (u : Nat),
    let us := s.unitOf u
    let bound := ∃ v ∈ us, (s.wg v).unbuf = true ∨ (s.wg v).taskEnd = true
    (s.mayFlush u = false → exec (.flushAndRestart u) s = .next s)
    ∧ (s.mayFlush u = true → bound → ∃ t, exec (.flushAndRestart u) s = .next t ∧ UnitLeaves s t us (.drain s.dtime))
    ∧ (s.mayFlush u = true → ¬bound → us.Nodup →
      ∃ t, exec (.flushAndRestart u) s = .next t ∧ (∀ y, SameByte s t y)
        ∧ (∀ v ∈ us, (t.wg v).status = .ended ∧ (t.wg v).version = [] ∧ (t.wg v).cmds = []
          ∧ ((s.wg v).w, (s.wg v).tries, s.dtime) ∈ (t.grid (s.wg v).gid).again)
        ∧ ∀ v, v ∉ us → t.wg v = s.wg v))
  ∧ (∀ (s : State) (u : Nat) (cores : List Nat),
    let us := s.unitOf u
    let g := s.grid (s.wg u).gid
    let restored := s.mapAreas 0 (us.zip cores)
    g.abort = none → us ≠ [] → us.Nodup → (∀ v ∈ us, (s.wg v).status = .saved) → us.length = cores.length →
    (s.canPlace g cores = false → exec (.restore u cores) s = .next s)
    ∧ (s.canPlace g cores = true →
      (∀ w, restored = .held w → exec (.restore u cores) s = .next w)
      ∧ (restored = .bad → exec (.restore u cores) s = .next s)
      ∧ (∀ r l, restored = .ok (r, l) → ∃ t, exec (.restore u cores) s = .next t ∧ (∀ k ∈ cores, (t.core k).l1 = [])
        ∧ (∀ (i v k : Nat), us[i]? = some v → cores[i]? = some k →
          (t.wg v).status = .resident ∧ (t.wg v).core = k ∧ (t.wg v).goal = [])
        ∧ ∀ k pages, us = [u] → cores = [k] → l = [(u, pages)] →
          let a := r.readArea u pages
          (a.2.redo = false → t.mem = a.1.mem ∧ t.wg u = { a.2 with
            status := .resident, core := k, granules := (t.wg u).granules, omem := (t.wg u).omem, placed := t.dtime, goal := [] })
          ∧ (a.2.redo = true → (t.wg u).tries = a.2.tries + 1
            ∧ ∀ c y, Tab.find a.2.courses c = some y → Begun g.launch (t.crs u c)))))
  ∧ (∀ (s : State) (u : Nat) (cores : List Nat),
    let us := s.unitOf u
    let lc := (s.grid (s.wg u).gid).launch.lc
    (¬MayMigrate s us cores lc → exec (.migration u cores) s = .next s)
    ∧ (MayMigrate s us cores lc → ∃ t, exec (.migration u cores) s = .next t ∧ SameMemory s t
      ∧ (∀ v ∈ us, t.wg v = { s.wg v with leave := .save, goal := cores }) ∧ ∀ v, v ∉ us → t.wg v = s.wg v))
  ∧ (∀ (s : State) (u : Nat), (s.wg u).status = .resident → (s.grid (s.wg u).gid).abort = none →
    (s.unitOver u = false → exec (.workgroupEnd u) s = .next s)
    ∧ (s.unitOver u = true → ∃ t, exec (.workgroupEnd u) s = .next t ∧ t.mem = s.mem ∧ (t.wg u).status = .ended
      ∧ (t.grid (s.wg u).gid).endedN = (s.grid (s.wg u).gid).endedN + 1 ∧ ∀ v, v ≠ u → t.wg v = s.wg v))
  ∧ (∀ (s : State) (u c : Nat),
    let k := s.crs u c
    (k.sched = .active ∧ k.entered + 512 ≤ s.cycle.toNat ∧ s.anyReady (s.wg u).core = true → ∃ t, exec (.quantumSwap u c) s = .next t
      ∧ t.crs u c = { k with sched := .ready, entered := s.cycle.toNat } ∧ ∀ v j, (v, j) ≠ (u, c) → t.crs v j = s.crs v j)
    ∧ (k.sched ≠ .active ∨ s.cycle.toNat < k.entered + 512 ∨ s.anyReady (s.wg u).core = false →
      exec (.quantumSwap u c) s = .next s))
  ∧ (∀ (s w : State), s.timerDue s.curWg s.curCrs = true → s.cur.arb = none → s.curL.handler ≠ 0 → s.cur.tlev < 4 → s.cur.depth < 256 →
    TrapWrites s w { code := 0x10 } →
    ∃ t u, exec (.timer s.curWg s.curCrs) s = .next t ∧ TrapTaken s w u { code := 0x10 }
      ∧ t = u.setCur { u.cur with ctlim := 0 })
  ∧ (∀ (s : State) (u c : Nat), s.timerDue u c = false → exec (.timer u c) s = .next s)
  ∧ ∀ (s w : State), s.cur.wait = some .mwait → s.cur.limit = some 0 → s.monitorOver s.curWg s.curCrs = false → s.cur.arb = none →
    s.curL.handler ≠ 0 → s.cur.tlev < 4 → s.cur.depth < 256 →
    let s0 := { s with inRep := s.cur.repAct }
    let s1 := s0.setCur { s.cur with
      limit := none, repst := if s.cur.repAct then repWord true s.cur.repCount (s.cur.repDone + 1) else s.cur.repst }
    let i : TrapInfo := { code := 0x11, resume := if s.cur.repAct then none else some (s.cur.pc + 4) }
    TrapWrites s1 w i → ∃ t x, exec (.waitTimeout s.curWg s.curCrs) s = .next t ∧ TrapTaken s1 w x i
      ∧ t = x.disarm s.curWg s.curCrs

namespace Sys2Proof.Machine

/-- The state in which the guards of a task have been read. -/
def guardsRead (s : State) (u : Nat) : State := (s.wg u).guards.foldl (fun t x => (t.homeRead x.1 4).1) s

/-- The state in which an aborting grid has lost what it had under way: a cancellation from outside begins with its cause. -/
def aborting (s : State) (gid : Nat) (g : Grid) : State :=
  let t := if g.abort = none then s.abortGrid gid 5 0 else s
  if g.dropped then t else t.dropGrid gid

end Sys2Proof.Machine

/-- R83, R149, R159, R160, R180 to R183, R186, R187, R386: tasks and grids. The oldest task that has ended commits: where every guard
holds its version is in memory and the next task follows, else it restarts with TRY one more, once no atomic of it is left on its way;
an unbuffered task commits without a look at guards; one whose version is full commits what it holds and runs on unbuffered, and its courses
wait for room no longer. A task whose logged reductions have met an error is not committed: it restarts, or, unbuffered, aborts
its grid. An aborted grid loses its workgroups and the requests that no link has begun to send, takes its fault domain with it, and once
what it had issued is complete writes its record with the cause; a grid or a collective that is over writes its record with status 0, an
aborted collective with status 5. The model's choices: that a commit places its slates of this module in the one step (log entry 71);
that a record waits while its page is walked or held, and is not written where its page faults (log entry 22); the layout of the time
stamps (log entry 68). Said with no reduction pending. -/
def Obligations.TaskAndGridEventsFollowTheRules : Prop :=
  (∀ (s : State) (gid u : Nat), s.taskOf gid (s.grid gid).commits = some u → (s.grid gid).launch.ver = true →
    (s.grid gid).abort = none → (s.wg u).status = .resident → (s.wg u).taskEnd = false → (s.wg u).holder = none →
    (s.over u = false ∨ s.commitsQuiet gid = false → exec (.commit gid) s = .next s)
    ∧ (s.over u = true → s.commitsQuiet gid = true → s.reds = [] →
      (∀ g ∈ (s.wg u).guards, (guardsRead s u).rangePoisoned g.1 4 = false) →
      (((s.wg u).unbuf = true ∨ ∀ g ∈ (s.wg u).guards, s.read g.1 4 = g.2) → (s.wg u).redlog = [] → (s.wg u).detadd = [] →
        LocalVersion (s.wg u).version →
        ∃ t, exec (.commit gid) s = .next t ∧ VersionPlaced s t (s.wg u).version ∧ (t.wg u).taskEnd = true
          ∧ (t.wg u).version = [] ∧ (t.wg u).guards = [] ∧ t.grid gid = { s.grid gid with commits := (s.grid gid).commits + 1, last := s.dtime })
      ∧ ((∃ r ∈ (s.wg u).redlog, r.bad = true) → (s.wg u).unbuf = true → exec (.commit gid) s = .next (s.abortOf u 1))
      ∧ ((s.wg u).unbuf = false → ((∃ r ∈ (s.wg u).redlog, r.bad = true) ∨ ∃ g ∈ (s.wg u).guards, s.read g.1 4 ≠ g.2) →
        s.calm u = false → exec (.commit gid) s = .next s)
      ∧ ((s.wg u).unbuf = false → ((∃ r ∈ (s.wg u).redlog, r.bad = true) ∨ ∃ g ∈ (s.wg u).guards, s.read g.1 4 ≠ g.2) →
        s.calm u = true → ∃ t, exec (.commit gid) s = .next t
        ∧ (t.wg u).tries = (s.wg u).tries + 1 ∧ (t.wg u).version = [] ∧ (t.wg u).guards = [] ∧ (t.wg u).cmds = []
        ∧ t.grid gid = s.grid gid
        ∧ (∀ c k, Tab.find (s.wg u).courses c = some k → Begun (s.grid (s.wg u).gid).launch (t.crs u c))
        ∧ ((∀ p ∈ s.pend, p.uid ≠ u) → ∀ y, SameByte s t y))))
  ∧ (∀ (s : State) (gid u : Nat), s.taskOf gid (s.grid gid).commits = some u → (s.grid gid).launch.ver = true →
    (s.grid gid).abort = none → (s.wg u).status = .resident → (s.wg u).unbuf = false → (s.wg u).holder = none →
    ((s.wg u).fullV = true ∨ ∃ k ∈ (s.wg u).courses, k.2.wait = some .version) → s.commitsQuiet gid = true → s.reds = [] →
    (s.wg u).redlog = [] → (s.wg u).detadd = [] → LocalVersion (s.wg u).version →
    ∃ t, exec (.unbufferedCommit gid) s = .next t ∧ VersionPlaced s t (s.wg u).version ∧ (t.wg u).unbuf = true
      ∧ (t.wg u).fullV = false ∧ (t.wg u).version = [] ∧ (t.wg u).guards = [] ∧ t.grid gid = s.grid gid
      ∧ ∀ c k, Tab.find (s.wg u).courses c = some k → k.wait = some .version → (t.crs u c).wait = none)
  ∧ (∀ (s : State) (gid cause c w : Nat) (g : Grid), Tab.find s.grids gid = some g →
    let d := aborting s gid g
    (g.abort = none → cause ≠ 5 → exec (.gridAbort gid cause) s = .next s)
    ∧ ((g.abort = some (c, w) ∨ (g.abort = none ∧ cause = 5 ∧ c = 5 ∧ w = 2 ^ 64 - 1)) →
      (g.dropped = false → d.mem = s.mem ∧ (d.grid gid).dropped = true
        ∧ (∀ u v, Tab.find s.wgs u = some v → v.gid = gid → (d.wg u).status = .ended)
        ∧ ∀ r ∈ d.reqs, (s.wg r.uid).gid = gid → s.begun r.tag = true)
      ∧ (g.abort = none → ∀ n y, n ≠ gid → Tab.find s.grids n = some y →
        (d.grid n).abort = if g.chain.fdom ≠ 0 ∧ y.chain.fdom = g.chain.fdom ∧ y.chain.job = g.chain.job ∧ y.abort = none then
          some (3, 2 ^ 64 - 1) else y.abort)
      ∧ (d.gridQuiet gid = false → exec (.gridAbort gid cause) s = .next d)
      ∧ (d.gridQuiet gid = true →
        (∀ r, d.ioXlat g.chain.asn g.chain.root g.launch.cpla 1 = .wait r → exec (.gridAbort gid cause) s = .next r)
        ∧ (∀ r f, d.ioXlat g.chain.asn g.chain.root g.launch.cpla 1 = .fault r f →
          ∃ t, exec (.gridAbort gid cause) s = .next t ∧ Tab.find t.grids gid = none ∧ t.mem = r.mem)
        ∧ ∀ r x, d.ioXlat g.chain.asn g.chain.root g.launch.cpla 1 = .ok r x → x.res = .here → s.reds = [] →
          ∃ t, exec (.gridAbort gid cause) s = .next t ∧ Tab.find t.grids gid = none ∧ t.wgs = d.wgs
            ∧ RecordPlaced s t x.pa g.launch.cplv.toNat c w g.launch.tsr g.first none)))
  ∧ (∀ (s : State) (gid : Nat) (g : Grid), Tab.find s.grids gid = some g → g.abort = none →
    (g.endedN ≠ g.total → exec (.completionWrite gid) s = .next s)
    ∧ (g.endedN = g.total → g.total ≠ 0 →
      (∀ r, s.ioXlat g.chain.asn g.chain.root g.launch.cpla 1 = .wait r → exec (.completionWrite gid) s = .next r)
      ∧ (∀ r f, s.ioXlat g.chain.asn g.chain.root g.launch.cpla 1 = .fault r f →
        ∃ t, exec (.completionWrite gid) s = .next t ∧ Tab.find t.grids gid = none ∧ t.mem = r.mem)
      ∧ ∀ r x, s.ioXlat g.chain.asn g.chain.root g.launch.cpla 1 = .ok r x → x.res = .here → s.reds = [] →
        ∃ t, exec (.completionWrite gid) s = .next t ∧ Tab.find t.grids gid = none ∧ t.wgs = s.wgs
          ∧ RecordPlaced s t x.pa g.launch.cplv.toNat 0 (2 ^ 64 - 1) g.launch.tsr g.first (some g.last)))
  ∧ ∀ (s : State) (gid : Nat) (c : Coll), Tab.find s.grids gid = none → Tab.find s.colls gid = some c →
    (c.over = false → c.aborted = false → exec (.completionWrite gid) s = .next s)
    ∧ (c.over = true ∨ c.aborted = true →
      (∀ r, s.ioXlat c.asn c.root c.cpla 1 = .wait r → exec (.completionWrite gid) s = .next r)
      ∧ (∀ r f, s.ioXlat c.asn c.root c.cpla 1 = .fault r f →
        ∃ t, exec (.completionWrite gid) s = .next t ∧ Tab.find t.colls gid = none ∧ t.mem = r.mem)
      ∧ ∀ r x, s.ioXlat c.asn c.root c.cpla 1 = .ok r x → x.res = .here → s.reds = [] →
        ∃ t, exec (.completionWrite gid) s = .next t ∧ Tab.find t.colls gid = none ∧ t.wgs = s.wgs
          ∧ RecordPlaced s t x.pa c.cplv.toNat (if c.aborted then 5 else 0) (2 ^ 64 - 1) c.tsr (some c.start)
              (if c.aborted then none else some c.last))

-- ## Events: control of the sequencers

namespace Sys2Proof.Machine

/-- One context of a sequencer has become `x`; nothing else has changed. -/
def OnlyCtx (s t : State) (l k : Nat) (x : Ctx) : Prop :=
  t = { s with seqs := t.seqs } ∧ (t.seqr l).ctx k = x ∧ (∀ i j, (i, j) ≠ (l, k) → (t.seqr i).ctx j = (s.seqr i).ctx j)
    ∧ ∀ i, t.seqr i = { s.seqr i with ctxs := (t.seqr i).ctxs, atHead := (t.seqr i).atHead, turn := (t.seqr i).turn, run := (t.seqr i).run }

end Sys2Proof.Machine

/-- R367, R372 to R374, R376, R378, R380, R386: control of the contexts. GO and STEP let a context that has faulted or stopped go
on; STOP stops one that runs or waits, once what it transmits has left, and gives back the room that was kept for it; ABORT makes
every context of the collective idle, throws away its chunks and writes the record with status 5. A chunk that arrives joins its buffer
where there is room, the turn goes round the contexts that run, and a wait longer than WDOG is reported once. The model's choices: that
ABORT's record waits while its page is walked or held, and is not written where its page faults (log entry 22); the layout of the
record's time stamps (log entry 68). -/
def Obligations.SequencerControlFollowsTheRules : Prop :=
  (∀ (s : State) (l k : Nat),
    let x := (s.seqr l).ctx k
    (x.st = .faulted ∨ x.st = .stopped → ∃ t u, exec (.go l k) s = .next t ∧ exec (.seqStep l k) s = .next u
      ∧ OnlyCtx s t l k { x with st := .running, stopReq := false, step1 := false }
      ∧ OnlyCtx s u l k { x with st := .running, stopReq := false, step1 := true })
    ∧ (x.st ≠ .faulted → x.st ≠ .stopped → exec (.go l k) s = .next s ∧ exec (.seqStep l k) s = .next s)
    ∧ let y : Ctx := if x.st = .running ∨ x.st = .waiting then
          (if x.sending.isSome then { x with stopReq := true }
            else { x with st := .stopped, since := none, barked := false, stopReq := false, step1 := false, watch := none, met := false })
        else x
      ∃ t, exec (.stop l k) s = .next t ∧ SameMemory s t
        ∧ (t.seqr l).ctx k = (if x.sending.isSome then y else { y with kept := none })
        ∧ (∀ i j, (i, j) ≠ (l, k) → (t.seqr i).ctx j = (s.seqr i).ctx j) ∧ (∀ e ∈ (t.seqr l).atHead, e.1 ≠ k)
        ∧ (∀ j, t.link j = { s.link j with room := (t.link j).room })
        ∧ ((x.sending.isSome = true ∨ x.kept = none) → t.links = s.links)
        ∧ ∀ j key n, x.sending = none → x.kept = some (j, key, n) → ∀ i e, Tab.get 65536 (t.link i).room e =
            Tab.get 65536 (s.link i).room e + if i = j ∧ e = key then n else 0)
  ∧ (∀ (s : State) (l k : Nat) (c : Coll),
    let n := ((s.seqr l).ctx k).coll
    let d := (linkBits c.lmask).foldl (fun t j => if ((t.seqr j).ctx c.ctx).coll = n then t.dropContext j c.ctx else t) s
    let e := { d with colls := Tab.set d.colls n { c with aborted := true } }
    Tab.find s.colls n = some c →
    (((s.seqr l).ctx k).st = .idle ∨ c.aborted = true → exec (.abort l k) s = .next s)
    ∧ (((s.seqr l).ctx k).st ≠ .idle → c.aborted = false →
      (∃ t, exec (.abort l k) s = .next t ∧ d.mem = s.mem ∧ d.reds = s.reds ∧ t.wgs = s.wgs
        ∧ ∀ j ∈ linkBits c.lmask, ((s.seqr j).ctx c.ctx).coll = n →
          let y := (s.seqr j).ctx c.ctx
          let z := (t.seqr j).ctx c.ctx
          z.st = .idle ∧ z.held = false ∧ z.kept = none ∧ (∀ r, z.reg r = y.reg r)
            ∧ (y.held = true → Tab.get [] (t.link j).rx y.hch = []) ∧ ∀ ch, y.lastCh = some ch → Tab.get [] (t.link j).rx ch = [])
      ∧ (∀ r, e.ioXlat c.asn c.root c.cpla 1 = .wait r → exec (.abort l k) s = .next r)
      ∧ (∀ r f, e.ioXlat c.asn c.root c.cpla 1 = .fault r f → ∃ t, exec (.abort l k) s = .next t ∧ Tab.find t.colls n = none
        ∧ t.mem = r.mem)
      ∧ ∀ r x, e.ioXlat c.asn c.root c.cpla 1 = .ok r x → x.res = .here → s.reds = [] →
        ∃ t, exec (.abort l k) s = .next t ∧ Tab.find t.colls n = none
          ∧ RecordPlaced s t x.pa c.cplv.toNat 5 (2 ^ 64 - 1) c.tsr (some c.start) none))
  ∧ (∀ (s : State) (l ch : Nat) (c : Chunk),
    let q := Tab.get [] (s.link l).rx ch
    let used := q.foldl (fun n h => n + 256 * 2 ^ h.size) 0
    ((s.link l).state = 2 ∨ (s.link l).state = 3) → ch < 4 → c.bytes.length = 256 * 2 ^ c.size →
    (used + 256 * 2 ^ c.size ≤ 65536 → ∃ t, exec (.chunkArrival l ch c) s = .next t ∧ OnlyLink s t l
      ∧ (∀ i, Tab.get [] (t.link l).rx i = if i = ch then q ++ [c] else Tab.get [] (s.link l).rx i)
      ∧ t.link l = { s.link l with rx := (t.link l).rx })
    ∧ (65536 < used + 256 * 2 ^ c.size → exec (.chunkArrival l ch c) s = .next s))
  ∧ (∀ (s : State) (l : Nat),
    let q := s.seqr l
    let may := fun k => (q.ctx k).st = .running
    ((∀ k, k < 4 → ¬may k) → exec (.contextTurn l) s = .next s)
    ∧ ∀ d, d ∈ [1, 2, 3, 4] → may ((q.turn + d) % 4) → (∀ e, 1 ≤ e → e < d → ¬may ((q.turn + e) % 4)) →
      ∃ t, exec (.contextTurn l) s = .next t ∧ t = { s with seqs := t.seqs } ∧ t.seqr l = { q with turn := (q.turn + d) % 4, run := 0 }
        ∧ ∀ j, j ≠ l → t.seqr j = s.seqr j)
  ∧ ∀ (s : State) (l k at1 : Nat),
    let q := s.seqr l
    let x := q.ctx k
    let us := (s.dtime - at1) / 2 ^ 16 / 1000
    x.since = some at1 →
    (q.wdog ≠ 0 → x.st = .waiting → x.barked = false → q.wdog.toNat ≤ us → ∃ t, exec (.seqWatchdog l k) s = .next t
      ∧ (t.seqr l).ctx k = { x with barked := true } ∧ t.wgs = s.wgs ∧ t.mem = s.mem
      ∧ Posted s t 2 (bytesOf 1 0x11 ++ bytesOf 1 l ++ s.timeBytes ++ bytesOf 1 k ++ bytesOf 1 0 ++ bytesOf 2 x.cpc ++ bytesOf 8 us
          ++ bytesOf 8 0))
    ∧ (q.wdog = 0 ∨ x.barked = true ∨ us < q.wdog.toNat → exec (.seqWatchdog l k) s = .next s)

-- ## Events: reservations, the network, the eave cluster

namespace Sys2Proof.Machine

/-- What the rule, port and time make of a frame's slot (R415): its header, the frame, zeros. -/
def frameSlot (size port i : Nat) (frame : List Byte) (seqn : W32) (time : Nat) : List Byte :=
  let flags := port % 2 + ofBool (decide (size < 32 + frame.length)) * 2 + ofBool (frameTagged frame) * 4
  let header := bytesOf 2 frame.length ++ bytesOf 1 i ++ bytesOf 1 flags ++ bytesOf 4 seqn.toNat
    ++ bytesOf 8 (time / 2 ^ 16) ++ bytesOf 2 (time % 2 ^ 16)
  (List.range size).map fun k => if k < 32 then header.getD k 0 else frame.getD (k - 32) 0

/-- An eave core has taken an exception (R387): nothing else has changed. -/
def EaveFault (s t : State) (core cause tval : Nat) : Prop :=
  t = { s with eaves := t.eaves } ∧ (∀ j, j ≠ core → t.eave j = s.eave j) ∧ (t.eave core).csrAt csrMcause = cause
    ∧ (t.eave core).csrAt csrMtval = tval % 2 ^ 64 ∧ (t.eave core).csrAt csrMepc = (s.eave core).pc.toNat
    ∧ (t.eave core).umode = false ∧ (t.eave core).pc = BitVec.ofNat 64 ((s.eave core).csrAt csrMtvec / 4 * 4)
    ∧ (t.eave core).sram = (s.eave core).sram ∧ (t.eave core).epi = (s.eave core).epi
    ∧ ∀ n, Tab.get 0 (t.eave core).x n = Tab.get 0 (s.eave core).x n

/-- A hart's instruction is done: no other hart has changed, its register `rd` holds `v`, x0 excepted, every other one what it held, and
its program counter passes the instruction. -/
def HartGoes (s t : State) (core rd v len : Nat) : Prop :=
  (∀ j, j ≠ core → t.eave j = s.eave j) ∧ (t.eave core).pc = (s.eave core).pc + BitVec.ofNat 64 len ∧ (t.eave core).f = (s.eave core).f
    ∧ ∀ r, Tab.get 0 (t.eave core).x r = if r = rd ∧ r ≠ 0 then BitVec.ofNat 64 v else Tab.get 0 (s.eave core).x r

/-- And it has changed nothing else. -/
def HartReads (s t : State) (core rd v len : Nat) : Prop :=
  HartGoes s t core rd v len ∧ t = { s with eaves := t.eaves } ∧ (t.eave core).sram = (s.eave core).sram

/-- `n` bytes of a core's private SRAM hold `v`, every other byte what it held. -/
def SramHas (s t : State) (core addr n v : Nat) : Prop :=
  ∀ y, Tab.get 0 (t.eave core).sram y =
    if addr ≤ y ∧ y < addr + n then BitVec.ofNat 8 (v / 2 ^ (8 * (y - addr))) else Tab.get 0 (s.eave core).sram y

/-- A message in answer to the action last taken (R392): the episode, bytes 4 to 11 of the action, a kind and a payload. -/
def AnswerIs (m : Mbox) (x : BitVec 512) (kind payload : Nat) : Prop :=
  bits x.toNat 31 0 = m.epi ∧ bits x.toNat 95 32 = bits m.action.toNat 95 32 ∧ bits x.toNat 127 96 = kind
    ∧ x.toNat / 2 ^ 128 = payload

/-- The episode of a core is over (R390): its windows are invalid, it has no number, what U mode could reach of its memory is zero,
the operations of it that waited are discarded, and its scrub has begun. -/
def EpisodeOver (s t : State) (core : Nat) : Prop :=
  (∀ i, bit ((t.eave core).window i) 0 = false) ∧ (t.eave core).epi = (s.eave core).epi &&& ~~~0xFFFFFFFF
    ∧ (t.eave core).scrub = true ∧ (t.eave core).umode = false ∧ (t.eave core).count = 0
    ∧ (∀ i ∈ t.held, agentOf i ≠ some (1 + core))
    ∧ ∀ a, Tab.get 0 (t.eave core).sram a = if (s.eave core).granted a = true then 0 else Tab.get 0 (s.eave core).sram a

/-- TAKE on a bound mailbox is done (R393): the oldest action taken out, and 1 in the register; or 0. -/
def TakeDone (s t : State) (core m rd len : Nat) : Prop :=
  HartGoes s t core rd (if (s.mbox m).actions = [] then 0 else 1) len ∧ (t.eave core).count = 0
    ∧ (∀ n, n ≠ m → t.mbox n = s.mbox n)
    ∧ match (s.mbox m).actions with
      | [] => t = { s with eaves := t.eaves }
      | a :: r => t.mbox m = { s.mbox m with actions := r, action := a, open1 := true }

/-- POST on a bound mailbox is done (R393): the observation is behind those that wait; U mode's is of kind 0. -/
def PostDone (s t : State) (core m len : Nat) : Prop :=
  HartGoes s t core 0 0 len ∧ (t.eave core).count = 0 ∧ ∃ x, (t.mbox m).obs = (s.mbox m).obs ++ [x] ∧ (t.mbox m).open1 = false
    ∧ AnswerIs (s.mbox m) x (if (s.eave core).umode = true then 0 else bits (s.mbox m).compose.toNat 103 96)
        ((s.mbox m).compose.toNat / 2 ^ 128)

/-- An access of a hart needs to read (R165). -/
def AccReads (a : HartAcc) : Prop := a.kind = .load ∨ a.kind = .lr ∨ ∃ op, a.kind = .amo op
/-- An access of a hart needs to write. -/
def AccWrites (a : HartAcc) : Prop := a.kind = .store ∨ a.kind = .sc ∨ ∃ op, a.kind = .amo op

/-- A frame that finds no place is dropped, and counted, by the rule that matched (R414). -/
def FrameDropped (s t : State) (i : Nat) (r : Rule) : Prop :=
  t = { s with rules := t.rules } ∧ (Tab.get .reset t.rules i).drops = r.drops + 1 ∧ (Tab.get .reset t.rules i).seqn = r.seqn + 1
    ∧ ∀ j, j ≠ i → Tab.get .reset t.rules j = Tab.get .reset s.rules j

end Sys2Proof.Machine

/-- R128, R208, R209, R406, R414 to R416: the latency class's reservations, and frames. LV written 1 takes as many cores of the entry's
clusters as LNC asks for and makes the units on them leave, or is refused; written 0 it releases them where no grid of the
class lives. A frame lands behind those that wait for a frozen core, in the order in which they came; it takes the slot of
the lowest rule that matches, or is dropped where its ring has no holder, does not fit or has a full granule; a slot that has turned
full on a core that is not frozen is sent with its FCS and turns empty. The model's choices: that LV written 1 on a valid entry changes
nothing, and that a frame whose ring does not fit its holder's scratchpad is dropped (log entry 48); that a slot is sent only once its
granule has been seen empty (log entry 39); that a slot with a poisoned byte is discarded (log entry 98); in which of the ways of R203's
table a cohort leaves where its members differ (log entry 74). -/
def Obligations.NetworkEventsFollowTheRules : Prop :=
  (∀ (s : State) (i : Nat),
    let e := { s.resvAt i with w0 := (s.resvAt i).w0 ||| 1 }
    let n := e.w1.toNat
    (bit (s.resvAt i).w0.toNat 0 = true ∨ e.bad = true ∨ (s.reservable i e).length < n
        ∨ s.chainAt (bits e.w0.toNat 47 8 * 2 ^ 8) = none → exec (.reservationValid i) s = .next s)
    ∧ ∀ c, bit (s.resvAt i).w0.toNat 0 = false → e.bad = false → n ≤ (s.reservable i e).length →
      s.chainAt (bits e.w0.toNat 47 8 * 2 ^ 8) = some c →
      (c.lat = false → exec (.reservationValid i) s = .next s)
      ∧ (c.lat = true → ∃ t, exec (.reservationValid i) s = .next t ∧ t = { s with resv := t.resv, wgs := t.wgs }
        ∧ t.resvAt i = { e with cores := (t.resvAt i).cores, standIn := [] } ∧ (t.resvAt i).cores.length = n
        ∧ (∀ k ∈ (t.resvAt i).cores, k ∈ s.reservable i e) ∧ (∀ j, j ≠ i → t.resvAt j = s.resvAt j)
        ∧ (∀ v, t.wg v = { s.wg v with leave := (t.wg v).leave })
        ∧ let r := { s with resv := t.resv }
          ∀ u ∈ r.strangers i (t.resvAt i).cores, ∀ v ∈ s.unitOf u,
            (∀ x ∈ s.unitOf u, (s.wg x).leave = .stay ∧ s.debugged x = false) → s.unitOf v = s.unitOf u →
            (t.wg v).leave = r.leaveKind (s.unitOf u)))
  ∧ (∀ (s : State) (us : List Nat),
    (NearEnd s us → s.leaveKind us = .drain s.dtime) ∧ (¬NearEnd s us → StartsAfresh s us → s.leaveKind us = .flush)
    ∧ (¬NearEnd s us → ¬StartsAfresh s us → s.leaveKind us = .save))
  ∧ (∀ (s : State) (i : Nat),
    (s.entryLive i = true → exec (.reservationRelease i) s = .next s)
    ∧ (s.entryLive i = false → ∃ t, exec (.reservationRelease i) s = .next t ∧ t = { s with resv := t.resv }
      ∧ t.resvAt i = { s.resvAt i with w0 := (s.resvAt i).w0 &&& ~~~1, cores := [], standIn := [] } ∧ ∀ j, j ≠ i → t.resvAt j = s.resvAt j))
  ∧ (∀ (s : State), (s.frames = [] → s.landWaiting = s)
    ∧ ∀ f l g, s.frames = l ++ [g] → f = { s with frames := l }.landWaiting → s.landWaiting = f.landFrame g.1 g.2.1 g.2.2)
  ∧ (∀ (s : State) (port i : Nat) (frame : List Byte) (r : Rule),
    let w := s.landWaiting
    exec (.frameReceive port frame false) s = .next s
    ∧ (9216 < frame.length → exec (.frameReceive port frame true) s = .next s)
    ∧ (frame.length ≤ 9216 → (∀ x ∈ w.rules, x.2.hits port frame = false) → exec (.frameReceive port frame true) s = .next w)
    ∧ (frame.length ≤ 9216 → w.rules.find? (fun x => x.2.hits port frame) = some (i, r) →
      (w.ringHolder (r.word 6) = none → ∃ t, exec (.frameReceive port frame true) s = .next t ∧ FrameDropped w t i r)
      ∧ ∀ u, w.ringHolder (r.word 6) = some u →
        let k := if r.holder = some u then r.ringK else 0
        let size := 2 ^ bits (r.word 6) 45 42
        let at1 := bits (r.word 6) 41 16 + k * size
        let frozen := (w.core (w.wg u).core).frozen
        ((w.ringFits u (r.word 6) = false ∨ (frozen = false ∧ (w.wg u).full (at1 / 16) = true)) →
          ∃ t, exec (.frameReceive port frame true) s = .next t ∧ FrameDropped w t i r)
        ∧ (w.ringFits u (r.word 6) = true → frozen = true → ∃ t, exec (.frameReceive port frame true) s = .next t
          ∧ t = { w with frames := w.frames ++ [(port, frame, s.dtime)] })
        ∧ (w.ringFits u (r.word 6) = true → frozen = false → (w.wg u).full (at1 / 16) = false →
          ∃ t, exec (.frameReceive port frame true) s = .next t ∧ t.mem = w.mem ∧ (∀ v, v ≠ u → t.wg v = w.wg v)
            ∧ (∀ y, (t.wg u).byte y = if at1 ≤ y ∧ y < at1 + size then (frameSlot size port i frame r.seqn s.dtime).getD (y - at1) 0
                else (w.wg u).byte y)
            ∧ (∀ g, (t.wg u).full g = (decide (g ∈ unitsOf 16 at1 size) || (w.wg u).full g))
            ∧ (Tab.get .reset t.rules i).ringK = (k + 1) % (bits (r.word 6) 53 46 + 1)
            ∧ (Tab.get .reset t.rules i).seqn = r.seqn + 1 ∧ (Tab.get .reset t.rules i).drops = r.drops)))
  ∧ (∀ (s : State) (i : Nat) (word : W64),
    let r := Tab.get .reset s.rules i
    (r.bad word = true → exec (.ingressRuleWrite i word) s = .next s)
    ∧ (r.bad word = false → ∃ t, exec (.ingressRuleWrite i word) s = .next t ∧ t = { s with rules := t.rules }
      ∧ (∀ j, (Tab.get .reset t.rules i).word j = if j = 1 then word.toNat else r.word j)
      ∧ (bit word.toNat 7 = true → (Tab.get .reset t.rules i).ringK = 0 ∧ (Tab.get .reset t.rules i).seqn = 0)
      ∧ (Tab.get .reset t.rules i).drops = r.drops ∧ ∀ j, j ≠ i → Tab.get .reset t.rules j = Tab.get .reset s.rules j))
  ∧ ∀ (s : State) (i u : Nat) (e : Egress), s.lookEgress (Tab.get .reset s.egress i) = e → e.holder = some u →
    let w := e.ring.toNat
    let at1 := bits w 41 16 + e.ringK * 2 ^ bits w 45 42
    let len := (s.wg u).read at1 2
    let frame := (List.range len).map fun k => (s.wg u).byte (at1 + 16 + k)
    let frozen := (s.core (s.wg u).core).frozen
    let sound := 60 ≤ len ∧ len ≤ 9216 ∧ 16 + len ≤ 2 ^ bits w 45 42 ∧ (s.wg u).rangePoisoned at1 (16 + len) = false
    (s.ringFits u w = false ∨ e.primed.contains e.ringK = false ∨ (s.wg u).full (at1 / 16) = false ∨ frozen = true →
      exec (.egressTransmit i) s = .next s)
    ∧ (s.ringFits u w = true → e.primed.contains e.ringK = true → (s.wg u).full (at1 / 16) = true → frozen = false →
      ∃ t, exec (.egressTransmit i) s = .next t ∧ t.mem = s.mem
        ∧ (∀ g, (t.wg u).full g = if g = at1 / 16 then false else (s.wg u).full g)
        ∧ (Tab.get .reset t.egress i).ringK = (e.ringK + 1) % (bits w 53 46 + 1)
        ∧ (sound → t.txFrame = some ((s.wg u).read (at1 + 2) 1, frame ++ bytesOf 4 (crc32 frame))
          ∧ ∀ y, (t.wg u).byte y = if bit ((s.wg u).read (at1 + 3) 1) 0 = true ∧ at1 + 4 ≤ y ∧ y < at1 + 14 then
              s.timeBytes.getD (y - (at1 + 4)) 0 else (s.wg u).byte y)
        ∧ (¬sound → t.txFrame = s.txFrame
          ∧ ∀ y, (t.wg u).byte y = (s.wg u).byte y))

/-- R165, R387 to R395: the eave cluster. TAKE gives the oldest action or 0 and POST sends the observation, or waits while 15 are queued;
each is an access fault on a mailbox that is not of the episode. Binding empties a mailbox, ends whoever waits to receive from it and
traps whoever waits to send, at once or, where a page of the trap record is walked or held, as it issues next. EEND and the watchdog end
the episode, answer its mailboxes, discard what of it waits and clear what U mode could reach. A hart reaches its SRAM as the protection
allows, in U mode its mailboxes' ports by aligned accesses of 8 bytes and memory through its windows, waiting while a page is walked or
held, and faults elsewhere; LR, SC and AMO act where loads and stores do, but not on a port. The CSRs give what the monitor's table says,
and take what sets no reserved bit, from M mode. Said of accesses that come in turn, and of loads into integer registers. The model's
choices: a hart's traps, its protection, its standard CSRs and its reservations are those of the RISC-V architecture (log entry 35);
windows, EPI and memory are cleared at once, and the scrub that is left shows in LIVE (log entries 36 and 81); what a port's table does
not list, a misaligned access and one of another size are access faults there (log entry 80). -/
def Obligations.EaveEventsFollowTheRules : Prop :=
  (∀ (s : State) (core m rd : Nat), core < 16 → InTurn s (1 + core) →
    (s.boundTo core m = false → (∃ t, exec (.take core m rd) s = .next t ∧ EaveFault s t core 5 (0x40000000 + 0x100 * m + 0x80))
      ∧ ((s.eave core).scrub = false → ∃ t, exec (.post core m) s = .next t ∧ EaveFault s t core 7 (0x40000000 + 0x100 * m + 0x88)))
    ∧ ((s.eave core).scrub = true → exec (.post core m) s = .next s)
    ∧ (s.boundTo core m = true → ∃ t, exec (.take core m rd) s = .next t ∧ TakeDone s t core m rd 0)
    ∧ (s.boundTo core m = true → (s.eave core).scrub = false →
      (15 ≤ (s.mbox m).obs.length → exec (.post core m) s = .next (s.hold (.post core m)))
      ∧ ((s.mbox m).obs.length < 15 → NoReceiver s m → ∃ t, exec (.post core m) s = .next t ∧ PostDone s t core m 0)))
  ∧ (∀ (s : State) (core : Nat) (i : Instr), core < 16 → agentOf i = some (1 + core) → s.retry = false → s.holdsBack (1 + core) = true →
    exec i s = .next s ∨ exec i s = .next { s with held := s.held ++ [i] })
  ∧ (∀ (s : State) (m v : Nat),
    (bits v 63 37 ≠ 0 → exec (.mailboxBind m v) s = .next s)
    ∧ (bits v 63 37 = 0 → ∃ t, exec (.mailboxBind m v) s = .next t
      ∧ t.mbox m = { Mbox.reset with binding := BitVec.ofNat 64 v } ∧ (∀ n, n ≠ m → t.mbox n = s.mbox n)
      ∧ (s.senders m = [] → ∀ u c f, f ∈ (s.crs u c).flights → f.kind = .message m → f.got = [] →
        ∃ g ∈ (t.crs u c).flights, g.id = f.id ∧ MessageLanes g.got (BitVec.ofNat 512 ((s.mbox m).epi + 3 * 2 ^ 96)))
      ∧ ∀ u c, s.senders m = [(u, c)] → ∃ r : State, r.mboxes = s.mboxes ∧ r.mem = s.mem ∧
        let x := takeTrap r u c { code := 0x0D }
        t.mem = x.mem
          ∧ ((x.crs u c).tlev ≠ (r.crs u c).tlev ∨ (x.grid (x.wg u).gid).abort.isSome = true → t.wgs = x.wgs)
          ∧ ((x.crs u c).tlev = (r.crs u c).tlev → (x.grid (x.wg u).gid).abort = none →
            t.crs u c = { x.crs u c with wait := some .unbound })))
  ∧ (∀ (s : State) (core : Nat), ∃ t, exec (.eend core) s = .next t ∧ EpisodeOver s t core ∧ (t.eave core).killed = false
    ∧ ∀ m ∈ s.mailboxesOf core, NoReceiver s m → ∃ x, (t.mbox m).obs = (s.mbox m).obs ++ [x] ∧ AnswerIs (s.mbox m) x 3 0)
  ∧ (∀ (s : State) (core : Nat),
    (s.expired core = false → exec (.episodeWatchdog core) s = .next s)
    ∧ (s.expired core = true → ∃ t, exec (.episodeWatchdog core) s = .next t ∧ EpisodeOver s t core ∧ (t.eave core).killed = true
      ∧ (t.eave core).csrAt csrMcause = 2 ^ 63 + 16 ∧ bit ((t.eave core).csrAt csrMip) 16 = true
      ∧ (t.eave core).csrAt csrMepc = (s.eave core).pc.toNat
      ∧ ∀ m ∈ s.mailboxesOf core, NoReceiver s m → ∃ x, (t.mbox m).obs = (s.mbox m).obs ++ [x] ∧ (t.mbox m).open1 = false
        ∧ AnswerIs (s.mbox m) x (if (s.mbox m).open1 = true then 1 else 3) 0))
  ∧ (∀ (s : State) (core : Nat), ∃ t, exec (.scrubComplete core) s = .next t ∧ t = { s with eaves := t.eaves }
    ∧ t.eave core = { s.eave core with scrub := false } ∧ ∀ j, j ≠ core → t.eave j = s.eave j)
  ∧ (∀ (s : State) (core : Nat) (a : HartAcc), core < 16 → InTurn s (1 + core) →
    let e := s.eave core
    let go := exec (.episodeWindowAccess core a.kind a.addr a.size a.value a.toHartMove) s
    let fault : Nat := if a.kind = .fetch then 1 else if a.kind = .load ∨ a.kind = .lr then 5 else 7
    let odd : Nat := if a.kind = .fetch then 0 else if a.kind = .load ∨ a.kind = .lr then 4 else 6
    let user := e.umode = true ∨ (a.kind ≠ .fetch ∧ bit (e.csrAt csrMstatus) 17 = true ∧ bits (e.csrAt csrMstatus) 12 11 = 0)
    let port := 0x40000000 ≤ a.addr ∧ a.addr < 0x40010000
    let stops := (e.umode = true ∧ e.scrub = true) ∨ a.size ∉ [1, 2, 4, 8]
    let word := fun (n : Nat) => if a.size = 4 then ((BitVec.ofNat 32 n).signExtend 64).toNat else n
    let plain := fun (n : Nat) => if a.sext then ((BitVec.ofNat (8 * a.size) n).signExtend 64).toNat else n
    (stops → go = .next s)
    ∧ (¬stops → ¬port → a.addr % a.size ≠ 0 → ∃ t, go = .next t ∧ EaveFault s t core odd a.addr)
    ∧ (¬stops → ¬port → a.addr % a.size = 0 → a.addr + a.size ≤ 2 ^ 20 → ∀ b : Bool, (b = true ↔ user) →
      let old := leBytes ((List.range a.size).map fun k => Tab.get 0 e.sram (a.addr + k))
      let place := some (sramPlace a.addr, a.size)
      (e.allows b a.addr a.size a.kind = false → ∃ t, go = .next t ∧ EaveFault s t core fault a.addr)
      ∧ (e.allows b a.addr a.size a.kind = true →
        (a.kind = .load → a.fp = false → ∃ t, go = .next t ∧ HartReads s t core a.rd (plain old) a.len)
        ∧ (a.kind = .fetch → ∃ t, go = .next t ∧ HartReads s t core 0 0 a.len)
        ∧ (a.kind = .store → ∃ t, go = .next t ∧ HartGoes s t core 0 0 a.len ∧ SramHas s t core a.addr a.size a.value)
        ∧ (a.kind = .lr → a.fp = false → ∃ t, go = .next t ∧ HartGoes s t core a.rd (word old) a.len ∧ (t.eave core).sram = e.sram
          ∧ Tab.find t.lrs core = place)
        ∧ (a.kind = .sc → a.fp = false → Tab.find s.lrs core = place → ∃ t, go = .next t ∧ HartGoes s t core a.rd 0 a.len
          ∧ SramHas s t core a.addr a.size a.value ∧ Tab.find t.lrs core = none)
        ∧ (a.kind = .sc → a.fp = false → Tab.find s.lrs core ≠ place → ∃ t, go = .next t ∧ HartGoes s t core a.rd 1 a.len
          ∧ (t.eave core).sram = e.sram ∧ Tab.find t.lrs core = none)
        ∧ ∀ op, a.kind = .amo op → a.fp = false → ∃ t, go = .next t ∧ HartGoes s t core a.rd (word old) a.len
          ∧ SramHas s t core a.addr a.size (amoNew op a.size old a.value)))
    ∧ (∀ m off, ¬stops → a.addr = 0x40000000 + 0x100 * m + off → m < 256 → off < 0x100 →
      (s.boundTo core m = false ∨ a.size ≠ 8 ∨ a.addr % 8 ≠ 0 ∨ (a.kind ≠ .load ∧ a.kind ≠ .store)
          ∨ (a.kind = .load ∧ 0x40 ≤ off ∧ off ≠ 0x80 ∧ off ≠ 0x90) ∨ (a.kind = .store ∧ (off < 0x40 ∨ 0x80 ≤ off) ∧ off ≠ 0x88) →
        ∃ t, go = .next t ∧ EaveFault s t core fault a.addr)
      ∧ (s.boundTo core m = true → a.size = 8 → a.addr % 8 = 0 → a.fp = false →
        (a.kind = .load → off < 0x40 → ∃ t, go = .next t
          ∧ HartReads s t core a.rd ((s.mbox m).action.toNat / 2 ^ (8 * off) % 2 ^ 64) a.len)
        ∧ (a.kind = .load → off = 0x80 → ∃ t, go = .next t ∧ TakeDone s t core m a.rd a.len)
        ∧ (a.kind = .load → off = 0x90 → ∃ t, go = .next t
          ∧ HartReads s t core a.rd ((s.mbox m).actions.length + (s.mbox m).obs.length * 2 ^ 8) a.len)
        ∧ (a.kind = .store → 0x40 ≤ off → off < 0x80 → ∃ t, go = .next t ∧ HartGoes s t core 0 0 a.len
          ∧ ∀ j, j < 64 → bits (t.mbox m).compose.toNat (8 * j + 7) (8 * j) =
              if off - 0x40 ≤ j ∧ j < off - 0x40 + 8 then a.value / 2 ^ (8 * (j - (off - 0x40))) % 256
              else bits (s.mbox m).compose.toNat (8 * j + 7) (8 * j))
        ∧ (a.kind = .store → off = 0x88 → 15 ≤ (s.mbox m).obs.length →
          go = .next (if a.len = 0 then s.hold (.episodeWindowAccess core a.kind a.addr a.size a.value a.toHartMove) else s))
        ∧ (a.kind = .store → off = 0x88 → (s.mbox m).obs.length < 15 → NoReceiver s m → ∃ t, go = .next t ∧ PostDone s t core m a.len)))
    ∧ (¬stops → ¬port → a.addr % a.size = 0 → 2 ^ 20 < a.addr + a.size →
      (¬user ∨ e.windowOf a.addr = none → ∃ t, go = .next t ∧ EaveFault s t core fault a.addr)
      ∧ ∀ i, user → e.windowOf a.addr = some i →
        let may := a.kind ≠ .fetch ∧ (AccReads a → bit (e.window i) 1 = true) ∧ (AccWrites a → bit (e.window i) 2 = true)
        let asn := bits e.epi.toNat 39 32
        let va := bits (Tab.get 0 e.vbase i).toNat 53 16 * 2 ^ 16 + a.addr % 2 ^ 40
        let x1 := s.ioXlat asn (s.rootOf asn) va (if a.kind = .load ∨ a.kind = .lr then 0 else 1)
        (¬may → ∃ t, go = .next t ∧ EaveFault s t core fault a.addr)
        ∧ (may →
          (∀ r, x1 = .wait r → go = .next (if a.len = 0 then r.hold (.episodeWindowAccess core a.kind a.addr a.size a.value a.toHartMove) else r))
          ∧ (∀ r f, x1 = .fault r f → ∃ t, go = .next t ∧ EaveFault r t core fault a.addr)
          ∧ ∀ (r : State) (x : Xlat), x1 = .ok r x →
            let old := s.read x.pa a.size
            let place := some (x.pa, a.size)
            (x.res ≠ .here → ∃ t, go = .next t ∧ EaveFault r t core fault a.addr)
            ∧ (x.res = .here → s.reds = [] → a.fp = false →
              (AccReads a → r.rangePoisoned x.pa a.size = true → ∃ t q, go = .next t ∧ EaveFault q t core fault a.addr
                ∧ q.eaves = s.eaves ∧ ∀ y, SameByte s q y)
              ∧ (a.kind = .store → ∃ t, go = .next t ∧ Stored s t x.pa a.size a.value ∧ HartGoes s t core 0 0 a.len)
              ∧ (a.kind = .sc → Tab.find r.lrs core = place → ∃ t, go = .next t ∧ Stored s t x.pa a.size a.value
                ∧ HartGoes s t core a.rd 0 a.len ∧ Tab.find t.lrs core = none)
              ∧ (a.kind = .sc → Tab.find r.lrs core ≠ place → ∃ t, go = .next t ∧ (∀ y, SameByte s t y)
                ∧ HartGoes s t core a.rd 1 a.len ∧ Tab.find t.lrs core = none)
              ∧ (r.rangePoisoned x.pa a.size = false →
                (a.kind = .load → ∃ t, go = .next t ∧ (∀ y, SameByte s t y) ∧ HartGoes s t core a.rd (plain old) a.len)
                ∧ (a.kind = .lr → ∃ t, go = .next t ∧ (∀ y, SameByte s t y) ∧ HartGoes s t core a.rd (word old) a.len
                  ∧ Tab.find t.lrs core = place)
                ∧ ∀ op, a.kind = .amo op → ∃ t, go = .next t ∧ Stored s t x.pa a.size (amoNew op a.size old a.value)
                  ∧ HartGoes s t core a.rd (word old) a.len)))))
  ∧ ∀ (s : State) (core csr : Nat) (a : CsrAcc), core < 16 → InTurn s (1 + core) →
    let e := s.eave core
    let go := exec (.episodeCsrWrite core csr a) s
    let old := e.readCsr core csr
    let v := match a.op with | .put => a.value | .set => old ||| a.value | .clear => old &&& ~~~a.value
    let n := v.toNat
    let wrong := (monitorCsr csr = false ∧ standardCsr csr = false) ∨ (e.umode = true ∧ bits csr 9 8 ≠ 0)
      ∨ (floatCsr csr = true ∧ bits (e.csrAt csrMstatus) 14 13 = 0) ∨ (a.writes = true ∧ bits csr 11 10 = 3)
    let illegal := ∃ t x, go = .next t ∧ EaveFault s t core 2 x
    (wrong → illegal)
    ∧ (¬wrong → a.writes = false → ∃ t, go = .next t ∧ HartReads s t core a.rd old.toNat a.len ∧ (t.eave core).csr = e.csr)
    ∧ (∀ i, i < 4 → e.readCsr core (0x7C0 + 2 * i) = Tab.get 0 e.vbase i ∧ e.readCsr core (0x7C1 + 2 * i) = Tab.get 0 e.wctl i)
    ∧ e.readCsr core 0x7C8 = e.epi ∧ e.readCsr core 0x7C9 = e.ewdog ∧ e.readCsr core 0x7CA = 0 ∧ e.readCsr core 0x301 = 0x800000000010112D
    ∧ (e.readCsr core 0x7CB).toNat = (if e.scrub = true ∨ bits e.epi.toNat 31 0 ≠ 0 then 1 else 0) + (if e.killed = true then 2 else 0)
    ∧ (¬wrong → a.writes = true →
      (∀ i, i < 4 → csr = 0x7C0 + 2 * i → bits n 15 0 = 0 → bits n 63 54 = 0 → ∃ t, go = .next t ∧ HartGoes s t core a.rd old.toNat a.len
        ∧ t.eave core = { e with x := (t.eave core).x, pc := (t.eave core).pc, vbase := (t.eave core).vbase }
        ∧ ∀ j, Tab.get 0 (t.eave core).vbase j = if j = i then v else Tab.get 0 e.vbase j)
      ∧ (∀ i, i < 4 → csr = 0x7C0 + 2 * i → (bits n 15 0 ≠ 0 ∨ bits n 63 54 ≠ 0) → illegal)
      ∧ (∀ i, i < 4 → csr = 0x7C1 + 2 * i → bits n 15 3 = 0 → bits n 63 32 = 0 → ∃ t, go = .next t ∧ HartGoes s t core a.rd old.toNat a.len
        ∧ t.eave core = { e with x := (t.eave core).x, pc := (t.eave core).pc, wctl := (t.eave core).wctl }
        ∧ ∀ j, (t.eave core).window j = if j = i then n else e.window j)
      ∧ (∀ i, i < 4 → csr = 0x7C1 + 2 * i → (bits n 15 3 ≠ 0 ∨ bits n 63 32 ≠ 0) → illegal)
      ∧ (csr = 0x7C8 → bits n 63 40 = 0 → ∃ t, go = .next t ∧ HartGoes s t core a.rd old.toNat a.len
        ∧ t.eave core = { e with x := (t.eave core).x, pc := (t.eave core).pc, epi := v })
      ∧ (csr = 0x7C8 → bits n 63 40 ≠ 0 → illegal)
      ∧ (csr = 0x7C9 → ∃ t, go = .next t ∧ HartGoes s t core a.rd old.toNat a.len
        ∧ t.eave core = { e with x := (t.eave core).x, pc := (t.eave core).pc, ewdog := v })
      ∧ (csr = 0x7CA → v = 1 → ∃ t, go = .next t ∧ HartGoes s t core a.rd 0 a.len ∧ EpisodeOver s t core ∧ (t.eave core).killed = false)
      ∧ ((csr = 0x7CA ∧ v = 0) ∨ (csr = 0x7CB ∧ n < 4) → ∃ t, go = .next t ∧ HartReads s t core a.rd old.toNat a.len
        ∧ (t.eave core).killed = e.killed ∧ (t.eave core).epi = e.epi)
      ∧ ((csr = 0x7CA ∧ 2 ≤ n) ∨ (csr = 0x7CB ∧ 4 ≤ n) → illegal)
      ∧ (standardCsr csr = true → floatCsr csr = false → ∃ t, go = .next t ∧ HartGoes s t core a.rd old.toNat a.len
        ∧ t.eave core = { e with x := (t.eave core).x, pc := (t.eave core).pc, csr := (t.eave core).csr }
        ∧ ∀ j, (t.eave core).csrAt j = if j = csr then e.csrKept csr n % 2 ^ 64 else e.csrAt j))

-- ## Events: debug access

namespace Sys2Proof.Machine

/-- A debug command of a die has finished with a result: the rest of the die and the other dies are as before. -/
def DbgDone (s t : State) (d res : Nat) : Prop :=
  t.die d = { s.die d with dbg := { (s.die d).dbg with res := res, done := true } } ∧ ∀ j, j ≠ d → t.die j = s.die j

/-- It has changed nothing else. -/
def DbgRefused (s t : State) (d res : Nat) : Prop := t = { s with dies := t.dies } ∧ DbgDone s t d res

/-- It has left one course as `k`, every other course, and memory, as before. -/
def CourseIs (s t : State) (u c : Nat) (k : Course) : Prop :=
  t.crs u c = k ∧ (∀ v j, (v, j) ≠ (u, c) → t.crs v j = s.crs v j) ∧ SameMemory s t

/-- What a unit of a course holds, for the classes that software sees as registers (R404): vector lane, scalar, predicate,
special register, PC, TLEV, and 16 bytes of scratchpad, its own or, through the cohort window, a member's (R23). -/
def unitValue (s : State) (u c : Nat) (x : Unit1) : Option Nat :=
  let k := s.crs u c
  if x.cls = 0 then some (k.lane (k.dbgReg x) x.lane).toNat
  else if x.cls = 1 then some (k.sreg x.num).toNat
  else if x.cls = 2 then some (k.pred x.num).toNat
  else if x.cls = 7 ∧ x.num = 0x18 then some k.pc.toNat
  else if x.cls = 7 ∧ x.num = 0x19 then some k.tlev
  else if x.cls = 9 then (s.dbgPad u c (x.addr / 16 * 16)).map fun p => (s.wg p.1).read p.2 16
  else none

/-- A write of this unit needs a core that is quiet, and one is not (R406, R407): the course's core, and for a member's scratchpad
that member's too. -/
def NeedsQuiet (s : State) (u c : Nat) (x : Unit1) : Prop :=
  ((x.cls = 5 ∨ x.cls = 6 ∨ x.cls = 9) ∧ (s.core (s.wg u).core).quiet = false)
    ∨ ∃ p, x.cls = 9 ∧ s.dbgPad u c x.addr = some p ∧ (s.core (s.wg p.1).core).quiet = false

/-- The unit of the reserved strip that a write of this unit fills whole has lost its poison; no other has changed (R90). -/
def StripFilled (c k : Course) (x : Unit1) : Prop :=
  ∀ n, k.stripBad n = if stripUnit x.cls x.num x.addr = some n then false else c.stripBad n

end Sys2Proof.Machine

/-- R404 to R407: the debug commands. One that selects no course, or names no unit, ends with BADREG; one that needs a halt ends
with NOTHALTED, and a write of accumulators, operand slots or scratchpad on a core that is not quiet too. HALT, RESUME, STEP and the
breakpoint commands set the course's bits; FREEZE stops a core, QUIET follows once its engines have nothing outstanding, THAW lets
it go on. READ gives a unit's value and its full/empty bit. WRITE changes the unit named and nothing else; an empty register is
BUSY, FORCE fills it, and a special register that no debugger writes is REFUSED. The model's choices: which course a slot number names,
that a write of a member's scratchpad needs QUIET of both cores, and that a course whose program counter is moved leaves the
instruction at which it waited (log entry 37). -/
def Obligations.DebugCommandsFollowTheRules : Prop :=
  (∀ (s : State) (d : Nat) (i : Instr), s.dbgCourse d = none → i ∈ [.haltCourse d, .resumeCourse d, .debugStep d,
      .debugRead d, .debugWrite d false, .debugWrite d true, .writeFullEmpty d, .armBreakpoint d, .disarmBreakpoint d] →
    ∃ t, exec i s = .next t ∧ DbgRefused s t d 2)
  ∧ (∀ (s : State) (d u c : Nat), s.dbgCourse d = some (u, c) →
    let k := s.crs u c
    (∃ t, exec (.haltCourse d) s = .next t ∧ CourseIs s t u c { k with halted := true } ∧ DbgDone s t d 0)
    ∧ (∃ t, exec (.resumeCourse d) s = .next t ∧ CourseIs s t u c { k with halted := false, stepping := false } ∧ DbgDone s t d 0)
    ∧ (∃ t, exec (.armBreakpoint d) s = .next t ∧ CourseIs s t u c { k with armed := true } ∧ DbgDone s t d 0)
    ∧ (∃ t, exec (.disarmBreakpoint d) s = .next t ∧ CourseIs s t u c { k with armed := false } ∧ DbgDone s t d 0)
    ∧ (k.halted = false → ∃ t, exec (.debugStep d) s = .next t ∧ DbgRefused s t d 3)
    ∧ (k.halted = true → ∃ t, exec (.debugStep d) s = .next t ∧ CourseIs s t u c { k with stepping := true }
      ∧ (t.die d).dbg = { (s.die d).dbg with res := 0, done := false }))
  ∧ (∀ (s : State) (d : Nat),
    let n := bits (s.die d).dbg.sel.toNat 7 0
    let k := d * 144 + n
    (144 ≤ n → ∃ t u, exec (.freezeCore d) s = .next t ∧ exec (.thawCore d) s = .next u ∧ DbgRefused s t d 2 ∧ DbgRefused s u d 2)
    ∧ (n < 144 → ∃ t u, exec (.freezeCore d) s = .next t ∧ exec (.thawCore d) s = .next u ∧ DbgDone s t d 0 ∧ DbgDone s u d 0
      ∧ t.core k = { s.core k with frozen := true, quiet := false } ∧ t.wgs = s.wgs ∧ t.mem = s.mem
      ∧ u.core k = { s.core k with frozen := false, quiet := false } ∧ u.mem = s.mem))
  ∧ (∀ (s : State) (k : Nat),
    ((s.core k).frozen = false ∨ s.enginesIdle k = false → exec (.quiet k) s = .next s)
    ∧ ((s.core k).frozen = true → s.enginesIdle k = true → ∃ t, exec (.quiet k) s = .next t ∧ t = { s with cores := t.cores }
      ∧ t.core k = { s.core k with quiet := true } ∧ ∀ j, j ≠ k → t.core j = s.core j))
  ∧ (∀ (s : State) (d u c : Nat) (i : Instr), s.dbgCourse d = some (u, c) → i ∈ [.debugRead d, .debugWrite d false, .debugWrite d true] →
    let x := (s.die d).dbg.unit1
    (s.unitExists u c x = false → ∃ t, exec i s = .next t ∧ DbgRefused s t d 2)
    ∧ (s.unitExists u c x = true → (s.crs u c).halted = false → (s.core (s.wg u).core).frozen = false →
      ∃ t, exec i s = .next t ∧ DbgRefused s t d 3))
  ∧ (∀ (s : State) (d u c : Nat), s.dbgCourse d = some (u, c) →
    let x := (s.die d).dbg.unit1
    s.unitExists u c x = true → s.stands u c = true → s.unitPoisoned u c x = false →
    ∃ t, exec (.debugRead d) s = .next t ∧ t = { s with dies := t.dies } ∧ (∀ j, j ≠ d → t.die j = s.die j)
      ∧ (t.die d).dbg.res = 0 ∧ (t.die d).dbg.done = true ∧ (t.die d).dbg.sel = (s.die d).dbg.sel
      ∧ (∀ v, unitValue s u c x = some v → (t.die d).dbg.data = BitVec.ofNat 128 v)
      ∧ (x.cls = 0 → (t.die d).dbg.fe = (s.crs u c).vIsFull ((s.crs u c).dbgReg x))
      ∧ (x.cls = 1 → (t.die d).dbg.fe = (s.crs u c).sIsFull x.num))
  ∧ (∀ (s : State) (d u c : Nat) (force : Bool), s.dbgCourse d = some (u, c) →
    let x := (s.die d).dbg.unit1
    let v := (s.die d).dbg.data.toNat
    let k := s.crs u c
    let at1 := x.addr / 16 * 16
    s.unitExists u c x = true → s.stands u c = true →
    (x.cls = 0 → k.emptied x = false → ∃ t, exec (.debugWrite d force) s = .next t ∧ DbgDone s t d 0
      ∧ CourseKeeps k (t.crs u c) [.vregs, .poison] ∧ ∀ r l, l < 32 → (t.crs u c).lane r l =
          if r = k.dbgReg x ∧ l = x.lane then BitVec.ofNat 32 v else k.lane r l)
    ∧ (x.cls = 0 → k.emptied x = true →
      (force = false → ∃ t, exec (.debugWrite d force) s = .next t ∧ DbgRefused s t d 1)
      ∧ (force = true → ∃ t, exec (.debugWrite d force) s = .next t ∧ DbgDone s t d 0 ∧ (t.crs u c).vIsFull (k.dbgReg x) = true
        ∧ (x.lane < 32 → (t.crs u c).lane (k.dbgReg x) x.lane = BitVec.ofNat 32 v)))
    ∧ (k.emptied x = !k.vIsFull (k.dbgReg x))
    ∧ (k.dbgReg x = if x.ind then (k.xreg x.num).base + ((k.xreg x.num).off.toArray.getD x.lane 0).toNat else x.num)
    ∧ (x.cls = 1 → k.sIsFull x.num = true → ∃ t, exec (.debugWrite d force) s = .next t ∧ DbgDone s t d 0
      ∧ CourseKeeps k (t.crs u c) [.sregs, .poison] ∧ ∀ r, (t.crs u c).sreg r =
          if r = x.num ∧ r ≠ 0 then BitVec.ofNat 64 v else k.sreg r)
    ∧ (x.cls = 1 → k.sIsFull x.num = false → force = false →
      ∃ t, exec (.debugWrite d force) s = .next t ∧ DbgRefused s t d 1)
    ∧ (x.cls = 2 → ∃ t, exec (.debugWrite d force) s = .next t ∧ DbgDone s t d 0 ∧ CourseKeeps k (t.crs u c) [.preds]
      ∧ ∀ p, (t.crs u c).pred p = if p = x.num then BitVec.ofNat 32 v else k.pred p)
    ∧ (x.cls = 3 → ∃ t, exec (.debugWrite d force) s = .next t ∧ DbgDone s t d 0 ∧ CourseKeeps k (t.crs u c) [.index, .strip]
      ∧ StripFilled k (t.crs u c) x
      ∧ ∀ r, (t.crs u c).xreg r = if r = x.num then xregOf (putUnit (xregNat (k.xreg r)) at1 v) else k.xreg r)
    ∧ (x.cls = 4 → ∃ t, exec (.debugWrite d force) s = .next t ∧ DbgDone s t d 0 ∧ CourseKeeps k (t.crs u c) [.gens, .strip]
      ∧ StripFilled k (t.crs u c) x
      ∧ ∀ r, (t.crs u c).gen r = if r = x.num then genOf (putUnit (genNat (k.gen r)) at1 v) else k.gen r)
    ∧ (x.cls = 7 → x.num = 0x18 → k.arb = none → ∃ t, exec (.debugWrite d force) s = .next t ∧ DbgDone s t d 0
      ∧ CourseIs s t u c { k with
          pc := BitVec.ofNat 64 (v / 4 * 4), wait := none, sync := none, limit := none, sched := if k.sched = .waiting then .ready else k.sched })
    ∧ (x.cls = 7 → x.num = 0x19 → ∃ t, exec (.debugWrite d force) s = .next t ∧ DbgDone s t d 0
      ∧ CourseIs s t u c { k with tlev := v % 8 })
    ∧ (x.cls = 7 → x.num = 0x06 → ∃ t, exec (.debugWrite d force) s = .next t ∧ DbgDone s t d 0
      ∧ CourseIs s t u c { k with repst := BitVec.ofNat 32 (v % 2 ^ 17) })
    ∧ (x.cls = 7 → x.num = 0x03 → ∃ t, exec (.debugWrite d force) s = .next t ∧ DbgDone s t d 0
      ∧ CourseIs s t u c { k with ctimer := BitVec.ofNat 64 v })
    ∧ (x.cls = 7 → x.num = 0x04 → ∃ t, exec (.debugWrite d force) s = .next t ∧ DbgDone s t d 0
      ∧ CourseIs s t u c { k with ctlim := BitVec.ofNat 64 v })
    ∧ (x.cls = 7 → x.num = 0x05 → v < 64 → ∃ t, exec (.debugWrite d force) s = .next t ∧ DbgDone s t d 0
      ∧ CourseIs s t u c { k with fstat := BitVec.ofNat 32 v })
    ∧ (x.cls = 7 → x.num = 0x07 → ∃ t, exec (.debugWrite d force) s = .next t ∧ DbgDone s t d 0
      ∧ CourseIs s t u c { k with exec := BitVec.ofNat 32 v &&& k.pathMask })
    ∧ (x.cls = 7 → (x.num ∉ [0x03, 0x04, 0x05, 0x06, 0x07, 0x18, 0x19] ∨ (x.num = 0x05 ∧ 64 ≤ v)) →
      ∃ t, exec (.debugWrite d force) s = .next t ∧ DbgRefused s t d 4)
    ∧ (x.cls = 8 → ∃ t, exec (.debugWrite d force) s = .next t ∧ DbgDone s t d 0 ∧ CourseKeeps k (t.crs u c) [.stack, .strip]
      ∧ StripFilled k (t.crs u c) x ∧ (t.crs u c).depth = k.depth ∧ ∀ i, (t.crs u c).stack.reverse[i]? =
          if i = x.num - (k.depth - k.stack.length) then some (entryOf v) else k.stack.reverse[i]?)
    ∧ (NeedsQuiet s u c x → ∃ t, exec (.debugWrite d force) s = .next t ∧ DbgRefused s t d 3)
    ∧ (x.cls = 5 → (s.core (s.wg u).core).quiet = true → ∃ t, exec (.debugWrite d force) s = .next t ∧ DbgDone s t d 0 ∧ SameMemory s t
      ∧ ∀ a j, j < 1024 → (t.wg u).acc a (j / 16) (j % 16) =
          if a = x.num ∧ at1 / 4 ≤ j ∧ j < at1 / 4 + 4 then BitVec.ofNat 32 (v / 2 ^ (32 * (j - at1 / 4)))
          else (s.wg u).acc a (j / 16) (j % 16))
    ∧ (x.cls = 6 → (s.core (s.wg u).core).quiet = true → ∃ t, exec (.debugWrite d force) s = .next t ∧ DbgDone s t d 0 ∧ SameMemory s t
      ∧ ∀ y, (t.wg u).slotByte y = if 8192 * x.num + at1 ≤ y ∧ y < 8192 * x.num + at1 + 16 then
          BitVec.ofNat 8 (v / 2 ^ (8 * (y - (8192 * x.num + at1)))) else (s.wg u).slotByte y)
    ∧ ∀ m a, x.cls = 9 → s.dbgPad u c at1 = some (m, a) → ¬NeedsQuiet s u c x → ∃ t, exec (.debugWrite d force) s = .next t ∧ DbgDone s t d 0
      ∧ (∀ y, SameByte s t y) ∧ ∀ w y, (t.wg w).byte y =
          if w = m ∧ a ≤ y ∧ y < a + 16 then BitVec.ofNat 8 (v / 2 ^ (8 * (y - a))) else (s.wg w).byte y)
  ∧ ∀ (s : State) (d u c : Nat), s.dbgCourse d = some (u, c) →
    let x := (s.die d).dbg.unit1
    let b := (s.die d).dbg.data.getLsbD 0
    ((s.unitExists u c x = false ∨ (x.cls ≠ 0 ∧ x.cls ≠ 1 ∧ x.cls ≠ 9)) →
      ∃ t, exec (.writeFullEmpty d) s = .next t ∧ DbgRefused s t d 2)
    ∧ (s.unitExists u c x = true → (x.cls = 0 ∨ x.cls = 1 ∨ x.cls = 9) →
      (s.stands u c = false ∨ NeedsQuiet s u c x) →
      ∃ t, exec (.writeFullEmpty d) s = .next t ∧ DbgRefused s t d 3)
    ∧ (s.unitExists u c x = true → s.stands u c = true →
      (x.cls = 0 → ∃ t, exec (.writeFullEmpty d) s = .next t ∧ DbgDone s t d 0
        ∧ CourseKeeps (s.crs u c) { t.crs u c with arb := (s.crs u c).arb } [.fullBits, .flights]
        ∧ ∀ r, (t.crs u c).vIsFull r = if r = (s.crs u c).dbgReg x then b else (s.crs u c).vIsFull r)
      ∧ (x.cls = 1 → x.num ≠ 0 → ∃ t, exec (.writeFullEmpty d) s = .next t ∧ DbgDone s t d 0
        ∧ CourseKeeps (s.crs u c) { t.crs u c with arb := (s.crs u c).arb } [.fullBits, .flights]
        ∧ ∀ r, (t.crs u c).sIsFull r = if r = x.num then b else (s.crs u c).sIsFull r)
      ∧ ∀ m a, x.cls = 9 → s.dbgPad u c x.addr = some (m, a) → ¬NeedsQuiet s u c x → ∃ t, exec (.writeFullEmpty d) s = .next t
        ∧ DbgDone s t d 0 ∧ SameMemory s t ∧ ∀ w g, (t.wg w).full g = if w = m ∧ g = a / 16 then b else (s.wg w).full g)
end

