-- ==== Sys2Proof/Laws/Choice.lean ====
section
/-! SUPPORT. What the free choices can answer: a member of the set they choose from, and the replacements that rest on them. -/

namespace Sys2Proof.Machine

/-- A free choice is a member of the set. -/
theorem pickFrom_mem {α : Type} {l : List α} {n : Nat} {x : α} (h : pickFrom l n = some x) : x ∈ l := by
  match l, h with
  | [_], h => simp [pickFrom] at h; simp [h]
  | _ :: _ :: _, h => exact List.mem_of_getElem? h

/-- There is one wherever the set has a member. -/
theorem pickFrom_isSome {α : Type} {l : List α} (n : Nat) (h : l ≠ []) : (pickFrom l n).isSome := by
  match l, h with
  | [_], _ => rfl
  | a :: b :: r, _ =>
    have : n % (a :: b :: r).length < (a :: b :: r).length := Nat.mod_lt _ (by simp)
    simp only [pickFrom, List.getElem?_eq_getElem this, Option.isSome_some]

/-- A fill never makes a translation cache larger than it is (R35). -/
theorem tlbFill_length (tlb : List TlbE) (cap pick : Nat) (inUse : TlbE → Bool) (e : TlbE) (h : tlb.length ≤ cap) :
    (tlbFill tlb cap pick inUse e).length ≤ cap := by
  have hf := List.length_filter_le
    (fun x : TlbE => !(decide (x.asn = e.asn) && decide (x.page = e.page) && decide (x.big = e.big))) tlb
  unfold tlbFill
  dsimp only
  split
  · simp only [List.length_cons]; omega
  · split
    · next v hv =>
      have hm := (List.mem_filter.mp (pickFrom_mem hv)).1
      have hlt : ∀ l : List TlbE, v ∈ l → (l.filter fun x => decide (x ≠ v)).length < l.length := fun l hl =>
        List.length_filter_lt_length_iff_exists.mpr ⟨v, hl, by simp⟩
      have := hlt _ hm
      simp only [List.length_cons]; omega
    · omega

/-- A fill leaves every entry of another page that is in use (R35). -/
theorem tlbFill_keeps (tlb : List TlbE) (cap pick : Nat) (inUse : TlbE → Bool) (e x : TlbE) (hx : x ∈ tlb) (hu : inUse x = true)
    (hp : ¬(x.asn = e.asn ∧ x.page = e.page ∧ x.big = e.big)) : x ∈ tlbFill tlb cap pick inUse e := by
  have hm : x ∈ tlb.filter fun x => !(decide (x.asn = e.asn) && decide (x.page = e.page) && decide (x.big = e.big)) :=
    List.mem_filter.mpr ⟨hx, by simp only [Bool.not_eq_true', Bool.and_eq_false_iff, decide_eq_false_iff_not]; tauto⟩
  unfold tlbFill
  dsimp only
  split
  · exact List.mem_cons_of_mem _ hm
  · split
    · next v hv =>
      have hv' := (List.mem_filter.mp (pickFrom_mem hv)).2
      refine List.mem_cons_of_mem _ (List.mem_filter.mpr ⟨hm, ?_⟩)
      simp only [decide_eq_true_eq]
      rintro rfl
      simp [hu] at hv'
    · exact hm

/-- The lane that BATCHFULL names is one of the instruction's, of a peer that the set does not hold (R116). -/
theorem overflows_names (ls : List LaneAcc) (a : LaneAcc) (peers : List Nat) (h : overflows peers ls = some a) :
    a ∈ ls ∧ ∃ p pa, a.tgt = .remote p pa ∧ p ∉ peers := by
  induction ls generalizing peers with
  | nil => simp [overflows] at h
  | cons b r ih =>
    have later : ∀ q, (∀ p, p ∉ q → p ∉ peers) → overflows q r = some a → a ∈ b :: r ∧ ∃ p pa, a.tgt = .remote p pa ∧ p ∉ peers := by
      intro q hq hr
      obtain ⟨hm, p, pa, ht, hn⟩ := ih q hr
      exact ⟨List.mem_cons_of_mem _ hm, p, pa, ht, hq p hn⟩
    unfold overflows at h
    split at h
    · next p pa ht =>
      split at h
      · exact later _ (fun _ hp => hp) h
      · next hc =>
        split at h
        · cases h; exact ⟨List.mem_cons_self, p, pa, ht, by simpa using hc⟩
        · exact later _ (fun _ hp hc => hp (by simp [hc])) h
    · exact later _ (fun _ hp => hp) h

end Sys2Proof.Machine
end

