-- ==== Sys2Proof/Laws/Tab.lean ====
section
/-! SUPPORT. What reading a table gives after each of its operations. -/

namespace Sys2Proof.Machine

variable {α β : Type}

/-- Reading after removal of a key. -/
@[simp] theorem Tab.find_del (t : Tab α) (k j : Nat) : Tab.find (Tab.del t k) j = if j = k then none else Tab.find t j := by
  induction t with
  | nil => simp [Tab.del, Tab.find]
  | cons e r ih => grind [Tab.del, Tab.find]

/-- Removal after insertion of a key. -/
theorem Tab.del_ins (t : Tab α) (k : Nat) (v : α) : Tab.del (Tab.ins t k v) k = Tab.del t k := by
  induction t with
  | nil => simp [Tab.ins, Tab.del]
  | cons e r ih => grind [Tab.ins, Tab.del]

/-- Removal of what has been removed. -/
theorem Tab.del_del (t : Tab α) (k : Nat) : Tab.del (Tab.del t k) k = Tab.del t k := by
  induction t with
  | nil => simp [Tab.del]
  | cons e r ih => grind [Tab.del]

/-- The second of two writes to a key stands. -/
@[simp] theorem Tab.set_set (t : Tab α) (k : Nat) (v w : α) : Tab.set (Tab.set t k v) k w = Tab.set t k w := by
  simp only [Tab.set, Tab.del_ins, Tab.del_del]

/-- Reading after insertion of a key that is not listed. -/
theorem Tab.find_ins (t : Tab α) (k j : Nat) (v : α) (h : Tab.find t k = none) :
    Tab.find (Tab.ins t k v) j = if j = k then some v else Tab.find t j := by
  induction t with
  | nil => grind [Tab.ins, Tab.find]
  | cons e r ih => grind [Tab.ins, Tab.find]

/-- Reading after a write. -/
@[simp] theorem Tab.find_set (t : Tab α) (k j : Nat) (v : α) :
    Tab.find (Tab.set t k v) j = if j = k then some v else Tab.find t j := by
  rw [Tab.set, Tab.find_ins _ _ _ _ (by simp), Tab.find_del]; grind

/-- A value after a write. -/
@[simp] theorem Tab.get_set (d : α) (t : Tab α) (k j : Nat) (v : α) :
    Tab.get d (Tab.set t k v) j = if j = k then v else Tab.get d t j := by
  simp only [Tab.get, Tab.find_set]; split <;> rfl

/-- A value after removal. -/
@[simp] theorem Tab.get_del (d : α) (t : Tab α) (k j : Nat) :
    Tab.get d (Tab.del t k) j = if j = k then d else Tab.get d t j := by
  simp only [Tab.get, Tab.find_del]; split <;> rfl

/-- A value after a write that keeps the default unlisted. -/
@[simp] theorem Tab.get_put [DecidableEq α] (d : α) (t : Tab α) (k j : Nat) (v : α) :
    Tab.get d (Tab.put d t k v) j = if j = k then v else Tab.get d t j := by
  unfold Tab.put; split <;> simp_all

/-- Reading after every value has changed. -/
@[simp] theorem Tab.find_mapVal (f : Nat → α → β) (t : Tab α) (k : Nat) :
    Tab.find (Tab.mapVal f t) k = (Tab.find t k).map (f k) := by
  induction t with
  | nil => simp [Tab.mapVal, Tab.find]
  | cons e r ih =>
    obtain ⟨j, v⟩ := e
    by_cases h : j = k
    · subst h; simp [Tab.mapVal, Tab.find]
    · simp only [Tab.mapVal] at ih; simp [Tab.mapVal, Tab.find, h, ih]

/-- A value after every value has changed by a function that keeps the default. -/
theorem Tab.get_mapVal (d : α) (f : Nat → α → α) (t : Tab α) (k : Nat) (h : f k d = d) :
    Tab.get d (Tab.mapVal f t) k = f k (Tab.get d t k) := by
  simp only [Tab.get, Tab.find_mapVal]; cases Tab.find t k <;> simp [h]

/-- What is found is listed. -/
theorem Tab.mem_of_find (t : Tab α) (k : Nat) (v : α) (h : Tab.find t k = some v) : (k, v) ∈ t := by
  induction t with
  | nil => simp [Tab.find] at h
  | cons e r ih => grind [Tab.find]

/-- A removal keeps the keys rising. -/
theorem Tab.sorted_del (t : Tab α) (k : Nat) (h : Tab.sorted t = true) : Tab.sorted (Tab.del t k) = true := by
  have sub : ∀ (r : Tab α), ∀ e ∈ Tab.del r k, e ∈ r := by
    intro r; induction r with
    | nil => simp [Tab.del]
    | cons e r ih => grind [Tab.del]
  induction t with
  | nil => simp [Tab.del, Tab.sorted]
  | cons e r ih =>
    obtain ⟨j, v⟩ := e
    simp only [Tab.sorted, Bool.and_eq_true, List.all_eq_true] at h
    simp only [Tab.del]
    split
    · exact ih h.2
    · simp only [Tab.sorted, Bool.and_eq_true, List.all_eq_true]
      exact ⟨fun x hx => h.1 x (sub r x hx), ih h.2⟩

/-- What an insertion lists. -/
theorem Tab.mem_ins (t : Tab α) (k : Nat) (v : α) (e : Nat × α) : e ∈ Tab.ins t k v ↔ e = (k, v) ∨ e ∈ t := by
  induction t with
  | nil => simp [Tab.ins]
  | cons x r ih => grind [Tab.ins]

/-- A removed key is not listed. -/
theorem Tab.mem_del (t : Tab α) (k : Nat) (e : Nat × α) : e ∈ Tab.del t k ↔ e.1 ≠ k ∧ e ∈ t := by
  induction t with
  | nil => simp [Tab.del]
  | cons x r ih => grind [Tab.del]

/-- An insertion of a key that is not listed keeps the keys rising. -/
theorem Tab.sorted_ins (t : Tab α) (k : Nat) (v : α) (h : Tab.sorted t = true) (hk : ∀ e ∈ t, e.1 ≠ k) :
    Tab.sorted (Tab.ins t k v) = true := by
  induction t with
  | nil => simp [Tab.ins, Tab.sorted]
  | cons x r ih =>
    obtain ⟨j, u⟩ := x
    simp only [Tab.sorted, Bool.and_eq_true, List.all_eq_true, decide_eq_true_eq] at h
    have hj : j ≠ k := hk (j, u) (by simp)
    have ih2 := ih h.2 (fun e he => hk e (by simp [he]))
    simp only [Tab.ins]
    split
    · simp only [Tab.sorted, Bool.and_eq_true, List.all_eq_true, decide_eq_true_eq]
      refine ⟨fun e he => ?_, h⟩
      rcases List.mem_cons.mp he with rfl | he
      · assumption
      · exact Nat.lt_trans ‹k < j› (h.1 e he)
    · simp only [Tab.sorted, Bool.and_eq_true, List.all_eq_true, decide_eq_true_eq]
      refine ⟨fun e he => ?_, ih2⟩
      rcases (Tab.mem_ins r k v e).mp he with rfl | he
      · simp only; omega
      · exact h.1 e he

/-- A write keeps the keys rising. -/
theorem Tab.sorted_set (t : Tab α) (k : Nat) (v : α) (h : Tab.sorted t = true) : Tab.sorted (Tab.set t k v) = true :=
  Tab.sorted_ins _ _ _ (Tab.sorted_del _ _ h) fun e he => ((Tab.mem_del t k e).mp he).1

/-- A removal keeps the canonical form. -/
theorem Tab.canon_del [DecidableEq α] (d : α) (t : Tab α) (k : Nat) (h : Tab.canon d t = true) :
    Tab.canon d (Tab.del t k) = true := by
  simp only [Tab.canon, Bool.and_eq_true, List.all_eq_true] at h ⊢
  exact ⟨Tab.sorted_del _ _ h.1, fun e he => h.2 e ((Tab.mem_del t k e).mp he).2⟩

/-- A write that keeps the default unlisted keeps the canonical form. -/
theorem Tab.canon_put [DecidableEq α] (d : α) (t : Tab α) (k : Nat) (v : α) (h : Tab.canon d t = true) :
    Tab.canon d (Tab.put d t k v) = true := by
  unfold Tab.put
  split
  · exact Tab.canon_del _ _ _ h
  · simp only [Tab.canon, Bool.and_eq_true, List.all_eq_true] at h ⊢
    refine ⟨Tab.sorted_set _ _ _ h.1, fun e he => ?_⟩
    rcases (Tab.mem_ins _ _ _ e).mp he with rfl | he
    · simpa using ‹_›
    · exact h.2 e ((Tab.mem_del t k e).mp he).2

end Sys2Proof.Machine
end

