-- ==== Sys2Proof/Laws/State.lean ====
section
/-! SUPPORT. What each field reads as after each update of the state, and of a workgroup, a course and a context. -/

namespace Sys2Proof.Machine

/-! Fields after `setWg`. -/

@[simp] theorem State.setWg_mem (s : State) (u : Nat) (w : Workgroup) : (s.setWg u w).mem = s.mem := rfl
@[simp] theorem State.setWg_poison (s : State) (u : Nat) (w : Workgroup) : (s.setWg u w).poison = s.poison := rfl
@[simp] theorem State.setWg_under (s : State) (u : Nat) (w : Workgroup) : (s.setWg u w).under = s.under := rfl
@[simp] theorem State.setWg_tags (s : State) (u : Nat) (w : Workgroup) : (s.setWg u w).tags = s.tags := rfl
@[simp] theorem State.setWg_copies (s : State) (u : Nat) (w : Workgroup) : (s.setWg u w).copies = s.copies := rfl
@[simp] theorem State.setWg_pend (s : State) (u : Nat) (w : Workgroup) : (s.setWg u w).pend = s.pend := rfl
@[simp] theorem State.setWg_reds (s : State) (u : Nat) (w : Workgroup) : (s.setWg u w).reds = s.reds := rfl
@[simp] theorem State.setWg_grids (s : State) (u : Nat) (w : Workgroup) : (s.setWg u w).grids = s.grids := rfl
@[simp] theorem State.setWg_colls (s : State) (u : Nat) (w : Workgroup) : (s.setWg u w).colls = s.colls := rfl
@[simp] theorem State.setWg_cores (s : State) (u : Nat) (w : Workgroup) : (s.setWg u w).cores = s.cores := rfl
@[simp] theorem State.setWg_dies (s : State) (u : Nat) (w : Workgroup) : (s.setWg u w).dies = s.dies := rfl
@[simp] theorem State.setWg_links (s : State) (u : Nat) (w : Workgroup) : (s.setWg u w).links = s.links := rfl
@[simp] theorem State.setWg_seqs (s : State) (u : Nat) (w : Workgroup) : (s.setWg u w).seqs = s.seqs := rfl
@[simp] theorem State.setWg_queues (s : State) (u : Nat) (w : Workgroup) : (s.setWg u w).queues = s.queues := rfl
@[simp] theorem State.setWg_acl (s : State) (u : Nat) (w : Workgroup) : (s.setWg u w).acl = s.acl := rfl
@[simp] theorem State.setWg_resv (s : State) (u : Nat) (w : Workgroup) : (s.setWg u w).resv = s.resv := rfl
@[simp] theorem State.setWg_mboxes (s : State) (u : Nat) (w : Workgroup) : (s.setWg u w).mboxes = s.mboxes := rfl
@[simp] theorem State.setWg_eaves (s : State) (u : Nat) (w : Workgroup) : (s.setWg u w).eaves = s.eaves := rfl
@[simp] theorem State.setWg_mgmt (s : State) (u : Nat) (w : Workgroup) : (s.setWg u w).mgmt = s.mgmt := rfl
@[simp] theorem State.setWg_rules (s : State) (u : Nat) (w : Workgroup) : (s.setWg u w).rules = s.rules := rfl
@[simp] theorem State.setWg_egress (s : State) (u : Nat) (w : Workgroup) : (s.setWg u w).egress = s.egress := rfl
@[simp] theorem State.setWg_ownPeer (s : State) (u : Nat) (w : Workgroup) : (s.setWg u w).ownPeer = s.ownPeer := rfl
@[simp] theorem State.setWg_routes (s : State) (u : Nat) (w : Workgroup) : (s.setWg u w).routes = s.routes := rfl
@[simp] theorem State.setWg_windows (s : State) (u : Nat) (w : Workgroup) : (s.setWg u w).windows = s.windows := rfl
@[simp] theorem State.setWg_tsrc (s : State) (u : Nat) (w : Workgroup) : (s.setWg u w).tsrc = s.tsrc := rfl
@[simp] theorem State.setWg_ioTlb (s : State) (u : Nat) (w : Workgroup) : (s.setWg u w).ioTlb = s.ioTlb := rfl
@[simp] theorem State.setWg_wfaults (s : State) (u : Nat) (w : Workgroup) : (s.setWg u w).wfaults = s.wfaults := rfl
@[simp] theorem State.setWg_reqs (s : State) (u : Nat) (w : Workgroup) : (s.setWg u w).reqs = s.reqs := rfl
@[simp] theorem State.setWg_backlog (s : State) (u : Nat) (w : Workgroup) : (s.setWg u w).backlog = s.backlog := rfl
@[simp] theorem State.setWg_inb (s : State) (u : Nat) (w : Workgroup) : (s.setWg u w).inb = s.inb := rfl
@[simp] theorem State.setWg_monitors (s : State) (u : Nat) (w : Workgroup) : (s.setWg u w).monitors = s.monitors := rfl
@[simp] theorem State.setWg_lrs (s : State) (u : Nat) (w : Workgroup) : (s.setWg u w).lrs = s.lrs := rfl
@[simp] theorem State.setWg_evMgmt (s : State) (u : Nat) (w : Workgroup) : (s.setWg u w).evMgmt = s.evMgmt := rfl
@[simp] theorem State.setWg_evHost (s : State) (u : Nat) (w : Workgroup) : (s.setWg u w).evHost = s.evHost := rfl
@[simp] theorem State.setWg_umhal (s : State) (u : Nat) (w : Workgroup) : (s.setWg u w).umhal = s.umhal := rfl
@[simp] theorem State.setWg_fwInbox (s : State) (u : Nat) (w : Workgroup) : (s.setWg u w).fwInbox = s.fwInbox := rfl
@[simp] theorem State.setWg_report (s : State) (u : Nat) (w : Workgroup) : (s.setWg u w).report = s.report := rfl
@[simp] theorem State.setWg_txFrame (s : State) (u : Nat) (w : Workgroup) : (s.setWg u w).txFrame = s.txFrame := rfl
@[simp] theorem State.setWg_txFlit (s : State) (u : Nat) (w : Workgroup) : (s.setWg u w).txFlit = s.txFlit := rfl
@[simp] theorem State.setWg_frames (s : State) (u : Nat) (w : Workgroup) : (s.setWg u w).frames = s.frames := rfl
@[simp] theorem State.setWg_images (s : State) (u : Nat) (w : Workgroup) : (s.setWg u w).images = s.images := rfl
@[simp] theorem State.setWg_idKey (s : State) (u : Nat) (w : Workgroup) : (s.setWg u w).idKey = s.idKey := rfl
@[simp] theorem State.setWg_held (s : State) (u : Nat) (w : Workgroup) : (s.setWg u w).held = s.held := rfl
@[simp] theorem State.setWg_retry (s : State) (u : Nat) (w : Workgroup) : (s.setWg u w).retry = s.retry := rfl
@[simp] theorem State.setWg_rollback (s : State) (u : Nat) (w : Workgroup) : (s.setWg u w).rollback = s.rollback := rfl
@[simp] theorem State.setWg_retired (s : State) (u : Nat) (w : Workgroup) : (s.setWg u w).retired = s.retired := rfl
@[simp] theorem State.setWg_watched (s : State) (u : Nat) (w : Workgroup) : (s.setWg u w).watched = s.watched := rfl
@[simp] theorem State.setWg_bootStop (s : State) (u : Nat) (w : Workgroup) : (s.setWg u w).bootStop = s.bootStop := rfl
@[simp] theorem State.setWg_fatal (s : State) (u : Nat) (w : Workgroup) : (s.setWg u w).fatal = s.fatal := rfl
@[simp] theorem State.setWg_cycle (s : State) (u : Nat) (w : Workgroup) : (s.setWg u w).cycle = s.cycle := rfl
@[simp] theorem State.setWg_dtime (s : State) (u : Nat) (w : Workgroup) : (s.setWg u w).dtime = s.dtime := rfl
@[simp] theorem State.setWg_steps (s : State) (u : Nat) (w : Workgroup) : (s.setWg u w).steps = s.steps := rfl
@[simp] theorem State.setWg_stamp (s : State) (u : Nat) (w : Workgroup) : (s.setWg u w).stamp = s.stamp := rfl
@[simp] theorem State.setWg_nextUid (s : State) (u : Nat) (w : Workgroup) : (s.setWg u w).nextUid = s.nextUid := rfl
@[simp] theorem State.setWg_nextGid (s : State) (u : Nat) (w : Workgroup) : (s.setWg u w).nextGid = s.nextGid := rfl
@[simp] theorem State.setWg_turnQ (s : State) (u : Nat) (w : Workgroup) : (s.setWg u w).turnQ = s.turnQ := rfl
@[simp] theorem State.setWg_turnL (s : State) (u : Nat) (w : Workgroup) : (s.setWg u w).turnL = s.turnL := rfl
@[simp] theorem State.setWg_curWg (s : State) (u : Nat) (w : Workgroup) : (s.setWg u w).curWg = s.curWg := rfl
@[simp] theorem State.setWg_curCrs (s : State) (u : Nat) (w : Workgroup) : (s.setWg u w).curCrs = s.curCrs := rfl
@[simp] theorem State.setWg_curLink (s : State) (u : Nat) (w : Workgroup) : (s.setWg u w).curLink = s.curLink := rfl
@[simp] theorem State.setWg_curCtx (s : State) (u : Nat) (w : Workgroup) : (s.setWg u w).curCtx = s.curCtx := rfl
@[simp] theorem State.setWg_seqTurn (s : State) (u : Nat) (w : Workgroup) : (s.setWg u w).seqTurn = s.seqTurn := rfl
@[simp] theorem State.setWg_inRep (s : State) (u : Nat) (w : Workgroup) : (s.setWg u w).inRep = s.inRep := rfl
@[simp] theorem State.setWg_agenda (s : State) (u : Nat) (w : Workgroup) : (s.setWg u w).agenda = s.agenda := rfl
@[simp] theorem State.setWg_upsets (s : State) (u : Nat) (w : Workgroup) : (s.setWg u w).upsets = s.upsets := rfl
@[simp] theorem State.setWg_suspects (s : State) (u : Nat) (w : Workgroup) : (s.setWg u w).suspects = s.suspects := rfl

@[simp] theorem State.setWg_wg (s : State) (u : Nat) (w : Workgroup) (j : Nat) : (s.setWg u w).wg j = if j = u then w else s.wg j := by
  simp [State.setWg, State.wg]

/-! Fields after `setGrid`. -/

@[simp] theorem State.setGrid_mem (s : State) (g : Nat) (x : Grid) : (s.setGrid g x).mem = s.mem := rfl
@[simp] theorem State.setGrid_poison (s : State) (g : Nat) (x : Grid) : (s.setGrid g x).poison = s.poison := rfl
@[simp] theorem State.setGrid_under (s : State) (g : Nat) (x : Grid) : (s.setGrid g x).under = s.under := rfl
@[simp] theorem State.setGrid_tags (s : State) (g : Nat) (x : Grid) : (s.setGrid g x).tags = s.tags := rfl
@[simp] theorem State.setGrid_copies (s : State) (g : Nat) (x : Grid) : (s.setGrid g x).copies = s.copies := rfl
@[simp] theorem State.setGrid_pend (s : State) (g : Nat) (x : Grid) : (s.setGrid g x).pend = s.pend := rfl
@[simp] theorem State.setGrid_reds (s : State) (g : Nat) (x : Grid) : (s.setGrid g x).reds = s.reds := rfl
@[simp] theorem State.setGrid_wgs (s : State) (g : Nat) (x : Grid) : (s.setGrid g x).wgs = s.wgs := rfl
@[simp] theorem State.setGrid_colls (s : State) (g : Nat) (x : Grid) : (s.setGrid g x).colls = s.colls := rfl
@[simp] theorem State.setGrid_cores (s : State) (g : Nat) (x : Grid) : (s.setGrid g x).cores = s.cores := rfl
@[simp] theorem State.setGrid_dies (s : State) (g : Nat) (x : Grid) : (s.setGrid g x).dies = s.dies := rfl
@[simp] theorem State.setGrid_links (s : State) (g : Nat) (x : Grid) : (s.setGrid g x).links = s.links := rfl
@[simp] theorem State.setGrid_seqs (s : State) (g : Nat) (x : Grid) : (s.setGrid g x).seqs = s.seqs := rfl
@[simp] theorem State.setGrid_queues (s : State) (g : Nat) (x : Grid) : (s.setGrid g x).queues = s.queues := rfl
@[simp] theorem State.setGrid_acl (s : State) (g : Nat) (x : Grid) : (s.setGrid g x).acl = s.acl := rfl
@[simp] theorem State.setGrid_resv (s : State) (g : Nat) (x : Grid) : (s.setGrid g x).resv = s.resv := rfl
@[simp] theorem State.setGrid_mboxes (s : State) (g : Nat) (x : Grid) : (s.setGrid g x).mboxes = s.mboxes := rfl
@[simp] theorem State.setGrid_eaves (s : State) (g : Nat) (x : Grid) : (s.setGrid g x).eaves = s.eaves := rfl
@[simp] theorem State.setGrid_mgmt (s : State) (g : Nat) (x : Grid) : (s.setGrid g x).mgmt = s.mgmt := rfl
@[simp] theorem State.setGrid_rules (s : State) (g : Nat) (x : Grid) : (s.setGrid g x).rules = s.rules := rfl
@[simp] theorem State.setGrid_egress (s : State) (g : Nat) (x : Grid) : (s.setGrid g x).egress = s.egress := rfl
@[simp] theorem State.setGrid_ownPeer (s : State) (g : Nat) (x : Grid) : (s.setGrid g x).ownPeer = s.ownPeer := rfl
@[simp] theorem State.setGrid_routes (s : State) (g : Nat) (x : Grid) : (s.setGrid g x).routes = s.routes := rfl
@[simp] theorem State.setGrid_windows (s : State) (g : Nat) (x : Grid) : (s.setGrid g x).windows = s.windows := rfl
@[simp] theorem State.setGrid_tsrc (s : State) (g : Nat) (x : Grid) : (s.setGrid g x).tsrc = s.tsrc := rfl
@[simp] theorem State.setGrid_ioTlb (s : State) (g : Nat) (x : Grid) : (s.setGrid g x).ioTlb = s.ioTlb := rfl
@[simp] theorem State.setGrid_wfaults (s : State) (g : Nat) (x : Grid) : (s.setGrid g x).wfaults = s.wfaults := rfl
@[simp] theorem State.setGrid_reqs (s : State) (g : Nat) (x : Grid) : (s.setGrid g x).reqs = s.reqs := rfl
@[simp] theorem State.setGrid_backlog (s : State) (g : Nat) (x : Grid) : (s.setGrid g x).backlog = s.backlog := rfl
@[simp] theorem State.setGrid_inb (s : State) (g : Nat) (x : Grid) : (s.setGrid g x).inb = s.inb := rfl
@[simp] theorem State.setGrid_monitors (s : State) (g : Nat) (x : Grid) : (s.setGrid g x).monitors = s.monitors := rfl
@[simp] theorem State.setGrid_lrs (s : State) (g : Nat) (x : Grid) : (s.setGrid g x).lrs = s.lrs := rfl
@[simp] theorem State.setGrid_evMgmt (s : State) (g : Nat) (x : Grid) : (s.setGrid g x).evMgmt = s.evMgmt := rfl
@[simp] theorem State.setGrid_evHost (s : State) (g : Nat) (x : Grid) : (s.setGrid g x).evHost = s.evHost := rfl
@[simp] theorem State.setGrid_umhal (s : State) (g : Nat) (x : Grid) : (s.setGrid g x).umhal = s.umhal := rfl
@[simp] theorem State.setGrid_fwInbox (s : State) (g : Nat) (x : Grid) : (s.setGrid g x).fwInbox = s.fwInbox := rfl
@[simp] theorem State.setGrid_report (s : State) (g : Nat) (x : Grid) : (s.setGrid g x).report = s.report := rfl
@[simp] theorem State.setGrid_txFrame (s : State) (g : Nat) (x : Grid) : (s.setGrid g x).txFrame = s.txFrame := rfl
@[simp] theorem State.setGrid_txFlit (s : State) (g : Nat) (x : Grid) : (s.setGrid g x).txFlit = s.txFlit := rfl
@[simp] theorem State.setGrid_frames (s : State) (g : Nat) (x : Grid) : (s.setGrid g x).frames = s.frames := rfl
@[simp] theorem State.setGrid_images (s : State) (g : Nat) (x : Grid) : (s.setGrid g x).images = s.images := rfl
@[simp] theorem State.setGrid_idKey (s : State) (g : Nat) (x : Grid) : (s.setGrid g x).idKey = s.idKey := rfl
@[simp] theorem State.setGrid_held (s : State) (g : Nat) (x : Grid) : (s.setGrid g x).held = s.held := rfl
@[simp] theorem State.setGrid_retry (s : State) (g : Nat) (x : Grid) : (s.setGrid g x).retry = s.retry := rfl
@[simp] theorem State.setGrid_rollback (s : State) (g : Nat) (x : Grid) : (s.setGrid g x).rollback = s.rollback := rfl
@[simp] theorem State.setGrid_retired (s : State) (g : Nat) (x : Grid) : (s.setGrid g x).retired = s.retired := rfl
@[simp] theorem State.setGrid_watched (s : State) (g : Nat) (x : Grid) : (s.setGrid g x).watched = s.watched := rfl
@[simp] theorem State.setGrid_bootStop (s : State) (g : Nat) (x : Grid) : (s.setGrid g x).bootStop = s.bootStop := rfl
@[simp] theorem State.setGrid_fatal (s : State) (g : Nat) (x : Grid) : (s.setGrid g x).fatal = s.fatal := rfl
@[simp] theorem State.setGrid_cycle (s : State) (g : Nat) (x : Grid) : (s.setGrid g x).cycle = s.cycle := rfl
@[simp] theorem State.setGrid_dtime (s : State) (g : Nat) (x : Grid) : (s.setGrid g x).dtime = s.dtime := rfl
@[simp] theorem State.setGrid_steps (s : State) (g : Nat) (x : Grid) : (s.setGrid g x).steps = s.steps := rfl
@[simp] theorem State.setGrid_stamp (s : State) (g : Nat) (x : Grid) : (s.setGrid g x).stamp = s.stamp := rfl
@[simp] theorem State.setGrid_nextUid (s : State) (g : Nat) (x : Grid) : (s.setGrid g x).nextUid = s.nextUid := rfl
@[simp] theorem State.setGrid_nextGid (s : State) (g : Nat) (x : Grid) : (s.setGrid g x).nextGid = s.nextGid := rfl
@[simp] theorem State.setGrid_turnQ (s : State) (g : Nat) (x : Grid) : (s.setGrid g x).turnQ = s.turnQ := rfl
@[simp] theorem State.setGrid_turnL (s : State) (g : Nat) (x : Grid) : (s.setGrid g x).turnL = s.turnL := rfl
@[simp] theorem State.setGrid_curWg (s : State) (g : Nat) (x : Grid) : (s.setGrid g x).curWg = s.curWg := rfl
@[simp] theorem State.setGrid_curCrs (s : State) (g : Nat) (x : Grid) : (s.setGrid g x).curCrs = s.curCrs := rfl
@[simp] theorem State.setGrid_curLink (s : State) (g : Nat) (x : Grid) : (s.setGrid g x).curLink = s.curLink := rfl
@[simp] theorem State.setGrid_curCtx (s : State) (g : Nat) (x : Grid) : (s.setGrid g x).curCtx = s.curCtx := rfl
@[simp] theorem State.setGrid_seqTurn (s : State) (g : Nat) (x : Grid) : (s.setGrid g x).seqTurn = s.seqTurn := rfl
@[simp] theorem State.setGrid_inRep (s : State) (g : Nat) (x : Grid) : (s.setGrid g x).inRep = s.inRep := rfl
@[simp] theorem State.setGrid_agenda (s : State) (g : Nat) (x : Grid) : (s.setGrid g x).agenda = s.agenda := rfl
@[simp] theorem State.setGrid_upsets (s : State) (g : Nat) (x : Grid) : (s.setGrid g x).upsets = s.upsets := rfl
@[simp] theorem State.setGrid_suspects (s : State) (g : Nat) (x : Grid) : (s.setGrid g x).suspects = s.suspects := rfl

@[simp] theorem State.setGrid_grid (s : State) (g : Nat) (x : Grid) (j : Nat) : (s.setGrid g x).grid j = if j = g then x else s.grid j := by
  simp [State.setGrid, State.grid]

/-! Fields after `setCore`. -/

@[simp] theorem State.setCore_mem (s : State) (k : Nat) (c : Core) : (s.setCore k c).mem = s.mem := rfl
@[simp] theorem State.setCore_poison (s : State) (k : Nat) (c : Core) : (s.setCore k c).poison = s.poison := rfl
@[simp] theorem State.setCore_under (s : State) (k : Nat) (c : Core) : (s.setCore k c).under = s.under := rfl
@[simp] theorem State.setCore_tags (s : State) (k : Nat) (c : Core) : (s.setCore k c).tags = s.tags := rfl
@[simp] theorem State.setCore_copies (s : State) (k : Nat) (c : Core) : (s.setCore k c).copies = s.copies := rfl
@[simp] theorem State.setCore_pend (s : State) (k : Nat) (c : Core) : (s.setCore k c).pend = s.pend := rfl
@[simp] theorem State.setCore_reds (s : State) (k : Nat) (c : Core) : (s.setCore k c).reds = s.reds := rfl
@[simp] theorem State.setCore_wgs (s : State) (k : Nat) (c : Core) : (s.setCore k c).wgs = s.wgs := rfl
@[simp] theorem State.setCore_grids (s : State) (k : Nat) (c : Core) : (s.setCore k c).grids = s.grids := rfl
@[simp] theorem State.setCore_colls (s : State) (k : Nat) (c : Core) : (s.setCore k c).colls = s.colls := rfl
@[simp] theorem State.setCore_dies (s : State) (k : Nat) (c : Core) : (s.setCore k c).dies = s.dies := rfl
@[simp] theorem State.setCore_links (s : State) (k : Nat) (c : Core) : (s.setCore k c).links = s.links := rfl
@[simp] theorem State.setCore_seqs (s : State) (k : Nat) (c : Core) : (s.setCore k c).seqs = s.seqs := rfl
@[simp] theorem State.setCore_queues (s : State) (k : Nat) (c : Core) : (s.setCore k c).queues = s.queues := rfl
@[simp] theorem State.setCore_acl (s : State) (k : Nat) (c : Core) : (s.setCore k c).acl = s.acl := rfl
@[simp] theorem State.setCore_resv (s : State) (k : Nat) (c : Core) : (s.setCore k c).resv = s.resv := rfl
@[simp] theorem State.setCore_mboxes (s : State) (k : Nat) (c : Core) : (s.setCore k c).mboxes = s.mboxes := rfl
@[simp] theorem State.setCore_eaves (s : State) (k : Nat) (c : Core) : (s.setCore k c).eaves = s.eaves := rfl
@[simp] theorem State.setCore_mgmt (s : State) (k : Nat) (c : Core) : (s.setCore k c).mgmt = s.mgmt := rfl
@[simp] theorem State.setCore_rules (s : State) (k : Nat) (c : Core) : (s.setCore k c).rules = s.rules := rfl
@[simp] theorem State.setCore_egress (s : State) (k : Nat) (c : Core) : (s.setCore k c).egress = s.egress := rfl
@[simp] theorem State.setCore_ownPeer (s : State) (k : Nat) (c : Core) : (s.setCore k c).ownPeer = s.ownPeer := rfl
@[simp] theorem State.setCore_routes (s : State) (k : Nat) (c : Core) : (s.setCore k c).routes = s.routes := rfl
@[simp] theorem State.setCore_windows (s : State) (k : Nat) (c : Core) : (s.setCore k c).windows = s.windows := rfl
@[simp] theorem State.setCore_tsrc (s : State) (k : Nat) (c : Core) : (s.setCore k c).tsrc = s.tsrc := rfl
@[simp] theorem State.setCore_ioTlb (s : State) (k : Nat) (c : Core) : (s.setCore k c).ioTlb = s.ioTlb := rfl
@[simp] theorem State.setCore_wfaults (s : State) (k : Nat) (c : Core) : (s.setCore k c).wfaults = s.wfaults := rfl
@[simp] theorem State.setCore_reqs (s : State) (k : Nat) (c : Core) : (s.setCore k c).reqs = s.reqs := rfl
@[simp] theorem State.setCore_backlog (s : State) (k : Nat) (c : Core) : (s.setCore k c).backlog = s.backlog := rfl
@[simp] theorem State.setCore_inb (s : State) (k : Nat) (c : Core) : (s.setCore k c).inb = s.inb := rfl
@[simp] theorem State.setCore_monitors (s : State) (k : Nat) (c : Core) : (s.setCore k c).monitors = s.monitors := rfl
@[simp] theorem State.setCore_lrs (s : State) (k : Nat) (c : Core) : (s.setCore k c).lrs = s.lrs := rfl
@[simp] theorem State.setCore_evMgmt (s : State) (k : Nat) (c : Core) : (s.setCore k c).evMgmt = s.evMgmt := rfl
@[simp] theorem State.setCore_evHost (s : State) (k : Nat) (c : Core) : (s.setCore k c).evHost = s.evHost := rfl
@[simp] theorem State.setCore_umhal (s : State) (k : Nat) (c : Core) : (s.setCore k c).umhal = s.umhal := rfl
@[simp] theorem State.setCore_fwInbox (s : State) (k : Nat) (c : Core) : (s.setCore k c).fwInbox = s.fwInbox := rfl
@[simp] theorem State.setCore_report (s : State) (k : Nat) (c : Core) : (s.setCore k c).report = s.report := rfl
@[simp] theorem State.setCore_txFrame (s : State) (k : Nat) (c : Core) : (s.setCore k c).txFrame = s.txFrame := rfl
@[simp] theorem State.setCore_txFlit (s : State) (k : Nat) (c : Core) : (s.setCore k c).txFlit = s.txFlit := rfl
@[simp] theorem State.setCore_frames (s : State) (k : Nat) (c : Core) : (s.setCore k c).frames = s.frames := rfl
@[simp] theorem State.setCore_images (s : State) (k : Nat) (c : Core) : (s.setCore k c).images = s.images := rfl
@[simp] theorem State.setCore_idKey (s : State) (k : Nat) (c : Core) : (s.setCore k c).idKey = s.idKey := rfl
@[simp] theorem State.setCore_held (s : State) (k : Nat) (c : Core) : (s.setCore k c).held = s.held := rfl
@[simp] theorem State.setCore_retry (s : State) (k : Nat) (c : Core) : (s.setCore k c).retry = s.retry := rfl
@[simp] theorem State.setCore_rollback (s : State) (k : Nat) (c : Core) : (s.setCore k c).rollback = s.rollback := rfl
@[simp] theorem State.setCore_retired (s : State) (k : Nat) (c : Core) : (s.setCore k c).retired = s.retired := rfl
@[simp] theorem State.setCore_watched (s : State) (k : Nat) (c : Core) : (s.setCore k c).watched = s.watched := rfl
@[simp] theorem State.setCore_bootStop (s : State) (k : Nat) (c : Core) : (s.setCore k c).bootStop = s.bootStop := rfl
@[simp] theorem State.setCore_fatal (s : State) (k : Nat) (c : Core) : (s.setCore k c).fatal = s.fatal := rfl
@[simp] theorem State.setCore_cycle (s : State) (k : Nat) (c : Core) : (s.setCore k c).cycle = s.cycle := rfl
@[simp] theorem State.setCore_dtime (s : State) (k : Nat) (c : Core) : (s.setCore k c).dtime = s.dtime := rfl
@[simp] theorem State.setCore_steps (s : State) (k : Nat) (c : Core) : (s.setCore k c).steps = s.steps := rfl
@[simp] theorem State.setCore_stamp (s : State) (k : Nat) (c : Core) : (s.setCore k c).stamp = s.stamp := rfl
@[simp] theorem State.setCore_nextUid (s : State) (k : Nat) (c : Core) : (s.setCore k c).nextUid = s.nextUid := rfl
@[simp] theorem State.setCore_nextGid (s : State) (k : Nat) (c : Core) : (s.setCore k c).nextGid = s.nextGid := rfl
@[simp] theorem State.setCore_turnQ (s : State) (k : Nat) (c : Core) : (s.setCore k c).turnQ = s.turnQ := rfl
@[simp] theorem State.setCore_turnL (s : State) (k : Nat) (c : Core) : (s.setCore k c).turnL = s.turnL := rfl
@[simp] theorem State.setCore_curWg (s : State) (k : Nat) (c : Core) : (s.setCore k c).curWg = s.curWg := rfl
@[simp] theorem State.setCore_curCrs (s : State) (k : Nat) (c : Core) : (s.setCore k c).curCrs = s.curCrs := rfl
@[simp] theorem State.setCore_curLink (s : State) (k : Nat) (c : Core) : (s.setCore k c).curLink = s.curLink := rfl
@[simp] theorem State.setCore_curCtx (s : State) (k : Nat) (c : Core) : (s.setCore k c).curCtx = s.curCtx := rfl
@[simp] theorem State.setCore_seqTurn (s : State) (k : Nat) (c : Core) : (s.setCore k c).seqTurn = s.seqTurn := rfl
@[simp] theorem State.setCore_inRep (s : State) (k : Nat) (c : Core) : (s.setCore k c).inRep = s.inRep := rfl
@[simp] theorem State.setCore_agenda (s : State) (k : Nat) (c : Core) : (s.setCore k c).agenda = s.agenda := rfl
@[simp] theorem State.setCore_upsets (s : State) (k : Nat) (c : Core) : (s.setCore k c).upsets = s.upsets := rfl
@[simp] theorem State.setCore_suspects (s : State) (k : Nat) (c : Core) : (s.setCore k c).suspects = s.suspects := rfl

@[simp] theorem State.setCore_core (s : State) (k : Nat) (c : Core) (j : Nat) : (s.setCore k c).core j = if j = k then c else s.core j := by
  simp [State.setCore, State.core]

/-! Fields after `setDie`. -/

@[simp] theorem State.setDie_mem (s : State) (d : Nat) (x : Die) : (s.setDie d x).mem = s.mem := rfl
@[simp] theorem State.setDie_poison (s : State) (d : Nat) (x : Die) : (s.setDie d x).poison = s.poison := rfl
@[simp] theorem State.setDie_under (s : State) (d : Nat) (x : Die) : (s.setDie d x).under = s.under := rfl
@[simp] theorem State.setDie_tags (s : State) (d : Nat) (x : Die) : (s.setDie d x).tags = s.tags := rfl
@[simp] theorem State.setDie_copies (s : State) (d : Nat) (x : Die) : (s.setDie d x).copies = s.copies := rfl
@[simp] theorem State.setDie_pend (s : State) (d : Nat) (x : Die) : (s.setDie d x).pend = s.pend := rfl
@[simp] theorem State.setDie_reds (s : State) (d : Nat) (x : Die) : (s.setDie d x).reds = s.reds := rfl
@[simp] theorem State.setDie_wgs (s : State) (d : Nat) (x : Die) : (s.setDie d x).wgs = s.wgs := rfl
@[simp] theorem State.setDie_grids (s : State) (d : Nat) (x : Die) : (s.setDie d x).grids = s.grids := rfl
@[simp] theorem State.setDie_colls (s : State) (d : Nat) (x : Die) : (s.setDie d x).colls = s.colls := rfl
@[simp] theorem State.setDie_cores (s : State) (d : Nat) (x : Die) : (s.setDie d x).cores = s.cores := rfl
@[simp] theorem State.setDie_links (s : State) (d : Nat) (x : Die) : (s.setDie d x).links = s.links := rfl
@[simp] theorem State.setDie_seqs (s : State) (d : Nat) (x : Die) : (s.setDie d x).seqs = s.seqs := rfl
@[simp] theorem State.setDie_queues (s : State) (d : Nat) (x : Die) : (s.setDie d x).queues = s.queues := rfl
@[simp] theorem State.setDie_acl (s : State) (d : Nat) (x : Die) : (s.setDie d x).acl = s.acl := rfl
@[simp] theorem State.setDie_resv (s : State) (d : Nat) (x : Die) : (s.setDie d x).resv = s.resv := rfl
@[simp] theorem State.setDie_mboxes (s : State) (d : Nat) (x : Die) : (s.setDie d x).mboxes = s.mboxes := rfl
@[simp] theorem State.setDie_eaves (s : State) (d : Nat) (x : Die) : (s.setDie d x).eaves = s.eaves := rfl
@[simp] theorem State.setDie_mgmt (s : State) (d : Nat) (x : Die) : (s.setDie d x).mgmt = s.mgmt := rfl
@[simp] theorem State.setDie_rules (s : State) (d : Nat) (x : Die) : (s.setDie d x).rules = s.rules := rfl
@[simp] theorem State.setDie_egress (s : State) (d : Nat) (x : Die) : (s.setDie d x).egress = s.egress := rfl
@[simp] theorem State.setDie_ownPeer (s : State) (d : Nat) (x : Die) : (s.setDie d x).ownPeer = s.ownPeer := rfl
@[simp] theorem State.setDie_routes (s : State) (d : Nat) (x : Die) : (s.setDie d x).routes = s.routes := rfl
@[simp] theorem State.setDie_windows (s : State) (d : Nat) (x : Die) : (s.setDie d x).windows = s.windows := rfl
@[simp] theorem State.setDie_tsrc (s : State) (d : Nat) (x : Die) : (s.setDie d x).tsrc = s.tsrc := rfl
@[simp] theorem State.setDie_ioTlb (s : State) (d : Nat) (x : Die) : (s.setDie d x).ioTlb = s.ioTlb := rfl
@[simp] theorem State.setDie_wfaults (s : State) (d : Nat) (x : Die) : (s.setDie d x).wfaults = s.wfaults := rfl
@[simp] theorem State.setDie_reqs (s : State) (d : Nat) (x : Die) : (s.setDie d x).reqs = s.reqs := rfl
@[simp] theorem State.setDie_backlog (s : State) (d : Nat) (x : Die) : (s.setDie d x).backlog = s.backlog := rfl
@[simp] theorem State.setDie_inb (s : State) (d : Nat) (x : Die) : (s.setDie d x).inb = s.inb := rfl
@[simp] theorem State.setDie_monitors (s : State) (d : Nat) (x : Die) : (s.setDie d x).monitors = s.monitors := rfl
@[simp] theorem State.setDie_lrs (s : State) (d : Nat) (x : Die) : (s.setDie d x).lrs = s.lrs := rfl
@[simp] theorem State.setDie_evMgmt (s : State) (d : Nat) (x : Die) : (s.setDie d x).evMgmt = s.evMgmt := rfl
@[simp] theorem State.setDie_evHost (s : State) (d : Nat) (x : Die) : (s.setDie d x).evHost = s.evHost := rfl
@[simp] theorem State.setDie_umhal (s : State) (d : Nat) (x : Die) : (s.setDie d x).umhal = s.umhal := rfl
@[simp] theorem State.setDie_fwInbox (s : State) (d : Nat) (x : Die) : (s.setDie d x).fwInbox = s.fwInbox := rfl
@[simp] theorem State.setDie_report (s : State) (d : Nat) (x : Die) : (s.setDie d x).report = s.report := rfl
@[simp] theorem State.setDie_txFrame (s : State) (d : Nat) (x : Die) : (s.setDie d x).txFrame = s.txFrame := rfl
@[simp] theorem State.setDie_txFlit (s : State) (d : Nat) (x : Die) : (s.setDie d x).txFlit = s.txFlit := rfl
@[simp] theorem State.setDie_frames (s : State) (d : Nat) (x : Die) : (s.setDie d x).frames = s.frames := rfl
@[simp] theorem State.setDie_images (s : State) (d : Nat) (x : Die) : (s.setDie d x).images = s.images := rfl
@[simp] theorem State.setDie_idKey (s : State) (d : Nat) (x : Die) : (s.setDie d x).idKey = s.idKey := rfl
@[simp] theorem State.setDie_held (s : State) (d : Nat) (x : Die) : (s.setDie d x).held = s.held := rfl
@[simp] theorem State.setDie_retry (s : State) (d : Nat) (x : Die) : (s.setDie d x).retry = s.retry := rfl
@[simp] theorem State.setDie_rollback (s : State) (d : Nat) (x : Die) : (s.setDie d x).rollback = s.rollback := rfl
@[simp] theorem State.setDie_retired (s : State) (d : Nat) (x : Die) : (s.setDie d x).retired = s.retired := rfl
@[simp] theorem State.setDie_watched (s : State) (d : Nat) (x : Die) : (s.setDie d x).watched = s.watched := rfl
@[simp] theorem State.setDie_bootStop (s : State) (d : Nat) (x : Die) : (s.setDie d x).bootStop = s.bootStop := rfl
@[simp] theorem State.setDie_fatal (s : State) (d : Nat) (x : Die) : (s.setDie d x).fatal = s.fatal := rfl
@[simp] theorem State.setDie_cycle (s : State) (d : Nat) (x : Die) : (s.setDie d x).cycle = s.cycle := rfl
@[simp] theorem State.setDie_dtime (s : State) (d : Nat) (x : Die) : (s.setDie d x).dtime = s.dtime := rfl
@[simp] theorem State.setDie_steps (s : State) (d : Nat) (x : Die) : (s.setDie d x).steps = s.steps := rfl
@[simp] theorem State.setDie_stamp (s : State) (d : Nat) (x : Die) : (s.setDie d x).stamp = s.stamp := rfl
@[simp] theorem State.setDie_nextUid (s : State) (d : Nat) (x : Die) : (s.setDie d x).nextUid = s.nextUid := rfl
@[simp] theorem State.setDie_nextGid (s : State) (d : Nat) (x : Die) : (s.setDie d x).nextGid = s.nextGid := rfl
@[simp] theorem State.setDie_turnQ (s : State) (d : Nat) (x : Die) : (s.setDie d x).turnQ = s.turnQ := rfl
@[simp] theorem State.setDie_turnL (s : State) (d : Nat) (x : Die) : (s.setDie d x).turnL = s.turnL := rfl
@[simp] theorem State.setDie_curWg (s : State) (d : Nat) (x : Die) : (s.setDie d x).curWg = s.curWg := rfl
@[simp] theorem State.setDie_curCrs (s : State) (d : Nat) (x : Die) : (s.setDie d x).curCrs = s.curCrs := rfl
@[simp] theorem State.setDie_curLink (s : State) (d : Nat) (x : Die) : (s.setDie d x).curLink = s.curLink := rfl
@[simp] theorem State.setDie_curCtx (s : State) (d : Nat) (x : Die) : (s.setDie d x).curCtx = s.curCtx := rfl
@[simp] theorem State.setDie_seqTurn (s : State) (d : Nat) (x : Die) : (s.setDie d x).seqTurn = s.seqTurn := rfl
@[simp] theorem State.setDie_inRep (s : State) (d : Nat) (x : Die) : (s.setDie d x).inRep = s.inRep := rfl
@[simp] theorem State.setDie_agenda (s : State) (d : Nat) (x : Die) : (s.setDie d x).agenda = s.agenda := rfl
@[simp] theorem State.setDie_upsets (s : State) (d : Nat) (x : Die) : (s.setDie d x).upsets = s.upsets := rfl
@[simp] theorem State.setDie_suspects (s : State) (d : Nat) (x : Die) : (s.setDie d x).suspects = s.suspects := rfl

@[simp] theorem State.setDie_die (s : State) (d : Nat) (x : Die) (j : Nat) : (s.setDie d x).die j = if j = d then x else s.die j := by
  simp [State.setDie, State.die]

/-! Fields after `setLink`. -/

@[simp] theorem State.setLink_mem (s : State) (l : Nat) (x : Link) : (s.setLink l x).mem = s.mem := rfl
@[simp] theorem State.setLink_poison (s : State) (l : Nat) (x : Link) : (s.setLink l x).poison = s.poison := rfl
@[simp] theorem State.setLink_under (s : State) (l : Nat) (x : Link) : (s.setLink l x).under = s.under := rfl
@[simp] theorem State.setLink_tags (s : State) (l : Nat) (x : Link) : (s.setLink l x).tags = s.tags := rfl
@[simp] theorem State.setLink_copies (s : State) (l : Nat) (x : Link) : (s.setLink l x).copies = s.copies := rfl
@[simp] theorem State.setLink_pend (s : State) (l : Nat) (x : Link) : (s.setLink l x).pend = s.pend := rfl
@[simp] theorem State.setLink_reds (s : State) (l : Nat) (x : Link) : (s.setLink l x).reds = s.reds := rfl
@[simp] theorem State.setLink_wgs (s : State) (l : Nat) (x : Link) : (s.setLink l x).wgs = s.wgs := rfl
@[simp] theorem State.setLink_grids (s : State) (l : Nat) (x : Link) : (s.setLink l x).grids = s.grids := rfl
@[simp] theorem State.setLink_colls (s : State) (l : Nat) (x : Link) : (s.setLink l x).colls = s.colls := rfl
@[simp] theorem State.setLink_cores (s : State) (l : Nat) (x : Link) : (s.setLink l x).cores = s.cores := rfl
@[simp] theorem State.setLink_dies (s : State) (l : Nat) (x : Link) : (s.setLink l x).dies = s.dies := rfl
@[simp] theorem State.setLink_seqs (s : State) (l : Nat) (x : Link) : (s.setLink l x).seqs = s.seqs := rfl
@[simp] theorem State.setLink_queues (s : State) (l : Nat) (x : Link) : (s.setLink l x).queues = s.queues := rfl
@[simp] theorem State.setLink_acl (s : State) (l : Nat) (x : Link) : (s.setLink l x).acl = s.acl := rfl
@[simp] theorem State.setLink_resv (s : State) (l : Nat) (x : Link) : (s.setLink l x).resv = s.resv := rfl
@[simp] theorem State.setLink_mboxes (s : State) (l : Nat) (x : Link) : (s.setLink l x).mboxes = s.mboxes := rfl
@[simp] theorem State.setLink_eaves (s : State) (l : Nat) (x : Link) : (s.setLink l x).eaves = s.eaves := rfl
@[simp] theorem State.setLink_mgmt (s : State) (l : Nat) (x : Link) : (s.setLink l x).mgmt = s.mgmt := rfl
@[simp] theorem State.setLink_rules (s : State) (l : Nat) (x : Link) : (s.setLink l x).rules = s.rules := rfl
@[simp] theorem State.setLink_egress (s : State) (l : Nat) (x : Link) : (s.setLink l x).egress = s.egress := rfl
@[simp] theorem State.setLink_ownPeer (s : State) (l : Nat) (x : Link) : (s.setLink l x).ownPeer = s.ownPeer := rfl
@[simp] theorem State.setLink_routes (s : State) (l : Nat) (x : Link) : (s.setLink l x).routes = s.routes := rfl
@[simp] theorem State.setLink_windows (s : State) (l : Nat) (x : Link) : (s.setLink l x).windows = s.windows := rfl
@[simp] theorem State.setLink_tsrc (s : State) (l : Nat) (x : Link) : (s.setLink l x).tsrc = s.tsrc := rfl
@[simp] theorem State.setLink_ioTlb (s : State) (l : Nat) (x : Link) : (s.setLink l x).ioTlb = s.ioTlb := rfl
@[simp] theorem State.setLink_wfaults (s : State) (l : Nat) (x : Link) : (s.setLink l x).wfaults = s.wfaults := rfl
@[simp] theorem State.setLink_reqs (s : State) (l : Nat) (x : Link) : (s.setLink l x).reqs = s.reqs := rfl
@[simp] theorem State.setLink_backlog (s : State) (l : Nat) (x : Link) : (s.setLink l x).backlog = s.backlog := rfl
@[simp] theorem State.setLink_inb (s : State) (l : Nat) (x : Link) : (s.setLink l x).inb = s.inb := rfl
@[simp] theorem State.setLink_monitors (s : State) (l : Nat) (x : Link) : (s.setLink l x).monitors = s.monitors := rfl
@[simp] theorem State.setLink_lrs (s : State) (l : Nat) (x : Link) : (s.setLink l x).lrs = s.lrs := rfl
@[simp] theorem State.setLink_evMgmt (s : State) (l : Nat) (x : Link) : (s.setLink l x).evMgmt = s.evMgmt := rfl
@[simp] theorem State.setLink_evHost (s : State) (l : Nat) (x : Link) : (s.setLink l x).evHost = s.evHost := rfl
@[simp] theorem State.setLink_umhal (s : State) (l : Nat) (x : Link) : (s.setLink l x).umhal = s.umhal := rfl
@[simp] theorem State.setLink_fwInbox (s : State) (l : Nat) (x : Link) : (s.setLink l x).fwInbox = s.fwInbox := rfl
@[simp] theorem State.setLink_report (s : State) (l : Nat) (x : Link) : (s.setLink l x).report = s.report := rfl
@[simp] theorem State.setLink_txFrame (s : State) (l : Nat) (x : Link) : (s.setLink l x).txFrame = s.txFrame := rfl
@[simp] theorem State.setLink_txFlit (s : State) (l : Nat) (x : Link) : (s.setLink l x).txFlit = s.txFlit := rfl
@[simp] theorem State.setLink_frames (s : State) (l : Nat) (x : Link) : (s.setLink l x).frames = s.frames := rfl
@[simp] theorem State.setLink_images (s : State) (l : Nat) (x : Link) : (s.setLink l x).images = s.images := rfl
@[simp] theorem State.setLink_idKey (s : State) (l : Nat) (x : Link) : (s.setLink l x).idKey = s.idKey := rfl
@[simp] theorem State.setLink_held (s : State) (l : Nat) (x : Link) : (s.setLink l x).held = s.held := rfl
@[simp] theorem State.setLink_retry (s : State) (l : Nat) (x : Link) : (s.setLink l x).retry = s.retry := rfl
@[simp] theorem State.setLink_rollback (s : State) (l : Nat) (x : Link) : (s.setLink l x).rollback = s.rollback := rfl
@[simp] theorem State.setLink_retired (s : State) (l : Nat) (x : Link) : (s.setLink l x).retired = s.retired := rfl
@[simp] theorem State.setLink_watched (s : State) (l : Nat) (x : Link) : (s.setLink l x).watched = s.watched := rfl
@[simp] theorem State.setLink_bootStop (s : State) (l : Nat) (x : Link) : (s.setLink l x).bootStop = s.bootStop := rfl
@[simp] theorem State.setLink_fatal (s : State) (l : Nat) (x : Link) : (s.setLink l x).fatal = s.fatal := rfl
@[simp] theorem State.setLink_cycle (s : State) (l : Nat) (x : Link) : (s.setLink l x).cycle = s.cycle := rfl
@[simp] theorem State.setLink_dtime (s : State) (l : Nat) (x : Link) : (s.setLink l x).dtime = s.dtime := rfl
@[simp] theorem State.setLink_steps (s : State) (l : Nat) (x : Link) : (s.setLink l x).steps = s.steps := rfl
@[simp] theorem State.setLink_stamp (s : State) (l : Nat) (x : Link) : (s.setLink l x).stamp = s.stamp := rfl
@[simp] theorem State.setLink_nextUid (s : State) (l : Nat) (x : Link) : (s.setLink l x).nextUid = s.nextUid := rfl
@[simp] theorem State.setLink_nextGid (s : State) (l : Nat) (x : Link) : (s.setLink l x).nextGid = s.nextGid := rfl
@[simp] theorem State.setLink_turnQ (s : State) (l : Nat) (x : Link) : (s.setLink l x).turnQ = s.turnQ := rfl
@[simp] theorem State.setLink_turnL (s : State) (l : Nat) (x : Link) : (s.setLink l x).turnL = s.turnL := rfl
@[simp] theorem State.setLink_curWg (s : State) (l : Nat) (x : Link) : (s.setLink l x).curWg = s.curWg := rfl
@[simp] theorem State.setLink_curCrs (s : State) (l : Nat) (x : Link) : (s.setLink l x).curCrs = s.curCrs := rfl
@[simp] theorem State.setLink_curLink (s : State) (l : Nat) (x : Link) : (s.setLink l x).curLink = s.curLink := rfl
@[simp] theorem State.setLink_curCtx (s : State) (l : Nat) (x : Link) : (s.setLink l x).curCtx = s.curCtx := rfl
@[simp] theorem State.setLink_seqTurn (s : State) (l : Nat) (x : Link) : (s.setLink l x).seqTurn = s.seqTurn := rfl
@[simp] theorem State.setLink_inRep (s : State) (l : Nat) (x : Link) : (s.setLink l x).inRep = s.inRep := rfl
@[simp] theorem State.setLink_agenda (s : State) (l : Nat) (x : Link) : (s.setLink l x).agenda = s.agenda := rfl
@[simp] theorem State.setLink_upsets (s : State) (l : Nat) (x : Link) : (s.setLink l x).upsets = s.upsets := rfl
@[simp] theorem State.setLink_suspects (s : State) (l : Nat) (x : Link) : (s.setLink l x).suspects = s.suspects := rfl

@[simp] theorem State.setLink_link (s : State) (l : Nat) (x : Link) (j : Nat) : (s.setLink l x).link j = if j = l then x else s.link j := by
  simp [State.setLink, State.link]

/-! Fields after `setSeqr`. -/

@[simp] theorem State.setSeqr_mem (s : State) (l : Nat) (x : Seqr) : (s.setSeqr l x).mem = s.mem := rfl
@[simp] theorem State.setSeqr_poison (s : State) (l : Nat) (x : Seqr) : (s.setSeqr l x).poison = s.poison := rfl
@[simp] theorem State.setSeqr_under (s : State) (l : Nat) (x : Seqr) : (s.setSeqr l x).under = s.under := rfl
@[simp] theorem State.setSeqr_tags (s : State) (l : Nat) (x : Seqr) : (s.setSeqr l x).tags = s.tags := rfl
@[simp] theorem State.setSeqr_copies (s : State) (l : Nat) (x : Seqr) : (s.setSeqr l x).copies = s.copies := rfl
@[simp] theorem State.setSeqr_pend (s : State) (l : Nat) (x : Seqr) : (s.setSeqr l x).pend = s.pend := rfl
@[simp] theorem State.setSeqr_reds (s : State) (l : Nat) (x : Seqr) : (s.setSeqr l x).reds = s.reds := rfl
@[simp] theorem State.setSeqr_wgs (s : State) (l : Nat) (x : Seqr) : (s.setSeqr l x).wgs = s.wgs := rfl
@[simp] theorem State.setSeqr_grids (s : State) (l : Nat) (x : Seqr) : (s.setSeqr l x).grids = s.grids := rfl
@[simp] theorem State.setSeqr_colls (s : State) (l : Nat) (x : Seqr) : (s.setSeqr l x).colls = s.colls := rfl
@[simp] theorem State.setSeqr_cores (s : State) (l : Nat) (x : Seqr) : (s.setSeqr l x).cores = s.cores := rfl
@[simp] theorem State.setSeqr_dies (s : State) (l : Nat) (x : Seqr) : (s.setSeqr l x).dies = s.dies := rfl
@[simp] theorem State.setSeqr_links (s : State) (l : Nat) (x : Seqr) : (s.setSeqr l x).links = s.links := rfl
@[simp] theorem State.setSeqr_queues (s : State) (l : Nat) (x : Seqr) : (s.setSeqr l x).queues = s.queues := rfl
@[simp] theorem State.setSeqr_acl (s : State) (l : Nat) (x : Seqr) : (s.setSeqr l x).acl = s.acl := rfl
@[simp] theorem State.setSeqr_resv (s : State) (l : Nat) (x : Seqr) : (s.setSeqr l x).resv = s.resv := rfl
@[simp] theorem State.setSeqr_mboxes (s : State) (l : Nat) (x : Seqr) : (s.setSeqr l x).mboxes = s.mboxes := rfl
@[simp] theorem State.setSeqr_eaves (s : State) (l : Nat) (x : Seqr) : (s.setSeqr l x).eaves = s.eaves := rfl
@[simp] theorem State.setSeqr_mgmt (s : State) (l : Nat) (x : Seqr) : (s.setSeqr l x).mgmt = s.mgmt := rfl
@[simp] theorem State.setSeqr_rules (s : State) (l : Nat) (x : Seqr) : (s.setSeqr l x).rules = s.rules := rfl
@[simp] theorem State.setSeqr_egress (s : State) (l : Nat) (x : Seqr) : (s.setSeqr l x).egress = s.egress := rfl
@[simp] theorem State.setSeqr_ownPeer (s : State) (l : Nat) (x : Seqr) : (s.setSeqr l x).ownPeer = s.ownPeer := rfl
@[simp] theorem State.setSeqr_routes (s : State) (l : Nat) (x : Seqr) : (s.setSeqr l x).routes = s.routes := rfl
@[simp] theorem State.setSeqr_windows (s : State) (l : Nat) (x : Seqr) : (s.setSeqr l x).windows = s.windows := rfl
@[simp] theorem State.setSeqr_tsrc (s : State) (l : Nat) (x : Seqr) : (s.setSeqr l x).tsrc = s.tsrc := rfl
@[simp] theorem State.setSeqr_ioTlb (s : State) (l : Nat) (x : Seqr) : (s.setSeqr l x).ioTlb = s.ioTlb := rfl
@[simp] theorem State.setSeqr_wfaults (s : State) (l : Nat) (x : Seqr) : (s.setSeqr l x).wfaults = s.wfaults := rfl
@[simp] theorem State.setSeqr_reqs (s : State) (l : Nat) (x : Seqr) : (s.setSeqr l x).reqs = s.reqs := rfl
@[simp] theorem State.setSeqr_backlog (s : State) (l : Nat) (x : Seqr) : (s.setSeqr l x).backlog = s.backlog := rfl
@[simp] theorem State.setSeqr_inb (s : State) (l : Nat) (x : Seqr) : (s.setSeqr l x).inb = s.inb := rfl
@[simp] theorem State.setSeqr_monitors (s : State) (l : Nat) (x : Seqr) : (s.setSeqr l x).monitors = s.monitors := rfl
@[simp] theorem State.setSeqr_lrs (s : State) (l : Nat) (x : Seqr) : (s.setSeqr l x).lrs = s.lrs := rfl
@[simp] theorem State.setSeqr_evMgmt (s : State) (l : Nat) (x : Seqr) : (s.setSeqr l x).evMgmt = s.evMgmt := rfl
@[simp] theorem State.setSeqr_evHost (s : State) (l : Nat) (x : Seqr) : (s.setSeqr l x).evHost = s.evHost := rfl
@[simp] theorem State.setSeqr_umhal (s : State) (l : Nat) (x : Seqr) : (s.setSeqr l x).umhal = s.umhal := rfl
@[simp] theorem State.setSeqr_fwInbox (s : State) (l : Nat) (x : Seqr) : (s.setSeqr l x).fwInbox = s.fwInbox := rfl
@[simp] theorem State.setSeqr_report (s : State) (l : Nat) (x : Seqr) : (s.setSeqr l x).report = s.report := rfl
@[simp] theorem State.setSeqr_txFrame (s : State) (l : Nat) (x : Seqr) : (s.setSeqr l x).txFrame = s.txFrame := rfl
@[simp] theorem State.setSeqr_txFlit (s : State) (l : Nat) (x : Seqr) : (s.setSeqr l x).txFlit = s.txFlit := rfl
@[simp] theorem State.setSeqr_frames (s : State) (l : Nat) (x : Seqr) : (s.setSeqr l x).frames = s.frames := rfl
@[simp] theorem State.setSeqr_images (s : State) (l : Nat) (x : Seqr) : (s.setSeqr l x).images = s.images := rfl
@[simp] theorem State.setSeqr_idKey (s : State) (l : Nat) (x : Seqr) : (s.setSeqr l x).idKey = s.idKey := rfl
@[simp] theorem State.setSeqr_held (s : State) (l : Nat) (x : Seqr) : (s.setSeqr l x).held = s.held := rfl
@[simp] theorem State.setSeqr_retry (s : State) (l : Nat) (x : Seqr) : (s.setSeqr l x).retry = s.retry := rfl
@[simp] theorem State.setSeqr_rollback (s : State) (l : Nat) (x : Seqr) : (s.setSeqr l x).rollback = s.rollback := rfl
@[simp] theorem State.setSeqr_retired (s : State) (l : Nat) (x : Seqr) : (s.setSeqr l x).retired = s.retired := rfl
@[simp] theorem State.setSeqr_watched (s : State) (l : Nat) (x : Seqr) : (s.setSeqr l x).watched = s.watched := rfl
@[simp] theorem State.setSeqr_bootStop (s : State) (l : Nat) (x : Seqr) : (s.setSeqr l x).bootStop = s.bootStop := rfl
@[simp] theorem State.setSeqr_fatal (s : State) (l : Nat) (x : Seqr) : (s.setSeqr l x).fatal = s.fatal := rfl
@[simp] theorem State.setSeqr_cycle (s : State) (l : Nat) (x : Seqr) : (s.setSeqr l x).cycle = s.cycle := rfl
@[simp] theorem State.setSeqr_dtime (s : State) (l : Nat) (x : Seqr) : (s.setSeqr l x).dtime = s.dtime := rfl
@[simp] theorem State.setSeqr_steps (s : State) (l : Nat) (x : Seqr) : (s.setSeqr l x).steps = s.steps := rfl
@[simp] theorem State.setSeqr_stamp (s : State) (l : Nat) (x : Seqr) : (s.setSeqr l x).stamp = s.stamp := rfl
@[simp] theorem State.setSeqr_nextUid (s : State) (l : Nat) (x : Seqr) : (s.setSeqr l x).nextUid = s.nextUid := rfl
@[simp] theorem State.setSeqr_nextGid (s : State) (l : Nat) (x : Seqr) : (s.setSeqr l x).nextGid = s.nextGid := rfl
@[simp] theorem State.setSeqr_turnQ (s : State) (l : Nat) (x : Seqr) : (s.setSeqr l x).turnQ = s.turnQ := rfl
@[simp] theorem State.setSeqr_turnL (s : State) (l : Nat) (x : Seqr) : (s.setSeqr l x).turnL = s.turnL := rfl
@[simp] theorem State.setSeqr_curWg (s : State) (l : Nat) (x : Seqr) : (s.setSeqr l x).curWg = s.curWg := rfl
@[simp] theorem State.setSeqr_curCrs (s : State) (l : Nat) (x : Seqr) : (s.setSeqr l x).curCrs = s.curCrs := rfl
@[simp] theorem State.setSeqr_curLink (s : State) (l : Nat) (x : Seqr) : (s.setSeqr l x).curLink = s.curLink := rfl
@[simp] theorem State.setSeqr_curCtx (s : State) (l : Nat) (x : Seqr) : (s.setSeqr l x).curCtx = s.curCtx := rfl
@[simp] theorem State.setSeqr_seqTurn (s : State) (l : Nat) (x : Seqr) : (s.setSeqr l x).seqTurn = s.seqTurn := rfl
@[simp] theorem State.setSeqr_inRep (s : State) (l : Nat) (x : Seqr) : (s.setSeqr l x).inRep = s.inRep := rfl
@[simp] theorem State.setSeqr_agenda (s : State) (l : Nat) (x : Seqr) : (s.setSeqr l x).agenda = s.agenda := rfl
@[simp] theorem State.setSeqr_upsets (s : State) (l : Nat) (x : Seqr) : (s.setSeqr l x).upsets = s.upsets := rfl
@[simp] theorem State.setSeqr_suspects (s : State) (l : Nat) (x : Seqr) : (s.setSeqr l x).suspects = s.suspects := rfl

@[simp] theorem State.setSeqr_seqr (s : State) (l : Nat) (x : Seqr) (j : Nat) : (s.setSeqr l x).seqr j = if j = l then x else s.seqr j := by
  simp [State.setSeqr, State.seqr]

/-! Fields after `setQueue`. -/

@[simp] theorem State.setQueue_mem (s : State) (q : Nat) (x : Queue) : (s.setQueue q x).mem = s.mem := rfl
@[simp] theorem State.setQueue_poison (s : State) (q : Nat) (x : Queue) : (s.setQueue q x).poison = s.poison := rfl
@[simp] theorem State.setQueue_under (s : State) (q : Nat) (x : Queue) : (s.setQueue q x).under = s.under := rfl
@[simp] theorem State.setQueue_tags (s : State) (q : Nat) (x : Queue) : (s.setQueue q x).tags = s.tags := rfl
@[simp] theorem State.setQueue_copies (s : State) (q : Nat) (x : Queue) : (s.setQueue q x).copies = s.copies := rfl
@[simp] theorem State.setQueue_pend (s : State) (q : Nat) (x : Queue) : (s.setQueue q x).pend = s.pend := rfl
@[simp] theorem State.setQueue_reds (s : State) (q : Nat) (x : Queue) : (s.setQueue q x).reds = s.reds := rfl
@[simp] theorem State.setQueue_wgs (s : State) (q : Nat) (x : Queue) : (s.setQueue q x).wgs = s.wgs := rfl
@[simp] theorem State.setQueue_grids (s : State) (q : Nat) (x : Queue) : (s.setQueue q x).grids = s.grids := rfl
@[simp] theorem State.setQueue_colls (s : State) (q : Nat) (x : Queue) : (s.setQueue q x).colls = s.colls := rfl
@[simp] theorem State.setQueue_cores (s : State) (q : Nat) (x : Queue) : (s.setQueue q x).cores = s.cores := rfl
@[simp] theorem State.setQueue_dies (s : State) (q : Nat) (x : Queue) : (s.setQueue q x).dies = s.dies := rfl
@[simp] theorem State.setQueue_links (s : State) (q : Nat) (x : Queue) : (s.setQueue q x).links = s.links := rfl
@[simp] theorem State.setQueue_seqs (s : State) (q : Nat) (x : Queue) : (s.setQueue q x).seqs = s.seqs := rfl
@[simp] theorem State.setQueue_acl (s : State) (q : Nat) (x : Queue) : (s.setQueue q x).acl = s.acl := rfl
@[simp] theorem State.setQueue_resv (s : State) (q : Nat) (x : Queue) : (s.setQueue q x).resv = s.resv := rfl
@[simp] theorem State.setQueue_mboxes (s : State) (q : Nat) (x : Queue) : (s.setQueue q x).mboxes = s.mboxes := rfl
@[simp] theorem State.setQueue_eaves (s : State) (q : Nat) (x : Queue) : (s.setQueue q x).eaves = s.eaves := rfl
@[simp] theorem State.setQueue_mgmt (s : State) (q : Nat) (x : Queue) : (s.setQueue q x).mgmt = s.mgmt := rfl
@[simp] theorem State.setQueue_rules (s : State) (q : Nat) (x : Queue) : (s.setQueue q x).rules = s.rules := rfl
@[simp] theorem State.setQueue_egress (s : State) (q : Nat) (x : Queue) : (s.setQueue q x).egress = s.egress := rfl
@[simp] theorem State.setQueue_ownPeer (s : State) (q : Nat) (x : Queue) : (s.setQueue q x).ownPeer = s.ownPeer := rfl
@[simp] theorem State.setQueue_routes (s : State) (q : Nat) (x : Queue) : (s.setQueue q x).routes = s.routes := rfl
@[simp] theorem State.setQueue_windows (s : State) (q : Nat) (x : Queue) : (s.setQueue q x).windows = s.windows := rfl
@[simp] theorem State.setQueue_tsrc (s : State) (q : Nat) (x : Queue) : (s.setQueue q x).tsrc = s.tsrc := rfl
@[simp] theorem State.setQueue_ioTlb (s : State) (q : Nat) (x : Queue) : (s.setQueue q x).ioTlb = s.ioTlb := rfl
@[simp] theorem State.setQueue_wfaults (s : State) (q : Nat) (x : Queue) : (s.setQueue q x).wfaults = s.wfaults := rfl
@[simp] theorem State.setQueue_reqs (s : State) (q : Nat) (x : Queue) : (s.setQueue q x).reqs = s.reqs := rfl
@[simp] theorem State.setQueue_backlog (s : State) (q : Nat) (x : Queue) : (s.setQueue q x).backlog = s.backlog := rfl
@[simp] theorem State.setQueue_inb (s : State) (q : Nat) (x : Queue) : (s.setQueue q x).inb = s.inb := rfl
@[simp] theorem State.setQueue_monitors (s : State) (q : Nat) (x : Queue) : (s.setQueue q x).monitors = s.monitors := rfl
@[simp] theorem State.setQueue_lrs (s : State) (q : Nat) (x : Queue) : (s.setQueue q x).lrs = s.lrs := rfl
@[simp] theorem State.setQueue_evMgmt (s : State) (q : Nat) (x : Queue) : (s.setQueue q x).evMgmt = s.evMgmt := rfl
@[simp] theorem State.setQueue_evHost (s : State) (q : Nat) (x : Queue) : (s.setQueue q x).evHost = s.evHost := rfl
@[simp] theorem State.setQueue_umhal (s : State) (q : Nat) (x : Queue) : (s.setQueue q x).umhal = s.umhal := rfl
@[simp] theorem State.setQueue_fwInbox (s : State) (q : Nat) (x : Queue) : (s.setQueue q x).fwInbox = s.fwInbox := rfl
@[simp] theorem State.setQueue_report (s : State) (q : Nat) (x : Queue) : (s.setQueue q x).report = s.report := rfl
@[simp] theorem State.setQueue_txFrame (s : State) (q : Nat) (x : Queue) : (s.setQueue q x).txFrame = s.txFrame := rfl
@[simp] theorem State.setQueue_txFlit (s : State) (q : Nat) (x : Queue) : (s.setQueue q x).txFlit = s.txFlit := rfl
@[simp] theorem State.setQueue_frames (s : State) (q : Nat) (x : Queue) : (s.setQueue q x).frames = s.frames := rfl
@[simp] theorem State.setQueue_images (s : State) (q : Nat) (x : Queue) : (s.setQueue q x).images = s.images := rfl
@[simp] theorem State.setQueue_idKey (s : State) (q : Nat) (x : Queue) : (s.setQueue q x).idKey = s.idKey := rfl
@[simp] theorem State.setQueue_held (s : State) (q : Nat) (x : Queue) : (s.setQueue q x).held = s.held := rfl
@[simp] theorem State.setQueue_retry (s : State) (q : Nat) (x : Queue) : (s.setQueue q x).retry = s.retry := rfl
@[simp] theorem State.setQueue_rollback (s : State) (q : Nat) (x : Queue) : (s.setQueue q x).rollback = s.rollback := rfl
@[simp] theorem State.setQueue_retired (s : State) (q : Nat) (x : Queue) : (s.setQueue q x).retired = s.retired := rfl
@[simp] theorem State.setQueue_watched (s : State) (q : Nat) (x : Queue) : (s.setQueue q x).watched = s.watched := rfl
@[simp] theorem State.setQueue_bootStop (s : State) (q : Nat) (x : Queue) : (s.setQueue q x).bootStop = s.bootStop := rfl
@[simp] theorem State.setQueue_fatal (s : State) (q : Nat) (x : Queue) : (s.setQueue q x).fatal = s.fatal := rfl
@[simp] theorem State.setQueue_cycle (s : State) (q : Nat) (x : Queue) : (s.setQueue q x).cycle = s.cycle := rfl
@[simp] theorem State.setQueue_dtime (s : State) (q : Nat) (x : Queue) : (s.setQueue q x).dtime = s.dtime := rfl
@[simp] theorem State.setQueue_steps (s : State) (q : Nat) (x : Queue) : (s.setQueue q x).steps = s.steps := rfl
@[simp] theorem State.setQueue_stamp (s : State) (q : Nat) (x : Queue) : (s.setQueue q x).stamp = s.stamp := rfl
@[simp] theorem State.setQueue_nextUid (s : State) (q : Nat) (x : Queue) : (s.setQueue q x).nextUid = s.nextUid := rfl
@[simp] theorem State.setQueue_nextGid (s : State) (q : Nat) (x : Queue) : (s.setQueue q x).nextGid = s.nextGid := rfl
@[simp] theorem State.setQueue_turnQ (s : State) (q : Nat) (x : Queue) : (s.setQueue q x).turnQ = s.turnQ := rfl
@[simp] theorem State.setQueue_turnL (s : State) (q : Nat) (x : Queue) : (s.setQueue q x).turnL = s.turnL := rfl
@[simp] theorem State.setQueue_curWg (s : State) (q : Nat) (x : Queue) : (s.setQueue q x).curWg = s.curWg := rfl
@[simp] theorem State.setQueue_curCrs (s : State) (q : Nat) (x : Queue) : (s.setQueue q x).curCrs = s.curCrs := rfl
@[simp] theorem State.setQueue_curLink (s : State) (q : Nat) (x : Queue) : (s.setQueue q x).curLink = s.curLink := rfl
@[simp] theorem State.setQueue_curCtx (s : State) (q : Nat) (x : Queue) : (s.setQueue q x).curCtx = s.curCtx := rfl
@[simp] theorem State.setQueue_seqTurn (s : State) (q : Nat) (x : Queue) : (s.setQueue q x).seqTurn = s.seqTurn := rfl
@[simp] theorem State.setQueue_inRep (s : State) (q : Nat) (x : Queue) : (s.setQueue q x).inRep = s.inRep := rfl
@[simp] theorem State.setQueue_agenda (s : State) (q : Nat) (x : Queue) : (s.setQueue q x).agenda = s.agenda := rfl
@[simp] theorem State.setQueue_upsets (s : State) (q : Nat) (x : Queue) : (s.setQueue q x).upsets = s.upsets := rfl
@[simp] theorem State.setQueue_suspects (s : State) (q : Nat) (x : Queue) : (s.setQueue q x).suspects = s.suspects := rfl

@[simp] theorem State.setQueue_queue (s : State) (q : Nat) (x : Queue) (j : Nat) : (s.setQueue q x).queue j = if j = q then x else s.queue j := by
  simp [State.setQueue, State.queue]

/-! Fields after `setMbox`. -/

@[simp] theorem State.setMbox_mem (s : State) (m : Nat) (x : Mbox) : (s.setMbox m x).mem = s.mem := rfl
@[simp] theorem State.setMbox_poison (s : State) (m : Nat) (x : Mbox) : (s.setMbox m x).poison = s.poison := rfl
@[simp] theorem State.setMbox_under (s : State) (m : Nat) (x : Mbox) : (s.setMbox m x).under = s.under := rfl
@[simp] theorem State.setMbox_tags (s : State) (m : Nat) (x : Mbox) : (s.setMbox m x).tags = s.tags := rfl
@[simp] theorem State.setMbox_copies (s : State) (m : Nat) (x : Mbox) : (s.setMbox m x).copies = s.copies := rfl
@[simp] theorem State.setMbox_pend (s : State) (m : Nat) (x : Mbox) : (s.setMbox m x).pend = s.pend := rfl
@[simp] theorem State.setMbox_reds (s : State) (m : Nat) (x : Mbox) : (s.setMbox m x).reds = s.reds := rfl
@[simp] theorem State.setMbox_wgs (s : State) (m : Nat) (x : Mbox) : (s.setMbox m x).wgs = s.wgs := rfl
@[simp] theorem State.setMbox_grids (s : State) (m : Nat) (x : Mbox) : (s.setMbox m x).grids = s.grids := rfl
@[simp] theorem State.setMbox_colls (s : State) (m : Nat) (x : Mbox) : (s.setMbox m x).colls = s.colls := rfl
@[simp] theorem State.setMbox_cores (s : State) (m : Nat) (x : Mbox) : (s.setMbox m x).cores = s.cores := rfl
@[simp] theorem State.setMbox_dies (s : State) (m : Nat) (x : Mbox) : (s.setMbox m x).dies = s.dies := rfl
@[simp] theorem State.setMbox_links (s : State) (m : Nat) (x : Mbox) : (s.setMbox m x).links = s.links := rfl
@[simp] theorem State.setMbox_seqs (s : State) (m : Nat) (x : Mbox) : (s.setMbox m x).seqs = s.seqs := rfl
@[simp] theorem State.setMbox_queues (s : State) (m : Nat) (x : Mbox) : (s.setMbox m x).queues = s.queues := rfl
@[simp] theorem State.setMbox_acl (s : State) (m : Nat) (x : Mbox) : (s.setMbox m x).acl = s.acl := rfl
@[simp] theorem State.setMbox_resv (s : State) (m : Nat) (x : Mbox) : (s.setMbox m x).resv = s.resv := rfl
@[simp] theorem State.setMbox_eaves (s : State) (m : Nat) (x : Mbox) : (s.setMbox m x).eaves = s.eaves := rfl
@[simp] theorem State.setMbox_mgmt (s : State) (m : Nat) (x : Mbox) : (s.setMbox m x).mgmt = s.mgmt := rfl
@[simp] theorem State.setMbox_rules (s : State) (m : Nat) (x : Mbox) : (s.setMbox m x).rules = s.rules := rfl
@[simp] theorem State.setMbox_egress (s : State) (m : Nat) (x : Mbox) : (s.setMbox m x).egress = s.egress := rfl
@[simp] theorem State.setMbox_ownPeer (s : State) (m : Nat) (x : Mbox) : (s.setMbox m x).ownPeer = s.ownPeer := rfl
@[simp] theorem State.setMbox_routes (s : State) (m : Nat) (x : Mbox) : (s.setMbox m x).routes = s.routes := rfl
@[simp] theorem State.setMbox_windows (s : State) (m : Nat) (x : Mbox) : (s.setMbox m x).windows = s.windows := rfl
@[simp] theorem State.setMbox_tsrc (s : State) (m : Nat) (x : Mbox) : (s.setMbox m x).tsrc = s.tsrc := rfl
@[simp] theorem State.setMbox_ioTlb (s : State) (m : Nat) (x : Mbox) : (s.setMbox m x).ioTlb = s.ioTlb := rfl
@[simp] theorem State.setMbox_wfaults (s : State) (m : Nat) (x : Mbox) : (s.setMbox m x).wfaults = s.wfaults := rfl
@[simp] theorem State.setMbox_reqs (s : State) (m : Nat) (x : Mbox) : (s.setMbox m x).reqs = s.reqs := rfl
@[simp] theorem State.setMbox_backlog (s : State) (m : Nat) (x : Mbox) : (s.setMbox m x).backlog = s.backlog := rfl
@[simp] theorem State.setMbox_inb (s : State) (m : Nat) (x : Mbox) : (s.setMbox m x).inb = s.inb := rfl
@[simp] theorem State.setMbox_monitors (s : State) (m : Nat) (x : Mbox) : (s.setMbox m x).monitors = s.monitors := rfl
@[simp] theorem State.setMbox_lrs (s : State) (m : Nat) (x : Mbox) : (s.setMbox m x).lrs = s.lrs := rfl
@[simp] theorem State.setMbox_evMgmt (s : State) (m : Nat) (x : Mbox) : (s.setMbox m x).evMgmt = s.evMgmt := rfl
@[simp] theorem State.setMbox_evHost (s : State) (m : Nat) (x : Mbox) : (s.setMbox m x).evHost = s.evHost := rfl
@[simp] theorem State.setMbox_umhal (s : State) (m : Nat) (x : Mbox) : (s.setMbox m x).umhal = s.umhal := rfl
@[simp] theorem State.setMbox_fwInbox (s : State) (m : Nat) (x : Mbox) : (s.setMbox m x).fwInbox = s.fwInbox := rfl
@[simp] theorem State.setMbox_report (s : State) (m : Nat) (x : Mbox) : (s.setMbox m x).report = s.report := rfl
@[simp] theorem State.setMbox_txFrame (s : State) (m : Nat) (x : Mbox) : (s.setMbox m x).txFrame = s.txFrame := rfl
@[simp] theorem State.setMbox_txFlit (s : State) (m : Nat) (x : Mbox) : (s.setMbox m x).txFlit = s.txFlit := rfl
@[simp] theorem State.setMbox_frames (s : State) (m : Nat) (x : Mbox) : (s.setMbox m x).frames = s.frames := rfl
@[simp] theorem State.setMbox_images (s : State) (m : Nat) (x : Mbox) : (s.setMbox m x).images = s.images := rfl
@[simp] theorem State.setMbox_idKey (s : State) (m : Nat) (x : Mbox) : (s.setMbox m x).idKey = s.idKey := rfl
@[simp] theorem State.setMbox_held (s : State) (m : Nat) (x : Mbox) : (s.setMbox m x).held = s.held := rfl
@[simp] theorem State.setMbox_retry (s : State) (m : Nat) (x : Mbox) : (s.setMbox m x).retry = s.retry := rfl
@[simp] theorem State.setMbox_rollback (s : State) (m : Nat) (x : Mbox) : (s.setMbox m x).rollback = s.rollback := rfl
@[simp] theorem State.setMbox_retired (s : State) (m : Nat) (x : Mbox) : (s.setMbox m x).retired = s.retired := rfl
@[simp] theorem State.setMbox_watched (s : State) (m : Nat) (x : Mbox) : (s.setMbox m x).watched = s.watched := rfl
@[simp] theorem State.setMbox_bootStop (s : State) (m : Nat) (x : Mbox) : (s.setMbox m x).bootStop = s.bootStop := rfl
@[simp] theorem State.setMbox_fatal (s : State) (m : Nat) (x : Mbox) : (s.setMbox m x).fatal = s.fatal := rfl
@[simp] theorem State.setMbox_cycle (s : State) (m : Nat) (x : Mbox) : (s.setMbox m x).cycle = s.cycle := rfl
@[simp] theorem State.setMbox_dtime (s : State) (m : Nat) (x : Mbox) : (s.setMbox m x).dtime = s.dtime := rfl
@[simp] theorem State.setMbox_steps (s : State) (m : Nat) (x : Mbox) : (s.setMbox m x).steps = s.steps := rfl
@[simp] theorem State.setMbox_stamp (s : State) (m : Nat) (x : Mbox) : (s.setMbox m x).stamp = s.stamp := rfl
@[simp] theorem State.setMbox_nextUid (s : State) (m : Nat) (x : Mbox) : (s.setMbox m x).nextUid = s.nextUid := rfl
@[simp] theorem State.setMbox_nextGid (s : State) (m : Nat) (x : Mbox) : (s.setMbox m x).nextGid = s.nextGid := rfl
@[simp] theorem State.setMbox_turnQ (s : State) (m : Nat) (x : Mbox) : (s.setMbox m x).turnQ = s.turnQ := rfl
@[simp] theorem State.setMbox_turnL (s : State) (m : Nat) (x : Mbox) : (s.setMbox m x).turnL = s.turnL := rfl
@[simp] theorem State.setMbox_curWg (s : State) (m : Nat) (x : Mbox) : (s.setMbox m x).curWg = s.curWg := rfl
@[simp] theorem State.setMbox_curCrs (s : State) (m : Nat) (x : Mbox) : (s.setMbox m x).curCrs = s.curCrs := rfl
@[simp] theorem State.setMbox_curLink (s : State) (m : Nat) (x : Mbox) : (s.setMbox m x).curLink = s.curLink := rfl
@[simp] theorem State.setMbox_curCtx (s : State) (m : Nat) (x : Mbox) : (s.setMbox m x).curCtx = s.curCtx := rfl
@[simp] theorem State.setMbox_seqTurn (s : State) (m : Nat) (x : Mbox) : (s.setMbox m x).seqTurn = s.seqTurn := rfl
@[simp] theorem State.setMbox_inRep (s : State) (m : Nat) (x : Mbox) : (s.setMbox m x).inRep = s.inRep := rfl
@[simp] theorem State.setMbox_agenda (s : State) (m : Nat) (x : Mbox) : (s.setMbox m x).agenda = s.agenda := rfl
@[simp] theorem State.setMbox_upsets (s : State) (m : Nat) (x : Mbox) : (s.setMbox m x).upsets = s.upsets := rfl
@[simp] theorem State.setMbox_suspects (s : State) (m : Nat) (x : Mbox) : (s.setMbox m x).suspects = s.suspects := rfl

@[simp] theorem State.setMbox_mbox (s : State) (m : Nat) (x : Mbox) (j : Nat) : (s.setMbox m x).mbox j = if j = m then x else s.mbox j := by
  simp [State.setMbox, State.mbox]

/-! Fields after `setEave`. -/

@[simp] theorem State.setEave_mem (s : State) (k : Nat) (x : Eave) : (s.setEave k x).mem = s.mem := rfl
@[simp] theorem State.setEave_poison (s : State) (k : Nat) (x : Eave) : (s.setEave k x).poison = s.poison := rfl
@[simp] theorem State.setEave_under (s : State) (k : Nat) (x : Eave) : (s.setEave k x).under = s.under := rfl
@[simp] theorem State.setEave_tags (s : State) (k : Nat) (x : Eave) : (s.setEave k x).tags = s.tags := rfl
@[simp] theorem State.setEave_copies (s : State) (k : Nat) (x : Eave) : (s.setEave k x).copies = s.copies := rfl
@[simp] theorem State.setEave_pend (s : State) (k : Nat) (x : Eave) : (s.setEave k x).pend = s.pend := rfl
@[simp] theorem State.setEave_reds (s : State) (k : Nat) (x : Eave) : (s.setEave k x).reds = s.reds := rfl
@[simp] theorem State.setEave_wgs (s : State) (k : Nat) (x : Eave) : (s.setEave k x).wgs = s.wgs := rfl
@[simp] theorem State.setEave_grids (s : State) (k : Nat) (x : Eave) : (s.setEave k x).grids = s.grids := rfl
@[simp] theorem State.setEave_colls (s : State) (k : Nat) (x : Eave) : (s.setEave k x).colls = s.colls := rfl
@[simp] theorem State.setEave_cores (s : State) (k : Nat) (x : Eave) : (s.setEave k x).cores = s.cores := rfl
@[simp] theorem State.setEave_dies (s : State) (k : Nat) (x : Eave) : (s.setEave k x).dies = s.dies := rfl
@[simp] theorem State.setEave_links (s : State) (k : Nat) (x : Eave) : (s.setEave k x).links = s.links := rfl
@[simp] theorem State.setEave_seqs (s : State) (k : Nat) (x : Eave) : (s.setEave k x).seqs = s.seqs := rfl
@[simp] theorem State.setEave_queues (s : State) (k : Nat) (x : Eave) : (s.setEave k x).queues = s.queues := rfl
@[simp] theorem State.setEave_acl (s : State) (k : Nat) (x : Eave) : (s.setEave k x).acl = s.acl := rfl
@[simp] theorem State.setEave_resv (s : State) (k : Nat) (x : Eave) : (s.setEave k x).resv = s.resv := rfl
@[simp] theorem State.setEave_mboxes (s : State) (k : Nat) (x : Eave) : (s.setEave k x).mboxes = s.mboxes := rfl
@[simp] theorem State.setEave_mgmt (s : State) (k : Nat) (x : Eave) : (s.setEave k x).mgmt = s.mgmt := rfl
@[simp] theorem State.setEave_rules (s : State) (k : Nat) (x : Eave) : (s.setEave k x).rules = s.rules := rfl
@[simp] theorem State.setEave_egress (s : State) (k : Nat) (x : Eave) : (s.setEave k x).egress = s.egress := rfl
@[simp] theorem State.setEave_ownPeer (s : State) (k : Nat) (x : Eave) : (s.setEave k x).ownPeer = s.ownPeer := rfl
@[simp] theorem State.setEave_routes (s : State) (k : Nat) (x : Eave) : (s.setEave k x).routes = s.routes := rfl
@[simp] theorem State.setEave_windows (s : State) (k : Nat) (x : Eave) : (s.setEave k x).windows = s.windows := rfl
@[simp] theorem State.setEave_tsrc (s : State) (k : Nat) (x : Eave) : (s.setEave k x).tsrc = s.tsrc := rfl
@[simp] theorem State.setEave_ioTlb (s : State) (k : Nat) (x : Eave) : (s.setEave k x).ioTlb = s.ioTlb := rfl
@[simp] theorem State.setEave_wfaults (s : State) (k : Nat) (x : Eave) : (s.setEave k x).wfaults = s.wfaults := rfl
@[simp] theorem State.setEave_reqs (s : State) (k : Nat) (x : Eave) : (s.setEave k x).reqs = s.reqs := rfl
@[simp] theorem State.setEave_backlog (s : State) (k : Nat) (x : Eave) : (s.setEave k x).backlog = s.backlog := rfl
@[simp] theorem State.setEave_inb (s : State) (k : Nat) (x : Eave) : (s.setEave k x).inb = s.inb := rfl
@[simp] theorem State.setEave_monitors (s : State) (k : Nat) (x : Eave) : (s.setEave k x).monitors = s.monitors := rfl
@[simp] theorem State.setEave_lrs (s : State) (k : Nat) (x : Eave) : (s.setEave k x).lrs = s.lrs := rfl
@[simp] theorem State.setEave_evMgmt (s : State) (k : Nat) (x : Eave) : (s.setEave k x).evMgmt = s.evMgmt := rfl
@[simp] theorem State.setEave_evHost (s : State) (k : Nat) (x : Eave) : (s.setEave k x).evHost = s.evHost := rfl
@[simp] theorem State.setEave_umhal (s : State) (k : Nat) (x : Eave) : (s.setEave k x).umhal = s.umhal := rfl
@[simp] theorem State.setEave_fwInbox (s : State) (k : Nat) (x : Eave) : (s.setEave k x).fwInbox = s.fwInbox := rfl
@[simp] theorem State.setEave_report (s : State) (k : Nat) (x : Eave) : (s.setEave k x).report = s.report := rfl
@[simp] theorem State.setEave_txFrame (s : State) (k : Nat) (x : Eave) : (s.setEave k x).txFrame = s.txFrame := rfl
@[simp] theorem State.setEave_txFlit (s : State) (k : Nat) (x : Eave) : (s.setEave k x).txFlit = s.txFlit := rfl
@[simp] theorem State.setEave_frames (s : State) (k : Nat) (x : Eave) : (s.setEave k x).frames = s.frames := rfl
@[simp] theorem State.setEave_images (s : State) (k : Nat) (x : Eave) : (s.setEave k x).images = s.images := rfl
@[simp] theorem State.setEave_idKey (s : State) (k : Nat) (x : Eave) : (s.setEave k x).idKey = s.idKey := rfl
@[simp] theorem State.setEave_held (s : State) (k : Nat) (x : Eave) : (s.setEave k x).held = s.held := rfl
@[simp] theorem State.setEave_retry (s : State) (k : Nat) (x : Eave) : (s.setEave k x).retry = s.retry := rfl
@[simp] theorem State.setEave_rollback (s : State) (k : Nat) (x : Eave) : (s.setEave k x).rollback = s.rollback := rfl
@[simp] theorem State.setEave_retired (s : State) (k : Nat) (x : Eave) : (s.setEave k x).retired = s.retired := rfl
@[simp] theorem State.setEave_watched (s : State) (k : Nat) (x : Eave) : (s.setEave k x).watched = s.watched := rfl
@[simp] theorem State.setEave_bootStop (s : State) (k : Nat) (x : Eave) : (s.setEave k x).bootStop = s.bootStop := rfl
@[simp] theorem State.setEave_fatal (s : State) (k : Nat) (x : Eave) : (s.setEave k x).fatal = s.fatal := rfl
@[simp] theorem State.setEave_cycle (s : State) (k : Nat) (x : Eave) : (s.setEave k x).cycle = s.cycle := rfl
@[simp] theorem State.setEave_dtime (s : State) (k : Nat) (x : Eave) : (s.setEave k x).dtime = s.dtime := rfl
@[simp] theorem State.setEave_steps (s : State) (k : Nat) (x : Eave) : (s.setEave k x).steps = s.steps := rfl
@[simp] theorem State.setEave_stamp (s : State) (k : Nat) (x : Eave) : (s.setEave k x).stamp = s.stamp := rfl
@[simp] theorem State.setEave_nextUid (s : State) (k : Nat) (x : Eave) : (s.setEave k x).nextUid = s.nextUid := rfl
@[simp] theorem State.setEave_nextGid (s : State) (k : Nat) (x : Eave) : (s.setEave k x).nextGid = s.nextGid := rfl
@[simp] theorem State.setEave_turnQ (s : State) (k : Nat) (x : Eave) : (s.setEave k x).turnQ = s.turnQ := rfl
@[simp] theorem State.setEave_turnL (s : State) (k : Nat) (x : Eave) : (s.setEave k x).turnL = s.turnL := rfl
@[simp] theorem State.setEave_curWg (s : State) (k : Nat) (x : Eave) : (s.setEave k x).curWg = s.curWg := rfl
@[simp] theorem State.setEave_curCrs (s : State) (k : Nat) (x : Eave) : (s.setEave k x).curCrs = s.curCrs := rfl
@[simp] theorem State.setEave_curLink (s : State) (k : Nat) (x : Eave) : (s.setEave k x).curLink = s.curLink := rfl
@[simp] theorem State.setEave_curCtx (s : State) (k : Nat) (x : Eave) : (s.setEave k x).curCtx = s.curCtx := rfl
@[simp] theorem State.setEave_seqTurn (s : State) (k : Nat) (x : Eave) : (s.setEave k x).seqTurn = s.seqTurn := rfl
@[simp] theorem State.setEave_inRep (s : State) (k : Nat) (x : Eave) : (s.setEave k x).inRep = s.inRep := rfl
@[simp] theorem State.setEave_agenda (s : State) (k : Nat) (x : Eave) : (s.setEave k x).agenda = s.agenda := rfl
@[simp] theorem State.setEave_upsets (s : State) (k : Nat) (x : Eave) : (s.setEave k x).upsets = s.upsets := rfl
@[simp] theorem State.setEave_suspects (s : State) (k : Nat) (x : Eave) : (s.setEave k x).suspects = s.suspects := rfl

@[simp] theorem State.setEave_eave (s : State) (k : Nat) (x : Eave) (j : Nat) : (s.setEave k x).eave j = if j = k then x else s.eave j := by
  simp [State.setEave, State.eave]

/-! Fields after `setCrs`. -/

@[simp] theorem State.setCrs_mem (s : State) (u c : Nat) (k : Course) : (s.setCrs u c k).mem = s.mem := rfl
@[simp] theorem State.setCrs_poison (s : State) (u c : Nat) (k : Course) : (s.setCrs u c k).poison = s.poison := rfl
@[simp] theorem State.setCrs_under (s : State) (u c : Nat) (k : Course) : (s.setCrs u c k).under = s.under := rfl
@[simp] theorem State.setCrs_tags (s : State) (u c : Nat) (k : Course) : (s.setCrs u c k).tags = s.tags := rfl
@[simp] theorem State.setCrs_copies (s : State) (u c : Nat) (k : Course) : (s.setCrs u c k).copies = s.copies := rfl
@[simp] theorem State.setCrs_pend (s : State) (u c : Nat) (k : Course) : (s.setCrs u c k).pend = s.pend := rfl
@[simp] theorem State.setCrs_reds (s : State) (u c : Nat) (k : Course) : (s.setCrs u c k).reds = s.reds := rfl
@[simp] theorem State.setCrs_grids (s : State) (u c : Nat) (k : Course) : (s.setCrs u c k).grids = s.grids := rfl
@[simp] theorem State.setCrs_colls (s : State) (u c : Nat) (k : Course) : (s.setCrs u c k).colls = s.colls := rfl
@[simp] theorem State.setCrs_cores (s : State) (u c : Nat) (k : Course) : (s.setCrs u c k).cores = s.cores := rfl
@[simp] theorem State.setCrs_dies (s : State) (u c : Nat) (k : Course) : (s.setCrs u c k).dies = s.dies := rfl
@[simp] theorem State.setCrs_links (s : State) (u c : Nat) (k : Course) : (s.setCrs u c k).links = s.links := rfl
@[simp] theorem State.setCrs_seqs (s : State) (u c : Nat) (k : Course) : (s.setCrs u c k).seqs = s.seqs := rfl
@[simp] theorem State.setCrs_queues (s : State) (u c : Nat) (k : Course) : (s.setCrs u c k).queues = s.queues := rfl
@[simp] theorem State.setCrs_acl (s : State) (u c : Nat) (k : Course) : (s.setCrs u c k).acl = s.acl := rfl
@[simp] theorem State.setCrs_resv (s : State) (u c : Nat) (k : Course) : (s.setCrs u c k).resv = s.resv := rfl
@[simp] theorem State.setCrs_mboxes (s : State) (u c : Nat) (k : Course) : (s.setCrs u c k).mboxes = s.mboxes := rfl
@[simp] theorem State.setCrs_eaves (s : State) (u c : Nat) (k : Course) : (s.setCrs u c k).eaves = s.eaves := rfl
@[simp] theorem State.setCrs_mgmt (s : State) (u c : Nat) (k : Course) : (s.setCrs u c k).mgmt = s.mgmt := rfl
@[simp] theorem State.setCrs_rules (s : State) (u c : Nat) (k : Course) : (s.setCrs u c k).rules = s.rules := rfl
@[simp] theorem State.setCrs_egress (s : State) (u c : Nat) (k : Course) : (s.setCrs u c k).egress = s.egress := rfl
@[simp] theorem State.setCrs_ownPeer (s : State) (u c : Nat) (k : Course) : (s.setCrs u c k).ownPeer = s.ownPeer := rfl
@[simp] theorem State.setCrs_routes (s : State) (u c : Nat) (k : Course) : (s.setCrs u c k).routes = s.routes := rfl
@[simp] theorem State.setCrs_windows (s : State) (u c : Nat) (k : Course) : (s.setCrs u c k).windows = s.windows := rfl
@[simp] theorem State.setCrs_tsrc (s : State) (u c : Nat) (k : Course) : (s.setCrs u c k).tsrc = s.tsrc := rfl
@[simp] theorem State.setCrs_ioTlb (s : State) (u c : Nat) (k : Course) : (s.setCrs u c k).ioTlb = s.ioTlb := rfl
@[simp] theorem State.setCrs_wfaults (s : State) (u c : Nat) (k : Course) : (s.setCrs u c k).wfaults = s.wfaults := rfl
@[simp] theorem State.setCrs_reqs (s : State) (u c : Nat) (k : Course) : (s.setCrs u c k).reqs = s.reqs := rfl
@[simp] theorem State.setCrs_backlog (s : State) (u c : Nat) (k : Course) : (s.setCrs u c k).backlog = s.backlog := rfl
@[simp] theorem State.setCrs_inb (s : State) (u c : Nat) (k : Course) : (s.setCrs u c k).inb = s.inb := rfl
@[simp] theorem State.setCrs_monitors (s : State) (u c : Nat) (k : Course) : (s.setCrs u c k).monitors = s.monitors := rfl
@[simp] theorem State.setCrs_lrs (s : State) (u c : Nat) (k : Course) : (s.setCrs u c k).lrs = s.lrs := rfl
@[simp] theorem State.setCrs_evMgmt (s : State) (u c : Nat) (k : Course) : (s.setCrs u c k).evMgmt = s.evMgmt := rfl
@[simp] theorem State.setCrs_evHost (s : State) (u c : Nat) (k : Course) : (s.setCrs u c k).evHost = s.evHost := rfl
@[simp] theorem State.setCrs_umhal (s : State) (u c : Nat) (k : Course) : (s.setCrs u c k).umhal = s.umhal := rfl
@[simp] theorem State.setCrs_fwInbox (s : State) (u c : Nat) (k : Course) : (s.setCrs u c k).fwInbox = s.fwInbox := rfl
@[simp] theorem State.setCrs_report (s : State) (u c : Nat) (k : Course) : (s.setCrs u c k).report = s.report := rfl
@[simp] theorem State.setCrs_txFrame (s : State) (u c : Nat) (k : Course) : (s.setCrs u c k).txFrame = s.txFrame := rfl
@[simp] theorem State.setCrs_txFlit (s : State) (u c : Nat) (k : Course) : (s.setCrs u c k).txFlit = s.txFlit := rfl
@[simp] theorem State.setCrs_frames (s : State) (u c : Nat) (k : Course) : (s.setCrs u c k).frames = s.frames := rfl
@[simp] theorem State.setCrs_images (s : State) (u c : Nat) (k : Course) : (s.setCrs u c k).images = s.images := rfl
@[simp] theorem State.setCrs_idKey (s : State) (u c : Nat) (k : Course) : (s.setCrs u c k).idKey = s.idKey := rfl
@[simp] theorem State.setCrs_held (s : State) (u c : Nat) (k : Course) : (s.setCrs u c k).held = s.held := rfl
@[simp] theorem State.setCrs_retry (s : State) (u c : Nat) (k : Course) : (s.setCrs u c k).retry = s.retry := rfl
@[simp] theorem State.setCrs_rollback (s : State) (u c : Nat) (k : Course) : (s.setCrs u c k).rollback = s.rollback := rfl
@[simp] theorem State.setCrs_retired (s : State) (u c : Nat) (k : Course) : (s.setCrs u c k).retired = s.retired := rfl
@[simp] theorem State.setCrs_watched (s : State) (u c : Nat) (k : Course) : (s.setCrs u c k).watched = s.watched := rfl
@[simp] theorem State.setCrs_bootStop (s : State) (u c : Nat) (k : Course) : (s.setCrs u c k).bootStop = s.bootStop := rfl
@[simp] theorem State.setCrs_fatal (s : State) (u c : Nat) (k : Course) : (s.setCrs u c k).fatal = s.fatal := rfl
@[simp] theorem State.setCrs_cycle (s : State) (u c : Nat) (k : Course) : (s.setCrs u c k).cycle = s.cycle := rfl
@[simp] theorem State.setCrs_dtime (s : State) (u c : Nat) (k : Course) : (s.setCrs u c k).dtime = s.dtime := rfl
@[simp] theorem State.setCrs_steps (s : State) (u c : Nat) (k : Course) : (s.setCrs u c k).steps = s.steps := rfl
@[simp] theorem State.setCrs_stamp (s : State) (u c : Nat) (k : Course) : (s.setCrs u c k).stamp = s.stamp := rfl
@[simp] theorem State.setCrs_nextUid (s : State) (u c : Nat) (k : Course) : (s.setCrs u c k).nextUid = s.nextUid := rfl
@[simp] theorem State.setCrs_nextGid (s : State) (u c : Nat) (k : Course) : (s.setCrs u c k).nextGid = s.nextGid := rfl
@[simp] theorem State.setCrs_turnQ (s : State) (u c : Nat) (k : Course) : (s.setCrs u c k).turnQ = s.turnQ := rfl
@[simp] theorem State.setCrs_turnL (s : State) (u c : Nat) (k : Course) : (s.setCrs u c k).turnL = s.turnL := rfl
@[simp] theorem State.setCrs_curWg (s : State) (u c : Nat) (k : Course) : (s.setCrs u c k).curWg = s.curWg := rfl
@[simp] theorem State.setCrs_curCrs (s : State) (u c : Nat) (k : Course) : (s.setCrs u c k).curCrs = s.curCrs := rfl
@[simp] theorem State.setCrs_curLink (s : State) (u c : Nat) (k : Course) : (s.setCrs u c k).curLink = s.curLink := rfl
@[simp] theorem State.setCrs_curCtx (s : State) (u c : Nat) (k : Course) : (s.setCrs u c k).curCtx = s.curCtx := rfl
@[simp] theorem State.setCrs_seqTurn (s : State) (u c : Nat) (k : Course) : (s.setCrs u c k).seqTurn = s.seqTurn := rfl
@[simp] theorem State.setCrs_inRep (s : State) (u c : Nat) (k : Course) : (s.setCrs u c k).inRep = s.inRep := rfl
@[simp] theorem State.setCrs_agenda (s : State) (u c : Nat) (k : Course) : (s.setCrs u c k).agenda = s.agenda := rfl
@[simp] theorem State.setCrs_upsets (s : State) (u c : Nat) (k : Course) : (s.setCrs u c k).upsets = s.upsets := rfl
@[simp] theorem State.setCrs_suspects (s : State) (u c : Nat) (k : Course) : (s.setCrs u c k).suspects = s.suspects := rfl

/-! Fields after `setCur`. -/

@[simp] theorem State.setCur_mem (s : State) (k : Course) : (s.setCur k).mem = s.mem := rfl
@[simp] theorem State.setCur_poison (s : State) (k : Course) : (s.setCur k).poison = s.poison := rfl
@[simp] theorem State.setCur_under (s : State) (k : Course) : (s.setCur k).under = s.under := rfl
@[simp] theorem State.setCur_tags (s : State) (k : Course) : (s.setCur k).tags = s.tags := rfl
@[simp] theorem State.setCur_copies (s : State) (k : Course) : (s.setCur k).copies = s.copies := rfl
@[simp] theorem State.setCur_pend (s : State) (k : Course) : (s.setCur k).pend = s.pend := rfl
@[simp] theorem State.setCur_reds (s : State) (k : Course) : (s.setCur k).reds = s.reds := rfl
@[simp] theorem State.setCur_grids (s : State) (k : Course) : (s.setCur k).grids = s.grids := rfl
@[simp] theorem State.setCur_colls (s : State) (k : Course) : (s.setCur k).colls = s.colls := rfl
@[simp] theorem State.setCur_cores (s : State) (k : Course) : (s.setCur k).cores = s.cores := rfl
@[simp] theorem State.setCur_dies (s : State) (k : Course) : (s.setCur k).dies = s.dies := rfl
@[simp] theorem State.setCur_links (s : State) (k : Course) : (s.setCur k).links = s.links := rfl
@[simp] theorem State.setCur_seqs (s : State) (k : Course) : (s.setCur k).seqs = s.seqs := rfl
@[simp] theorem State.setCur_queues (s : State) (k : Course) : (s.setCur k).queues = s.queues := rfl
@[simp] theorem State.setCur_acl (s : State) (k : Course) : (s.setCur k).acl = s.acl := rfl
@[simp] theorem State.setCur_resv (s : State) (k : Course) : (s.setCur k).resv = s.resv := rfl
@[simp] theorem State.setCur_mboxes (s : State) (k : Course) : (s.setCur k).mboxes = s.mboxes := rfl
@[simp] theorem State.setCur_eaves (s : State) (k : Course) : (s.setCur k).eaves = s.eaves := rfl
@[simp] theorem State.setCur_mgmt (s : State) (k : Course) : (s.setCur k).mgmt = s.mgmt := rfl
@[simp] theorem State.setCur_rules (s : State) (k : Course) : (s.setCur k).rules = s.rules := rfl
@[simp] theorem State.setCur_egress (s : State) (k : Course) : (s.setCur k).egress = s.egress := rfl
@[simp] theorem State.setCur_ownPeer (s : State) (k : Course) : (s.setCur k).ownPeer = s.ownPeer := rfl
@[simp] theorem State.setCur_routes (s : State) (k : Course) : (s.setCur k).routes = s.routes := rfl
@[simp] theorem State.setCur_windows (s : State) (k : Course) : (s.setCur k).windows = s.windows := rfl
@[simp] theorem State.setCur_tsrc (s : State) (k : Course) : (s.setCur k).tsrc = s.tsrc := rfl
@[simp] theorem State.setCur_ioTlb (s : State) (k : Course) : (s.setCur k).ioTlb = s.ioTlb := rfl
@[simp] theorem State.setCur_wfaults (s : State) (k : Course) : (s.setCur k).wfaults = s.wfaults := rfl
@[simp] theorem State.setCur_reqs (s : State) (k : Course) : (s.setCur k).reqs = s.reqs := rfl
@[simp] theorem State.setCur_backlog (s : State) (k : Course) : (s.setCur k).backlog = s.backlog := rfl
@[simp] theorem State.setCur_inb (s : State) (k : Course) : (s.setCur k).inb = s.inb := rfl
@[simp] theorem State.setCur_monitors (s : State) (k : Course) : (s.setCur k).monitors = s.monitors := rfl
@[simp] theorem State.setCur_lrs (s : State) (k : Course) : (s.setCur k).lrs = s.lrs := rfl
@[simp] theorem State.setCur_evMgmt (s : State) (k : Course) : (s.setCur k).evMgmt = s.evMgmt := rfl
@[simp] theorem State.setCur_evHost (s : State) (k : Course) : (s.setCur k).evHost = s.evHost := rfl
@[simp] theorem State.setCur_umhal (s : State) (k : Course) : (s.setCur k).umhal = s.umhal := rfl
@[simp] theorem State.setCur_fwInbox (s : State) (k : Course) : (s.setCur k).fwInbox = s.fwInbox := rfl
@[simp] theorem State.setCur_report (s : State) (k : Course) : (s.setCur k).report = s.report := rfl
@[simp] theorem State.setCur_txFrame (s : State) (k : Course) : (s.setCur k).txFrame = s.txFrame := rfl
@[simp] theorem State.setCur_txFlit (s : State) (k : Course) : (s.setCur k).txFlit = s.txFlit := rfl
@[simp] theorem State.setCur_frames (s : State) (k : Course) : (s.setCur k).frames = s.frames := rfl
@[simp] theorem State.setCur_images (s : State) (k : Course) : (s.setCur k).images = s.images := rfl
@[simp] theorem State.setCur_idKey (s : State) (k : Course) : (s.setCur k).idKey = s.idKey := rfl
@[simp] theorem State.setCur_held (s : State) (k : Course) : (s.setCur k).held = s.held := rfl
@[simp] theorem State.setCur_retry (s : State) (k : Course) : (s.setCur k).retry = s.retry := rfl
@[simp] theorem State.setCur_rollback (s : State) (k : Course) : (s.setCur k).rollback = s.rollback := rfl
@[simp] theorem State.setCur_retired (s : State) (k : Course) : (s.setCur k).retired = s.retired := rfl
@[simp] theorem State.setCur_watched (s : State) (k : Course) : (s.setCur k).watched = s.watched := rfl
@[simp] theorem State.setCur_bootStop (s : State) (k : Course) : (s.setCur k).bootStop = s.bootStop := rfl
@[simp] theorem State.setCur_fatal (s : State) (k : Course) : (s.setCur k).fatal = s.fatal := rfl
@[simp] theorem State.setCur_cycle (s : State) (k : Course) : (s.setCur k).cycle = s.cycle := rfl
@[simp] theorem State.setCur_dtime (s : State) (k : Course) : (s.setCur k).dtime = s.dtime := rfl
@[simp] theorem State.setCur_steps (s : State) (k : Course) : (s.setCur k).steps = s.steps := rfl
@[simp] theorem State.setCur_stamp (s : State) (k : Course) : (s.setCur k).stamp = s.stamp := rfl
@[simp] theorem State.setCur_nextUid (s : State) (k : Course) : (s.setCur k).nextUid = s.nextUid := rfl
@[simp] theorem State.setCur_nextGid (s : State) (k : Course) : (s.setCur k).nextGid = s.nextGid := rfl
@[simp] theorem State.setCur_turnQ (s : State) (k : Course) : (s.setCur k).turnQ = s.turnQ := rfl
@[simp] theorem State.setCur_turnL (s : State) (k : Course) : (s.setCur k).turnL = s.turnL := rfl
@[simp] theorem State.setCur_curWg (s : State) (k : Course) : (s.setCur k).curWg = s.curWg := rfl
@[simp] theorem State.setCur_curCrs (s : State) (k : Course) : (s.setCur k).curCrs = s.curCrs := rfl
@[simp] theorem State.setCur_curLink (s : State) (k : Course) : (s.setCur k).curLink = s.curLink := rfl
@[simp] theorem State.setCur_curCtx (s : State) (k : Course) : (s.setCur k).curCtx = s.curCtx := rfl
@[simp] theorem State.setCur_seqTurn (s : State) (k : Course) : (s.setCur k).seqTurn = s.seqTurn := rfl
@[simp] theorem State.setCur_inRep (s : State) (k : Course) : (s.setCur k).inRep = s.inRep := rfl
@[simp] theorem State.setCur_agenda (s : State) (k : Course) : (s.setCur k).agenda = s.agenda := rfl
@[simp] theorem State.setCur_upsets (s : State) (k : Course) : (s.setCur k).upsets = s.upsets := rfl
@[simp] theorem State.setCur_suspects (s : State) (k : Course) : (s.setCur k).suspects = s.suspects := rfl

/-! Fields after `setCurW`. -/

@[simp] theorem State.setCurW_mem (s : State) (w : Workgroup) : (s.setCurW w).mem = s.mem := rfl
@[simp] theorem State.setCurW_poison (s : State) (w : Workgroup) : (s.setCurW w).poison = s.poison := rfl
@[simp] theorem State.setCurW_under (s : State) (w : Workgroup) : (s.setCurW w).under = s.under := rfl
@[simp] theorem State.setCurW_tags (s : State) (w : Workgroup) : (s.setCurW w).tags = s.tags := rfl
@[simp] theorem State.setCurW_copies (s : State) (w : Workgroup) : (s.setCurW w).copies = s.copies := rfl
@[simp] theorem State.setCurW_pend (s : State) (w : Workgroup) : (s.setCurW w).pend = s.pend := rfl
@[simp] theorem State.setCurW_reds (s : State) (w : Workgroup) : (s.setCurW w).reds = s.reds := rfl
@[simp] theorem State.setCurW_grids (s : State) (w : Workgroup) : (s.setCurW w).grids = s.grids := rfl
@[simp] theorem State.setCurW_colls (s : State) (w : Workgroup) : (s.setCurW w).colls = s.colls := rfl
@[simp] theorem State.setCurW_cores (s : State) (w : Workgroup) : (s.setCurW w).cores = s.cores := rfl
@[simp] theorem State.setCurW_dies (s : State) (w : Workgroup) : (s.setCurW w).dies = s.dies := rfl
@[simp] theorem State.setCurW_links (s : State) (w : Workgroup) : (s.setCurW w).links = s.links := rfl
@[simp] theorem State.setCurW_seqs (s : State) (w : Workgroup) : (s.setCurW w).seqs = s.seqs := rfl
@[simp] theorem State.setCurW_queues (s : State) (w : Workgroup) : (s.setCurW w).queues = s.queues := rfl
@[simp] theorem State.setCurW_acl (s : State) (w : Workgroup) : (s.setCurW w).acl = s.acl := rfl
@[simp] theorem State.setCurW_resv (s : State) (w : Workgroup) : (s.setCurW w).resv = s.resv := rfl
@[simp] theorem State.setCurW_mboxes (s : State) (w : Workgroup) : (s.setCurW w).mboxes = s.mboxes := rfl
@[simp] theorem State.setCurW_eaves (s : State) (w : Workgroup) : (s.setCurW w).eaves = s.eaves := rfl
@[simp] theorem State.setCurW_mgmt (s : State) (w : Workgroup) : (s.setCurW w).mgmt = s.mgmt := rfl
@[simp] theorem State.setCurW_rules (s : State) (w : Workgroup) : (s.setCurW w).rules = s.rules := rfl
@[simp] theorem State.setCurW_egress (s : State) (w : Workgroup) : (s.setCurW w).egress = s.egress := rfl
@[simp] theorem State.setCurW_ownPeer (s : State) (w : Workgroup) : (s.setCurW w).ownPeer = s.ownPeer := rfl
@[simp] theorem State.setCurW_routes (s : State) (w : Workgroup) : (s.setCurW w).routes = s.routes := rfl
@[simp] theorem State.setCurW_windows (s : State) (w : Workgroup) : (s.setCurW w).windows = s.windows := rfl
@[simp] theorem State.setCurW_tsrc (s : State) (w : Workgroup) : (s.setCurW w).tsrc = s.tsrc := rfl
@[simp] theorem State.setCurW_ioTlb (s : State) (w : Workgroup) : (s.setCurW w).ioTlb = s.ioTlb := rfl
@[simp] theorem State.setCurW_wfaults (s : State) (w : Workgroup) : (s.setCurW w).wfaults = s.wfaults := rfl
@[simp] theorem State.setCurW_reqs (s : State) (w : Workgroup) : (s.setCurW w).reqs = s.reqs := rfl
@[simp] theorem State.setCurW_backlog (s : State) (w : Workgroup) : (s.setCurW w).backlog = s.backlog := rfl
@[simp] theorem State.setCurW_inb (s : State) (w : Workgroup) : (s.setCurW w).inb = s.inb := rfl
@[simp] theorem State.setCurW_monitors (s : State) (w : Workgroup) : (s.setCurW w).monitors = s.monitors := rfl
@[simp] theorem State.setCurW_lrs (s : State) (w : Workgroup) : (s.setCurW w).lrs = s.lrs := rfl
@[simp] theorem State.setCurW_evMgmt (s : State) (w : Workgroup) : (s.setCurW w).evMgmt = s.evMgmt := rfl
@[simp] theorem State.setCurW_evHost (s : State) (w : Workgroup) : (s.setCurW w).evHost = s.evHost := rfl
@[simp] theorem State.setCurW_umhal (s : State) (w : Workgroup) : (s.setCurW w).umhal = s.umhal := rfl
@[simp] theorem State.setCurW_fwInbox (s : State) (w : Workgroup) : (s.setCurW w).fwInbox = s.fwInbox := rfl
@[simp] theorem State.setCurW_report (s : State) (w : Workgroup) : (s.setCurW w).report = s.report := rfl
@[simp] theorem State.setCurW_txFrame (s : State) (w : Workgroup) : (s.setCurW w).txFrame = s.txFrame := rfl
@[simp] theorem State.setCurW_txFlit (s : State) (w : Workgroup) : (s.setCurW w).txFlit = s.txFlit := rfl
@[simp] theorem State.setCurW_frames (s : State) (w : Workgroup) : (s.setCurW w).frames = s.frames := rfl
@[simp] theorem State.setCurW_images (s : State) (w : Workgroup) : (s.setCurW w).images = s.images := rfl
@[simp] theorem State.setCurW_idKey (s : State) (w : Workgroup) : (s.setCurW w).idKey = s.idKey := rfl
@[simp] theorem State.setCurW_held (s : State) (w : Workgroup) : (s.setCurW w).held = s.held := rfl
@[simp] theorem State.setCurW_retry (s : State) (w : Workgroup) : (s.setCurW w).retry = s.retry := rfl
@[simp] theorem State.setCurW_rollback (s : State) (w : Workgroup) : (s.setCurW w).rollback = s.rollback := rfl
@[simp] theorem State.setCurW_retired (s : State) (w : Workgroup) : (s.setCurW w).retired = s.retired := rfl
@[simp] theorem State.setCurW_watched (s : State) (w : Workgroup) : (s.setCurW w).watched = s.watched := rfl
@[simp] theorem State.setCurW_bootStop (s : State) (w : Workgroup) : (s.setCurW w).bootStop = s.bootStop := rfl
@[simp] theorem State.setCurW_fatal (s : State) (w : Workgroup) : (s.setCurW w).fatal = s.fatal := rfl
@[simp] theorem State.setCurW_cycle (s : State) (w : Workgroup) : (s.setCurW w).cycle = s.cycle := rfl
@[simp] theorem State.setCurW_dtime (s : State) (w : Workgroup) : (s.setCurW w).dtime = s.dtime := rfl
@[simp] theorem State.setCurW_steps (s : State) (w : Workgroup) : (s.setCurW w).steps = s.steps := rfl
@[simp] theorem State.setCurW_stamp (s : State) (w : Workgroup) : (s.setCurW w).stamp = s.stamp := rfl
@[simp] theorem State.setCurW_nextUid (s : State) (w : Workgroup) : (s.setCurW w).nextUid = s.nextUid := rfl
@[simp] theorem State.setCurW_nextGid (s : State) (w : Workgroup) : (s.setCurW w).nextGid = s.nextGid := rfl
@[simp] theorem State.setCurW_turnQ (s : State) (w : Workgroup) : (s.setCurW w).turnQ = s.turnQ := rfl
@[simp] theorem State.setCurW_turnL (s : State) (w : Workgroup) : (s.setCurW w).turnL = s.turnL := rfl
@[simp] theorem State.setCurW_curWg (s : State) (w : Workgroup) : (s.setCurW w).curWg = s.curWg := rfl
@[simp] theorem State.setCurW_curCrs (s : State) (w : Workgroup) : (s.setCurW w).curCrs = s.curCrs := rfl
@[simp] theorem State.setCurW_curLink (s : State) (w : Workgroup) : (s.setCurW w).curLink = s.curLink := rfl
@[simp] theorem State.setCurW_curCtx (s : State) (w : Workgroup) : (s.setCurW w).curCtx = s.curCtx := rfl
@[simp] theorem State.setCurW_seqTurn (s : State) (w : Workgroup) : (s.setCurW w).seqTurn = s.seqTurn := rfl
@[simp] theorem State.setCurW_inRep (s : State) (w : Workgroup) : (s.setCurW w).inRep = s.inRep := rfl
@[simp] theorem State.setCurW_agenda (s : State) (w : Workgroup) : (s.setCurW w).agenda = s.agenda := rfl
@[simp] theorem State.setCurW_upsets (s : State) (w : Workgroup) : (s.setCurW w).upsets = s.upsets := rfl
@[simp] theorem State.setCurW_suspects (s : State) (w : Workgroup) : (s.setCurW w).suspects = s.suspects := rfl

/-! Fields after `setCtx`. -/

@[simp] theorem State.setCtx_mem (s : State) (x : Ctx) : (s.setCtx x).mem = s.mem := rfl
@[simp] theorem State.setCtx_poison (s : State) (x : Ctx) : (s.setCtx x).poison = s.poison := rfl
@[simp] theorem State.setCtx_under (s : State) (x : Ctx) : (s.setCtx x).under = s.under := rfl
@[simp] theorem State.setCtx_tags (s : State) (x : Ctx) : (s.setCtx x).tags = s.tags := rfl
@[simp] theorem State.setCtx_copies (s : State) (x : Ctx) : (s.setCtx x).copies = s.copies := rfl
@[simp] theorem State.setCtx_pend (s : State) (x : Ctx) : (s.setCtx x).pend = s.pend := rfl
@[simp] theorem State.setCtx_reds (s : State) (x : Ctx) : (s.setCtx x).reds = s.reds := rfl
@[simp] theorem State.setCtx_wgs (s : State) (x : Ctx) : (s.setCtx x).wgs = s.wgs := rfl
@[simp] theorem State.setCtx_grids (s : State) (x : Ctx) : (s.setCtx x).grids = s.grids := rfl
@[simp] theorem State.setCtx_colls (s : State) (x : Ctx) : (s.setCtx x).colls = s.colls := rfl
@[simp] theorem State.setCtx_cores (s : State) (x : Ctx) : (s.setCtx x).cores = s.cores := rfl
@[simp] theorem State.setCtx_dies (s : State) (x : Ctx) : (s.setCtx x).dies = s.dies := rfl
@[simp] theorem State.setCtx_links (s : State) (x : Ctx) : (s.setCtx x).links = s.links := rfl
@[simp] theorem State.setCtx_queues (s : State) (x : Ctx) : (s.setCtx x).queues = s.queues := rfl
@[simp] theorem State.setCtx_acl (s : State) (x : Ctx) : (s.setCtx x).acl = s.acl := rfl
@[simp] theorem State.setCtx_resv (s : State) (x : Ctx) : (s.setCtx x).resv = s.resv := rfl
@[simp] theorem State.setCtx_mboxes (s : State) (x : Ctx) : (s.setCtx x).mboxes = s.mboxes := rfl
@[simp] theorem State.setCtx_eaves (s : State) (x : Ctx) : (s.setCtx x).eaves = s.eaves := rfl
@[simp] theorem State.setCtx_mgmt (s : State) (x : Ctx) : (s.setCtx x).mgmt = s.mgmt := rfl
@[simp] theorem State.setCtx_rules (s : State) (x : Ctx) : (s.setCtx x).rules = s.rules := rfl
@[simp] theorem State.setCtx_egress (s : State) (x : Ctx) : (s.setCtx x).egress = s.egress := rfl
@[simp] theorem State.setCtx_ownPeer (s : State) (x : Ctx) : (s.setCtx x).ownPeer = s.ownPeer := rfl
@[simp] theorem State.setCtx_routes (s : State) (x : Ctx) : (s.setCtx x).routes = s.routes := rfl
@[simp] theorem State.setCtx_windows (s : State) (x : Ctx) : (s.setCtx x).windows = s.windows := rfl
@[simp] theorem State.setCtx_tsrc (s : State) (x : Ctx) : (s.setCtx x).tsrc = s.tsrc := rfl
@[simp] theorem State.setCtx_ioTlb (s : State) (x : Ctx) : (s.setCtx x).ioTlb = s.ioTlb := rfl
@[simp] theorem State.setCtx_wfaults (s : State) (x : Ctx) : (s.setCtx x).wfaults = s.wfaults := rfl
@[simp] theorem State.setCtx_reqs (s : State) (x : Ctx) : (s.setCtx x).reqs = s.reqs := rfl
@[simp] theorem State.setCtx_backlog (s : State) (x : Ctx) : (s.setCtx x).backlog = s.backlog := rfl
@[simp] theorem State.setCtx_inb (s : State) (x : Ctx) : (s.setCtx x).inb = s.inb := rfl
@[simp] theorem State.setCtx_monitors (s : State) (x : Ctx) : (s.setCtx x).monitors = s.monitors := rfl
@[simp] theorem State.setCtx_lrs (s : State) (x : Ctx) : (s.setCtx x).lrs = s.lrs := rfl
@[simp] theorem State.setCtx_evMgmt (s : State) (x : Ctx) : (s.setCtx x).evMgmt = s.evMgmt := rfl
@[simp] theorem State.setCtx_evHost (s : State) (x : Ctx) : (s.setCtx x).evHost = s.evHost := rfl
@[simp] theorem State.setCtx_umhal (s : State) (x : Ctx) : (s.setCtx x).umhal = s.umhal := rfl
@[simp] theorem State.setCtx_fwInbox (s : State) (x : Ctx) : (s.setCtx x).fwInbox = s.fwInbox := rfl
@[simp] theorem State.setCtx_report (s : State) (x : Ctx) : (s.setCtx x).report = s.report := rfl
@[simp] theorem State.setCtx_txFrame (s : State) (x : Ctx) : (s.setCtx x).txFrame = s.txFrame := rfl
@[simp] theorem State.setCtx_txFlit (s : State) (x : Ctx) : (s.setCtx x).txFlit = s.txFlit := rfl
@[simp] theorem State.setCtx_frames (s : State) (x : Ctx) : (s.setCtx x).frames = s.frames := rfl
@[simp] theorem State.setCtx_images (s : State) (x : Ctx) : (s.setCtx x).images = s.images := rfl
@[simp] theorem State.setCtx_idKey (s : State) (x : Ctx) : (s.setCtx x).idKey = s.idKey := rfl
@[simp] theorem State.setCtx_held (s : State) (x : Ctx) : (s.setCtx x).held = s.held := rfl
@[simp] theorem State.setCtx_retry (s : State) (x : Ctx) : (s.setCtx x).retry = s.retry := rfl
@[simp] theorem State.setCtx_rollback (s : State) (x : Ctx) : (s.setCtx x).rollback = s.rollback := rfl
@[simp] theorem State.setCtx_retired (s : State) (x : Ctx) : (s.setCtx x).retired = s.retired := rfl
@[simp] theorem State.setCtx_watched (s : State) (x : Ctx) : (s.setCtx x).watched = s.watched := rfl
@[simp] theorem State.setCtx_bootStop (s : State) (x : Ctx) : (s.setCtx x).bootStop = s.bootStop := rfl
@[simp] theorem State.setCtx_fatal (s : State) (x : Ctx) : (s.setCtx x).fatal = s.fatal := rfl
@[simp] theorem State.setCtx_cycle (s : State) (x : Ctx) : (s.setCtx x).cycle = s.cycle := rfl
@[simp] theorem State.setCtx_dtime (s : State) (x : Ctx) : (s.setCtx x).dtime = s.dtime := rfl
@[simp] theorem State.setCtx_steps (s : State) (x : Ctx) : (s.setCtx x).steps = s.steps := rfl
@[simp] theorem State.setCtx_stamp (s : State) (x : Ctx) : (s.setCtx x).stamp = s.stamp := rfl
@[simp] theorem State.setCtx_nextUid (s : State) (x : Ctx) : (s.setCtx x).nextUid = s.nextUid := rfl
@[simp] theorem State.setCtx_nextGid (s : State) (x : Ctx) : (s.setCtx x).nextGid = s.nextGid := rfl
@[simp] theorem State.setCtx_turnQ (s : State) (x : Ctx) : (s.setCtx x).turnQ = s.turnQ := rfl
@[simp] theorem State.setCtx_turnL (s : State) (x : Ctx) : (s.setCtx x).turnL = s.turnL := rfl
@[simp] theorem State.setCtx_curWg (s : State) (x : Ctx) : (s.setCtx x).curWg = s.curWg := rfl
@[simp] theorem State.setCtx_curCrs (s : State) (x : Ctx) : (s.setCtx x).curCrs = s.curCrs := rfl
@[simp] theorem State.setCtx_curLink (s : State) (x : Ctx) : (s.setCtx x).curLink = s.curLink := rfl
@[simp] theorem State.setCtx_curCtx (s : State) (x : Ctx) : (s.setCtx x).curCtx = s.curCtx := rfl
@[simp] theorem State.setCtx_seqTurn (s : State) (x : Ctx) : (s.setCtx x).seqTurn = s.seqTurn := rfl
@[simp] theorem State.setCtx_inRep (s : State) (x : Ctx) : (s.setCtx x).inRep = s.inRep := rfl
@[simp] theorem State.setCtx_agenda (s : State) (x : Ctx) : (s.setCtx x).agenda = s.agenda := rfl
@[simp] theorem State.setCtx_upsets (s : State) (x : Ctx) : (s.setCtx x).upsets = s.upsets := rfl
@[simp] theorem State.setCtx_suspects (s : State) (x : Ctx) : (s.setCtx x).suspects = s.suspects := rfl

/-! Fields after `fresh`. -/

@[simp] theorem State.fresh_mem (s : State) : (s.fresh).mem = s.mem := rfl
@[simp] theorem State.fresh_poison (s : State) : (s.fresh).poison = s.poison := rfl
@[simp] theorem State.fresh_under (s : State) : (s.fresh).under = s.under := rfl
@[simp] theorem State.fresh_tags (s : State) : (s.fresh).tags = s.tags := rfl
@[simp] theorem State.fresh_copies (s : State) : (s.fresh).copies = s.copies := rfl
@[simp] theorem State.fresh_pend (s : State) : (s.fresh).pend = s.pend := rfl
@[simp] theorem State.fresh_reds (s : State) : (s.fresh).reds = s.reds := rfl
@[simp] theorem State.fresh_wgs (s : State) : (s.fresh).wgs = s.wgs := rfl
@[simp] theorem State.fresh_grids (s : State) : (s.fresh).grids = s.grids := rfl
@[simp] theorem State.fresh_colls (s : State) : (s.fresh).colls = s.colls := rfl
@[simp] theorem State.fresh_cores (s : State) : (s.fresh).cores = s.cores := rfl
@[simp] theorem State.fresh_dies (s : State) : (s.fresh).dies = s.dies := rfl
@[simp] theorem State.fresh_links (s : State) : (s.fresh).links = s.links := rfl
@[simp] theorem State.fresh_seqs (s : State) : (s.fresh).seqs = s.seqs := rfl
@[simp] theorem State.fresh_queues (s : State) : (s.fresh).queues = s.queues := rfl
@[simp] theorem State.fresh_acl (s : State) : (s.fresh).acl = s.acl := rfl
@[simp] theorem State.fresh_resv (s : State) : (s.fresh).resv = s.resv := rfl
@[simp] theorem State.fresh_mboxes (s : State) : (s.fresh).mboxes = s.mboxes := rfl
@[simp] theorem State.fresh_eaves (s : State) : (s.fresh).eaves = s.eaves := rfl
@[simp] theorem State.fresh_mgmt (s : State) : (s.fresh).mgmt = s.mgmt := rfl
@[simp] theorem State.fresh_rules (s : State) : (s.fresh).rules = s.rules := rfl
@[simp] theorem State.fresh_egress (s : State) : (s.fresh).egress = s.egress := rfl
@[simp] theorem State.fresh_ownPeer (s : State) : (s.fresh).ownPeer = s.ownPeer := rfl
@[simp] theorem State.fresh_routes (s : State) : (s.fresh).routes = s.routes := rfl
@[simp] theorem State.fresh_windows (s : State) : (s.fresh).windows = s.windows := rfl
@[simp] theorem State.fresh_tsrc (s : State) : (s.fresh).tsrc = s.tsrc := rfl
@[simp] theorem State.fresh_ioTlb (s : State) : (s.fresh).ioTlb = s.ioTlb := rfl
@[simp] theorem State.fresh_wfaults (s : State) : (s.fresh).wfaults = s.wfaults := rfl
@[simp] theorem State.fresh_reqs (s : State) : (s.fresh).reqs = s.reqs := rfl
@[simp] theorem State.fresh_backlog (s : State) : (s.fresh).backlog = s.backlog := rfl
@[simp] theorem State.fresh_inb (s : State) : (s.fresh).inb = s.inb := rfl
@[simp] theorem State.fresh_monitors (s : State) : (s.fresh).monitors = s.monitors := rfl
@[simp] theorem State.fresh_lrs (s : State) : (s.fresh).lrs = s.lrs := rfl
@[simp] theorem State.fresh_evMgmt (s : State) : (s.fresh).evMgmt = s.evMgmt := rfl
@[simp] theorem State.fresh_evHost (s : State) : (s.fresh).evHost = s.evHost := rfl
@[simp] theorem State.fresh_umhal (s : State) : (s.fresh).umhal = s.umhal := rfl
@[simp] theorem State.fresh_fwInbox (s : State) : (s.fresh).fwInbox = s.fwInbox := rfl
@[simp] theorem State.fresh_report (s : State) : (s.fresh).report = s.report := rfl
@[simp] theorem State.fresh_txFrame (s : State) : (s.fresh).txFrame = s.txFrame := rfl
@[simp] theorem State.fresh_txFlit (s : State) : (s.fresh).txFlit = s.txFlit := rfl
@[simp] theorem State.fresh_frames (s : State) : (s.fresh).frames = s.frames := rfl
@[simp] theorem State.fresh_images (s : State) : (s.fresh).images = s.images := rfl
@[simp] theorem State.fresh_idKey (s : State) : (s.fresh).idKey = s.idKey := rfl
@[simp] theorem State.fresh_held (s : State) : (s.fresh).held = s.held := rfl
@[simp] theorem State.fresh_retry (s : State) : (s.fresh).retry = s.retry := rfl
@[simp] theorem State.fresh_rollback (s : State) : (s.fresh).rollback = s.rollback := rfl
@[simp] theorem State.fresh_retired (s : State) : (s.fresh).retired = s.retired := rfl
@[simp] theorem State.fresh_watched (s : State) : (s.fresh).watched = s.watched := rfl
@[simp] theorem State.fresh_bootStop (s : State) : (s.fresh).bootStop = s.bootStop := rfl
@[simp] theorem State.fresh_fatal (s : State) : (s.fresh).fatal = s.fatal := rfl
@[simp] theorem State.fresh_cycle (s : State) : (s.fresh).cycle = s.cycle := rfl
@[simp] theorem State.fresh_dtime (s : State) : (s.fresh).dtime = s.dtime := rfl
@[simp] theorem State.fresh_steps (s : State) : (s.fresh).steps = s.steps := rfl
@[simp] theorem State.fresh_nextUid (s : State) : (s.fresh).nextUid = s.nextUid := rfl
@[simp] theorem State.fresh_nextGid (s : State) : (s.fresh).nextGid = s.nextGid := rfl
@[simp] theorem State.fresh_turnQ (s : State) : (s.fresh).turnQ = s.turnQ := rfl
@[simp] theorem State.fresh_turnL (s : State) : (s.fresh).turnL = s.turnL := rfl
@[simp] theorem State.fresh_curWg (s : State) : (s.fresh).curWg = s.curWg := rfl
@[simp] theorem State.fresh_curCrs (s : State) : (s.fresh).curCrs = s.curCrs := rfl
@[simp] theorem State.fresh_curLink (s : State) : (s.fresh).curLink = s.curLink := rfl
@[simp] theorem State.fresh_curCtx (s : State) : (s.fresh).curCtx = s.curCtx := rfl
@[simp] theorem State.fresh_seqTurn (s : State) : (s.fresh).seqTurn = s.seqTurn := rfl
@[simp] theorem State.fresh_inRep (s : State) : (s.fresh).inRep = s.inRep := rfl
@[simp] theorem State.fresh_agenda (s : State) : (s.fresh).agenda = s.agenda := rfl
@[simp] theorem State.fresh_upsets (s : State) : (s.fresh).upsets = s.upsets := rfl
@[simp] theorem State.fresh_suspects (s : State) : (s.fresh).suspects = s.suspects := rfl

/-! Fields after `jump`. -/

@[simp] theorem State.jump_mem (s : State) (pc : W64) : (s.jump pc).mem = s.mem := rfl
@[simp] theorem State.jump_poison (s : State) (pc : W64) : (s.jump pc).poison = s.poison := rfl
@[simp] theorem State.jump_under (s : State) (pc : W64) : (s.jump pc).under = s.under := rfl
@[simp] theorem State.jump_tags (s : State) (pc : W64) : (s.jump pc).tags = s.tags := rfl
@[simp] theorem State.jump_copies (s : State) (pc : W64) : (s.jump pc).copies = s.copies := rfl
@[simp] theorem State.jump_pend (s : State) (pc : W64) : (s.jump pc).pend = s.pend := rfl
@[simp] theorem State.jump_reds (s : State) (pc : W64) : (s.jump pc).reds = s.reds := rfl
@[simp] theorem State.jump_grids (s : State) (pc : W64) : (s.jump pc).grids = s.grids := rfl
@[simp] theorem State.jump_colls (s : State) (pc : W64) : (s.jump pc).colls = s.colls := rfl
@[simp] theorem State.jump_cores (s : State) (pc : W64) : (s.jump pc).cores = s.cores := rfl
@[simp] theorem State.jump_dies (s : State) (pc : W64) : (s.jump pc).dies = s.dies := rfl
@[simp] theorem State.jump_links (s : State) (pc : W64) : (s.jump pc).links = s.links := rfl
@[simp] theorem State.jump_seqs (s : State) (pc : W64) : (s.jump pc).seqs = s.seqs := rfl
@[simp] theorem State.jump_queues (s : State) (pc : W64) : (s.jump pc).queues = s.queues := rfl
@[simp] theorem State.jump_acl (s : State) (pc : W64) : (s.jump pc).acl = s.acl := rfl
@[simp] theorem State.jump_resv (s : State) (pc : W64) : (s.jump pc).resv = s.resv := rfl
@[simp] theorem State.jump_mboxes (s : State) (pc : W64) : (s.jump pc).mboxes = s.mboxes := rfl
@[simp] theorem State.jump_eaves (s : State) (pc : W64) : (s.jump pc).eaves = s.eaves := rfl
@[simp] theorem State.jump_mgmt (s : State) (pc : W64) : (s.jump pc).mgmt = s.mgmt := rfl
@[simp] theorem State.jump_rules (s : State) (pc : W64) : (s.jump pc).rules = s.rules := rfl
@[simp] theorem State.jump_egress (s : State) (pc : W64) : (s.jump pc).egress = s.egress := rfl
@[simp] theorem State.jump_ownPeer (s : State) (pc : W64) : (s.jump pc).ownPeer = s.ownPeer := rfl
@[simp] theorem State.jump_routes (s : State) (pc : W64) : (s.jump pc).routes = s.routes := rfl
@[simp] theorem State.jump_windows (s : State) (pc : W64) : (s.jump pc).windows = s.windows := rfl
@[simp] theorem State.jump_tsrc (s : State) (pc : W64) : (s.jump pc).tsrc = s.tsrc := rfl
@[simp] theorem State.jump_ioTlb (s : State) (pc : W64) : (s.jump pc).ioTlb = s.ioTlb := rfl
@[simp] theorem State.jump_wfaults (s : State) (pc : W64) : (s.jump pc).wfaults = s.wfaults := rfl
@[simp] theorem State.jump_reqs (s : State) (pc : W64) : (s.jump pc).reqs = s.reqs := rfl
@[simp] theorem State.jump_backlog (s : State) (pc : W64) : (s.jump pc).backlog = s.backlog := rfl
@[simp] theorem State.jump_inb (s : State) (pc : W64) : (s.jump pc).inb = s.inb := rfl
@[simp] theorem State.jump_monitors (s : State) (pc : W64) : (s.jump pc).monitors = s.monitors := rfl
@[simp] theorem State.jump_lrs (s : State) (pc : W64) : (s.jump pc).lrs = s.lrs := rfl
@[simp] theorem State.jump_evMgmt (s : State) (pc : W64) : (s.jump pc).evMgmt = s.evMgmt := rfl
@[simp] theorem State.jump_evHost (s : State) (pc : W64) : (s.jump pc).evHost = s.evHost := rfl
@[simp] theorem State.jump_umhal (s : State) (pc : W64) : (s.jump pc).umhal = s.umhal := rfl
@[simp] theorem State.jump_fwInbox (s : State) (pc : W64) : (s.jump pc).fwInbox = s.fwInbox := rfl
@[simp] theorem State.jump_report (s : State) (pc : W64) : (s.jump pc).report = s.report := rfl
@[simp] theorem State.jump_txFrame (s : State) (pc : W64) : (s.jump pc).txFrame = s.txFrame := rfl
@[simp] theorem State.jump_txFlit (s : State) (pc : W64) : (s.jump pc).txFlit = s.txFlit := rfl
@[simp] theorem State.jump_frames (s : State) (pc : W64) : (s.jump pc).frames = s.frames := rfl
@[simp] theorem State.jump_images (s : State) (pc : W64) : (s.jump pc).images = s.images := rfl
@[simp] theorem State.jump_idKey (s : State) (pc : W64) : (s.jump pc).idKey = s.idKey := rfl
@[simp] theorem State.jump_held (s : State) (pc : W64) : (s.jump pc).held = s.held := rfl
@[simp] theorem State.jump_retry (s : State) (pc : W64) : (s.jump pc).retry = s.retry := rfl
@[simp] theorem State.jump_rollback (s : State) (pc : W64) : (s.jump pc).rollback = s.rollback := rfl
@[simp] theorem State.jump_retired (s : State) (pc : W64) : (s.jump pc).retired = s.retired := rfl
@[simp] theorem State.jump_watched (s : State) (pc : W64) : (s.jump pc).watched = s.watched := rfl
@[simp] theorem State.jump_bootStop (s : State) (pc : W64) : (s.jump pc).bootStop = s.bootStop := rfl
@[simp] theorem State.jump_fatal (s : State) (pc : W64) : (s.jump pc).fatal = s.fatal := rfl
@[simp] theorem State.jump_cycle (s : State) (pc : W64) : (s.jump pc).cycle = s.cycle := rfl
@[simp] theorem State.jump_dtime (s : State) (pc : W64) : (s.jump pc).dtime = s.dtime := rfl
@[simp] theorem State.jump_steps (s : State) (pc : W64) : (s.jump pc).steps = s.steps := rfl
@[simp] theorem State.jump_stamp (s : State) (pc : W64) : (s.jump pc).stamp = s.stamp := rfl
@[simp] theorem State.jump_nextUid (s : State) (pc : W64) : (s.jump pc).nextUid = s.nextUid := rfl
@[simp] theorem State.jump_nextGid (s : State) (pc : W64) : (s.jump pc).nextGid = s.nextGid := rfl
@[simp] theorem State.jump_turnQ (s : State) (pc : W64) : (s.jump pc).turnQ = s.turnQ := rfl
@[simp] theorem State.jump_turnL (s : State) (pc : W64) : (s.jump pc).turnL = s.turnL := rfl
@[simp] theorem State.jump_curWg (s : State) (pc : W64) : (s.jump pc).curWg = s.curWg := rfl
@[simp] theorem State.jump_curCrs (s : State) (pc : W64) : (s.jump pc).curCrs = s.curCrs := rfl
@[simp] theorem State.jump_curLink (s : State) (pc : W64) : (s.jump pc).curLink = s.curLink := rfl
@[simp] theorem State.jump_curCtx (s : State) (pc : W64) : (s.jump pc).curCtx = s.curCtx := rfl
@[simp] theorem State.jump_seqTurn (s : State) (pc : W64) : (s.jump pc).seqTurn = s.seqTurn := rfl
@[simp] theorem State.jump_inRep (s : State) (pc : W64) : (s.jump pc).inRep = s.inRep := rfl
@[simp] theorem State.jump_agenda (s : State) (pc : W64) : (s.jump pc).agenda = s.agenda := rfl
@[simp] theorem State.jump_upsets (s : State) (pc : W64) : (s.jump pc).upsets = s.upsets := rfl
@[simp] theorem State.jump_suspects (s : State) (pc : W64) : (s.jump pc).suspects = s.suspects := rfl

/-! Fields after `retire`. -/

@[simp] theorem State.retire_mem (s : State) (n : Nat) : (s.retire n).mem = s.mem := rfl
@[simp] theorem State.retire_poison (s : State) (n : Nat) : (s.retire n).poison = s.poison := rfl
@[simp] theorem State.retire_under (s : State) (n : Nat) : (s.retire n).under = s.under := rfl
@[simp] theorem State.retire_tags (s : State) (n : Nat) : (s.retire n).tags = s.tags := rfl
@[simp] theorem State.retire_copies (s : State) (n : Nat) : (s.retire n).copies = s.copies := rfl
@[simp] theorem State.retire_pend (s : State) (n : Nat) : (s.retire n).pend = s.pend := rfl
@[simp] theorem State.retire_reds (s : State) (n : Nat) : (s.retire n).reds = s.reds := rfl
@[simp] theorem State.retire_grids (s : State) (n : Nat) : (s.retire n).grids = s.grids := rfl
@[simp] theorem State.retire_colls (s : State) (n : Nat) : (s.retire n).colls = s.colls := rfl
@[simp] theorem State.retire_cores (s : State) (n : Nat) : (s.retire n).cores = s.cores := rfl
@[simp] theorem State.retire_dies (s : State) (n : Nat) : (s.retire n).dies = s.dies := rfl
@[simp] theorem State.retire_links (s : State) (n : Nat) : (s.retire n).links = s.links := rfl
@[simp] theorem State.retire_seqs (s : State) (n : Nat) : (s.retire n).seqs = s.seqs := rfl
@[simp] theorem State.retire_queues (s : State) (n : Nat) : (s.retire n).queues = s.queues := rfl
@[simp] theorem State.retire_acl (s : State) (n : Nat) : (s.retire n).acl = s.acl := rfl
@[simp] theorem State.retire_resv (s : State) (n : Nat) : (s.retire n).resv = s.resv := rfl
@[simp] theorem State.retire_mboxes (s : State) (n : Nat) : (s.retire n).mboxes = s.mboxes := rfl
@[simp] theorem State.retire_eaves (s : State) (n : Nat) : (s.retire n).eaves = s.eaves := rfl
@[simp] theorem State.retire_mgmt (s : State) (n : Nat) : (s.retire n).mgmt = s.mgmt := rfl
@[simp] theorem State.retire_rules (s : State) (n : Nat) : (s.retire n).rules = s.rules := rfl
@[simp] theorem State.retire_egress (s : State) (n : Nat) : (s.retire n).egress = s.egress := rfl
@[simp] theorem State.retire_ownPeer (s : State) (n : Nat) : (s.retire n).ownPeer = s.ownPeer := rfl
@[simp] theorem State.retire_routes (s : State) (n : Nat) : (s.retire n).routes = s.routes := rfl
@[simp] theorem State.retire_windows (s : State) (n : Nat) : (s.retire n).windows = s.windows := rfl
@[simp] theorem State.retire_tsrc (s : State) (n : Nat) : (s.retire n).tsrc = s.tsrc := rfl
@[simp] theorem State.retire_ioTlb (s : State) (n : Nat) : (s.retire n).ioTlb = s.ioTlb := rfl
@[simp] theorem State.retire_wfaults (s : State) (n : Nat) : (s.retire n).wfaults = s.wfaults := rfl
@[simp] theorem State.retire_reqs (s : State) (n : Nat) : (s.retire n).reqs = s.reqs := rfl
@[simp] theorem State.retire_backlog (s : State) (n : Nat) : (s.retire n).backlog = s.backlog := rfl
@[simp] theorem State.retire_inb (s : State) (n : Nat) : (s.retire n).inb = s.inb := rfl
@[simp] theorem State.retire_monitors (s : State) (n : Nat) : (s.retire n).monitors = s.monitors := rfl
@[simp] theorem State.retire_lrs (s : State) (n : Nat) : (s.retire n).lrs = s.lrs := rfl
@[simp] theorem State.retire_evMgmt (s : State) (n : Nat) : (s.retire n).evMgmt = s.evMgmt := rfl
@[simp] theorem State.retire_evHost (s : State) (n : Nat) : (s.retire n).evHost = s.evHost := rfl
@[simp] theorem State.retire_umhal (s : State) (n : Nat) : (s.retire n).umhal = s.umhal := rfl
@[simp] theorem State.retire_fwInbox (s : State) (n : Nat) : (s.retire n).fwInbox = s.fwInbox := rfl
@[simp] theorem State.retire_report (s : State) (n : Nat) : (s.retire n).report = s.report := rfl
@[simp] theorem State.retire_txFrame (s : State) (n : Nat) : (s.retire n).txFrame = s.txFrame := rfl
@[simp] theorem State.retire_txFlit (s : State) (n : Nat) : (s.retire n).txFlit = s.txFlit := rfl
@[simp] theorem State.retire_frames (s : State) (n : Nat) : (s.retire n).frames = s.frames := rfl
@[simp] theorem State.retire_images (s : State) (n : Nat) : (s.retire n).images = s.images := rfl
@[simp] theorem State.retire_idKey (s : State) (n : Nat) : (s.retire n).idKey = s.idKey := rfl
@[simp] theorem State.retire_held (s : State) (n : Nat) : (s.retire n).held = s.held := rfl
@[simp] theorem State.retire_retry (s : State) (n : Nat) : (s.retire n).retry = s.retry := rfl
@[simp] theorem State.retire_rollback (s : State) (n : Nat) : (s.retire n).rollback = s.rollback := rfl
@[simp] theorem State.retire_retired (s : State) (n : Nat) : (s.retire n).retired = s.retired := rfl
@[simp] theorem State.retire_watched (s : State) (n : Nat) : (s.retire n).watched = s.watched := rfl
@[simp] theorem State.retire_bootStop (s : State) (n : Nat) : (s.retire n).bootStop = s.bootStop := rfl
@[simp] theorem State.retire_fatal (s : State) (n : Nat) : (s.retire n).fatal = s.fatal := rfl
@[simp] theorem State.retire_cycle (s : State) (n : Nat) : (s.retire n).cycle = s.cycle := rfl
@[simp] theorem State.retire_dtime (s : State) (n : Nat) : (s.retire n).dtime = s.dtime := rfl
@[simp] theorem State.retire_steps (s : State) (n : Nat) : (s.retire n).steps = s.steps := rfl
@[simp] theorem State.retire_stamp (s : State) (n : Nat) : (s.retire n).stamp = s.stamp := rfl
@[simp] theorem State.retire_nextUid (s : State) (n : Nat) : (s.retire n).nextUid = s.nextUid := rfl
@[simp] theorem State.retire_nextGid (s : State) (n : Nat) : (s.retire n).nextGid = s.nextGid := rfl
@[simp] theorem State.retire_turnQ (s : State) (n : Nat) : (s.retire n).turnQ = s.turnQ := rfl
@[simp] theorem State.retire_turnL (s : State) (n : Nat) : (s.retire n).turnL = s.turnL := rfl
@[simp] theorem State.retire_curWg (s : State) (n : Nat) : (s.retire n).curWg = s.curWg := rfl
@[simp] theorem State.retire_curCrs (s : State) (n : Nat) : (s.retire n).curCrs = s.curCrs := rfl
@[simp] theorem State.retire_curLink (s : State) (n : Nat) : (s.retire n).curLink = s.curLink := rfl
@[simp] theorem State.retire_curCtx (s : State) (n : Nat) : (s.retire n).curCtx = s.curCtx := rfl
@[simp] theorem State.retire_seqTurn (s : State) (n : Nat) : (s.retire n).seqTurn = s.seqTurn := rfl
@[simp] theorem State.retire_inRep (s : State) (n : Nat) : (s.retire n).inRep = s.inRep := rfl
@[simp] theorem State.retire_agenda (s : State) (n : Nat) : (s.retire n).agenda = s.agenda := rfl
@[simp] theorem State.retire_upsets (s : State) (n : Nat) : (s.retire n).upsets = s.upsets := rfl
@[simp] theorem State.retire_suspects (s : State) (n : Nat) : (s.retire n).suspects = s.suspects := rfl

/-! Workgroup fields after `setCrs`. -/

@[simp] theorem Workgroup.setCrs_gid (s : Workgroup) (c : Nat) (k : Course) : (s.setCrs c k).gid = s.gid := rfl
@[simp] theorem Workgroup.setCrs_w (s : Workgroup) (c : Nat) (k : Course) : (s.setCrs c k).w = s.w := rfl
@[simp] theorem Workgroup.setCrs_asn (s : Workgroup) (c : Nat) (k : Course) : (s.setCrs c k).asn = s.asn := rfl
@[simp] theorem Workgroup.setCrs_core (s : Workgroup) (c : Nat) (k : Course) : (s.setCrs c k).core = s.core := rfl
@[simp] theorem Workgroup.setCrs_status (s : Workgroup) (c : Nat) (k : Course) : (s.setCrs c k).status = s.status := rfl
@[simp] theorem Workgroup.setCrs_scratch (s : Workgroup) (c : Nat) (k : Course) : (s.setCrs c k).scratch = s.scratch := rfl
@[simp] theorem Workgroup.setCrs_fe (s : Workgroup) (c : Nat) (k : Course) : (s.setCrs c k).fe = s.fe := rfl
@[simp] theorem Workgroup.setCrs_spoison (s : Workgroup) (c : Nat) (k : Course) : (s.setCrs c k).spoison = s.spoison := rfl
@[simp] theorem Workgroup.setCrs_accs (s : Workgroup) (c : Nat) (k : Course) : (s.setCrs c k).accs = s.accs := rfl
@[simp] theorem Workgroup.setCrs_apoison (s : Workgroup) (c : Nat) (k : Course) : (s.setCrs c k).apoison = s.apoison := rfl
@[simp] theorem Workgroup.setCrs_slots (s : Workgroup) (c : Nat) (k : Course) : (s.setCrs c k).slots = s.slots := rfl
@[simp] theorem Workgroup.setCrs_bars (s : Workgroup) (c : Nat) (k : Course) : (s.setCrs c k).bars = s.bars := rfl
@[simp] theorem Workgroup.setCrs_cmds (s : Workgroup) (c : Nat) (k : Course) : (s.setCrs c k).cmds = s.cmds := rfl
@[simp] theorem Workgroup.setCrs_guards (s : Workgroup) (c : Nat) (k : Course) : (s.setCrs c k).guards = s.guards := rfl
@[simp] theorem Workgroup.setCrs_tries (s : Workgroup) (c : Nat) (k : Course) : (s.setCrs c k).tries = s.tries := rfl
@[simp] theorem Workgroup.setCrs_version (s : Workgroup) (c : Nat) (k : Course) : (s.setCrs c k).version = s.version := rfl
@[simp] theorem Workgroup.setCrs_redlog (s : Workgroup) (c : Nat) (k : Course) : (s.setCrs c k).redlog = s.redlog := rfl
@[simp] theorem Workgroup.setCrs_detadd (s : Workgroup) (c : Nat) (k : Course) : (s.setCrs c k).detadd = s.detadd := rfl
@[simp] theorem Workgroup.setCrs_unbuf (s : Workgroup) (c : Nat) (k : Course) : (s.setCrs c k).unbuf = s.unbuf := rfl
@[simp] theorem Workgroup.setCrs_fullV (s : Workgroup) (c : Nat) (k : Course) : (s.setCrs c k).fullV = s.fullV := rfl
@[simp] theorem Workgroup.setCrs_holder (s : Workgroup) (c : Nat) (k : Course) : (s.setCrs c k).holder = s.holder := rfl
@[simp] theorem Workgroup.setCrs_taskEnd (s : Workgroup) (c : Nat) (k : Course) : (s.setCrs c k).taskEnd = s.taskEnd := rfl
@[simp] theorem Workgroup.setCrs_retired (s : Workgroup) (c : Nat) (k : Course) : (s.setCrs c k).retired = s.retired := rfl
@[simp] theorem Workgroup.setCrs_granules (s : Workgroup) (c : Nat) (k : Course) : (s.setCrs c k).granules = s.granules := rfl
@[simp] theorem Workgroup.setCrs_omem (s : Workgroup) (c : Nat) (k : Course) : (s.setCrs c k).omem = s.omem := rfl
@[simp] theorem Workgroup.setCrs_redo (s : Workgroup) (c : Nat) (k : Course) : (s.setCrs c k).redo = s.redo := rfl
@[simp] theorem Workgroup.setCrs_placed (s : Workgroup) (c : Nat) (k : Course) : (s.setCrs c k).placed = s.placed := rfl
@[simp] theorem Workgroup.setCrs_leave (s : Workgroup) (c : Nat) (k : Course) : (s.setCrs c k).leave = s.leave := rfl
@[simp] theorem Workgroup.setCrs_goal (s : Workgroup) (c : Nat) (k : Course) : (s.setCrs c k).goal = s.goal := rfl
@[simp] theorem Workgroup.setCrs_feDef (s : Workgroup) (c : Nat) (k : Course) : (s.setCrs c k).feDef = s.feDef := rfl

/-! Sequencer fields after `setCtx`. -/

@[simp] theorem Seqr.setCtx_imem (s : Seqr) (k : Nat) (x : Ctx) : (s.setCtx k x).imem = s.imem := rfl
@[simp] theorem Seqr.setCtx_broken (s : Seqr) (k : Nat) (x : Ctx) : (s.setCtx k x).broken = s.broken := rfl
@[simp] theorem Seqr.setCtx_iecc (s : Seqr) (k : Nat) (x : Ctx) : (s.setCtx k x).iecc = s.iecc := rfl
@[simp] theorem Seqr.setCtx_bad (s : Seqr) (k : Nat) (x : Ctx) : (s.setCtx k x).bad = s.bad := rfl
@[simp] theorem Seqr.setCtx_wdog (s : Seqr) (k : Nat) (x : Ctx) : (s.setCtx k x).wdog = s.wdog := rfl
@[simp] theorem Seqr.setCtx_tlb (s : Seqr) (k : Nat) (x : Ctx) : (s.setCtx k x).tlb = s.tlb := rfl
@[simp] theorem Seqr.setCtx_turn (s : Seqr) (k : Nat) (x : Ctx) : (s.setCtx k x).turn = s.turn := rfl
@[simp] theorem Seqr.setCtx_run (s : Seqr) (k : Nat) (x : Ctx) : (s.setCtx k x).run = s.run := rfl
@[simp] theorem Seqr.setCtx_atHead (s : Seqr) (k : Nat) (x : Ctx) : (s.setCtx k x).atHead = s.atHead := rfl

/-! Course fields after `setPred`. -/

@[simp] theorem Course.setPred_pc (s : Course) (n : Nat) (m : W32) : (s.setPred n m).pc = s.pc := rfl
@[simp] theorem Course.setPred_v (s : Course) (n : Nat) (m : W32) : (s.setPred n m).v = s.v := rfl
@[simp] theorem Course.setPred_vfull (s : Course) (n : Nat) (m : W32) : (s.setPred n m).vfull = s.vfull := rfl
@[simp] theorem Course.setPred_vpoison (s : Course) (n : Nat) (m : W32) : (s.setPred n m).vpoison = s.vpoison := rfl
@[simp] theorem Course.setPred_s (s : Course) (n : Nat) (m : W32) : (s.setPred n m).s = s.s := rfl
@[simp] theorem Course.setPred_sfull (s : Course) (n : Nat) (m : W32) : (s.setPred n m).sfull = s.sfull := rfl
@[simp] theorem Course.setPred_spoison (s : Course) (n : Nat) (m : W32) : (s.setPred n m).spoison = s.spoison := rfl
@[simp] theorem Course.setPred_rpoison (s : Course) (n : Nat) (m : W32) : (s.setPred n m).rpoison = s.rpoison := rfl
@[simp] theorem Course.setPred_x (s : Course) (n : Nat) (m : W32) : (s.setPred n m).x = s.x := rfl
@[simp] theorem Course.setPred_g (s : Course) (n : Nat) (m : W32) : (s.setPred n m).g = s.g := rfl
@[simp] theorem Course.setPred_mode (s : Course) (n : Nat) (m : W32) : (s.setPred n m).mode = s.mode := rfl
@[simp] theorem Course.setPred_exec (s : Course) (n : Nat) (m : W32) : (s.setPred n m).exec = s.exec := rfl
@[simp] theorem Course.setPred_fstat (s : Course) (n : Nat) (m : W32) : (s.setPred n m).fstat = s.fstat := rfl
@[simp] theorem Course.setPred_repst (s : Course) (n : Nat) (m : W32) : (s.setPred n m).repst = s.repst := rfl
@[simp] theorem Course.setPred_ctimer (s : Course) (n : Nat) (m : W32) : (s.setPred n m).ctimer = s.ctimer := rfl
@[simp] theorem Course.setPred_ctlim (s : Course) (n : Nat) (m : W32) : (s.setPred n m).ctlim = s.ctlim := rfl
@[simp] theorem Course.setPred_dtfrac (s : Course) (n : Nat) (m : W32) : (s.setPred n m).dtfrac = s.dtfrac := rfl
@[simp] theorem Course.setPred_stack (s : Course) (n : Nat) (m : W32) : (s.setPred n m).stack = s.stack := rfl
@[simp] theorem Course.setPred_depth (s : Course) (n : Nat) (m : W32) : (s.setPred n m).depth = s.depth := rfl
@[simp] theorem Course.setPred_tlev (s : Course) (n : Nat) (m : W32) : (s.setPred n m).tlev = s.tlev := rfl
@[simp] theorem Course.setPred_batches (s : Course) (n : Nat) (m : W32) : (s.setPred n m).batches = s.batches := rfl
@[simp] theorem Course.setPred_flights (s : Course) (n : Nat) (m : W32) : (s.setPred n m).flights = s.flights := rfl
@[simp] theorem Course.setPred_failed (s : Course) (n : Nat) (m : W32) : (s.setPred n m).failed = s.failed := rfl
@[simp] theorem Course.setPred_relBar (s : Course) (n : Nat) (m : W32) : (s.setPred n m).relBar = s.relBar := rfl
@[simp] theorem Course.setPred_wait (s : Course) (n : Nat) (m : W32) : (s.setPred n m).wait = s.wait := rfl
@[simp] theorem Course.setPred_sched (s : Course) (n : Nat) (m : W32) : (s.setPred n m).sched = s.sched := rfl
@[simp] theorem Course.setPred_entered (s : Course) (n : Nat) (m : W32) : (s.setPred n m).entered = s.entered := rfl
@[simp] theorem Course.setPred_since (s : Course) (n : Nat) (m : W32) : (s.setPred n m).since = s.since := rfl
@[simp] theorem Course.setPred_issued (s : Course) (n : Nat) (m : W32) : (s.setPred n m).issued = s.issued := rfl
@[simp] theorem Course.setPred_tried (s : Course) (n : Nat) (m : W32) : (s.setPred n m).tried = s.tried := rfl
@[simp] theorem Course.setPred_sync (s : Course) (n : Nat) (m : W32) : (s.setPred n m).sync = s.sync := rfl
@[simp] theorem Course.setPred_limit (s : Course) (n : Nat) (m : W32) : (s.setPred n m).limit = s.limit := rfl
@[simp] theorem Course.setPred_arb (s : Course) (n : Nat) (m : W32) : (s.setPred n m).arb = s.arb := rfl
@[simp] theorem Course.setPred_detUsed (s : Course) (n : Nat) (m : W32) : (s.setPred n m).detUsed = s.detUsed := rfl
@[simp] theorem Course.setPred_exited (s : Course) (n : Nat) (m : W32) : (s.setPred n m).exited = s.exited := rfl
@[simp] theorem Course.setPred_halted (s : Course) (n : Nat) (m : W32) : (s.setPred n m).halted = s.halted := rfl
@[simp] theorem Course.setPred_stepping (s : Course) (n : Nat) (m : W32) : (s.setPred n m).stepping = s.stepping := rfl
@[simp] theorem Course.setPred_armed (s : Course) (n : Nat) (m : W32) : (s.setPred n m).armed = s.armed := rfl

/-! Course fields after `setX`. -/

@[simp] theorem Course.setX_pc (s : Course) (n : Nat) (x : XReg) : (s.setX n x).pc = s.pc := rfl
@[simp] theorem Course.setX_v (s : Course) (n : Nat) (x : XReg) : (s.setX n x).v = s.v := rfl
@[simp] theorem Course.setX_vfull (s : Course) (n : Nat) (x : XReg) : (s.setX n x).vfull = s.vfull := rfl
@[simp] theorem Course.setX_vpoison (s : Course) (n : Nat) (x : XReg) : (s.setX n x).vpoison = s.vpoison := rfl
@[simp] theorem Course.setX_s (s : Course) (n : Nat) (x : XReg) : (s.setX n x).s = s.s := rfl
@[simp] theorem Course.setX_sfull (s : Course) (n : Nat) (x : XReg) : (s.setX n x).sfull = s.sfull := rfl
@[simp] theorem Course.setX_spoison (s : Course) (n : Nat) (x : XReg) : (s.setX n x).spoison = s.spoison := rfl
@[simp] theorem Course.setX_rpoison (s : Course) (n : Nat) (x : XReg) : (s.setX n x).rpoison = s.rpoison := rfl
@[simp] theorem Course.setX_p (s : Course) (n : Nat) (x : XReg) : (s.setX n x).p = s.p := rfl
@[simp] theorem Course.setX_g (s : Course) (n : Nat) (x : XReg) : (s.setX n x).g = s.g := rfl
@[simp] theorem Course.setX_mode (s : Course) (n : Nat) (x : XReg) : (s.setX n x).mode = s.mode := rfl
@[simp] theorem Course.setX_exec (s : Course) (n : Nat) (x : XReg) : (s.setX n x).exec = s.exec := rfl
@[simp] theorem Course.setX_fstat (s : Course) (n : Nat) (x : XReg) : (s.setX n x).fstat = s.fstat := rfl
@[simp] theorem Course.setX_repst (s : Course) (n : Nat) (x : XReg) : (s.setX n x).repst = s.repst := rfl
@[simp] theorem Course.setX_ctimer (s : Course) (n : Nat) (x : XReg) : (s.setX n x).ctimer = s.ctimer := rfl
@[simp] theorem Course.setX_ctlim (s : Course) (n : Nat) (x : XReg) : (s.setX n x).ctlim = s.ctlim := rfl
@[simp] theorem Course.setX_dtfrac (s : Course) (n : Nat) (x : XReg) : (s.setX n x).dtfrac = s.dtfrac := rfl
@[simp] theorem Course.setX_stack (s : Course) (n : Nat) (x : XReg) : (s.setX n x).stack = s.stack := rfl
@[simp] theorem Course.setX_depth (s : Course) (n : Nat) (x : XReg) : (s.setX n x).depth = s.depth := rfl
@[simp] theorem Course.setX_tlev (s : Course) (n : Nat) (x : XReg) : (s.setX n x).tlev = s.tlev := rfl
@[simp] theorem Course.setX_batches (s : Course) (n : Nat) (x : XReg) : (s.setX n x).batches = s.batches := rfl
@[simp] theorem Course.setX_flights (s : Course) (n : Nat) (x : XReg) : (s.setX n x).flights = s.flights := rfl
@[simp] theorem Course.setX_failed (s : Course) (n : Nat) (x : XReg) : (s.setX n x).failed = s.failed := rfl
@[simp] theorem Course.setX_relBar (s : Course) (n : Nat) (x : XReg) : (s.setX n x).relBar = s.relBar := rfl
@[simp] theorem Course.setX_wait (s : Course) (n : Nat) (x : XReg) : (s.setX n x).wait = s.wait := rfl
@[simp] theorem Course.setX_sched (s : Course) (n : Nat) (x : XReg) : (s.setX n x).sched = s.sched := rfl
@[simp] theorem Course.setX_entered (s : Course) (n : Nat) (x : XReg) : (s.setX n x).entered = s.entered := rfl
@[simp] theorem Course.setX_since (s : Course) (n : Nat) (x : XReg) : (s.setX n x).since = s.since := rfl
@[simp] theorem Course.setX_issued (s : Course) (n : Nat) (x : XReg) : (s.setX n x).issued = s.issued := rfl
@[simp] theorem Course.setX_tried (s : Course) (n : Nat) (x : XReg) : (s.setX n x).tried = s.tried := rfl
@[simp] theorem Course.setX_sync (s : Course) (n : Nat) (x : XReg) : (s.setX n x).sync = s.sync := rfl
@[simp] theorem Course.setX_limit (s : Course) (n : Nat) (x : XReg) : (s.setX n x).limit = s.limit := rfl
@[simp] theorem Course.setX_arb (s : Course) (n : Nat) (x : XReg) : (s.setX n x).arb = s.arb := rfl
@[simp] theorem Course.setX_detUsed (s : Course) (n : Nat) (x : XReg) : (s.setX n x).detUsed = s.detUsed := rfl
@[simp] theorem Course.setX_exited (s : Course) (n : Nat) (x : XReg) : (s.setX n x).exited = s.exited := rfl
@[simp] theorem Course.setX_halted (s : Course) (n : Nat) (x : XReg) : (s.setX n x).halted = s.halted := rfl
@[simp] theorem Course.setX_stepping (s : Course) (n : Nat) (x : XReg) : (s.setX n x).stepping = s.stepping := rfl
@[simp] theorem Course.setX_armed (s : Course) (n : Nat) (x : XReg) : (s.setX n x).armed = s.armed := rfl

/-! Course fields after `setBatch`. -/

@[simp] theorem Course.setBatch_pc (s : Course) (b : Nat) (x : Batch) : (s.setBatch b x).pc = s.pc := rfl
@[simp] theorem Course.setBatch_v (s : Course) (b : Nat) (x : Batch) : (s.setBatch b x).v = s.v := rfl
@[simp] theorem Course.setBatch_vfull (s : Course) (b : Nat) (x : Batch) : (s.setBatch b x).vfull = s.vfull := rfl
@[simp] theorem Course.setBatch_vpoison (s : Course) (b : Nat) (x : Batch) : (s.setBatch b x).vpoison = s.vpoison := rfl
@[simp] theorem Course.setBatch_s (s : Course) (b : Nat) (x : Batch) : (s.setBatch b x).s = s.s := rfl
@[simp] theorem Course.setBatch_sfull (s : Course) (b : Nat) (x : Batch) : (s.setBatch b x).sfull = s.sfull := rfl
@[simp] theorem Course.setBatch_spoison (s : Course) (b : Nat) (x : Batch) : (s.setBatch b x).spoison = s.spoison := rfl
@[simp] theorem Course.setBatch_rpoison (s : Course) (b : Nat) (x : Batch) : (s.setBatch b x).rpoison = s.rpoison := rfl
@[simp] theorem Course.setBatch_p (s : Course) (b : Nat) (x : Batch) : (s.setBatch b x).p = s.p := rfl
@[simp] theorem Course.setBatch_x (s : Course) (b : Nat) (x : Batch) : (s.setBatch b x).x = s.x := rfl
@[simp] theorem Course.setBatch_g (s : Course) (b : Nat) (x : Batch) : (s.setBatch b x).g = s.g := rfl
@[simp] theorem Course.setBatch_mode (s : Course) (b : Nat) (x : Batch) : (s.setBatch b x).mode = s.mode := rfl
@[simp] theorem Course.setBatch_exec (s : Course) (b : Nat) (x : Batch) : (s.setBatch b x).exec = s.exec := rfl
@[simp] theorem Course.setBatch_fstat (s : Course) (b : Nat) (x : Batch) : (s.setBatch b x).fstat = s.fstat := rfl
@[simp] theorem Course.setBatch_repst (s : Course) (b : Nat) (x : Batch) : (s.setBatch b x).repst = s.repst := rfl
@[simp] theorem Course.setBatch_ctimer (s : Course) (b : Nat) (x : Batch) : (s.setBatch b x).ctimer = s.ctimer := rfl
@[simp] theorem Course.setBatch_ctlim (s : Course) (b : Nat) (x : Batch) : (s.setBatch b x).ctlim = s.ctlim := rfl
@[simp] theorem Course.setBatch_dtfrac (s : Course) (b : Nat) (x : Batch) : (s.setBatch b x).dtfrac = s.dtfrac := rfl
@[simp] theorem Course.setBatch_stack (s : Course) (b : Nat) (x : Batch) : (s.setBatch b x).stack = s.stack := rfl
@[simp] theorem Course.setBatch_depth (s : Course) (b : Nat) (x : Batch) : (s.setBatch b x).depth = s.depth := rfl
@[simp] theorem Course.setBatch_tlev (s : Course) (b : Nat) (x : Batch) : (s.setBatch b x).tlev = s.tlev := rfl
@[simp] theorem Course.setBatch_flights (s : Course) (b : Nat) (x : Batch) : (s.setBatch b x).flights = s.flights := rfl
@[simp] theorem Course.setBatch_failed (s : Course) (b : Nat) (x : Batch) : (s.setBatch b x).failed = s.failed := rfl
@[simp] theorem Course.setBatch_relBar (s : Course) (b : Nat) (x : Batch) : (s.setBatch b x).relBar = s.relBar := rfl
@[simp] theorem Course.setBatch_wait (s : Course) (b : Nat) (x : Batch) : (s.setBatch b x).wait = s.wait := rfl
@[simp] theorem Course.setBatch_sched (s : Course) (b : Nat) (x : Batch) : (s.setBatch b x).sched = s.sched := rfl
@[simp] theorem Course.setBatch_entered (s : Course) (b : Nat) (x : Batch) : (s.setBatch b x).entered = s.entered := rfl
@[simp] theorem Course.setBatch_since (s : Course) (b : Nat) (x : Batch) : (s.setBatch b x).since = s.since := rfl
@[simp] theorem Course.setBatch_issued (s : Course) (b : Nat) (x : Batch) : (s.setBatch b x).issued = s.issued := rfl
@[simp] theorem Course.setBatch_tried (s : Course) (b : Nat) (x : Batch) : (s.setBatch b x).tried = s.tried := rfl
@[simp] theorem Course.setBatch_sync (s : Course) (b : Nat) (x : Batch) : (s.setBatch b x).sync = s.sync := rfl
@[simp] theorem Course.setBatch_limit (s : Course) (b : Nat) (x : Batch) : (s.setBatch b x).limit = s.limit := rfl
@[simp] theorem Course.setBatch_arb (s : Course) (b : Nat) (x : Batch) : (s.setBatch b x).arb = s.arb := rfl
@[simp] theorem Course.setBatch_detUsed (s : Course) (b : Nat) (x : Batch) : (s.setBatch b x).detUsed = s.detUsed := rfl
@[simp] theorem Course.setBatch_exited (s : Course) (b : Nat) (x : Batch) : (s.setBatch b x).exited = s.exited := rfl
@[simp] theorem Course.setBatch_halted (s : Course) (b : Nat) (x : Batch) : (s.setBatch b x).halted = s.halted := rfl
@[simp] theorem Course.setBatch_stepping (s : Course) (b : Nat) (x : Batch) : (s.setBatch b x).stepping = s.stepping := rfl
@[simp] theorem Course.setBatch_armed (s : Course) (b : Nat) (x : Batch) : (s.setBatch b x).armed = s.armed := rfl

/-! Course fields after `setV`. -/

@[simp] theorem Course.setV_pc (s : Course) (n : Nat) (m : W32) (f : Nat → W32) : (s.setV n m f).pc = s.pc := by
  simp only [Course.setV]
@[simp] theorem Course.setV_vfull (s : Course) (n : Nat) (m : W32) (f : Nat → W32) : (s.setV n m f).vfull = s.vfull := by
  simp only [Course.setV]
@[simp] theorem Course.setV_s (s : Course) (n : Nat) (m : W32) (f : Nat → W32) : (s.setV n m f).s = s.s := by
  simp only [Course.setV]
@[simp] theorem Course.setV_sfull (s : Course) (n : Nat) (m : W32) (f : Nat → W32) : (s.setV n m f).sfull = s.sfull := by
  simp only [Course.setV]
@[simp] theorem Course.setV_spoison (s : Course) (n : Nat) (m : W32) (f : Nat → W32) : (s.setV n m f).spoison = s.spoison := by
  simp only [Course.setV]
@[simp] theorem Course.setV_rpoison (s : Course) (n : Nat) (m : W32) (f : Nat → W32) : (s.setV n m f).rpoison = s.rpoison := by
  simp only [Course.setV]
@[simp] theorem Course.setV_p (s : Course) (n : Nat) (m : W32) (f : Nat → W32) : (s.setV n m f).p = s.p := by
  simp only [Course.setV]
@[simp] theorem Course.setV_x (s : Course) (n : Nat) (m : W32) (f : Nat → W32) : (s.setV n m f).x = s.x := by
  simp only [Course.setV]
@[simp] theorem Course.setV_g (s : Course) (n : Nat) (m : W32) (f : Nat → W32) : (s.setV n m f).g = s.g := by
  simp only [Course.setV]
@[simp] theorem Course.setV_mode (s : Course) (n : Nat) (m : W32) (f : Nat → W32) : (s.setV n m f).mode = s.mode := by
  simp only [Course.setV]
@[simp] theorem Course.setV_exec (s : Course) (n : Nat) (m : W32) (f : Nat → W32) : (s.setV n m f).exec = s.exec := by
  simp only [Course.setV]
@[simp] theorem Course.setV_fstat (s : Course) (n : Nat) (m : W32) (f : Nat → W32) : (s.setV n m f).fstat = s.fstat := by
  simp only [Course.setV]
@[simp] theorem Course.setV_repst (s : Course) (n : Nat) (m : W32) (f : Nat → W32) : (s.setV n m f).repst = s.repst := by
  simp only [Course.setV]
@[simp] theorem Course.setV_ctimer (s : Course) (n : Nat) (m : W32) (f : Nat → W32) : (s.setV n m f).ctimer = s.ctimer := by
  simp only [Course.setV]
@[simp] theorem Course.setV_ctlim (s : Course) (n : Nat) (m : W32) (f : Nat → W32) : (s.setV n m f).ctlim = s.ctlim := by
  simp only [Course.setV]
@[simp] theorem Course.setV_dtfrac (s : Course) (n : Nat) (m : W32) (f : Nat → W32) : (s.setV n m f).dtfrac = s.dtfrac := by
  simp only [Course.setV]
@[simp] theorem Course.setV_stack (s : Course) (n : Nat) (m : W32) (f : Nat → W32) : (s.setV n m f).stack = s.stack := by
  simp only [Course.setV]
@[simp] theorem Course.setV_depth (s : Course) (n : Nat) (m : W32) (f : Nat → W32) : (s.setV n m f).depth = s.depth := by
  simp only [Course.setV]
@[simp] theorem Course.setV_tlev (s : Course) (n : Nat) (m : W32) (f : Nat → W32) : (s.setV n m f).tlev = s.tlev := by
  simp only [Course.setV]
@[simp] theorem Course.setV_batches (s : Course) (n : Nat) (m : W32) (f : Nat → W32) : (s.setV n m f).batches = s.batches := by
  simp only [Course.setV]
@[simp] theorem Course.setV_flights (s : Course) (n : Nat) (m : W32) (f : Nat → W32) : (s.setV n m f).flights = s.flights := by
  simp only [Course.setV]
@[simp] theorem Course.setV_failed (s : Course) (n : Nat) (m : W32) (f : Nat → W32) : (s.setV n m f).failed = s.failed := by
  simp only [Course.setV]
@[simp] theorem Course.setV_relBar (s : Course) (n : Nat) (m : W32) (f : Nat → W32) : (s.setV n m f).relBar = s.relBar := by
  simp only [Course.setV]
@[simp] theorem Course.setV_wait (s : Course) (n : Nat) (m : W32) (f : Nat → W32) : (s.setV n m f).wait = s.wait := by
  simp only [Course.setV]
@[simp] theorem Course.setV_sched (s : Course) (n : Nat) (m : W32) (f : Nat → W32) : (s.setV n m f).sched = s.sched := by
  simp only [Course.setV]
@[simp] theorem Course.setV_entered (s : Course) (n : Nat) (m : W32) (f : Nat → W32) : (s.setV n m f).entered = s.entered := by
  simp only [Course.setV]
@[simp] theorem Course.setV_since (s : Course) (n : Nat) (m : W32) (f : Nat → W32) : (s.setV n m f).since = s.since := by
  simp only [Course.setV]
@[simp] theorem Course.setV_issued (s : Course) (n : Nat) (m : W32) (f : Nat → W32) : (s.setV n m f).issued = s.issued := by
  simp only [Course.setV]
@[simp] theorem Course.setV_tried (s : Course) (n : Nat) (m : W32) (f : Nat → W32) : (s.setV n m f).tried = s.tried := by
  simp only [Course.setV]
@[simp] theorem Course.setV_sync (s : Course) (n : Nat) (m : W32) (f : Nat → W32) : (s.setV n m f).sync = s.sync := by
  simp only [Course.setV]
@[simp] theorem Course.setV_limit (s : Course) (n : Nat) (m : W32) (f : Nat → W32) : (s.setV n m f).limit = s.limit := by
  simp only [Course.setV]
@[simp] theorem Course.setV_arb (s : Course) (n : Nat) (m : W32) (f : Nat → W32) : (s.setV n m f).arb = s.arb := by
  simp only [Course.setV]
@[simp] theorem Course.setV_detUsed (s : Course) (n : Nat) (m : W32) (f : Nat → W32) : (s.setV n m f).detUsed = s.detUsed := by
  simp only [Course.setV]
@[simp] theorem Course.setV_exited (s : Course) (n : Nat) (m : W32) (f : Nat → W32) : (s.setV n m f).exited = s.exited := by
  simp only [Course.setV]
@[simp] theorem Course.setV_halted (s : Course) (n : Nat) (m : W32) (f : Nat → W32) : (s.setV n m f).halted = s.halted := by
  simp only [Course.setV]
@[simp] theorem Course.setV_stepping (s : Course) (n : Nat) (m : W32) (f : Nat → W32) : (s.setV n m f).stepping = s.stepping := by
  simp only [Course.setV]
@[simp] theorem Course.setV_armed (s : Course) (n : Nat) (m : W32) (f : Nat → W32) : (s.setV n m f).armed = s.armed := by
  simp only [Course.setV]

/-! Course fields after `markV`. -/

@[simp] theorem Course.markV_pc (s : Course) (n : Nat) (b : Bool) : (s.markV n b).pc = s.pc := rfl
@[simp] theorem Course.markV_v (s : Course) (n : Nat) (b : Bool) : (s.markV n b).v = s.v := rfl
@[simp] theorem Course.markV_vpoison (s : Course) (n : Nat) (b : Bool) : (s.markV n b).vpoison = s.vpoison := rfl
@[simp] theorem Course.markV_s (s : Course) (n : Nat) (b : Bool) : (s.markV n b).s = s.s := rfl
@[simp] theorem Course.markV_sfull (s : Course) (n : Nat) (b : Bool) : (s.markV n b).sfull = s.sfull := rfl
@[simp] theorem Course.markV_spoison (s : Course) (n : Nat) (b : Bool) : (s.markV n b).spoison = s.spoison := rfl
@[simp] theorem Course.markV_rpoison (s : Course) (n : Nat) (b : Bool) : (s.markV n b).rpoison = s.rpoison := rfl
@[simp] theorem Course.markV_p (s : Course) (n : Nat) (b : Bool) : (s.markV n b).p = s.p := rfl
@[simp] theorem Course.markV_x (s : Course) (n : Nat) (b : Bool) : (s.markV n b).x = s.x := rfl
@[simp] theorem Course.markV_g (s : Course) (n : Nat) (b : Bool) : (s.markV n b).g = s.g := rfl
@[simp] theorem Course.markV_mode (s : Course) (n : Nat) (b : Bool) : (s.markV n b).mode = s.mode := rfl
@[simp] theorem Course.markV_exec (s : Course) (n : Nat) (b : Bool) : (s.markV n b).exec = s.exec := rfl
@[simp] theorem Course.markV_fstat (s : Course) (n : Nat) (b : Bool) : (s.markV n b).fstat = s.fstat := rfl
@[simp] theorem Course.markV_repst (s : Course) (n : Nat) (b : Bool) : (s.markV n b).repst = s.repst := rfl
@[simp] theorem Course.markV_ctimer (s : Course) (n : Nat) (b : Bool) : (s.markV n b).ctimer = s.ctimer := rfl
@[simp] theorem Course.markV_ctlim (s : Course) (n : Nat) (b : Bool) : (s.markV n b).ctlim = s.ctlim := rfl
@[simp] theorem Course.markV_dtfrac (s : Course) (n : Nat) (b : Bool) : (s.markV n b).dtfrac = s.dtfrac := rfl
@[simp] theorem Course.markV_stack (s : Course) (n : Nat) (b : Bool) : (s.markV n b).stack = s.stack := rfl
@[simp] theorem Course.markV_depth (s : Course) (n : Nat) (b : Bool) : (s.markV n b).depth = s.depth := rfl
@[simp] theorem Course.markV_tlev (s : Course) (n : Nat) (b : Bool) : (s.markV n b).tlev = s.tlev := rfl
@[simp] theorem Course.markV_batches (s : Course) (n : Nat) (b : Bool) : (s.markV n b).batches = s.batches := rfl
@[simp] theorem Course.markV_flights (s : Course) (n : Nat) (b : Bool) : (s.markV n b).flights = s.flights := rfl
@[simp] theorem Course.markV_failed (s : Course) (n : Nat) (b : Bool) : (s.markV n b).failed = s.failed := rfl
@[simp] theorem Course.markV_relBar (s : Course) (n : Nat) (b : Bool) : (s.markV n b).relBar = s.relBar := rfl
@[simp] theorem Course.markV_wait (s : Course) (n : Nat) (b : Bool) : (s.markV n b).wait = s.wait := rfl
@[simp] theorem Course.markV_sched (s : Course) (n : Nat) (b : Bool) : (s.markV n b).sched = s.sched := rfl
@[simp] theorem Course.markV_entered (s : Course) (n : Nat) (b : Bool) : (s.markV n b).entered = s.entered := rfl
@[simp] theorem Course.markV_since (s : Course) (n : Nat) (b : Bool) : (s.markV n b).since = s.since := rfl
@[simp] theorem Course.markV_issued (s : Course) (n : Nat) (b : Bool) : (s.markV n b).issued = s.issued := rfl
@[simp] theorem Course.markV_tried (s : Course) (n : Nat) (b : Bool) : (s.markV n b).tried = s.tried := rfl
@[simp] theorem Course.markV_sync (s : Course) (n : Nat) (b : Bool) : (s.markV n b).sync = s.sync := rfl
@[simp] theorem Course.markV_limit (s : Course) (n : Nat) (b : Bool) : (s.markV n b).limit = s.limit := rfl
@[simp] theorem Course.markV_arb (s : Course) (n : Nat) (b : Bool) : (s.markV n b).arb = s.arb := rfl
@[simp] theorem Course.markV_detUsed (s : Course) (n : Nat) (b : Bool) : (s.markV n b).detUsed = s.detUsed := rfl
@[simp] theorem Course.markV_exited (s : Course) (n : Nat) (b : Bool) : (s.markV n b).exited = s.exited := rfl
@[simp] theorem Course.markV_halted (s : Course) (n : Nat) (b : Bool) : (s.markV n b).halted = s.halted := rfl
@[simp] theorem Course.markV_stepping (s : Course) (n : Nat) (b : Bool) : (s.markV n b).stepping = s.stepping := rfl
@[simp] theorem Course.markV_armed (s : Course) (n : Nat) (b : Bool) : (s.markV n b).armed = s.armed := rfl

/-! Course fields after `flag`. -/

@[simp] theorem Course.flag_pc (s : Course) (f : Nat) : (s.flag f).pc = s.pc := rfl
@[simp] theorem Course.flag_v (s : Course) (f : Nat) : (s.flag f).v = s.v := rfl
@[simp] theorem Course.flag_vfull (s : Course) (f : Nat) : (s.flag f).vfull = s.vfull := rfl
@[simp] theorem Course.flag_vpoison (s : Course) (f : Nat) : (s.flag f).vpoison = s.vpoison := rfl
@[simp] theorem Course.flag_s (s : Course) (f : Nat) : (s.flag f).s = s.s := rfl
@[simp] theorem Course.flag_sfull (s : Course) (f : Nat) : (s.flag f).sfull = s.sfull := rfl
@[simp] theorem Course.flag_spoison (s : Course) (f : Nat) : (s.flag f).spoison = s.spoison := rfl
@[simp] theorem Course.flag_rpoison (s : Course) (f : Nat) : (s.flag f).rpoison = s.rpoison := rfl
@[simp] theorem Course.flag_p (s : Course) (f : Nat) : (s.flag f).p = s.p := rfl
@[simp] theorem Course.flag_x (s : Course) (f : Nat) : (s.flag f).x = s.x := rfl
@[simp] theorem Course.flag_g (s : Course) (f : Nat) : (s.flag f).g = s.g := rfl
@[simp] theorem Course.flag_mode (s : Course) (f : Nat) : (s.flag f).mode = s.mode := rfl
@[simp] theorem Course.flag_exec (s : Course) (f : Nat) : (s.flag f).exec = s.exec := rfl
@[simp] theorem Course.flag_repst (s : Course) (f : Nat) : (s.flag f).repst = s.repst := rfl
@[simp] theorem Course.flag_ctimer (s : Course) (f : Nat) : (s.flag f).ctimer = s.ctimer := rfl
@[simp] theorem Course.flag_ctlim (s : Course) (f : Nat) : (s.flag f).ctlim = s.ctlim := rfl
@[simp] theorem Course.flag_dtfrac (s : Course) (f : Nat) : (s.flag f).dtfrac = s.dtfrac := rfl
@[simp] theorem Course.flag_stack (s : Course) (f : Nat) : (s.flag f).stack = s.stack := rfl
@[simp] theorem Course.flag_depth (s : Course) (f : Nat) : (s.flag f).depth = s.depth := rfl
@[simp] theorem Course.flag_tlev (s : Course) (f : Nat) : (s.flag f).tlev = s.tlev := rfl
@[simp] theorem Course.flag_batches (s : Course) (f : Nat) : (s.flag f).batches = s.batches := rfl
@[simp] theorem Course.flag_flights (s : Course) (f : Nat) : (s.flag f).flights = s.flights := rfl
@[simp] theorem Course.flag_failed (s : Course) (f : Nat) : (s.flag f).failed = s.failed := rfl
@[simp] theorem Course.flag_relBar (s : Course) (f : Nat) : (s.flag f).relBar = s.relBar := rfl
@[simp] theorem Course.flag_wait (s : Course) (f : Nat) : (s.flag f).wait = s.wait := rfl
@[simp] theorem Course.flag_sched (s : Course) (f : Nat) : (s.flag f).sched = s.sched := rfl
@[simp] theorem Course.flag_entered (s : Course) (f : Nat) : (s.flag f).entered = s.entered := rfl
@[simp] theorem Course.flag_since (s : Course) (f : Nat) : (s.flag f).since = s.since := rfl
@[simp] theorem Course.flag_issued (s : Course) (f : Nat) : (s.flag f).issued = s.issued := rfl
@[simp] theorem Course.flag_tried (s : Course) (f : Nat) : (s.flag f).tried = s.tried := rfl
@[simp] theorem Course.flag_sync (s : Course) (f : Nat) : (s.flag f).sync = s.sync := rfl
@[simp] theorem Course.flag_limit (s : Course) (f : Nat) : (s.flag f).limit = s.limit := rfl
@[simp] theorem Course.flag_arb (s : Course) (f : Nat) : (s.flag f).arb = s.arb := rfl
@[simp] theorem Course.flag_detUsed (s : Course) (f : Nat) : (s.flag f).detUsed = s.detUsed := rfl
@[simp] theorem Course.flag_exited (s : Course) (f : Nat) : (s.flag f).exited = s.exited := rfl
@[simp] theorem Course.flag_halted (s : Course) (f : Nat) : (s.flag f).halted = s.halted := rfl
@[simp] theorem Course.flag_stepping (s : Course) (f : Nat) : (s.flag f).stepping = s.stepping := rfl
@[simp] theorem Course.flag_armed (s : Course) (f : Nat) : (s.flag f).armed = s.armed := rfl

/-! Course fields after `awake`. -/

@[simp] theorem Course.awake_pc (s : Course) : (s.awake).pc = s.pc := rfl
@[simp] theorem Course.awake_v (s : Course) : (s.awake).v = s.v := rfl
@[simp] theorem Course.awake_vfull (s : Course) : (s.awake).vfull = s.vfull := rfl
@[simp] theorem Course.awake_vpoison (s : Course) : (s.awake).vpoison = s.vpoison := rfl
@[simp] theorem Course.awake_s (s : Course) : (s.awake).s = s.s := rfl
@[simp] theorem Course.awake_sfull (s : Course) : (s.awake).sfull = s.sfull := rfl
@[simp] theorem Course.awake_spoison (s : Course) : (s.awake).spoison = s.spoison := rfl
@[simp] theorem Course.awake_rpoison (s : Course) : (s.awake).rpoison = s.rpoison := rfl
@[simp] theorem Course.awake_p (s : Course) : (s.awake).p = s.p := rfl
@[simp] theorem Course.awake_x (s : Course) : (s.awake).x = s.x := rfl
@[simp] theorem Course.awake_g (s : Course) : (s.awake).g = s.g := rfl
@[simp] theorem Course.awake_mode (s : Course) : (s.awake).mode = s.mode := rfl
@[simp] theorem Course.awake_exec (s : Course) : (s.awake).exec = s.exec := rfl
@[simp] theorem Course.awake_fstat (s : Course) : (s.awake).fstat = s.fstat := rfl
@[simp] theorem Course.awake_repst (s : Course) : (s.awake).repst = s.repst := rfl
@[simp] theorem Course.awake_ctimer (s : Course) : (s.awake).ctimer = s.ctimer := rfl
@[simp] theorem Course.awake_ctlim (s : Course) : (s.awake).ctlim = s.ctlim := rfl
@[simp] theorem Course.awake_dtfrac (s : Course) : (s.awake).dtfrac = s.dtfrac := rfl
@[simp] theorem Course.awake_stack (s : Course) : (s.awake).stack = s.stack := rfl
@[simp] theorem Course.awake_depth (s : Course) : (s.awake).depth = s.depth := rfl
@[simp] theorem Course.awake_tlev (s : Course) : (s.awake).tlev = s.tlev := rfl
@[simp] theorem Course.awake_batches (s : Course) : (s.awake).batches = s.batches := rfl
@[simp] theorem Course.awake_flights (s : Course) : (s.awake).flights = s.flights := rfl
@[simp] theorem Course.awake_failed (s : Course) : (s.awake).failed = s.failed := rfl
@[simp] theorem Course.awake_relBar (s : Course) : (s.awake).relBar = s.relBar := rfl
@[simp] theorem Course.awake_sched (s : Course) : (s.awake).sched = s.sched := rfl
@[simp] theorem Course.awake_entered (s : Course) : (s.awake).entered = s.entered := rfl
@[simp] theorem Course.awake_since (s : Course) : (s.awake).since = s.since := rfl
@[simp] theorem Course.awake_issued (s : Course) : (s.awake).issued = s.issued := rfl
@[simp] theorem Course.awake_tried (s : Course) : (s.awake).tried = s.tried := rfl
@[simp] theorem Course.awake_sync (s : Course) : (s.awake).sync = s.sync := rfl
@[simp] theorem Course.awake_limit (s : Course) : (s.awake).limit = s.limit := rfl
@[simp] theorem Course.awake_arb (s : Course) : (s.awake).arb = s.arb := rfl
@[simp] theorem Course.awake_detUsed (s : Course) : (s.awake).detUsed = s.detUsed := rfl
@[simp] theorem Course.awake_exited (s : Course) : (s.awake).exited = s.exited := rfl
@[simp] theorem Course.awake_halted (s : Course) : (s.awake).halted = s.halted := rfl
@[simp] theorem Course.awake_stepping (s : Course) : (s.awake).stepping = s.stepping := rfl
@[simp] theorem Course.awake_armed (s : Course) : (s.awake).armed = s.armed := rfl

/-! Course fields after `setS`. -/

@[simp] theorem Course.setS_pc (c : Course) (n : Nat) (v : W64) : (c.setS n v).pc = c.pc := by
  unfold Course.setS; split <;> rfl
@[simp] theorem Course.setS_v (c : Course) (n : Nat) (v : W64) : (c.setS n v).v = c.v := by
  unfold Course.setS; split <;> rfl
@[simp] theorem Course.setS_vfull (c : Course) (n : Nat) (v : W64) : (c.setS n v).vfull = c.vfull := by
  unfold Course.setS; split <;> rfl
@[simp] theorem Course.setS_vpoison (c : Course) (n : Nat) (v : W64) : (c.setS n v).vpoison = c.vpoison := by
  unfold Course.setS; split <;> rfl
@[simp] theorem Course.setS_sfull (c : Course) (n : Nat) (v : W64) : (c.setS n v).sfull = c.sfull := by
  unfold Course.setS; split <;> rfl
@[simp] theorem Course.setS_spoison (c : Course) (n : Nat) (v : W64) : (c.setS n v).spoison = c.spoison := by
  unfold Course.setS; split <;> rfl
@[simp] theorem Course.setS_rpoison (c : Course) (n : Nat) (v : W64) : (c.setS n v).rpoison = c.rpoison := by
  unfold Course.setS; split <;> rfl
@[simp] theorem Course.setS_p (c : Course) (n : Nat) (v : W64) : (c.setS n v).p = c.p := by
  unfold Course.setS; split <;> rfl
@[simp] theorem Course.setS_x (c : Course) (n : Nat) (v : W64) : (c.setS n v).x = c.x := by
  unfold Course.setS; split <;> rfl
@[simp] theorem Course.setS_g (c : Course) (n : Nat) (v : W64) : (c.setS n v).g = c.g := by
  unfold Course.setS; split <;> rfl
@[simp] theorem Course.setS_mode (c : Course) (n : Nat) (v : W64) : (c.setS n v).mode = c.mode := by
  unfold Course.setS; split <;> rfl
@[simp] theorem Course.setS_exec (c : Course) (n : Nat) (v : W64) : (c.setS n v).exec = c.exec := by
  unfold Course.setS; split <;> rfl
@[simp] theorem Course.setS_fstat (c : Course) (n : Nat) (v : W64) : (c.setS n v).fstat = c.fstat := by
  unfold Course.setS; split <;> rfl
@[simp] theorem Course.setS_repst (c : Course) (n : Nat) (v : W64) : (c.setS n v).repst = c.repst := by
  unfold Course.setS; split <;> rfl
@[simp] theorem Course.setS_ctimer (c : Course) (n : Nat) (v : W64) : (c.setS n v).ctimer = c.ctimer := by
  unfold Course.setS; split <;> rfl
@[simp] theorem Course.setS_ctlim (c : Course) (n : Nat) (v : W64) : (c.setS n v).ctlim = c.ctlim := by
  unfold Course.setS; split <;> rfl
@[simp] theorem Course.setS_dtfrac (c : Course) (n : Nat) (v : W64) : (c.setS n v).dtfrac = c.dtfrac := by
  unfold Course.setS; split <;> rfl
@[simp] theorem Course.setS_stack (c : Course) (n : Nat) (v : W64) : (c.setS n v).stack = c.stack := by
  unfold Course.setS; split <;> rfl
@[simp] theorem Course.setS_depth (c : Course) (n : Nat) (v : W64) : (c.setS n v).depth = c.depth := by
  unfold Course.setS; split <;> rfl
@[simp] theorem Course.setS_tlev (c : Course) (n : Nat) (v : W64) : (c.setS n v).tlev = c.tlev := by
  unfold Course.setS; split <;> rfl
@[simp] theorem Course.setS_batches (c : Course) (n : Nat) (v : W64) : (c.setS n v).batches = c.batches := by
  unfold Course.setS; split <;> rfl
@[simp] theorem Course.setS_flights (c : Course) (n : Nat) (v : W64) : (c.setS n v).flights = c.flights := by
  unfold Course.setS; split <;> rfl
@[simp] theorem Course.setS_failed (c : Course) (n : Nat) (v : W64) : (c.setS n v).failed = c.failed := by
  unfold Course.setS; split <;> rfl
@[simp] theorem Course.setS_relBar (c : Course) (n : Nat) (v : W64) : (c.setS n v).relBar = c.relBar := by
  unfold Course.setS; split <;> rfl
@[simp] theorem Course.setS_wait (c : Course) (n : Nat) (v : W64) : (c.setS n v).wait = c.wait := by
  unfold Course.setS; split <;> rfl
@[simp] theorem Course.setS_sched (c : Course) (n : Nat) (v : W64) : (c.setS n v).sched = c.sched := by
  unfold Course.setS; split <;> rfl
@[simp] theorem Course.setS_entered (c : Course) (n : Nat) (v : W64) : (c.setS n v).entered = c.entered := by
  unfold Course.setS; split <;> rfl
@[simp] theorem Course.setS_since (c : Course) (n : Nat) (v : W64) : (c.setS n v).since = c.since := by
  unfold Course.setS; split <;> rfl
@[simp] theorem Course.setS_issued (c : Course) (n : Nat) (v : W64) : (c.setS n v).issued = c.issued := by
  unfold Course.setS; split <;> rfl
@[simp] theorem Course.setS_tried (c : Course) (n : Nat) (v : W64) : (c.setS n v).tried = c.tried := by
  unfold Course.setS; split <;> rfl
@[simp] theorem Course.setS_sync (c : Course) (n : Nat) (v : W64) : (c.setS n v).sync = c.sync := by
  unfold Course.setS; split <;> rfl
@[simp] theorem Course.setS_limit (c : Course) (n : Nat) (v : W64) : (c.setS n v).limit = c.limit := by
  unfold Course.setS; split <;> rfl
@[simp] theorem Course.setS_arb (c : Course) (n : Nat) (v : W64) : (c.setS n v).arb = c.arb := by
  unfold Course.setS; split <;> rfl
@[simp] theorem Course.setS_detUsed (c : Course) (n : Nat) (v : W64) : (c.setS n v).detUsed = c.detUsed := by
  unfold Course.setS; split <;> rfl
@[simp] theorem Course.setS_exited (c : Course) (n : Nat) (v : W64) : (c.setS n v).exited = c.exited := by
  unfold Course.setS; split <;> rfl
@[simp] theorem Course.setS_halted (c : Course) (n : Nat) (v : W64) : (c.setS n v).halted = c.halted := by
  unfold Course.setS; split <;> rfl
@[simp] theorem Course.setS_stepping (c : Course) (n : Nat) (v : W64) : (c.setS n v).stepping = c.stepping := by
  unfold Course.setS; split <;> rfl
@[simp] theorem Course.setS_armed (c : Course) (n : Nat) (v : W64) : (c.setS n v).armed = c.armed := by
  unfold Course.setS; split <;> rfl

/-! Course fields after `markS`. -/

@[simp] theorem Course.markS_pc (c : Course) (n : Nat) (b : Bool) : (c.markS n b).pc = c.pc := by
  unfold Course.markS; split <;> rfl
@[simp] theorem Course.markS_v (c : Course) (n : Nat) (b : Bool) : (c.markS n b).v = c.v := by
  unfold Course.markS; split <;> rfl
@[simp] theorem Course.markS_vfull (c : Course) (n : Nat) (b : Bool) : (c.markS n b).vfull = c.vfull := by
  unfold Course.markS; split <;> rfl
@[simp] theorem Course.markS_vpoison (c : Course) (n : Nat) (b : Bool) : (c.markS n b).vpoison = c.vpoison := by
  unfold Course.markS; split <;> rfl
@[simp] theorem Course.markS_s (c : Course) (n : Nat) (b : Bool) : (c.markS n b).s = c.s := by
  unfold Course.markS; split <;> rfl
@[simp] theorem Course.markS_spoison (c : Course) (n : Nat) (b : Bool) : (c.markS n b).spoison = c.spoison := by
  unfold Course.markS; split <;> rfl
@[simp] theorem Course.markS_rpoison (c : Course) (n : Nat) (b : Bool) : (c.markS n b).rpoison = c.rpoison := by
  unfold Course.markS; split <;> rfl
@[simp] theorem Course.markS_p (c : Course) (n : Nat) (b : Bool) : (c.markS n b).p = c.p := by
  unfold Course.markS; split <;> rfl
@[simp] theorem Course.markS_x (c : Course) (n : Nat) (b : Bool) : (c.markS n b).x = c.x := by
  unfold Course.markS; split <;> rfl
@[simp] theorem Course.markS_g (c : Course) (n : Nat) (b : Bool) : (c.markS n b).g = c.g := by
  unfold Course.markS; split <;> rfl
@[simp] theorem Course.markS_mode (c : Course) (n : Nat) (b : Bool) : (c.markS n b).mode = c.mode := by
  unfold Course.markS; split <;> rfl
@[simp] theorem Course.markS_exec (c : Course) (n : Nat) (b : Bool) : (c.markS n b).exec = c.exec := by
  unfold Course.markS; split <;> rfl
@[simp] theorem Course.markS_fstat (c : Course) (n : Nat) (b : Bool) : (c.markS n b).fstat = c.fstat := by
  unfold Course.markS; split <;> rfl
@[simp] theorem Course.markS_repst (c : Course) (n : Nat) (b : Bool) : (c.markS n b).repst = c.repst := by
  unfold Course.markS; split <;> rfl
@[simp] theorem Course.markS_ctimer (c : Course) (n : Nat) (b : Bool) : (c.markS n b).ctimer = c.ctimer := by
  unfold Course.markS; split <;> rfl
@[simp] theorem Course.markS_ctlim (c : Course) (n : Nat) (b : Bool) : (c.markS n b).ctlim = c.ctlim := by
  unfold Course.markS; split <;> rfl
@[simp] theorem Course.markS_dtfrac (c : Course) (n : Nat) (b : Bool) : (c.markS n b).dtfrac = c.dtfrac := by
  unfold Course.markS; split <;> rfl
@[simp] theorem Course.markS_stack (c : Course) (n : Nat) (b : Bool) : (c.markS n b).stack = c.stack := by
  unfold Course.markS; split <;> rfl
@[simp] theorem Course.markS_depth (c : Course) (n : Nat) (b : Bool) : (c.markS n b).depth = c.depth := by
  unfold Course.markS; split <;> rfl
@[simp] theorem Course.markS_tlev (c : Course) (n : Nat) (b : Bool) : (c.markS n b).tlev = c.tlev := by
  unfold Course.markS; split <;> rfl
@[simp] theorem Course.markS_batches (c : Course) (n : Nat) (b : Bool) : (c.markS n b).batches = c.batches := by
  unfold Course.markS; split <;> rfl
@[simp] theorem Course.markS_flights (c : Course) (n : Nat) (b : Bool) : (c.markS n b).flights = c.flights := by
  unfold Course.markS; split <;> rfl
@[simp] theorem Course.markS_failed (c : Course) (n : Nat) (b : Bool) : (c.markS n b).failed = c.failed := by
  unfold Course.markS; split <;> rfl
@[simp] theorem Course.markS_relBar (c : Course) (n : Nat) (b : Bool) : (c.markS n b).relBar = c.relBar := by
  unfold Course.markS; split <;> rfl
@[simp] theorem Course.markS_wait (c : Course) (n : Nat) (b : Bool) : (c.markS n b).wait = c.wait := by
  unfold Course.markS; split <;> rfl
@[simp] theorem Course.markS_sched (c : Course) (n : Nat) (b : Bool) : (c.markS n b).sched = c.sched := by
  unfold Course.markS; split <;> rfl
@[simp] theorem Course.markS_entered (c : Course) (n : Nat) (b : Bool) : (c.markS n b).entered = c.entered := by
  unfold Course.markS; split <;> rfl
@[simp] theorem Course.markS_since (c : Course) (n : Nat) (b : Bool) : (c.markS n b).since = c.since := by
  unfold Course.markS; split <;> rfl
@[simp] theorem Course.markS_issued (c : Course) (n : Nat) (b : Bool) : (c.markS n b).issued = c.issued := by
  unfold Course.markS; split <;> rfl
@[simp] theorem Course.markS_tried (c : Course) (n : Nat) (b : Bool) : (c.markS n b).tried = c.tried := by
  unfold Course.markS; split <;> rfl
@[simp] theorem Course.markS_sync (c : Course) (n : Nat) (b : Bool) : (c.markS n b).sync = c.sync := by
  unfold Course.markS; split <;> rfl
@[simp] theorem Course.markS_limit (c : Course) (n : Nat) (b : Bool) : (c.markS n b).limit = c.limit := by
  unfold Course.markS; split <;> rfl
@[simp] theorem Course.markS_arb (c : Course) (n : Nat) (b : Bool) : (c.markS n b).arb = c.arb := by
  unfold Course.markS; split <;> rfl
@[simp] theorem Course.markS_detUsed (c : Course) (n : Nat) (b : Bool) : (c.markS n b).detUsed = c.detUsed := by
  unfold Course.markS; split <;> rfl
@[simp] theorem Course.markS_exited (c : Course) (n : Nat) (b : Bool) : (c.markS n b).exited = c.exited := by
  unfold Course.markS; split <;> rfl
@[simp] theorem Course.markS_halted (c : Course) (n : Nat) (b : Bool) : (c.markS n b).halted = c.halted := by
  unfold Course.markS; split <;> rfl
@[simp] theorem Course.markS_stepping (c : Course) (n : Nat) (b : Bool) : (c.markS n b).stepping = c.stepping := by
  unfold Course.markS; split <;> rfl
@[simp] theorem Course.markS_armed (c : Course) (n : Nat) (b : Bool) : (c.markS n b).armed = c.armed := by
  unfold Course.markS; split <;> rfl

/-! The tables of the state read through their accessors. -/

@[simp] theorem Workgroup.setCrs_crs (w : Workgroup) (c : Nat) (k : Course) (j : Nat) :
    (w.setCrs c k).crs j = if j = c then k else w.crs j := by simp [Workgroup.setCrs, Workgroup.crs]
@[simp] theorem Seqr.setCtx_ctx (q : Seqr) (k : Nat) (x : Ctx) (j : Nat) :
    (q.setCtx k x).ctx j = if j = k then x else q.ctx j := by simp [Seqr.setCtx, Seqr.ctx]
@[simp] theorem State.setCrs_crs (s : State) (u c : Nat) (k : Course) (v d : Nat) :
    (s.setCrs u c k).crs v d = if v = u ∧ d = c then k else s.crs v d := by
  simp only [State.setCrs, State.crs, State.setWg_wg]
  by_cases h : v = u
  · subst h; simp
  · simp [h]
@[simp] theorem State.setCrs_wg (s : State) (u c : Nat) (k : Course) (v : Nat) :
    (s.setCrs u c k).wg v = if v = u then (s.wg u).setCrs c k else s.wg v := by simp [State.setCrs]
@[simp] theorem State.setCur_cur (s : State) (k : Course) : (s.setCur k).cur = k := by simp [State.setCur, State.cur]
@[simp] theorem State.setCur_curL (s : State) (k : Course) : (s.setCur k).curL = s.curL := by
  simp [State.setCur, State.curL, State.curG, State.curW, State.grid]
/-- The second of two replacements of the course that issues stands. -/
@[simp] theorem State.setCur_setCur (s : State) (k j : Course) : (s.setCur k).setCur j = s.setCur j := by
  simp [State.setCur, State.setCrs, State.setWg, State.wg, Workgroup.setCrs]
@[simp] theorem State.setCtx_ctx (s : State) (x : Ctx) : (s.setCtx x).ctx = x := by simp [State.setCtx, State.ctx]

/-! The registers of a course. -/

@[simp] theorem Course.setPred_pred (c : Course) (n : Nat) (m : W32) (j : Nat) :
    (c.setPred n m).pred j = if j = n then m else c.pred j := by simp [Course.setPred, Course.pred]
@[simp] theorem Course.setX_xreg (c : Course) (n : Nat) (x : XReg) (j : Nat) :
    (c.setX n x).xreg j = if j = n then x else c.xreg j := by simp [Course.setX, Course.xreg]
@[simp] theorem Course.setBatch_batch (c : Course) (n : Nat) (x : Batch) (j : Nat) :
    (c.setBatch n x).batch j = if j % 4 = n % 4 then x else c.batch j := by simp [Course.setBatch, Course.batch]
@[simp] theorem Course.markV_vIsFull (c : Course) (n : Nat) (b : Bool) (j : Nat) :
    (c.markV n b).vIsFull j = if j = n then b else c.vIsFull j := by simp [Course.markV, Course.vIsFull]
@[simp] theorem Course.setV_vreg (c : Course) (n : Nat) (m : W32) (f : Nat → W32) (j : Nat) :
    (c.setV n m f).vreg j =
      if j = n then Vector.ofFn fun l : Fin 32 => if m.getLsbD l.val then f l.val else (c.vreg n)[l.val] else c.vreg j := by
  simp only [Course.setV, Course.vreg, Tab.get_put]
/-- A scalar write: s0 stays zero (R240). -/
theorem Course.setS_sreg (c : Course) (n : Nat) (v : W64) (j : Nat) :
    (c.setS n v).sreg j = if j = n ∧ n ≠ 0 then v else c.sreg j := by
  unfold Course.setS Course.sreg
  by_cases hn : n = 0
  · subst hn; by_cases hj : j = 0 <;> simp [hj]
  · by_cases hj : j = n
    · subst hj; simp [hn]
    · by_cases h0 : j = 0
      · subst h0; simp [hj]
      · simp [hn, hj, h0]
@[simp] theorem Course.markS_sIsFull (c : Course) (n : Nat) (b : Bool) (j : Nat) :
    (c.markS n b).sIsFull j = if j = n ∧ n ≠ 0 then b else c.sIsFull j := by
  unfold Course.markS Course.sIsFull
  by_cases hn : n = 0
  · subst hn; by_cases hj : j = 0 <;> simp [hj]
  · by_cases hj : j = n
    · subst hj; simp [hn]
    · simp [hn, hj]

end Sys2Proof.Machine
end

