-- ==== Sys2Proof/Laws/Memory.lean ====
section
/-! SUPPORT. Memory: what a read gives after a write, and that every operation on memory keeps its canonical form. -/

namespace Sys2Proof.Machine

/-- A byte after bytes are placed: of the placed ones, the one at its place; elsewhere as before. -/
theorem get_putBytes (bs : List Byte) : ∀ (m : List Host.Cell) (pa a : Nat),
    Tab.get (0 : Byte) (putBytes m pa bs) a =
      if pa ≤ a ∧ a < pa + bs.length then bs.getD (a - pa) 0 else Tab.get (0 : Byte) m a := by
  induction bs with
  | nil => exact fun m pa a => (if_neg fun h => Nat.not_lt.mpr h.1 (by simpa using h.2)).symm
  | cons b r ih =>
    intro m pa a
    rw [putBytes, ih, Tab.get_put]
    by_cases h : a = pa
    · subst h; rw [if_neg (by omega), if_pos rfl, if_pos (by simp), Nat.sub_self, List.getD_cons_zero]
    · by_cases h2 : pa + 1 ≤ a ∧ a < pa + 1 + r.length
      · have e : a - pa = (a - (pa + 1)) + 1 := by omega
        rw [if_pos h2, if_pos (by simp only [List.length_cons]; omega), e, List.getD_cons_succ]
      · rw [if_neg h2, if_neg h, if_neg (by simp only [List.length_cons]; omega)]

/-- Placing bytes keeps the canonical form. -/
theorem putBytes_wf (bs : List Byte) : ∀ (m : List Host.Cell) (pa : Nat), Memory.wf m = true →
    Memory.wf (putBytes m pa bs) = true := by
  induction bs with
  | nil => exact fun _ _ h => h
  | cons b r ih => exact fun m pa h => ih _ _ (Tab.canon_put _ _ _ _ h)

/-- Reset memory has the canonical form. -/
theorem reset_wf : Memory.wf State.reset.mem = true := rfl

/-- Removing a slate leaves memory alone. -/
@[simp] theorem State.dropSlate_mem (s : State) (sl : Nat) : (s.dropSlate sl).mem = s.mem := by
  unfold State.dropSlate; split <;> rfl
/-- A place in a set leaves memory alone. -/
theorem State.roomAt_mem (s t : State) (h n : Nat) (e : s.roomAt h n = some t) : t.mem = s.mem := by
  unfold State.roomAt at e
  split at e
  · cases e; rfl
  · obtain ⟨v, -, rfl⟩ := Option.map_eq_some_iff.mp e
    split <;> simp
/-- Making room in a slice leaves memory alone. -/
theorem State.makeRoom_mem (s t : State) (p : Option Nat) (sl : Nat) (h : s.makeRoom p sl = some t) : t.mem = s.mem :=
  s.roomAt_mem t _ _ h
/-- A place for a reduction leaves memory alone. -/
theorem State.redRoom_mem (s t : State) (sl : Nat) (h : s.redRoom sl = some t) : t.mem = s.mem := by
  unfold State.redRoom at h
  split at h
  · rw [State.makeRoom_mem _ _ _ _ h, State.dropSlate_mem]
  · cases h; rfl
/-- Holding a slate leaves memory alone. -/
@[simp] theorem State.holdSlate_mem (s : State) (sl : Nat) : (s.holdSlate sl).mem = s.mem := by
  unfold State.holdSlate
  split
  · rfl
  · split
    · rfl
    · rename_i t h; exact State.makeRoom_mem s t _ _ h
/-- Changing a tag leaves memory alone. -/
@[simp] theorem State.touchTag_mem (s : State) (sl : Nat) (f : Tag → Tag) : (s.touchTag sl f).mem = s.mem := by
  unfold State.touchTag; split <;> simp
/-- What follows a write leaves memory alone. -/
@[simp] theorem State.noteWrite_mem (s : State) (pa n : Nat) : (s.noteWrite pa n).mem = s.mem := rfl
/-- The slates of a range held, memory is as before. -/
@[simp] theorem holdAll_mem : ∀ (l : List Nat) (s : State), (l.foldl State.holdSlate s).mem = s.mem := by
  intro l; induction l with
  | nil => exact fun _ => rfl
  | cons a r ih => exact fun s => by rw [List.foldl_cons, ih, State.holdSlate_mem]
/-- A write back leaves memory alone. -/
@[simp] theorem State.writeBack_mem (s : State) (sl : Nat) : (s.writeBack sl).mem = s.mem := by
  unfold State.writeBack; split <;> rfl

/-- A row write places its bytes. -/
@[simp] theorem State.write_mem (s : State) (pa : Nat) (bs : List Byte) : (s.write pa bs).mem = putBytes s.mem pa bs := by
  simp [State.write]
/-- An element of a column write places its bytes. -/
@[simp] theorem State.writeCol_mem (s : State) (pa : Nat) (bs : List Byte) :
    (s.writeCol pa bs).mem = putBytes s.mem pa bs := by simp [State.writeCol]

/-- A byte after a row write. -/
theorem State.write_byteAt (s : State) (pa : Nat) (bs : List Byte) (a : Nat) :
    (s.write pa bs).byteAt a = if pa ≤ a ∧ a < pa + bs.length then bs.getD (a - pa) 0 else s.byteAt a := by
  unfold State.byteAt; rw [State.write_mem, get_putBytes]

/-- A row write leaves every other byte alone. -/
theorem State.write_other (s : State) (pa : Nat) (bs : List Byte) (a : Nat) (h : a < pa ∨ pa + bs.length ≤ a) :
    (s.write pa bs).byteAt a = s.byteAt a := by rw [State.write_byteAt, if_neg (by omega)]

/-- The memory of a state has the canonical form. -/
def State.MemWf (s : State) : Prop := Memory.wf s.mem = true

/-- A fold of steps that keep a property keeps it. -/
theorem foldl_keeps {α σ : Type} (P : σ → Prop) (f : σ → α → σ) (h : ∀ s a, P s → P (f s a)) :
    ∀ (l : List α) (s : σ), P s → P (l.foldl f s) := by
  intro l; induction l with
  | nil => exact fun _ hs => hs
  | cons a r ih => exact fun s hs => ih _ (h s a hs)

/-- A row write keeps the form. -/
theorem State.write_wf (s : State) (pa : Nat) (bs : List Byte) (h : s.MemWf) : (s.write pa bs).MemWf := by
  unfold State.MemWf; rw [State.write_mem]; exact putBytes_wf _ _ _ h
/-- An element of a column write keeps the form. -/
theorem State.writeCol_wf (s : State) (pa : Nat) (bs : List Byte) (h : s.MemWf) : (s.writeCol pa bs).MemWf := by
  unfold State.MemWf; rw [State.writeCol_mem]; exact putBytes_wf _ _ _ h
/-- A long row write keeps the form. -/
theorem State.writeLong_wf (s : State) (pa : Nat) (bs : List Byte) (h : s.MemWf) : (s.writeLong pa bs).MemWf :=
  foldl_keeps State.MemWf _ (fun t _ ht => State.write_wf t _ _ ht) _ _ h
/-- The event of a poisoned unit leaves memory alone. -/
@[simp] theorem State.unitEvent_mem (s : State) (arr pa : Nat) : (s.unitEvent arr pa).mem = s.mem := rfl
/-- Applying a reduction keeps the form. -/
theorem State.applyRed_wf (s : State) (r : PRed) (h : s.MemWf) : (s.applyRed r).MemWf := by
  unfold State.applyRed
  simp only
  split <;> split <;> first | exact h | exact putBytes_wf _ _ _ h
/-- Settling a slate keeps the form. -/
theorem State.settle_wf (s : State) (sl : Nat) (h : s.MemWf) : (s.settle sl).MemWf :=
  foldl_keeps State.MemWf _ (fun t r ht => State.applyRed_wf t r ht) _ _ h
/-- Settling a range keeps the form. -/
theorem State.settleRange_wf (s : State) (pa n : Nat) (h : s.MemWf) : (s.settleRange pa n).MemWf :=
  foldl_keeps State.MemWf _ (fun t r ht => State.settle_wf t r ht) _ _ h
/-- A write at home keeps the form. -/
theorem State.homeWrite_wf (s : State) (pa : Nat) (bs : List Byte) (h : s.MemWf) : (s.homeWrite pa bs).MemWf :=
  State.writeLong_wf _ _ _ (State.settleRange_wf _ _ _ h)
/-- A read at home keeps the form. -/
theorem State.homeRead_wf (s : State) (pa n : Nat) (h : s.MemWf) : (s.homeRead pa n).1.MemWf := by
  unfold State.MemWf State.homeRead; simp only [holdAll_mem]; exact State.settleRange_wf _ _ _ h
/-- A read-modify-write at home keeps the form. -/
theorem State.homeRmw_wf (s : State) (pa op rm : Nat) (ftz : Bool) (v c : Nat) (h : s.MemWf) :
    (s.homeRmw pa op rm ftz v c).1.MemWf := State.write_wf _ _ _ (State.homeRead_wf _ _ _ h)
/-- A reduction that reaches its slice keeps the form. -/
theorem State.sendRed_wf (s : State) (r : PRed) (h : s.MemWf) : (s.sendRed r).MemWf := by
  unfold State.sendRed; simp only []
  split
  · rename_i t e; unfold State.MemWf; rw [show _ = s.mem from State.redRoom_mem s t _ e]; exact h
  · exact State.applyRed_wf _ _ (by unfold State.MemWf; rw [State.dropSlate_mem]; exact h)
/-- What a write does to a core's first-level cache leaves memory alone. -/
theorem State.writeThrough_wf (s : State) (w : PWrite) (pa : Nat) (h : s.MemWf) : (s.writeThrough w pa).MemWf := by
  unfold State.writeThrough; split
  · exact h
  · split
    · exact h
    · split <;> exact h
/-- A pending write that takes effect keeps the form. -/
theorem State.performWrite_wf (s : State) (w : PWrite) (h : s.MemWf) : (s.performWrite w).MemWf := by
  unfold State.performWrite; split
  · exact State.sendRed_wf _ _ (State.writeThrough_wf _ _ _ h)
  · split
    · exact State.writeThrough_wf _ _ _ (State.writeCol_wf _ _ _ (State.settle_wf _ _ h))
    · exact State.writeThrough_wf _ _ _ (State.write_wf _ _ _ (State.settle_wf _ _ h))
  · exact h
  · exact h
/-- A pending write, by its number, keeps the form. -/
theorem State.retireWrite_wf (s : State) (id : Nat) (h : s.MemWf) : (s.retireWrite id).MemWf := by
  unfold State.retireWrite; split
  · exact State.performWrite_wf _ _ h
  · exact h
/-- A course's writes that take effect keep the form. -/
theorem State.flushCrs_wf (s : State) (u c : Nat) (h : s.MemWf) : (s.flushCrs u c).MemWf :=
  foldl_keeps State.MemWf _
    (fun (t : State) (w : PWrite) (ht : t.MemWf) => by
      by_cases c1 : t.mayPerform u c w.id w.relBar [(w.tgt, w.width)] = true
      · rw [if_pos c1]; exact State.retireWrite_wf t w.id ht
      · rw [if_neg c1]; exact ht) _ _ h
/-- Those before an access of the course's own keep the form. -/
theorem State.flushOver_wf (s t : State) (u c pa n : Nat) (e : s.flushOver u c pa n = some t) (h : s.MemWf) : t.MemWf := by
  unfold State.flushOver at e
  split at e
  · cases e; exact s.flushCrs_wf u c h
  · cases e
/-- A workgroup's pending writes keep the form. -/
theorem State.flushWg_wf (s : State) (u : Nat) (h : s.MemWf) : (s.flushWg u).MemWf :=
  foldl_keeps State.MemWf _ (fun t w ht => State.retireWrite_wf t w.id ht) _ _ h

end Sys2Proof.Machine
end

