-- ==== Sys2Proof/Laws/Ops.lean ====
section
/-! SUPPORT. What the shared operations on a course do: the program counter, writing lanes and scalars, stepping index
registers, and the ALU instructions. -/

namespace Sys2Proof.Machine

-- ## Masks

/-- The sum of powers of two that a mask is built from. -/
theorem maskSum (f : Nat → Bool) (n : Nat) :
    (List.range n).foldl (fun acc l => if f l then acc + 2 ^ l else acc) 0 < 2 ^ n ∧
    ∀ l, ((List.range n).foldl (fun acc l => if f l then acc + 2 ^ l else acc) 0).testBit l = (decide (l < n) && f l) := by
  induction n with
  | zero => simp
  | succ n ih =>
    obtain ⟨hlt, hb⟩ := ih
    simp only [List.range_succ, List.foldl_append, List.foldl_cons, List.foldl_nil]
    generalize hx : (List.range n).foldl (fun acc l => if f l then acc + 2 ^ l else acc) 0 = x at hlt hb ⊢
    cases hf : f n
    · refine ⟨by simp; rw [Nat.pow_succ]; omega, fun l => ?_⟩
      simp only [Bool.false_eq_true, if_false, hb]
      by_cases h : l = n
      · subst h; simp [hf]
      · by_cases h2 : l < n
        · simp [h2, Nat.lt_succ_of_lt h2]
        · have : ¬ l < n + 1 := by omega
          simp [h2, this]
    · refine ⟨by simp; rw [Nat.pow_succ]; omega, fun l => ?_⟩
      simp only [if_true]
      rw [Nat.add_comm]
      rcases Nat.lt_trichotomy l n with h | h | h
      · rw [Nat.testBit_two_pow_add_gt h, hb]; simp [h, Nat.lt_succ_of_lt h]
      · subst h; rw [Nat.testBit_two_pow_add_eq, hb]; simp [hf]
      · have : ¬ l < n + 1 := by omega
        rw [Nat.testBit_lt_two_pow]
        · simp [this]
        · calc 2 ^ n + x < 2 ^ n + 2 ^ n := by omega
            _ = 2 ^ (n + 1) := by rw [Nat.pow_succ]; omega
            _ ≤ 2 ^ l := Nat.pow_le_pow_right (by omega) (by omega)

/-- A bit of a mask. -/
@[simp] theorem maskOf_bit (f : Nat → Bool) (l : Nat) : (maskOf f).getLsbD l = (decide (l < 32) && f l) := by
  unfold maskOf
  rw [BitVec.getLsbD_ofNat, (maskSum f 32).2]
  cases decide (l < 32) <;> simp

-- ## Lanes

/-- A lane after a write of a vector register. -/
theorem Course.setV_lane (c : Course) (n : Nat) (m : W32) (f : Nat → W32) (r l : Nat) (hl : l < 32) :
    (c.setV n m f).lane r l = if m.getLsbD l ∧ n = r then f l else c.lane r l := by
  unfold Course.lane
  rw [Course.setV_vreg]
  by_cases h : r = n
  · subst h
    simp [hl, Array.getD]
  · simp [h, Ne.symm h]

/-- A lane after writes of several registers, each in the lanes that name it. -/
theorem foldl_setV_lane (m : W32) (reg : Nat → Nat) (f : Nat → W32) (r l : Nat) (hl : l < 32) :
    ∀ (ns : List Nat) (c : Course),
      (ns.foldl (fun k n => k.setV n (maskOf fun l => m.getLsbD l && decide (reg l = n)) f) c).lane r l =
        if reg l ∈ ns ∧ m.getLsbD l ∧ reg l = r then f l else c.lane r l := by
  intro ns
  induction ns with
  | nil => intro c; simp
  | cons n ns ih =>
    intro c
    rw [List.foldl_cons, ih, Course.setV_lane _ _ _ _ _ _ hl]
    simp only [maskOf_bit, hl, decide_true, Bool.true_and, Bool.and_eq_true, decide_eq_true_eq, List.mem_cons]
    grind

/-- The lanes of a destination after a write. -/
theorem Course.writeLanes_hold (c : Course) (d : Opnd) (m : W32) (f : Nat → W32) : LanesHold c (c.writeLanes d m f) d m f := by
  intro r l hl
  cases d with
  | v n => simp only [Course.writeLanes, Course.dstReg, Course.setV_lane _ _ _ _ _ _ hl, Option.some.injEq]
  | s n => simp [Course.writeLanes, Course.dstReg]
  | x x =>
    simp only [Course.writeLanes, Course.dstReg, Option.some.injEq]
    rw [foldl_setV_lane _ _ _ _ _ hl]
    have h : m.getLsbD l = true → (c.xreg x).reg l ∈ ((lanesOf m).map (c.xreg x).reg).eraseDups := by
      intro hm
      rw [List.mem_eraseDups, List.mem_map]
      exact ⟨l, by simp [lanesOf, hl, hm], rfl⟩
    by_cases hm : m.getLsbD l = true
    · simp [hm, h hm]
    · simp [hm]

/-- What writes of vector registers leave alone. -/
theorem foldl_setV_keeps (m : Nat → W32) (f : Nat → W32) : ∀ (ns : List Nat) (c : Course),
    CourseKeeps c (ns.foldl (fun k n => k.setV n (m n) f) c) [.vregs, .poison]
      ∧ (ns.foldl (fun k n => k.setV n (m n) f) c).spoison = c.spoison := by
  intro ns
  induction ns with
  | nil => intro c; exact ⟨fun p hp => by cases p <;> simp_all [Part.same], rfl⟩
  | cons n ns ih =>
    intro c
    refine ⟨fun p hp => ?_, by rw [List.foldl_cons, (ih _).2, Course.setV_spoison]⟩
    have := (ih (c.setV n (m n) f)).1 p hp
    cases p <;> simp_all [Part.same, Course.setV, Course.vIsFull, Course.sIsFull, Course.sreg, Course.pred, Course.xreg,
      Course.gen, Course.batch, Course.stripBad]

/-- A write of lanes leaves everything but the vector registers and their poison alone. -/
theorem Course.writeLanes_keeps (c : Course) (d : Opnd) (m : W32) (f : Nat → W32) :
    CourseKeeps c (c.writeLanes d m f) [.vregs, .poison] ∧ (c.writeLanes d m f).spoison = c.spoison := by
  cases d with
  | v n => exact foldl_setV_keeps (fun _ => m) f [n] c
  | s n => exact ⟨fun p _ => by cases p <;> simp [Part.same, Course.writeLanes], rfl⟩
  | x x => exact foldl_setV_keeps _ f _ c

-- ## Scalars

/-- A scalar destination after a write. -/
theorem Course.writeScalar_holds (c : Course) (d : Opnd) (v : W64) : ScalarHolds c (c.writeScalar d v) d v := by
  intro r
  cases d with
  | s n =>
    rw [Course.writeScalar, Course.setS_sreg]
    by_cases h : r = n
    · subst h; simp
    · simp [h, Ne.symm h]
  | v n => simp [Course.writeScalar]
  | x n => simp [Course.writeScalar]

/-- A scalar write leaves everything but the scalar registers alone. -/
theorem Course.writeScalar_keeps (c : Course) (d : Opnd) (v : W64) : CourseKeeps c (c.writeScalar d v) [.sregs] := by
  intro p hp
  cases d <;> cases p <;>
    simp_all [Part.same, Course.writeScalar, Course.vIsFull, Course.sIsFull, Course.vreg, Course.pred, Course.xreg,
      Course.gen, Course.batch, Course.stripBad]

-- ## Index registers

/-- Duplicates erased, none is left. -/
theorem nodup_eraseDups {α : Type} [BEq α] [LawfulBEq α] : ∀ (n : Nat) (l : List α), l.length ≤ n → l.eraseDups.Nodup := by
  intro n
  induction n with
  | zero =>
    intro l h
    rw [List.length_eq_zero_iff.mp (Nat.le_zero.mp h)]; simp
  | succ n ih =>
    intro l h
    cases l with
    | nil => simp
    | cons a as =>
      rw [List.eraseDups_cons, List.nodup_cons]
      refine ⟨by simp, ih _ ?_⟩
      have := List.length_filter_le (fun b => !b == a) as
      simp only [List.length_cons] at h
      omega

/-- Index registers after steps, each once. -/
theorem foldl_step (m : W32) : ∀ (xs : List Nat) (c : Course), xs.Nodup →
    (∀ x, (xs.foldl (fun k x => k.setX x ((k.xreg x).stepped m)) c).xreg x
      = if x ∈ xs then (c.xreg x).stepped m else c.xreg x)
    ∧ CourseKeeps c (xs.foldl (fun k x => k.setX x ((k.xreg x).stepped m)) c) [.index] := by
  intro xs
  induction xs with
  | nil => intro c _; exact ⟨fun x => by simp, fun p _ => by cases p <;> simp [Part.same]⟩
  | cons y ys ih =>
    intro c hn
    rw [List.nodup_cons] at hn
    rw [List.foldl_cons]
    obtain ⟨h1, h2⟩ := ih (c.setX y ((c.xreg y).stepped m)) hn.2
    refine ⟨fun x => ?_, fun p hp => ?_⟩
    · rw [h1]
      by_cases hx : x = y
      · subst hx; simp [hn.1]
      · simp [hx]
    · have := h2 p hp
      cases p <;> simp_all [Part.same, Course.vIsFull, Course.sIsFull, Course.vreg, Course.sreg, Course.pred,
        Course.gen, Course.batch, Course.stripBad]

/-- The index registers of the fields have stepped, and nothing else has changed. -/
theorem Course.stepIndexes_step (c : Course) (os : List Opnd) :
    IndexesStep c (c.stepIndexes os) os ∧ CourseKeeps c (c.stepIndexes os) [.index] := by
  have h := foldl_step c.active (indexRegs os) c (nodup_eraseDups _ _ (Nat.le_refl _))
  exact ⟨h.1, h.2⟩

-- ## The program counter

/-- What moving past an instruction changes. -/
theorem Course.advance_keeps (c : Course) (r : Bool) (n : Nat) :
    CourseKeeps c (c.advance r n) [.pc, .repst, .waiting] ∧ (c.advance r n).sched = c.sched := by
  unfold Course.advance
  refine ⟨fun p hp => ?_, ?_⟩
  · split
    · split <;> cases p <;> simp_all [Part.same, Course.awake, Course.vIsFull, Course.sIsFull, Course.vreg, Course.sreg,
        Course.pred, Course.xreg, Course.gen, Course.batch, Course.stripBad]
    · cases p <;> simp_all [Part.same, Course.awake, Course.vIsFull, Course.sIsFull, Course.vreg, Course.sreg,
        Course.pred, Course.xreg, Course.gen, Course.batch, Course.stripBad]
  · split
    · split <;> rfl
    · rfl

/-- Where the program counter goes. -/
theorem State.retire_past (s : State) (k : Course) (n : Nat) (h : k.pc = s.cur.pc) (h2 : k.repst = s.cur.repst) :
    PastInstr s ((s.setCur k).retire n) n := by
  unfold PastInstr State.retire Course.advance
  simp only [State.setCur_setCur, State.setCur_cur, State.setCur_inRep, Course.repDone, Course.repCount, h2]
  split
  · split <;> simp [h, Course.awake]
  · simp [h, h2, Course.awake]

/-- Parts kept in turn. -/
theorem CourseKeeps.trans {c k j : Course} {ps qs : List Part} (h : CourseKeeps c k ps) (g : CourseKeeps k j qs) :
    CourseKeeps c j (ps ++ qs) := by
  intro p hp
  rw [List.mem_append, not_or] at hp
  have a := h p hp.1
  have b := g p hp.2
  cases p <;> simp_all [Part.same]

/-- Fewer parts kept. -/
theorem CourseKeeps.mono {c k : Course} {ps qs : List Part} (h : CourseKeeps c k ps) (g : ∀ p ∈ ps, p ∈ qs) :
    CourseKeeps c k qs := fun p hp => h p fun x => hp (g p x)

/-- Flags change FSTAT alone. -/
theorem Course.flag_keeps (c : Course) (f : Nat) : CourseKeeps c (c.flag f) [.fstat] := by
  intro p hp
  cases p <;> simp_all [Part.same, Course.vIsFull, Course.sIsFull, Course.vreg, Course.sreg, Course.pred, Course.xreg,
    Course.gen, Course.batch, Course.stripBad]

/-- What an instruction that computes on the course's own registers leaves. -/
theorem State.retire_changes (s : State) (k : Course) (n : Nat) (ps : List Part) (h : CourseKeeps s.cur k ps) :
    Changes s ((s.setCur k).retire n) (ps ++ [.pc, .repst, .waiting]) := by
  refine ⟨by simp [State.retire], ?_⟩
  simp only [State.retire, State.setCur_setCur, State.setCur_cur, State.setCur_inRep]
  exact h.trans (Course.advance_keeps _ _ _).1

/-- What an ALU instruction leaves (R241, R220). -/
theorem State.alu_leaves (s : State) (n : Nat) (d : Opnd) (srcs : List Opnd) (fs : List W64 → W64 × Nat)
    (fv : List W32 → W32 × Nat) : AluLeaves s (s.alu n d srcs fs fv) n d srcs fs fv := by
  unfold AluLeaves State.alu
  simp only []
  by_cases hs : allScalar (d :: srcs) = true
  · rw [if_pos hs, if_pos hs]
    have hk := (Course.writeScalar_keeps s.cur d (fs (srcs.map s.cur.src64)).1).trans
      (Course.flag_keeps _ (fs (srcs.map s.cur.src64)).2)
    generalize hkk : (s.cur.writeScalar d (fs (srcs.map s.cur.src64)).1).flag (fs (srcs.map s.cur.src64)).2 = k at hk
    have ha := Course.advance_keeps k s.inRep n
    have hcur : ((s.setCur k).retire n).cur = k.advance s.inRep n := by simp [State.retire]
    refine ⟨⟨by simp [State.retire], ?_⟩, ?_, ?_, ?_, ?_, ?_, ?_, ?_⟩
    · rw [hcur]; exact (hk.trans ha.1).mono (by simp)
    · exact State.retire_past s k n (hk .pc (by simp)) (hk .repst (by simp))
    · rw [hcur, ha.2]; exact (hk .waiting (by simp)).2
    · intro r
      rw [hcur, ha.1 .sregs (by simp) r, ← hkk]
      have := Course.writeScalar_holds s.cur d (fs (srcs.map s.cur.src64)).1 r
      rw [← this]; rfl
    · intro r; rw [hcur, ha.1 .vregs (by simp) r, hk .vregs (by simp) r]
    · rw [hcur, ha.1 .fstat (by simp), ← hkk]
      simp only [Course.flag]
      rw [(Course.writeScalar_keeps s.cur d _) .fstat (by simp)]
    · intro x; rw [hcur, ha.1 .index (by simp) x, hk .index (by simp) x]
    · rw [hcur]
      exact ⟨(ha.1 .poison (by simp)).1.trans (hk .poison (by simp)).1, (ha.1 .poison (by simp)).2.trans (hk .poison (by simp)).2⟩
  · rw [if_neg hs, if_neg hs]
    obtain ⟨hw, hsp⟩ := Course.writeLanes_keeps s.cur d s.cur.active (fun l => (fv (srcs.map fun o => s.cur.src o l)).1)
    have hl := Course.writeLanes_hold s.cur d s.cur.active (fun l => (fv (srcs.map fun o => s.cur.src o l)).1)
    generalize hk1 : s.cur.writeLanes d s.cur.active (fun l => (fv (srcs.map fun o => s.cur.src o l)).1) = k1 at hw hsp hl
    have hf := Course.flag_keeps k1 ((lanesOf s.cur.active).foldl (fun a l => a ||| (fv (srcs.map fun o => s.cur.src o l)).2) 0)
    generalize hk2 : k1.flag ((lanesOf s.cur.active).foldl (fun a l => a ||| (fv (srcs.map fun o => s.cur.src o l)).2) 0) = k2 at hf
    obtain ⟨hx, hi⟩ := Course.stepIndexes_step k2 (d :: srcs)
    generalize hk3 : k2.stepIndexes (d :: srcs) = k3 at hx hi
    have ha := Course.advance_keeps k3 s.inRep n
    have hcur : ((s.setCur k3).retire n).cur = k3.advance s.inRep n := by simp [State.retire]
    have h13 := hf.trans hi
    have h03 := hw.trans h13
    refine ⟨⟨by simp [State.retire], ?_⟩, ?_, ?_, ?_, ?_, ?_, ?_, ?_⟩
    · rw [hcur]; exact (h03.trans ha.1).mono (by simp)
    · exact State.retire_past s k3 n (h03 .pc (by simp)) (h03 .repst (by simp))
    · rw [hcur, ha.2]; exact (h03 .waiting (by simp)).2
    · intro r l hlt
      have e : (k3.advance s.inRep n).lane r l = k1.lane r l := by
        unfold Course.lane; rw [ha.1 .vregs (by simp) r, h13 .vregs (by simp) r]
      rw [hcur, e]; exact hl r l hlt
    · intro r; rw [hcur, ha.1 .sregs (by simp) r, h03 .sregs (by simp) r]
    · rw [hcur, (ha.1 .poison (by simp)).2, (h13 .poison (by simp)).2, hsp]
    · rw [hcur, ha.1 .fstat (by simp), hi .fstat (by simp), ← hk2]
      simp only [Course.flag]
      rw [hw .fstat (by simp)]
    · intro x
      have hm : k2.mode = s.cur.mode := (hw.trans hf) .mode (by simp)
      have he : k2.exec = s.cur.exec := (hw.trans hf) .exec (by simp)
      have hp : k2.pred = s.cur.pred := funext ((hw.trans hf) .preds (by simp))
      have hact : k2.active = s.cur.active := by simp only [Course.active, Course.guard, hm, he, hp]
      have hxr : k2.xreg x = s.cur.xreg x := (hw.trans hf) .index (by simp) x
      rw [hcur, ha.1 .index (by simp) x, hx x, hxr, hact]

end Sys2Proof.Machine
end

