-- ==== Sys2Proof/Tests/Slice0.lean ====
section
/-! SUPPORT. The model's own tests: which terms are no instructions, what words of the manual decode to, single steps with
results that the manual gives, and a witness for the hypotheses of every statement. -/

namespace Sys2Proof.Tests

open Sys2Proof Sys2Proof.Machine

-- One check after another: each of these theorems waits for the kernel, and a thread for each is more than memory holds.
set_option Elab.async false

/-- A machine with one workgroup of one course on core 0, MODE zero, all registers zero and full. -/
def small : State := State.reset.withFetchWord 32 0

/-- A state whose issuing course is changed. -/
def onCur (s : State) (f : Course → Course) : State := s.setCur (f s.cur)

/-- MODE with an element type and a rounding mode. -/
def moded (ty rm : Nat) : State := onCur small fun c => { c with mode := BitVec.ofNat 32 (ty * 32 + rm * 1024) }

/-- Scalar register `n` of the issuing course set. -/
def withS (s : State) (n : Nat) (w : W64) : State := onCur s fun c => { c with s := Tab.put 0 c.s n w }

/-- The launch packet of the one grid changed. -/
def onLaunch (s : State) (f : Launch → Launch) : State := s.setGrid 1 { s.grid 1 with launch := f (s.grid 1).launch }

/-- The one workgroup changed. -/
def onWg (s : State) (f : Workgroup → Workgroup) : State := s.setWg 0 (f (s.wg 0))

/-- Page tables at 0, 0x2000 and 0x4000 that map the first 64 MiB to themselves for every kind of access, and a handler. -/
def paged : State :=
  let t := { small with mem := putBytes (putBytes (putBytes small.mem 0 (bytesOf 8 0x2001)) 0x2000 (bytesOf 8 0x4001)) 0x4000 (bytesOf 8 0xF3) }
  onLaunch t fun l => { l with handler := 0x20000 }

/-- The value of a memory operation that is done. -/
def value {α : Type} (x : α) : Did α → α
  | .ok y => y
  | _ => x

/-- The operation is done. -/
def isDone {α : Type} : Did α → Bool
  | .ok _ => true
  | _ => false

theorem done_value {α : Type} (x : α) (d : Did α) (h : isDone d = true) : d = .ok (value x d) := by
  cases d <;> simp_all [isDone, value]

theorem done_pair {α : Type} (x : α × Nat) (d : Did (α × Nat)) (n : Nat) (h : isDone d = true) (hn : (value x d).2 = n) :
    d = .ok ((value x d).1, n) := by
  subst hn
  exact done_value x d h

theorem done_both {α β : Type} (x : α × β) (d : Did (α × β)) (h : isDone d = true) : d = .ok ((value x d).1, (value x d).2) :=
  done_value x d h

/-- The value of a check or a translation that succeeds. -/
def got {ε α : Type} (x : α) : Except ε α → α
  | .ok y => y
  | .error _ => x

/-- It succeeds. -/
def good {ε α : Type} : Except ε α → Bool
  | .ok _ => true
  | .error _ => false

theorem good_got {ε α : Type} (x : α) (d : Except ε α) (h : good d = true) : d = .ok (got x d) := by
  cases d <;> simp_all [good, got]

theorem good_pair {ε α β : Type} (x : α × β) (d : Except ε (α × β)) (h : good d = true) : d = .ok ((got x d).1, (got x d).2) := by
  cases d <;> simp_all [good, got]

theorem good_triple {ε α β γ : Type} (x : α × β × γ) (d : Except ε (α × β × γ)) (h : good d = true) :
    d = .ok ((got x d).1, (got x d).2.1, (got x d).2.2) := by
  cases d <;> simp_all [good, got]

theorem good_unit {ε : Type} (d : Except ε Unit) (h : good d = true) : d = .ok () := by
  cases d <;> simp_all [good]

theorem good_eq {ε α : Type} (x y : α) (d : Except ε α) (h : good d = true) (e : got x d = y) : d = .ok y := by
  subst e
  exact good_got x d h

/-- What a translation that succeeds gives. -/
def transGot (s : State) (x : Xlat) : Trans → State × Xlat
  | .ok t y => (t, y)
  | _ => (s, x)

/-- It succeeds. -/
def transOk : Trans → Bool
  | .ok _ _ => true
  | _ => false

theorem trans_ok (s : State) (x : Xlat) (d : Trans) (h : transOk d = true) : d = .ok (transGot s x d).1 (transGot s x d).2 := by
  cases d <;> simp_all [transOk, transGot]

/-- The state of one that waits, or the given one. -/
def transHeld (s : State) : Trans → State
  | .wait t => t
  | _ => s

/-- It waits for its walk. -/
def transWaits : Trans → Bool
  | .wait _ => true
  | _ => false

theorem trans_wait (s : State) (d : Trans) (h : transWaits d = true) : d = .wait (transHeld s d) := by
  cases d <;> simp_all [transWaits, transHeld]

theorem trans_fault (d : Trans) (h : (transWaits d || transOk d) = false) : ∃ t f, d = .fault t f := by
  cases d <;> simp_all [transWaits, transOk]

/-- A course in MODE `ty` with scalar register 1 set, on a page that admits every access. -/
def at1 (ty : Nat) (a : W64) : State :=
  let t := withS (moded ty 0) 1 a
  t.setCore 0 { t.core 0 with tlb := [tlbEntry 1 0x10000 0x100F3 0] }

/-- The lanes of EXEC set. -/
def active (s : State) (m : W32) : State := onCur s fun c => { c with exec := m }

/-- Every lane's access is in a scratchpad. -/
def inScratch (u : Nat) (ls : List LaneAcc) : Bool := ls.all fun a => match a.tgt with | .scratch v _ => decide (v = u) | _ => false

theorem scratch_of (u : Nat) (ls : List LaneAcc) (h : inScratch u ls = true) : InScratch u ls := by
  intro a ha
  have := (List.all_eq_true.mp h) a ha
  cases hx : a.tgt <;> simp_all

/-- Every lane's access is in stack memory. -/
def inMemory (ls : List LaneAcc) : Bool := ls.all fun a => match a.tgt with | .stack _ => true | _ => false

theorem memory_of (ls : List LaneAcc) (h : inMemory ls = true) : ∀ a ∈ ls, ∃ pa, a.tgt = .stack pa := by
  intro a ha
  have := (List.all_eq_true.mp h) a ha
  cases hx : a.tgt <;> simp_all

/-- Words of the table and the layouts of R258, R262 to R276; the words that the manual prints beside their assembly are among them. -/
theorem test_words_control :
    decodeCore [0x00000000] = .ok (.nop)
    ∧ decodeCore [0x023FFFFB] = .ok (.br (-5))
    ∧ decodeCore [0x04400006] = .ok (.brd 1 6)
    ∧ decodeCore [0x06FFFFEC] = .ok (.brany 3 (-20))
    ∧ decodeCore [0x08000000] = .ok (.join)
    ∧ decodeCore [0x0BE00000] = .ok (.call 7 (-2097152))
    ∧ decodeCore [0x0D858600] = .ok (.callr (.s 2) (.s 3))
    ∧ decodeCore [0x0E018400] = .ok (.ret (.s 2))
    ∧ decodeCore [0x10019394] = .ok (.jmpr (.s 9) (.s 10))
    ∧ decodeCore [0x12000000] = .ok (.exit)
    ∧ decodeCore [0x140000FF] = .ok (.trap 255)
    ∧ decodeCore [0x16000007] = .ok (.brk 7)
    ∧ decodeCore [0x1801DE00] = .ok (.modew (.s 47))
    ∧ decodeCore [0x1A020004] = .ok (.modef 1 4)
    ∧ decodeCore [0x1A000011] = .ok (.modef 0 17)
    ∧ decodeCore [0x1D820000] = .ok (.moder (.s 1))
    ∧ decodeCore [0x1E084400] = .ok (.rep (.imm 4) 2 2 0)
    ∧ decodeCore [0x1F8B0FE1] = .ok (.rep (.reg 5) (-8) 7 (-1)) := by
  and_intros <;> rfl

/-- Words of the table and the layouts of R258, R279 to R282; the words that the manual prints beside their assembly are among them. -/
theorem test_words_integer :
    decodeCore [0x2006080A] = .ok (.iadd (.v 3) (.v 4) (.v 5) false)
    ∧ decodeCore [0x221BA01A] = .ok (.isub (.v 13) (.s 16) (.v 13) false)
    ∧ decodeCore [0x2407DFE4] = .ok (.imul (.v 3) (.s 47) (.x 2) false)
    ∧ decodeCore [0x2609DFE7] = .ok (.imulh (.v 4) (.s 47) (.x 3) true)
    ∧ decodeCore [0x280BDFE8] = .ok (.imad (.v 5) (.s 47) (.x 4) false)
    ∧ decodeCore [0x2A0DDFEB] = .ok (.idiv (.v 6) (.s 47) (.x 5) true)
    ∧ decodeCore [0x2C0FDFEC] = .ok (.irem (.v 7) (.s 47) (.x 6) false)
    ∧ decodeCore [0x2E11DFEF] = .ok (.imin (.v 8) (.s 47) (.x 7) true)
    ∧ decodeCore [0x3013DFF0] = .ok (.imax (.v 9) (.s 47) (.x 8) false)
    ∧ decodeCore [0x337FFE01] = .ok (.iabs (.v 191) (.x 15) true) := by
  and_intros <;> rfl

/-- Words of the table and the layouts of R258, R279 to R283; the words that the manual prints beside their assembly are among them. -/
theorem test_words_bits :
    decodeCore [0x3417DFF4] = .ok (.and (.v 11) (.s 47) (.x 10) false)
    ∧ decodeCore [0x3619DFF7] = .ok (.or (.v 12) (.s 47) (.x 11) true)
    ∧ decodeCore [0x381BDFF8] = .ok (.xor (.v 13) (.s 47) (.x 12) false)
    ∧ decodeCore [0x3A1DDFFB] = .ok (.shl (.v 14) (.s 47) (.x 13) true)
    ∧ decodeCore [0x3D89878A] = .ok (.shr (.s 4) (.s 3) (.s 5) false)
    ∧ decodeCore [0x3E21DFFF] = .ok (.sar (.v 16) (.s 47) (.x 15) true)
    ∧ decodeCore [0x417FFE00] = .ok (.popc (.v 191) (.x 15) false)
    ∧ decodeCore [0x421A1A00] = .ok (.clz (.v 13) (.v 13) false)
    ∧ decodeCore [0x4427DFE4] = .ok (.bfx (.v 19) (.s 47) (.x 2) false)
    ∧ decodeCore [0x4629DFE7] = .ok (.bfi (.v 20) (.s 47) (.x 3) true)
    ∧ decodeCore [0x498B8BFF] = .ok (.iaddi (.s 5) (.s 5) (-1))
    ∧ decodeCore [0x49E1E001] = .ok (.iaddi (.x 0) (.x 0) 1)
    ∧ decodeCore [0x4A12103F] = .ok (.shli (.v 9) (.v 8) 63)
    ∧ decodeCore [0x4C41E600] = .ok (.mov (.v 32) (.x 3) false)
    ∧ decodeCore [0x4E040000, 0x00000007] = .ok (.lit (.v 2) false 7)
    ∧ decodeCore [0x4F880002, 0x00000100] = .ok (.lit (.s 4) true 0x100) := by
  and_intros <;> rfl

/-- Words of the table and the layouts of R258, R284; the words that the manual prints beside their assembly are among them. -/
theorem test_words_float :
    decodeCore [0x50281186] = .ok (.fadd (.v 20) (.v 8) (.s 3) false)
    ∧ decodeCore [0x5205DFE3] = .ok (.fsub (.v 2) (.s 47) (.x 1) true)
    ∧ decodeCore [0x5407DFE4] = .ok (.fmul (.v 3) (.s 47) (.x 2) false)
    ∧ decodeCore [0x5609DFE7] = .ok (.fma (.v 4) (.s 47) (.x 3) true)
    ∧ decodeCore [0x580BDFE8] = .ok (.fnma (.v 5) (.s 47) (.x 4) false)
    ∧ decodeCore [0x5A0DDFEB] = .ok (.fdiv (.v 6) (.s 47) (.x 5) true)
    ∧ decodeCore [0x5D7FFE00] = .ok (.fsqrt (.v 191) (.x 15) false)
    ∧ decodeCore [0x5F7FFE01] = .ok (.frsq (.v 191) (.x 15) true)
    ∧ decodeCore [0x617FFE00] = .ok (.frcp (.v 191) (.x 15) false)
    ∧ decodeCore [0x6215DFF3] = .ok (.fmin (.v 10) (.s 47) (.x 9) true)
    ∧ decodeCore [0x6417DFF4] = .ok (.fmax (.v 11) (.s 47) (.x 10) false)
    ∧ decodeCore [0x677FFE01] = .ok (.fabs (.v 191) (.x 15) true)
    ∧ decodeCore [0x697FFE00] = .ok (.fneg (.v 191) (.x 15) false)
    ∧ decodeCore [0x6B7FFE01] = .ok (.fexp2 (.v 191) (.x 15) true)
    ∧ decodeCore [0x6D7FFE00] = .ok (.flog2 (.v 191) (.x 15) false)
    ∧ decodeCore [0x6F7FFE01] = .ok (.fsin (.v 191) (.x 15) true)
    ∧ decodeCore [0x717FFE00] = .ok (.fcos (.v 191) (.x 15) false)
    ∧ decodeCore [0x737FFE01] = .ok (.frint (.v 191) (.x 15) true)
    ∧ decodeCore [0x7427DFE4] = .ok (.fsgn (.v 19) (.s 47) (.x 2) false)
    ∧ decodeCore [0x7629DFE7] = .ok (.fscale (.v 20) (.s 47) (.x 3) true) := by
  and_intros <;> rfl

/-- Words of the table and the layouts of R258, R285 to R289; the words that the manual prints beside their assembly are among them. -/
theorem test_words_compare :
    decodeCore [0x7824080A] = .ok (.icmp 2 2 (.v 4) (.v 5) false)
    ∧ decodeCore [0x78459606] = .ok (.icmp 2 4 (.s 11) (.v 3) false)
    ∧ decodeCore [0x7A7E0205] = .ok (.fcmp 7 7 (.v 1) (.v 2) true)
    ∧ decodeCore [0x7C3C0C04] = .ok (.plog 6 3 6 2)
    ∧ decodeCore [0x7F860E00] = .ok (.prd (.s 3) 7)
    ∧ decodeCore [0x800A1800] = .ok (.pwr 5 (.v 12) false)
    ∧ decodeCore [0x82020407] = .ok (.sel (.v 1) (.v 2) (.v 3) true)
    ∧ decodeCore [0x8422000A] = .ok (.icmpi 1 2 (.v 0) 10)
    ∧ decodeCore [0x86020401] = .ok (.fclass (.v 1) (.v 2) true) := by
  and_intros <;> rfl

/-- Words of the table and the layouts of R258, R290 to R293; the words that the manual prints beside their assembly are among them. -/
theorem test_words_convert :
    decodeCore [0x88020415] = .ok (.cvt (.v 1) (.v 2) 10 true)
    ∧ decodeCore [0x8A02041F] = .ok (.cvts (.v 1) (.v 2) true 7 true)
    ∧ decodeCore [0x8C08120A] = .ok (.cpack (.v 4) (.v 9) 5)
    ∧ decodeCore [0x8E12080A] = .ok (.cunpk (.v 9) (.v 4) 5) := by
  and_intros <;> rfl

/-- Words of the table and the layouts of R258, R294 to R299; the words that the manual prints beside their assembly are among them. -/
theorem test_words_lane :
    decodeCore [0x9048464C] = .ok (.shfl (.v 36) (.v 35) (.v 38) false)
    ∧ decodeCore [0x9203E587] = .ok (.shflx (.v 1) (.x 2) (.s 3) true)
    ∧ decodeCore [0x95960792] = .ok (.bcast (.s 11) 3 (.s 9))
    ∧ decodeCore [0x97940E00] = .ok (.ballot (.s 10) 7)
    ∧ decodeCore [0x98301000] = .ok (.vred (.v 24) 8 0)
    ∧ decodeCore [0x9A201010] = .ok (.vscan (.v 16) (.v 8) 0 true false)
    ∧ decodeCore [0x9A02040B] = .ok (.vscan (.v 1) (.v 2) 5 false true)
    ∧ decodeCore [0x9D820E00] = .ok (.lfirst (.s 1) 7)
    ∧ decodeCore [0x9E078180] = .ok (.rnd (.v 3) (.s 0) (.s 0)) := by
  and_intros <;> rfl

/-- Words of the table and the layouts of R258, R300 to R303; the words that the manual prints beside their assembly are among them. -/
theorem test_words_index :
    decodeCore [0xA001B400] = .ok (.xset 0 (.s 26) false)
    ∧ decodeCore [0xA2000000] = .ok (.xoff 0 (.v 0) false)
    ∧ decodeCore [0xA5841E00] = .ok (.xrd (.s 2) 15)
    ∧ decodeCore [0xA6041E00] = .ok (.xrdo (.v 2) 15)
    ∧ decodeCore [0xA81E0601] = .ok (.xadd 15 (.v 3) true)
    ∧ decodeCore [0xAA120000] = .ok (.xclr 9)
    ∧ decodeCore [0xAC002600] = .ok (.srd (.v 0) 0x13)
    ∧ decodeCore [0xAE0F8A00] = .ok (.swr 7 (.s 5) false) := by
  and_intros <;> rfl

/-- Words of the table and the layouts of R258, R304, R305, R310 to R313; the words that the manual prints beside their assembly are among them. -/
theorem test_words_access :
    decodeCore [0xB0000810] = .ok (.ld none (.v 0) (.v 4) 2 none)
    ∧ decodeCore [0xB0120434, 0x00000040] = .ok (.ld none (.v 9) (.v 2) 6 (some 0x40))
    ∧ decodeCore [0xC6560000, 0xB0120430] = .ok (.ld (some ⟨.acq, .dev, 0⟩) (.v 9) (.v 2) 6 none)
    ∧ decodeCore [0xB3878010] = .ok (.st none (.s 3) (.s 0) 2 none 0)
    ∧ decodeCore [0xC6680000, 0xB38F8030] = .ok (.st (some ⟨.rel, .sys, 0⟩) (.s 7) (.s 0) 6 none 0)
    ∧ decodeCore [0xB20E104F, 0xFFFFFFFC] = .ok (.st none (.v 7) (.v 8) 9 (some 0xFFFFFFFC) 3)
    ∧ decodeCore [0xB4440A04, 0x00020400] = .ok (.ldl none (.v 34) (.v 5) 0 (some 0x20400) .any)
    ∧ decodeCore [0xB402041A] = .ok (.ldl none (.v 1) (.v 2) 3 none .take)
    ∧ decodeCore [0xB6404204, 0x00020400] = .ok (.stl none (.v 32) (.v 33) 0 (some 0x20400) .any)
    ∧ decodeCore [0xB610002E, 0x01200000] = .ok (.stl none (.v 8) (.v 0) 5 (some 0x1200000) .put)
    ∧ decodeCore [0xB8098218] = .ok (.ldcol (.v 4) (.s 1) 3 none)
    ∧ decodeCore [0xBA098218] = .ok (.stcol (.v 4) (.s 1) 3 none)
    ∧ decodeCore [0xC6780400, 0xBC098018] = .ok (.atomr ⟨.ar, .sys, 2⟩ (.v 4) (.s 0) 3 none)
    ∧ decodeCore [0xC6561400, 0xBE098019] = .ok (.atoml ⟨.acq, .dev, 10⟩ (.v 4) (.s 0) 3 none true)
    ∧ decodeCore [0xC6400000, 0xC0080A1A] = .ok (.red ⟨.none, .co, 0⟩ (.v 4) (.v 5) 3 none 2)
    ∧ decodeCore [0xC2098030] = .ok (.atomd (.v 4) (.s 0) 6 none)
    ∧ decodeCore [0xC5920004] = .ok (.closeb (.s 9) 2) := by
  and_intros <;> rfl

/-- Words of the table and the layouts of R258, R315 to R325; the words that the manual prints beside their assembly are among them. -/
theorem test_words_synchronise :
    decodeCore [0xC6360000] = .ok (.fence .sc .dev)
    ∧ decodeCore [0xC6060000] = .ok (.fence .acq .dev)
    ∧ decodeCore [0xC6160000] = .ok (.fence .rel .dev)
    ∧ decodeCore [0xC6819800] = .ok (.fenceWb (.s 12))
    ∧ decodeCore [0xC9867E00] = .ok (.barArrive (.s 3) 63)
    ∧ decodeCore [0xC8008B86] = .ok (.barWait 5 (.s 3))
    ∧ decodeCore [0xC9810200] = .ok (.barSync (.s 0) 1)
    ∧ decodeCore [0xC80183B4] = .ok (.barExpect 1 (.s 26))
    ∧ decodeCore [0xCB8F8030] = .ok (.monitor (.s 7) (.s 0) 6 none)
    ∧ decodeCore [0xCC018800] = .ok (.mwait (.s 4))
    ∧ decodeCore [0xCE0189FE] = .ok (.sigq (.s 4) 0x7F true)
    ∧ decodeCore [0xCE018802] = .ok (.sigq (.s 4) 1 false)
    ∧ decodeCore [0xD0203EA4, 0x0000FC00] = .ok (.spill (.v 16) (.v 31) 20 (some 0xFC00))
    ∧ decodeCore [0xD385BE08] = .ok (.fill (.s 2) (.s 31) 1 none)
    ∧ decodeCore [0xD5898030] = .ok (.tend (.s 4) (.s 0) 6 none)
    ∧ decodeCore [0xD7982800] = .ok (.mbsend (.s 12) (.v 20))
    ∧ decodeCore [0xD62B9802] = .ok (.mbrecv (.v 21) (.s 12)) := by
  and_intros <;> rfl

/-- Words of the table and the layouts of R258, R326 to R354; the words that the manual prints beside their assembly are among them. -/
theorem test_words_matrix :
    decodeCore [0xD8000002, 0x00001080] = .ok (.mma 0 0 (.slot 1) 0 0 2 true)
    ∧ decodeCore [0xD8FE3E4E, 0x00000BC5] = .ok (.mma 127 31 (.gen 7) 5 0 47 false)
    ∧ decodeCore [0xDA100608, 0x0007E151] = .ok (.mmas 8 3 (.slot 4) 1 2 5 false true 31)
    ∧ decodeCore [0xDC000000, 0x00000002] = .ok (.oclm 0 3)
    ∧ decodeCore [0xDE3E0000, 0x00000000] = .ok (.orls 31 1)
    ∧ decodeCore [0xE00B7800, 0x0000000F] = .ok (.ost 5 (.v 188) 15)
    ∧ decodeCore [0xE20A0000, 0x0000FFFF] = .ok (.ofnc 5 0xFFFF)
    ∧ decodeCore [0xE4058788, 0x000003FD] = .ok (.gset 2 (.s 3) (.s 4) 5 true 63)
    ∧ decodeCore [0xE60F8788, 0x00000000] = .ok (.gseed 7 (.s 3) (.s 4))
    ∧ decodeCore [0xE8019000, 0x00000000] = .ok (.cpy (.s 8) 0 false false)
    ∧ decodeCore [0xE8019000, 0x000000FF] = .ok (.cpy (.s 8) 63 true true)
    ∧ decodeCore [0xEA019000, 0x00000041] = .ok (.cpyi (.s 8) 1 true)
    ∧ decodeCore [0xEC01A000, 0x00000041] = .ok (.cpyo (.s 16) 1 true 0 false)
    ∧ decodeCore [0xEC01A000, 0x00000380] = .ok (.cpyo (.s 16) 0 false 3 true)
    ∧ decodeCore [0xEE0C0000, 0x0001FFFF] = .ok (.waitc 6 0xFFFF true)
    ∧ decodeCore [0xF0000000, 0x0000003F] = .ok (.waitm 63)
    ∧ decodeCore [0xF2FE0000, 0x0000007F] = .ok (.aclr 127 128)
    ∧ decodeCore [0xF412C800, 0x00000383] = .ok (.ald (.v 9) 100 3 29)
    ∧ decodeCore [0xF7800188, 0x00001038] = .ok (.awb (.s 0) 0 (.s 4) 0 8 16 0 false false 0 false)
    ∧ decodeCore [0xF7820B84, 0xFFEFFFFF] = .ok (.awb (.s 1) 5 (.s 2) 7 32 4095 6 true true 63 true) := by
  and_intros <;> rfl

/-- Sequencer words of R359, R360, R362 to R369 (section 12). -/
theorem test_words_sequencer_scalar :
    decodeSeq 0x00000000 = .ok (.seqNop)
    ∧ decodeSeq 0x04000000 = .ok (.halt)
    ∧ decodeSeq 0x08000000 = .ok (.yield)
    ∧ decodeSeq 0x0C000000 = .ok (.seqFence)
    ∧ decodeSeq 0x101400FF = .ok (.evt 5 255)
    ∧ decodeSeq 0x173FA000 = .ok (.seqBr 6 15 14 (-8192))
    ∧ decodeSeq 0x180C3FFE = .ok (.loop 3 (-2))
    ∧ decodeSeq 0x207C0000 = .ok (.seqAdd 1 15 0)
    ∧ decodeSeq 0x20B84001 = .ok (.seqSub 2 14 1)
    ∧ decodeSeq 0x20F48002 = .ok (.seqAnd 3 13 2)
    ∧ decodeSeq 0x2130C003 = .ok (.seqOr 4 12 3)
    ∧ decodeSeq 0x216D0004 = .ok (.seqXor 5 11 4)
    ∧ decodeSeq 0x21A94005 = .ok (.seqShl 6 10 5)
    ∧ decodeSeq 0x21E58006 = .ok (.seqShr 7 9 6)
    ∧ decodeSeq 0x2221C007 = .ok (.seqMul 8 8 7)
    ∧ decodeSeq 0x24483FFF = .ok (.addi 1 2 (-1))
    ∧ decodeSeq 0x2A000001 = .ok (.li 8 1)
    ∧ decodeSeq 0x2BC00001 = .ok (.li 15 1)
    ∧ decodeSeq 0x2A7FFFFF = .ok (.li 9 (-1))
    ∧ decodeSeq 0x2E7FFFFF = .ok (.lih 9 4194303)
    ∧ decodeSeq 0x31C40018 = .ok (.ldc 7 1 24)
    ∧ decodeSeq 0x3404BFF8 = .ok (.stc 1 2 (-8))
    ∧ decodeSeq 0x39000004 = .ok (.cst 4 4) := by
  and_intros <;> rfl

/-- Sequencer words of R359, R360, R362 to R369 (section 12). -/
theorem test_words_sequencer_chunks :
    decodeSeq 0x4013C000 = .ok (.waitf 4 15 0)
    ∧ decodeSeq 0x4417C000 = .ok (.sigf 5 15)
    ∧ decodeSeq 0x4417C001 = .ok (.sigfAdd 5 15)
    ∧ decodeSeq 0x48018000 = .ok (.slot 0 6)
    ∧ decodeSeq 0x615A7000 = .ok (.send 1 5 10 7)
    ∧ decodeSeq 0x640A0000 = .ok (.recv 0 0 10)
    ∧ decodeSeq 0x68040000 = .ok (.rcomb 0 0 4 0 0)
    ∧ decodeSeq 0x6B840180 = .ok (.rcomb 3 8 4 1 4)
    ∧ decodeSeq 0x6F845810 = .ok (.rcfwd 3 8 4 5 8 0 true)
    ∧ decodeSeq 0x70086010 = .ok (.rfwd 0 0 8 6 true) := by
  and_intros <;> rfl

/-- The smoke test of WellFormed: an ill-formed term for each check of an operand or of a field of a core's word. -/
theorem test_wf_refuses_core :
    ∀ i ∈ ([.br 2097152, .br (-2097153), .brd 8 0, .brany 8 0, .call 8 0, .callr (.v 0) (.s 0), .callr (.s 0) (.s 48), .ret (.v 0),
      .jmpr (.s 0) (.x 0), .trap 256, .brk 256, .modew (.v 0), .modef 7 0, .modef 0 32, .modef 2 8, .modef 6 2, .moder (.v 0),
      .rep (.imm 256) 0 0 0, .rep (.reg 48) 0 0 0, .rep (.imm 0) 8 0 0, .rep (.imm 0) 0 (-9) 0, .rep (.imm 0) 0 0 8,
      .iadd (.v 192) (.s 0) (.s 0) false, .iadd (.v 0) (.s 48) (.s 0) false, .iadd (.v 0) (.s 0) (.x 16) false,
      .iadd (.s 1) (.v 0) (.s 0) false, .iabs (.s 1) (.x 0) false, .iaddi (.v 0) (.s 0) 256, .shli (.v 0) (.s 0) 64, .lit (.v 0) true 0,
      .icmp 8 0 (.s 0) (.s 0) false, .icmp 0 6 (.s 0) (.s 0) false, .fcmp 0 8 (.s 0) (.s 0) false, .icmpi 0 0 (.s 0) (-257),
      .plog 8 0 0 0, .plog 0 8 0 0, .plog 0 5 0 1, .plog 0 6 1 0, .prd (.v 0) 8, .pwr 8 (.s 0) false,
      .cvt (.v 0) (.v 0) 6 false, .cvt (.v 0) (.v 0) 11 false, .cvts (.v 0) (.v 0) false 8 false, .cpack (.v 2) (.v 0) 0,
      .cpack (.s 0) (.v 0) 0, .cunpk (.v 0) (.v 1) 0, .cunpk (.v 0) (.x 0) 0] : List Instr), i.wf = false := by
  decide

/-- The same for lanes, indexes, special registers, memory and synchronization. -/
theorem test_wf_refuses_memory :
    ∀ i ∈ ([.shfl (.s 0) (.v 0) (.s 0) false, .shflx (.v 0) (.s 0) (.s 0) false, .bcast (.v 0) 192 (.s 0), .bcast (.v 0) 0 (.v 0),
      .ballot (.v 0) 192, .vred (.v 0) 0 6, .vscan (.s 0) (.v 0) 0 false false, .vscan (.v 0) (.v 0) 6 false false, .lfirst (.v 0) 8,
      .rnd (.v 0) (.v 0) (.s 0), .xset 16 (.s 0) false, .xset 0 (.v 0) false, .xrd (.v 0) 16, .xrdo (.s 0) 0, .xclr 16, .srd (.v 0) 24,
      .srd (.s 1) 19, .swr 6 (.s 0) false, .swr 3 (.v 0) false, .ld none (.v 0) (.v 0) 48 none, .ld none (.s 1) (.v 0) 0 none,
      .ld (some ⟨.rel, .co, 0⟩) (.v 0) (.v 0) 0 none, .st none (.v 0) (.v 0) 0 none 4, .st (some ⟨.acq, .co, 0⟩) (.v 0) (.v 0) 0 none 0,
      .ldcol (.v 0) (.v 0) 0 none, .stcol (.s 0) (.s 0) 0 none, .atomr ⟨.none, .co, 14⟩ (.v 0) (.v 0) 0 none,
      .atomr ⟨.none, .co, 10⟩ (.x 0) (.v 0) 0 none, .red ⟨.none, .co, 9⟩ (.v 0) (.v 0) 0 none 0, .red ⟨.acq, .co, 0⟩ (.v 0) (.v 0) 0 none 0,
      .atomd (.v 0) (.v 0) 0 none, .closeb (.v 0) 0, .closeb (.s 0) 4, .fenceWb (.v 0), .barArrive (.s 0) 64, .barWait 64 (.s 0),
      .barExpect 0 (.v 0), .monitor (.v 0) (.s 0) 0 none, .mwait (.v 0), .sigq (.s 0) 128 false, .spill (.v 5) (.v 4) 0 none,
      .spill (.v 0) (.s 1) 0 none, .fill (.s 0) (.s 48) 0 none, .tend (.s 0) (.v 0) 0 none, .mbsend (.v 0) (.v 0),
      .mbrecv (.v 0) (.v 0)] : List Instr), i.wf = false := by
  decide

/-- The same for the matrix and copy engines. -/
theorem test_wf_refuses_engines :
    ∀ i ∈ ([.mma 128 0 (.slot 0) 0 0 0 false, .mma 0 32 (.slot 0) 0 0 0 false, .mma 0 0 (.slot 32) 0 0 0 false,
      .mma 0 0 (.gen 8) 0 0 0 false, .mma 0 0 (.gen 0) 0 1 0 false, .mma 0 0 (.slot 0) 8 0 0 false, .mma 0 0 (.slot 0) 0 0 48 false,
      .mmas 0 0 (.slot 0) 0 0 0 false false 32, .oclm 32 1, .oclm 0 0, .orls 0 33, .ost 0 (.v 2) 0, .ost 0 (.v 0) 16, .ofnc 0 65536,
      .gset 8 (.s 0) (.s 0) 0 false 0, .gset 0 (.s 0) (.s 0) 7 false 0, .gset 0 (.s 0) (.s 0) 5 false 64, .gset 0 (.s 0) (.s 0) 6 false 0,
      .gset 0 (.s 0) (.s 0) 6 false 33, .gset 0 (.s 0) (.s 0) 0 false 1, .gseed 8 (.s 0) (.s 0), .cpy (.s 0) 0 false false,
      .cpy (.s 41) 0 false false, .cpyi (.v 1) 0 false, .cpyo (.s 1) 64 false 0 false, .cpyo (.s 1) 0 false 4 false, .waitc 32 0 false,
      .waitc 0 65536 false, .waitm 64, .aclr 128 1, .aclr 0 0, .aclr 0 129, .ald (.s 0) 0 0 1, .ald (.v 0) 0 0 0, .ald (.v 0) 0 31 2,
      .awb (.v 0) 0 (.s 0) 0 1 1 0 false false 0 false, .awb (.s 0) 0 (.s 0) 0 33 1 0 false false 0 false,
      .awb (.s 0) 0 (.s 0) 0 1 0 0 false false 0 false, .awb (.s 0) 0 (.s 0) 0 1 4096 0 false false 0 false,
      .awb (.s 0) 0 (.s 0) 0 1 1 8 false false 0 false, .awb (.s 0) 0 (.s 0) 0 1 1 0 false false 64 false] : List Instr), i.wf = false := by
  decide

/-- The same for the sequencers and the events. -/
theorem test_wf_refuses_others :
    ∀ i ∈ ([.evt 16 0, .evt 0 256, .seqBr 7 0 0 0, .seqBr 0 1 0 0, .seqBr 1 0 0 8192, .loop 0 0, .seqAdd 16 0 0, .addi 0 0 (-8193),
      .li 0 2097152, .lih 0 4194304, .cst 0 5, .waitf 0 0 4, .send 4 0 0 0, .recv 0 9 0, .rcomb 0 0 0 9 0, .rcomb 0 0 0 0 5,
      .rcomb 0 0 0 2 1, .rfwd 0 0 1 0 false, .walk 4, .mqtailWrite 0 65536, .registerWrite (2 ^ 48) 8 0, .virtualRead 256 0 4,
      .managementMailbox true (2 ^ 512) false, .managementMailbox false 0 true, .linkTrain 16 1, .linkTrain 0 3, .linkUp 0 16, .routeEntryWrite 4096 0,
      .lossOfLight 0 (2 ^ 32), .remoteReply 0 0 8 ⟨0, 0⟩, .remoteReply 0 0 0 ⟨1025, 0⟩, .closeMarker 16 0 0 0 0 0, .summaryReply 0 0 0 0 (2 ^ 32), .fatalError 0 0,
      .fatalError 6 0, .fatalError 1 5, .launchPacket 64, .placement 0 [576], .timer 0 32, .gridAbort 0 0, .gridAbort 0 6,
      .reservationValid 16, .frameReceive 2 [] true, .ingressRuleWrite 64 0, .egressTransmit 8, .eend 16, .take 0 256 0, .take 0 0 32,
      .mailboxBind 0 (2 ^ 64), .go 0 4, .quiet 576, .episodeCsrWrite 0 4096 ⟨.put, 0, true, 0, 0⟩, .episodeCsrWrite 0 0 ⟨.put, 0, true, 32, 0⟩,
      .episodeWindowAccess 16 .load 0 4 0 ⟨0, false, false, false, false, 0⟩,
      .managementCoreAccess .load (2 ^ 64) 4 0 ⟨0, false, false, false, false, 0⟩,
      .managementCoreAccess .load 0 4 0 ⟨0, false, false, false, false, 6⟩, .lightReturn 0 32] : List Instr), i.wf = false := by
  decide +kernel

/-- Terms at the bounds of their fields. -/
theorem test_wf_accepts_bounds :
    ∀ i ∈ ([.br 2097151, .br (-2097152), .modef 6 1, .rep (.imm 255) 7 (-8) 7, .iadd (.v 191) (.s 47) (.x 15) true, .shli (.v 0) (.s 0) 63,
      .plog 7 7 0 0, .cvt (.v 0) (.v 0) 10 true, .srd (.v 0) 0x17, .gset 7 (.s 0) (.s 0) 6 true 32, .cpy (.s 40) 63 true true,
      .ald (.v 0) 127 31 1, .awb (.s 0) 127 (.s 0) 7 32 4095 7 true true 63 true, .seqBr 6 15 15 (-8192), .rcfwd 3 8 15 15 8 0 true]
      : List Instr), i.wf = true := by
  decide

/-- The decoder refuses. -/
def refused {α : Type} : Except Reject α → Bool
  | .error _ => true
  | .ok _ => false

/-- What is no instruction: nothing, an opcode that R258 does not assign, a NOP with a field set (R275), a scalar destination
with a vector source (R241), a LIT without its literal word (R233), an atomic without its prefix and a prefix before an IADD
(R305), and for a sequencer an opcode that R360 does not assign and a HALT with a field set. -/
theorem test_decode_refuses :
    (∀ x ∈ ([[], [0xFFFFFFFF], [0x00000001], [0x21820000], [0x4E040000], [0xB8000000], [0xC6560000, 0x2006080A]] : List (List W32)),
      refused (decodeCore x) = true)
    ∧ refused (decodeSeq 0xFFFFFFFF) = true ∧ refused (decodeSeq 0x04000001) = true := by
  decide

/-- What the host asks: a table word goes to the core's decoder first, and to the sequencer's where a core has no such word;
stored, it is what the next step runs. -/
theorem test_table_words :
    decodeTableWord 32 0x2006080A = some (.iadd (.v 3) (.v 4) (.v 5) false) ∧ decodeTableWord 64 0x000000074E040000 = some (.lit (.v 2) false 7)
    ∧ decodeTableWord 32 0x31C40018 = some (.ldc 7 1 24) ∧ decodeTableWord 32 0xFFFFFFFF = none := by
  decide

/-- The state after an instruction, or the reset state where there is none. -/
def ran (i : Instr) (s : State) : State :=
  match exec i s with
  | .next t => t
  | _ => State.reset

/-- MODE.T and SAT, with lane 0 of v1 and v2. -/
def twoLanes (ty sat : Nat) (x y : W32) : State :=
  onCur small fun c => { c with mode := BitVec.ofNat 32 (ty * 32 + sat * 2 ^ 15), v := [(1, VReg.zero.set 0 x), (2, VReg.zero.set 0 y)] }

/-- The table of R278: IADD, IDIV and IREM in s8, with and without SAT, and the flags that it gives. -/
theorem test_integer_table :
    (ran (.iadd (.v 3) (.v 1) (.v 2) false) (twoLanes 0 0 100 50)).cur.lane 3 0 = 0xFFFFFF96
    ∧ (ran (.iadd (.v 3) (.v 1) (.v 2) false) (twoLanes 0 1 100 50)).cur.lane 3 0 = 0x7F
    ∧ (ran (.idiv (.v 3) (.v 1) (.v 2) false) (twoLanes 0 0 0x80 0xFF)).cur.lane 3 0 = 0xFFFFFF80
    ∧ (ran (.idiv (.v 3) (.v 1) (.v 2) false) (twoLanes 0 1 0x80 0xFF)).cur.lane 3 0 = 0x7F
    ∧ (ran (.idiv (.v 3) (.v 1) (.v 2) false) (twoLanes 0 0 7 0)).cur.lane 3 0 = 0xFFFFFFFF
    ∧ (ran (.irem (.v 3) (.v 1) (.v 2) false) (twoLanes 0 0 7 0)).cur.lane 3 0 = 7
    ∧ (ran (.irem (.v 3) (.v 1) (.v 2) false) (twoLanes 0 0 0xF9 2)).cur.lane 3 0 = 0xFFFFFFFF := by
  decide +kernel

/-- A format slot 0, MODE.T f32, and a lane value. -/
def underSlot (d x : W32) : State :=
  onLaunch (onCur small fun c => { c with mode := 0x140, v := [(1, VReg.zero.set 0 x)] }) fun l => { l with fslots := [d] }

/-- The encodings into T8 that the example under R224 gives. -/
theorem test_t8_encodings :
    [0x40400000, 0xC0400000, 0x41C00000, 0x42C80000, 0x42E00000, 0x45000000, 0x450CCCCD, 0x49800000, 0x35800000].map
      (fun x => (ran (.cvts (.v 2) (.v 1) true 0 false) (underSlot 0x801 x)).cur.lane 2 0)
    = [0x58, 0xA8, 0x72, 0x79, 0x7A, 0x7E, 0x7F, 0x7F, 0x01] := by
  decide +kernel

/-- The example of R295: each lane of VSCAN .sum rounds its exact prefix once. -/
theorem test_vscan_rounds_once :
    let s := onCur (moded 10 0) fun c => { c with
      exec := 15, v := [(1, (((VReg.zero.set 0 0x4B800000).set 1 0x3F800000).set 2 0x3F800000).set 3 0x32000000)] }
    let t := (ran (.vscan (.v 2) (.v 1) 0 false false) s).cur
    t.lane 2 0 = 0x4B800000 ∧ t.lane 2 1 = 0x4B800000 ∧ t.lane 2 2 = 0x4B800001 ∧ t.lane 2 3 = 0x4B800001 := by
  decide +kernel

/-- The example of RND: key 0x0000_0005_0000_0002, 5 in lane 3. -/
theorem test_rnd_is_reed :
    let s := onLaunch (onCur small fun c => { c with s := [(4, 2)], v := [(6, VReg.zero.set 3 5)] }) fun l => { l with seed := 0x500000000 }
    (ran (.rnd (.v 1) (.s 4) (.v 6)) s).cur.lane 1 3 = 0x25D1A322 := by
  decide +kernel

/-- Steps 1, 3 and 5 of the example of divergence: what BRD pushes, and what JOIN makes of it, first and last. -/
theorem test_divergence :
    (let t := (ran (.brd 1 6) (onCur small fun c => { c with pc := 0x0C, p := [(1, 0x3FF)] })).cur
     t.exec = 0x3FF ∧ t.pc = 0x24 ∧ t.stack = [⟨.diverge, 0x10, false, 0xFFFFFFFF, 0xFFFFFC00⟩])
    ∧ (let s := onCur small fun c => { c with
         pc := 0x2C, exec := 0x3FF, stack := [⟨.diverge, 0x10, false, 0xFFFFFFFF, 0xFFFFFC00⟩], depth := 1 }
       let t := (ran .join s).cur
       t.exec = 0xFFFFFC00 ∧ t.pc = 0x10 ∧ t.stack = [⟨.diverge, 0x10, true, 0xFFFFFFFF, 0xFFFFFC00⟩])
    ∧ (let s := onCur small fun c => { c with
         pc := 0x18, exec := 0xFFFFFC00, stack := [⟨.diverge, 0x10, true, 0xFFFFFFFF, 0xFFFFFC00⟩], depth := 1 }
       let t := (ran .join s).cur
       t.exec = 0xFFFFFFFF ∧ t.pc = 0x1C ∧ t.stack = [] ∧ t.depth = 0) := by
  decide +kernel

/-- The comment beside JMPR: pc ← s12 + 4 × s13. -/
theorem test_jmpr :
    (ran (.jmpr (.s 12) (.s 13)) (onCur small fun c => { c with s := [(12, 0x1000), (13, 3)] })).cur.pc = 0x100C := by
  decide +kernel

/-- The last LIH of the example of R365 leaves 0x10 × 2^44. -/
theorem test_lih :
    let s : State := { State.reset with seqs := [(0, { Seqr.reset with ctxs := [(0, { Ctx.reset with st := .running, c := [(9, 0x4000000)] })] })] }
    (ran (.lih 9 0) s).ctx.reg 9 = 0x0001000000000000 := by
  decide +kernel

/-- The example of R195: what the word at 0x0C and the first word hold. -/
theorem test_launch_words :
    let l := launchOf (0x00020901 + 0x6F410087 * 2 ^ 96)
    l.ncrs = 8 ∧ l.nbar = 4 ∧ l.nos = 16 ∧ l.nacc = 64 ∧ l.nv = 128 ∧ l.ns = 32 ∧ l.ver = true ∧ l.tsr = true ∧ l.prod = 2 := by
  decide +kernel

/-- The example of R200's queue of 16 granules: a packet of two granules straddles the ring's end; one with an invalid size
stops the queue with code 2, and SKIP passes one granule. -/
theorem test_queue_straddles_and_skips :
    (let q : Queue := { Queue.reset with
       qbase := 0x10000, qlog := 4, qen := true, qstate := 1, rp := 0x2F, wpseen := 0x31, seen := true, swa := 0x1FFD0 }
     let s : State := { small with queues := [(3, q)], mem := putBytes small.mem 0x10780 (bytesOf 4 0x11) }
     let bad : State := { small with
       queues := [(3, { q with rp := 0x31, wpseen := 0x32 })], mem := putBytes small.mem 0x10080 (bytesOf 4 0x21) }
     (s.head 3 = .packet 1 2 0x11) ∧ ((ran (.launchPacket 3) bad).queue 3).qstate = 3 ∧ ((ran (.launchPacket 3) bad).queue 3).qerr = 2
      ∧ (ran (.launchPacket 3) bad).read 0x1FFD0 9 = 0x31 + 2 * 2 ^ 64
      ∧ ((ran (.skip 3) { bad with queues := [(3, { q with rp := 0x31, qstate := 3 })] }).queue 3).rp = 0x32) := by
  decide +kernel

/-- A rule whose ring of four slots of 512 bytes begins at 0x8000, and the granules that are empty. -/
def ringed (fe : Tab Bool) : State :=
  let s := onWg (onLaunch small fun l => { l with lc := true, partw := 0x030A }) fun w => { w with core := 575, fe := fe }
  { s with
    grids := [(1, { s.grid 1 with chain := { (s.grid 1).chain with budgets := [⟨0x12000, 1, 1, 1, 1⟩] } })]
    resv := [(0, ⟨0x12001, 1, 0, [575], []⟩)]
    rules := [(5, { Rule.reset with
      words := [(1, 0x280), (6, BitVec.ofNat 64 (0x8000 * 2 ^ 16 + 9 * 2 ^ 42 + 3 * 2 ^ 46))], holder := some 0 })] }

/-- The example of R415: a frame of 100 bytes in slot 0, and one that finds granule 0 full. -/
theorem test_frame_lands :
    (let t := ran (.frameReceive 1 (List.replicate 100 7) true) (ringed ((List.range 32).map fun g => (0x800 + g, false)))
     (t.wg 0).byte 0x8020 = 7 ∧ (t.wg 0).byte 0x8083 = 7 ∧ (t.wg 0).byte 0x8084 = 0 ∧ (t.wg 0).full 0x800 = true ∧ (t.wg 0).full 0x81F = true
      ∧ (t.wg 0).read 0x8000 2 = 100 ∧ (t.wg 0).read 0x8004 4 = 0)
    ∧ (Tab.get Rule.reset (ran (.frameReceive 1 (List.replicate 100 7) true) (ringed [])).rules 5).drops = 1 := by
  decide +kernel

/-- The example of R407: v9 empty with a load in flight; a write without FORCE is BUSY, with FORCE it fills the register. -/
theorem test_debug_write_forces :
    let s : State := { (onCur small fun c => { c with halted := true, vfull := [(9, false)] }) with
      dies := [(0, { Die.reset with dbg := { Dbg.reset with unit := 0x50090, data := 0x1234 } })] }
    ((ran (.debugWrite 0 false) s).die 0).dbg.res = 1 ∧ ((ran (.debugWrite 0 false) s).crs 0 0).lane 9 5 = 0
      ∧ ((ran (.debugWrite 0 true) s).crs 0 0).lane 9 5 = 0x1234 ∧ ((ran (.debugWrite 0 true) s).crs 0 0).vIsFull 9 = true := by
  decide +kernel

/-- R177, R397: a TRAP saves the address behind it, the mask and the level, and goes to the handler with MODE zero. -/
theorem test_trap_enters_handler :
    let t := ran (.trap 5) (onCur paged fun c => { c with pc := 0x1000, mode := 0x20 })
    t.cur.pc = 0x20000 ∧ t.cur.mode = 0 ∧ t.cur.tlev = 1 ∧ (t.cur.stack.head?.map fun e => e.pc.toNat) = some 0x1004
      ∧ t.read 0x10100 1 = 0x0E := by
  decide +kernel

/-- A step fetches, decodes and executes: an IADD, its word stored at the program counter. -/
theorem test_step :
    (match step (State.reset.withFetchWord 32 0x2006080A) with
      | .next t => decide ((t.crs 0 0).pc = 0x10004)
      | _ => false) = true := by
  decide +kernel

/-- R387: instructions of RV64: ADDI x5, x5, -1 wraps, C.JR x1 stands for JALR x0, 0(x1), and SH1ADD x5, x6, x7 of Zba adds twice x6 to x7. -/
theorem test_hart_instructions :
    let e := (Eave.reset.setReg 6 5).setReg 7 1
    let x5 := fun w => match State.reset.hartExec 0 e w 4 with
      | .regs f => some (f.reg 5, (f.pc - e.pc).toNat)
      | _ => none
    x5 0xFFF28293 = some (2 ^ 64 - 1, 4) ∧ x5 0x207322B3 = some (11, 4) ∧ expandC 0x8082 = some 0x00008067 := by
  decide +kernel

-- ## Witnesses: the hypotheses of each statement met by a concrete state

/-- On the vector path, the scalar path and through an index register, with the last registers that can be named. -/
theorem witness_IntegerArithmeticFitsExactResult :
    Passes (moded 0 0) ⟨[.v 0], [.v 1], [.v 191]⟩ ((moded 0 0).cur.pathLanes [.v 191, .v 0, .v 1]) (intMode (moded 0 0))
    ∧ Passes (moded 5 7) ⟨[.v 0], [.v 1], [.v 191]⟩ ((moded 5 7).cur.pathLanes [.v 191, .v 0, .v 1]) (intMode (moded 5 7))
    ∧ Passes (moded 4 0) ⟨[.s 0], [.s 1], [.s 47]⟩ ((moded 4 0).cur.pathLanes [.s 47, .s 0, .s 1]) (intMode (moded 4 0))
    ∧ Passes (moded 4 0) ⟨[.x 15], [.s 47, .x 0], [.x 0]⟩ ((moded 4 0).cur.pathLanes [.x 0, .x 15, .s 47, .x 0]) (intMode (moded 4 0))
    ∧ Passes (moded 4 0) ⟨[.v 191], [], [.v 191]⟩ ((moded 4 0).cur.pathLanes [.v 191, .v 191]) (intMode (moded 4 0)) := by
  and_intros <;> rfl

/-- The same forms of the instructions on bits. -/
theorem witness_IntegerBitInstructionsFollowPatterns :
    Passes (moded 5 0) ⟨[.v 191], [.v 1], [.v 0]⟩ ((moded 5 0).cur.pathLanes [.v 0, .v 191, .v 1]) (intMode (moded 5 0))
    ∧ Passes (moded 0 0) ⟨[.s 47], [.s 1, .s 0], [.s 0]⟩ ((moded 0 0).cur.pathLanes [.s 0, .s 47, .s 1, .s 0]) (intMode (moded 0 0))
    ∧ Passes (moded 3 0) ⟨[.x 15], [], [.v 1]⟩ ((moded 3 0).cur.pathLanes [.v 1, .x 15]) (intMode (moded 3 0)) := by
  and_intros <;> rfl

theorem witness_MoveAndLiteralWriteRawBits :
    Passes small ⟨[.s 47], [], [.v 191]⟩ (small.cur.pathLanes [.v 191, .s 47]) (.ok ())
    ∧ Passes small ⟨[.s 47], [], [.s 0]⟩ (small.cur.pathLanes [.s 0, .s 47]) (.ok ())
    ∧ Passes small ⟨[], [], [.v 0]⟩ (small.cur.pathLanes [.v 0]) (.ok ())
    ∧ Passes small ⟨[], [], [.s 47]⟩ (small.cur.pathLanes [.s 47]) (.ok ())
    ∧ Passes small ⟨[], [.s 47], [.s 47]⟩ [0] (.ok ()) := by
  and_intros <;> rfl

/-- Each floating-point type, the last rounding mode, and a packed type. -/
theorem witness_FloatArithmeticRoundsExactResult :
    Passes (moded 13 4) ⟨[.v 0], [.v 1, .v 191], [.v 191]⟩ ((moded 13 4).cur.pathLanes [.v 191, .v 0, .v 1, .v 191]) (fpMode true (moded 13 4))
    ∧ Passes (moded 8 0) ⟨[.s 1], [.s 2], [.s 47]⟩ ((moded 8 0).cur.pathLanes [.s 47, .s 1, .s 2]) (fpMode true (moded 8 0))
    ∧ Passes (moded 8 0) ⟨[.x 15], [], [.v 0]⟩ ((moded 8 0).cur.pathLanes [.v 0, .x 15]) (fpMode true (moded 8 0)) := by
  and_intros <;> rfl

/-- A reserved rounding mode does not matter to them. -/
theorem witness_FloatFunctionsIgnoreRoundingMode :
    Passes (moded 8 7) ⟨[.v 0], [.v 1], [.v 191]⟩ ((moded 8 7).cur.pathLanes [.v 191, .v 0, .v 1]) (fpMode false (moded 8 7))
    ∧ Passes (moded 13 5) ⟨[.s 1], [], [.s 47]⟩ ((moded 13 5).cur.pathLanes [.s 47, .s 1]) (fpMode false (moded 13 5)) := by
  and_intros <;> rfl

/-- The encodings of the largest number and of zero of each format are no NaN. -/
theorem witness_DirectedRoundingStaysOnItsSide :
    f32 ∈ [f32, f16, bf16] ∧ (0x7F800000 < 2 ^ (f32.eb + f32.fb + 1) ∧ (decodeF f32 false 0x7F800000).isNan = false)
    ∧ (0xFBFF < 2 ^ (f16.eb + f16.fb + 1) ∧ (decodeF f16 false 0xFBFF).isNan = false)
    ∧ (0x8000 < 2 ^ (bf16.eb + bf16.fb + 1) ∧ (decodeF bf16 false 0x8000).isNan = false) := by
  decide

/-- The first and the last condition, and the bound of each path. -/
theorem witness_ComparesWritePredicate :
    Passes (moded 4 0) ⟨[.v 0], [.v 191], []⟩ ((moded 4 0).cur.pathLanes [.v 0, .v 191]) ((moded 4 0).cur.needTy [0, 1, 2, 3, 4, 5])
    ∧ Passes (moded 0 0) ⟨[.s 47], [], []⟩ ((moded 0 0).cur.pathLanes [.s 47]) ((moded 0 0).cur.needTy [0, 1, 2, 3, 4, 5])
    ∧ Passes (moded 10 0) ⟨[.x 15], [.s 0], []⟩ ((moded 10 0).cur.pathLanes [.x 15, .s 0]) ((moded 10 0).cur.needTy [8, 9, 10])
    ∧ (5 < 6 ∧ 7 < 8) := by
  and_intros <;> first | rfl | decide

theorem witness_PredicateInstructionsAndSelect :
    7 < 8 ∧ Passes small ⟨[], [], [.s 47]⟩ (small.cur.pathLanes [.s 47]) (.ok ())
    ∧ Passes small ⟨[], [], [.x 15]⟩ (small.cur.pathLanes [.x 15]) (.ok ())
    ∧ Passes small ⟨[.s 47], [], []⟩ (small.cur.pathLanes [.s 47]) (.ok ())
    ∧ Passes small ⟨[.v 191], [], []⟩ (small.cur.pathLanes [.v 191]) (.ok ())
    ∧ small.cur.unguarded.check small.curL ⟨[.v 0], [.s 1], [.v 191]⟩ (small.cur.unguarded.pathLanes [.v 191, .v 0, .s 1]) (.ok ()) = .ok ()
    ∧ small.cur.unguarded.check small.curL ⟨[.s 2], [.s 1], [.s 3]⟩ (small.cur.unguarded.pathLanes [.s 3, .s 2, .s 1]) (.ok ()) = .ok () := by
  and_intros <;> first | rfl | decide

/-- A state whose first format slot has a code (R223). -/
def slotted (ty code : Nat) : State :=
  { moded ty 0 with grids := Tab.set [] 1 { (moded ty 0).curG with launch := { (moded ty 0).curL with fslots := [BitVec.ofNat 32 code] } } }

theorem witness_ConversionsFollowTypesAndSlots :
    Passes (moded 9 0) ⟨[.v 0], [], [.v 191]⟩ ((moded 9 0).cur.pathLanes [.v 191, .v 0]) ((moded 9 0).cur.needTy [8, 9, 10])
    ∧ Passes (moded 5 7) ⟨[.s 1], [], [.s 47]⟩ ((moded 5 7).cur.pathLanes [.s 47, .s 1]) (cvtMode 0 (moded 5 7))
    ∧ Passes (moded 10 4) ⟨[.v 0], [], [.v 191]⟩ ((moded 10 4).cur.pathLanes [.v 191, .v 0]) (cvtMode 5 (moded 10 4))
    ∧ slotCode ((slotted 0 1).curL.fslot 0) ≠ 0
    ∧ Passes (slotted 0 7) ⟨[.v 0], [], [.v 191]⟩ ((slotted 0 7).cur.pathLanes [.v 191, .v 0]) (slotted 0 7).cur.needRm := by
  and_intros <;> first | rfl | decide

theorem witness_ContainersPackAndUnpack :
    Passes (slotted 0 1) ⟨(List.range 16).map fun j => .v (176 + j), [], (List.range 4).map fun j => .v (0 + j)⟩
      (lanesOf (slotted 0 1).cur.active) (contMode 0 (slotted 0 1))
    ∧ slotCode ((slotted 0 1).curL.fslot 0) = 1 ∧ slotCode ((slotted 0 2).curL.fslot 0) = 2
    ∧ Passes (slotted 0 2) ⟨(List.range 4).map fun j => .v (188 + j), [], (List.range 20).map fun j => .v (0 + j)⟩
      (lanesOf (slotted 0 2).cur.active) (contMode 0 (slotted 0 2)) := by
  and_intros <;> rfl

theorem witness_LaneOperationsReadAcrossLanes :
    Passes small ⟨[.v 191], [.s 1], [.x 15]⟩ (lanesOf small.cur.active) (.ok ())
    ∧ Passes small ⟨[.v 191], [.s 47], [.s 0]⟩ [(small.cur.src (.s 47) 0).toNat % 32] (.ok ())
    ∧ Passes small ⟨[.v 0], [], [.s 47]⟩ (lanesOf small.cur.active) (.ok ())
    ∧ Passes small ⟨[], [], [.s 1]⟩ [] (.ok ())
    ∧ Passes (moded 8 4) ⟨[.v 191], [], [.s 1]⟩ (lanesOf (moded 8 4).cur.active) (redMode 0 (moded 8 4).cur)
    ∧ Passes (moded 5 0) ⟨[.x 1], [], [.v 1]⟩ (lanesOf (moded 5 0).cur.active) (redMode 5 (moded 5 0).cur)
    ∧ Passes small ⟨[.s 4], [.v 6], [.v 7]⟩ (small.cur.pathLanes [.v 7, .s 4, .v 6]) (.ok ()) := by
  and_intros <;> rfl

/-- The largest value that XSET takes, and the largest offset of XOFF. -/
theorem witness_IndexInstructionsSetFields :
    Passes (withS small 1 0xFFFFF) ⟨[.s 1], [], []⟩ [0] (.ok ()) ∧ ((withS small 1 0xFFFFF).cur.src64 (.s 1)).toNat < 2 ^ 20
    ∧ Passes (withS small 1 63) ⟨[.s 1], [], []⟩ (lanesOf (withS small 1 63).cur.active) (.ok ())
    ∧ (∀ l < 32, ((withS small 1 63).cur.src (.s 1) l).toNat ≤ 63)
    ∧ Passes small ⟨[.x 15], [], []⟩ (lanesOf small.cur.active) (.ok ())
    ∧ Passes small ⟨[], [], [.s 47]⟩ [] (.ok ()) ∧ Passes small ⟨[], [], [.x 0]⟩ (lanesOf small.cur.active) (.ok ()) := by
  and_intros <;> first | rfl | decide

/-- The last value that FSTAT takes and the first that it refuses. -/
theorem witness_SpecialRegistersReadAndWrite :
    Passes small ⟨[], [], [.v 191]⟩ (small.cur.pathLanes [.v 191]) (.ok ()) ∧ (Opnd.v 191).isS = false
    ∧ Passes small ⟨[], [], [.s 47]⟩ (small.cur.pathLanes [.s 47]) (.ok ())
    ∧ Passes (withS small 1 63) ⟨[.s 1], [], []⟩ [0] (.ok ()) ∧ ((withS small 1 63).cur.src64 (.s 1)).toNat < 64
    ∧ Passes (withS small 1 64) ⟨[.s 1], [], []⟩ [0] (.ok ()) ∧ 64 ≤ ((withS small 1 64).cur.src64 (.s 1)).toNat := by
  and_intros <;> first | rfl | decide

/-- The state of a core with a word at its program counter. -/
def holding (w : Nat) : State := { small with mem := putBytes small.mem 0x10000 (bytesOf 4 w) }

/-- The first and the last of the NOP words that are illegal, and the bounds of MODEW and MODEF. -/
theorem witness_ModeInstructionsWriteOneField :
    ((holding 1).reds = [] ∧ ∃ pa, WordAt (holding 1) (holding 1).cur.pc.toNat pa 1)
    ∧ (∃ pa, WordAt (holding 0x1FFFFFF) (holding 0x1FFFFFF).cur.pc.toNat pa 0x1FFFFFF) ∧ 0x1FFFFFF < 2 ^ 25
    ∧ Passes (withS small 1 0x1FFFF) ⟨[.s 1], [], []⟩ [0] (.ok ()) ∧ ((withS small 1 0x1FFFF).cur.src64 (.s 1)).toNat < 2 ^ 17
    ∧ Passes (withS small 1 0x20000) ⟨[.s 1], [], []⟩ [0] (.ok ()) ∧ 2 ^ 17 ≤ ((withS small 1 0x20000).cur.src64 (.s 1)).toNat
    ∧ (([(0, 5), (5, 5), (10, 3), (13, 1), (14, 1), (15, 1), (16, 1)] : List (Nat × Nat))[6]? = some (16, 1) ∧ 1 < 2 ^ 1)
    ∧ Passes small ⟨[], [], [.s 47]⟩ [0] (.ok ()) := by
  refine ⟨⟨rfl, _, _, _, rfl, rfl, by decide, .inr ⟨rfl, by decide, by decide⟩⟩,
    ⟨_, _, _, rfl, rfl, by decide, .inr ⟨rfl, by decide, by decide⟩⟩, ?_⟩
  and_intros <;> first | rfl | decide

/-- An aligned and a misaligned target, and both outcomes of BRANY. -/
theorem witness_BranchesAndCallsTransferControl :
    Passes small ⟨[], [], [.s 7]⟩ [0] (.ok ())
    ∧ Passes (withS small 1 4) ⟨[.s 1], [], [.s 1]⟩ [0] (.ok ()) ∧ ((withS small 1 4).cur.src64 (.s 1)).toNat % 4 = 0
    ∧ Passes (withS small 1 3) ⟨[.s 1], [], []⟩ [0] (.ok ()) ∧ ((withS small 1 3).cur.src64 (.s 1)).toNat % 4 ≠ 0
    ∧ Passes (withS small 1 4) ⟨[.s 1], [.s 47], []⟩ [0] (.ok ())
    ∧ ((lanesOf small.cur.exec).any fun l => (small.cur.pred 0).getLsbD l) = false
    ∧ (let s := onCur small fun c => { c with p := Tab.put 0 c.p 7 0x80000000 }
       ((lanesOf s.cur.exec).any fun l => (s.cur.pred 7).getLsbD l) = true) := by
  and_intros <;> first | rfl | decide

/-- A course with a stack whose top entry is given, and `d` entries in all of which `n` are on chip. -/
def stacked (e : StackEntry) (n d : Nat) : State :=
  onCur paged fun c => { c with stack := e :: List.replicate (n - 1) ⟨.diverge, 0, true, 0xFFFFFFFF, 0⟩, depth := d }

/-- A divergence entry, before and after its deferred path. -/
def split (ph : Bool) : StackEntry := ⟨.diverge, 0x20000, ph, 0xFFFFFFFF, 0xFFFF⟩

set_option maxRecDepth 100000 in
/-- Room on chip, and with 32 entries there room after a spill; the last depth that a branch may push at and the first that
it may not; a pop that brings an entry back. -/
theorem witness_DivergencePushesAndJoinPops :
    (small.cur.depth < 255 ∧ RoomOnChip small small)
    ∧ ((stacked (split true) 32 254).cur.depth < 255 ∧ ∃ w, RoomOnChip (stacked (split true) 32 254) w)
    ∧ 255 ≤ (stacked (split true) 32 255).cur.depth
    ∧ small.cur.stack = []
    ∧ ((stacked (split false) 1 1).cur.stack = [split false] ∧ (split false).kind = .diverge ∧ (split false).phase = false
        ∧ (split false).pend ≠ 0)
    ∧ ((stacked (split true) 1 1).inRep = false ∧ Popped (stacked (split true) 1 1) (stacked (split true) 1 1) [])
    ∧ (∃ w l, Popped (stacked (split true) 1 2) w l) := by
  refine ⟨⟨by decide, .inl ⟨by decide, rfl⟩⟩, ⟨by decide, _, .inr ⟨by decide, done_value small _ (by decide +kernel)⟩⟩, by decide, rfl, ⟨rfl, rfl, rfl, by decide⟩,
    ⟨rfl, .inl ⟨by decide, rfl, rfl⟩⟩,
    ⟨_, _, .inr ⟨by decide, _, done_both (small, 0) _ (by decide +kernel), rfl⟩⟩⟩

/-- A course within its first handler, or deeper. -/
def inTrap (n : Nat) : State := onCur paged fun c => { c with tlev := n }

/-- The state in which a trap's record has been written. -/
def recordedIn (s : State) (i : TrapInfo) : State :=
  let t := value small ((value small (recordWrite s i)).selfWrite s.curWg s.curCrs (s.courseBlock s.curWg s.curCrs) (bytesOf 8 (s.cur.tlev + 1)))
  t.setCur { t.cur with tlev := s.cur.tlev + 1, mode := 0, repst := 0 }

/-- Where both writes of a trap's record are done, they give it. -/
theorem recorded (s : State) (i : TrapInfo) (h1 : isDone (recordWrite s i) = true)
    (h2 : isDone ((value small (recordWrite s i)).selfWrite s.curWg s.curCrs (s.courseBlock s.curWg s.curCrs) (bytesOf 8 (s.cur.tlev + 1)))
      = true) : TrapRecorded s (recordedIn s i) i :=
  ⟨_, _, done_value small _ h1, done_value small _ h2, rfl⟩

/-- The last level at which a trap is taken and the first at which it is not; code 255 inside and outside a handler. -/
theorem witness_SoftwareTrapsEnterHandler :
    ((inTrap 3).curL.handler ≠ 0 ∧ (inTrap 3).cur.tlev < 4 ∧ (inTrap 3).cur.depth < 256
      ∧ ∃ w, TrapWrites (inTrap 3) w { code := 0x0E, info := 254, resume := some ((inTrap 3).cur.pc + 4) })
    ∧ ((inTrap 0).cur.tlev = 0 ∧ (inTrap 0).cur.armed = false
      ∧ ∃ w, TrapWrites (inTrap 0) w { code := 0x0F, info := 255, resume := some ((inTrap 0).cur.pc + 4) })
    ∧ (onCur small fun c => { c with armed := true }).cur.armed = true
    ∧ small.curL.handler = 0 ∧ 4 ≤ (inTrap 4).cur.tlev ∧ (inTrap 1).cur.tlev ≠ 0
    ∧ (let s := onCur (inTrap 0) fun c => { c with depth := 256 }
       let i : TrapInfo := { code := 0x0E, info := 7, resume := some (s.cur.pc + 4) }
       s.curL.handler ≠ 0 ∧ s.cur.tlev < 4 ∧ 256 ≤ s.cur.depth ∧ ∃ w, TrapRecorded s w i)
    ∧ (let s := (inTrap 0).setGrid 1 { (inTrap 0).grid 1 with chain := { ((inTrap 0).grid 1).chain with savea := 2 ^ 54 } }
       s.curL.handler ≠ 0 ∧ s.cur.tlev < 4 ∧ recordWrite s { code := 0x0E, info := 7, resume := some (s.cur.pc + 4) } = .bad)
    ∧ ((small.grid 1).abort = none ∧ (Tab.find small.grids 1).isSome = true) := by
  refine ⟨⟨by decide, by decide, by decide, _, _, recorded _ _ (by decide +kernel) (by decide +kernel), .inl ⟨by decide +kernel, rfl⟩⟩,
    ⟨rfl, rfl, _, _, recorded _ _ (by decide +kernel) (by decide +kernel), .inl ⟨by decide +kernel, rfl⟩⟩, by decide, rfl, by decide, by decide,
    ⟨by decide, by decide, by decide, _, recorded _ _ (by decide +kernel) (by decide +kernel)⟩, ⟨by decide, by decide, by decide +kernel⟩, rfl, by decide⟩

theorem witness_TrapRecordLayout :
    let i : TrapInfo := { code := 255, lane := 255, arr := 255, info := 2 ^ 32 - 1, fva := 2 ^ 64 - 1, peer := 2 ^ 12 - 1 }
    i.code < 256 ∧ i.lane < 256 ∧ i.arr < 256 ∧ i.info < 2 ^ 32 ∧ i.fva < 2 ^ 64 ∧ i.peer < 2 ^ 12 := by
  decide

/-- A course within a handler, its trap entry on top, whose slot holds MODE and REPST. -/
def handling (mode repst : Nat) : State :=
  let t := stacked ⟨.trap, 0x20000, false, 0xFFFFFFFF, 0⟩ 1 1
  onCur { t with mem := putBytes t.mem (0x20000 + 0x124 - 0x10000) (bytesOf 8 (mode + repst * 2 ^ 32)) } fun c => { c with tlev := 1 }

set_option maxRecDepth 100000 in
/-- A slot that the join takes, with DONE equal to COUNT, and the first MODE and DONE that it does not. -/
theorem witness_JoinReturnsFromTrap :
    (∃ e s2, (handling 0x1FFFF 0x10404).cur.stack = [e] ∧ e.kind = .trap
      ∧ (∃ s1, (handling 0x1FFFF 0x10404).selfRead 0 0 ((handling 0x1FFFF 0x10404).courseBlock 0 0 + 0x100 + 36) 8
        = .ok (s1, 0x1FFFF + 0x10404 * 2 ^ 32)
      ∧ s1.selfWrite 0 0 ((handling 0x1FFFF 0x10404).courseBlock 0 0) (bytesOf 8 0) = .ok s2)
      ∧ Popped (handling 0x1FFFF 0x10404) (handling 0x1FFFF 0x10404) [])
    ∧ (0x1FFFF < 2 ^ 17 ∧ 4 ≤ 4) ∧ (∀ m ∈ (handling 0x1FFFF 0x10404).curW.cmds, m.again = none)
      ∧ (handling 0x1FFFF 0x10404).curW.holder ≠ some ((handling 0x1FFFF 0x10404).curCrs, (handling 0x1FFFF 0x10404).cur.tlev)
    ∧ (∃ s1, (handling 0x20000 0).selfRead 0 0 ((handling 0x20000 0).courseBlock 0 0 + 0x100 + 36) 8 = .ok (s1, 0x20000))
    ∧ (∃ s1, (handling 0 0x10405).selfRead 0 0 ((handling 0 0x10405).courseBlock 0 0 + 0x100 + 36) 8 = .ok (s1, 0x10405 * 2 ^ 32)) := by
  refine ⟨⟨_, _, rfl, rfl, ⟨_, done_pair (small, 0) _ _ (by decide +kernel) (by decide +kernel), done_value small _ (by decide +kernel)⟩,
      .inl ⟨by decide, rfl, rfl⟩⟩, ⟨by decide, by decide⟩, (fun _ h => nomatch h), by decide, ⟨_, done_pair (small, 0) _ _ (by decide +kernel) (by decide +kernel)⟩,
    ⟨_, done_pair (small, 0) _ _ (by decide +kernel) (by decide +kernel)⟩⟩

/-- A load in flight. -/
def flight (k : FlightKind) (ls : List LaneAcc) : Flight := ⟨0, k, false, false, .co, [1], false, ls, [], [], 0x10000, 0, 0⟩

/-- The summaries of batch 0 into s0. -/
def closing0 : Flight := { flight (.closeb 0 [2] [] [] 0 none) [] with marks := [] }

/-- A failure with status 6 whose destination is v1. -/
def failed1 : Failure := ⟨6, 0, 0, 0x10000, 1, 0x10000, [1], false⟩

/-- A course whose v1 is empty, and the flights and failures given. -/
def awaits (v1 : Bool) (fs : List Flight) (gs : List Failure) : State :=
  onCur small fun c => { c with vfull := [(1, v1)], flights := fs, failed := gs }

/-- No register is awaited where every one is full, or v1 alone is empty and its producer has failed. -/
theorem none_awaited (s : State) (hs : s.cur.sfull = []) (hv : s.cur.vfull = [] ∨ s.cur.vfull = [(1, true)]
    ∨ (s.cur.vfull = [(1, false)] ∧ failed1 ∈ s.cur.failed)) : ∀ scal n, ¬Awaited s scal n := by
  intro scal n h
  obtain ⟨h, g⟩ := h
  cases scal
  · have h1 : Tab.get true s.cur.vfull n = false := h.2
    by_cases e : n = 1
    · subst e
      rcases hv with v | v | ⟨v, f⟩
      · rw [v] at h1; cases h1
      · rw [v] at h1; cases h1
      · exact g failed1 f rfl (by decide)
    · rcases hv with v | v | ⟨v, _⟩ <;> rw [v] at h1 <;> simp [Tab.get, Tab.find, Ne.symm e] at h1
  · have h1 : Tab.get true s.cur.sfull n = false := (by simpa [Course.sIsFull] using h.2 : _ ∧ _).2
    rw [hs] at h1
    cases h1

/-- A course that may end; one that waits for v1, for s0's summaries, and one with a failure alone, whose register the wait passes. -/
theorem witness_ExitEndsCourse :
    MayEnd small
    ∧ ((awaits false [flight (.load 4) []] []).reportPoint = .ok () ∧ Awaited (awaits false [flight (.load 4) []] []) false 1)
    ∧ ((awaits true [closing0] []).reportPoint = .ok () ∧ (∀ scal n, ¬Awaited (awaits true [closing0] []) scal n)
        ∧ ClosebOut (awaits true [closing0] []))
    ∧ ((awaits false [] [failed1]).reportPoint = .ok () ∧ (∀ scal n, ¬Awaited (awaits false [] [failed1]) scal n)
        ∧ ¬ClosebOut (awaits false [] [failed1]) ∧ (awaits false [] [failed1]).cur.failed = [failed1]) := by
  refine ⟨⟨rfl, none_awaited _ rfl (.inl rfl), ?_, rfl⟩, ⟨rfl, ⟨by decide, rfl⟩, fun _ h => nomatch h⟩,
    ⟨rfl, none_awaited _ rfl (.inr (.inl rfl)), closing0, .head _, rfl, _, _, _, _, _, _, rfl⟩,
    ⟨rfl, none_awaited _ rfl (.inr (.inr ⟨rfl, .head _⟩)), ?_, rfl⟩⟩ <;> exact fun ⟨_, h, _⟩ => nomatch h

/-- The words of a REP and an instruction behind it, at repetition `i` of 4. -/
def repeated (rep word i : Nat) : State :=
  onCur { small with mem := putBytes small.mem 0x10000 (bytesOf 4 rep ++ bytesOf 4 word) } fun c =>
    { c with repst := if i = 0 then 0 else repWord true 4 i }

/-- A machine with the words of a REP and an instruction, whose s3 holds `n`. -/
def counted (rep word n : Nat) (i : Nat) : State := withS (repeated rep word i) 3 (BitVec.ofNat 64 n)

/-- The REP and FADD of section 8's example and its IADD twin: repetitions within the allotment and the first beyond it; a word
that is no instruction, one that REP may not prefix, and a stride on the register that counts. -/
theorem witness_RepStartsAndEnds :
    ((repeated 0x1E084400 0xFE000000 0).inRep = false
      ∧ ∃ r w e, fetchWord (repeated 0x1E084400 0xFE000000 0) ((repeated 0x1E084400 0xFE000000 0).cur.pc.toNat + 4) = .ok (r, w)
        ∧ parseCore [w, 0, 0] = .error e)
    ∧ (∃ r w, fetchWord (repeated 0x1E084400 0x1E084400 0) ((repeated 0x1E084400 0x1E084400 0).cur.pc.toNat + 4) = .ok (r, w)
        ∧ parseCore [w, 0, 0] = .ok (.rep (.imm 4) 2 2 0) ∧ repAllows (.rep (.imm 4) 2 2 0) (.imm 4) 2 2 0 = false)
    ∧ ((counted 0x1E084400 0x50281186 256 0).inRep = false ∧ (counted 0x1E084400 0x50281186 256 0).cur.repAct = false
      ∧ (∃ r w, fetchWord (counted 0x1E084400 0x50281186 256 0) ((counted 0x1E084400 0x50281186 256 0).cur.pc.toNat + 4) = .ok (r, w)
        ∧ parseCore [w, 0, 0] = .ok (.fadd (.v 20) (.v 8) (.s 3) false))
      ∧ repAllows (.fadd (.v 20) (.v 8) (.s 3) false) (.reg 3) 2 2 0 = true
      ∧ repAllows (.fadd (.v 20) (.v 8) (.s 3) false) (.reg 3) 2 2 1 = false
      ∧ Passes (counted 0x1E084400 0x50281186 256 0) ⟨[], [.s 3], []⟩ [0] (.ok ())
      ∧ 255 < ((counted 0x1E084400 0x50281186 256 0).cur.sreg 3).toNat)
    ∧ (repCountOf (counted 0x1E084400 0x50281186 255 0) (.reg 3) = .ok 255 ∧ repCountOf (counted 0x1E084400 0x50281186 0 0) (.reg 3) = .ok 0)
    ∧ ((repeated 0x1E084400 0x50281186 4).cur.repAct = true
        ∧ (repeated 0x1E084400 0x50281186 4).cur.repCount ≤ (repeated 0x1E084400 0x50281186 4).cur.repDone)
    ∧ (∃ r t, fetchInstr (repeated 0x1E084400 0x20281186 3) (repeated 0x1E084400 0x20281186 3).cur.pc.toNat = .ok (r, .rep (.imm 4) 2 2 0)
        ∧ (repeated 0x1E084400 0x20281186 3).cur.repAct = true
        ∧ (repeated 0x1E084400 0x20281186 3).cur.repDone < (repeated 0x1E084400 0x20281186 3).cur.repCount
        ∧ fetchInstr r ((repeated 0x1E084400 0x20281186 3).cur.pc.toNat + 4) = .ok (t, .iadd (.v 20) (.v 8) (.s 3) false))
    ∧ (∃ r t, fetchInstr (repeated 0x1F864421 0x20281186 3) (repeated 0x1F864421 0x20281186 3).cur.pc.toNat = .ok (r, .rep (.reg 3) 2 2 1)
        ∧ fetchInstr r ((repeated 0x1F864421 0x20281186 3).cur.pc.toNat + 4) = .ok (t, .iadd (.v 20) (.v 8) (.s 3) false))
    ∧ (20 + 3 * 2 < (repeated 0x1E084400 0x20281186 3).curL.nv ∧ ¬(190 + 3 * 2 < (repeated 0x1E084400 0x20281186 3).curL.nv)) := by
  refine ⟨⟨rfl, _, _, _, rfl, rfl⟩, ⟨_, _, rfl, rfl, rfl⟩, ⟨rfl, rfl, ⟨_, _, rfl, rfl⟩, rfl, rfl, rfl, by decide⟩, ⟨rfl, rfl⟩, ⟨rfl, by decide⟩,
    ⟨_, _, rfl, rfl, by decide, rfl⟩, ⟨_, _, rfl, rfl⟩, by decide⟩

/-- The lanes of a load of v3 at the address in s1, lane 31 alone active or none, and a 16-byte load of four registers; a
misaligned lane; a local load; a column load. -/
theorem witness_LoadsIssueAsProducers :
    (let s := active (at1 4 0x1FFFC) 0x80000000
     Passes s ⟨[.v 2], [.s 1], loadRegs s (.v 3)⟩ (s.cur.pathLanes [.v 3, .v 2]) (memMode s (.v 3))
      ∧ AllAligned 4 (laneAddrs s [.v 3, .v 2] (.v 2) 1 none 4)
      ∧ ∃ r xs, translate s 0 (laneAddrs s [.v 3, .v 2] (.v 2) 1 none 4) = .ok (r, xs)
        ∧ unpoisoned r true (lanesAt s (.v 3) (.v 2) 1 none 4 xs) = .ok () ∧ remoteReady r false (lanesAt s (.v 3) (.v 2) 1 none 4 xs) = .ok ()
        ∧ xs ≠ [])
    ∧ (let s := active (at1 4 0) 0
       Passes s ⟨[.v 2], [.s 1], loadRegs s (.v 3)⟩ (s.cur.pathLanes [.v 3, .v 2]) (memMode s (.v 3))
        ∧ ∃ r, translate s 0 (laneAddrs s [.v 3, .v 2] (.v 2) 1 none 4) = .ok (r, []))
    ∧ (let s := at1 17 0x10000
       Passes s ⟨[.s 0], [.s 1], loadRegs s (.v 188)⟩ (s.cur.pathLanes [.v 188, .s 0]) (memMode s (.v 188))
        ∧ AllAligned 16 (laneAddrs s [.v 188, .s 0] (.s 0) 1 none 16))
    ∧ (let s := active (at1 4 0x10001) 0x80000000
       Passes s ⟨[.v 2], [.s 1], loadRegs s (.v 3)⟩ (s.cur.pathLanes [.v 3, .v 2]) (memMode s (.v 3))
        ∧ ((laneAddrs s [.v 3, .v 2] (.v 2) 1 none 4).find? fun x => decide (x.2 % 4 ≠ 0)) = some (31, 0x10001))
    ∧ (let s := at1 0 0x7FFFF
       ∃ ls, localLanes s [] (loadRegs s (.v 3)) (.v 3) (.v 2) 1 none (widthOf s.cur.ty) (memMode s (.v 3)) = .ok ls
        ∧ unpoisoned s false ls = .ok () ∧ ls ≠ [])
    ∧ (let s := at1 4 0x10000
       ∃ r ls, columnLanes s 4 [] [.v 3] (.v 3) (.s 0) 1 none = .ok (r, ls) ∧ unpoisoned r false ls = .ok () ∧ ls ≠ []) := by
  refine ⟨⟨rfl, by unfold AllAligned; decide +kernel, _, _, good_pair (small, []) _ (by decide +kernel), good_unit _ (by decide +kernel),
      good_unit _ (by decide +kernel), by decide +kernel⟩, ⟨rfl, _, rfl⟩, ⟨rfl, by unfold AllAligned; decide +kernel⟩, ⟨rfl, by decide +kernel⟩,
    ⟨_, good_got [] _ (by decide +kernel), good_unit _ (by decide +kernel), by decide +kernel⟩,
    ⟨_, _, good_pair (small, []) _ (by decide +kernel), good_unit _ (by decide +kernel), by decide +kernel⟩⟩

/-- A course whose page is at peer 5, toward which link 15 is open, batch 3 naming `n` other peers; EXEC has lanes 0 and 31. -/
def outward (n : Nat) : State :=
  let s := active (at1 4 0x1FFFC) 0x80000001
  let t := s.setCore 0 { s.core 0 with tlb := [tlbEntry 1 0x10000 (0x100F7 + 5 * 2 ^ 48) 0] }
  onCur { t with routes := [(5, 0x8000)], links := [(15, { Link.reset with lmode := 1, state := 2, lpeer := 5 })] } fun c =>
    c.setBatch 3 { c.batch 3 with peers := (List.range n).map (100 + ·), count := 0xFFFFFFFF }

/-- Every lane is at a peer toward which link 15 is open. -/
def waysOpen (s : State) (ls : List LaneAcc) : Bool :=
  ls.all fun a => match a.tgt with
    | .stack _ => true
    | .remote p pa => decide (s.routePick p pa = .go 15) && decide (s.linkAnswer 15 p = .go 15)
    | _ => false

theorem ways_open (s : State) (ls : List LaneAcc) (h : waysOpen s ls = true) : StoreTargets s ls := by
  intro a ha
  have g := (List.all_eq_true.mp h) a ha
  cases e : a.tgt <;> simp only [e] at g ⊢ <;> try cases g
  · obtain ⟨g1, g2⟩ := Bool.and_eq_true_iff.mp g
    have g1 := of_decide_eq_true g1
    have g2 := of_decide_eq_true g2
    refine ⟨fun st x => ?_, fun j st x y => ?_⟩
    · rw [g1] at x; cases x
    · rw [g1] at x; cases x; rw [g2] at y; cases y

/-- The lanes of a store of v3 there. -/
def outLanes (s : State) (xs : List (Nat × Xlat)) : List LaneAcc :=
  (lanesAt s (.v 3) (.v 2) 1 none 4 xs).map fun a => { a with reg := 0, v := s.cur.storeValue (.v 3) 4 a.lane }

/-- The same of the stores: the last address of a page, the last byte of the scratchpad, and a column; a page of another module, with
room for one more peer in the batch and with none. -/
theorem witness_StoresPendInLaneOrder :
    (let s := active (at1 2 0x1FFFE) 0x80000001
     Passes s ⟨[.v 2], .s 1 :: loadRegs s (.v 3), []⟩ (s.cur.pathLanes [.v 3, .v 2]) (memMode s (.v 3))
      ∧ AllAligned 2 (laneAddrs s [.v 3, .v 2] (.v 2) 1 none 2)
      ∧ (∃ r xs, translate s 1 (laneAddrs s [.v 3, .v 2] (.v 2) 1 none 2) = .ok (r, xs) ∧ ∀ x ∈ xs, x.2.res = .here)
      ∧ s.buffers s.curWg = false)
    ∧ (let s := at1 0 0x7FFFF
       ∃ ls, localLanes s (loadRegs s (.v 3)) [] (.v 3) (.v 2) 1 none (widthOf s.cur.ty) (memMode s (.v 3)) = .ok ls)
    ∧ (let s := at1 4 0x10000
       (∃ r ls, columnLanes s 5 [.v 3] [] (.v 3) (.s 0) 1 none = .ok (r, ls)) ∧ s.buffers s.curWg = false)
    ∧ (let s := outward 63
       widthOf s.cur.ty = 4 ∧ Passes s ⟨[.v 2], .s 1 :: loadRegs s (.v 3), []⟩ (s.cur.pathLanes [.v 3, .v 2]) (memMode s (.v 3))
        ∧ AllAligned 4 (laneAddrs s [.v 3, .v 2] (.v 2) 1 none 4) ∧ s.buffers s.curWg = false
        ∧ ∃ r xs, translate s 1 (laneAddrs s [.v 3, .v 2] (.v 2) 1 none 4) = .ok (r, xs) ∧ (outLanes s xs).length = 2
          ∧ farLanes (outLanes s xs) = outLanes s xs ∧ newPeers s.cur 3 (outLanes s xs) = [5] ∧ BatchRoom s.cur 3 (outLanes s xs)
          ∧ remoteReady r false (outLanes s xs) = .ok () ∧ StoreTargets r (outLanes s xs))
    ∧ (let s := outward 64
       Passes s ⟨[.v 2], .s 1 :: loadRegs s (.v 3), []⟩ (s.cur.pathLanes [.v 3, .v 2]) (memMode s (.v 3))
        ∧ AllAligned 4 (laneAddrs s [.v 3, .v 2] (.v 2) 1 none 4)
        ∧ ∃ r xs, translate s 1 (laneAddrs s [.v 3, .v 2] (.v 2) 1 none 4) = .ok (r, xs) ∧ ¬BatchRoom s.cur 3 (outLanes s xs)) := by
  refine ⟨⟨rfl, by unfold AllAligned; decide +kernel, ⟨_, _, good_pair (small, []) _ (by decide +kernel), by decide +kernel⟩, by decide +kernel⟩,
    ⟨_, good_got [] _ (by decide +kernel)⟩, ⟨⟨_, _, good_pair (small, []) _ (by decide +kernel)⟩, by decide +kernel⟩,
    ⟨by decide, rfl, by unfold AllAligned; decide +kernel, by decide +kernel, _, _, good_pair (small, []) _ (by decide +kernel),
      by decide +kernel, by decide +kernel, by decide +kernel, by unfold BatchRoom; decide +kernel, good_unit _ (by decide +kernel),
      ways_open _ _ (by decide +kernel)⟩,
    ⟨rfl, by unfold AllAligned; decide +kernel, _, _, good_pair (small, []) _ (by decide +kernel), by unfold BatchRoom; decide +kernel⟩⟩

/-- A load of one lane in flight to v1. -/
def loading : Flight := flight (.load 4) [⟨31, .stack 0x1FFFC, 0x1FFFC, 4, 1, 0, 0⟩]

theorem witness_LoadsLandMemoryValues :
    let s := onCur small fun c => { c with flights := [loading] }
    0 ≠ hostUid ∧ (s.crs 0 0).flights.find? (fun x => decide (x.id = loading.id)) = some loading ∧ loading.kind = .load 4 ∧ 4 < 32
    ∧ widthOf 4 ≠ 16 ∧ loading.scal = false ∧ loading.marks = [1] ∧ loading.lanes ≠ [] ∧ (loading.lanes.map LaneAcc.lane).Nodup
    ∧ (∀ a ∈ loading.lanes, a.reg = 1 ∧ a.lane < 32 ∧ a.width = widthOf 4
      ∧ ∃ pa, a.tgt = .stack pa ∧ pa % widthOf 4 = 0 ∧ s.l1Hit (s.wg 0).core pa = none)
    ∧ loading.fails = [] ∧ s.reds = [] ∧ s.buffers 0 = false ∧ (∀ a ∈ loading.lanes, s.poisonAt a.tgt a.width = none)
    ∧ s.mayPerform 0 0 loading.id loading.orderedFrom (loading.lanes.map fun a => (a.tgt, a.width)) = true := by
  refine ⟨by decide, rfl, rfl, by decide, by decide, rfl, rfl, by decide, by decide, ?_, rfl, rfl, by decide, by decide +kernel, by decide +kernel⟩
  intro a h
  simp only [loading, flight, List.mem_singleton] at h
  subst h
  exact ⟨rfl, by decide, rfl, _, rfl, rfl, by decide +kernel⟩

/-- A write of the last word of a page, and of the last granule of a scratchpad. -/
def writing (t : Target) : State := { small with pend := [⟨5, 0, 0, t, 4, 0xFFFFFFFF, false, 0, none⟩] }

theorem witness_PerformedWritesChangeOnlyTheirBytes :
    (let s := writing (.stack 0x1FFFC)
     (∃ w, (s.pend.find? fun x => decide (x.id = 5)) = some w ∧ w.red = none) ∧ s.mayPerform 0 0 5 0 [(.stack 0x1FFFC, 4)] = true
      ∧ s.reds = [])
    ∧ (let s := writing (.scratch 0 0x7FFFC)
       s.mayPerform 0 0 5 0 [(.scratch 0 0x7FFFC, 4)] = true) := by
  refine ⟨⟨⟨_, rfl, rfl⟩, by decide +kernel, rfl⟩, by decide +kernel⟩

/-- A course whose granule 0 is full or empty. -/
def granule0 (full : Bool) : State := onWg (active (at1 4 0) 0x80000001) fun w => { w with fe := [(0, full)] }

/-- The lanes of LDL v3 and STL v3 there. -/
def lanes0 (full : Bool) (store : Bool) : List LaneAcc :=
  let s := granule0 full
  got [] (localLanes s (if store then loadRegs s (.v 3) else []) (if store then [] else loadRegs s (.v 3)) (.v 3) (.v 2) 1 none
    (widthOf s.cur.ty) (memMode s (.v 3)))

/-- The lanes reach the arbiter of workgroup 0's scratchpad with nothing in the way. -/
theorem at_arbiter (s : State) (rel : Bool) (ls : List LaneAcc)
    (h : (s.cur.arb = none ∧ s.curW.status = .resident ∧ s.curG.abort = none ∧ s.waiting = [] ∧ (s.core s.curW.core).frozen = false
      ∧ (s.core (s.wg 0).core).frozen = false)
      ∧ s.mayPerform s.curWg s.curCrs s.stamp (if rel then s.stamp else s.cur.relBar) (ls.map fun a => (a.tgt, a.width)) = true) :
    AtArbiter s 0 rel ls := ⟨h.1.1, h.1.2.1, h.1.2.2.1, h.1.2.2.2.1, h.1.2.2.2.2.1, h.1.2.2.2.2.2, h.2⟩

theorem granules_in (s : State) (f : Bool) (ls : List LaneAcc) (h : (ls.all fun a => s.granuleIs f a.granule) = true) :
    GranulesIn s (some f) ls := by
  intro full e a ha
  cases e
  exact List.all_eq_true.mp h a ha

theorem granules_out (s : State) (f : Bool) (ls : List LaneAcc) (h : (ls.all fun a => s.granuleIs f a.granule) = false) :
    ¬GranulesIn s (some f) ls := fun g => by
  have : (ls.all fun a => s.granuleIs f a.granule) = true := List.all_eq_true.mpr (g f rfl)
  rw [this] at h
  cases h

/-- Loads and stores whose granules are in the state that they ask for, and in the other; a store that asks for none. -/
theorem witness_QualifiedLocalAccessesMoveFullBits :
    (LdQual.take ≠ .any ∧ (∀ b, localLanes (granule0 b) [] (loadRegs (granule0 b) (.v 3)) (.v 3) (.v 2) 1 none
        (widthOf (granule0 b).cur.ty) (memMode (granule0 b) (.v 3)) = .ok (lanes0 b false))
      ∧ (∀ b, lanes0 b false ≠ [] ∧ InScratch 0 (lanes0 b false) ∧ AtArbiter (granule0 b) 0 false (lanes0 b false))
      ∧ GranulesIn (granule0 true) (some true) (lanes0 true false)
      ∧ (∀ a ∈ lanes0 true false, (granule0 true).localPoison a = false)
      ∧ ¬GranulesIn (granule0 false) (some true) (lanes0 false false))
    ∧ (StQual.put ≠ .any ∧ StQual.fill ≠ .any ∧ (∀ b, localLanes (granule0 b) (loadRegs (granule0 b) (.v 3)) [] (.v 3) (.v 2) 1 none
        (widthOf (granule0 b).cur.ty) (memMode (granule0 b) (.v 3)) = .ok (lanes0 b true))
      ∧ (∀ b, InScratch 0 (lanes0 b true) ∧ AtArbiter (granule0 b) 0 true (lanes0 b true) ∧ AtArbiter (granule0 b) 0 false (lanes0 b true))
      ∧ GranulesIn (granule0 false) (some false) (lanes0 false true) ∧ GranulesIn (granule0 true) none (lanes0 true true)
      ∧ ¬GranulesIn (granule0 true) (some false) (lanes0 true true)) := by
  refine ⟨⟨by decide, fun b => ?_, fun b => ?_, granules_in _ _ _ (by decide +kernel), by decide +kernel, granules_out _ _ _ (by decide +kernel)⟩,
    ⟨by decide, by decide, fun b => ?_, fun b => ?_, granules_in _ _ _ (by decide +kernel), fun _ h => (by cases h),
      granules_out _ _ _ (by decide +kernel)⟩⟩
  · cases b <;> exact good_got [] _ (by decide +kernel)
  · cases b <;> exact ⟨by decide +kernel, scratch_of _ _ (by decide +kernel), at_arbiter _ _ _ (by decide +kernel)⟩
  · cases b <;> exact good_got [] _ (by decide +kernel)
  · cases b <;> exact ⟨scratch_of _ _ (by decide +kernel), at_arbiter _ _ _ (by decide +kernel), at_arbiter _ _ _ (by decide +kernel)⟩

/-- A grid with deterministic reservation of 32 numbers for its one course. -/
def reserving (n : Nat) : State :=
  onCur (onLaunch (active (at1 5 0x10000) 1) fun l => { l with det := true, k := 32 }) fun c =>
    { c with v := Tab.put (Vector.replicate 32 0) [] 3 (Vector.replicate 32 (BitVec.ofNat 32 n)) }

/-- A compare-and-swap at a module's memory and at a scratchpad, the last reservation that fits and the first that does not,
and a reduction store. -/
theorem witness_AtomicsIssueAsProducers :
    (let s := active (at1 4 0x1FFFC) 0x80000001
     ∃ r ls, atomLanes s 10 [.v 3] (.v 3) (.v 2) 1 none (need (!s.curL.ver) illegal) = .ok (r, ls) ∧ unpoisoned r false ls = .ok ()
      ∧ remoteReady r false ls = .ok () ∧ ls ≠ [])
    ∧ (let s := granule0 true
       ∃ ls, localLanes s (atomSources 10 (.v 3)) [.v 3] (.v 3) (.v 2) 1 none (rmwWidth 10) (atomMode s.cur 10 (.v 3)) = .ok ls
        ∧ ls.map (s.cur.bring 10 (.v 3)) ≠ [] ∧ InScratch 0 (ls.map (s.cur.bring 10 (.v 3)))
        ∧ (∀ a ∈ ls.map (s.cur.bring 10 (.v 3)), s.localPoison a = false) ∧ AtArbiter s 0 true (ls.map (s.cur.bring 10 (.v 3)))
        ∧ GranulesIn s (some true) (ls.map (s.cur.bring 10 (.v 3))) ∧ GranulesIn s none (ls.map (s.cur.bring 10 (.v 3))))
    ∧ (let s := active (at1 5 0x10000) 1
       Passes s ⟨[.s 0], [.s 1, .v 3], [.v 3]⟩ (lanesOf s.cur.active) (.ok ()) ∧ s.cur.addr (.s 0) 1 none 4 0 % 4 = 0
        ∧ s.curL.det = false ∧ ∃ r x, translate s 2 (((lanesOf s.cur.active).take 1).map fun k => (k, s.cur.addr (.s 0) 1 none 4 0)) = .ok (r, [(0, x)])
          ∧ unpoisoned r false [⟨0, x.target, 0x10000, 4, 3, 0, 0⟩] = .ok () ∧ remoteReady r false [⟨0, x.target, 0x10000, 4, 3, 0, 0⟩] = .ok ())
    ∧ ((reserving 32).curL.det = true
        ∧ (reserving 32).cur.detUsed + ((reserving 32).cur.src (.v 3) 0).toNat ≤ (reserving 32).curL.k / (reserving 32).curL.ncrs
        ∧ (reserving 33).curL.k / (reserving 33).curL.ncrs < (reserving 33).cur.detUsed + ((reserving 33).cur.src (.v 3) 0).toNat)
    ∧ (let s := active (at1 4 0x1FFFC) 0x80000001
       (∃ r ls, atomLanes s 8 [] (.v 3) (.v 2) 1 none (.ok ()) = .ok (r, ls) ∧ (∀ a ∈ ls, ∃ pa, a.tgt = .stack pa))
        ∧ s.buffers s.curWg = false ∧ s.curL.det = false)
    ∧ (let s := outward 63
       s.buffers s.curWg = false ∧ s.curL.det = false ∧ ∃ r ls, atomLanes s 8 [] (.v 3) (.v 2) 1 none (.ok ()) = .ok (r, ls)
        ∧ ls.length = 2 ∧ farLanes ls = ls ∧ BatchRoom s.cur 3 ls ∧ remoteReady r false ls = .ok () ∧ StoreTargets r ls)
    ∧ (let s := outward 64
       s.buffers s.curWg = false ∧ s.curL.det = false ∧ ∃ r ls, atomLanes s 8 [] (.v 3) (.v 2) 1 none (.ok ()) = .ok (r, ls)
        ∧ ¬BatchRoom s.cur 3 ls) := by
  refine ⟨⟨_, _, good_pair (small, []) _ (by decide +kernel), good_unit _ (by decide +kernel), good_unit _ (by decide +kernel), by decide +kernel⟩,
    ⟨_, good_got [] _ (by decide +kernel), by decide +kernel, scratch_of _ _ (by decide +kernel), by decide +kernel,
      at_arbiter _ _ _ (by decide +kernel), granules_in _ _ _ (by decide +kernel), fun _ h => (by cases h)⟩,
    ⟨rfl, by decide +kernel, rfl, _, _, rfl, good_unit _ (by decide +kernel), good_unit _ (by decide +kernel)⟩,
    by decide +kernel,
    ⟨⟨_, _, good_pair (small, []) _ (by decide +kernel), memory_of _ (by decide +kernel)⟩, by decide +kernel⟩,
    ⟨by decide +kernel, rfl, _, _, good_pair (small, []) _ (by decide +kernel), by decide +kernel, by decide +kernel,
      by unfold BatchRoom; decide +kernel, good_unit _ (by decide +kernel), ways_open _ _ (by decide +kernel)⟩,
    ⟨by decide +kernel, rfl, _, _, good_pair (small, []) _ (by decide +kernel), by unfold BatchRoom; decide +kernel⟩⟩

/-- The last block of a SPILL of eight registers, and the first of a FILL of eight vectors and of eight scalars; a base that is no
multiple of a block. -/
theorem witness_RegisterBlocksMoveOneByOne :
    (let s := onCur (at1 4 0x1FC00) fun c => { c with repst := repWord true 8 7 }
     (Instr.spill (.v 184) (.v 191) 1 none).wf = true ∧ s.inRep = false ∧ BlockChecks s (.v 184) (.v 191) 1 none false
      ∧ Passes s ⟨[], [(Opnd.v 184).plus (blockK s)], []⟩ (List.range 32) (.ok ()) ∧ s.buffers s.curWg = false
      ∧ blockAddr s (.v 184) 1 none = 0x1FF80
      ∧ ∃ r x, translate s 1 [(0, blockAddr s (.v 184) 1 none)] = .ok (r, [(0, x)]) ∧ x.res = .here)
    ∧ (let s := at1 4 0x1FF80
       (Instr.fill (.v 184) (.v 191) 1 none).wf = true ∧ s.inRep = false ∧ BlockChecks s (.v 184) (.v 191) 1 none true
        ∧ s.buffers s.curWg = false
        ∧ ∃ r x, translate s 0 [(0, blockAddr s (.v 184) 1 none)] = .ok (r, [(0, x)]) ∧ x.res = .here ∧ r.reds = []
          ∧ r.rangePoisoned x.pa (blockSize (.v 184)) = false
          ∧ s.mayPerform s.curWg s.curCrs s.stamp 0 [(.stack x.pa, blockSize (.v 184))] = true)
    ∧ (let s := at1 4 0x10000
       (Instr.fill (.s 40) (.s 47) 1 (some 0xFFF8)).wf = true ∧ BlockChecks s (.s 40) (.s 47) 1 (some 0xFFF8) true
        ∧ ∃ r x, translate s 0 [(0, blockAddr s (.s 40) 1 (some 0xFFF8))] = .ok (r, [(0, x)]) ∧ x.res = .here
          ∧ r.rangePoisoned x.pa (blockSize (.s 40)) = false)
    ∧ (let s := at1 4 0x10001
       blockBase s 1 none % blockSize (.s 0) ≠ 0
        ∧ Passes s ⟨[], [.s 1], []⟩ [0] (need (allotted s.curL (.s 7) && allotted s.curL (.s 0)) illegal)) := by
  refine ⟨⟨rfl, rfl, ⟨rfl, by decide +kernel⟩, rfl, by decide +kernel, by decide +kernel, _, _, rfl, rfl⟩,
    ⟨rfl, rfl, ⟨rfl, by decide +kernel⟩, by decide +kernel, _, _, rfl, rfl, rfl, by decide +kernel, by decide +kernel⟩,
    ⟨rfl, ⟨rfl, by decide +kernel⟩, _, _, rfl, rfl, by decide +kernel⟩, by decide +kernel, rfl⟩

/-- Nothing outstanding, a failure, a remote load outstanding, a local one for an acquire; a slate of this module; a batch closed,
refused, awaited and illegal. -/
theorem witness_FencesOrderAndChangeNoValue :
    (small.reportPoint = .ok () ∧ small.cur.failed = [] ∧ small.cur.flights = [] ∧ small.writesDone 0 0 = true)
    ∧ (let s := awaits false [] [failed1]
       s.reportPoint = .ok () ∧ s.cur.failed = [failed1] ∧ Passes s ⟨[], [], [.s 47]⟩ [0] (.ok ()) ∧ s.curL.ver = false)
    ∧ (let s := awaits false [flight (.load 4) [⟨31, .remote 4095 0, 0x10000, 4, 1, 0, 0⟩]] []
       s.reportPoint = .ok () ∧ s.cur.failed = [] ∧ (∃ f ∈ s.cur.flights, (f.lanes.any fun a => a.tgt.far) = true)
        ∧ ∀ f ∈ s.cur.flights, f.isClose = false)
    ∧ (let s := awaits false [flight (.load 4) []] []
       s.reportPoint = .ok () ∧ s.cur.failed = [] ∧ FenceKind.acq ≠ .rel ∧ s.cur.flights ≠ [] ∧ ∀ f ∈ s.cur.flights, f.isClose = false)
    ∧ (let s := at1 4 0x1FFFF
       Passes s ⟨[.s 1], [], []⟩ [0] (.ok ()) ∧ ∃ r x, translate s 0 [(0, (s.cur.src64 (.s 1)).toNat)] = .ok (r, [(0, x)]) ∧ x.res = .here)
    ∧ (Passes small ⟨[], [], [.s 47]⟩ [0] (.ok ()) ∧ small.curL.ver = false ∧ small.cur.failed = [] ∧ small.cur.closesOut (some 3) = false)
    ∧ (Passes (awaits true [closing0] []) ⟨[], [], [.s 47]⟩ [0] (.ok ()) ∧ (awaits true [closing0] []).cur.failed = []
        ∧ (awaits true [closing0] []).cur.closesOut (some 0) = true)
    ∧ (let s := onLaunch small fun l => { l with ver := true }
       Passes s ⟨[], [], [.s 47]⟩ [0] (.ok ()) ∧ s.curL.ver = true) := by
  refine ⟨⟨rfl, rfl, rfl, by decide +kernel⟩, ⟨rfl, rfl, rfl, rfl⟩, ⟨rfl, rfl, ⟨_, .head _, rfl⟩, by decide⟩,
    ⟨rfl, rfl, by decide, by decide, by decide⟩, ⟨rfl, _, _, rfl, rfl⟩, ⟨rfl, rfl, rfl, by decide⟩, ⟨rfl, rfl, by decide⟩, ⟨rfl, rfl⟩⟩

/-- Two courses, and barrier 63 as given. -/
def barred (b : Bar) : State :=
  let t := onLaunch (withS small 1 0xFFFFFFFF) fun l => { l with ncrs := 2 }
  onWg t fun w => { w with bars := [(63, b)] }

/-- Barrier 63 before and after its phase; an EXPECT that fits and one that does not. -/
theorem witness_BarriersCountArrivalsAndBytes :
    (Passes (barred ⟨0, 0, 0, 0⟩) ⟨[], [], [.s 47]⟩ [0] (need (decide (63 < (barred ⟨0, 0, 0, 0⟩).curL.nbar)) illegal)
      ∧ (barred ⟨0, 0, 0, 0⟩).allDone = true ∧ ((barred ⟨0, 0, 0, 0⟩).bar 63).arr.getLsbD (barred ⟨0, 0, 0, 0⟩).curCrs = false
      ∧ (barred ⟨0, 0, 0, 0⟩).reportPoint = .ok () ∧ (barred ⟨0, 0, 0, 0⟩).cur.sync = none
      ∧ barAfter (barred ⟨0, 2, 0, 0⟩) ⟨0, 3, 0, 0⟩ = ⟨1, 0, 0, 0⟩ ∧ barAfter (barred ⟨0, 0, 0, 0⟩) ⟨0, 1, 0, 0⟩ = ⟨0, 1, 0, 0⟩)
    ∧ (let s := onCur (barred ⟨1, 0, 0, 0⟩) fun c => { c with sync := some (63, 0) }
       s.reportPoint = .ok () ∧ s.cur.sync = some (63, 0) ∧ (s.bar 63).ph ≠ 0)
    ∧ (Passes (barred ⟨0xFFFFFFFF, 0, 0, 0⟩) ⟨[], [.s 1], []⟩ [0] (need (decide (63 < (barred ⟨0, 0, 0, 0⟩).curL.nbar)) illegal)
      ∧ ((barred ⟨0xFFFFFFFF, 0, 0, 0⟩).bar 63).ph = ((barred ⟨0xFFFFFFFF, 0, 0, 0⟩).cur.src64 (.s 1)).setWidth 32
      ∧ ((barred ⟨0, 0, 0, 0⟩).bar 63).ph ≠ ((barred ⟨0, 0, 0, 0⟩).cur.src64 (.s 1)).setWidth 32)
    ∧ (((barred ⟨0, 0, 0, 0⟩).bar 63).exp + ((barred ⟨0, 0, 0, 0⟩).cur.src64 (.s 1)).toNat % 2 ^ 32 < 2 ^ 32
      ∧ ¬((barred ⟨0, 0, 1, 0⟩).bar 63).exp + ((barred ⟨0, 0, 1, 0⟩).cur.src64 (.s 1)).toNat % 2 ^ 32 < 2 ^ 32) := by
  refine ⟨⟨rfl, by decide +kernel, by decide +kernel, rfl, rfl, by decide +kernel, by decide +kernel⟩, ⟨rfl, rfl, by decide +kernel⟩,
    ⟨rfl, by decide +kernel, by decide +kernel⟩, by decide +kernel⟩

/-- The last word of a page watched, the wait of a monitor that is over and of one that is not; the last code of SIGQ. -/
theorem witness_MonitorsAndSignals :
    (let s := at1 4 0x1FFFC
     Passes s ⟨[.s 0], [.s 1], [.s 47]⟩ [0] (.ok ()) ∧ s.cur.addr (.s 0) 1 none 4 0 % 4 = 0
      ∧ ∃ r x, translate s 0 [(0, s.cur.addr (.s 0) 1 none 4 0)] = .ok (r, [(0, x)]) ∧ x.res = .here ∧ r.meetsPoison s.curWg (.stack x.pa) 4 = none)
    ∧ (Passes small ⟨[.s 47], [], []⟩ [0] (.ok ()) ∧ small.cur.arming = false ∧ small.monitorOver 0 0 = true)
    ∧ (let s := { small with monitors := [(0, 0, 0x1FF80, 0, false)] }
       s.cur.arming = false ∧ s.monitorOver 0 0 = false ∧ s.cur.stepping = false ∧ s.cur.wait ≠ some .mwait)
    ∧ (Passes small ⟨[.s 1], [], []⟩ [0] (.ok ()) ∧ small.allDone = true ∧ 127 < 128 ∧ small.evHost.queue.length < 1024
        ∧ small.evMgmt.queue.length < 1024) := by
  refine ⟨⟨rfl, by decide +kernel, _, _, rfl, rfl, by decide +kernel⟩, ⟨rfl, by decide, by decide⟩, by decide +kernel,
    ⟨rfl, by decide +kernel, by decide, by decide, by decide⟩⟩

/-- A task in a versioned grid, buffered or not, its word at 0x1FFFC. -/
def task (unbuf : Bool) : State :=
  onWg (onLaunch (at1 4 0x1FFFC) fun l => { l with ver := true }) fun w => { w with unbuf := unbuf }

/-- A buffered and an unbuffered task that may end, with its guard right and wrong; a page of another module; no versioned grid. -/
theorem witness_TendGuardsTaskAndEndsCourse :
    (Passes (task false) ⟨[.s 0], [.s 1, .s 47], []⟩ [0] (need (task false).curL.ver illegal) ∧ (task false).cur.addr (.s 0) 1 none 4 0 % 4 = 0
      ∧ (∃ r x, translate (task false) 0 [(0, (task false).cur.addr (.s 0) 1 none 4 0)] = .ok (r, [(0, x)]) ∧ x.res = .here)
      ∧ MayEnd (task false) ∧ (task false).curW.unbuf = false)
    ∧ (Passes (task true) ⟨[.s 0], [.s 1, .s 47], []⟩ [0] (need (task true).curL.ver illegal) ∧ MayEnd (task true)
      ∧ (task true).curW.unbuf = true ∧ (task true).mayPerform 0 0 (task true).stamp 0 [(.stack 0x1FFFC, 4)] = true
      ∧ ∃ r x, translate (task true) 0 [(0, (task true).cur.addr (.s 0) 1 none 4 0)] = .ok (r, [(0, x)]) ∧ x.pa = 0x1FFFC
        ∧ r.rangePoisoned x.pa 4 = false ∧ r.reds = [] ∧ r.read x.pa 4 = 0 ∧ r.read x.pa 4 ≠ 1)
    ∧ (let s := (task false).setCore 0 { (task false).core 0 with tlb := [tlbEntry 1 0x10000 (0x100F7 + 5 * 2 ^ 48) 0] }
       Passes s ⟨[.s 0], [.s 1, .s 47], []⟩ [0] (need s.curL.ver illegal)
        ∧ ∃ r x, translate s 0 [(0, s.cur.addr (.s 0) 1 none 4 0)] = .ok (r, [(0, x)]) ∧ x.res ≠ .here)
    ∧ (Passes (at1 4 0x1FFFC) ⟨[.s 0], [.s 1, .s 47], []⟩ [0] (.ok ()) ∧ (at1 4 0x1FFFC).curL.ver = false) := by
  refine ⟨⟨rfl, by decide +kernel, ⟨_, _, rfl, rfl⟩, ⟨rfl, none_awaited _ rfl (.inl rfl), ?_, rfl⟩, rfl⟩,
    ⟨rfl, ⟨rfl, none_awaited _ rfl (.inl rfl), ?_, rfl⟩, rfl, by decide +kernel, _, _, rfl, rfl,
    by decide +kernel, rfl, by decide +kernel, by decide +kernel⟩, ⟨rfl, _, _, rfl, by decide +kernel⟩, ⟨rfl, rfl⟩⟩ <;> exact fun ⟨_, h, _⟩ => nomatch h

/-- Mailbox 255 bound to episode 1 of core 15, with `n` actions in its ring. -/
def mailbox (n : Nat) : State :=
  let t := withS small 1 255
  (t.setEave 15 { t.eave 15 with epi := 1 }).setMbox 255 { t.mbox 255 with
    binding := BitVec.ofNat 64 (1 + 15 * 2 ^ 32 + 2 ^ 36), actions := List.replicate n 0 }

/-- The last mailbox, unbound, with room for one more message and full; a receive. -/
theorem witness_MailboxesCarryMessages :
    (Passes (withS small 1 256) ⟨[.v 1], [.s 1], []⟩ (List.range 16) (.ok ()) ∧ (withS small 1 256).bound 256 = false)
    ∧ (Passes (mailbox 15) ⟨[.v 191], [.s 1], []⟩ (List.range 16) (.ok ()) ∧ ((mailbox 15).cur.src64 (.s 1)).toNat = 255
      ∧ (mailbox 15).bound 255 = true ∧ (mailbox 15).allDone = true ∧ ((mailbox 15).mbox 255).actions.length < 16)
    ∧ ((mailbox 16).bound 255 = true ∧ (mailbox 16).allDone = true ∧ 16 ≤ ((mailbox 16).mbox 255).actions.length)
    ∧ (Passes (mailbox 0) ⟨[.s 1], [], [.v 191]⟩ [0] (.ok ()) ∧ (mailbox 0).bound 255 = true ∧ (mailbox 0).bound 0 = false
        ∧ NoReceiver (mailbox 0) 255 ∧ ((mailbox 0).mbox 255).obs = []) := by
  refine ⟨⟨rfl, by decide +kernel⟩, ⟨rfl, by decide +kernel, by decide +kernel, by decide +kernel, by decide +kernel⟩,
    by decide +kernel, ⟨rfl, by decide +kernel, by decide +kernel, by unfold NoReceiver; decide +kernel, by decide +kernel⟩⟩

/-- A machine whose slots `from` to `to` are claimed, with chunk bits. -/
def claimed (a n : Nat) (bits : BitVec 16) : State :=
  onWg small fun w => { w with slots := (List.range n).map fun k => (a + k, ⟨true, bits, [], [], []⟩) }

/-- A command of course 0. -/
def command (op : CmdOp) : Cmd := ⟨5, 0, op, 0x10000, 0, false, 0, 0, none, [], [], [], none, false, false, 0, none, none⟩

/-- A workgroup with one command. -/
def commanded (s : State) (op : CmdOp) : State := onWg s fun w => { w with cmds := [command op] }

/-- OFNC of the last slot ahead of an operation whose rows of A stand there. -/
def fencing : State :=
  onLaunch (onWg small fun w => { w with
    cmds := [{ command (.ofnc 31 0x8000) with id := 4 }, command (.mma 0 31 (.gen 0) Gen.zero 0 0 16 true none)] }) fun l => { l with fslots := [1] }

/-- The last slots unclaimed and claimed; the last chunk; masks met and not met. -/
theorem witness_SlotsClaimReleaseAndStore :
    (31 + 1 ≤ small.curL.nos ∧ 0 + 32 ≤ small.curL.nos ∧ RoomForCommand small ∧ (small.curW.slot 31).claimed = false)
    ∧ (RoomForCommand (claimed 31 1 0) ∧ ((claimed 31 1 0).curW.slot 31).claimed = true ∧ ((claimed 31 1 0).curW.slot 30).claimed = false)
    ∧ (31 < (claimed 31 1 0).curL.nos ∧ 15 < 16
      ∧ Passes (claimed 31 1 0) ⟨(List.range 4).map fun j => .v (188 + j), [], []⟩ (List.range 32) (.ok ())
      ∧ (claimed 31 1 0).curW.cmds = [])
    ∧ ((claimed 31 1 0x8001).reportPoint = .ok () ∧ 0xFFFF < 2 ^ 16
      ∧ (∃ j : Fin 16, (0xFFFF : Nat).testBit j ∧ ((claimed 31 1 0x8001).curW.slot 31).bitmap.getLsbD j)
      ∧ ¬∀ j : Fin 16, (0xFFFF : Nat).testBit j → ((claimed 31 1 0x8001).curW.slot 31).bitmap.getLsbD j = true)
    ∧ (∃ f m : Cmd, f ∈ (fencing.wg 0).cmds ∧ f.op = .ofnc 31 0x8000 ∧ f.done = false ∧ m.crs = f.crs ∧ f.id < m.id
      ∧ (m.op.reads (fencing.grid (fencing.wg 0).gid).launch).any (Region.meets · (1, 16 * 31, 16 * 31 + 16)) = true) := by
  refine ⟨⟨by decide, by decide, by unfold RoomForCommand; decide, by decide⟩, ⟨by unfold RoomForCommand; decide, by decide, by decide⟩,
    ⟨by decide, by decide, rfl, rfl⟩, ⟨rfl, by decide, by decide, by decide⟩,
    ⟨{ command (.ofnc 31 0x8000) with id := 4 }, command (.mma 0 31 (.gen 0) Gen.zero 0 0 16 true none), .head _, rfl, rfl, rfl, by decide, by decide +kernel⟩⟩

/-- The last PARAM of a band and of an N-of-32 mask, and what GSET refuses. -/
theorem witness_GeneratorsTakeTheirFields :
    Passes small ⟨[.s 47], [.s 0], []⟩ [0] (.ok ())
    ∧ (5 < 7 ∧ 63 < 64) ∧ (6 < 7 ∧ 1 ≤ 32 ∧ 32 ≤ 32) ∧ ¬(7 < 7) ∧ ¬(6 < 7 ∧ 1 ≤ 0) := by
  and_intros <;> first | rfl | decide

/-- A machine with N in s2, format slot 0 of a code, and slots 0 to 31 claimed. -/
def matrix (n : W64) (code : Nat) : State :=
  onLaunch (withS (claimed 0 32 0xFFFF) 2 n) fun l => { l with fslots := [BitVec.ofNat 32 code] }

/-- The widest operation, the last accumulators and slots; a generator in place of B; a sparse one. -/
theorem witness_AccumulatorInstructions :
    (96 < (matrix 512 1).curL.nacc ∧ MmaMayIssue (matrix 512 1) 96 31 (.slot 28) 0 0 2 512 none)
    ∧ MmaMayIssue (matrix 16 5) 127 0 (.gen 7) 0 0 2 16 (some (8, 31))
    ∧ (0 + 128 ≤ small.curL.nacc ∧ RoomForCommand small)
    ∧ (127 < small.curL.nacc ∧ Passes small ⟨[], [], (List.range 32).map fun j => .v (160 + j)⟩ [] (.ok ()) ∧ 0 + 32 ≤ 32
      ∧ small.curW.accPoisoned 127 = false)
    ∧ (let s := withS (matrix 0 7) 1 (BitVec.ofNat 64 (0x80000 - 64 * 2048))
       Passes s ⟨[], [.s 1, .s 0], []⟩ [0] s.cur.needRm ∧ awbBytes (s.curL.fslot 0) = 4 ∧ 96 + 32 ≤ s.curL.nacc
        ∧ 16 * 32 * 4 ≤ 16 * 128 ∧ RoomForCommand s ∧ ((s.cur.src64 (.s 1)).toNat % 16 = 0
        ∧ (s.cur.src64 (.s 1)).toNat + 63 * (16 * 128) + 16 * 32 * 4 ≤ s.curL.spg * 0x4000
        ∧ s.curL.spg * 0x4000 < (s.cur.src64 (.s 1)).toNat + 16 + 63 * (16 * 128) + 16 * 32 * 4))
    ∧ (let s := withS (matrix 0 7) 1 1
       Passes s ⟨[], [.s 1, .s 0], []⟩ [0] s.cur.needRm ∧ (s.cur.src64 (.s 1)).toNat % 16 ≠ 0)
    ∧ (let s := onWg (matrix 0 7) fun w => w.poisonAcc 127
       s.curW.accBad s.curL 127 = true ∧ s.curW.accBad s.curL 126 = false)
    ∧ (small.reportPoint = .ok () ∧ (small.curW.accCmds 0).2 = 0 ∧ ∀ m ∈ (small.curW.accCmds 0).1, m.done = true → m.poison = none)
    ∧ (let s := onWg small fun w => { w with cmds := [⟨5, 0, .aclr 0 1, 0, 0, false, 0, 0, none, [], [], [], none, false, false, 0, none, none⟩] }
       s.reportPoint = .ok () ∧ 0 < (s.curW.accCmds 0).2) := by
  refine ⟨⟨by decide, by decide +kernel, rfl, by decide +kernel, by decide, by decide, by decide, by decide +kernel, by decide +kernel,
      by decide +kernel, by decide +kernel, ⟨by decide +kernel, by decide +kernel, by decide +kernel, by decide +kernel⟩, trivial,
      by decide +kernel, by unfold RoomForCommand; decide +kernel⟩,
    ⟨by decide +kernel, rfl, by decide +kernel, by decide, by decide, by decide, by decide +kernel, by decide +kernel,
      by decide +kernel, by decide +kernel, rfl, ⟨by decide +kernel, by decide +kernel⟩, by decide +kernel,
      by unfold RoomForCommand; decide +kernel⟩,
    ⟨by decide, by unfold RoomForCommand; decide⟩, ⟨by decide, rfl, by decide, by decide⟩,
    ⟨rfl, by decide +kernel, by decide +kernel, by decide, by unfold RoomForCommand; decide +kernel, by decide +kernel⟩,
    ⟨rfl, by decide +kernel⟩, by decide +kernel, ⟨rfl, by decide +kernel, by decide +kernel⟩, ⟨rfl, by decide +kernel⟩⟩

theorem witness_MatrixResultIsRoundedExactDot :
    (let s := commanded (matrix 16 5) (.mma 127 31 (.slot 0) Gen.zero 0 0 16 false none)
     (s.wg 0).cmds = [command (.mma 127 31 (.slot 0) Gen.zero 0 0 16 false none)]
      ∧ s.mayRun 0 (command (.mma 127 31 (.slot 0) Gen.zero 0 0 16 false none)) = true
      ∧ (s.wg 0).mmaPoison (s.grid (s.wg 0).gid).launch (.mma 127 31 (.slot 0) Gen.zero 0 0 16 false none) = none ∧ 16 % 16 = 0)
    ∧ (let s := commanded (matrix 512 1) (.mma 0 0 (.gen 7) Gen.zero 0 0 512 true (some (16, 31)))
       s.mayRun 0 (command (.mma 0 0 (.gen 7) Gen.zero 0 0 512 true (some (16, 31)))) = true
      ∧ (s.wg 0).mmaPoison (s.grid (s.wg 0).gid).launch (.mma 0 0 (.gen 7) Gen.zero 0 0 512 true (some (16, 31))) = none) := by
  refine ⟨⟨rfl, by decide +kernel, by decide +kernel, by decide⟩, by decide +kernel, by decide +kernel⟩

/-- The records of section 11's and section 17's examples in s8 to s15. -/
def withRecord (s : State) (r : List W64) : State := onCur s fun c => { c with s := ((List.range 8).map fun k => (8 + k, r.getD k 0)) }

/-- The copy of the example of section 11 into slots and one into the scratchpad; the indexed copy of section 17; the copy out
of section 11. -/
theorem witness_CopiesIssueWithTheirRecord :
    (let s := withRecord (claimed 0 1 0) [0x4000000000, 0x4000000040, 0x80, 0, 0x1100400040, 0, 0x80, 0]
     s.reportPoint = .ok () ∧ ∃ r, captureRecord s (.s 8) = .ok r ∧ r.lsl = true ∧ copyChecks s r false false false 0 = .ok ()
      ∧ RoomForCommand s)
    ∧ (let s := withRecord small [0x4000000000, 0x4000000040, 0x80, 0, 0x0100400040, 0x7E000, 0x80, 0]
       ∃ r, captureRecord s (.s 8) = .ok r ∧ r.lsl = false ∧ copyChecks s r false false true 63 = .ok ())
    ∧ (let s := withRecord small [0x4004000000, 0x8000000100, 0x200, 0, 0x0101000100, 0, 0x200, 0x20000]
       ∃ r, captureRecord s (.s 8) = .ok r ∧ r.col = false ∧ r.y0 = 0 ∧ copyChecks s r false true true 63 = .ok ())
    ∧ (let s := withRecord small [0x4000010000, 0x4000000080, 0x100, 0, 0x0100400080, 0, 0x100, 0]
       ∃ r, captureRecord s (.s 8) = .ok r ∧ r.lsl = false ∧ r.col = false ∧ copyChecks s r false false false 0 = .ok ()
        ∧ s.curW.cmds = [] ∧ s.mayPerform s.curWg s.curCrs s.stamp 0 [(.scratch s.curWg r.xaddr, 4 * r.bh)] = true
        ∧ copyChecks s r false true false 0 = .ok ()) := by
  refine ⟨⟨rfl, _, rfl, rfl, good_unit _ (by decide +kernel), by unfold RoomForCommand; decide +kernel⟩,
    ⟨_, rfl, rfl, good_unit _ (by decide +kernel)⟩, ⟨_, rfl, rfl, rfl, good_unit _ (by decide +kernel)⟩,
    ⟨_, rfl, rfl, rfl, good_unit _ (by decide +kernel), rfl, by decide +kernel, good_unit _ (by decide +kernel)⟩⟩

/-- One row of four words at the end of a page, the last two beyond the tensor. -/
def oneRow : CopyRec := ⟨0x1FFF8, 2, 1, 16, 0, 0, 4, 1, 2, false, false, false, 0x7FFF0, 16, 0⟩

/-- The command's next piece begins at element `n`. -/
def atPiece (op : CmdOp) (n : Nat) : State := onWg small fun w => { w with cmds := [{ command op with next := n }] }

/-- The last two elements in bounds and the first beyond them; a copy out; one whose translation is at hand. -/
theorem witness_CopyPiecesMoveBytes :
    (let op := CmdOp.copyIn oneRow false false none
     (atPiece op 0).cmd 0 5 = some (command op) ∧ (atPiece op 0).mayRun 0 (command op) = true ∧ (atPiece op 0).buffers 0 = false
      ∧ oneRow.lsl = false ∧ (atPiece op 0).reds = [] ∧ (command op).fail = none ∧ oneRow.elem none 0 0 = some 0x1FFF8
      ∧ (∃ x, (atPiece op 0).pieceXlat 0 (command op) 0x1FFF8 0 = .ok x ∧ x.res = .here ∧ (oneRow.piece none false false x.size 0 0).length = 2)
      ∧ oneRow.elem none 0 2 = none ∧ (atPiece op 2).mayRun 0 { command op with next := 2 } = true)
    ∧ (let op := CmdOp.copyOut oneRow false none 3 0
       (atPiece op 0).cmd 0 5 = some (command op) ∧ (atPiece op 0).mayRun 0 (command op) = true ∧ oneRow.col = false
        ∧ ∃ x, (atPiece op 0).pieceXlat 0 (command op) 0x1FFF8 1 = .ok x ∧ x.res = .here) := by
  refine ⟨⟨by decide +kernel, by decide +kernel, by decide +kernel, rfl, rfl, rfl, by decide +kernel, ⟨_, rfl, rfl, by decide +kernel⟩,
    by decide +kernel, by decide +kernel⟩, ⟨by decide +kernel, by decide +kernel, rfl, _, rfl, rfl⟩⟩

theorem witness_WriteBackBlocksLand :
    let op := CmdOp.awb 0x7F800 127 0 1 64 0 0 none false none
    let s := commanded (matrix 16 7) op
    s.cmd 0 5 = some (command op) ∧ s.mayRun 0 (command op) = true ∧ 0 < awbBytes ((s.grid (s.wg 0).gid).launch.fslot 0) := by
  decide +kernel

/-- Context 0 of link 0 runs with c1 and c2 as given, on a page of its own. -/
def context (c1 c2 : W64) : State :=
  { State.reset with seqs := [(0, { Seqr.reset with
      ctxs := [(0, { Ctx.reset with st := .running, casn := 1, c := [(1, c1), (2, c2)] })], tlb := [tlbEntry 1 0x10000 0x100F3 0] })] }

/-- The record queues full. -/
def crowded : State := { context 0 0 with evHost := { (context 0 0).evHost with queue := List.replicate 1024 ⟨0, []⟩ } }

theorem witness_SequencerRegisterAndControl :
    5 ≤ 5 ∧ 6 < 7 ∧ 15 ≠ 0 ∧ crowded.evHost.full = true ∧ (context 0 0).evMgmt.full = false ∧ (context 0 0).evHost.full = false
    ∧ ((Instr.cst 15 4, BitVec.ofNat 64 (context 0 0).curCtx) : Instr × W64) ∈
        [(Instr.cst 15 0, BitVec.ofNat 64 (context 0 0).curLink), (.cst 15 4, BitVec.ofNat 64 (context 0 0).curCtx)] := by
  decide +kernel

/-- Link 15 up in phase mode with peer 4095 at its far end and room for a chunk, or in rotation. -/
def linked (s : State) (rot : Bool) (room : Nat) : State :=
  s.setLink 15 { s.link 15 with
    state := 2, lmode := if rot then 2 else 1, lpeer := 4095, nslot := 1, slots := [(0, ⟨4095, true, 10000⟩)], room := [(3, room)] }

/-- The last doubleword and word of a page, and misaligned ones; conditions met and not met; a destination in each mode. -/
theorem witness_SequencerMemoryAndFlags :
    (let s := context 0x1FFF0 0
     (s.ctx.reg 1 + BitVec.ofInt 64 8).toNat % 8 = 0 ∧ (s.ctx.reg 1 + BitVec.ofInt 64 9).toNat % 8 ≠ 0 ∧ s.reds = []
      ∧ (∃ r pa, s.seqXlat (s.ctx.reg 1 + BitVec.ofInt 64 8).toNat 0 none = .ok (r, pa) ∧ r.rangePoisoned pa 8 = false)
      ∧ ∃ r pa, s.seqXlat (s.ctx.reg 1 + BitVec.ofInt 64 8).toNat 1 none = .ok (r, pa))
    ∧ (let s := context 0x1FFFC 0
       (s.ctx.reg 1).toNat % 4 = 0 ∧ 3 < 4 ∧ (∃ r pa, s.seqXlat (s.ctx.reg 1).toNat 2 none = .ok (r, pa) ∧ r.rangePoisoned pa 4 = false
        ∧ s.read pa 4 = (s.ctx.reg 2).toNat) ∧ (context 0x1FFFD 0).ctx.reg 1 % 4 ≠ 0)
    ∧ (let s := linked (context 0 (BitVec.ofNat 64 (15 * 4096 + 4095))) false 0
       DestOk s (s.ctx.reg 2) 15 4095 ∧ (s.link 15).lmode ≠ 2)
    ∧ (let s := linked (context 0 (BitVec.ofNat 64 (15 * 4096 + 4095))) true 0
       DestOk s (s.ctx.reg 2) 15 4095 ∧ (s.link 15).lmode = 2 ∧ (s.link 15).sendsTo 0 ≠ some 4095
        ∧ ({ s.link 15 with curSlot := some 0 } : Link).sendsTo 400 = some 4095) := by
  refine ⟨⟨by decide +kernel, by decide +kernel, rfl, ⟨_, _, rfl, by decide +kernel⟩, _, _, rfl⟩,
    ⟨by decide +kernel, by decide, ⟨_, _, rfl, by decide +kernel, by decide +kernel⟩, by decide +kernel⟩,
    ⟨by unfold DestOk; decide +kernel, by decide⟩,
    ⟨by unfold DestOk; decide +kernel, by decide, by decide +kernel, by decide +kernel⟩⟩

/-- A context that waits for its slot toward peer 4095, the slot's guard just over and not yet, and one that has met it. -/
def slotting (now : Nat) (met : Bool) : State :=
  let s := linked (context 0 0) true 0
  { s.setLink 15 { s.link 15 with curSlot := some 0 } with
    dtime := now * 2 ^ 16
    seqs := [(0, { Seqr.reset with ctxs := [(3, { Ctx.reset with st := .waiting, why := some (.slot 15 4095), met := met })] })] }

theorem witness_SlotsWakeTheirContexts :
    (((slotting 400 false).seqr 0).ctx 3).st = .waiting ∧ (((slotting 400 false).seqr 0).ctx 3).why = some (.slot 15 4095)
    ∧ ((slotting 400 false).link 15).lmode = 2 ∧ ((slotting 400 false).link 15).sendsTo ((slotting 400 false).dtime / 2 ^ 16) = some 4095
    ∧ ((slotting 399 false).link 15).sendsTo ((slotting 399 false).dtime / 2 ^ 16) ≠ some 4095
    ∧ ({ slotting 399 true with curCtx := 3 } : State).ctx.met = true ∧ (context 0 0).ctx.met = false := by
  decide +kernel

/-- A chunk of 256 bytes at the head of channel 3 of link 0. -/
def arrived (s : State) (size : Nat) : State :=
  s.setLink 0 { s.link 0 with rx := [(3, [⟨9, 0, size, List.replicate 256 1⟩])] }

/-- A destination, a buffer and a chunk, with room for exactly that chunk, for one byte less, and kept before; the right size and a
wrong one; an empty head, and poison to be sent. -/
theorem witness_ChunkInstructionsMoveChunks :
    (let s := linked (context 0x1FF00 (BitVec.ofNat 64 (15 * 4096 + 4095))) false 256
     DestOk s (s.ctx.reg 2) 15 4095 ∧ 0 < 9 ∧ 8 < 9 ∧ s.reds = [] ∧ RoomFound s 15 4095 3 (256 * 2 ^ 0)
      ∧ (∃ r va pa, s.seqBuffer 1 0 [0] none = .ok (r, va, pa) ∧ r.rangePoisoned pa 256 = false)
      ∧ Tab.get [] (s.link s.curLink).rx 3 = [] ∧ ∃ k, forwardRoom s 2 3 0 = .ok k)
    ∧ (let s := { linked (context 0x1FF00 (BitVec.ofNat 64 (15 * 4096 + 4095))) false 256 with poison := [(0x1FF00 / 32, true)] }
       ∃ r va pa, s.seqBuffer 1 0 [0] none = .ok (r, va, pa) ∧ r.rangePoisoned pa (256 * 2 ^ 0) = true)
    ∧ (let s := linked (context 0x1FF00 (BitVec.ofNat 64 (15 * 4096 + 4095))) false 255
       s.ctx.kept = none ∧ (s.link 15).roomFor 4095 3 < 256 * 2 ^ 0)
    ∧ (let s := { linked State.reset false 0 with seqs := [(0, { Seqr.reset with ctxs := [(0, { Ctx.reset with
          kept := some (15, (linked State.reset false 0 |>.link 15).roomKey 4095 3, 256) })] })] }
       RoomFound s 15 4095 3 (256 * 2 ^ 0))
    ∧ (let s := arrived (linked (context 0x1FF00 (BitVec.ofNat 64 (15 * 4096 + 4095))) false 256) 0
       ∃ h, HeadFor s 3 h ∧ h.bytes.length = 256 * 2 ^ 0 ∧ h.size = 0 ∧ h.size ≠ 1
        ∧ (∃ r va pa, s.seqBuffer 1 0 [1] (some 3) = .ok (r, va, pa))
        ∧ (∃ r va pa, s.seqBuffer 1 0 [0, 1] (some 3) = .ok (r, va, pa) ∧ r.rangePoisoned pa 256 = false)
        ∧ DestOk s (s.ctx.reg 2) 15 4095 ∧ RoomFound s 15 4095 3 (256 * 2 ^ 0)
        ∧ ∃ k, forwardRoom s 2 3 0 = .ok k ∧ (∃ r va pa, k.seqBuffer 1 0 [1] (some 3) = .ok (r, va, pa))
          ∧ ∃ r va pa, k.seqBuffer 1 0 [0, 1] (some 3) = .ok (r, va, pa) ∧ r.rangePoisoned pa 256 = false) := by
  refine ⟨⟨by unfold DestOk; decide +kernel, by decide, by decide, rfl, .inr ⟨rfl, by decide +kernel⟩, ⟨_, _, _, rfl, by decide +kernel⟩, rfl,
      _, good_got small _ (by decide +kernel)⟩, ⟨_, _, _, rfl, by decide +kernel⟩, ⟨rfl, by decide +kernel⟩, .inl (by decide +kernel), ⟨_, ⟨rfl, .inr ⟨rfl, .inl rfl⟩⟩, by decide +kernel, rfl, by decide +kernel, ⟨_, _, _, rfl⟩,
      ⟨_, _, _, rfl, by decide +kernel⟩, by unfold DestOk; decide +kernel, .inr ⟨rfl, by decide +kernel⟩,
      _, good_got small _ (by decide +kernel), ⟨_, _, _, good_triple (small, 0, 0) _ (by decide +kernel)⟩, _, _, _, good_triple (small, 0, 0) _ (by decide +kernel), by decide +kernel⟩⟩

/-- A fault with room kept for its chunk and a chunk at its head: both parts of what it keeps and gives back. -/
theorem witness_SequencerFaultKeepsHead :
    (Tab.get [] ((arrived (context 0 0) 0).link (arrived (context 0 0) 0).curLink).rx 3).head? = some ⟨9, 0, 0, List.replicate 256 1⟩ := by
  decide +kernel

/-- A step of a course, of a sequencer and of an event: the states that the three parts of the statement speak of. -/
theorem witness_StepRunsTheDecodedInstruction :
    (let s := repeated 0x4E040000 7 0
     s.reds = [] ∧ (∃ pas : List Nat, pas.length = 2 ∧ (pas.map (· / 4)).Nodup
        ∧ WordAt s (s.cur.pc.toNat + 4 * 0) (pas.getD 0 0) 0x4E040000 ∧ WordAt s (s.cur.pc.toNat + 4 * 1) (pas.getD 1 0) 7)
      ∧ decodeCore [0x4E040000, 7] = .ok (.lit (.v 2) false 7) ∧ (Instr.lit (.v 2) false 7).size = 8
      ∧ decodeCore [0x4E040000] = .error .missingWord)
    ∧ (small.agenda = [] ∧ small.fatal = false ∧ small.bootStop = false ∧ small.takeUpset = none ∧ small.steps % 2 = 0 ∧ small.pickIssuer = some (0, 0)
      ∧ small.pickSeq = none ∧ (small.issuing 0 0).timerDue 0 0 = false ∧ ∃ x, nextInstr (small.issuing 0 0) = .ok (x, .nop, false))
    ∧ (let s := context 0 0
       s.agenda = [] ∧ s.fatal = false ∧ s.bootStop = false ∧ s.steps % 2 = 0 ∧ s.pickSeq = some 0 ∧ s.pickIssuer = none
        ∧ Tab.get false (s.seqr 0).broken 0 = false ∧ decodeSeq (Tab.get 0 (s.seqr 0).imem 0) = .ok .seqNop
        ∧ decodeSeq 0xFC000000 = .error .reservedOpcode)
    ∧ (let s := { context 0 0 with seqs := [(0, { (context 0 0).seqr 0 with broken := [(0, true)] })] }
       s.pickSeq = some 0 ∧ Tab.get false (s.seqr 0).broken 0 = true)
    ∧ (let s := { small with upsets := [⟨.scratch 0 0, true⟩] }
       s.agenda = [] ∧ s.fatal = false ∧ s.bootStop = false ∧ ∃ t, s.takeUpset = some t)
    ∧ (let s := { small with steps := 1, pend := [⟨5, 0, 0, .stack 0x1FFFC, 4, 0, false, 0, none⟩] }
       s.agenda = [] ∧ s.fatal = false ∧ s.bootStop = false ∧ s.takeUpset = none ∧ s.steps % 2 = 1 ∧ .writePerformed 5 ∈ s.due)
    ∧ ((∀ n < 128, small.cur.stripBad n = false) ∧ (onCur small fun c => { c with rpoison := [(controlUnit, true)] }).cur.stripBad controlUnit = true
      ∧ (∃ x, issueFetch (small.issuing 0 0) = .ok (x, .nop, false)))
    ∧ (let s := onCur small fun c => { c with wait := some .unbound, sched := .active }
       (s.crs 0 0).wait = some .unbound ∧ s.pickIssuer = some (0, 0) ∧ (s.issuing 0 0).timerDue 0 0 = false)
    ∧ (let s := { small with agenda := [.hostCreditReturn 1] }
       s.agenda = [.hostCreditReturn 1] ∧ s.fatal = false) := by
  refine ⟨⟨rfl, ⟨[0x10000, 0x10004], rfl, by decide, ⟨_, _, rfl, rfl, by decide, .inr ⟨rfl, by decide, by decide +kernel⟩⟩,
      ⟨_, _, rfl, rfl, by decide, .inr ⟨rfl, by decide, by decide +kernel⟩⟩⟩, rfl, rfl, rfl⟩,
    ⟨rfl, rfl, rfl, rfl, rfl, by decide +kernel, by decide +kernel, by decide +kernel, _, rfl⟩,
    ⟨rfl, rfl, rfl, rfl, by decide +kernel, by decide +kernel, rfl, rfl, rfl⟩, ⟨by decide +kernel, rfl⟩, ⟨rfl, rfl, rfl, _, rfl⟩,
    ⟨rfl, rfl, rfl, rfl, rfl, by decide +kernel⟩, ⟨by decide, by decide, _, rfl⟩, by decide +kernel, rfl, rfl⟩

/-- Fields at the ends of their ranges, of a core's instruction with a literal and of a sequencer's. -/
theorem witness_DecodingInvertsEncoding :
    (let i : Instr := .st (some ⟨.rel, .sys, 0⟩) (.v 191) (.x 15) 47 (some 0xFFFFFFFF) 3
     i.wf = true ∧ i.isCore = true ∧ (encodeCore i).length = 3 ∧ decodeCore (encodeCore i ++ [0]) = .ok i)
    ∧ (let i : Instr := .rcfwd 3 8 15 15 8 0 true
       i.wf = true ∧ i.isSeq = true ∧ decodeSeq ((encodeSeq i).getD 0 0) = .ok i) := by
  refine ⟨⟨by decide, by decide, rfl, rfl⟩, by decide, by decide, rfl⟩

/-- A state that a run has reached, and its step. -/
theorem witness_EveryStepKeepsTheInvariant : small.Inv ∧ ∃ t, step { small with agenda := [.hostCreditReturn 1] } = .next t := by
  refine ⟨⟨rfl, by intro e h; cases h⟩, _, rfl⟩

/-- A die that has one walk to do, with tables whose leaf is as given, and so many parked walks. -/
def walking (leaf va parked : Nat) : State :=
  { paged with
    mem := putBytes paged.mem 0x4000 (bytesOf 8 leaf)
    dies := [(3, { paged.die 3 with walks := [⟨432, 1, 0, va, 0, 0, 0, [(0, 0)]⟩], parked := List.replicate parked ⟨432, 1, 0, 0, 0, 0, 0, []⟩ })]
    dtime := 10000000 * 2 ^ 16 }

/-- A die with one invalidation under way and `n` behind it, its scope ASN 1. -/
def invalidating (n : Nat) : State :=
  { small with dies := [(0, { small.die 0 with running := some ⟨0, 1, 0, 0⟩, queued := List.replicate n ⟨0, 2, 0, 0⟩ })] }

/-- What the walk of a die's one miss gives. -/
def walkOf (leaf va parked : Nat) : WalkRes :=
  let s := walking leaf va parked
  (dieWalk (s.setDie 3 { s.die 3 with walks := [] }) (s.die 3) ⟨432, 1, 0, va, 0, 0, 0, [(0, 0)]⟩).2

theorem walk_of (leaf va parked : Nat) (r : WalkRes) (h : walkOf leaf va parked = r) :
    ∃ u, dieWalk ((walking leaf va parked).setDie 3 { (walking leaf va parked).die 3 with walks := [] }) ((walking leaf va parked).die 3)
      ⟨432, 1, 0, va, 0, 0, 0, [(0, 0)]⟩ = (u, r) := ⟨_, Prod.ext rfl h⟩

/-- The last address that a table maps and the first that is not canonical, a leaf that is held, each walk with its result; 31 parked
walks; the moment of HELD; the bounds of an invalidation's word and queue; a record due. -/
theorem witness_TranslationEventsFollowTheRules :
    ((∀ leaf va parked, ((walking leaf va parked).die 3).walks = [⟨432, 1, 0, va, 0, 0, 0, [(0, 0)]⟩])
      ∧ ((walking 0xF3 0x3FFFFFF 31).die 3).parked.length < walkers 3 ∧ walkDie 432 = 3 ∧ 432 ≤ ioUnit ∧ (walking 0xF3 0x3FFFFFF 31).reds = []
      ∧ walkOf 0xF3 0x3FFFFFF 31 = .leaf 0xF3 1 [(2, 0x4000), (3, 0x2000)] ∧ ((walking 0xF3 0x3FFFFFF 31).tlbOf 432).length < tlbSize 432
      ∧ walkOf 0x10F3 0 0 = .held 1 ∧ walkOf 0xF3 (2 ^ 54) 0 = .fault ⟨1, 3, false⟩)
    ∧ (((walking 0xF3 0 1).die 3).parked.find? fun m => decide (m.since + 10000000 * 2 ^ 16 ≤ (walking 0xF3 0 1).dtime)) =
        some ⟨432, 1, 0, 0, 0, 0, 0, []⟩
    ∧ (bits 0x1FFFF02FF 15 10 = 0 ∧ bits 0x1FFFF02FF 63 33 = 0 ∧ bits 0x1FFFF02FF 9 8 ≠ 3 ∧ bits 0x1FFFF02FF 31 16 ≠ 0
      ∧ bits 0x200000000 63 33 ≠ 0 ∧ bits 0x0200 31 16 = 0)
    ∧ ((small.die 0).running = none ∧ ((invalidating 3).die 0).running ≠ none ∧ ((invalidating 3).die 0).queued.length < 4
      ∧ 4 ≤ ((invalidating 4).die 0).queued.length)
    ∧ (∀ w ∈ (invalidating 0).wgs, (⟨0, 1, 0, 0⟩ : InvScope).touches ((invalidating 0).grid w.2.gid).chain.asn = true →
        (invalidating 0).drained w.1 = true)
    ∧ (let x : Die := { Die.reset with thresh := [(15, 7)], mqsize := 2, mig := [⟨1, 0x10000, false, 7, 15, 5, false, 0⟩] }
       (x.mig.find? fun m => !m.queued && decide ((Tab.get 0 x.thresh m.tix).toNat ≠ 0) && decide ((Tab.get 0 x.thresh m.tix).toNat ≤ m.count)) =
          some ⟨1, 0x10000, false, 7, 15, 5, false, 0⟩ ∧ x.mqRoom = true) := by
  refine ⟨⟨fun _ _ _ => rfl, ?_⟩, ?_⟩ <;> and_intros <;> decide +kernel

/-- The tables of `paged` with another leaf. -/
def pagedTo (leaf : Nat) : State := { paged with mem := putBytes paged.mem 0x4000 (bytesOf 8 leaf) }

/-- Table entries with a leaf at level 1, and one at level 0 under a table at 0x6000. -/
def shallow (leaf : Nat) : State := pagedTo leaf

/-- As `pagedTo`, a level deeper. -/
def deep (leaf : Nat) : State :=
  { paged with mem := putBytes (putBytes paged.mem 0x4000 (bytesOf 8 0x6001)) 0x6000 (bytesOf 8 leaf) }

/-- A walk of each length, to a leaf that grants, one that is malformed, held, outside memory or denies, to an entry that leads nowhere,
and to entries that are lost; a cached leaf of each page size, in the module and in another, with the access kinds' edges. -/
theorem witness_PageWalksFollowTheTables :
    (inStack 0 = true ∧ 0 % 8192 = 0 ∧ inStack 0x100000000000 = false ∧ (shallow 0xF3).reds = [] ∧ 2 ^ 54 - 1 < 2 ^ 54)
    ∧ WalkReads (shallow 0xF3) 0x3FFFFFF ([0x2001, 0x4001] ++ [0xF3]) 0 3 ∧ WalkReads (deep 0xF3) 0xFFFF ([0x2001, 0x4001, 0x6001] ++ [0xF3]) 0 3
    ∧ (∀ e ∈ [0, 0x5001, 0xFFFFFFFFE001, 0x1F3, 0x10F3, 0xFFFFFC0000F3, 0xE3], EntryAt (shallow e) 0x3FFFFFF 0x4000 1 e)
    ∧ (bit 0 0 = false ∧ bits 0x5001 12 2 ≠ 0 ∧ inStack (bits 0xFFFFFFFFE001 47 13 * 2 ^ 13) = false ∧ LeadsOn 0x4001)
    ∧ (LeafBad 0 0x1F3 1 ∧ ¬LeafBad 0 0x10F3 1 ∧ bit 0x10F3 12 = true ∧ ¬LeafBad 0 0xFFFFFC0000F3 1
      ∧ XlatIs 0 0xFFFFFC0000F3 1 0x3FFFFFF ⟨0xFFFFFFFFFFFF, 0, .here, true⟩ ∧ inStack 0xFFFFFFFFFFFF = false)
    ∧ (XlatIs 0 0xF3 1 0x3FFFFFF ⟨0x3FFFFFF, 0, .here, true⟩ ∧ inStack 0x3FFFFFF = true ∧ Denies 0 0xE3 0 (some 7) ∧ Denies 0 0xF3 2 none
      ∧ Denies 0 (0x7000000000077) 3 (some 11) ∧ Denies 0 0x7000000000077 0 none ∧ LeafFar 0 0x7000000000077)
    ∧ (EntryLost { shallow 0xF3 with poison := [(0, true)] } 0 0 3
      ∧ EntryLost { shallow 0xF3 with poison := [(0x4000 / 32, true)] } 0 (bits 0x4001 47 13 * 2 ^ 13) 1)
    ∧ (let s := { small with ioTlb := [tlbEntry 1 0x10000 0x100F3 0] }
       (s.tlbOf ioUnit).filter (fun x => x.covers 1 0x1FFFF) = [tlbEntry 1 0x1FFFF 0x100F3 0]) := by
  unfold WalkReads EntryAt LeafBad LeafFar XlatIs Denies EntryLost LeadsOn
  simp only [WalkReads, List.cons_append, List.nil_append]
  unfold EntryAt LeadsOn LeafFar
  and_intros <;> decide +kernel

/-- A flawed 32 bytes. -/
def flawed : State := { State.reset with poison := [(0xFFE, true)] }

theorem witness_PortAndRegisterAccesses :
    (State.reset.bootStop = false ∧ PortTakes 0x1FFC0 64 ∧ ¬PortTakes 0x1FFC0 32 ∧ ¬PortTakes 0x1FFC2 4 ∧ inStack 0x1FFC0 = true
      ∧ State.reset.reds = [] ∧ flawed.rangePoisoned 0x1FFC0 4 = true ∧ flawed.rangePoisoned 0x1FFBC 4 = false
      ∧ inStack 0xFFFFFFFFFFC0 = false ∧ inControl 0xFFFFFFFFFFC0 = false ∧ apertureCore 0xFFFFFFFFFFC0 = none)
    ∧ (paged.bootStop = false ∧ PortTakes 0x3FFFFC0 64
      ∧ (∃ t e, paged.ioXlat 1 (paged.rootOf 1) 0x4000000 0 = .fault t e) ∧ (∃ t e, paged.ioXlat 1 (paged.rootOf 1) (2 ^ 54) 1 = .fault t e)
      ∧ (∃ t, (pagedTo 0x10F3).ioXlat 1 ((pagedTo 0x10F3).rootOf 1) 0 0 = .wait t) ∧ (∃ t, (pagedTo 0x10F3).ioXlat 1 ((pagedTo 0x10F3).rootOf 1) 0 1 = .wait t)
      ∧ (∃ r x, paged.ioXlat 1 (paged.rootOf 1) 0x3FFFFC0 0 = .ok r x ∧ x.res = .here ∧ inStack x.pa = true
          ∧ r.rangePoisoned x.pa 64 = false)
      ∧ ∃ r x, paged.ioXlat 1 (paged.rootOf 1) 0x3FFFFC0 1 = .ok r x ∧ x.res = .here ∧ inStack x.pa = true)
    ∧ (inControl 0x020040000000 = true ∧ ctlSizeOk 0x020040000000 8 = true ∧ ctlSizeOk 0x020000020000 4 = true
      ∧ 0x020000020000 % 4 = 0 ∧ 15 < 16 ∧ 4095 < 4096 ∧ 2 ^ 32 - 1 < 2 ^ 32 ∧ 2 ^ 64 - 1 < 2 ^ 64)
    ∧ ((let s := { State.reset with evHost := ⟨[⟨0, []⟩], 0, []⟩ }
        s.evHost.queue ≠ [] ∧ s.evHost.lost = 0) ∧ (let s := { State.reset with evHost := ⟨[⟨0, []⟩], 2, []⟩ }
        s.evHost.queue ≠ [] ∧ s.evHost.lost ≠ 0)) := by
  refine ⟨⟨rfl, by unfold PortTakes; decide, by unfold PortTakes; decide, by unfold PortTakes; decide, ?_⟩,
    ⟨rfl, by unfold PortTakes; decide, trans_fault _ (by decide +kernel), trans_fault _ (by decide +kernel), ⟨_, trans_wait paged _ (by decide +kernel)⟩, ⟨_, trans_wait paged _ (by decide +kernel)⟩, ⟨_, _, trans_ok paged ⟨0, 0, .here, false⟩ _ (by decide +kernel), by decide +kernel, by decide +kernel, by decide +kernel⟩,
      ⟨_, _, trans_ok paged ⟨0, 0, .here, false⟩ _ (by decide +kernel), by decide +kernel, by decide +kernel⟩⟩, ?_, ?_⟩
  all_goals and_intros <;> decide +kernel

/-- A workgroup of 10 register, 32 scratchpad and 22 accumulator granules of core 0's pool. -/
def pooled : State := { small with wgs := [(0, { small.wg 0 with granules := List.range 64 })] }

/-- Its core under QUIET. -/
def pooledQuiet : State := { pooled with cores := [(0, { pooled.core 0 with quiet := true })] }

/-- Some aligned 4 bytes of the pool are lane 0 of its course's v0. -/
theorem pool_has_v0 : ∃ o, o < 2 ^ 21 ∧ o % 4 = 0 ∧ ∀ j < 4, pooled.poolPart 0 (o + j) = .reg 0 0 (0 + j) := by
  obtain ⟨q, hq⟩ : ∃ q, q = 163840 - 16 * Config.poolPlace 163840 % 163840 := ⟨_, rfl⟩
  refine ⟨q % 163840, by omega, by omega, fun j hj => ?_⟩
  have hb : (q % 163840 + j) / 0x4000 < 10 ∧ q % 163840 + j < 163840 := by omega
  have hp : (q % 163840 + j + 16 * Config.poolPlace 163840) % 163840 = j := by omega
  generalize hx : q % 163840 + j = x at hb hp
  have hg : ∀ g < 10, (List.range 64).contains g = true ∧ (List.range 64).idxOf g = g := by decide
  have hh : pooled.poolHolder 0 x = some (0, x) := by
    have h := hg (x / 0x4000) hb.1
    have e : pooled.wgs = [(0, { small.wg 0 with granules := List.range 64 })] := rfl
    have c : (small.wg 0).core = 0 ∧ (small.wg 0).status = .resident := ⟨rfl, rfl⟩
    simp only [State.poolHolder, e, List.find?, h.1, h.2, c.1, c.2, decide_true, Bool.and_self, Option.map, Option.some.injEq, Prod.mk.injEq, true_and]
    omega
  have hr : regPlace (pooled.grid (pooled.wg 0).gid).launch x = some (0, j) := by
    have l : (pooled.grid (pooled.wg 0).gid).launch = fetchLaunch := rfl
    have n : fetchLaunch.rfg = 10 ∧ fetchLaunch.nv = 192 ∧ fetchLaunch.ns = 48 ∧ fetchLaunch.ncrs = 1 := by decide
    rw [l]
    simp only [regPlace, n.1, n.2.1, n.2.2.1, n.2.2.2, hp, Option.ite_none_right_eq_some, Option.some.injEq, Prod.mk.injEq]
    omega
  have n : (pooled.grid (pooled.wg 0).gid).launch.rfg = 10 ∧ (pooled.grid (pooled.wg 0).gid).launch.nv = 192 := by decide
  simp only [State.poolPart, hh, hr, n.1, n.2]
  rw [if_pos (by omega), if_pos (by omega)]
  simp

/-- The holes of the aperture, plain SRAM, clean and poisoned, and scratchpad, accumulators and a course's registers, the course under way
and standing with the register full and empty. -/
theorem witness_PoolAccesses :
    (State.reset.bootStop = false ∧ InTurn State.reset 0 ∧ 3 < 4 ∧ 6 < 8 ∧ 24 < 32 ∧ PortTakes (apertureAt 3 6 31 0x1FFFC0) 64
      ∧ PortTakes (apertureAt 0 0 24 0) 4)
    ∧ ((∀ j < 64, pooled.poolPart 0 (0x1FFFC0 + j) = .free) ∧ (∀ j < 64, pooled.poolPoisoned 0 (0x1FFFC0 + j) = false)
      ∧ ∀ j < 16, ({ pooled with cores := [(0, { pooled.core 0 with poolBad := [(0x1FFF0, true)] })] } : State).poolPoisoned 0 (0x1FFF00 + j) = true)
    ∧ ((∀ j < 64, pooled.poolPart 0 (0x28000 + j) = .pad 0 (0 + j)) ∧ (pooled.core 0).quiet = false ∧ (pooledQuiet.core 0).quiet = true
      ∧ (∀ j < 64, pooledQuiet.poolPart 0 (0x28000 + j) = .pad 0 (0 + j)) ∧ ∀ j < 64, pooled.poolPart 0 (0xA8000 + j) = .acc 0 (0 + j))
    ∧ (∃ o, o < 2 ^ 21 ∧ o % 4 = 0 ∧ ∀ j < 4, pooled.poolPart 0 (o + j) = .reg 0 0 (0 + j))
    ∧ (pooled.stands 0 0 = false ∧ ({ pooled with cores := [(0, { pooled.core 0 with frozen := true })] } : State).stands 0 0 = true
      ∧ (pooled.crs 0 0).vIsFull 0 = true ∧ ((onCur pooled fun c => { c with vfull := [(0, false)] }).crs 0 0).vIsFull 0 = false) := by
  refine ⟨⟨rfl, .inr rfl, by decide, by decide, by decide, by unfold PortTakes; decide, by unfold PortTakes; decide⟩, ?_, ?_, pool_has_v0, ?_⟩
  all_goals and_intros <;> decide +kernel

/-- A read of the port that waits for another module's answer: value 5, or a failing status. -/
def hostAsked (fails : Tab Nat) : State :=
  State.reset.setCrs hostUid 0 { State.reset.crs hostUid 0 with
    flights := [⟨0, .load 0, false, false, .sys, [], false, [⟨0, .remote 7 0x1000, 0, 4, 0, 0, 0⟩], [(0, 5)], fails, 0, 0, 0⟩] }

/-- A port after a failed boot, one whose agent has an operation waiting, an access of a page of another module, asked and answered, and the
accesses of the management core. -/
theorem witness_PortWaitsAndAnswers :
    (({ State.reset with bootStop := true } : State).bootStop = true ∧ InTurn { State.reset with bootStop := true } 0)
    ∧ (let s := { State.reset with held := [.physicalRead 0 4] }
       agentOf (.physicalRead 0 4) = some 0 ∧ s.retry = false ∧ s.holdsBack 0 = true ∧ InTurn { s with retry := true } 0)
    ∧ (paged.hostFlight = none ∧ ∃ r x, (pagedTo 0x7000000000077).ioXlat 1 ((pagedTo 0x7000000000077).rootOf 1) 0 1 = .ok r x ∧ x.res ≠ .here)
    ∧ (∃ f, (hostAsked []).hostFlight = some f ∧ ∃ x, (hostAsked []).hostAnswer f = some (.ok x))
    ∧ (∃ f, (hostAsked [(0, 4)]).hostFlight = some f ∧ ∃ e, (hostAsked [(0, 4)]).hostAnswer f = some (.error e))
    ∧ (InTurn State.reset 17 ∧ inStack 0x1FFF8 = true ∧ State.reset.rangePoisoned 0x1FFF8 8 = false ∧ flawed.rangePoisoned 0x1FFC0 4 = true
      ∧ (0x1FFFC + 8) % 8 ≠ 0 ∧ Tab.find State.reset.lrs 16 ≠ some (0x1FFF8, 8)
      ∧ Tab.find ({ State.reset with lrs := [(16, (0x1FFF8, 8))] } : State).lrs 16 = some (0x1FFF8, 8)) := by
  refine ⟨⟨rfl, .inr rfl⟩, ⟨by decide +kernel, by decide +kernel, by decide +kernel, .inl rfl⟩, ⟨by decide +kernel, _, _, trans_ok paged ⟨0, 0, .here, false⟩ _ (by decide +kernel), by decide +kernel⟩,
    ⟨_, rfl, _, rfl⟩, ⟨_, rfl, _, rfl⟩, .inr rfl, ?_⟩
  and_intros <;> decide +kernel

/-- A flit of a request to peer 4095 held since a time. -/
def waitingFlit (at1 : Nat) : TxFlit := ⟨0, 0, 4095, 4095, at1, true, true, .request 0, 0, 0⟩

/-- Link 15 as given. -/
def onLink (x : Link) : State := State.reset.setLink 15 x

/-- A link in a mode and a state, with light on every wavelength, one rotation slot and a flit held since a microsecond. -/
def lit (mode st : Nat) : Link :=
  { Link.reset with
    lmode := mode, state := st, groups := 15, light := 0xFFFF, far := 0xFFFF, lpeer := 4095, nslot := 1, slots := [(0, ⟨4095, true, 2000⟩)]
    replay := [waitingFlit (2 ^ 16 * 1000)] }

/-- A flit of a class and number from peer 4095 whose check bits agree. -/
def sound (cls code n : Nat) : Flit :=
  let f : Flit := ⟨n, cls, 0, code, 4095, 0, 0, 0, 0, 0⟩
  { f with crc := crc32 (flitCovered f) }

theorem good_sound (cls code n : Nat) : flitGood (sound cls code n) = true := by
  simp [flitGood, sound, flitCovered, flitHead]

theorem bad_damaged (cls code n : Nat) : flitGood { sound cls code n with crc := (sound cls code n).crc + 1 } = false := by
  simp [flitGood, sound, flitCovered, flitHead]

theorem witness_LinkEventsFollowTheRules :
    (Link.reset.badTable = true ∧ (lit 0 0).badTable = false ∧ (lit 0 0).state = 0)
    ∧ (((onLink (lit 1 1)).link 15).state = 1 ∧ 15 ≠ 0 ∧ 15 &&& ((onLink (lit 1 1)).link 15).litGroups = 15)
    ∧ (let x := { lit 1 2 with joining := 8, groups := 7 }
       x.state = 2 ∧ x.joining ≠ 0 ∧ x.restriping = none)
    ∧ (let x := { lit 1 3 with replay := [] }
       x.state = 3 ∧ x.tx = [] ∧ x.replay = [])
    ∧ ((lit 2 2).slotAt 400 = some (0, 400) ∧ (lit 2 2).lmode = 2 ∧ (lit 2 2).state = 2 ∧ (lit 2 2).slotAt 3999 = some (0, 1999))
    ∧ (let s := onLink { lit 1 2 with replay := [], tx := [waitingFlit 0] }
       ∃ f, pickFrom (s.sendable (s.link 15)) (Config.choice s.steps) = some f ∧ f.ackOnly = false ∧ (s.link 15).replay.contains f = false)
    ∧ (let s := onLink { lit 1 2 with replay := [], tx := [⟨0, clsControl, 4095, 4095, 0, true, true, .control 0 0, 31, 0⟩] }
       ∃ f, pickFrom (s.sendable (s.link 15)) (Config.choice s.steps) = some f ∧ f.ackOnly = true)
    ∧ (let s := onLink { lit 1 2 with replay := [waitingFlit 0] }
       ∃ f, pickFrom (s.sendable (s.link 15)) (Config.choice s.steps) = some f ∧ f.ackOnly = false ∧ f.sent = 0
        ∧ (s.link 15).replay.contains f = true)
    ∧ (flitGood (sound 0 0 65535) = true ∧ flitGood { sound 0 0 65535 with crc := (sound 0 0 65535).crc + 1 } = false ∧ (lit 1 2).expects 0 = some 4095
      ∧ (lit 2 2).expects 399 = some 4095 ∧ ({ lit 1 2 with lpeer := 7 } : Link).expects 0 ≠ some 4095 ∧ (sound 0 0 65535).cls ≠ clsControl
      ∧ (sound clsControl 5 0).cls = clsControl ∧ (sound clsControl 5 0).code = 2 + 3 ∧ (sound clsControl 1 0).code = 1
      ∧ (sound clsControl 5 0).seqno = ((lit 1 2).space ((lit 1 2).spaceKey 4095)).expect
      ∧ (sound 0 0 5).seqno ≠ ((lit 1 2).space 0).expect ∧ seqAhead (sound 0 0 5).seqno ((lit 1 2).space 0).expect < 32768
      ∧ (sound 0 0 65535).seqno ≠ ((lit 1 2).space 0).expect ∧ 32768 ≤ seqAhead (sound 0 0 65535).seqno ((lit 1 2).space 0).expect)
    ∧ ((lit 1 2).overdue (3000 * 2 ^ 16) = some (waitingFlit (2 ^ 16 * 1000)) ∧ (lit 1 2).overdue (2999 * 2 ^ 16) = none)
    ∧ (({ lit 1 2 with light := 0xFFFE } : Link).litGroups &&& 15 ≠ 15 ∧ ({ lit 1 2 with far := 0x7FFF } : Link).litGroups = 7)
    ∧ (({ lit 1 2 with restriping := some (14, 0) } : Link).restriping = some (14, 0))
    ∧ (({ lit 1 2 with restriping := some (0, 0) } : Link).dying = true ∧ ({ lit 1 2 with spaces := [(0, ⟨0, 0, 0, 8, false⟩)] } : Link).dying = true
      ∧ 15 < 32 ∧ Tab.sorted State.reset.routes = true) := by
  refine ⟨by decide, by decide, by decide, by decide, by decide, ⟨_, rfl, rfl, by decide⟩, ⟨_, rfl, rfl⟩, ⟨_, rfl, rfl, rfl, by decide⟩,
    ⟨good_sound _ _ _, bad_damaged _ _ _, ?_⟩, by decide, by decide, rfl, by decide⟩
  and_intros <;> decide +kernel

/-- A module with one window over all of its memory for every peer, and a route to peer 7 over link 15. -/
def open1 : State :=
  { State.reset with
    windows := [(0, (0, 0xFFFFFFFF0000, 0xF0FFF0000))]
    routes := [(7, 0x8000)]
    links := [(15, { Link.reset with lmode := 1, state := 2, groups := 15, light := 0xFFFF, lpeer := 7, room := [] })] }

/-- A request of a kind and width at an address, for a module. -/
def ask (dest : Nat) (kind : ReqKind) (pa width : Nat) : RemoteReq := ⟨4095, dest, pa, kind, width, 0, 0, 0, false, 0, 3, 31, 9, false⟩

/-- A request of this module's course that waits for its reply. -/
def asked (kind : ReqKind) (width : Nat) : Req := ⟨9, 1, 0, 0, 0, 31, { ask 7 kind 0x1000 width with issuer := 0 }, 0, some 15, true, some 15, true⟩

/-- A CLOSEB into s1 that asks peer 7. -/
def outClose : Flight := ⟨0, .closeb 3 [7] [] [] 0 (some 1), false, false, .co, [1], true, [], [], [], 0x10000, 0, 0⟩

/-- A course with a CLOSEB out since device time 1 that asks peer 7. -/
def closing : State :=
  onCur { small with dtime := 4000000 * 2 ^ 16 + 1 } fun c =>
    { c with flights := [outClose] }

theorem witness_RemoteEventsFollowTheRules :
    ((ask 0 .read 0x1FFFF 1).dest = open1.ownPeer.toNat ∧ open1.reds = [] ∧ open1.admission (ask 0 .read 0x1FFFF 1) = 0
      ∧ open1.admission (ask 0 .write 0x1FC00 1024) = 0 ∧ open1.admission (ask 0 (.rmw 10) 0 4) = 0 ∧ open1.admission (ask 0 (.red 8) 0 4) = 0 ∧ SetHasRoom open1 none 0 ∧ (ask 0 .write 0x1FC00 1024).units = 1
      ∧ (ask 0 .write 0x1FF00 256).width = 16 * 16 ∧ 0x1FF00 % 16 = 0 ∧ open1.admission (ask 0 .write 0x1FF00 256) = 0
      ∧ open1.admission (ask 0 .write 0xFFFFFFFFFFF0 16) ≠ 0 ∧ open1.rangePoisoned 0x1FC00 1024 = false
      ∧ open1.rangePoisoned 0x1FFFF 1 = false ∧ rmwWidth 10 = 4
      ∧ inStack (0xFFFFFFFFFFFF + 1 - 1) = false ∧ open1.admission (ask 0 .read 0xFFFFFFFFFFFF 1) ≠ 0
      ∧ inStack (0 + 1 - 1) = true ∧ (∀ w ∈ State.reset.windows, windowAdmits w.2 4095 0 (needsRight .read) = false)
      ∧ ({ open1 with poison := [(0xFFF, true)] } : State).rangePoisoned 0x1FFFF 1 = true
      ∧ ({ open1 with poison := [(0xFFF, true)] } : State).rangePoisoned 0x1FC00 1024 = true)
    ∧ ((ask 7 .read 0 1).dest ≠ open1.ownPeer.toNat ∧ open1.routeOf 7 0 = .go 15 ∧ routeRelay 0x8000 = false ∧ routeHold 0x8000 = false
      ∧ routeLinks (Tab.get (0 : W32) open1.routes 8).toNat = [])
    ∧ (∃ r rest, ({ open1 with reds := [⟨0x1FFFC, 8, 0, false, 1, none⟩] } : State).reds = r :: rest)
    ∧ (let s := { open1 with reqs := [asked (.rmw 0) 4], dtime := 4000000 * 2 ^ 16 }
       s.reqs.find? (fun x => decide (x.tag = (asked (.rmw 0) 4).tag)) = some (asked (.rmw 0) 4) ∧ (asked (.rmw 0) 4).req.kind.returns = true
        ∧ (asked (.rmw 0) 4).req.width ≠ 1024 ∧ (asked .read 1024).req.width = 1024 ∧ (asked .read 1024).keep = true
        ∧ { asked .read 1024 with keep := false }.keep = false
        ∧ SetHasRoom s (some 7) ((asked .read 1024).req.pa / 1024) ∧ s.readsCopy (asked (.rmw 0) 4) = false
        ∧ (asked (.rmw 0) 4).formed + 4000000 * 2 ^ 16 ≤ s.dtime)
    ∧ (let s := { small with reqs := [asked .write 4] }
       (asked .write 4).req.kind.returns = false ∧ 7 ≠ 0 ∧ 7 ≠ 5
        ∧ s.reqs.find? (fun x => decide (x.tag = (asked .write 4).tag)) = some (asked .write 4)
        ∧ (s.crs 0 0).closing (asked .write 4).req.batch (asked .write 4).ord = false
        ∧ (s.crs 0 0).batchNo (asked .write 4).req.batch = (asked .write 4).req.batch)
    ∧ ((∀ x ∈ open1.reqs, x.tag ≠ 9) ∧ 7 ≠ open1.ownPeer.toNat ∧ open1.routeBack 7 = .go 15 ∧ open1.relayedAhead 4095 9 3 15 = false)
    ∧ (let s := { open1 with inb := [⟨7, 0, 3, 1, 2, 2, 0⟩] }
       s.inb.find? (fun x => x.isOf 7 0 3) = some ⟨7, 0, 3, 1, 2, 2, 0⟩ ∧ 0 < 2 ∧ 2 ≤ 2 ∧ s.routeBack 7 = .go 15)
    ∧ ((closing.crs 0 0).flights[0]? = some outClose
      ∧ 7 ∈ [7] ∧ 31 < 32 ∧ closing.lateClose 0 0 3 = some outClose
      ∧ 1 ≠ 0) := by
  refine ⟨?_, ⟨by decide +kernel, by rfl, ?_⟩, ⟨_, _, rfl⟩, ?_, ?_, ⟨by decide +kernel, by decide +kernel, by rfl, by decide +kernel⟩,
    ⟨by decide +kernel, by decide, by decide, by rfl⟩, ?_⟩
  all_goals (try unfold SetHasRoom) <;> and_intros <;> decide +kernel

/-- A course whose load of remote cached bytes waits for a reply to its lane 31. -/
def fetching (width : Nat) : State :=
  onCur { open1 with wgs := small.wgs, grids := small.grids, reqs := [asked .read width] } fun c =>
    { c with flights := [⟨0, .load 0, false, false, .co, [1], false, [⟨31, .cached 7 0x103C, 0, 4, 1, 0, 0⟩], [], [], 0x10000, 0, 0⟩] }

/-- A lane of a remote cached page, its row line marked and not, of a whole slate and of an acquire. -/
theorem witness_SlateReplies :
    (LaneCached (fetching 1024) (asked .read 1024) ∧ LaneMarked (fetching 1024) (asked .read 1024) 2 ∧ ¬LaneMarked (fetching 1024) (asked .read 1024) 1
      ∧ (asked .read 1024).req.width = 1024 ∧ (asked .read 1024).req.kind = .read ∧ 2 ^ 8192 - 1 < 2 ^ 8192)
    ∧ (fetching 4).readsCopy (asked .read 4) = true ∧ (asked .read 4).req.width ≠ 1024
    ∧ (fetching 4).reqs.find? (fun x => decide (x.tag = (asked .read 4).tag)) = some (asked .read 4) := by
  have hc : ((fetching 1024).crs (asked .read 1024).uid (asked .read 1024).crs).flights =
      [⟨0, .load 0, false, false, .co, [1], false, [⟨31, .cached 7 0x103C, 0, 4, 1, 0, 0⟩], [], [], 0x10000, 0, 0⟩] := by decide +kernel
  refine ⟨⟨⟨_, _, 7, 0x103C, by rw [hc]; rfl, rfl, rfl⟩, ⟨_, _, 7, 0x103C, 1, by rw [hc]; rfl, rfl, rfl, ?_⟩, ?_, ?_⟩, ?_⟩
  · decide
  · rintro ⟨f, a, p, pa, q, hf, ha, ht, hq, hb, h1, h2⟩
    rw [hc] at hf
    cases hf
    cases ha
    cases ht
    have : q = 1 := by simp at h1 h2; omega
    subst this
    exact absurd hb (by decide)
  all_goals and_intros <;> decide +kernel

/-- A reset machine in which slate 127 is held, clean or with every row line written. -/
def holdingSlate (d : W32) : State := { State.reset with tags := [(127, ⟨false, d, 0⟩)] }

/-- A patrol of the stack alone, of a held slate whichever of the two the read is of, and of a copy; tags of a clean and of a dirty slate; a
unit that is watched and one that is not. -/
theorem witness_ErrorsTestsAndBootFollowTheRules :
    inStack 0x1FFFF = true ∧ State.reset.reds = []
    ∧ (pickFrom (State.reset.patrolled 0x1FFFF) (Config.choice State.reset.steps) = some (.stack 0x1FFFF)
      ∧ State.reset.partHere (.stack 0x1FFFF) = true)
    ∧ ((holdingSlate 0).patrolled 0x1FFFF = [.stack 0x1FFFF, .slate 0x1FFFF]
      ∧ ∀ p ∈ (holdingSlate 0).patrolled 0x1FFFF, (holdingSlate 0).partHere p = true)
    ∧ (let s := { State.reset with copies := [⟨7, 127, []⟩] }
       .copy 7 0x1FFFF ∈ s.patrolled 0x1FFFF ∧ s.partHere (.copy 7 0x1FFFF) = true)
    ∧ (let s := { small with wgs := [(0, { small.wg 0 with version := [⟨none, 127, [], 0, []⟩] })] }
       .version 0 0 31 ∈ s.patrolled 0x1FFFF ∧ s.partHere (.version 0 0 31) = true ∧ (s.wg 0).version[0]? = some ⟨none, 127, [], 0, []⟩)
    ∧ (Tab.find (holdingSlate 0).tags 127 = some ⟨false, 0, 0⟩ ∧ Tab.find (holdingSlate 1).tags 127 = some ⟨false, 1, 0⟩ ∧ (1 : W32) ≠ 0)
    ∧ State.reset.watch1 .lane 3 143 = none
    ∧ (small.core 0).testing = false ∧ ((Tab.find small.wgs 0).map fun w => (w.status, w.core)) = some (.resident, 0)
    ∧ (∀ v ∈ small.unitOf 0, small.debugged v = false ∧ (small.wg v).leave = .stay)
    ∧ (∀ r ∈ State.reset.roots, r % 8192 = 0) ∧ (∀ r ∈ small.roots, r % 8192 = 0)
    ∧ (let s := { small with wgs := [(0, { small.wg 0 with redlog := [⟨0, false, none, 0x1000, 8, 0, false, 4, 1, 0⟩] })] }
       s.partHere (.log 0 0 0) = true ∧ ((s.wg 0).redlog[0]?).isSome = true)
    ∧ (let s := { small with watched := [⟨.operandUnit, 0, 0, 0, true, true⟩] }
       s.watch1 .operandUnit 0 0 = some ⟨.operandUnit, 0, 0, 0, true, true⟩ ∧ coreUnit .operandUnit = true ∧ s.quiesced .operandUnit 0 0 = false
        ∧ ({ s with wgs := [] } : State).quiesced .operandUnit 0 0 = true)
    ∧ (let s := { State.reset with rollback := 1 }
       (∀ i ∈ ([] : List Image), s.rollback ≤ i.version) ∧ ¬∀ i ∈ [(⟨[], 0, 0⟩ : Image)], s.rollback ≤ i.version)
    ∧ (let s := { State.reset with watched := [⟨.wavelength, 3, 63, 1, false, false⟩], dtime := 86400 * 1000000000 * 2 ^ 16 }
       s.watch1 .wavelength 3 63 = some ⟨.wavelength, 3, 63, 1, false, false⟩ ∧ s.dtime < 1 + 86400 * 1000000000 * 2 ^ 16)
    ∧ (let s := { State.reset with watched := [⟨.slateWay, 0, 0, 0, true, false⟩], dtime := 86400 * 1000000000 * 2 ^ 16 }
       0 + 86400 * 1000000000 * 2 ^ 16 ≤ s.dtime ∧ s.watch1 .slateWay 0 0 = some ⟨.slateWay, 0, 0, 0, true, false⟩) := by
  refine ⟨by decide +kernel, rfl, ⟨rfl, by decide +kernel⟩, ?_⟩
  and_intros
  all_goals decide +kernel

/-- Queue 63 enabled and in a state, its ring of 2 packets at 0x10000, its words at 0x1FFC0 and 0x1FFD0. -/
def queued (st : Nat) (ahead : W64) (pkt : List Byte) (holding : Bool) : State :=
  { paged with queues := [(63, { Queue.reset with
      qbase := 0x10000, qlog := 1, qen := true, wpa := 0x1FFC0, swa := 0x1FFD0, qstate := st, wpseen := ahead, seen := true
      pkt := pkt, holding := holding })] }

/-- A block whose words at the offsets have the values. -/
def words : List (Nat × Nat) → Nat
  | [] => 0
  | e :: r => e.2 * 2 ^ (8 * e.1) + words r

/-- Queue 63 with a packet, and a job at 0x12000 in address space 1 that may place `cores` workgroups. -/
def sent (p cores : Nat) : State :=
  let s := queued 1 1 [] false
  let job := words [(0, 1), (0x18, 1), (0x20, cores), (0x24, 73728), (0x28, 36864), (0x2C, 18432)]
  { s with mem := putBytes (putBytes s.mem 0x10000 (bytesOf 64 p)) 0x12000 (bytesOf 48 job) }

/-- A launch of a grid of `gx` workgroups with its completion record at `cpla`, one course each. -/
def launching (first gx cpla : Nat) : Nat :=
  words [(0, first), (4, gx), (8, 0x10001), (0x10, 0x10000), (0x18, 0x12000), (0x20, 0x20200A), (0x38, cpla)]

/-- The chain of that job. -/
def job : Chain :=
  { Chain.empty with asn := 1, job := 0x12000, budgets := [⟨0x12000, 576, 73728, 36864, 18432⟩] }

/-- A wait packet on 4 bytes at `a`, with a time-out. -/
def waiting (a cond tmo : Nat) : Nat := words [(0, 2), (8, a), (0x10, 7), (0x18, cond), (0x1C, tmo)]

/-- A collective packet for links whose image of 8 bytes, that crosses a page boundary, goes to bytes 8 and on of context 1. -/
def collective (links : Nat) : Nat :=
  words [(0, 0x10003), (4, links), (8, 0x80008), (0x0C, 8), (0x10, 0x1FFFC), (0x18, 0x12000), (0x20, 5), (0x28, 0x13000)]

/-- Nothing holds of a list of codes and conditions. -/
def noneOf (l : List (Nat × Bool)) : Bool := l.all fun x => !x.2

theorem none_of (l : List (Nat × Bool)) (h : noneOf l = true) : NoneOf l := by
  intro x hx
  simpa using List.all_eq_true.mp h x hx

/-- The condition at `j` holds and none before it. -/
def lowestAt (l : List (Nat × Bool)) (j code : Nat) : Bool := decide (l[j]? = some (code, true)) && noneOf (l.take j)

theorem lowest_of (l : List (Nat × Bool)) (j code : Nat) (h : lowestAt l j code = true) : LowestOf l code := by
  simp only [lowestAt, Bool.and_eq_true, decide_eq_true_eq] at h
  exact ⟨j, h.1, fun i hi x hx => none_of _ h.2 x (List.mem_of_getElem? (by rw [List.getElem?_take_of_lt hi]; exact hx))⟩

/-- The head is a packet of one granule. -/
def isHead (h : Head) (ty p : Nat) : Bool :=
  match h with
  | .packet t 1 b => decide (t = ty) && decide (b = p)
  | _ => false

theorem head_of (h : Head) (ty p : Nat) (e : isHead h ty p = true) : h = .packet ty 1 p := by
  unfold isHead at e
  split at e
  · simp_all
  · simp at e

/-- The head of the queue with that packet is it. -/
def heads (ty p cores : Nat) : Bool := isHead ((sent p cores).head 63) ty p

theorem some_getD {α : Type} (o : Option α) (x : α) (h : o.isSome = true) : o = some (o.getD x) := by
  cases o <;> simp_all

/-- The front end has read the one granule of a launch packet and its job. -/
def readIn (s : State) : State := (s.touchPacket 63 1).touchChain 0x12000 8

/-- The tables' second leaf is held. -/
def heldLeaf (s : State) : State := { s with mem := putBytes s.mem 0x4008 (bytesOf 8 0x10F3) }

/-- A translation succeeds, and what follows holds of what it gives. -/
def transHold (d : Trans) (p : State → Xlat → Bool) : Bool :=
  match d with
  | .ok t x => p t x
  | _ => false

theorem trans_hold (d : Trans) (p : State → Xlat → Bool) (h : transHold d p = true) : ∃ t x, d = .ok t x ∧ p t x = true := by
  cases d with
  | ok t x => exact ⟨t, x, rfl, h⟩
  | _ => cases h

/-- A state with that many live grids. -/
def crowded1 (s : State) (n : Nat) : State := { s with grids := (List.range n).map fun i => (i, Grid.empty) }

/-- A queue's ring read at its full and over its end by one. -/
theorem witness_QueueEventsFollowTheRules_head :
    (queued 1 1 [] false).reds = [] ∧ ((queued 1 1 [] false).queue 63).qen = true ∧ ((queued 1 1 [] false).queue 63).qstate ≠ 3
      ∧ (queued 1 1 [] false).rangePoisoned ((queued 1 1 [] false).queue 63).wpa.toNat 8 = false
      ∧ ((queued 1 3 [] false).queue 63).qstate = 1 ∧ ((queued 1 3 [] false).queue 63).holding = false
      ∧ ((queued 1 3 [] false).queue 63).seen = true ∧ 2 ^ ((queued 1 3 [] false).queue 63).qlog < ((queued 1 3 [] false).queue 63).pending
      ∧ (sent (launching 1 1 0x13000) 576).rangePoisoned 0x10000 128 = false
      ∧ ((queued 1 2 [] false).queue 63).pending = 2 ^ ((queued 1 2 [] false).queue 63).qlog := by
  decide +kernel

/-- A packet of two granules of which one has been written: read once, it is kept; with the second, from memory or as it was kept. -/
theorem witness_QueueEventsFollowTheRules_granules :
    let with1 := fun (s : State) (f : Queue → Queue) => { s with queues := s.queues.map fun (e : Nat × Queue) => (e.1, f e.2) }
    let s := sent 0x11 0
    bits 0x11 5 4 = 1 ∧ (s.queue 63).pending = 1 ∧ 2 ^ (s.queue 63).qlog = 2 ∧ (s.queue 63).got = [] ∧ s.rangePoisoned 0x10000 128 = false ∧ s.read 0x10000 128 = 0x11
    ∧ ((with1 s fun q => { q with got := bytesOf 128 0x11 }).queue 63).got.length = 128
    ∧ (let t := with1 s fun q => { q with got := bytesOf 256 0x11, wpseen := 2 }
       (t.queue 63).got.length = 256 ∧ 2 ≤ (t.queue 63).pending ∧ (t.queue 63).pending ≤ 2 ^ (t.queue 63).qlog
        ∧ bits (leBytes (t.queue 63).got) 5 4 = 1) := by
  decide +kernel

/-- Launch packets that each group of checks passes, or stops at its first or its last code; one whose completion address is mapped, with
room and without, one whose page is held, and one whose is not mapped. -/
theorem witness_QueueEventsFollowTheRules_launch :
    (sent (launching 1 1 0x13000) 576).head 63 = .packet 1 1 (launching 1 1 0x13000)
      ∧ (sent (launching 0x81 1 0x13000) 576).head 63 = .packet 1 1 (launching 0x81 1 0x13000)
      ∧ LowestOf (launchFirst (launching 0x81 1 0x13000) 1) 3
      ∧ NoneOf (launchFirst (launching 1 1 0x13000) 1) ∧ (launchOf (launching 1 1 0x13000)).rcbp = 0x12000
      ∧ ((queued 1 1 [] false).touchPacket 63 1).chainAt 0x12000 = none
      ∧ ((sent (launching 1 1 0x13000) 576).touchPacket 63 1).chainAt 0x12000 = some job
      ∧ NoneOf (launchSecond (launching 1 1 0x13000) job)
      ∧ LowestOf (launchSecond (launching 1 0 0x13001) job) 8 ∧ LowestOf (launchSecond (launching 1 1 0x13001) job) 10
      ∧ (∃ t x, (readIn (sent (launching 1 1 0x13000) 576)).ioXlat job.asn job.root 0x13000 1 = .ok t x ∧ t.roomFor job = true)
      ∧ (∃ t x, (readIn (crowded1 (sent (launching 1 1 0x13000) 576) 1024)).ioXlat job.asn job.root 0x13000 1 = .ok t x ∧ (!t.roomFor job) = true)
      ∧ (∃ t, (readIn (heldLeaf (sent (launching 1 1 0x4000000) 576))).ioXlat job.asn job.root 0x4000000 1 = .wait t)
      ∧ (∃ t f, (readIn (sent (launching 1 1 0x4000000) 576)).ioXlat job.asn job.root 0x4000000 1 = .fault t f)
      ∧ NoneOf (launchThird ((sent (launching 1 1 0x13000) 576).touchPacket 63 1) 63 1 (launching 1 1 0x13000) job)
      ∧ LowestOf (launchThird ((sent (launching 0x1001 1 0x13000) 576).touchPacket 63 1) 63 1 (launching 0x1001 1 0x13000) job) 11 := by
  have h1 : isHead ((sent (launching 1 1 0x13000) 576).head 63) 1 (launching 1 1 0x13000) = true := by decide +kernel
  have h2 : isHead ((sent (launching 0x81 1 0x13000) 576).head 63) 1 (launching 0x81 1 0x13000) = true := by decide +kernel
  refine ⟨head_of _ _ _ h1, head_of _ _ _ h2, lowest_of _ 2 _ (by decide +kernel), none_of _ (by decide +kernel), by decide +kernel,
    by decide +kernel, by decide +kernel, none_of _ (by decide +kernel), lowest_of _ 2 _ (by decide +kernel), lowest_of _ 4 _ (by decide +kernel),
    trans_hold _ (fun t _ => t.roomFor job) (by decide +kernel), trans_hold _ (fun t _ => !t.roomFor job) (by decide +kernel), ⟨_, trans_wait paged _ (by decide +kernel)⟩,
    trans_fault _ (by decide +kernel), none_of _ (by decide +kernel), lowest_of _ 0 _ (by decide +kernel)⟩

/-- A held launch, bulk and latency-class; wait packets and their words; a wait over at its very end, one that is met, and one whose word
meets its condition; the queue's four commands. -/
theorem witness_QueueEventsFollowTheRules_waits :
    (let s := queued 1 1 (bytesOf 128 1) true
     (s.queue 63).qen = true ∧ (s.queue 63).holding = true ∧ bits (leBytes (s.queue 63).pkt) 3 0 = 1
      ∧ s.roomFor (s.queue 63).chain = true ∧ (crowded1 s 1024).roomFor (s.queue 63).chain = false
      ∧ (launchOf (leBytes (s.queue 63).pkt)).lc = false ∧ (launchOf (leBytes (bytesOf 128 0x1001))).lc = true
      ∧ s.latEntry (s.queue 63).chain = none)
    ∧ heads 2 (waiting 0x18000 1 1) 0 = true ∧ heads 2 (waiting 0x18002 1 1) 0 = true
    ∧ lowestAt (waitFirst (sent (waiting 0x18002 1 1) 0) 63 1 (waiting 0x18002 1 1)) 2 0xA = true
    ∧ noneOf (waitFirst (sent (waiting 0x18000 1 1) 0) 63 1 (waiting 0x18000 1 1)) = true
    ∧ (let s := { queued 2 1 (bytesOf 128 (waiting 0x18000 1 1)) false with dtime := 1000 * 2 ^ 16 }
       (s.queue 63).qen = true ∧ (s.queue 63).qstate = 2 ∧ s.reds = [] ∧ s.rangePoisoned 0x18000 4 = false ∧ s.read 0x18000 4 ≠ 7
        ∧ w4 (leBytes (s.queue 63).pkt) 0x1C = 1 ∧ (s.queue 63).began + 1 * 1000 * 2 ^ 16 ≤ s.dtime)
    ∧ (let s := { queued 2 1 (bytesOf 128 (waiting 0x18000 0 1)) false with dtime := 1000 * 2 ^ 16 }
       (s.queue 63).met = false ∧ bits (w4 (leBytes (s.queue 63).pkt) 0x18) 1 0 = 0 ∧ s.read 0x18000 4 ≠ 7)
    ∧ (let s := { queued 2 1 (bytesOf 128 (waiting 0x18000 3 0)) false with mem := putBytes paged.mem 0x18000 (bytesOf 4 0x80000000) }
       signed 32 (s.read 0x18000 4) < signed 32 7)
    ∧ ((queued 1 1 [] false).queue 63).configured = true ∧ Queue.reset.configured = false ∧ ((queued 3 1 [] false).queue 63).qstate = 3 := by
  refine ⟨?_, by decide +kernel, by decide +kernel, by decide +kernel, by decide +kernel, ?_, ?_, ?_, ?_⟩
  all_goals decide +kernel

/-- The pages of an image translate, and what follows holds of what they give. -/
def pagesHold (d : Pages) (p : State → List (Nat × Nat) → Bool) : Bool :=
  match d with
  | .ok t l => p t l
  | _ => false

theorem pages_hold (d : Pages) (p : State → List (Nat × Nat) → Bool) (h : pagesHold d p = true) : ∃ t l, d = .ok t l ∧ p t l = true := by
  cases d with
  | ok t l => exact ⟨t, l, rfl, h⟩
  | _ => cases h

/-- Which of the three an image's translation answers. -/
def pagesAre : Pages → Nat
  | .wait _ => 0
  | .fault _ => 1
  | .ok _ _ => 2

theorem pages_wait (d : Pages) (h : pagesAre d = 0) : ∃ t, d = .wait t := by
  cases d <;> simp_all [pagesAre]

theorem pages_fault (d : Pages) (h : pagesAre d = 1) : ∃ t, d = .fault t := by
  cases d <;> simp_all [pagesAre]

/-- A packet whose image of 8 bytes is at `va`. -/
def imageAt (va : Nat) : Nat :=
  words [(0, 0x10003), (4, 0x8001), (8, 0x80008), (0x0C, 8), (0x10, va), (0x18, 0x12000), (0x20, 5), (0x28, 0x13000)]

/-- A collective that is held. -/
def heldColl : State :=
  let s := queued 1 1 (bytesOf 128 (collective 0x8001)) true
  { s with queues := s.queues.map fun e => (e.1, { e.2 with chain := job }) }

/-- Collective packets for links 0 and 15, one for none, one that is reserved; images that cross a page, are held and are not mapped;
contexts that are idle. -/
theorem witness_QueueEventsFollowTheRules_collective :
    heads 3 (collective 0x8001) 576 = true ∧ heads 3 (collective 0) 576 = true
    ∧ (LowestOf (collFirst (collective 0x18001)) 3 ∧ NoneOf (collFirst (collective 0x8001)) ∧ NoneOf (collFirst (collective 0)))
    ∧ ((sent (collective 0x8001) 576).touchPacket 63 1).chainAt 0x12000 = some job
    ∧ (bits (w4 (collective 0) 4) 15 0 = 0 ∧ bits (w4 (collective 0x8001) 4) 15 0 ≠ 0 ∧ collAddress (collective 0x8001) = false
      ∧ collAddress (imageAt 0x10001) = true)
    ∧ ((∃ t, (readIn (heldLeaf (sent (imageAt 0x4000000) 576))).imageXlat job (imagePages (imageAt 0x4000000)) = .wait t)
      ∧ (∃ t, (readIn (sent (imageAt 0x4000000) 576)).imageXlat job (imagePages (imageAt 0x4000000)) = .fault t)
      ∧ ∃ t l, (readIn (sent (collective 0x8001) 576)).imageXlat job (imagePages (collective 0x8001)) = .ok t l
        ∧ (decide (l = [(0x1FFFC, 0x1FFFC), (0x20000, 0x20000)]) && transHold (t.ioXlat job.asn job.root 0x13000 1) fun _ _ => true) = true)
    ∧ NoneOf [(11, job.lat), (12, !(sent (collective 0x8001) 576).hasRight 63 (((sent (collective 0x8001) 576).queue 63).writer 1) 33)]
    ∧ ((heldColl.queue 63).qen = true ∧ (heldColl.queue 63).holding = true ∧ bits (leBytes (heldColl.queue 63).pkt) 3 0 = 3
        ∧ heldColl.roomFor (heldColl.queue 63).chain = true ∧ linkBits 0x8001 = [0, 15]
        ∧ (∀ l ∈ linkBits 0x8001, ((heldColl.seqr l).ctx 1).st = .idle)
        ∧ ∃ t l, heldColl.imageXlat (heldColl.queue 63).chain (imagePages (leBytes (heldColl.queue 63).pkt)) = .ok t l
          ∧ (decide (l = [(0x1FFFC, 0x1FFFC), (0x20000, 0x20000)]) && t.reds.isEmpty) = true) := by
  refine ⟨by decide +kernel, by decide +kernel, ⟨lowest_of _ 1 _ (by decide +kernel), none_of _ (by decide +kernel), none_of _ (by decide +kernel)⟩,
    by decide +kernel, by decide +kernel, ⟨pages_wait _ (by decide +kernel), pages_fault _ (by decide +kernel),
      pages_hold _ _ (by decide +kernel)⟩,
    none_of _ (by decide +kernel), by decide +kernel, by decide +kernel, by decide +kernel, by decide +kernel, by decide +kernel,
    by decide +kernel, pages_hold _ _ (by decide +kernel)⟩

/-- The least workgroup of one course with a register file granule. -/
def tiny : Launch := { fetchLaunch with nbar := 0, nos := 0, nacc := 0, nv := 8, ns := 8, partw := 1 }

/-- Its grid beside an unplaced one of higher priority, whose budget has so many cores, at a device time; the workgroup changed. -/
def pressedBy (n : Nat) (l : Launch) (now : Nat) (f : Workgroup → Workgroup) : State :=
  let s := onWg (onLaunch paged fun _ => l) f
  let top := (s.grid 1).chain
  { s with
    dtime := now * 1000 * 2 ^ 16
    grids := [(1, { s.grid 1 with chain := { top with savea := 0x1000000, budgets := [⟨0x12000, 1, 1, 0, 0⟩] } }),
      (2, { Grid.empty with
        chain := { Chain.empty with prio := 15, budgets := [⟨0x12100, n, 1, 0, 0⟩] }, launch := tiny, total := 1 })] }

/-- As `pressedBy`, the other grid fitting nowhere. -/
def pressed (l : Launch) (now : Nat) (f : Workgroup → Workgroup) : State := pressedBy 0 l now f

theorem pick_none (s : State) (g : Grid) (among : Nat → Bool) (hu : g.launch.unit ≠ 0)
    (h : (List.range 576).filter (fun k => among k && s.coreFits g k && (decide (g.launch.unit ≠ 1) || s.budgetsHold g [k])) = []) :
    s.pickCores g among = none := by
  have hn : s.pickIn g [] = none := by
    have h1 : ∀ c, takeAround [] g.launch.unit c = [] := fun c => by simp [takeAround]
    have h2 : s.canPlace g [] = false := by simp [State.canPlace, Ne.symm hu]
    have h3 : ((List.range (g.chain.budgets.length + 1)).reverse.flatMap fun _ => ([] : List Nat)).take g.launch.unit = [] := by simp
    simp [State.pickIn, h1, h2, h3]
  simp only [State.pickCores, h, List.filter_nil, hn]
  rw [List.filterMap_eq_nil_iff.mpr (fun _ _ => rfl)]
  rfl

theorem must_yield (s : State) (u gid w at1 pr : Nat) (hc : s.candidates = [(pr, false, gid, w, at1)])
    (hu : (s.afterLeaving.grid gid).launch.unit ≠ 0)
    (hf : (List.range 576).filter (fun k => true && s.afterLeaving.coreFits (s.afterLeaving.grid gid) k
      && (decide ((s.afterLeaving.grid gid).launch.unit ≠ 1) || s.afterLeaving.budgetsHold (s.afterLeaving.grid gid) [k])) = [])
    (ht : at1 + waitTime ≤ s.dtime ∧ (s.grid gid).launch.notBefore * 2 ^ 16 ≤ s.dtime)
    (hy : s.wgs = [(u, s.wg u)] ∧ (s.grid (s.wg u).gid).launch.lc = false ∧ (s.wg u).status = .resident ∧ (s.wg u).leave = .stay
      ∧ (s.unitOf u).any s.debugged = false ∧ (s.grid (s.wg u).gid).chain.prio < pr) : s.mustYield u = true := by
  have hn : (s.afterLeaving.placeEvent (pr, false, gid, w, at1)).isNone = true := by
    simp [State.placeEvent, pick_none _ _ _ hu hf]
  obtain ⟨h1, h2, h3, h4, h5, h6⟩ := hy
  rw [State.mustYield, hc]
  simp only [hn, ht.1, ht.2, decide_true, Bool.true_and]
  rw [h1]
  simp [h2, h3, h4, h5, h6]

/-- A member of the unit is the last task before its grid's end, or not. -/
def lateOf (s : State) : Prop := ∃ v ∈ s.unitOf 0, s.oldest v = true ∨ (s.wg v).unbuf = true

/-- The grid that presses on a workgroup finds no core, and has waited long enough. -/
theorem pressed_yields (l : Launch) (f : Workgroup → Workgroup) (h : (pressed l 50 f).candidates = [(15, false, 2, 0, 0)]
    ∧ ((pressed l 50 f).afterLeaving.grid 2).launch.unit = 1
    ∧ (List.range 576).filter (fun k => (pressed l 50 f).afterLeaving.budgetsHold ((pressed l 50 f).afterLeaving.grid 2) [k]) = []
    ∧ (pressed l 50 f).wgs = [(0, (pressed l 50 f).wg 0)] ∧ ((pressed l 50 f).grid ((pressed l 50 f).wg 0).gid).launch.lc = false
    ∧ ((pressed l 50 f).wg 0).status = .resident ∧ ((pressed l 50 f).wg 0).leave = .stay
    ∧ ((pressed l 50 f).unitOf 0).any (pressed l 50 f).debugged = false ∧ ((pressed l 50 f).grid ((pressed l 50 f).wg 0).gid).chain.prio < 15) :
    (pressed l 50 f).mustYield 0 = true := by
  obtain ⟨h1, h2, h3, h4⟩ := h
  refine must_yield _ 0 2 0 0 15 h1 (by rw [h2]; decide) ?_ ⟨by show 0 + waitTime ≤ 50 * 1000 * 2 ^ 16; decide, by show 0 * 2 ^ 16 ≤ _; omega⟩ h4
  rw [List.filter_eq_nil_iff] at h3 ⊢
  intro k hk
  have := h3 k hk
  simp_all

/-- A unit that just fits on core 575 and not on one beyond; yielding after 50 µs, with each of the three answers; a drain that has just
timed out; a flush, of a unit that may restart and of one that is bound to go on; a workgroup that is over. -/
theorem witness_PlacementEventsFollowTheRules_units :
    (let s := pressedBy 1 tiny 50 id
     (s.grid 2).abort = none ∧ (s.grid 2).nextUnit ≠ [] ∧ s.canPlace (s.grid 2) [575] = true ∧ s.canPlace (s.grid 2) [576] = false)
    ∧ (let s := pressed tiny 50 id
       s.mustYield 0 = true ∧ (∀ v ∈ s.unitOf 0, (s.wg v).leave = .stay) ∧ s.unitOf 0 = [0] ∧ ¬NearEnd s (s.unitOf 0)
        ∧ ¬StartsAfresh s (s.unitOf 0))
    ∧ (pressed tiny 50 fun w => { w with leave := .runOn }).mustYield 0 = false
    ∧ (let s := pressed tiny 50 fun w => { w with unbuf := true }
       s.mustYield 0 = true ∧ (∀ v ∈ s.unitOf 0, (s.wg v).leave = .stay) ∧ NearEnd s (s.unitOf 0))
    ∧ NearEnd (pressed tiny 50 fun w => { w with taskEnd := true }) [0]
    ∧ (let s := pressed { tiny with idem := true } 50 id
       s.mustYield 0 = true ∧ ¬NearEnd s (s.unitOf 0) ∧ StartsAfresh s (s.unitOf 0) ∧ (∀ v ∈ s.unitOf 0, (s.wg v).leave = .stay))
    ∧ (let s := pressed tiny 100 fun w => { w with leave := .drain 0 }
       (s.wg 0).leave = .drain 0 ∧ 0 + 100000 * 2 ^ 16 ≤ s.dtime ∧ (∀ v ∈ s.unitOf 0, (s.wg v).unbuf = false) ∧ ¬StartsAfresh s (s.unitOf 0)
        ∧ (∃ v ∈ s.unitOf 0, (s.wg v).leave ≠ .stay))
    ∧ (pressed tiny 99 fun w => { w with leave := .drain 0 }).dtime < 0 + 100000 * 2 ^ 16
    ∧ (let s := pressed tiny 0 fun w => { w with leave := .flush }
       s.mayFlush 0 = true ∧ s.pend = [] ∧ (s.unitOf 0).Nodup ∧ ¬(∃ v ∈ s.unitOf 0, (s.wg v).unbuf = true ∨ (s.wg v).taskEnd = true)
        ∧ (pressed tiny 0 id).mayFlush 0 = false)
    ∧ (let s := pressed tiny 0 fun w => { w with leave := .flush, unbuf := true }
       s.mayFlush 0 = true ∧ ∃ v ∈ s.unitOf 0, (s.wg v).unbuf = true ∨ (s.wg v).taskEnd = true)
    ∧ (let ended := fun (w : Workgroup) => { w with courses := Tab.mapVal (fun _ c => { c with exited := true }) w.courses }
       (pressed tiny 0 ended).unitOver 0 = true ∧ (pressed tiny 0 id).unitOver 0 = false ∧ ((pressed tiny 0 id).wg 0).status = .resident
        ∧ ((pressed tiny 0 id).grid 1).abort = none) := by
  unfold NearEnd StartsAfresh
  refine ⟨?_, ⟨pressed_yields _ _ (by decide +kernel), ?_⟩, ?_, ⟨pressed_yields _ _ (by decide +kernel), ?_⟩, ?_,
    ⟨pressed_yields _ _ (by decide +kernel), ?_⟩, ?_⟩
  all_goals and_intros <;> decide +kernel

theorem witness_PlacementEventsFollowTheRules_migration :
    MayMigrate (pressed tiny 2000 id) [0] [575] false ∧ ¬MayMigrate (pressed tiny 2000 id) [0] [0] false
    ∧ (pressed tiny 2000 id).unitOf 0 = [0] ∧ ((pressed tiny 2000 id).grid 1).launch.lc = false := by
  refine ⟨⟨by decide, rfl, rfl, by decide, by decide, ?_, by decide +kernel⟩, fun h => h.2.2.2.2.2.1 0 0 0 rfl rfl rfl, by decide +kernel, rfl⟩
  intro i v k hv hk
  match i with
  | 0 => cases hv; cases hk; decide +kernel
  | _ + 1 => cases hv

/-- What a step of a unit's members comes to. -/
def didCode {α : Type} : Did α → Nat
  | .ok _ => 1
  | .held _ => 2
  | .bad => 3

/-- A workgroup that is to be saved, its area at an address. No course is written, which keeps the evaluation short. -/
def saving (at1 : Nat) (f : Workgroup → Workgroup) : State :=
  let s := pressed { tiny with ncrs := 0 } 0 fun w => f { w with leave := .save }
  s.setGrid 1 { s.grid 1 with chain := { (s.grid 1).chain with savea := at1 } }

/-- The page of the tables is held. -/
def pageHeld (s : State) : State := { s with mem := putBytes s.mem 0x4000 (bytesOf 8 0x10F3) }

/-- What the mapping of its members' areas comes to. -/
def saveOf (s : State) : Nat := didCode (s.mapAreas 1 ((s.unitOf 0).map fun v => (v, (s.wg v).core)))

/-- A save that can be done, one whose area is held, and one that faults; one that has become the oldest task, with and without a core to
go to; one that is not quiet. -/
theorem witness_PlacementEventsFollowTheRules_saves :
    ((saving 0x1000000 id).wg 0).status = .resident ∧ (saving 0x1000000 id).unitQuiet 0 = true ∧ (saving 0x1000000 id).unitOf 0 = [0]
    ∧ ¬(∃ v ∈ (saving 0x1000000 id).unitOf 0, (saving 0x1000000 id).oldest v = true ∨ ((saving 0x1000000 id).wg v).unbuf = true)
    ∧ saveOf (saving 0x1000000 id) = 1 ∧ saveOf (saving 0x4000000 id) = 3 ∧ saveOf (pageHeld (saving 0x1000000 id)) = 2
    ∧ (∀ goal : Fin 2, let s := saving 0x1000000 fun w => { w with unbuf := true, goal := if goal = 0 then [] else [575] }
        s.unitQuiet 0 = true ∧ (∃ v ∈ s.unitOf 0, s.oldest v = true ∨ (s.wg v).unbuf = true)
          ∧ if goal = 0 then ∀ v ∈ s.unitOf 0, (s.wg v).goal = [] else ∃ v ∈ s.unitOf 0, (s.wg v).goal ≠ [])
    ∧ (saving 0x1000000 fun w => { w with cmds := [command (.mma 0 0 (.slot 0) Gen.zero 0 0 0 false none)] }).unitQuiet 0 = false := by
  decide +kernel

/-- What the mapping of its members' areas for a restore on core 575 comes to. -/
def restoreOf (s : State) : Nat := didCode (s.mapAreas 0 ((s.unitOf 0).zip [575]))

/-- The pages of its area, and whether its reload begins a task afresh. -/
def redoOf (redo : Bool) : Bool :=
  let s := saving 0x1000000 fun w => { w with status := .saved, leave := .stay, redo := redo }
  match s.mapAreas 0 [(0, 575)] with
  | .ok (r, (_, pages) :: _) => (r.readArea 0 pages).2.redo
  | _ => !redo

/-- A unit that has been saved. -/
def saved (at1 : Nat) : State := saving at1 fun w => { w with status := .saved, leave := .stay }

/-- A restore that can be done, one whose area is held, one that faults; a core that does not exist. -/
theorem witness_PlacementEventsFollowTheRules_restores :
    ((saved 0x1000000).grid 1).abort = none ∧ (saved 0x1000000).unitOf 0 = [0] ∧ ((saved 0x1000000).wg 0).status = .saved
    ∧ (saved 0x1000000).canPlace ((saved 0x1000000).grid ((saved 0x1000000).wg 0).gid) [575] = true
    ∧ (saved 0x1000000).canPlace ((saved 0x1000000).grid ((saved 0x1000000).wg 0).gid) [576] = false
    ∧ restoreOf (saved 0x1000000) = 1 ∧ restoreOf (saved 0x4000000) = 3 ∧ restoreOf (pageHeld (saved 0x1000000)) = 2
    ∧ redoOf false = false ∧ redoOf true = true := by
  decide +kernel

/-- The bytes that a list of pieces puts at their places. -/
def areaOf (ps : List Piece) (a : Nat) : Byte :=
  match ps.find? fun p => decide (p.off ≤ a) && decide (a < p.off + p.bytes.length) with
  | some p => p.bytes.getD (a - p.off) 0
  | none => 0

theorem holds_area : ∀ ps : List Piece, (ps.Pairwise fun p q => p.off + p.bytes.length ≤ q.off ∨ q.off + q.bytes.length ≤ p.off) →
    Holds ps (areaOf ps)
  | [], _ => fun p hp => nomatch hp
  | q :: r, h => by
    obtain ⟨hq, hr⟩ := List.pairwise_cons.mp h
    have ih := holds_area r hr
    intro p hp i hi
    rcases List.mem_cons.mp hp with e | m1
    · subst e
      simp [areaOf, List.find?, hi]
    · have d := hq p m1
      have c : (decide (q.off ≤ p.off + i) && decide (p.off + i < q.off + q.bytes.length)) = false := by
        simp only [Bool.and_eq_false_iff, decide_eq_false_iff_not]
        omega
      rw [← ih p m1 i hi]
      simp [areaOf, List.find?, c]

/-- The pieces of a course with a vector and a scalar register do not overlap, so that one memory holds them all. -/
theorem witness_PlacementEventsFollowTheRules_area :
    192 ≤ 192 ∧ 64 ≤ 64 ∧ Holds (coursePieces { Course.fresh with pc := 0x10000, s := [(1, 7)] } 192 64 0)
      (areaOf (coursePieces { Course.fresh with pc := 0x10000, s := [(1, 7)] } 192 64 0)) :=
  ⟨by decide, by decide, holds_area _ (by decide +kernel)⟩

/-- The one course with another that is ready beside it, at a cycle. -/
def beside (f : Course → Course) (now : Nat) : State :=
  let t := onCur paged f
  { (t.setCrs 0 1 { Course.fresh with sched := .ready }) with cycle := BitVec.ofNat 64 now }

/-- A course whose MWAIT has waited its time, not yet over. -/
def expired : State :=
  { (onCur paged fun c => { c with wait := some .mwait, limit := some 0 }) with monitors := [(0, 0, 0, 0, false)] }

/-- A swap at 512 cycles and none at 511; a timer at its limit and one before it; the time-out of an MWAIT. -/
theorem witness_PlacementEventsFollowTheRules_timers :
    (let s := beside id 512
     (s.crs 0 0).sched = .active ∧ (s.crs 0 0).entered + 512 ≤ s.cycle.toNat ∧ s.anyReady (s.wg 0).core = true
      ∧ (beside id 511).cycle.toNat < ((beside id 511).crs 0 0).entered + 512 ∧ small.anyReady (small.wg 0).core = false)
    ∧ (let s := beside (fun c => { c with ctlim := 1, ctimer := 1 }) 0
       s.timerDue s.curWg s.curCrs = true ∧ s.cur.arb = none ∧ s.curL.handler ≠ 0 ∧ s.cur.tlev < 4 ∧ s.cur.depth < 256
        ∧ (∃ w, TrapWrites s w { code := 0x10 })
        ∧ (beside (fun c => { c with ctlim := 1, ctimer := 0 }) 0).timerDue 0 0 = false)
    ∧ (let s := expired
       s.cur.wait = some .mwait ∧ s.cur.limit = some 0 ∧ s.monitorOver s.curWg s.curCrs = false ∧ s.cur.arb = none ∧ s.curL.handler ≠ 0 ∧ s.cur.tlev < 4
        ∧ s.cur.depth < 256
        ∧ (let s0 := { s with inRep := s.cur.repAct }
           let s1 := s0.setCur { s.cur with
             limit := none, repst := if s.cur.repAct then repWord true s.cur.repCount (s.cur.repDone + 1) else s.cur.repst }
           ∃ w, TrapWrites s1 w { code := 0x11, resume := if s.cur.repAct then none else some (s.cur.pc + 4) })) := by
  refine ⟨?_, ⟨by decide +kernel, rfl, by decide, by decide, by decide, ⟨_, _, recorded _ _ (by decide +kernel) (by decide +kernel), .inl ⟨by decide +kernel, rfl⟩⟩, by decide +kernel⟩,
    ⟨rfl, rfl, by decide +kernel, rfl, by decide, by decide, by decide, ⟨_, _, recorded _ _ (by decide +kernel) (by decide +kernel), .inl ⟨by decide +kernel, rfl⟩⟩⟩⟩
  decide +kernel

/-- A versioned grid whose one task has ended, with a guard on address 0x18000, the last byte of its slate in its version,
its completion record at 0x13000; the workgroup changed. -/
def tasked (guard : Nat) (f : Workgroup → Workgroup) : State :=
  onWg (onLaunch paged fun l => { l with ver := true, cpla := 0x13000 }) fun w =>
    f { w with
      courses := Tab.mapVal (fun _ c => { c with exited := true }) w.courses
      guards := [(0x18000, guard)], version := [⟨none, 0x60, [(1023, 5)], 0, []⟩] }

theorem local_of (vs : List VSlate) (h : (vs.map VSlate.slate).Nodup)
    (e : (vs.all fun v => decide (v.peer = none) && Tab.sorted v.bytes && v.bytes.all fun b => decide (b.1 < 1024)) = true) :
    LocalVersion vs := by
  refine ⟨h, fun v hv => ?_⟩
  have := List.all_eq_true.mp e v hv
  simp only [Bool.and_eq_true, decide_eq_true_eq, List.all_eq_true] at this
  exact ⟨this.1.1, this.1.2, this.2⟩

/-- The translation for a completion record at `va`, and the three answers that it may have: 0 its walk waits, 1 it faults, 2 it is of this
module. -/
def recordAt (s : State) (root va : Nat) : Nat :=
  match s.ioXlat 1 root va 1 with
  | .wait _ => 0
  | .fault _ _ => 1
  | .ok _ x => if x.res = .here then 2 else 3

theorem record_wait (s : State) (root va : Nat) (h : recordAt s root va = 0) : ∃ r, s.ioXlat 1 root va 1 = .wait r := by
  unfold recordAt at h
  split at h
  · exact ⟨_, by assumption⟩
  · cases h
  · split at h <;> cases h

theorem record_fault (s : State) (root va : Nat) (h : recordAt s root va = 1) : ∃ r f, s.ioXlat 1 root va 1 = .fault r f := by
  unfold recordAt at h
  split at h
  · cases h
  · exact ⟨_, _, by assumption⟩
  · split at h <;> cases h

theorem record_ok (s : State) (root va : Nat) (h : recordAt s root va = 2) : ∃ r x, s.ioXlat 1 root va 1 = .ok r x ∧ x.res = .here := by
  unfold recordAt at h
  split at h
  · cases h
  · cases h
  · split at h
    · exact ⟨_, _, by assumption, by assumption⟩
    · cases h

/-- The tables' second leaf is held, or the first is not there. -/
def leafHeld (s : State) : State := { s with mem := putBytes s.mem 0x4000 (bytesOf 8 0x10F3) }

def leafGone (s : State) : State := { s with mem := putBytes s.mem 0x4000 (bytesOf 8 0) }

/-- A collective of links 0 and 15. -/
def collected (halted : Nat) : State :=
  { paged with grids := [], colls := [(1, ⟨0, 0x8001, halted, 0x13000, 0, true, 1, 0, 0, 0, 0, false⟩)] }

/-- The grid has been aborted with cause 3, and a write of its workgroup is pending or not. -/
def cancelled (p : Bool) : State :=
  let t := tasked 0 id
  { t.setGrid 1 { t.grid 1 with abort := some (3, 7) } with
    pend := if p then [⟨5, 0, 0, .stack 0x1FFFC, 4, 0, false, 0, none⟩] else [] }

/-- A task that commits, one that restarts, and one whose end waits; a full version, of a task and of one that waits for it. -/
theorem witness_TaskAndGridEventsFollowTheRules :
    (let s := tasked 0 id
     s.taskOf 1 (s.grid 1).commits = some 0 ∧ (s.grid 1).launch.ver = true ∧ (s.grid 1).abort = none ∧ (s.wg 0).status = .resident
      ∧ (s.wg 0).taskEnd = false ∧ s.over 0 = true ∧ s.commitsQuiet 1 = true ∧ s.reds = []
      ∧ (∀ g ∈ (s.wg 0).guards, (guardsRead s 0).rangePoisoned g.1 4 = false) ∧ (∀ g ∈ (s.wg 0).guards, s.read g.1 4 = g.2)
      ∧ (s.wg 0).redlog = [] ∧ (s.wg 0).detadd = [] ∧ LocalVersion (s.wg 0).version)
    ∧ (let s := tasked 1 id
       s.taskOf 1 (s.grid 1).commits = some 0 ∧ (∀ g ∈ (s.wg 0).guards, (guardsRead s 0).rangePoisoned g.1 4 = false)
        ∧ (∃ g ∈ (s.wg 0).guards, s.read g.1 4 ≠ g.2) ∧ (s.wg 0).unbuf = false ∧ s.over 0 = true ∧ s.commitsQuiet 1 = true
        ∧ (∀ p ∈ s.pend, p.uid ≠ 0))
    ∧ (let s := tasked 1 fun w => { w with unbuf := true }
       (s.wg 0).unbuf = true ∧ s.over 0 = true ∧ LocalVersion (s.wg 0).version)
    ∧ (let s := tasked 0 fun w => { w with courses := Tab.mapVal (fun _ c => { c with exited := false }) w.courses }
       s.over 0 = false)
    ∧ (let s := tasked 0 fun w => { w with fullV := true }
       s.taskOf 1 (s.grid 1).commits = some 0 ∧ (s.wg 0).unbuf = false ∧ (s.wg 0).holder = none ∧ (s.wg 0).fullV = true
        ∧ s.commitsQuiet 1 = true ∧ LocalVersion (s.wg 0).version)
    ∧ (let s := tasked 0 fun w => { w with courses := Tab.mapVal (fun _ c => { c with wait := some .version }) w.courses }
       ∃ k ∈ (s.wg 0).courses, k.2.wait = some .version) := by
  have v : LocalVersion [⟨none, 0x60, [(1023, 5)], 0, []⟩] := local_of _ (by decide) (by decide)
  refine ⟨⟨by decide +kernel, rfl, rfl, rfl, rfl, by decide +kernel, by decide +kernel, rfl, by decide +kernel, by decide +kernel, rfl, rfl, v⟩,
    by decide +kernel, ⟨rfl, by decide +kernel, v⟩, by decide +kernel,
    ⟨by decide +kernel, rfl, rfl, rfl, by decide +kernel, v⟩, by decide +kernel⟩

/-- A task that an atomic of it in flight keeps from its restart, and one that nothing does; a logged reduction that has met an error, of a
task that can restart and of one that cannot; a task whose handler is under way; a full task whose course waits for room. -/
theorem witness_TaskAndGridEventsFollowTheRules_restarts :
    (let flight := fun (c : Course) => { c with
       flights := [⟨0, .rmw 0 0 false, false, false, .co, [1], false, [⟨0, .scratch 0 0, 0, 4, 1, 0, 0⟩], [], [], 0, 0, 0⟩] }
     let s := tasked 1 fun w => { w with courses := Tab.mapVal (fun _ c => flight c) w.courses }
     (tasked 1 id).calm 0 = true ∧ s.calm 0 = false)
    ∧ (let s := tasked 0 fun w => { w with redlog := [⟨0, true, none, 0x1FFFC, 8, 0, false, 4, 1, 0⟩] }
       (∃ r ∈ (s.wg 0).redlog, r.bad = true) ∧ (s.wg 0).unbuf = false ∧ s.calm 0 = true ∧ s.over 0 = true ∧ s.commitsQuiet 1 = true)
    ∧ (let s := tasked 0 fun w => { w with unbuf := true, redlog := [⟨0, true, none, 0x1FFFC, 8, 0, false, 4, 1, 0⟩] }
       (∃ r ∈ (s.wg 0).redlog, r.bad = true) ∧ (s.wg 0).unbuf = true)
    ∧ ((tasked 0 id).wg 0).holder = none
    ∧ (let s := tasked 0 fun w => { w with courses := Tab.mapVal (fun _ c => { c with exited := false, wait := some .version }) w.courses }
       (∃ k ∈ (s.wg 0).courses, k.2.wait = some .version) ∧ s.commitsQuiet 1 = true ∧ (s.wg 0).unbuf = false
        ∧ s.taskOf 1 (s.grid 1).commits = some 0) := by
  decide +kernel

/-- A grid with and without an abort, whose record can be written, waits and faults, and one with a write still pending; a grid that is over;
collectives that are over, that wait for link 15, and that are aborted. -/
theorem witness_TaskAndGridEventsFollowTheRules_records :
    (∀ p, Tab.find (cancelled p).grids 1 = some ((cancelled p).grid 1) ∧ ((cancelled p).grid 1).abort = some (3, 7)
      ∧ ((cancelled p).grid 1).dropped = false)
    ∧ ((aborting (cancelled false) 1 ((cancelled false).grid 1)).gridQuiet 1 = true
      ∧ (aborting (cancelled true) 1 ((cancelled true).grid 1)).gridQuiet 1 = false
      ∧ (∃ r x, (aborting (cancelled false) 1 ((cancelled false).grid 1)).ioXlat 1 0 0x13000 1 = .ok r x ∧ x.res = .here)
      ∧ (∃ r, (aborting (leafHeld (cancelled false)) 1 ((cancelled false).grid 1)).ioXlat 1 0 0x13000 1 = .wait r)
      ∧ (∃ r f, (aborting (leafGone (cancelled false)) 1 ((cancelled false).grid 1)).ioXlat 1 0 0x13000 1 = .fault r f)
      ∧ ((cancelled false).grid 1).chain.asn = 1 ∧ ((cancelled false).grid 1).chain.root = 0 ∧ ((cancelled false).grid 1).launch.cpla = 0x13000)
    ∧ (let s := tasked 0 id
       Tab.find s.grids 1 = some (s.grid 1) ∧ (s.grid 1).abort = none ∧ (s.grid 1).endedN ≠ (s.grid 1).total)
    ∧ (let t := (tasked 0 id).setGrid 1 { (tasked 0 id).grid 1 with endedN := 1 }
       (t.grid 1).endedN = (t.grid 1).total ∧ (t.grid 1).total ≠ 0 ∧ t.reds = []
        ∧ (∃ r x, t.ioXlat 1 0 0x13000 1 = .ok r x ∧ x.res = .here) ∧ (∃ r, (leafHeld t).ioXlat 1 0 0x13000 1 = .wait r)
        ∧ ∃ r f, (leafGone t).ioXlat 1 0 0x13000 1 = .fault r f)
    ∧ (∃ c, Tab.find (collected 1).grids 1 = none ∧ Tab.find (collected 1).colls 1 = some c ∧ c.over = false ∧ c.aborted = false)
    ∧ (∃ c, Tab.find (collected 0x8001).colls 1 = some c ∧ c.over = true ∧ c.asn = 1 ∧ c.root = 0 ∧ c.cpla = 0x13000
      ∧ (∃ r x, (collected 0x8001).ioXlat 1 0 0x13000 1 = .ok r x ∧ x.res = .here)
      ∧ (∃ r, (leafHeld (collected 0x8001)).ioXlat 1 0 0x13000 1 = .wait r)
      ∧ ∃ r f, (leafGone (collected 0x8001)).ioXlat 1 0 0x13000 1 = .fault r f) := by
  refine ⟨fun p => ⟨rfl, rfl, rfl⟩, ⟨by decide +kernel, by decide +kernel, record_ok _ _ _ (by decide +kernel), record_wait _ _ _ (by decide +kernel),
      record_fault _ _ _ (by decide +kernel), rfl, rfl, rfl⟩, by decide +kernel,
    ⟨by decide +kernel, by decide +kernel, rfl, record_ok _ _ _ (by decide +kernel), record_wait _ _ _ (by decide +kernel),
      record_fault _ _ _ (by decide +kernel)⟩, ⟨_, rfl, rfl, by decide, rfl⟩,
    ⟨_, rfl, by decide, rfl, rfl, rfl, record_ok _ _ _ (by decide +kernel), record_wait _ _ _ (by decide +kernel), record_fault _ _ _ (by decide +kernel)⟩⟩

/-- Contexts 3 of links 0 and 15 run a collective of both, or as given, with a device time in microseconds. -/
def running (f : Ctx → Ctx) (now : Nat) : State :=
  { collected 0 with
    colls := [(1, ⟨3, 0x8001, 0, 0x13000, 0, true, 1, 0, 0, 0, 0, false⟩)]
    dtime := now * 1000 * 2 ^ 16
    seqs := [(0, { Seqr.reset with wdog := 10, ctxs := [(3, f { Ctx.reset with st := .waiting, coll := 1, since := some 0 })] }),
      (15, { Seqr.reset with ctxs := [(3, { Ctx.reset with st := .running, coll := 1 })] })] }

/-- The state in which the contexts of its collective have stopped. -/
def dropped (s : State) : State :=
  let d := (linkBits 0x8001).foldl (fun t j => if ((t.seqr j).ctx 3).coll = 1 then t.dropContext j 3 else t) s
  { d with colls := Tab.set d.colls 1 ⟨3, 0x8001, 0, 0x13000, 0, true, 1, 0, 0, 0, 0, true⟩ }

/-- A context that has faulted, one that waits, with and without room kept, and one that transmits; a collective that can be aborted, whose
record can be written, waits and faults, and one that has been; a buffer with room for exactly the chunk and one without; a turn round to the
same context; a wait as long as WDOG and one less. -/
theorem witness_SequencerControlFollowsTheRules :
    ((running (fun x => { x with st := .faulted }) 0).seqr 0).ctx 3 = { Ctx.reset with st := .faulted, coll := 1, since := some 0 }
    ∧ (((running id 0).seqr 0).ctx 3).st ≠ .faulted ∧ (((running id 0).seqr 0).ctx 3).st ≠ .stopped
    ∧ (((running (fun x => { x with sending := some 15 }) 0).seqr 0).ctx 3).sending.isSome = true
    ∧ ((((running (fun x => { x with kept := some (15, 3, 256) }) 0).seqr 0).ctx 3).sending = none
      ∧ (((running (fun x => { x with kept := some (15, 3, 256) }) 0).seqr 0).ctx 3).kept = some (15, 3, 256))
    ∧ (((running id 0).seqr 1).ctx 3).st = .idle
    ∧ (let s := running id 0
       let c : Coll := ⟨3, 0x8001, 0, 0x13000, 0, true, 1, 0, 0, 0, 0, false⟩
       ((s.seqr 0).ctx 3).st ≠ .idle ∧ s.reds = [] ∧ Tab.find s.colls ((s.seqr 0).ctx 3).coll = some c ∧ 15 ∈ linkBits c.lmask
        ∧ ((s.seqr 15).ctx c.ctx).coll = 1 ∧ c.aborted = false
        ∧ (∃ r x, (dropped s).ioXlat c.asn c.root c.cpla 1 = .ok r x ∧ x.res = .here)
        ∧ (∃ r, (dropped (leafHeld s)).ioXlat c.asn c.root c.cpla 1 = .wait r)
        ∧ (∃ r f, (dropped (leafGone s)).ioXlat c.asn c.root c.cpla 1 = .fault r f)
        ∧ Tab.find (dropped s).colls 1 = some { c with aborted := true })
    ∧ (let s := running (fun x => { x with held := true, hch := 2, lastCh := some 1 }) 0
       ((s.seqr 0).ctx 3).held = true ∧ ((s.seqr 0).ctx 3).lastCh = some 1)
    ∧ (let s := fun n => linked (State.reset.setLink 15 { Link.reset with rx := [(3, List.replicate n ⟨9, 0, 7, []⟩)] }) false 0
       ((s 1).link 15).state = 2 ∧ (List.replicate 256 (1 : Byte)).length = 256 * 2 ^ 0
        ∧ (Tab.get [] ((s 1).link 15).rx 3).foldl (fun n h => n + 256 * 2 ^ h.size) 0 + 256 * 2 ^ 7 ≤ 65536
        ∧ 65536 < (Tab.get [] ((s 2).link 15).rx 3).foldl (fun n h => n + 256 * 2 ^ h.size) 0 + 256 * 2 ^ 0)
    ∧ (let q := (running id 0).seqr 15
       4 ∈ [1, 2, 3, 4] ∧ (∀ e, 1 ≤ e → e < 3 → (q.ctx ((q.turn + e) % 4)).st = .idle) ∧ (q.ctx ((q.turn + 3) % 4)).st = .running)
    ∧ (∀ k, k < 4 → (((running id 0).seqr 1).ctx k).st = .idle)
    ∧ (let s := running id 10
       ((s.seqr 0).ctx 3).since = some 0 ∧ (s.seqr 0).wdog ≠ 0 ∧ ((s.seqr 0).ctx 3).st = .waiting ∧ ((s.seqr 0).ctx 3).barked = false
        ∧ (s.seqr 0).wdog.toNat ≤ (s.dtime - 0) / 2 ^ 16 / 1000 ∧ ((running id 9).dtime - 0) / 2 ^ 16 / 1000 < (s.seqr 0).wdog.toNat) := by
  refine ⟨by decide, by decide, by decide, by decide, by decide, by decide, ⟨by decide, rfl, rfl, by decide, rfl, rfl,
      record_ok _ _ _ (by decide +kernel), record_wait _ _ _ (by decide +kernel), record_fault _ _ _ (by decide +kernel), rfl⟩, by decide,
    by decide +kernel, ⟨by decide, ?_, by decide⟩, by decide, by decide +kernel⟩
  intro e h1 h3
  have : e = 1 ∨ e = 2 := by omega
  rcases this with rfl | rfl <;> rfl

/-- Core 575 held for entry 0 of the job at 0x12000, whose one workgroup is there; a rule and an egress entry with a ring of
two slots of 64 bytes at the end of a scratchpad of one granule; the granule states of the workgroup as given. -/
def latency (fe : Tab Bool) (frozen : Bool) : State :=
  let s := onWg (onLaunch small fun l => { l with lc := true, partw := 0x010A }) fun w => { w with core := 575, fe := fe }
  let ring : W64 := BitVec.ofNat 64 (0x3F80 * 2 ^ 16 + 6 * 2 ^ 42 + 1 * 2 ^ 46)
  { s with
    grids := [(1, { s.grid 1 with chain := { (s.grid 1).chain with budgets := [⟨0x12000, 1, 1, 1, 1⟩] } })]
    resv := [(0, ⟨0x12001, 1, 0, [575], []⟩)]
    cores := [(575, { s.core 575 with frozen := frozen })]
    rules := [(63, { Rule.reset with words := [(1, 0x280), (6, ring)] })]
    egress := [(63, { Egress.reset with ctl := 0x80, ring := ring })] }

/-- The least frame. -/
def frame : List Byte := List.replicate 60 1

/-- Entry 7 with a job of the latency class that asks for `n` cores. -/
def classed (n lat valid : Nat) : State :=
  let j := words [(0, 1 + lat * 2 ^ 11), (0x18, 1), (0x20, 576), (0x24, 73728), (0x28, 36864), (0x2C, 18432)]
  { small with
    mem := putBytes small.mem 0x12000 (bytesOf 48 j)
    resv := [(7, ⟨BitVec.ofNat 64 (0x12000 + valid), BitVec.ofNat 64 n, 0, [], []⟩)] }

/-- All cores are asked for, and one more; a job that is not of the class, and none; an entry that lives and one that does
not; a frame for an empty slot, a full one and a frozen core; a slot that has turned full. -/
theorem witness_NetworkEventsFollowTheRules :
    (let e := fun n v => { (classed n 1 v).resvAt 7 with w0 := ((classed n 1 v).resvAt 7).w0 ||| 1 }
     bit ((classed 576 1 0).resvAt 7).w0.toNat 0 = false ∧ (e 576 0).bad = false ∧ (e 577 0).bad = true
      ∧ ((classed 576 1 0).reservable 7 (e 576 0)).length = 576 ∧ bits (e 576 0).w0.toNat 47 8 * 2 ^ 8 = 0x12000
      ∧ (((classed 576 1 0).chainAt 0x12000).map fun c => c.lat) = some true
      ∧ (((classed 576 0 0).chainAt 0x12000).map fun c => c.lat) = some false ∧ small.chainAt 0x12000 = none
      ∧ bit ((classed 576 1 1).resvAt 7).w0.toNat 0 = true)
    ∧ (let s := classed 576 1 0
       0 ∈ { s with resv := [(7, { s.resvAt 7 with cores := List.range 576 })] }.strangers 7 (List.range 576) ∧ s.unitOf 0 = [0]
        ∧ ∀ x ∈ s.unitOf 0, (s.wg x).leave = .stay ∧ s.debugged x = false)
    ∧ (small.frames = [] ∧ { small with frames := [(1, frame, 0)] }.frames = [] ++ [(1, frame, 0)] ∧ small.landWaiting = small
      ∧ (latency [] true).landWaiting = latency [] true ∧ (latency [] false).landWaiting = latency [] false)
    ∧ ((latency [] false).entryLive 0 = true ∧ (classed 576 1 1).entryLive 7 = false)
    ∧ (frame.length ≤ 9216 ∧ (9216 < (List.range 9217).length) ∧ (∀ x ∈ (latency [] false).rules, x.2.hits 0 frame = false)
      ∧ (∃ r, (latency [] false).rules.find? (fun x => x.2.hits 1 frame) = some (63, r)
        ∧ (latency [] false).ringHolder (r.word 6) = some 0 ∧ { latency [] false with wgs := [] }.ringHolder (r.word 6) = none
        ∧ (latency [] false).ringFits 0 (r.word 6) = true ∧ (latency [] false).ringFits 0 (r.word 6 + 2 ^ 46) = false
        ∧ ((latency [] false).wg 0).full 0x3F8 = true ∧ ((latency [(0x3F8, false)] false).wg 0).full 0x3F8 = false
        ∧ ((latency [] true).core ((latency [] true).wg 0).core).frozen = true))
    ∧ ((Tab.get Rule.reset (latency [] false).rules 63).bad 0x280 = false ∧ (Tab.get Rule.reset (latency [] false).rules 63).bad 0x680 = true)
    ∧ (let s := latency [(0x3F8, false)] false
       let e := s.lookEgress (Tab.get .reset s.egress 63)
       let t := { latency [] false with egress := [(63, e)] }
       e.holder = some 0 ∧ e.ringK = 0 ∧ e.primed = [0] ∧ t.lookEgress e = e ∧ (t.wg 0).full 0x3F8 = true ∧ (s.wg 0).full 0x3F8 = false
        ∧ t.ringFits 0 e.ring.toNat = true ∧ ¬(60 ≤ (t.wg 0).read 0x3F80 2)
        ∧ 60 ≤ (((t.wg 0).write 0x3F80 (bytesOf 2 60)).read 0x3F80 2)) := by
  refine ⟨?_, ?_, ⟨rfl, rfl, rfl, rfl, rfl⟩, ?_, ⟨by decide, by rw [List.length_range]; decide, by decide, _, rfl, by decide, by decide, by decide, by decide,
    by decide, by decide, by decide⟩, by decide, ?_⟩
  all_goals decide +kernel

/-- An egress slot whose frame is as long as it may be in a slot of 64 bytes and no longer, one that is too long, one with a poisoned byte, and
one on a frozen core. -/
theorem witness_EgressSlots :
    let s := fun (len : Nat) (bad : Tab Bool) (frozen : Bool) =>
      let t := latency [] frozen
      onWg { t with
        egress := [(63, { Egress.reset with ctl := 0x80, ring := BitVec.ofNat 64 (0x3F80 * 2 ^ 16 + 7 * 2 ^ 42), holder := some 0, primed := [0] })] } fun w =>
        { w.write 0x3F80 (bytesOf 2 len) with spoison := bad }
    let e := Tab.get .reset (s 60 [] false).egress 63
    (s 60 [] false).lookEgress e = e ∧ e.holder = some 0 ∧ (s 60 [] false).ringFits 0 e.ring.toNat = true ∧ e.primed.contains e.ringK = true
    ∧ ((s 60 [] false).wg 0).full 0x3F8 = true ∧ ((s 60 [] false).core ((s 60 [] false).wg 0).core).frozen = false
    ∧ ((s 60 [] true).core ((s 60 [] true).wg 0).core).frozen = true ∧ ((s 112 [] false).wg 0).read 0x3F80 2 = 112 ∧ 16 + 112 ≤ 2 ^ 7
    ∧ ((s 112 [] false).wg 0).rangePoisoned 0x3F80 128 = false ∧ ((s 113 [] false).wg 0).read 0x3F80 2 = 113 ∧ 2 ^ 7 < 16 + 113
    ∧ ((s 60 [(0x3F8, true)] false).wg 0).rangePoisoned 0x3F80 76 = true := by
  decide +kernel

/-- Core 15 in an episode numbered 7 in address space 1, with mailbox 255, and protection that admits its whole SRAM for
loads; the core and the mailbox changed. -/
def eaves (f : Eave → Eave) (g : Mbox → Mbox) : State :=
  { paged with
    eaves := [(15, f { Eave.reset with
      epi := 0x100000007, ewdog := 2, csr := [(0x3A0, 0x19), (0x3B0, 0x1FFFF)], wctl := [(3, 0x10003)], vbase := [(3, 0x10000)] })]
    mboxes := [(255, g { Mbox.reset with binding := 0x1F00000007 })] }

/-- The clauses at core 15, mailbox 255 and window 3: the last byte of the SRAM, of a port and of a window. -/
theorem witness_EaveEventsFollowTheRules :
    ((eaves id id).boundTo 15 255 = true ∧ (eaves id id).boundTo 14 255 = false ∧ ((eaves id id).mbox 255).actions = []
      ∧ ((eaves id fun m => { m with actions := [5] }).mbox 255).actions = [5]
      ∧ 15 ≤ ((eaves id fun m => { m with obs := List.replicate 15 0 }).mbox 255).obs.length
      ∧ ((eaves id fun m => { m with obs := List.replicate 14 0 }).mbox 255).obs.length < 15 ∧ NoReceiver (eaves id id) 255)
    ∧ (bits (2 ^ 37) 63 37 ≠ 0 ∧ bits (2 ^ 37 - 1) 63 37 = 0 ∧ small.senders 255 = []
      ∧ (onCur small fun c => { c with wait := some (.mailbox 255), sched := .waiting }).senders 255 = [(0, 0)]
      ∧ ((awaits false [flight (.message 255) []] []).crs 0 0).flights = [flight (.message 255) []] ∧ (flight (.message 255) []).got = [])
    ∧ (255 ∈ (eaves id id).mailboxesOf 15
      ∧ (eaves (fun e => { e with count := 65536 }) fun m => { m with open1 := true }).expired 15 = true
      ∧ (eaves (fun e => { e with count := 65535 }) fun m => { m with open1 := true }).expired 15 = false
      ∧ ((eaves (fun e => { e with scrub := true }) id).eave 15).scrub = true)
    ∧ (let e := (eaves id id).eave 15
       e.scrub = false ∧ 8 ∈ [1, 2, 4, 8] ∧ 3 ∉ [1, 2, 4, 8] ∧ 0xFFFF9 % 8 ≠ 0 ∧ 0xFFFF8 % 8 = 0 ∧ 0xFFFF8 + 8 ≤ 2 ^ 20
        ∧ e.pmpAllows 0xFFFF8 8 .load = true ∧ e.pmpAllows 0xFFFF8 8 .store = false
        ∧ 0x4000FF90 = 0x40000000 + 0x100 * 255 + 0x90 ∧ 0x4000FF90 % 8 = 0
        ∧ (let addr := 4 * 2 ^ 40 + 0xFFF8
           addr % 8 = 0 ∧ 2 ^ 20 < addr + 8 ∧ 0x40010000 ≤ addr ∧ e.windowOf addr = some 3 ∧ e.windowOf (addr + 8) = none
            ∧ bit (e.window 3) 1 = true ∧ bit (e.window 3) 2 = false
            ∧ bits (Tab.get 0 e.vbase 3).toNat 53 16 * 2 ^ 16 + addr % 2 ^ 40 = 0x1FFF8))
    ∧ (let u := (eaves id id).setEave 15 { (eaves id id).eave 15 with umode := true }
       (∃ r x, u.ioXlat 1 (u.rootOf 1) 0x1FFF8 0 = .ok r x ∧ x.res = .here ∧ r.rangePoisoned x.pa 8 = false)
        ∧ (∃ r x, u.ioXlat 1 (u.rootOf 1) 0x1FFF8 1 = .ok r x ∧ x.res = .here)
        ∧ (∃ r f, u.ioXlat 1 (u.rootOf 1) 0x4000000 0 = .fault r f)
        ∧ ∃ r, (leafHeld u).ioXlat 1 ((leafHeld u).rootOf 1) 0x1FFF8 0 = .wait r)
    ∧ (((eaves id id).eave 15).umode = false ∧ 3 < 4 ∧ bits 0x3FFFFFFFFF0000 15 0 = 0 ∧ bits 0x3FFFFFFFFF0000 63 54 = 0
      ∧ bits 0x40000000000000 63 54 ≠ 0 ∧ bits 0xFFFF0007 15 3 = 0 ∧ bits 0xFFFF0007 63 32 = 0 ∧ bits 0xFFFFFFFFFF 63 40 = 0
      ∧ standardCsr 0x3BF = true) := by
  refine ⟨⟨by decide, by decide, rfl, rfl, by decide, by decide, ?_⟩, by decide, by decide +kernel, by decide +kernel,
    ⟨⟨_, _, trans_ok paged ⟨0, 0, .here, false⟩ _ (by decide +kernel), by decide +kernel, by decide +kernel⟩,
      ⟨_, _, trans_ok paged ⟨0, 0, .here, false⟩ _ (by decide +kernel), by decide +kernel⟩, trans_fault _ (by decide +kernel),
      _, trans_wait paged _ (by decide +kernel)⟩, by decide⟩
  unfold NoReceiver
  decide

/-- An access of a hart. -/
def access (kind : EpiKind) (addr size : Nat) : HartAcc := ⟨⟨6, false, false, false, false, 4⟩, kind, addr, size, 5⟩

/-- The last 8 bytes of the SRAM for each mode, with a reservation and without; an access in U mode by MPRV; a scrub; TAKE, POST, a full
queue and the offsets beside them at the last port; a window that admits stores; an operation that waits, and those behind it. -/
theorem witness_HartAccesses :
    (15 < 16 ∧ InTurn (eaves id id) 16 ∧ agentOf (.take 15 255 6) = some 16 ∧ agentOf (.post 15 255) = some 16
      ∧ ({ eaves id id with held := [.post 15 255] } : State).holdsBack 16 = true ∧ (eaves id id).retry = false)
    ∧ (let e := (eaves (fun e => { e with csr := [(0x300, 2 ^ 17), (0x3A0, 0x1B), (0x3B0, 0x1FFFF)] }) id).eave 15
       e.umode = false ∧ bit (e.csrAt csrMstatus) 17 = true ∧ bits (e.csrAt csrMstatus) 12 11 = 0
        ∧ e.allows true 0xFFFF8 8 (.amo 1) = true ∧ e.allows true 0xFFFF8 8 .fetch = false ∧ e.allows false 0xFFFF8 8 .fetch = true)
    ∧ (Tab.find (eaves id id).lrs 15 ≠ some (sramPlace 0xFFFF8, 8)
      ∧ Tab.find ({ eaves id id with lrs := [(15, (sramPlace 0xFFFF8, 8))] } : State).lrs 15 = some (sramPlace 0xFFFF8, 8)
      ∧ Tab.find ({ eaves id id with lrs := [(15, (0x1FFF8, 8))] } : State).lrs 15 = some (0x1FFF8, 8))
    ∧ (let e := (eaves (fun e => { e with umode := true, scrub := true }) id).eave 15
       e.umode = true ∧ e.scrub = true)
    ∧ (0x4000FF80 = 0x40000000 + 0x100 * 255 + 0x80 ∧ 0x40010000 = 0x40000000 + 0x100 * 255 + 0x100 ∧ 0x4000FFF8 % 8 = 0
      ∧ (eaves id id).boundTo 15 255 = true ∧ (eaves id id).boundTo 15 254 = false
      ∧ 15 ≤ ((eaves id fun m => { m with obs := List.replicate 15 0 }).mbox 255).obs.length)
    ∧ (let e := (eaves (fun e => { e with umode := true, wctl := [(3, 0x10007)] }) id).eave 15
       let a := access (.amo 0) (4 * 2 ^ 40 + 0xFFF8) 8
       e.windowOf a.addr = some 3 ∧ bit (e.window 3) 1 = true ∧ bit (e.window 3) 2 = true ∧ AccReads a ∧ AccWrites a ∧ a.fp = false
        ∧ a.addr % a.size = 0 ∧ 2 ^ 20 < a.addr + a.size)
    ∧ (({ State.reset with poison := [(0xFFE, true)] } : State).rangePoisoned 0x1FFC0 8 = true ∧ ({ State.reset with poison := [(0xFFE, true)] } : State).rangePoisoned 0x1FFB8 8 = false) := by
  refine ⟨⟨by decide, .inr rfl, rfl, rfl, by decide, rfl⟩, by decide, by decide, by decide, by decide, ⟨by decide, by decide, by decide, .inr (.inr ⟨_, rfl⟩),
    .inr (.inr ⟨_, rfl⟩), rfl, by decide, by decide⟩, by decide⟩

/-- The edges of the monitor's CSRs: reserved bits, U mode, a floating-point CSR without FS, a CSR that cannot be written, the values that
EEND and the status take, and a standard CSR. -/
theorem witness_HartCsrs :
    (monitorCsr 0x123 = false ∧ standardCsr 0x123 = false ∧ bits 0x7C0 9 8 ≠ 0 ∧ floatCsr 3 = true ∧ bits 0xF14 11 10 = 3 ∧ standardCsr 0xF14 = true
      ∧ bits (((eaves id id).eave 15).csrAt csrMstatus) 14 13 = 0)
    ∧ (monitorCsr 0x7C6 = true ∧ 0x7C6 = 0x7C0 + 2 * 3 ∧ bits 0x3FFFFFFFFF0000 15 0 = 0 ∧ bits 0x3FFFFFFFFF0000 63 54 = 0 ∧ bits 0x8000 15 0 ≠ 0
      ∧ bits 0x40000000000000 63 54 ≠ 0 ∧ bits 0xFFFF0007 15 3 = 0 ∧ bits 0xFFFF0007 63 32 = 0 ∧ bits 8 15 3 ≠ 0)
    ∧ (bits 0xFFFFFFFFFF 63 40 = 0 ∧ bits 0x10000000000 63 40 ≠ 0 ∧ 3 < 4 ∧ 2 ≤ 2 ∧ 4 ≤ 4)
    ∧ (standardCsr csrMtvec = true ∧ floatCsr csrMtvec = false ∧ bits csrMtvec 11 10 ≠ 3 ∧ monitorCsr 0x7CB = true ∧ bits 0x7CB 11 10 ≠ 3) := by
  decide

/-- The workgroup on core 575, whose debug registers on die 3 select core index `n`, slot `slot` and a unit; its course and
the core changed. -/
def debugging (n slot unit addr : Nat) (f : Course → Course) (g : Core → Core) : State :=
  let s := onWg (onCur small f) fun w => { w with core := 575 }
  { s with
    cores := [(575, g (s.core 575))]
    dies := [(3, { s.die 3 with dbg := { Dbg.reset with
      sel := BitVec.ofNat 64 (n + slot * 256), unit := BitVec.ofNat 64 unit, addr := BitVec.ofNat 64 addr } })] }

/-- The last unit of every other class, on a core that is quiet; a unit named through index register 15, with and without an empty register in
its window. -/
theorem witness_DebugCommandsFollowTheRules_units :
    (let halt := fun (c : Course) => { c with halted := true, stack := [split false], depth := 1 }
     let s := fun cls num addr => debugging 143 0 (cls + num * 16) addr halt fun k => { k with quiet := true }
     let ok := fun cls num addr => (s cls num addr).unitExists 0 0 ((s cls num addr).die 3).dbg.unit1
     ok 2 7 0 = true ∧ ok 2 8 0 = false ∧ ok 3 15 31 = true ∧ ok 4 7 31 = true ∧ ok 5 127 4095 = true ∧ ok 6 31 8191 = true ∧ ok 8 0 0 = true ∧ ok 8 1 0 = false
      ∧ ok 7 3 0 = true ∧ ok 7 4 0 = true ∧ ok 7 5 0 = true ∧ ok 7 6 0 = true ∧ ok 7 7 0 = true ∧ ok 7 0 0 = true
      ∧ ((s 5 127 0).core ((s 5 127 0).wg 0).core).quiet = true ∧ ((s 5 0 0).crs 0 0).arb = none)
    ∧ (let s := fun (full : Bool) => debugging 143 0 (15 * 16 + 31 * 65536 + 2 ^ 21) 0
        (fun c => { c with halted := true, vfull := [(17, full)], x := [(15, ⟨272, Vector.replicate 32 1⟩)] }) id
       (∀ b, ((s b).die 3).dbg.unit1.ind = true ∧ ((s b).crs 0 0).dbgReg ((s b).die 3).dbg.unit1 = 17
        ∧ (s b).unitExists 0 0 ((s b).die 3).dbg.unit1 = true)
        ∧ ((s false).crs 0 0).emptied ((s false).die 3).dbg.unit1 = true ∧ ((s true).crs 0 0).emptied ((s true).die 3).dbg.unit1 = false) := by
  decide +kernel

/-- The last core and the one after it; units of each class at the end of its range and beyond; halted or not, full or not. -/
theorem witness_DebugCommandsFollowTheRules :
    (let s := debugging 143 0 0 0 id id
     s.dbgCourse 3 = some (0, 0) ∧ (debugging 143 1 0 0 id id).dbgCourse 3 = none ∧ (debugging 144 0 0 0 id id).dbgCourse 3 = none
      ∧ (s.crs 0 0).halted = false ∧ bits ((debugging 144 0 0 0 id id).die 3).dbg.sel.toNat 7 0 = 144 ∧ 143 < 144
      ∧ (s.core 575).frozen = false ∧ s.enginesIdle 575 = true ∧ s.stands 0 0 = false)
    ∧ (let s := debugging 143 0 0 0 id fun k => { k with frozen := true }
       (s.core 575).frozen = true ∧ s.enginesIdle 575 = true ∧ s.stands 0 0 = true)
    ∧ (let halt := fun (c : Course) => { c with halted := true, vfull := [(191, false)], sfull := [(47, false)] }
       let s := fun cls num => debugging 143 0 (cls + num * 16 + 31 * 65536) 0x7FFF0 halt id
       let ok := fun cls num => (s cls num).unitExists 0 0 ((s cls num).die 3).dbg.unit1
       (∀ cls num, ((s cls num).crs 0 0).halted = true) ∧ ((s 0 191).die 3).dbg.unit1 = ⟨0, 191, 31, false, 0x7FFF0⟩
        ∧ ok 0 191 = true ∧ ok 0 192 = false ∧ ok 1 47 = true ∧ ok 1 48 = false ∧ ok 2 7 = true ∧ ok 7 0x18 = true ∧ ok 7 0x19 = true
        ∧ ok 9 0 = true ∧ ok 10 0 = false ∧ (s 0 191).stands 0 0 = true
        ∧ (s 9 0).unitPoisoned 0 0 ((s 9 0).die 3).dbg.unit1 = false
        ∧ ((s 0 191).crs 0 0).vIsFull 191 = false ∧ ((s 0 191).crs 0 0).vIsFull 190 = true ∧ ((s 0 191).crs 0 0).sIsFull 47 = false
        ∧ ((s 9 0).core ((s 9 0).wg 0).core).quiet = false
        ∧ (let q := debugging 143 0 9 0 halt fun k => { k with quiet := true }
           (q.core (q.wg 0).core).quiet = true ∧ q.unitExists 0 0 (q.die 3).dbg.unit1 = true)) := by
  refine ⟨by decide +kernel, by decide +kernel, fun _ _ => rfl, ?_⟩
  decide +kernel

/-- A cohort of two on cores 575 and 574, the second one's core quiet or not, with a unit of a scratchpad selected: its own and its other
member's. -/
def cohort (addr : Nat) (quiet : Bool) : State :=
  let s := onLaunch (debugging 143 0 9 addr (fun c => { c with halted := true }) fun k => { k with quiet := true }) fun l => { l with partw := 0x220200A }
  { s with
    wgs := s.wgs ++ [(1, { s.wg 0 with w := 1, core := 574 })]
    cores := [(574, { s.core 574 with quiet := quiet }), (575, s.core 575)] }

theorem witness_DebugCommandsFollowTheRules_members :
    (cohort 0x7FFF0 true).dbgPad 0 0 0x7FFF0 = some (0, 0x7FFF0) ∧ (cohort 0x127FFF0 true).dbgPad 0 0 0x127FFF0 = some (1, 0x7FFF0)
    ∧ ((cohort 0x127FFF0 true).die 3).dbg.unit1 = ⟨9, 0, 0, false, 0x127FFF0⟩
    ∧ (cohort 0x127FFF0 true).unitExists 0 0 ((cohort 0x127FFF0 true).die 3).dbg.unit1 = true
    ∧ ¬NeedsQuiet (cohort 0x127FFF0 true) 0 0 ⟨9, 0, 0, false, 0x127FFF0⟩ ∧ NeedsQuiet (cohort 0x127FFF0 false) 0 0 ⟨9, 0, 0, false, 0x127FFF0⟩
    ∧ (cohort 0x127FFF0 true).stands 0 0 = true := by
  have d : ∀ b, (cohort 0x127FFF0 b).dbgPad 0 0 0x127FFF0 = some (1, 0x7FFF0) := by decide
  refine ⟨by decide, d true, by decide, by decide, ?_, .inr ⟨_, rfl, d false, by decide⟩, by decide⟩
  rintro (⟨_, h⟩ | ⟨p, _, h, q⟩)
  · exact absurd h (by decide)
  · rw [d true] at h
    cases h
    exact absurd q (by decide)

/-- A machine after a fatal error, and one whose boot has failed. -/
theorem witness_ResetAndWhatWaitsForIt :
    ({ State.reset with fatal := true } : State).fatal = true
    ∧ (∀ im key, ({ State.reset with fatal := true } : State).agenda.head? ≠ some (.boot im key))
    ∧ ({ State.reset with bootStop := true } : State).bootStop = true ∧ ({ State.reset with bootStop := true } : State).fatal = false
    ∧ ({ State.reset with bootStop := true } : State).agenda = [] := by
  refine ⟨rfl, fun _ _ h => ?_, rfl, rfl, rfl⟩
  simp [State.reset] at h

end Sys2Proof.Tests
end

section
/-! PROOF. The statements of the compute instructions (R275, R276, R286 to R288): what an instruction that works on the
course's own registers leaves, the fetch of a word without side effects on memory, and the two statements. -/

namespace Sys2Proof.Machine

-- ## An instruction that works on the course's own registers

/-- The checks passed, a meaning answers the state it computes. -/
theorem finish_of_ok {m : R Unit} {s t : State} (h : m = .ok ()) : finish s (do m; .ok t) = .next t := by
  subst h; rfl

/-- Moving past an instruction keeps what the instruction wrote. -/
theorem State.retire_keeps (s : State) (k : Course) (n : Nat) :
    CourseKeeps k ((s.setCur k).retire n).cur [.pc, .repst, .waiting] := by
  simpa [State.retire] using (Course.advance_keeps k s.inRep n).1

/-- What an instruction leaves that changes the parts `ps` of its course, the program counter not among them. -/
theorem State.retire_leaves (s : State) (k : Course) (n : Nat) (ps : List Part) (h : CourseKeeps s.cur k ps)
    (hpc : .pc ∉ ps) (hrep : .repst ∉ ps) (hwait : .waiting ∉ ps) : Leaves s ((s.setCur k).retire n) n ps := by
  obtain ⟨hset, hkeep⟩ := State.retire_changes s k n ps h
  refine ⟨⟨hset, hkeep.mono fun p hp => ?_⟩, State.retire_past s k n (h .pc hpc) (h .repst hrep), ?_⟩
  · rw [List.mem_append] at hp ⊢
    exact hp.symm
  · simpa [State.retire, (Course.advance_keeps k s.inRep n).2] using (h .waiting hwait).2

/-- An instruction that only retires writes its course as it is. -/
theorem State.retire_eq_setCur (s : State) (n : Nat) : s.retire n = (s.setCur s.cur).retire n := by
  simp [State.retire]

@[simp] theorem State.retire_cur_mode (s : State) (k : Course) (n : Nat) : ((s.setCur k).retire n).cur.mode = k.mode :=
  State.retire_keeps s k n .mode (by decide)
@[simp] theorem State.retire_cur_pred (s : State) (k : Course) (n q : Nat) :
    ((s.setCur k).retire n).cur.pred q = k.pred q := State.retire_keeps s k n .preds (by decide) q
@[simp] theorem State.retire_cur_vreg (s : State) (k : Course) (n r : Nat) :
    ((s.setCur k).retire n).cur.vreg r = k.vreg r := State.retire_keeps s k n .vregs (by decide) r
@[simp] theorem State.retire_cur_sreg (s : State) (k : Course) (n r : Nat) :
    ((s.setCur k).retire n).cur.sreg r = k.sreg r := State.retire_keeps s k n .sregs (by decide) r
@[simp] theorem State.retire_cur_xreg (s : State) (k : Course) (n x : Nat) :
    ((s.setCur k).retire n).cur.xreg x = k.xreg x := State.retire_keeps s k n .index (by decide) x

@[simp] theorem predHolds_retire (c : Course) (s : State) (k : Course) (n p : Nat) (m : W32) (f : Nat → Bool) :
    PredHolds c ((s.setCur k).retire n).cur p m f ↔ PredHolds c k p m f := by
  simp only [PredHolds, State.retire_cur_pred]
@[simp] theorem scalarHolds_retire (c : Course) (s : State) (k : Course) (n : Nat) (d : Opnd) (v : W64) :
    ScalarHolds c ((s.setCur k).retire n).cur d v ↔ ScalarHolds c k d v := by
  simp only [ScalarHolds, State.retire_cur_sreg]
@[simp] theorem lanesHold_retire (c : Course) (s : State) (k : Course) (n : Nat) (d : Opnd) (m : W32) (f : Nat → W32) :
    LanesHold c ((s.setCur k).retire n).cur d m f ↔ LanesHold c k d m f := by
  simp only [LanesHold, Course.lane, State.retire_cur_vreg]
@[simp] theorem indexesStep_retire (c : Course) (s : State) (k : Course) (n : Nat) (os : List Opnd) :
    IndexesStep c ((s.setCur k).retire n).cur os ↔ IndexesStep c k os := by
  simp only [IndexesStep, State.retire_cur_xreg]

/-- Every part of a course is the same as itself. -/
theorem Part.same_refl (p : Part) (c : Course) : p.same c c := by
  cases p <;> simp [Part.same]

/-- An instruction that replaces MODE leaves everything but MODE alone. -/
theorem Course.withMode_keeps (c : Course) (m : W32) : CourseKeeps c { c with mode := m } [.mode] := by
  intro p hp
  have hsame := p.same_refl c
  cases p
  case mode => exact absurd (List.mem_singleton_self _) hp
  all_goals exact hsame

-- ## Predicates, lanes and index registers

/-- The lanes of the mask hold the new bits, and no other bit of any predicate changes. -/
theorem Course.writePred_holds (c : Course) (p : Nat) (m : W32) (f : Nat → Bool) : PredHolds c (c.writePred p m f) p m f := by
  intro q l hl
  rw [Course.writePred, Course.setPred_pred]
  by_cases hq : q = p
  · subst hq
    rw [if_congr (and_iff_right rfl) rfl rfl, if_pos rfl, BitVec.getLsbD_or, BitVec.getLsbD_and, BitVec.getLsbD_and,
      BitVec.getLsbD_not, maskOf_bit]
    cases m.getLsbD l <;> simp [hl]
  · simp [hq]

/-- A whole predicate written holds the value in every lane. -/
theorem Course.setPred_holds (c : Course) (p : Nat) (v : W32) :
    PredHolds c (c.setPred p v) p 0xFFFFFFFF (fun l => v.getLsbD l) := by
  intro q l hl
  have hall : (0xFFFFFFFF : W32).getLsbD l = true := by interval_cases l <;> rfl
  rw [Course.setPred_pred, hall]
  by_cases hq : q = p <;> simp [hq]

/-- A write of a predicate leaves everything but the predicates alone. -/
theorem Course.setPred_keeps (c : Course) (p : Nat) (v : W32) : CourseKeeps c (c.setPred p v) [.preds] := by
  intro q hq
  cases q <;> simp_all [Part.same, Course.vIsFull, Course.sIsFull, Course.vreg, Course.sreg, Course.xreg, Course.gen,
    Course.batch, Course.stripBad]

/-- A write of lanes of a predicate leaves everything but the predicates alone. -/
theorem Course.writePred_keeps (c : Course) (p : Nat) (m : W32) (f : Nat → Bool) :
    CourseKeeps c (c.writePred p m f) [.preds] := c.setPred_keeps p _

/-- The index registers of the fields step in the lanes of the mask, and nothing else changes. -/
theorem Course.stepIn_step (c : Course) (m : W32) (os : List Opnd) :
    (∀ x, (c.stepIn m os).xreg x = if x ∈ indexRegs os then (c.xreg x).stepped m else c.xreg x)
      ∧ CourseKeeps c (c.stepIn m os) [.index] :=
  foldl_step m (indexRegs os) c (nodup_eraseDups _ _ (Nat.le_refl _))

/-- The active lanes depend on MODE, EXEC and the predicates alone. -/
theorem CourseKeeps.active_eq {c k : Course} {ps : List Part} (h : CourseKeeps c k ps) (hmode : .mode ∉ ps)
    (hexec : .exec ∉ ps) (hpreds : .preds ∉ ps) : k.active = c.active := by
  have hp : k.pred = c.pred := funext (h .preds hpreds)
  simp only [Course.active, Course.guard, show k.mode = c.mode from h .mode hmode, show k.exec = c.exec from h .exec hexec, hp]

/-- Lanes written and the index registers then stepped: what the vector path of an instruction without flags leaves. -/
theorem Course.writeLanes_stepIndexes (c : Course) (d : Opnd) (m : W32) (f : Nat → W32) (os : List Opnd) :
    LanesHold c ((c.writeLanes d m f).stepIndexes os) d m f ∧ IndexesStep c ((c.writeLanes d m f).stepIndexes os) os
      ∧ CourseKeeps c ((c.writeLanes d m f).stepIndexes os) [.vregs, .poison, .index] := by
  have hw := (Course.writeLanes_keeps c d m f).1
  obtain ⟨hx, hi⟩ := Course.stepIndexes_step (c.writeLanes d m f) os
  refine ⟨fun r l hl => ?_, fun x => ?_, hw.trans hi⟩
  · rw [← Course.writeLanes_hold c d m f r l hl]
    unfold Course.lane
    rw [hi .vregs (by decide) r]
  · rw [hx x, hw.active_eq (by decide) (by decide) (by decide), hw .index (by decide) x]

-- ## The guard disabled, as SEL sees it (R288)

/-- A bit of a word, read from its number. -/
theorem bit_toNat (m : W32) (k : Nat) : bit m.toNat k = m.getLsbD k := by
  rw [BitVec.getLsbD, Nat.testBit_eq_decide_div_mod_eq, bit, beq_eq_decide]

@[simp] theorem Course.unguarded_exec (c : Course) : c.unguarded.exec = c.exec := rfl

/-- With the guard disabled, the active lanes are those of EXEC. -/
@[simp] theorem Course.unguarded_active (c : Course) : c.unguarded.active = c.exec := by
  have hge : bit (c.mode &&& 0xFFFFFFEF).toNat 4 = false := by
    rw [bit_toNat, BitVec.getLsbD_and, show (0xFFFFFFEF : W32).getLsbD 4 = false from rfl, Bool.and_false]
  simp only [Course.active, Course.guard, Course.unguarded, hge, Bool.false_eq_true, if_false]
  exact BitVec.and_allOnes

/-- SEL selects in a lane by p[GP], complemented where GN is set; disabling the guard changes neither. -/
theorem Course.unguarded_selector (c : Course) (l : Nat) :
    c.unguarded.selector l = xor ((c.pred (c.mode.toNat % 8)).getLsbD l) (c.mode.getLsbD 3) := by
  have hgp : bits (c.mode &&& 0xFFFFFFEF).toNat 2 0 = c.mode.toNat % 8 := by
    rw [bits, Nat.pow_zero, Nat.div_one, BitVec.toNat_and, Nat.and_mod_two_pow]
    exact (Nat.and_two_pow_sub_one_eq_mod _ 3).trans (Nat.mod_mod _ _)
  have hgn : bit (c.mode &&& 0xFFFFFFEF).toNat 3 = c.mode.getLsbD 3 := by
    rw [bit_toNat, BitVec.getLsbD_and, show (0xFFFFFFEF : W32).getLsbD 3 = true from rfl, Bool.and_true]
  change ((c.pred (bits (c.mode &&& 0xFFFFFFEF).toNat 2 0)).getLsbD l != bit (c.mode &&& 0xFFFFFFEF).toNat 3) = _
  rw [hgp, hgn, Bool.bne_eq_xor]

/-- What is kept with the guard disabled is kept once MODE stands again as it was. -/
theorem CourseKeeps.of_unguarded {c k : Course} {ps : List Part} (h : CourseKeeps c.unguarded k ps) :
    CourseKeeps c { k with mode := c.mode } ps := by
  intro p hp
  cases p
  case mode => rfl
  all_goals exact h _ hp

-- ## Predicate logic, transfers and select (R286, R287, R288)

/-- The operations of PLOG as R286 lists them. -/
theorem plogBit_eq_getD (op : Nat) (a b : Bool) (h : op < 8) :
    plogBit op a b = [a && b, a || b, xor a b, a && !b, a || !b, !a, true, false].getD op false := by
  interval_cases op <;> cases a <;> cases b <;> rfl

/-- PRD into a scalar writes the whole predicate, into lanes a bit each. -/
theorem execPrd_completes (s : State) (d : Opnd) (p : Nat) (h : Passes s ⟨[], [], [d]⟩ (s.cur.pathLanes [d]) (.ok ())) :
    ∃ t, exec (.prd d p) s = .next t ∧ Leaves s t 4 [.vregs, .sregs, .poison, .index] ∧
      if d.isS then ScalarHolds s.cur t.cur d ((s.cur.pred p).setWidth 64) ∧ (∀ r, t.cur.vreg r = s.cur.vreg r)
      else LanesHold s.cur t.cur d s.cur.active (fun l => if (s.cur.pred p).getLsbD l then 1 else 0)
        ∧ (∀ r, t.cur.sreg r = s.cur.sreg r) ∧ IndexesStep s.cur t.cur [d] := by
  refine ⟨_, finish_of_ok h, ?_⟩
  cases hd : d.isS
  · have hbit : (fun l => BitVec.ofNat 32 (ofBool ((s.cur.pred p).getLsbD l)))
        = fun l => if (s.cur.pred p).getLsbD l then (1 : W32) else 0 := by
      funext l; cases (s.cur.pred p).getLsbD l <;> rfl
    obtain ⟨hlanes, hindex, hkeep⟩ := s.cur.writeLanes_stepIndexes d s.cur.active
      (fun l => if (s.cur.pred p).getLsbD l then 1 else 0) [d]
    simp only [Bool.false_eq_true, if_false, hbit, lanesHold_retire, indexesStep_retire, State.retire_cur_sreg]
    exact ⟨s.retire_leaves _ 4 _ (hkeep.mono (by decide)) (by decide) (by decide) (by decide), hlanes,
      hkeep .sregs (by decide), hindex⟩
  · have hkeep := s.cur.writeScalar_keeps d ((s.cur.pred p).setWidth 64)
    simp only [if_true, scalarHolds_retire, State.retire_cur_vreg]
    exact ⟨s.retire_leaves _ 4 _ (hkeep.mono (by decide)) (by decide) (by decide) (by decide),
      s.cur.writeScalar_holds d _, hkeep .vregs (by decide)⟩

/-- PWR writes all of the predicate from a scalar, or an active lane's bit from whether its value is nonzero. -/
theorem execPwr_completes (s : State) (p : Nat) (a : Opnd) (hold : Bool)
    (h : Passes s ⟨[a], [], []⟩ (s.cur.pathLanes [a]) (.ok ())) :
    ∃ t, exec (.pwr p a hold) s = .next t ∧ Leaves s t 4 [.preds, .index] ∧
      if a.isS then PredHolds s.cur t.cur p 0xFFFFFFFF (fun l => (s.cur.src64 a).getLsbD l)
        ∧ ∀ x, t.cur.xreg x = s.cur.xreg x
      else PredHolds s.cur t.cur p s.cur.active (fun l => decide (s.cur.src a l ≠ 0)) ∧ IndexesStep s.cur t.cur [a] := by
  refine ⟨_, finish_of_ok h, ?_⟩
  cases ha : a.isS
  · have hpred := s.cur.writePred_keeps p s.cur.active (fun l => decide (s.cur.src a l ≠ 0))
    have hholds := s.cur.writePred_holds p s.cur.active (fun l => decide (s.cur.src a l ≠ 0))
    obtain ⟨hx, hi⟩ := (s.cur.writePred p s.cur.active fun l => decide (s.cur.src a l ≠ 0)).stepIn_step s.cur.active [a]
    simp only [Bool.false_eq_true, if_false, predHolds_retire, indexesStep_retire]
    refine ⟨s.retire_leaves _ 4 _ (hpred.trans hi) (by decide) (by decide) (by decide), fun q l hl => ?_, hx⟩
    rw [hi .preds (by decide) q]
    exact hholds q l hl
  · have hkeep := s.cur.setPred_keeps p ((s.cur.src64 a).setWidth 32)
    simp only [if_true, predHolds_retire, State.retire_cur_xreg]
    refine ⟨s.retire_leaves _ 4 _ (hkeep.mono (by decide)) (by decide) (by decide) (by decide), fun q l hl => ?_,
      hkeep .index (by decide)⟩
    rw [s.cur.setPred_holds p _ q l hl]
    simp [hl]

/-- SEL works on the lanes of EXEC, whatever the guard holds; on the scalar path the lowest of them selects. -/
theorem execSel_completes (s : State) (d a b : Opnd) (hold : Bool)
    (h : s.cur.unguarded.check s.curL ⟨[a], [b], [d]⟩ (s.cur.unguarded.pathLanes [d, a, b]) (.ok ()) = .ok ()) :
    ∃ t, exec (.sel d a b hold) s = .next t ∧ Leaves s t 4 [.vregs, .sregs, .poison, .index] ∧
      let pick := fun l => xor ((s.cur.pred (s.cur.mode.toNat % 8)).getLsbD l) (s.cur.mode.getLsbD 3)
      if allScalar [d, a, b] then
        ScalarHolds s.cur t.cur d
            (if (lanesOf s.cur.exec).head?.any pick then s.cur.src64 a else s.cur.src64 b)
          ∧ ∀ r, t.cur.vreg r = s.cur.vreg r
      else LanesHold s.cur t.cur d s.cur.exec (fun l => if pick l then s.cur.src a l else s.cur.src b l)
        ∧ (∀ r, t.cur.sreg r = s.cur.sreg r)
        ∧ ∀ x, t.cur.xreg x = if x ∈ indexRegs [d, a, b] then (s.cur.xreg x).stepped s.cur.exec else s.cur.xreg x := by
  refine ⟨_, finish_of_ok h, ?_⟩
  cases hd : allScalar [d, a, b]
  · obtain ⟨hlanes, hindex, hkeep⟩ := s.cur.unguarded.writeLanes_stepIndexes d s.cur.exec
      (fun l => if s.cur.unguarded.selector l then s.cur.unguarded.src a l else s.cur.unguarded.src b l) [d, a, b]
    simp only [Bool.false_eq_true, if_false, lanesHold_retire, State.retire_cur_sreg, State.retire_cur_xreg,
      ← Course.unguarded_selector]
    refine ⟨s.retire_leaves _ 4 _ (hkeep.of_unguarded.mono (by decide)) (by decide) (by decide) (by decide), hlanes,
      hkeep .sregs (by decide), fun x => ?_⟩
    rw [← s.cur.unguarded_active]
    exact hindex x
  · have hkeep := s.cur.unguarded.writeScalar_keeps d
    simp only [if_true, scalarHolds_retire, State.retire_cur_vreg, Course.unguarded_exec, ← Course.unguarded_selector]
    refine ⟨s.retire_leaves _ 4 _ ((hkeep _).of_unguarded.mono (by decide)) (by decide) (by decide) (by decide),
      fun r => (s.cur.unguarded.writeScalar_holds d _ r).trans ?_, hkeep _ .vregs (by decide)⟩
    refine if_congr Iff.rfl (if_congr ?_ rfl rfl) rfl
    cases lanesOf s.cur.exec with
    | nil => rfl
    | cons l ls => rfl

-- ## MODE (R276)

/-- The fields of MODE as the statement lists them, low bit and width, are those of MODEF. -/
theorem modeField_of_listed (sel lo w : Nat)
    (h : [(0, 5), (5, 5), (10, 3), (13, 1), (14, 1), (15, 1), (16, 1)][sel]? = some (lo, w)) :
    modeField sel = (lo, w) ∧ 0 < w := by
  obtain ⟨hlt, heq⟩ := List.getElem?_eq_some_iff.mp h
  simp only [List.length_cons, List.length_nil] at hlt
  interval_cases sel <;> cases heq <;> exact ⟨rfl, by decide⟩

/-- Replacing `w` bits of a number from bit `lo` on is cutting it into three parts and putting the middle one anew. -/
theorem replaceBits_eq (m lo w val : Nat) (hw : 0 < w) :
    m - bits m (lo + w - 1) lo * 2 ^ lo + val * 2 ^ lo
      = 2 ^ lo * (2 ^ w * (m / 2 ^ lo / 2 ^ w) + val) + m % 2 ^ lo := by
  have hbits : bits m (lo + w - 1) lo = m / 2 ^ lo % 2 ^ w := by
    rw [bits, show lo + w - 1 + 1 - lo = w by omega]
  have hm := Nat.div_add_mod m (2 ^ lo)
  have hq := Nat.div_add_mod (m / 2 ^ lo) (2 ^ w)
  rw [hbits]
  generalize m / 2 ^ lo % 2 ^ w = mid at hq ⊢
  generalize m / 2 ^ lo / 2 ^ w = top at hq ⊢
  generalize m % 2 ^ lo = low at hm ⊢
  rw [← hm, ← hq, Nat.mul_add, Nat.mul_add, Nat.mul_comm val, Nat.mul_comm mid]
  omega

/-- A bit of MODE with one field replaced. -/
theorem setModeField_getLsbD (m : W32) (sel val lo w j : Nat) (hf : modeField sel = (lo, w)) (hw : 0 < w)
    (hval : val < 2 ^ w) (hj : j < 32) :
    (setModeField m sel val).getLsbD j = if lo ≤ j ∧ j < lo + w then val.testBit (j - lo) else m.getLsbD j := by
  rw [setModeField, hf, BitVec.getLsbD_ofNat, Nat.mod_eq_of_lt hval, replaceBits_eq _ _ _ _ hw,
    Nat.testBit_two_pow_mul_add _ (Nat.mod_lt _ (Nat.two_pow_pos lo)), Nat.testBit_two_pow_mul_add _ hval]
  simp only [hj, decide_true, Bool.true_and, Nat.testBit_mod_two_pow, Nat.testBit_div_two_pow]
  rcases Nat.lt_or_ge j lo with hlo | hlo
  · rw [if_pos hlo, if_neg (by omega), decide_eq_true hlo, Bool.true_and]; rfl
  · rw [if_neg (by omega)]
    rcases Nat.lt_or_ge j (lo + w) with hhi | hhi
    · rw [if_pos (by omega), if_pos ⟨hlo, hhi⟩]
    · rw [if_neg (by omega), if_neg (by omega), show j - lo - w + w + lo = j by omega]
      rfl

/-- MODEW beyond the checks of its source: a bit of 63:17 set is illegal, else MODE is the source. -/
theorem execModew_of_passes (s : State) (a : Opnd) (h : Passes s ⟨[a], [], []⟩ [0] (.ok ())) :
    exec (.modew a) s =
      if (s.cur.src64 a).toNat < 2 ^ 17 then .next ((s.setCur { s.cur with mode := (s.cur.src64 a).setWidth 32 }).retire 4)
      else .next (stopped s illegal) := by
  change execModew a s = _
  unfold execModew
  simp only [show s.cur.check s.curL ⟨[a], [], []⟩ [0] (.ok ()) = .ok () from h]
  by_cases hlt : (s.cur.src64 a).toNat < 2 ^ 17
  · rw [if_pos hlt, need, decide_eq_true hlt]; rfl
  · rw [if_neg hlt, need, decide_eq_false hlt]; rfl

-- ## Holding a slate touches no workgroup

@[simp] theorem State.dropSlate_wgs (s : State) (sl : Nat) : (s.dropSlate sl).wgs = s.wgs := by
  unfold State.dropSlate; split <;> rfl

/-- A place in a set leaves the workgroups alone. -/
theorem State.roomAt_wgs (s t : State) (h n : Nat) (e : s.roomAt h n = some t) : t.wgs = s.wgs := by
  unfold State.roomAt at e
  split at e
  · cases e; rfl
  · obtain ⟨v, -, rfl⟩ := Option.map_eq_some_iff.mp e
    split
    · exact s.dropSlate_wgs _
    · rfl

@[simp] theorem State.holdSlate_wgs (s : State) (sl : Nat) : (s.holdSlate sl).wgs = s.wgs := by
  unfold State.holdSlate
  split
  · rfl
  · split
    · rfl
    · rename_i t h; exact s.roomAt_wgs t _ _ h

@[simp] theorem holdAll_wgs : ∀ (l : List Nat) (s : State), (l.foldl State.holdSlate s).wgs = s.wgs := by
  intro l
  induction l with
  | nil => exact fun _ => rfl
  | cons a r ih => exact fun s => by rw [List.foldl_cons, ih, State.holdSlate_wgs]

-- ## Reads with no reduction pending (R87)

/-- With no reduction pending, settling changes nothing. -/
theorem State.settle_of_reds_nil (s : State) (sl : Nat) (h : s.reds = []) : s.settle sl = s := by
  cases s
  subst h
  rfl

/-- With no reduction pending, settling a range changes nothing. -/
theorem State.settleRange_of_reds_nil (s : State) (pa n : Nat) (h : s.reds = []) : s.settleRange pa n = s :=
  foldl_keeps (· = s) State.settle (fun _ sl ht => ht ▸ s.settle_of_reds_nil sl h) _ _ rfl

/-- With no reduction pending, a read at home gives what memory holds and changes neither memory nor a workgroup. -/
theorem State.homeRead_of_reds_nil (s : State) (pa n : Nat) (h : s.reds = []) :
    (s.homeRead pa n).2 = s.read pa n ∧ (s.homeRead pa n).1.mem = s.mem ∧ (s.homeRead pa n).1.wgs = s.wgs := by
  unfold State.homeRead
  rw [s.settleRange_of_reds_nil pa n h]
  refine ⟨?_, holdAll_mem _ s, holdAll_wgs _ s⟩
  simp only [State.read, State.bytesAt, State.byteAt, holdAll_mem]

-- ## Fetch

/-- A lookup answered by a leaf that does not count its uses counts nothing (R40). -/
theorem State.countPages_of_lookup (s : State) (k asn root va kind : Nat) (x : Xlat) (leaf : Nat)
    (h : lookup s k asn va kind = .ok x leaf) (hleaf : leafAM leaf ≠ 3) : s.countPages k asn root [va] = s := by
  obtain ⟨e, he, hl⟩ : ∃ e, tlbFind (s.tlbOf k) asn va (Config.choice s.steps) = some e ∧ e.leaf.toNat = leaf := by
    unfold lookup at h
    split at h
    · cases h
    · split at h
      · rename_i e he
        split at h
        · cases h
        · cases h; exact ⟨e, he, rfl⟩
      · cases h
  subst hl
  unfold State.countPages
  split
  · rfl
  · have hfor : s.leafFor k asn root va = some e := by rw [State.leafFor, he]; rfl
    rw [List.filterMap_cons_some hfor]
    exact if_pos hleaf

/-- A word that can be fetched is fetched: neither memory nor a workgroup changes. -/
theorem fetchWord_of_wordAt (s : State) (va pa : Nat) (w : W32) (hreds : s.reds = []) (hw : WordAt s va pa w) :
    ∃ t, fetchWord s va = .ok (t, w) ∧ t.mem = s.mem ∧ t.wgs = s.wgs := by
  obtain ⟨x, leaf, hlook, rfl, hleaf, hat⟩ := hw
  have hfor : lookupFor s s.curW.core s.curG.chain.asn va 3 (s.curWg, 2 * s.curCrs) = .ok x leaf := by
    rw [lookupFor, hlook]
  have hcount := s.countPages_of_lookup s.curW.core s.curG.chain.asn s.curG.chain.root va 3 x leaf hlook hleaf
  unfold fetchWord
  simp only [hfor, hcount]
  rcases hat with hhit | ⟨hmiss, hclean, -, hread⟩
  · rw [hhit]; exact ⟨s, rfl, rfl, rfl⟩
  · obtain ⟨hval, hmem, hwgs⟩ := s.homeRead_of_reds_nil x.pa 4 hreds
    rw [hmiss]
    simp only [hclean, Bool.false_eq_true, if_false]
    refine ⟨_, by rw [hval, hread, BitVec.ofNat_toNat, BitVec.setWidth_eq], ?_, ?_⟩
    · exact hmem
    · exact hwgs

/-- A word of NOP's opcode with a field set is no instruction. -/
theorem decodeCore_nop_field (w : W32) (hpos : 0 < w.toNat) (hop : w.toNat < 2 ^ 25) :
    decodeCore [w] = .error .badField := by
  have hparse : parseCore [w] = .ok .nop := by
    have hzero : fOp w = 0 := Nat.div_eq_of_lt hop
    simp [parseCore, parseLow, hzero]
  have hne : ¬ encodeCore .nop = [w] := by
    intro h
    cases h
    exact absurd hpos (by decide)
  rw [decodeCore, hparse]
  simpa [encodeCore, Instr.wf] using hne

/-- The issue of a word that is no instruction, and needs no further word, ends in the illegal trap. -/
theorem nextInstr_of_badField (s t : State) (w : W32) (hf : fetchWord s s.cur.pc.toNat = .ok (t, w))
    (hd : decodeCore [w] = .error .badField) : nextInstr s = .error (.after t illegal) := by
  have hi : fetchInstr s s.cur.pc.toNat = .error (.after t illegal) := by
    unfold fetchInstr
    simp only [hf, hd, bind, Except.bind]
  rw [nextInstr, hi]
  rfl

-- ## The statements

/-- Settles O8: each instruction writes its own destination from the course's registers and moves past itself; SEL does so
with the guard disabled. -/
theorem predicateInstructionsAndSelect : Obligations.PredicateInstructionsAndSelect := by
  unfold Obligations.PredicateInstructionsAndSelect
  refine ⟨fun s pd op pa pb hop => ?_, execPrd_completes, execPwr_completes, execSel_completes⟩
  refine ⟨_, rfl, s.retire_leaves _ 4 _ (s.cur.writePred_keeps pd _ _) (by decide) (by decide) (by decide), ?_⟩
  simp only [predHolds_retire, ← plogBit_eq_getD op _ _ hop]
  exact s.cur.writePred_holds pd _ _

/-- Settles O14: NOP retires and nothing else; a word of its opcode with a field set is fetched and refused by the decoder;
the MODE instructions work on MODE alone. -/
theorem modeInstructionsWriteOneField : Obligations.ModeInstructionsWriteOneField := by
  unfold Obligations.ModeInstructionsWriteOneField
  refine ⟨fun s => ?nop, by decide, fun s pa w hpos hop hreds hw => ?fetch, fun s a h hlt => ?modew, fun s a h hge => ?illegal,
    fun s sel val lo w hsel hval => ?modef, fun s d h => ?moder⟩
  case nop =>
    refine ⟨_, rfl, ?_⟩
    rw [s.retire_eq_setCur]
    exact s.retire_leaves s.cur 4 [] (fun p _ => p.same_refl _) (by decide) (by decide) (by decide)
  case fetch =>
    obtain ⟨t, hf, hmem, hwgs⟩ := fetchWord_of_wordAt s _ pa w hreds hw
    exact ⟨t, nextInstr_of_badField s t w hf (decodeCore_nop_field w hpos hop),
      fun y => by rw [SameByte, State.byteAt, hmem, State.byteAt], hwgs⟩
  case modew =>
    refine ⟨_, (execModew_of_passes s a h).trans (if_pos hlt),
      s.retire_leaves _ 4 _ (s.cur.withMode_keeps _) (by decide) (by decide) (by decide), ?_⟩
    rw [State.retire_cur_mode]
  case illegal => exact (execModew_of_passes s a h).trans (if_neg (Nat.not_lt.mpr hge))
  case modef =>
    obtain ⟨hfield, hw⟩ := modeField_of_listed sel lo w hsel
    refine ⟨_, rfl, s.retire_leaves _ 4 _ (s.cur.withMode_keeps _) (by decide) (by decide) (by decide), fun j hj => ?_⟩
    rw [State.retire_cur_mode]
    exact setModeField_getLsbD s.cur.mode sel val lo w j hfield hw hval hj
  case moder =>
    refine ⟨_, finish_of_ok h, s.retire_leaves _ 4 _ (s.cur.writeScalar_keeps d _) (by decide) (by decide) (by decide), ?_⟩
    simpa using s.cur.writeScalar_holds d (s.cur.mode.setWidth 64)

end Sys2Proof.Machine
end

section
/-! PROOF. The trap record (R396, R399): the bytes of a number read back, a field among packed ones, and the layout. -/

namespace Sys2Proof.Machine

-- ## Numbers packed into bytes

@[simp] theorem length_bytesOf (n v : Nat) : (bytesOf n v).length = n := by
  simp [bytesOf]

/-- The lowest byte comes first. -/
theorem bytesOf_succ (n v : Nat) : bytesOf (n + 1) v = BitVec.ofNat 8 v :: bytesOf n (v / 2 ^ 8) := by
  simp only [bytesOf, List.range_succ_eq_map, List.map_cons, List.map_map, Nat.mul_zero, Nat.pow_zero, Nat.div_one]
  congr 2
  funext k
  rw [Function.comp_apply, Nat.div_div_eq_div_mul, ← Nat.pow_add, Nat.mul_succ, Nat.add_comm]

theorem leBytes_bytesOf (n v : Nat) : leBytes (bytesOf n v) = v % 2 ^ (8 * n) := by
  induction n generalizing v with
  | zero => rw [Nat.mul_zero, Nat.pow_zero, Nat.mod_one]; rfl
  | succ n ih =>
    calc leBytes (bytesOf (n + 1) v)
        = v % 2 ^ 8 + 2 ^ 8 * leBytes (bytesOf n (v / 2 ^ 8)) := by rw [bytesOf_succ]; rfl
      _ = v % 2 ^ 8 + 2 ^ 8 * (v / 2 ^ 8 % 2 ^ (8 * n)) := by rw [ih]
      _ = v % 2 ^ (8 * (n + 1)) := by rw [← Nat.mod_mul, ← Nat.pow_add, Nat.mul_succ, Nat.add_comm]

-- ## A field of a record of packed numbers

/-- A field further on stands among what follows the first one. -/
theorem recField_append_of_le (n v : Nat) (r : List Byte) (at1 m : Nat) (h : n ≤ at1) :
    recField (bytesOf n v ++ r) at1 m = recField r (at1 - n) m := by
  have hdrop : (bytesOf n v).drop at1 = [] := List.drop_of_length_le ((length_bytesOf n v).trans_le h)
  rw [recField, List.drop_append, hdrop, length_bytesOf, List.nil_append, recField]

/-- The first field. -/
theorem recField_append_zero (n v : Nat) (r : List Byte) : recField (bytesOf n v ++ r) 0 n = v % 2 ^ (8 * n) := by
  rw [recField, List.drop_zero, List.take_left' (length_bytesOf n v), leBytes_bytesOf]

/-- The only field. -/
theorem recField_bytesOf (n v : Nat) : recField (bytesOf n v) 0 n = v % 2 ^ (8 * n) := by
  rw [← recField_append_zero n v [], List.append_nil]

-- ## The trap record

/-- R396's table: errors below code 0x09, faults to 0x0B, errors again to 0x0D, events from there on. -/
theorem trapClass_eq (code : Nat) :
    trapClass code = if code < 0x09 then 0 else if code < 0x0C then 1 else if code < 0x0E then 0 else 2 := by
  unfold trapClass
  split_ifs <;> omega

theorem trapClass_lt (code : Nat) : trapClass code < 2 ^ 8 := by
  unfold trapClass
  split_ifs <;> decide

theorem State.length_trapRecord (s : State) (c : Course) (i : TrapInfo) : (s.trapRecord c i).length = 128 := by
  simp [State.trapRecord, State.timeBytes]

/-- Settles O18: the record is a row of packed numbers, so that each field reads back as its number, which its width holds. -/
theorem trapRecordLayout : Obligations.TrapRecordLayout := by
  unfold Obligations.TrapRecordLayout
  intro s c i hcode hlane harr hinfo hfva hpeer r
  refine ⟨s.length_trapRecord c i, ?_⟩
  simp only [r, State.trapRecord, State.timeBytes, List.append_assoc, recField_append_of_le, recField_append_zero, recField_bytesOf,
    Nat.reduceLeDiff, Nat.reduceSub, Nat.reduceMul, BitVec.toNat_mod_cancel, Nat.zero_mod, Nat.mod_mod, true_and, and_true]
  exact ⟨Nat.mod_eq_of_lt hcode, (Nat.mod_eq_of_lt (trapClass_lt i.code)).trans (trapClass_eq i.code), Nat.mod_eq_of_lt hlane,
    Nat.mod_eq_of_lt harr, Nat.mod_eq_of_lt hinfo, Nat.mod_eq_of_lt hfva, Nat.mod_eq_of_lt (hpeer.trans (by decide))⟩

end Sys2Proof.Machine
end
